-- ==== Sys2Proof/Word.lean ====
section
/-! DEFINITION. Word types and their plainest arithmetic (spec/00_scope.md R3-R6). -/
namespace Sys2Proof

/-- One byte of memory. -/
abbrev Byte := BitVec 8
/-- A 32-bit register value (v, c). -/
abbrev W32 := BitVec 32
/-- A 64-bit value: an s register, an address, TIME. -/
abbrev W64 := BitVec 64
/-- One instruction slot (R4). -/
abbrev Slot := BitVec 96

/-- Bits hi down to lo of a natural number, as an unsigned value (R6's x[hi:lo]). -/
def bits (x hi lo : Nat) : Nat := (x >>> lo) % 2 ^ (hi + 1 - lo)

/-- The value of the low w bits of x read as signed (R6's sext). -/
def sval (w x : Nat) : Int :=
  if 2 ^ (w - 1) ≤ x % 2 ^ w then (x % 2 ^ w : Int) - 2 ^ w else (x % 2 ^ w : Int)

/-- Least significant w bits of an integer, two's complement. -/
def wrap (w : Nat) (x : Int) : Nat := (x % (2 ^ w : Int)).toNat

end Sys2Proof
end

