-- ==== Sys2Proof/Config.lean ====
section
/-! DEFINITION. What an implementation fixes and what spec/ leaves open, as constants without a body: no proof can see a value of one. The assumption log names each. -/
namespace Sys2Proof

/-- A free choice: a number for a step and a key naming what is chosen (log 3). -/
opaque Config.choose : Nat → List Nat → Nat

/-- Nanoseconds of the base die's reference clock that pass at a step (log 2). -/
opaque Config.elapsed : Nat → Nat

/-- A special function's f32 result before it is held to the bound of R167: instruction word, FP control word, operand bits (log 11). -/
opaque Config.special : Nat → Nat → Nat → Nat

/-- A byte read under a key other than the one it was written under, R177: step and address (log 16). -/
opaque Config.garbage : Nat → Nat → Byte

/-- Whether the guest answers a read of a byte of its memory at a step as R394 asks, and what it answers otherwise (log 17). -/
opaque Config.guestServes : Nat → Nat → Bool
opaque Config.guestByte : Nat → Nat → Byte

/-- The 64-byte key that a KEYLOAD's argument unwraps to, R442: public key, wrapped key, boot count (log 12). -/
opaque Config.unwrap : List Byte → List Byte → Nat → Option (List Byte)

/-- Fuses, R429 (log 12): the fused power ceiling, key-slot digests, revocation, their parity, the bytes MEAS1 covers for given SVN floors,
the SVN floor of each target at manufacture. -/
opaque Config.fusedCeiling : Nat
opaque Config.slotDigest : Nat → BitVec 256
opaque Config.slotRevoked : Nat → Bool
opaque Config.fusesGood : Bool
opaque Config.fuseSummary : List Nat → List Byte
opaque Config.fuseFloor : Nat → Nat

/-- The bytes of the boot ROM, 32 KiB, and the fused device secret, R429 (log 12). -/
opaque Config.bootRom : Nat → Byte
opaque Config.deviceSecret : List Byte
/-- The serial number and the transport key of a boot, R443 (log 12). -/
opaque Config.serial : List Byte
opaque Config.transportKey : Nat → List Byte
/-- What a device secret gives the attestation key, R443 (log 12): its identifier, the secret that starts a chain of a one-time key, by
index and chain, and the randomizer of a signature, by index. -/
opaque Config.attestIdOf : List Byte → List Byte
opaque Config.otsSecretOf : List Byte → Nat → Nat → List Byte
opaque Config.otsRandomOf : List Byte → Nat → List Byte
/-- The certificate of the attestation key, as it lies in flash from manufacture, R443 (log 12). -/
opaque Config.attestCert : Nat → Byte

/-- Flash at manufacture: target, bank B, offset (log 12). -/
opaque Config.flash : Nat → Bool → Nat → Byte

/-- Whether the socket holds a guest, R433 (log 12). -/
opaque Config.guestFitted : Bool
/-- The target of its rail in mV that the guest's capability block gives, R434, R436 (log 12). -/
opaque Config.guestRail : Nat

/-- Entries of the event log: the code Genmon's sources give an event (R431, log 12). -/
opaque Config.eventCode : Nat → Nat
/-- DATA of an entry of the event log: its kind and values (log 12). -/
opaque Config.eventData : Nat → List Nat → List Byte

/-- PCEIL, at most 3600 W, R14. -/
def Config.pceil : Nat := min Config.fusedCeiling 3600

end Sys2Proof
end

