-- ==== Sys2Proof/Syntax/Types.lean ====
section
/-! DEFINITION. Operand, modifier and message types of the instructions and of the part's steps (spec/02 R36-R49, and the class tables R87 to R424). -/
namespace Sys2Proof

/-- Operand type TY, R46, in the order of its codes. -/
inductive Ty where
  | u32 | s32 | u64 | s64 | u16 | s16 | f16x2 | bf16x2 | u8 | s8 | f32 | f64 | f16 | bf16 | b32 | b64
  deriving DecidableEq, Repr

/-- Special registers, R41, in the order of specs 0xD0 to 0xE9. -/
inductive Special where
  | tid | lane | grp | team | tmx | tmy | tmz | ntmx | ntmy | ntmz | core | clu | die | pkg | role
  | region | time | fslot | fcyc | warn | trapc | trapv | cancel | launch | part | succ
  deriving DecidableEq, Repr

/-- An 8-bit register spec with a legal value, R38. -/
inductive Spec where
  | v (n : Fin 128)      -- per thread, 32 bits
  | s (n : Fin 64)       -- per group, 64 bits
  | c (n : Fin 8)        -- clause temporary
  | l (n : Fin 3)        -- operand latch
  | zero
  | imm
  | sp (r : Special)
  | k (n : Fin 8)        -- predicate
  deriving DecidableEq, Repr

/-- HOLD, R43. -/
inductive Hold where
  | none | sa | sb | sc
  deriving DecidableEq, Repr

/-- The fields of the common format that every instruction has, R36. A field its entry does not use
holds the value of zero bits: `Spec.v 0` for a register field. -/
structure Opnds where
  ty : Ty := .u32
  dst : Spec := .v 0
  sa : Spec := .v 0
  sb : Spec := .v 0
  sc : Spec := .v 0
  neg : Bool := false            -- PR[49]
  pk : Fin 8 := 0                -- PR[48:46]
  hold : Hold := .none
  fl : Option (Fin 12) := none   -- 15 is none
  imm : BitVec 24 := 0
  deriving DecidableEq, Repr

inductive BrcMode where | dec | nz | z
  deriving DecidableEq, Repr
inductive MeetMode where | set | clr
  deriving DecidableEq, Repr
inductive VoteMode where | all | any | uni
  deriving DecidableEq, Repr
inductive ShufMode where | idx | xor | up | down
  deriving DecidableEq, Repr
inductive PushMode where | hi | lo
  deriving DecidableEq, Repr
inductive RankMode where | desc | asc
  deriving DecidableEq, Repr
inductive SleepMode where | rel | abs
  deriving DecidableEq, Repr
inductive MoviMode where | lo | mid | top
  deriving DecidableEq, Repr
inductive RdlMode where | idx | first
  deriving DecidableEq, Repr
inductive KsetOp where | and | or | xor | andn | orn | nand | nor | xnor | nz
  deriving DecidableEq, Repr
inductive SrdItem where | fpcw | argp | khdr | scr | accs | thr | slot | dl
  deriving DecidableEq, Repr
/-- RND, R152. -/
inductive Rnd where | rn | rz | ru | rd
  deriving DecidableEq, Repr
/-- FZ, R151. -/
inductive Fz where | cw | fzn | fzo | fza
  deriving DecidableEq, Repr

/-- MOD of classes 0x2 to 0x4, R48. -/
structure ArithMods where
  rnd : Rnd := .rn
  sat : Bool := false
  fz : Fz := .cw
  cond : Fin 8 := 0
  ty2 : Ty := .u32
  deriving DecidableEq, Repr

/-- HINT, R181. -/
inductive Hint where | none | strm | l2 | na
  deriving DecidableEq, Repr
/-- VEC, R48. -/
inductive Vec where | one | two | four
  deriving DecidableEq, Repr
structure MemMods where
  hint : Hint := .none
  vec : Vec := .one
  deriving DecidableEq, Repr

/-- SCOPE, R48. -/
inductive Scope where | team | cluster | package | pod
  deriving DecidableEq, Repr
inductive FenceKind where | acq | rel | acqrel
  deriving DecidableEq, Repr
structure AtomMods where
  scope : Scope := .team
  ret : Bool := false
  deriving DecidableEq, Repr

inductive CopySize where | n4 | n8 | n16
  deriving DecidableEq, Repr
/-- MOD of class 0x7; ACQ and REL, none for 0, R49. -/
structure CopyMods where
  acq : Option Scope := none
  rel : Option Scope := none
  prom : Bool := false
  size : CopySize := .n4
  deriving DecidableEq, Repr
inductive CstatMode where | bits | prom | arm
  deriving DecidableEq, Repr

inductive Ofmt where | f32 | bf16 | i8
  deriving DecidableEq, Repr
/-- MOD of class 0x8, R272. -/
structure MatMods where
  acq : Option Scope := none
  rel : Option Scope := none
  shb : Bool := false
  acc : Fin 8 := 0
  ofmt : Ofmt := .f32
  sat : Bool := false
  deriving DecidableEq, Repr

inductive RegionMode where | set | hold
  deriving DecidableEq, Repr
inductive QpopMode where | wait | tryOnce
  deriving DecidableEq, Repr
/-- Levels of CNTW, CANCEL and the CANCEL register, R287, R309. -/
inductive Level where | launch | graph | phase | job
  deriving DecidableEq, Repr

/-- MOD of class 0xA, R359. ACQ 0 to 3; REL 0 or 4 (POD). -/
structure FabMods where
  acq : Option Scope := none
  relPod : Bool := false
  direct : Bool := false
  tc : Fin 4 := 0
  deriving DecidableEq, Repr
inductive FatomVar where | add | cas
  deriving DecidableEq, Repr
inductive FwaitVar where | arr | free
  deriving DecidableEq, Repr
inductive FqryItem where | pod | cal | back | rgn | arr | err | lfsr
  deriving DecidableEq, Repr

/-- One CLEND entry, R32: register, BIND (true binds SETB), WIDE. -/
structure ClendEntry where
  reg : Spec
  bind : Bool := false
  wide : Bool := false
  deriving DecidableEq, Repr

/-- The clause header's fields, R25. -/
structure Header where
  len : Fin 32
  wait : BitVec 12 := 0
  seta : Option (Fin 12) := none
  setb : Option (Fin 12) := none
  rgp : Bool := false
  yld : Bool := false
  deriving DecidableEq, Repr

/-- A resident team: its core and slot (R298). -/
structure TeamRef where
  core : Nat
  slot : Nat
  deriving DecidableEq, Repr

/-- The fields whose agreement a chunk's digest carries, R374. -/
structure Digest where
  cid : Nat
  opr : Nat
  red : Nat
  elt : Nat
  cbytes : Nat
  nchunk : Nat
  memb : W64
  tc : Nat
  deriving DecidableEq, Repr

/-- A collective's chunk, R375 to R377. -/
structure Chunk where
  digest : Digest
  k : Nat              -- chunk index
  result : Bool        -- an all-reduce result rather than a contribution
  data : List Byte
  sent : Nat           -- TIME at which it was first sent
  tmo : Nat            -- TMO it carries, in microseconds
  deriving DecidableEq, Repr

/-- Payload of a fabric request, R342, R380, R387. -/
inductive FabBody where
  | send (data : List Byte)
  | add (x : W64)
  | cas (cmp new : W64)
  | chunk (c : Chunk)
  | drop (cid : Nat)
  deriving DecidableEq, Repr

/-- A fabric request as it travels, R342-R350. `stream` is its number in its direct stream, none on a fox route. -/
structure FabPacket where
  src : Nat
  dest : Nat
  num : Nat
  part : Nat
  tc : Nat
  stream : Option Nat
  floor : Nat
  region : Nat
  key : BitVec 32
  off : Nat
  body : FabBody
  deriving DecidableEq, Repr

/-- Registers of the part that REGISTER_WRITE names: those without a row of their own (R2, R341, R404, R419, R434). -/
inductive PartReg where
  | fabSelf | fabCtl | nmask | nepoch | foxt | ncal (slot port : Nat)
  | qcq (q : Nat) | qsq (q : Nat) | gctl | slotsh (p : Nat) | gmcmd | gmbuf (off : Nat) | rset (n : Nat) | rctl (n : Fin 11)
  -- tables that firmware writes (log 15): a den's partition, a feed queue's CFG and QBASE, a translation context
  | denOwner (den : Nat) | fqCfg (q : Nat) | fqBase (q : Nat)
  | context (asid root part key : Nat) (replay : Bool)
  | readOnly
  deriving DecidableEq, Repr

/-- A message of the fabric and the port that it came in at. -/
structure AtPort (α : Type) where
  port : Fin 8
  msg : α
  deriving DecidableEq, Repr

/-- A feed queue as a partition's own registers name it, R307. -/
structure FeedQName where
  part : Fin 32
  num : Nat
  deriving DecidableEq, Repr

/-- WAITA's operands, and whether its SCOPE is POD, R217. -/
structure WaitaOpnds where
  ops : Opnds
  pod : Bool
  deriving DecidableEq, Repr

/-- The context a guest asks a translation in, and the translations it releases first, each an ASID and an address in its
page, R395, R396. -/
structure GuestAsk where
  ctx : BitVec 32
  release : List (Nat × Nat)
  deriving DecidableEq, Repr

/-- What a UCIe module trained to beside its lanes, R436: GT/s, and whether the package and the protocol are those of R391. -/
structure UcieLink where
  rate : Nat
  package : Bool
  protocol : Bool
  deriving DecidableEq, Repr

/-- What consumed an uncorrectable error, R417, R418. -/
inductive ErrorSite where
  | context (asid : Nat)       -- storage of a core or engine acting for a context
  | line (pa : Nat) (asid : Nat) -- a poisoned line consumed by a context
  | firmware                   -- firmware or Genmon SRAM: a package error
  | arrival (a : AtPort FabPacket) (words : Nat) -- the engine applying an FSEND at its destination, after these words (R349)
  | corrected                  -- an error of SRAM that SECDED corrects in place, which Genmon's log counts
  deriving DecidableEq, Repr

/-- A firmware image header as far as R437 checks it, with the outcome of its signature and digests left to Config. -/
structure Image where
  magic : BitVec 32
  ver : Nat
  target : Nat
  keyslot : Nat
  svn : Nat
  reservedZero : Bool
  header : List Byte      -- bytes 0x000-0x137
  pubk : List Byte
  sig : List Byte
  body : List Byte
  bodyh : BitVec 256
  deriving DecidableEq, Repr

end Sys2Proof
end

