-- ==== Sys2Proof/Syntax.lean ====
section
/-! DEFINITION. The one inductive of instructions and steps: a constructor per row of spec/opcode_table.json. The first two and the 139 of spec/02 R50 are words; the others are the part's own steps (spec/95), whose arguments are what the outside world, firmware policy or an allowed choice supplies. -/
namespace Sys2Proof

inductive Instr where
  /-- R25, R27. -/
  | clauseHeader (h : Header)
  /-- R32. -/
  | clend (es : List ClendEntry)
  /-- R85. -/
  | regrpWaitTimeout (t : TeamRef) (rec : Nat)
  /-- R88, R89. -/
  | nop (o : Opnds)
  /-- R88, R89. -/
  | bra (o : Opnds)
  /-- R90. -/
  | brc (o : Opnds) (m : BrcMode)
  /-- R91. -/
  | bri (o : Opnds)
  /-- R92. -/
  | call (o : Opnds)
  /-- R91. -/
  | ret (o : Opnds)
  /-- R93. -/
  | meet (o : Opnds) (m : MeetMode)
  /-- R94. -/
  | exit (o : Opnds)
  /-- R96. -/
  | bar (o : Opnds) (bid : Fin 16)
  /-- R96. -/
  | bara (o : Opnds) (bid : Fin 16)
  /-- R97. -/
  | barw (o : Opnds) (bid : Fin 16)
  /-- R98. -/
  | vote (o : Opnds) (m : VoteMode)
  /-- R99. -/
  | ballot (o : Opnds)
  /-- R100. -/
  | shuf (o : Opnds) (m : ShufMode)
  /-- R101. -/
  | push (o : Opnds) (m : PushMode)
  /-- R102. -/
  | rank (o : Opnds) (m : RankMode)
  /-- R103. -/
  | regrp (o : Opnds)
  /-- R104. -/
  | sleep (o : Opnds) (m : SleepMode)
  /-- R104. -/
  | sleepWake (t : TeamRef) (tid : Nat)
  /-- R105. -/
  | yield (o : Opnds)
  /-- R117. -/
  | mov (o : Opnds)
  /-- R118. -/
  | movi (o : Opnds) (m : MoviMode)
  /-- R119. -/
  | sel (o : Opnds)
  /-- R120. -/
  | rdl (o : Opnds) (m : RdlMode)
  /-- R122. -/
  | rgive (o : Opnds) (n : Fin 4)
  /-- R123. -/
  | rclaim (o : Opnds) (n : Fin 4)
  /-- R124. -/
  | rstat (o : Opnds)
  /-- R121. -/
  | kset (o : Opnds) (op : KsetOp)
  /-- R125. -/
  | srd (o : Opnds) (item : SrdItem)
  /-- R132-R146. -/
  | add (o : Opnds) (m : ArithMods)
  /-- R132-R146. -/
  | sub (o : Opnds) (m : ArithMods)
  /-- R132-R146. -/
  | addc (o : Opnds) (m : ArithMods)
  /-- R132-R146. -/
  | subb (o : Opnds) (m : ArithMods)
  /-- R132-R146. -/
  | mul (o : Opnds) (m : ArithMods)
  /-- R132-R146. -/
  | mulh (o : Opnds) (m : ArithMods)
  /-- R132-R146. -/
  | mad (o : Opnds) (m : ArithMods)
  /-- R132-R146. -/
  | madw (o : Opnds) (m : ArithMods)
  /-- R132-R146. -/
  | min (o : Opnds) (m : ArithMods)
  /-- R132-R146. -/
  | max (o : Opnds) (m : ArithMods)
  /-- R132-R146. -/
  | abs (o : Opnds) (m : ArithMods)
  /-- R132-R146. -/
  | neg (o : Opnds) (m : ArithMods)
  /-- R132-R146. -/
  | and (o : Opnds) (m : ArithMods)
  /-- R132-R146. -/
  | or (o : Opnds) (m : ArithMods)
  /-- R132-R146. -/
  | xor (o : Opnds) (m : ArithMods)
  /-- R132-R146. -/
  | not (o : Opnds) (m : ArithMods)
  /-- R132-R146. -/
  | shl (o : Opnds) (m : ArithMods)
  /-- R132-R146. -/
  | shr (o : Opnds) (m : ArithMods)
  /-- R132-R146. -/
  | sar (o : Opnds) (m : ArithMods)
  /-- R132-R146. -/
  | rotl (o : Opnds) (m : ArithMods)
  /-- R132-R146. -/
  | bfx (o : Opnds) (m : ArithMods)
  /-- R132-R146. -/
  | bfi (o : Opnds) (m : ArithMods)
  /-- R132-R146. -/
  | popc (o : Opnds) (m : ArithMods)
  /-- R132-R146. -/
  | clz (o : Opnds) (m : ArithMods)
  /-- R132-R146. -/
  | brev (o : Opnds) (m : ArithMods)
  /-- R132-R146. -/
  | cmp (o : Opnds) (m : ArithMods)
  /-- R132-R146. -/
  | lea (o : Opnds) (m : ArithMods)
  /-- R132-R146. -/
  | dot4 (o : Opnds) (m : ArithMods)
  /-- R132-R146. -/
  | div (o : Opnds) (m : ArithMods)
  /-- R132-R146. -/
  | rem (o : Opnds) (m : ArithMods)
  /-- R132-R146. -/
  | prmb (o : Opnds) (m : ArithMods)
  /-- R156-R164. -/
  | fadd (o : Opnds) (m : ArithMods)
  /-- R156-R164. -/
  | fsub (o : Opnds) (m : ArithMods)
  /-- R156-R164. -/
  | fmul (o : Opnds) (m : ArithMods)
  /-- R156-R164. -/
  | ffma (o : Opnds) (m : ArithMods)
  /-- R156-R164. -/
  | fmin (o : Opnds) (m : ArithMods)
  /-- R156-R164. -/
  | fmax (o : Opnds) (m : ArithMods)
  /-- R156-R164. -/
  | fcmp (o : Opnds) (m : ArithMods)
  /-- R156-R164. -/
  | fclass (o : Opnds) (m : ArithMods)
  /-- R156-R164. -/
  | frnd (o : Opnds) (m : ArithMods)
  /-- R156-R164. -/
  | cvt (o : Opnds) (m : ArithMods)
  /-- R156-R164. -/
  | fdot2 (o : Opnds) (m : ArithMods)
  /-- R156-R164. -/
  | qnt (o : Opnds) (m : ArithMods)
  /-- R165-R168. -/
  | rcp (o : Opnds) (m : ArithMods)
  /-- R165-R168. -/
  | rsq (o : Opnds) (m : ArithMods)
  /-- R165-R168. -/
  | sqrt (o : Opnds) (m : ArithMods)
  /-- R165-R168. -/
  | exp2 (o : Opnds) (m : ArithMods)
  /-- R165-R168. -/
  | log2 (o : Opnds) (m : ArithMods)
  /-- R165-R168. -/
  | sin (o : Opnds) (m : ArithMods)
  /-- R165-R168. -/
  | cos (o : Opnds) (m : ArithMods)
  /-- R165-R168. -/
  | tanh (o : Opnds) (m : ArithMods)
  /-- R165-R168. -/
  | divf (o : Opnds) (m : ArithMods)
  /-- R193-R197. -/
  | ld (o : Opnds) (m : MemMods)
  /-- R193-R197. -/
  | st (o : Opnds) (m : MemMods)
  /-- R193-R197. -/
  | lds (o : Opnds) (m : MemMods)
  /-- R193-R197. -/
  | sts (o : Opnds) (m : MemMods)
  /-- R193-R197. -/
  | ldc (o : Opnds) (m : MemMods)
  /-- R193-R197. -/
  | pfx (o : Opnds) (m : MemMods)
  /-- R198. -/
  | iflush (o : Opnds)
  /-- R193. -/
  | loadComplete (n : Nat)
  /-- R188. -/
  | replayResolved (n : Nat) (writes : List (Nat × W64)) (mapped : Bool)
  /-- R214. -/
  | aadd (o : Opnds) (m : AtomMods)
  /-- R214. -/
  | amin (o : Opnds) (m : AtomMods)
  /-- R214. -/
  | amax (o : Opnds) (m : AtomMods)
  /-- R214. -/
  | aand (o : Opnds) (m : AtomMods)
  /-- R214. -/
  | aor (o : Opnds) (m : AtomMods)
  /-- R214. -/
  | axor (o : Opnds) (m : AtomMods)
  /-- R214. -/
  | axch (o : Opnds) (m : AtomMods)
  /-- R214. -/
  | acas (o : Opnds) (m : AtomMods)
  /-- R214. -/
  | afadd (o : Opnds) (m : AtomMods)
  /-- R214. -/
  | atomicComplete (n : Nat)
  /-- R211. -/
  | fence (o : Opnds) (scope : Scope) (fk : FenceKind)
  /-- R217. -/
  | waita (o : WaitaOpnds)
  /-- R218. -/
  | waitaTimeout (t : TeamRef) (rec : Nat)
  /-- R218. -/
  | waitaUnmonitoredWake (t : TeamRef) (rec : Nat)
  /-- R218. -/
  | monitorReclaim (cluster line : Nat)
  /-- R237. -/
  | acpy (o : Opnds) (m : CopyMods)
  /-- R238. -/
  | tcpy (o : Opnds) (m : CopyMods)
  /-- R239. -/
  | cwait (o : Opnds) (prom : Bool)
  /-- R240. -/
  | ctest (o : Opnds) (prom : Bool)
  /-- R241. -/
  | cprom (o : Opnds) (prom : Bool)
  /-- R241. -/
  | cpromPromiseTime (t : TeamRef) (rec : Nat)
  /-- R242. -/
  | cstat (o : Opnds) (prom : Bool)
  /-- R224. -/
  | copyChunkComplete (n chunk : Nat)
  /-- R220. -/
  | copyCommandComplete (n : Nat)
  /-- R231. -/
  | copyEngineFault (n : Nat)
  /-- R274-R284. -/
  | mgang (o : Opnds) (m : MatMods)
  /-- R274-R284. -/
  | mma (o : Opnds) (m : MatMods)
  /-- R274-R284. -/
  | mzero (o : Opnds) (m : MatMods)
  /-- R274-R284. -/
  | mrnm (o : Opnds) (m : MatMods)
  /-- R274-R284. -/
  | mld (o : Opnds) (m : MatMods)
  /-- R274-R284. -/
  | mst (o : Opnds) (m : MatMods)
  /-- R274-R284. -/
  | mexp (o : Opnds) (m : MatMods)
  /-- R274-R284. -/
  | mmov (o : Opnds) (m : MatMods)
  /-- R265. -/
  | matrixCommandAccept (t : TeamRef) (rec : Nat)
  /-- R279. -/
  | broadcastFirstFetch (cluster : Nat) (key : W64)
  /-- R278. -/
  | matrixCommandComplete (n : Nat)
  /-- R269. -/
  | matrixEngineFault (n : Nat)
  /-- R320. -/
  | exits (o : Opnds)
  /-- R329. -/
  | region (o : Opnds) (m : RegionMode)
  /-- R310. -/
  | denput (o : Opnds)
  /-- R306. -/
  | denTimerExpiry (den : Nat)
  /-- R312. -/
  | qpop (o : Opnds) (m : QpopMode)
  /-- R312. -/
  | qpopSlotReady (t : TeamRef) (rec : Nat)
  /-- R311. -/
  | qpush (o : Opnds)
  /-- R314. -/
  | launch (o : Opnds)
  /-- R315. -/
  | cntw (o : Opnds) (lv : Level)
  /-- R316. -/
  | cancel (o : Opnds) (lv : Level)
  /-- R362. -/
  | fsend (o : Opnds) (m : FabMods)
  /-- R363. -/
  | fatom (o : Opnds) (m : FabMods) (var : FatomVar)
  /-- R365. -/
  | fwait (o : Opnds) (m : FabMods) (var : FwaitVar)
  /-- R365. -/
  | fwaitTimeout (t : TeamRef) (rec : Nat)
  /-- R364. -/
  | fdrain (o : Opnds) (m : FabMods)
  /-- R366. -/
  | freg (o : Opnds) (m : FabMods)
  /-- R367. -/
  | frev (o : Opnds) (m : FabMods)
  /-- R368. -/
  | fqry (o : Opnds) (m : FabMods) (item : FqryItem)
  /-- R389, R390. -/
  | crange (o : Opnds)
  /-- R389, R390. -/
  | cfire (o : Opnds)
  /-- R389, R390. -/
  | cjoin (o : Opnds)
  /-- R389, R390. -/
  | cdrop (o : Opnds)
  /-- R406. -/
  | gsub (o : Opnds) (acq : Bool)
  /-- R407. -/
  | gwait (o : Opnds)
  /-- R407. -/
  | gwaitTimeout (t : TeamRef) (rec : Nat)
  /-- R408. -/
  | gcan (o : Opnds)
  /-- R425. -/
  | trap (o : Opnds)
  /-- R425. -/
  | bkpt (o : Opnds)
  /-- R426. -/
  | resume (o : Opnds) (skip : Bool)
  /-- R427. -/
  | swr (o : Opnds)
  /-- R428. -/
  | warnc (o : Opnds)
  /-- R86. -/
  | groupRetire (t : TeamRef) (rec : Nat)
  /-- R322. -/
  | successorHandover (t : TeamRef)
  /-- R286: the host stores byte 127 of the watched slot. -/
  | launchRecordSeal (part : Fin 32) (sealByte : Byte)
  /-- R290: fw0 checks the partition's oldest read record, or its oldest LAUNCH record. -/
  | launchRecordCheck (part : Fin 32)
  /-- R299: the slot and the quadrant offset are the part's choice among those that match. -/
  | teamDispatch (t : TeamRef) (b : Fin 4)
  /-- R302. -/
  | launchComplete (id : Nat)
  /-- R304. -/
  | cancelRegisterWrite (part : Fin 32) (x : W64)
  /-- R304. -/
  | cancelBudgetExpiry (t : TeamRef)
  /-- R307. -/
  | feedqReserveRead (q : FeedQName)
  /-- R308. -/
  | feedqTailWrite (q : FeedQName) (x : W64)
  /-- R307. -/
  | feedqStatusWrite (q : FeedQName) (x : W64)
  /-- R293. -/
  | sqbaseWrite (part : Fin 32) (x : W64)
  /-- R293. -/
  | sqcfgWrite (part : Fin 32) (x : W64)
  /-- R293. -/
  | sqheadWrite (part : Fin 32) (x : W64)
  /-- R287. -/
  | sqdropRead (part : Fin 32)
  /-- R412. -/
  | frbaseWrite (part : Fin 32) (x : W64)
  /-- R412. -/
  | frcfgWrite (part : Fin 32) (x : W64)
  /-- R412. -/
  | frheadWrite (part : Fin 32) (x : W64)
  /-- R412. -/
  | frdropRead (part : Fin 32)
  /-- R295: to a firmware core, or to Genmon (R431). -/
  | mailboxSend (src : Fin 8) (dest : Option (Fin 8)) (msg : BitVec 512)
  /-- R295. -/
  | mailboxRecvPop (core src : Fin 8)
  /-- R297. -/
  | bindRecordWrite (t : TeamRef) (x : W64)
  /-- R331. -/
  | preemptRequest (t : TeamRef)
  /-- R331. -/
  | preemptBudgetExpiry (t : TeamRef)
  /-- R332. -/
  | discardAcknowledged (t : TeamRef)
  /-- R178. -/
  | invalidation (asid : Nat) (writes : List (Nat × W64))
  /-- R200: a write of bytes, or a read. -/
  | hostCoherentAccess (pa : Nat) (write : Option (List Byte))
  /-- R343, R337: the identity flit received is part of the window. -/
  | fabricDataWindow (port : Fin 8) (peer peerPort generation : Nat)
  /-- R346. -/
  | fabricRetryTimer (num : Nat)
  /-- R346. -/
  | fabricAck (num : AtPort Nat) (code : Nat) (old : W64)
  /-- R349. -/
  | fabricRequestArrival (p : AtPort FabPacket)
  /-- R345. -/
  | relayRecordArrival (p : AtPort FabPacket)
  /-- R345. -/
  | relayRecordExpiry (num : Nat)
  /-- R347. -/
  | filterEntryExpiry (src num : Nat)
  /-- R350. -/
  | skipNoticeArrival (src : AtPort Nat) (tc part floor : Nat)
  /-- R340. -/
  | fabricClockOffset (ps : Int)
  /-- R337. -/
  | calStage
  /-- R369. -/
  | calQuiesce
  /-- R369. -/
  | calDark
  /-- R370. -/
  | fabricDarkAtBoundary
  /-- R369. -/
  | calRelock
  /-- R369. -/
  | relockAtNepoch
  /-- R341. -/
  | fabricStateClear (x : W64)
  /-- R12. -/
  | timePodSync (podTime : W64)
  /-- R380. -/
  | chunkSnapshotComplete (part cid k : Nat)
  /-- R376. -/
  | chunkArrival (p : AtPort FabPacket)
  /-- R377. -/
  | unmatchedArrivalExpiry (src num : Nat)
  /-- R383. -/
  | collectiveComplete (part cid : Nat)
  /-- R386. -/
  | collectiveTimeout (part cid : Nat)
  /-- R387. -/
  | dropNoticeArrival (p : AtPort FabPacket)
  /-- R393. -/
  | guestAccess (pa : Nat) (write : Option (List Byte)) (len : Nat)
  /-- R395. -/
  | guestTranslateRequest (ask : GuestAsk) (va : W64) (r w x : Bool)
  /-- R396. -/
  | guestInvalidationAck
  /-- R401. -/
  | guestInvalidationTimeout
  /-- R401. -/
  | guestStopTimeout (q : Nat)
  /-- R400. -/
  | guestCompletionRecord (q slot : Nat) (value : W64) (status cseq : W32)
  /-- R403. -/
  | guestPowerExcess
  /-- R401. -/
  | guestLinkDown
  /-- R439. -/
  | guestLinkUp (key : List Byte) (fw : BitVec 256) (sig : List Byte)
  /-- R404. -/
  | qcfgWrite (q : Nat) (x : W64)
  /-- R404. -/
  | gctlDoorbellTest
  /-- R418. -/
  | uncorrectableError (site : ErrorSite) (pa : Nat) (syndrome : W64)
  /-- R420. -/
  | keyOwnerWrite (k : Nat) (x : Byte)
  /-- R419. -/
  | pctlWrite (part : Fin 32) (x : W64)
  /-- R419. -/
  | defdefWrite (part : Fin 32) (x : W64)
  /-- R419. -/
  | fabshWrite (part : Fin 32) (x : W64)
  /-- R419. -/
  | hbmwWrite (part : Fin 32) (x : W64)
  /-- R422. -/
  | functionLevelReset (part : Fin 32)
  /-- R422. -/
  | flrComplete (part : Fin 32)
  /-- R2. -/
  | registerWrite (r : PartReg) (x : W64)
  /-- R433: a power-on, or a package reset. -/
  | powerOnReset
  /-- R434. -/
  | railEnable (n : Fin 11) (setting : W64)
  /-- R434. -/
  | railPowerGoodTimeout (n : Fin 11)
  /-- R434. -/
  | railFault (n : Fin 11)
  /-- R434. -/
  | railFaultClear (n : Fin 11)
  /-- R435. -/
  | hbmTrainStart (s : Fin 8)
  /-- R435. -/
  | hbmTrainComplete (s : Fin 8) (pass : Bool) (lanes : Byte)
  /-- R436. -/
  | ucieTrainStart (m : Fin 4)
  /-- R436. -/
  | ucieTrainComplete (m : Fin 4) (width : Nat) (link : UcieLink)
  /-- R441. -/
  | opticalLaserEnable (p : Fin 8)
  /-- R441. -/
  | opticalLockStart (p : Fin 8)
  /-- R441. -/
  | opticalLockTimeout (p : Fin 8) (locked : W32)
  /-- R430: sensor numbers and readings in 1/8 degree. -/
  | thermalSample (readings : List (Nat × Int))
  /-- R14. -/
  | currentLimit (die : Fin 4) (mhz : Nat)
  /-- R432. -/
  | pcapWrite (x : W64)
  /-- R443. -/
  | quote (nonce : BitVec 256)
  /-- R442. -/
  | logrd (start : Nat)
  /-- R442. -/
  | sensrd
  /-- R442. -/
  | keyload (id : Nat) (pub wrapped : List Byte)
  /-- R442. -/
  | keyerase (id : Nat)
  /-- R444. -/
  | imgwr (target : Nat) (bankB : Bool) (off : Nat) (data : List Byte)
  /-- R444. -/
  | imgcommit (target : Nat) (bankB : Bool)
  /-- R444. -/
  | confirm
  /-- R438. -/
  | extend (reg : Nat) (d : BitVec 256)
  /-- R444. -/
  | trialConfirmTimeout
  /-- R11. -/
  | coreClockSelect (die : Fin 4) (mhz : Nat)
  /-- R14. -/
  | powerCapLimit (die : Fin 4) (mhz : Nat)
  /-- R180. -/
  | clusterFusionModeSet (cluster : Nat) (fused : Bool)
  /-- R377. -/
  | poolwaitAnswer (num : AtPort Nat)
  /-- R403. -/
  | guestRailOverAllowance
  /-- R417. -/
  | patrolScrub (pa : Nat) (correctable : Bool)
  /-- R433. -/
  | configurationRequest
  /-- R434. -/
  | railPowerGood (n : Fin 11)
  /-- R441. -/
  | opticalLockComplete (p : Fin 8)
  /-- R438. -/
  | guestKeyListChange (keys : List (BitVec 256))
  deriving DecidableEq, Repr

end Sys2Proof
end

