-- ==== Sys2Proof/Decode.lean ====
section
/-! DEFINITION. The instruction words: the common format, the row of every instruction (the class tables R87 to R424), the checks of orders 3 and 4 of R52 that depend on the word alone, the decoder, and after it the encoder. -/
namespace Sys2Proof

/-! ## The fields of a slot, R36 -/

structure Raw where
  op : BitVec 10
  ty : BitVec 4
  dst : BitVec 8
  sa : BitVec 8
  sb : BitVec 8
  sc : BitVec 8
  pr : BitVec 4
  hold : BitVec 2
  fl : BitVec 4
  mod : BitVec 16
  imm : BitVec 24
  deriving DecidableEq, Repr

def Raw.ofSlot (w : Slot) : Raw where
  op := w.extractLsb' 0 10
  ty := w.extractLsb' 10 4
  dst := w.extractLsb' 14 8
  sa := w.extractLsb' 22 8
  sb := w.extractLsb' 30 8
  sc := w.extractLsb' 38 8
  pr := w.extractLsb' 46 4
  hold := w.extractLsb' 50 2
  fl := w.extractLsb' 52 4
  mod := w.extractLsb' 56 16
  imm := w.extractLsb' 72 24

def Raw.toSlot (r : Raw) : Slot :=
  r.imm ++ r.mod ++ r.fl ++ r.hold ++ r.pr ++ r.sc ++ r.sb ++ r.sa ++ r.dst ++ r.ty ++ r.op

/-! ## TY and register specs -/

def Ty.ofCode (b : BitVec 4) : Ty :=
  match b.toNat with
  | 0 => .u32 | 1 => .s32 | 2 => .u64 | 3 => .s64 | 4 => .u16 | 5 => .s16 | 6 => .f16x2 | 7 => .bf16x2
  | 8 => .u8 | 9 => .s8 | 10 => .f32 | 11 => .f64 | 12 => .f16 | 13 => .bf16 | 14 => .b32 | _ => .b64

def Ty.code : Ty → BitVec 4
  | .u32 => 0 | .s32 => 1 | .u64 => 2 | .s64 => 3 | .u16 => 4 | .s16 => 5 | .f16x2 => 6 | .bf16x2 => 7
  | .u8 => 8 | .s8 => 9 | .f32 => 10 | .f64 => 11 | .f16 => 12 | .bf16 => 13 | .b32 => 14 | .b64 => 15

/-- Width of a TY in bits; a packed type takes its whole 32-bit register. R46, R126, R183. -/
def Ty.width : Ty → Nat
  | .u8 | .s8 => 8
  | .u16 | .s16 | .f16 | .bf16 => 16
  | .u32 | .s32 | .b32 | .f32 | .f16x2 | .bf16x2 => 32
  | .u64 | .s64 | .b64 | .f64 => 64

def Ty.signed : Ty → Bool
  | .s8 | .s16 | .s32 | .s64 => true
  | _ => false

/-- Pairs in v and c, R40. -/
def Ty.wide (t : Ty) : Bool := t.width == 64

def Special.ofCode : Nat → Option Special
  | 0 => some .tid | 1 => some .lane | 2 => some .grp | 3 => some .team | 4 => some .tmx | 5 => some .tmy
  | 6 => some .tmz | 7 => some .ntmx | 8 => some .ntmy | 9 => some .ntmz | 10 => some .core | 11 => some .clu
  | 12 => some .die | 13 => some .pkg | 14 => some .role | 15 => some .region | 16 => some .time
  | 17 => some .fslot | 18 => some .fcyc | 19 => some .warn | 20 => some .trapc | 21 => some .trapv
  | 22 => some .cancel | 23 => some .launch | 24 => some .part | 25 => some .succ | _ => none

def Special.codeNat : Special → Nat
  | .tid => 0 | .lane => 1 | .grp => 2 | .team => 3 | .tmx => 4 | .tmy => 5 | .tmz => 6 | .ntmx => 7
  | .ntmy => 8 | .ntmz => 9 | .core => 10 | .clu => 11 | .die => 12 | .pkg => 13 | .role => 14 | .region => 15
  | .time => 16 | .fslot => 17 | .fcyc => 18 | .warn => 19 | .trapc => 20 | .trapv => 21 | .cancel => 22
  | .launch => 23 | .part => 24 | .succ => 25

/-- Per-thread specials, R41. -/
def Special.perThread : Special → Bool
  | .tid | .lane => true
  | _ => false

/-- R38; none for the illegal values. -/
def Spec.ofByte (b : BitVec 8) : Option Spec :=
  let n := b.toNat
  if h : n < 0x80 then some (.v ⟨n, h⟩)
  else if n < 0xC0 then some (.s (Fin.ofNat 64 (n - 0x80)))
  else if n < 0xC8 then some (.c (Fin.ofNat 8 (n - 0xC0)))
  else if n < 0xCB then some (.l (Fin.ofNat 3 (n - 0xC8)))
  else if n = 0xCB then some .zero
  else if n = 0xCC then some .imm
  else if n < 0xD0 then none
  else if n < 0xF0 then (Special.ofCode (n - 0xD0)).map .sp
  else if n < 0xF8 then some (.k (Fin.ofNat 8 (n - 0xF0)))
  else none

def Spec.toByte : Spec → BitVec 8
  | .v n => BitVec.ofNat 8 n
  | .s n => BitVec.ofNat 8 (0x80 + n)
  | .c n => BitVec.ofNat 8 (0xC0 + n)
  | .l n => BitVec.ofNat 8 (0xC8 + n)
  | .zero => 0xCB
  | .imm => 0xCC
  | .sp r => BitVec.ofNat 8 (0xD0 + r.codeNat)
  | .k n => BitVec.ofNat 8 (0xF0 + n)

/-! ## Modifiers, R48 -/

/-- Bits lo+n-1 to lo of MOD, numbered from MOD[56]. -/
def modField (m : BitVec 16) (lo n : Nat) : Nat := (m.toNat >>> lo) % 2 ^ n

def Rnd.ofCode : Nat → Rnd | 0 => .rn | 1 => .rz | 2 => .ru | _ => .rd
def Rnd.codeNat : Rnd → Nat | .rn => 0 | .rz => 1 | .ru => 2 | .rd => 3
def Fz.ofCode : Nat → Fz | 0 => .cw | 1 => .fzn | 2 => .fzo | _ => .fza
def Fz.codeNat : Fz → Nat | .cw => 0 | .fzn => 1 | .fzo => 2 | .fza => 3
def Hint.ofCode : Nat → Hint | 0 => .none | 1 => .strm | 2 => .l2 | _ => .na
def Hint.codeNat : Hint → Nat | .none => 0 | .strm => 1 | .l2 => 2 | .na => 3
def Vec.ofCode : Nat → Vec | 0 => .one | 1 => .two | _ => .four
def Vec.codeNat : Vec → Nat | .one => 0 | .two => 1 | .four => 2
/-- Number of elements, R183. -/
def Vec.count : Vec → Nat | .one => 1 | .two => 2 | .four => 4
def Scope.ofCode : Nat → Scope | 0 => .team | 1 => .cluster | 2 => .package | _ => .pod
def Scope.codeNat : Scope → Nat | .team => 0 | .cluster => 1 | .package => 2 | .pod => 3
/-- ACQ and REL, R49. -/
def scopeOpt : Nat → Option Scope
  | 1 => some .team | 2 => some .cluster | 3 => some .package | 4 => some .pod | _ => none
def scopeOptNat : Option Scope → Nat | none => 0 | some s => s.codeNat + 1
def FenceKind.ofCode : Nat → FenceKind | 1 => .acq | 2 => .rel | _ => .acqrel
def FenceKind.codeNat : FenceKind → Nat | .acq => 1 | .rel => 2 | .acqrel => 3
def CopySize.ofCode : Nat → CopySize | 0 => .n4 | 1 => .n8 | _ => .n16
def CopySize.codeNat : CopySize → Nat | .n4 => 0 | .n8 => 1 | .n16 => 2
def CopySize.bytes : CopySize → Nat | .n4 => 4 | .n8 => 8 | .n16 => 16
def Ofmt.ofCode : Nat → Ofmt | 0 => .f32 | 1 => .bf16 | _ => .i8
def Ofmt.codeNat : Ofmt → Nat | .f32 => 0 | .bf16 => 1 | .i8 => 2
def Hold.ofCode : Nat → Hold | 0 => .none | 1 => .sa | 2 => .sb | _ => .sc
def Hold.codeNat : Hold → Nat | .none => 0 | .sa => 1 | .sb => 2 | .sc => 3

def ArithMods.ofMod (m : BitVec 16) : ArithMods where
  rnd := .ofCode (modField m 0 2)
  sat := modField m 2 1 == 1
  fz := .ofCode (modField m 3 2)
  cond := Fin.ofNat 8 (modField m 5 3)
  ty2 := .ofCode (BitVec.ofNat 4 (modField m 8 4))
def ArithMods.toMod (m : ArithMods) : BitVec 16 :=
  BitVec.ofNat 16 (m.rnd.codeNat + 4 * m.sat.toNat + 8 * m.fz.codeNat + 32 * m.cond.val + 256 * m.ty2.code.toNat)

def MemMods.ofMod (m : BitVec 16) : MemMods := ⟨.ofCode (modField m 0 2), .ofCode (modField m 2 2)⟩
def MemMods.toMod (m : MemMods) : BitVec 16 := BitVec.ofNat 16 (m.hint.codeNat + 4 * m.vec.codeNat)

def AtomMods.ofMod (m : BitVec 16) : AtomMods := ⟨.ofCode (modField m 0 2), modField m 2 1 == 1⟩
def AtomMods.toMod (m : AtomMods) : BitVec 16 := BitVec.ofNat 16 (m.scope.codeNat + 4 * m.ret.toNat)

def CopyMods.ofMod (m : BitVec 16) : CopyMods :=
  ⟨scopeOpt (modField m 0 3), scopeOpt (modField m 3 3), modField m 6 1 == 1, .ofCode (modField m 7 2)⟩
def CopyMods.toMod (m : CopyMods) : BitVec 16 :=
  BitVec.ofNat 16 (scopeOptNat m.acq + 8 * scopeOptNat m.rel + 64 * m.prom.toNat + 128 * m.size.codeNat)

def MatMods.ofMod (m : BitVec 16) : MatMods :=
  ⟨scopeOpt (modField m 0 3), scopeOpt (modField m 3 3), modField m 6 1 == 1, Fin.ofNat 8 (modField m 7 3),
    .ofCode (modField m 10 2), modField m 12 1 == 1⟩
def MatMods.toMod (m : MatMods) : BitVec 16 :=
  BitVec.ofNat 16 (scopeOptNat m.acq + 8 * scopeOptNat m.rel + 64 * m.shb.toNat + 128 * m.acc.val
    + 1024 * m.ofmt.codeNat + 4096 * m.sat.toNat)

def FabMods.ofMod (m : BitVec 16) : FabMods :=
  ⟨scopeOpt (modField m 0 3), modField m 3 3 == 4, modField m 6 1 == 1, Fin.ofNat 4 (modField m 7 2)⟩
def FabMods.toMod (m : FabMods) : BitVec 16 :=
  BitVec.ofNat 16 (scopeOptNat m.acq + 8 * (if m.relPod then 4 else 0) + 64 * m.direct.toNat + 128 * m.tc.val)

/-! ## Rows of the class tables -/

/-- Kinds of register spec that a field may accept, R38, R39. -/
inductive Kind where
  | v | c | s | l | zero | imm | sp | spg | tid | k | kw
  deriving DecidableEq, Repr

/-- `spg` is a special that is not per thread; `kw` is k1 to k7. -/
def Kind.admits : Kind → Spec → Bool
  | .v, .v _ | .c, .c _ | .s, .s _ | .l, .l _ | .zero, .zero | .imm, .imm | .sp, .sp _ | .k, .k _ => true
  | .spg, .sp r => !r.perThread
  | .tid, .sp r => r == .tid
  | .kw, .k n => n != 0
  | _, _ => false

/-- Any source kind except k (R130). -/
def srcKinds : List Kind := [.v, .s, .c, .l, .zero, .imm, .sp]

/-- A register field that an entry uses: the kinds it accepts, the type it is read or written under
(none is TY), and the highest s register it may name. -/
structure Field where
  kinds : List Kind
  ty : Option Ty := none
  maxS : Nat := 63
  deriving DecidableEq, Repr

/-- What an entry uses IMM for. Under `fields`, IMM is used only where a field is 0xCC (R44); under
`mask`, the set bits are the ones that need not be zero. -/
inductive ImmUse where
  | fields
  | mask (m : BitVec 24)
  deriving DecidableEq, Repr

structure Row where
  tys : List Ty := [.u32]
  dst : Option Field := none
  sa : Option Field := none
  sb : Option Field := none
  sc : Option Field := none
  imm : ImmUse := .fields
  modMask : BitVec 16 := 0        -- MOD bits that are not Reserved
  modOk : Bool := true            -- the sub-fields used hold values their entry defines (ILL_OP)
  opndOk : Bool := true           -- limits of the entry that fault ILL_OPND
  fl : Bool := false              -- honours FL, R31
  terminal : Bool := false        -- R29
  scalarRule : Bool := false      -- R39: a per-thread source of a scalar instruction faults
  deriving DecidableEq, Repr

def intTys : List Ty := [.u8, .s8, .u16, .s16, .u32, .s32, .u64, .s64, .b32, .b64]
def floatTys : List Ty := [.f32, .f64, .f16, .bf16]
def packedTys : List Ty := [.f16x2, .bf16x2]
def allTys : List Ty := intTys ++ floatTys ++ packedTys
def bTys : List Ty := [.b32, .b64]

def fdst (ks : List Kind) (ty : Option Ty := none) : Option Field := some ⟨ks, ty, 63⟩
def fsrc : Option Field := some ⟨srcKinds, none, 63⟩
def fsrcT (t : Ty) : Option Field := some ⟨srcKinds, some t, 63⟩
/-- A scalar operand: s or zero. -/
def fsz : Option Field := some ⟨[.s, .zero], some .u64, 63⟩
def fszi : Option Field := some ⟨[.s, .zero, .imm], some .u32, 63⟩
def fs (mx : Nat) : Option Field := some ⟨[.s], some .u64, mx⟩
/-- A virtual address: v pair, c pair, s, zero (R191, R212, R234). -/
def faddr : Option Field := some ⟨[.v, .c, .s, .zero], some .u64, 63⟩

def immAll : ImmUse := .mask 0xFFFFFF

/-- Class 0x0, R87. MODE is the low four bits of MOD, BID the next four. PUSH's SA and SB and RANK's key, for which no rule
lists kinds, and SHUF's index and fill, which refuse k, take those of log 49. -/
def row0 (op : Nat) (r : Raw) : Option Row :=
  let mode := modField r.mod 0 4
  let vs64 : Option Field := some ⟨[.v, .s], some .u64, 63⟩
  let cnt : Option Field := some ⟨[.s, .v, .c, .l, .imm, .zero], some .u32, 63⟩
  match op with
  | 0x00 => some { }
  | 0x01 => some { imm := immAll, terminal := true }
  | 0x02 => some { tys := [.u64], sa := fs 63, imm := immAll, modMask := 0xF, modOk := mode ≤ 2, terminal := true }
  | 0x03 | 0x05 => some { tys := [.u64], sa := vs64, terminal := true }
  | 0x04 => some { tys := [.u64], dst := vs64, imm := immAll, terminal := true }
  | 0x06 => some { imm := if mode = 0 then immAll else .fields, modMask := 0xF, modOk := mode ≤ 1 }
  | 0x07 => some { terminal := true }
  | 0x08 => some { sa := cnt, modMask := 0xF0, terminal := true }
  | 0x09 => some { sa := cnt, modMask := 0xF0 }
  | 0x0A => some { modMask := 0xF0, terminal := true }
  | 0x0B => some { tys := if mode = 2 then allTys else [.u32], dst := fdst [.kw, .s] (some .u32),
                   sa := if mode = 2 then fsrc else fdst [.k], modMask := 0xF, modOk := mode ≤ 2 }
  | 0x0C => some { tys := bTys, dst := fdst [.s, .v], sa := fdst [.k], sb := some ⟨[.s, .zero, .imm, .spg], some .u32, 63⟩ }
  | 0x0D => some { tys := bTys, dst := fdst [.v, .c], sa := fdst [.v, .c, .l, .tid], sb := fsrcT .u32, sc := fsrc,
                   modMask := 0xF, modOk := mode ≤ 3 }
  | 0x0E => some { tys := bTys, dst := fdst [.v, .c], sa := fdst [.v, .c, .l, .s, .zero, .sp], sb := fsrcT .u32,
                   modMask := 0xF, modOk := mode ≤ 1 }
  | 0x0F => some { tys := [.u32, .s32, .u64, .s64, .f32, .f64], dst := fdst [.v, .c] (some .u32), sa := fsrc,
                   sb := some ⟨[.v, .c, .l, .s, .zero], some .u32, 63⟩, modMask := 0xF, modOk := mode ≤ 1 }
  | 0x10 => some { sa := some ⟨[.v, .zero, .imm], some .u32, 63⟩, terminal := true }   -- log 37
  | 0x11 => some { tys := if mode = 1 then [.u64] else [.u32],
                   sa := if mode = 1 then fs 63 else some ⟨[.s, .zero, .imm, .spg], none, 63⟩,
                   modMask := 0xF, modOk := mode ≤ 1, terminal := true }
  | 0x12 => some { terminal := true }
  | _ => none

/-- Class 0x1, R116. MODE is MOD[59:56], NBLK MOD[61:60]. -/
def row1 (op : Nat) (r : Raw) : Option Row :=
  let mode := modField r.mod 0 4
  let vcs := fdst [.v, .c, .s]
  let wide : List Ty := [.u64, .s64, .b64]
  match op with
  | 0x00 => some { tys := allTys, dst := vcs, sa := fsrc, scalarRule := true }
  | 0x01 => some { tys := [.u32, .s32, .b32] ++ wide, dst := vcs, imm := immAll, modMask := 0xF,
                   modOk := decide (mode ≤ 2) && (mode != 1 || (Ty.ofCode r.ty).width != 32),
                   opndOk := mode != 2 || (if (Ty.ofCode r.ty).width == 64 then decide (r.imm.toNat < 2 ^ 16)
                     else decide (r.imm.toNat < 2 ^ 8)) }
  | 0x02 => some { tys := allTys, dst := fdst [.v, .c], sa := fsrc, sb := fsrc, sc := fdst [.k] }
  | 0x03 => some { tys := bTys, dst := vcs, sa := fdst [.v, .c],
                   sb := if mode = 0 then some ⟨[.s, .zero, .imm, .spg], some .u32, 63⟩ else none,
                   modMask := 0xF, modOk := mode ≤ 1 }
  | 0x04 => some { modMask := 0x30 }
  | 0x05 => some { modMask := 0x30, terminal := true }
  | 0x06 => some { dst := vcs }
  | 0x07 => some { tys := if mode = 8 then intTys else [.u32], dst := fdst [.kw],
                   sa := if mode = 8 then fsrc else fdst [.k], sb := if mode = 8 then none else fdst [.k],
                   modMask := 0xF, modOk := mode ≤ 8 }
  | 0x08 => some { tys := [.u32, .u64], dst := vcs, modMask := 0xF, modOk := mode ≤ 7 }
  | _ => none

/-- Is DST an s register? The scalar form of classes 0x1 to 0x4, R39. -/
def scalarDst (r : Raw) : Bool :=
  match Spec.ofByte r.dst with
  | some (.s _) => true
  | _ => false

/-- Class 0x2, R130. -/
def row2 (op : Nat) (r : Raw) : Option Row :=
  let vcs := fdst [.v, .c, .s]
  let ty := Ty.ofCode r.ty
  let ty2 := Ty.ofCode (BitVec.ofNat 4 (modField r.mod 8 4))
  let base : Row := { tys := intTys, dst := vcs, sa := fsrc, modMask := 0xFFF, scalarRule := true }
  let ab : Row := { base with sb := fsrc }
  let carry : Option Field := if scalarDst r then some ⟨[.s], some .u64, 63⟩ else fdst [.kw]
  let fac := fsrcT (if ty = .s64 then .s32 else .u32)
  match op with
  | 0x02 | 0x03 => some { ab with sc := carry, opndOk := !(scalarDst r && r.dst == r.sc) }
  | 0x06 => some { ab with sc := fsrc }
  | 0x07 => some { base with tys := [.u64, .s64, .b64], sa := fac, sb := fac, sc := fsrc }
  | 0x0A | 0x0B | 0x0F | 0x16 | 0x17 | 0x18 => some base
  | 0x10 | 0x11 | 0x12 | 0x13 => some { base with sb := fsrcT .u32 }
  | 0x14 => some { base with sc := fsrcT .u32 }
  | 0x15 => some { ab with sc := fsrcT .u32 }
  | 0x19 => some { ab with dst := fdst [.kw, .s] (some .u32) }
  | 0x1A => some { base with tys := [.u64], sb := fsrcT ty2, sc := fsrcT .u32,
                             modOk := [Ty.u32, .s32, .u64, .s64].contains ty2 }
  | 0x1B => some { ab with tys := [.u32, .s32, .b32], sc := fsrc, modOk := [Ty.u32, .u8, .s8].contains ty2 }
  | 0x1E => some { ab with tys := [.b32], sc := fsrcT .u32 }
  | 0x00 | 0x01 | 0x04 | 0x05 | 0x08 | 0x09 | 0x0C | 0x0D | 0x0E | 0x1C | 0x1D => some ab
  | _ => none

/-- TY2 values that CVT defines beside TY, R162. -/
def cvtOk (ty ty2 : Ty) : Bool :=
  let ints : List Ty := [.u32, .s32, .u64, .s64, .u16, .s16, .u8, .s8]
  (ints ++ floatTys).contains ty2 || (packedTys.contains ty2 && ty == .f32)

/-- Class 0x3, R154, and class 0x4, R165. -/
def row3 (op : Nat) (r : Raw) : Option Row :=
  let vcs := fdst [.v, .c, .s]
  let fp := floatTys ++ packedTys
  let ty := Ty.ofCode r.ty
  let ty2 := Ty.ofCode (BitVec.ofNat 4 (modField r.mod 8 4))
  let a : Row := { tys := fp, dst := vcs, sa := fsrc, modMask := 0xFFF, scalarRule := true }
  let ab : Row := { a with sb := fsrc }
  match op with
  | 0x00 | 0x01 | 0x02 => some ab
  | 0x03 => some { ab with sc := fsrc }
  | 0x04 | 0x05 => some { ab with modMask := 0xFFC }
  | 0x06 => some { ab with tys := floatTys, dst := fdst [.kw, .s] (some .u32), modMask := 0xFFC }
  | 0x07 => some { a with tys := floatTys, dst := fdst [.v, .c, .s] (some .u32), modMask := 0xFFC }
  | 0x08 => some a
  | 0x09 => some { a with tys := [.u32, .s32, .u64, .s64, .u16, .s16, .u8, .s8] ++ floatTys,
                          dst := fdst [.v, .c, .s] (some ty2),
                          sb := if packedTys.contains ty2 then fsrcT .f32 else none, modOk := cvtOk ty ty2 }
  | 0x0A => some { ab with tys := packedTys, dst := fdst [.v, .c, .s] (some .f32), sc := fsrcT .f32 }
  | 0x0B => some { a with tys := [.f32], dst := fdst [.v, .c], sa := fdst [.v, .c, .l], sc := fs 63, modMask := 0xFFC }
  | _ => none

def row4 (op : Nat) : Option Row :=
  let vcs := fdst [.v, .c, .s]
  let f : Row := { tys := [.f32, .f16, .bf16], dst := vcs, sa := fsrc, modMask := 0xFFF, scalarRule := true }
  match op with
  | 0x02 => some { f with tys := floatTys }
  | 0x08 => some { f with tys := floatTys, sb := fsrc }
  | 0x00 | 0x01 | 0x03 | 0x04 | 0x05 | 0x06 | 0x07 => some f
  | _ => none

/-- Registers that one element of the type takes in v or c (R183). -/
def regsPer (t : Ty) : Nat := if t.wide then 2 else 1

/-- R183: alignment and range of the data registers, and of a latch. -/
def dataRegsOk (t : Ty) (n : Nat) (b : BitVec 8) : Bool :=
  let m := n * regsPer t
  match Spec.ofByte b with
  | some (.v k) => k.val % m == 0 && decide (k.val + m ≤ 128)
  | some (.c k) => k.val % m == 0 && decide (k.val + m ≤ 8)
  | some (.s k) => decide (k.val + n ≤ 64)
  | some (.l _) => m == 1
  | _ => true

/-- Class 0x5, R191. HINT is MOD[57:56], VEC MOD[59:58]. -/
def row5 (op : Nat) (r : Raw) : Option Row :=
  let ty := Ty.ofCode r.ty
  let vec := modField r.mod 2 2
  let vecOk : Bool := decide (vec ≤ 2) && !(vec == 2 && ty.wide)
  let n := (Vec.ofCode vec).count
  let offs : Option Field := some ⟨[.v, .c, .s, .zero], some .u32, 63⟩
  let data : Option Field := fdst [.v, .c, .s, .l, .zero]
  let ldr : Row := { tys := allTys, dst := fdst [.v, .c], sa := faddr, imm := immAll, modMask := 0xF, modOk := vecOk,
                     opndOk := dataRegsOk ty n r.dst, fl := true }
  let str : Row := { tys := allTys, sa := faddr, sb := data, imm := immAll, modMask := 0xF, modOk := vecOk,
                     opndOk := dataRegsOk ty n r.sb }
  match op with
  | 0x00 => some ldr
  | 0x01 => some str
  | 0x02 => some { ldr with sa := offs, modMask := 0xC }
  | 0x03 => some { str with sa := offs, modMask := 0xC }
  | 0x04 => some { ldr with dst := fdst [.s, .v, .c], sa := fsz, modMask := 0xC }
  | 0x05 => some { sa := faddr, imm := immAll, modMask := 0x3 }
  | 0x06 => some { sa := fsz, sb := some ⟨[.s, .zero], some .u32, 63⟩, imm := immAll }
  | _ => none

/-- Class 0x6, R212. SCOPE is MOD[57:56], RET MOD[58], FK MOD[60:59]. WAITA's SCOPE is Reserved but for POD, which R53 lists. -/
def row6 (op : Nat) (r : Raw) : Option Row :=
  let data : Option Field := fdst [.v, .c, .s, .l, .zero]
  let ret := modField r.mod 2 1 == 1
  let atom : Row := { tys := [.u32, .s32, .u64, .s64, .b32, .b64], dst := if ret then fdst [.v, .c] else none,
                      sa := faddr, sb := data, imm := immAll, modMask := 0x7, fl := true }
  match op with
  | 0x00 | 0x03 | 0x04 | 0x05 | 0x06 => some atom
  | 0x01 | 0x02 => some { atom with tys := [.u32, .s32, .u64, .s64] }
  | 0x07 => some { atom with sc := data }
  | 0x08 => some { atom with tys := [.f16x2, .bf16x2, .f32, .f64] }
  | 0x09 => some { modMask := 0x1B, modOk := modField r.mod 3 2 != 0 }
  | 0x0A => some { tys := [.u32, .u64], dst := fsz, sa := fsz, sb := fsz, sc := fsz, imm := immAll, modMask := 0x3,
                   modOk := [0, 3].contains (modField r.mod 0 2), terminal := true }
  | _ => none

/-- ACQ or REL value that R49 defines. -/
def scopeOk (n : Nat) : Bool := decide (n ≤ 4)

/-- Class 0x7, R234, R235. In IMM: TRK 3:0, DSCR 4, SSCR 5, NTRK 6, CMODE 8:7. -/
def row7 (op : Nat) (r : Raw) : Option Row :=
  let acqrel := scopeOk (modField r.mod 0 3) && scopeOk (modField r.mod 3 3)
  let trkOk : Bool := !(r.imm.getLsbD 6 && bits r.imm.toNat 3 0 != 0)
  let cmode := bits r.imm.toNat 8 7
  match op with
  | 0x00 => some { sa := faddr, sb := faddr, imm := .mask 0x7F, modMask := 0x1FF,
                   modOk := acqrel && modField r.mod 7 2 != 3 && trkOk, fl := true }
  | 0x01 => some { sa := fs 56, imm := .mask 0x4F, modMask := 0x7F, modOk := acqrel && trkOk, fl := true }
  | 0x02 | 0x04 => some { sa := fsz, imm := .mask 0xF, modMask := 0x40, terminal := true }
  | 0x03 => some { dst := fdst [.kw, .s] (some .u32), sa := fsz, imm := .mask 0xF, modMask := 0x40 }
  | 0x05 => if cmode = 2 then some { sa := fsz, imm := .mask 0x19F, modMask := 0x40 }
            else some { dst := fs 63, imm := .mask 0x18F, modMask := 0x40, modOk := cmode != 3 }
  | _ => none

/-- Class 0x8, R272. ACQ 2:0, REL 5:3, SHB 6, ACC 9:7, OFMT 11:10, SAT 12 of MOD. -/
def row8 (op : Nat) (r : Raw) : Option Row :=
  let acq := scopeOk (modField r.mod 0 3)
  let rel := scopeOk (modField r.mod 3 3)
  match op with
  | 0x00 => some { sa := fszi, modMask := 0x40 }
  | 0x01 => some { sa := fs 61, sb := fs 60, sc := some ⟨[.v, .c, .l, .s], some .u32, 63⟩, modMask := 0x3C7, modOk := acq, fl := true }
  | 0x02 => some { modMask := 0x3C0, fl := true }
  | 0x03 => some { tys := [.s16], sa := some ⟨[.s, .zero, .imm], none, 63⟩, modMask := 0x3C0, fl := true }
  | 0x04 => some { sa := fs 63, modMask := 0x3C7, modOk := acq, fl := true }
  | 0x05 => some { sa := fs 63, sb := fsz, modMask := 0x1FF8, modOk := rel && modField r.mod 10 2 != 3, fl := true }
  | 0x06 => some { sa := fs 63, modMask := 0x3F8, modOk := rel, fl := true }
  | 0x07 => some { imm := .mask 0x7, modMask := 0x3C0, fl := true }
  | _ => none

/-- Class 0x9, R309, R318. MODE is MOD[65:62]. -/
def row9 (op : Nat) (r : Raw) : Option Row :=
  let mode := modField r.mod 6 4
  match op with
  | 0x00 => some { sa := fs 63, sb := fszi, sc := fsz, terminal := true }
  | 0x01 => some { sa := if mode = 0 then fszi else none, modMask := 0x3C0, modOk := mode ≤ 1 }
  | 0x02 => some { sa := fszi, sb := fszi, fl := true }
  | 0x03 => some { dst := fsz, sa := fszi, sb := fszi, modMask := 0x3C0, modOk := mode ≤ 1, terminal := true }
  | 0x04 => some { dst := fsz, sa := fszi, sb := fszi, fl := true }
  | 0x05 => some { dst := fsz, sa := fs 63, fl := true }
  | 0x06 => some { dst := fs 63, sa := fszi, modMask := 0x3C0, modOk := mode ≤ 3 }
  | 0x07 => some { sa := fszi, modMask := 0x3C0, modOk := mode ≤ 3 }
  | _ => none

/-- Class 0xA, R359. ACQ 2:0, REL 5:3, DIRECT 6, TC 8:7 of MOD; VAR is IMM[75:72]. -/
def rowA (op : Nat) (r : Raw) : Option Row :=
  let var := bits r.imm.toNat 3 0
  let acq := decide (modField r.mod 0 3 ≤ 3)
  let rel := modField r.mod 3 3 == 0 || modField r.mod 3 3 == 4
  let vmask : ImmUse := .mask 0xF
  match op with
  | 0x00 => some { dst := fsz, sa := fs 62, sb := fs 63, imm := vmask, modMask := 0x1FF, modOk := acq && rel && var == 0, fl := true }
  | 0x01 => some { tys := [.u64, .s64, .b64], dst := fsz, sa := fs 62, sb := fsz, sc := if var = 1 then fsz else none,
                   imm := vmask, modMask := 0x1F8, modOk := rel && decide (var ≤ 1), fl := true }
  | 0x02 => some { dst := fsz, sa := fsz, sb := if var = 0 then fsz else none, sc := fsz, imm := vmask,
                   modMask := 0x40, modOk := var ≤ 1, terminal := true }
  | 0x03 => some { dst := fsz, sa := fsz, imm := vmask, modMask := 0x40, modOk := var == 0, fl := true }
  | 0x04 => some { sa := fs 62, sb := fsz, imm := vmask, modMask := 0x40, modOk := var == 0 }
  | 0x05 => some { sa := fsz, imm := vmask, modMask := 0x40, modOk := var == 0 }
  | 0x06 => some { dst := fs 63, sa := fsz, imm := vmask, modMask := 0x40, modOk := var ≤ 6 }
  | _ => none

/-- Class 0xB, R388. -/
def rowB (op : Nat) : Option Row :=
  match op with
  | 0x00 => some { dst := fsz, sa := fszi, sb := fs 62, fl := true }
  | 0x01 | 0x02 => some { dst := fsz, sa := fszi, fl := true }
  | 0x03 => some { sa := fszi, fl := true }
  | _ => none

/-- Class 0xC, R405. -/
def rowC (op : Nat) (r : Raw) : Option Row :=
  match op with
  | 0x00 => some { dst := fsz, sa := fszi, sb := fszi, modMask := 0x7, modOk := modField r.mod 0 3 == 0 || modField r.mod 0 3 == 3, fl := true }
  | 0x01 => some { dst := fsz, sa := fszi, sb := fszi, sc := fsz, terminal := true }
  | 0x02 => some { dst := fsz, sa := fszi, sb := fszi, fl := true }
  | _ => none

/-- Class 0xD, R424. MODE is MOD[59:56]. -/
def rowD (op : Nat) (r : Raw) : Option Row :=
  match op with
  | 0x00 => some { sa := fszi }
  | 0x01 => some { }
  | 0x02 => some { modMask := 0xF, modOk := modField r.mod 0 4 ≤ 1, terminal := true }
  | 0x03 => some { dst := fsz, sa := fsz, sb := fszi }
  | 0x04 => some { dst := fsz, sa := fszi }
  | _ => none

/-- The row of an allocated OP of the common format, R50; none elsewhere (R51). -/
def rowOf (r : Raw) : Option Row :=
  let op := r.op.toNat % 64
  match r.op.toNat / 64 with
  | 0x0 => row0 op r | 0x1 => row1 op r | 0x2 => row2 op r | 0x3 => row3 op r | 0x4 => row4 op | 0x5 => row5 op r
  | 0x6 => row6 op r | 0x7 => row7 op r | 0x8 => row8 op r | 0x9 => row9 op r | 0xA => rowA op r | 0xB => rowB op
  | 0xC => rowC op r | 0xD => rowD op r | _ => none

/-! ## Checks that depend on the word alone, orders 3 and 4 of R52 -/

/-- How a word is rejected. -/
inductive BadWord where
  | illOp      -- ILL_OP, order 3
  | illOpnd    -- ILL_OPND, order 4
  deriving DecidableEq, Repr

/-- An unused register field must be zero (R37). -/
def unusedOk (f : Option Field) (b : BitVec 8) : Bool := f.isSome || b == 0

def usesImm (f : Option Field) (b : BitVec 8) : Bool := b == 0xCC && f.any (·.kinds.contains .imm)

/-- Some field that takes an immediate is 0xCC, so IMM is read (R37, R44). -/
def Row.immUsed (w : Row) (r : Raw) : Bool := usesImm w.sa r.sa || usesImm w.sb r.sb || usesImm w.sc r.sc

def Row.immOk (w : Row) (r : Raw) : Bool :=
  match w.imm with
  | .fields => w.immUsed r || r.imm == 0
  | .mask m => r.imm &&& ~~~m == 0

/-- Order 3: Reserved fields and field values (R37, R48, R49). -/
def Row.order3 (w : Row) (r : Raw) : Bool :=
  unusedOk w.dst r.dst && unusedOk w.sa r.sa && unusedOk w.sb r.sb && unusedOk w.sc r.sc
    && r.mod &&& ~~~w.modMask == 0 && w.modOk && w.immOk r

/-- R44's limit on 16-bit and packed float immediates. -/
def halfImmBad (t : Ty) (imm : BitVec 24) : Bool :=
  [Ty.f16, .bf16, .f16x2, .bf16x2].contains t && decide (2 ^ 16 ≤ imm.toNat)

/-- R38 to R40 and R44 for one used field. -/
def Field.ok (f : Field) (ty : Ty) (imm : BitVec 24) (b : BitVec 8) : Bool :=
  match Spec.ofByte b with
  | none => false
  | some sp =>
    let t := f.ty.getD ty
    f.kinds.any (·.admits sp) &&
    match sp with
    | .v n => !(t.wide && n.val % 2 == 1)
    | .c n => !(t.wide && n.val % 2 == 1)
    | .s n => decide (n.val ≤ f.maxS)
    | .imm => !halfImmBad t imm
    | _ => true

def fieldOk (f : Option Field) (ty : Ty) (imm : BitVec 24) (b : BitVec 8) : Bool :=
  match f with
  | none => true
  | some f => f.ok ty imm b

/-- A per-thread source: v, c, l, %tid, %lane, k (R39). -/
def Spec.perThread : Spec → Bool
  | .v _ | .c _ | .l _ | .k _ => true
  | .sp r => r.perThread
  | _ => false

def scalarSrcOk (f : Option Field) (b : BitVec 8) : Bool :=
  f.isNone || (match Spec.ofByte b with | some sp => !sp.perThread | none => true)

/-- HOLD selects a field that the instruction uses (R43). -/
def Row.holdOk (w : Row) (r : Raw) : Bool :=
  match Hold.ofCode r.hold.toNat with
  | .none => true
  | .sa => w.sa.isSome
  | .sb => w.sb.isSome
  | .sc => w.sc.isSome

/-- Order 4, as far as the word alone decides it. -/
def Row.order4 (w : Row) (r : Raw) : Bool :=
  let ty := Ty.ofCode r.ty
  w.tys.contains ty && fieldOk w.dst ty r.imm r.dst && fieldOk w.sa ty r.imm r.sa && fieldOk w.sb ty r.imm r.sb
    && fieldOk w.sc ty r.imm r.sc
    && (!(w.scalarRule && scalarDst r) || (scalarSrcOk w.sa r.sa && scalarSrcOk w.sb r.sb && scalarSrcOk w.sc r.sc))
    && w.opndOk && w.holdOk r && (r.fl == 15 || (w.fl && decide (r.fl.toNat < 12)))

def wordCheck (r : Raw) : Option BadWord :=
  match rowOf r with
  | none => some .illOp
  | some w => if !w.order3 r then some .illOp else if !w.order4 r then some .illOpnd else none

/-! ## Building the instruction -/

def flagOf (b : BitVec 4) : Option (Fin 12) := if h : b.toNat < 12 then some ⟨b.toNat, h⟩ else none
def flagBits : Option (Fin 12) → BitVec 4
  | none => 15
  | some n => BitVec.ofNat 4 n.val

def Raw.opnds (r : Raw) : Opnds where
  ty := .ofCode r.ty
  dst := (Spec.ofByte r.dst).getD (.v 0)
  sa := (Spec.ofByte r.sa).getD (.v 0)
  sb := (Spec.ofByte r.sb).getD (.v 0)
  sc := (Spec.ofByte r.sc).getD (.v 0)
  neg := r.pr.getLsbD 3
  pk := Fin.ofNat 8 (r.pr.toNat % 8)
  hold := .ofCode r.hold.toNat
  fl := flagOf r.fl
  imm := r.imm

/-- The instruction of an allocated OP. The modes are read by the class tables; wordCheck has rejected
the values they do not define. -/
def build (r : Raw) : Option Instr :=
  let o := r.opnds
  let m4 := modField r.mod 0 4
  let bid : Fin 16 := Fin.ofNat 16 (modField r.mod 4 4)
  let nblk : Fin 4 := Fin.ofNat 4 (modField r.mod 4 2)
  let a := ArithMods.ofMod r.mod
  let mm := MemMods.ofMod r.mod
  let am := AtomMods.ofMod r.mod
  let cm := CopyMods.ofMod r.mod
  let xm := MatMods.ofMod r.mod
  let fm := FabMods.ofMod r.mod
  let m9 := modField r.mod 6 4
  let lv : Level := match m9 with | 0 => .launch | 1 => .graph | 2 => .phase | _ => .job
  let prom := modField r.mod 6 1 == 1
  let var := bits r.imm.toNat 3 0
  match r.op.toNat with
  | 0x000 => some (.nop o) | 0x001 => some (.bra o)
  | 0x002 => some (.brc o (match m4 with | 0 => .dec | 1 => .nz | _ => .z))
  | 0x003 => some (.bri o) | 0x004 => some (.call o) | 0x005 => some (.ret o)
  | 0x006 => some (.meet o (if m4 = 0 then .set else .clr))
  | 0x007 => some (.exit o) | 0x008 => some (.bar o bid) | 0x009 => some (.bara o bid) | 0x00A => some (.barw o bid)
  | 0x00B => some (.vote o (match m4 with | 0 => .all | 1 => .any | _ => .uni))
  | 0x00C => some (.ballot o)
  | 0x00D => some (.shuf o (match m4 with | 0 => .idx | 1 => .xor | 2 => .up | _ => .down))
  | 0x00E => some (.push o (if m4 = 0 then .hi else .lo))
  | 0x00F => some (.rank o (if m4 = 0 then .desc else .asc))
  | 0x010 => some (.regrp o)
  | 0x011 => some (.sleep o (if m4 = 0 then .rel else .abs))
  | 0x012 => some (.yield o)
  | 0x040 => some (.mov o)
  | 0x041 => some (.movi o (match m4 with | 0 => .lo | 1 => .mid | _ => .top))
  | 0x042 => some (.sel o)
  | 0x043 => some (.rdl o (if m4 = 0 then .idx else .first))
  | 0x044 => some (.rgive o nblk) | 0x045 => some (.rclaim o nblk) | 0x046 => some (.rstat o)
  | 0x047 => some (.kset o (match m4 with | 0 => .and | 1 => .or | 2 => .xor | 3 => .andn | 4 => .orn | 5 => .nand | 6 => .nor | 7 => .xnor | _ => .nz))
  | 0x048 => some (.srd o (match m4 with | 0 => .fpcw | 1 => .argp | 2 => .khdr | 3 => .scr | 4 => .accs | 5 => .thr | 6 => .slot | _ => .dl))
  | 0x080 => some (.add o a) | 0x081 => some (.sub o a) | 0x082 => some (.addc o a) | 0x083 => some (.subb o a)
  | 0x084 => some (.mul o a) | 0x085 => some (.mulh o a) | 0x086 => some (.mad o a) | 0x087 => some (.madw o a)
  | 0x088 => some (.min o a) | 0x089 => some (.max o a) | 0x08A => some (.abs o a) | 0x08B => some (.neg o a)
  | 0x08C => some (.and o a) | 0x08D => some (.or o a) | 0x08E => some (.xor o a) | 0x08F => some (.not o a)
  | 0x090 => some (.shl o a) | 0x091 => some (.shr o a) | 0x092 => some (.sar o a) | 0x093 => some (.rotl o a)
  | 0x094 => some (.bfx o a) | 0x095 => some (.bfi o a) | 0x096 => some (.popc o a) | 0x097 => some (.clz o a)
  | 0x098 => some (.brev o a) | 0x099 => some (.cmp o a) | 0x09A => some (.lea o a) | 0x09B => some (.dot4 o a)
  | 0x09C => some (.div o a) | 0x09D => some (.rem o a) | 0x09E => some (.prmb o a)
  | 0x0C0 => some (.fadd o a) | 0x0C1 => some (.fsub o a) | 0x0C2 => some (.fmul o a) | 0x0C3 => some (.ffma o a)
  | 0x0C4 => some (.fmin o a) | 0x0C5 => some (.fmax o a) | 0x0C6 => some (.fcmp o a) | 0x0C7 => some (.fclass o a)
  | 0x0C8 => some (.frnd o a) | 0x0C9 => some (.cvt o a) | 0x0CA => some (.fdot2 o a) | 0x0CB => some (.qnt o a)
  | 0x100 => some (.rcp o a) | 0x101 => some (.rsq o a) | 0x102 => some (.sqrt o a) | 0x103 => some (.exp2 o a)
  | 0x104 => some (.log2 o a) | 0x105 => some (.sin o a) | 0x106 => some (.cos o a) | 0x107 => some (.tanh o a)
  | 0x108 => some (.divf o a)
  | 0x140 => some (.ld o mm) | 0x141 => some (.st o mm) | 0x142 => some (.lds o mm) | 0x143 => some (.sts o mm)
  | 0x144 => some (.ldc o mm) | 0x145 => some (.pfx o mm) | 0x146 => some (.iflush o)
  | 0x180 => some (.aadd o am) | 0x181 => some (.amin o am) | 0x182 => some (.amax o am) | 0x183 => some (.aand o am)
  | 0x184 => some (.aor o am) | 0x185 => some (.axor o am) | 0x186 => some (.axch o am) | 0x187 => some (.acas o am)
  | 0x188 => some (.afadd o am)
  | 0x189 => some (.fence o (.ofCode (modField r.mod 0 2)) (.ofCode (modField r.mod 3 2)))
  | 0x18A => some (.waita ⟨o, modField r.mod 0 2 == 3⟩)
  | 0x1C0 => some (.acpy o cm) | 0x1C1 => some (.tcpy o cm) | 0x1C2 => some (.cwait o prom) | 0x1C3 => some (.ctest o prom)
  | 0x1C4 => some (.cprom o prom) | 0x1C5 => some (.cstat o prom)
  | 0x200 => some (.mgang o xm) | 0x201 => some (.mma o xm) | 0x202 => some (.mzero o xm) | 0x203 => some (.mrnm o xm)
  | 0x204 => some (.mld o xm) | 0x205 => some (.mst o xm) | 0x206 => some (.mexp o xm) | 0x207 => some (.mmov o xm)
  | 0x240 => some (.exits o)
  | 0x241 => some (.region o (if m9 = 0 then .set else .hold))
  | 0x242 => some (.denput o)
  | 0x243 => some (.qpop o (if m9 = 0 then .wait else .tryOnce))
  | 0x244 => some (.qpush o) | 0x245 => some (.launch o) | 0x246 => some (.cntw o lv) | 0x247 => some (.cancel o lv)
  | 0x280 => some (.fsend o fm)
  | 0x281 => some (.fatom o fm (if var = 0 then .add else .cas))
  | 0x282 => some (.fwait o fm (if var = 0 then .arr else .free))
  | 0x283 => some (.fdrain o fm) | 0x284 => some (.freg o fm) | 0x285 => some (.frev o fm)
  | 0x286 => some (.fqry o fm (match var with | 0 => .pod | 1 => .cal | 2 => .back | 3 => .rgn | 4 => .arr | 5 => .err | _ => .lfsr))
  | 0x2C0 => some (.crange o) | 0x2C1 => some (.cfire o) | 0x2C2 => some (.cjoin o) | 0x2C3 => some (.cdrop o)
  | 0x300 => some (.gsub o (modField r.mod 0 3 == 3)) | 0x301 => some (.gwait o) | 0x302 => some (.gcan o)
  | 0x340 => some (.trap o) | 0x341 => some (.bkpt o) | 0x342 => some (.resume o (m4 == 1)) | 0x343 => some (.swr o)
  | 0x344 => some (.warnc o)
  | _ => none

/-! ## The two framing words, R25, R26, R32, R33 -/

def headerOp : BitVec 10 := 0x3E0
def clendOp : BitVec 10 := 0x3E1

/-- SETA or SETB: 0 to 11, or 15 for none. -/
def flagFieldOk (n : Nat) : Bool := decide (n < 12) || n == 15

def decodeHeader (w : Slot) : Except BadWord Instr :=
  let len := (w.extractLsb' 10 5).toNat
  let wait := w.extractLsb' 15 12
  let seta := w.extractLsb' 27 4
  let setb := w.extractLsb' 31 4
  if w.extractLsb' 37 59 ≠ 0 ∨ len = 0 ∨ 24 < len ∨ !flagFieldOk seta.toNat ∨ !flagFieldOk setb.toNat then .error .illOp
  else .ok (.clauseHeader { len := Fin.ofNat 32 len, wait, seta := flagOf seta, setb := flagOf setb,
                            rgp := w.getLsbD 35, yld := w.getLsbD 36 })

/-- Entry e of a CLEND; none when its register is no legal spec. -/
def clendEntry (w : Slot) (e : Nat) : Option ClendEntry :=
  (Spec.ofByte (w.extractLsb' (13 + 8 * e) 8)).map fun reg => ⟨reg, w.getLsbD (61 + e), w.getLsbD (67 + e)⟩

/-- R33: v, s or k1 to k7; WIDE only on an even v register. -/
def ClendEntry.ok (x : ClendEntry) : Bool :=
  match x.reg with
  | .v n => !(x.wide && n.val % 2 == 1)
  | .s _ => !x.wide
  | .k n => n != 0 && !x.wide
  | _ => false

/-- An entry at or above CNT is all zero. -/
def clendUnused (w : Slot) (e : Nat) : Bool :=
  w.extractLsb' (13 + 8 * e) 8 == 0 && !w.getLsbD (61 + e) && !w.getLsbD (67 + e)

def decodeClend (w : Slot) : Except BadWord Instr :=
  let cnt := (w.extractLsb' 10 3).toNat
  if w.extractLsb' 73 23 ≠ 0 ∨ cnt = 7 ∨ !((List.range 6).filter (cnt ≤ ·)).all (clendUnused w) then .error .illOp
  else
    let es := (List.range cnt).map (clendEntry w)
    if es.all (fun x => match x with | some y => y.ok | none => false) then .ok (.clend (es.filterMap id))
    else .error .illOpnd

/-- The decoder: total on any slot, rejecting by name. -/
def decode (w : Slot) : Except BadWord Instr :=
  let r := Raw.ofSlot w
  if r.op = headerOp then decodeHeader w
  else if r.op = clendOp then decodeClend w
  else
    match wordCheck r with
    | some b => .error b
    | none => match build r with | some i => .ok i | none => .error .illOp

/-! ## Facts of a slot that the clause checks need before its operands are looked at, R24, R29 -/

def isHeader (w : Slot) : Bool := (Raw.ofSlot w).op == headerOp
def isClend (w : Slot) : Bool := (Raw.ofSlot w).op == clendOp
def isTerminal (w : Slot) : Bool := match rowOf (Raw.ofSlot w) with | some x => x.terminal | none => false
/-- A class 0x8 instruction other than MGANG, R264. -/
def isMatrix (w : Slot) : Bool := let n := (Raw.ofSlot w).op.toNat; decide (0x201 ≤ n ∧ n ≤ 0x207)

/-! ## The encoder -/

def Opnds.raw (o : Opnds) (op : BitVec 10) (mod : BitVec 16) : Raw where
  op := op
  ty := o.ty.code
  dst := o.dst.toByte
  sa := o.sa.toByte
  sb := o.sb.toByte
  sc := o.sc.toByte
  pr := BitVec.ofNat 4 (8 * o.neg.toNat + o.pk.val)
  hold := BitVec.ofNat 2 o.hold.codeNat
  fl := flagBits o.fl
  mod := mod
  imm := o.imm

def lvNat : Level → Nat | .launch => 0 | .graph => 1 | .phase => 2 | .job => 3

/-- OP, operands and MOD of an instruction of the common format; none for the framing words and the part's own steps. -/
def instrRaw : Instr → Option Raw
  | .nop o => o.raw 0x000 0 | .bra o => o.raw 0x001 0
  | .brc o m => o.raw 0x002 (match m with | .dec => 0 | .nz => 1 | .z => 2)
  | .bri o => o.raw 0x003 0 | .call o => o.raw 0x004 0 | .ret o => o.raw 0x005 0
  | .meet o m => o.raw 0x006 (match m with | .set => 0 | .clr => 1)
  | .exit o => o.raw 0x007 0
  | .bar o b => o.raw 0x008 (BitVec.ofNat 16 (16 * b.val)) | .bara o b => o.raw 0x009 (BitVec.ofNat 16 (16 * b.val))
  | .barw o b => o.raw 0x00A (BitVec.ofNat 16 (16 * b.val))
  | .vote o m => o.raw 0x00B (match m with | .all => 0 | .any => 1 | .uni => 2)
  | .ballot o => o.raw 0x00C 0
  | .shuf o m => o.raw 0x00D (match m with | .idx => 0 | .xor => 1 | .up => 2 | .down => 3)
  | .push o m => o.raw 0x00E (match m with | .hi => 0 | .lo => 1)
  | .rank o m => o.raw 0x00F (match m with | .desc => 0 | .asc => 1)
  | .regrp o => o.raw 0x010 0
  | .sleep o m => o.raw 0x011 (match m with | .rel => 0 | .abs => 1)
  | .yield o => o.raw 0x012 0
  | .mov o => o.raw 0x040 0
  | .movi o m => o.raw 0x041 (match m with | .lo => 0 | .mid => 1 | .top => 2)
  | .sel o => o.raw 0x042 0
  | .rdl o m => o.raw 0x043 (match m with | .idx => 0 | .first => 1)
  | .rgive o n => o.raw 0x044 (BitVec.ofNat 16 (16 * n.val)) | .rclaim o n => o.raw 0x045 (BitVec.ofNat 16 (16 * n.val))
  | .rstat o => o.raw 0x046 0
  | .kset o p => o.raw 0x047 (match p with | .and => 0 | .or => 1 | .xor => 2 | .andn => 3 | .orn => 4 | .nand => 5 | .nor => 6 | .xnor => 7 | .nz => 8)
  | .srd o p => o.raw 0x048 (match p with | .fpcw => 0 | .argp => 1 | .khdr => 2 | .scr => 3 | .accs => 4 | .thr => 5 | .slot => 6 | .dl => 7)
  | .add o m => o.raw 0x080 m.toMod | .sub o m => o.raw 0x081 m.toMod | .addc o m => o.raw 0x082 m.toMod
  | .subb o m => o.raw 0x083 m.toMod | .mul o m => o.raw 0x084 m.toMod | .mulh o m => o.raw 0x085 m.toMod
  | .mad o m => o.raw 0x086 m.toMod | .madw o m => o.raw 0x087 m.toMod | .min o m => o.raw 0x088 m.toMod
  | .max o m => o.raw 0x089 m.toMod | .abs o m => o.raw 0x08A m.toMod | .neg o m => o.raw 0x08B m.toMod
  | .and o m => o.raw 0x08C m.toMod | .or o m => o.raw 0x08D m.toMod | .xor o m => o.raw 0x08E m.toMod
  | .not o m => o.raw 0x08F m.toMod | .shl o m => o.raw 0x090 m.toMod | .shr o m => o.raw 0x091 m.toMod
  | .sar o m => o.raw 0x092 m.toMod | .rotl o m => o.raw 0x093 m.toMod | .bfx o m => o.raw 0x094 m.toMod
  | .bfi o m => o.raw 0x095 m.toMod | .popc o m => o.raw 0x096 m.toMod | .clz o m => o.raw 0x097 m.toMod
  | .brev o m => o.raw 0x098 m.toMod | .cmp o m => o.raw 0x099 m.toMod | .lea o m => o.raw 0x09A m.toMod
  | .dot4 o m => o.raw 0x09B m.toMod | .div o m => o.raw 0x09C m.toMod | .rem o m => o.raw 0x09D m.toMod
  | .prmb o m => o.raw 0x09E m.toMod
  | .fadd o m => o.raw 0x0C0 m.toMod | .fsub o m => o.raw 0x0C1 m.toMod | .fmul o m => o.raw 0x0C2 m.toMod
  | .ffma o m => o.raw 0x0C3 m.toMod | .fmin o m => o.raw 0x0C4 m.toMod | .fmax o m => o.raw 0x0C5 m.toMod
  | .fcmp o m => o.raw 0x0C6 m.toMod | .fclass o m => o.raw 0x0C7 m.toMod | .frnd o m => o.raw 0x0C8 m.toMod
  | .cvt o m => o.raw 0x0C9 m.toMod | .fdot2 o m => o.raw 0x0CA m.toMod | .qnt o m => o.raw 0x0CB m.toMod
  | .rcp o m => o.raw 0x100 m.toMod | .rsq o m => o.raw 0x101 m.toMod | .sqrt o m => o.raw 0x102 m.toMod
  | .exp2 o m => o.raw 0x103 m.toMod | .log2 o m => o.raw 0x104 m.toMod | .sin o m => o.raw 0x105 m.toMod
  | .cos o m => o.raw 0x106 m.toMod | .tanh o m => o.raw 0x107 m.toMod | .divf o m => o.raw 0x108 m.toMod
  | .ld o m => o.raw 0x140 m.toMod | .st o m => o.raw 0x141 m.toMod | .lds o m => o.raw 0x142 m.toMod
  | .sts o m => o.raw 0x143 m.toMod | .ldc o m => o.raw 0x144 m.toMod | .pfx o m => o.raw 0x145 m.toMod
  | .iflush o => o.raw 0x146 0
  | .aadd o m => o.raw 0x180 m.toMod | .amin o m => o.raw 0x181 m.toMod | .amax o m => o.raw 0x182 m.toMod
  | .aand o m => o.raw 0x183 m.toMod | .aor o m => o.raw 0x184 m.toMod | .axor o m => o.raw 0x185 m.toMod
  | .axch o m => o.raw 0x186 m.toMod | .acas o m => o.raw 0x187 m.toMod | .afadd o m => o.raw 0x188 m.toMod
  | .fence o sc fk => o.raw 0x189 (BitVec.ofNat 16 (sc.codeNat + 8 * fk.codeNat))
  | .waita ⟨o, pod⟩ => o.raw 0x18A (if pod then 3 else 0)
  | .acpy o m => o.raw 0x1C0 m.toMod | .tcpy o m => o.raw 0x1C1 m.toMod
  | .cwait o p => o.raw 0x1C2 (BitVec.ofNat 16 (64 * p.toNat)) | .ctest o p => o.raw 0x1C3 (BitVec.ofNat 16 (64 * p.toNat))
  | .cprom o p => o.raw 0x1C4 (BitVec.ofNat 16 (64 * p.toNat)) | .cstat o p => o.raw 0x1C5 (BitVec.ofNat 16 (64 * p.toNat))
  | .mgang o m => o.raw 0x200 m.toMod | .mma o m => o.raw 0x201 m.toMod | .mzero o m => o.raw 0x202 m.toMod
  | .mrnm o m => o.raw 0x203 m.toMod | .mld o m => o.raw 0x204 m.toMod | .mst o m => o.raw 0x205 m.toMod
  | .mexp o m => o.raw 0x206 m.toMod | .mmov o m => o.raw 0x207 m.toMod
  | .exits o => o.raw 0x240 0
  | .region o m => o.raw 0x241 (match m with | .set => 0 | .hold => 64)
  | .denput o => o.raw 0x242 0
  | .qpop o m => o.raw 0x243 (match m with | .wait => 0 | .tryOnce => 64)
  | .qpush o => o.raw 0x244 0 | .launch o => o.raw 0x245 0
  | .cntw o l => o.raw 0x246 (BitVec.ofNat 16 (64 * lvNat l)) | .cancel o l => o.raw 0x247 (BitVec.ofNat 16 (64 * lvNat l))
  | .fsend o m => o.raw 0x280 m.toMod | .fatom o m _ => o.raw 0x281 m.toMod | .fwait o m _ => o.raw 0x282 m.toMod
  | .fdrain o m => o.raw 0x283 m.toMod | .freg o m => o.raw 0x284 m.toMod | .frev o m => o.raw 0x285 m.toMod
  | .fqry o m _ => o.raw 0x286 m.toMod
  | .crange o => o.raw 0x2C0 0 | .cfire o => o.raw 0x2C1 0 | .cjoin o => o.raw 0x2C2 0 | .cdrop o => o.raw 0x2C3 0
  | .gsub o a => o.raw 0x300 (if a then 3 else 0) | .gwait o => o.raw 0x301 0 | .gcan o => o.raw 0x302 0
  | .trap o => o.raw 0x340 0 | .bkpt o => o.raw 0x341 0 | .resume o k => o.raw 0x342 (if k then 1 else 0)
  | .swr o => o.raw 0x343 0 | .warnc o => o.raw 0x344 0
  | _ => none

def encodeHeader (h : Header) : Slot :=
  BitVec.ofNat 96 (0x3E0 + 2 ^ 10 * h.len.val + 2 ^ 15 * h.wait.toNat + 2 ^ 27 * (flagBits h.seta).toNat
    + 2 ^ 31 * (flagBits h.setb).toNat + 2 ^ 35 * h.rgp.toNat + 2 ^ 36 * h.yld.toNat)

/-- The bits of entries e, e+1, ... of a CLEND. -/
def clendBits : Nat → List ClendEntry → Nat
  | _, [] => 0
  | e, x :: xs => 2 ^ (13 + 8 * e) * x.reg.toByte.toNat + 2 ^ (61 + e) * x.bind.toNat + 2 ^ (67 + e) * x.wide.toNat
      + clendBits (e + 1) xs

def encodeClend (es : List ClendEntry) : Slot := BitVec.ofNat 96 (0x3E1 + 2 ^ 10 * es.length + clendBits 0 es)

/-- The word of an instruction; none for the part's own steps, which no word encodes. -/
def encode : Instr → Option Slot
  | .clauseHeader h => some (encodeHeader h)
  | .clend es => some (encodeClend es)
  | i => (instrRaw i).map Raw.toSlot

/-- The decoder on a word numbered as spec/opcode_table.json numbers it (bit 0 the least significant bit
of the first byte). A shorter word has zero bits above. -/
def decodeTableWord (nbits w : Nat) : Option Instr :=
  match decode (BitVec.ofNat 96 (w % 2 ^ nbits)) with
  | .ok i => some i
  | .error _ => none

end Sys2Proof
end

