-- ==== Sys2Proof/Machine/Tab.lean ====
section
/-! DEFINITION. Finite tables in one canonical form: keys strictly rising, no entry equal to what an unlisted key reads as. Memory bytes, registers and every sparse table of the part are held so. -/
namespace Sys2Proof.Machine

/-- A table from numbers to values. -/
abbrev Tab (α : Type) := List (Nat × α)

/-- The entry at key k; d where none is listed. -/
def Tab.get {α : Type} (d : α) : Tab α → Nat → α
  | [], _ => d
  | (j, v) :: r, k => if j = k then v else Tab.get d r k

/-- The entry at key k, if listed. -/
def Tab.find {α : Type} : Tab α → Nat → Option α
  | [], _ => none
  | (j, v) :: r, k => if j = k then some v else Tab.find r k

/-- Insert or replace, for tables whose unlisted keys hold nothing. -/
def Tab.put {α : Type} : Tab α → Nat → α → Tab α
  | [], k, v => [(k, v)]
  | (j, u) :: r, k, v =>
    if k < j then (k, v) :: (j, u) :: r
    else if j = k then (k, v) :: r
    else (j, u) :: Tab.put r k v

/-- Write v at key k, keeping the canonical form. -/
def Tab.set {α : Type} [DecidableEq α] (d : α) (m : Tab α) (k : Nat) (v : α) : Tab α :=
  if v = d then m.filter fun x => x.1 != k else m.put k v

/-- Remove the entry at key k. -/
def Tab.del {α : Type} : Tab α → Nat → Tab α
  | [], _ => []
  | (j, u) :: r, k => if j = k then r else (j, u) :: Tab.del r k

/-- Keys above `lo`, strictly rising, and no entry equal to d. -/
def Tab.okAbove {α : Type} [DecidableEq α] (d : α) : Nat → Tab α → Bool
  | _, [] => true
  | lo, (j, v) :: r => decide (lo ≤ j) && decide (v ≠ d) && Tab.okAbove d (j + 1) r

/-- The canonical form. -/
def Tab.wf {α : Type} [DecidableEq α] (d : α) (m : Tab α) : Bool := Tab.okAbove d 0 m

/-- Entry i of a list, with a default. -/
def nth {α : Type} (d : α) : List α → Nat → α
  | [], _ => d
  | x :: _, 0 => x
  | _ :: xs, n + 1 => nth d xs n

/-- Apply f to entry i of a list. -/
def modNth {α : Type} (f : α → α) : List α → Nat → List α
  | [], _ => []
  | x :: xs, 0 => f x :: xs
  | x :: xs, n + 1 => x :: modNth f xs n

end Sys2Proof.Machine
end

