-- ==== Sys2Proof/Machine/State.lean ====
section
/-! DEFINITION. The state of the part as plain data: all that spec/ gives the machine, the model's own schedule fields beside it, the reasons a step can stop, and the state after reset. -/
namespace Sys2Proof.Machine

/-! ## Reasons a step can stop -/

/-- Faults of the model itself. Every fault of spec/18 R409 is a NEXT state, not one of these. -/
inductive Fault where
  /-- Raised by the meaning of an instruction word when `State.sched.cur` names no group that has a clause
  in execution: the word then belongs to no issuer. `step` never raises it. Safe: the part has no such case. -/
  | noIssuer
  deriving DecidableEq, Repr

/-- Refusals. -/
inductive Refusal where
  /-- Raised by an arm of `exec` for an instruction without a meaning. Safe: nothing is claimed of it. -/
  | notModelled (mnemonic : String)
  deriving DecidableEq, Repr

/-! ## The schedule: which agent moves next (log 1) -/

/-- A group record of a resident team, for which a slot issues. -/
structure Issuer where
  team : TeamRef
  recno : Nat
  deriving DecidableEq, Repr

/-- One entry of the schedule. -/
inductive Agendum where
  | event (i : Instr)                       -- a step of the part other than a group's issue
  | issue (core quad : Nat)                 -- the quadrant issues its next slot
  | move (cmd : Nat) (words : List Nat)     -- an engine performs these destination words of a command (R209, R210)
  | land (num : Nat)                        -- a work command reaches the front end and its flag is released
  deriving DecidableEq, Repr

/-- The model's own fields (log 1 to 3): the entries to come, the issuer an instruction acts for, the count
of steps made, which is also the stamp that orders events, and the next command number. -/
structure Sched where
  agenda : List Agendum
  cur : Option Issuer
  steps : Nat
  nextCmd : Nat
  deriving DecidableEq, Repr

/-! ## TIME and clocks, R11 to R14 -/

/-- A compute die's clock and the limits being enforced on it, in MHz. -/
structure DieClock where
  mhz : Nat
  thermal : Nat
  current : Nat
  power : Nat
  deriving DecidableEq, Repr

structure Clock where
  time : Nat              -- TIME, 64 bits
  runs : Bool             -- TIME counts (BASE reported power good)
  lead : Nat              -- ns by which TIME is ahead of the pod while it advances at half rate, R12
  half : Nat              -- 1 when an odd ns of the half rate has not yet counted
  dies : List DieClock    -- four
  fused : List Nat        -- fused clusters, R180
  deriving DecidableEq, Repr

/-! ## Memory, R172 to R178, R199, R209, R210 -/

/-- Who made a write: the threads of a team on a cluster, or neither (host, guest, engine). -/
structure Writer where
  team : Option TeamRef
  cluster : Option Nat
  deriving DecidableEq, Repr

/-- Bytes of one aligned 4-byte word that an engine wrote and that are not yet placed at PACKAGE scope, R210. -/
structure Unplaced where
  word : Nat                    -- word address, a multiple of 4
  bytes : List (Nat × Byte)     -- offset 0 to 3 and value
  cmd : Nat
  chunk : Option Nat            -- chunk of the command's tracker that it lies in, R224
  launch : Nat                  -- launch whose completion places it, R302
  by_ : Writer
  since : Nat                   -- stamp of the write
  placed : Option Scope         -- scope at which it is placed; none at no scope
  placedAt : Nat                -- stamp of that placement
  deriving DecidableEq, Repr

/-- The placement of an engine write for the observers of a scope below PACKAGE. -/
structure Placing where
  scope : Scope
  stamp : Nat
  by_ : Writer
  deriving DecidableEq, Repr

/-- A value that a word held until it was overwritten for every observer at `stamp` by `by_`, and before that for those
within a scope by the engine writes placed there, R209, R210; `above` are the engine writes, without their bytes, that had come over
it unplaced and were overwritten with it, so that a placement of theirs still bounds what a read may return (R211, R326). -/
structure Past where
  word : Nat
  value : W32
  stamp : Nat
  by_ : Writer
  early : List Placing
  above : List Unplaced
  deriving DecidableEq, Repr

/-- Bytes of a space: canonical cells (an unlisted byte reads 0), writes not yet placed, and past values. -/
structure Store where
  cells : Tab Byte
  unplaced : List Unplaced
  past : List Past
  deriving DecidableEq, Repr

/-- A translation context, R173. -/
structure Ctx where
  asid : Nat
  root : Nat
  part : Nat
  key : Nat
  replay : Bool
  deriving DecidableEq, Repr

/-- A line held in a core's instruction cache, R199. -/
structure ILine where
  core : Nat
  asid : Nat
  va : Nat
  bytes : List Byte
  deriving DecidableEq, Repr

/-- Whose access an entry of a fault buffer holds: an instruction's (R188), an engine command's (R231), the source of a
fabric request (R352), a snapshot of a collective's chunk (R390), a request at its destination (R349), the guest's (R395). -/
inductive ParkWho where
  | instr (i : Issuer)
  | cmd (n : Nat)
  | req (n : Nat)
  | snap (part cid k : Nat)
  | landing
  | guest (ctx : BitVec 32) (r w x : Bool)
  deriving DecidableEq, Repr

/-- An entry of a cluster's fault buffer, R188, R231. -/
structure Parked where
  num : Nat
  cluster : Nat
  asid : Nat
  va : Nat
  tid : Option Nat        -- thread whose access it is
  who : ParkWho
  deriving DecidableEq, Repr

/-- A private, read-only page that holds the ARGS bytes of an accepted record, R291. -/
structure ArgPage where
  asid : Nat
  va : Nat
  pa : Nat
  owner : Nat             -- launch id
  deriving DecidableEq, Repr

structure Mem where
  phys : Store              -- HBM, host memory and guest memory by physical address
  tags : Tab Nat            -- per 128-byte line of HBM, the key generation it was written under; 0 is plain, R177
  poison : List Nat         -- poisoned 128-byte lines, R417
  ctxs : List Ctx
  owners : Tab Byte         -- key-owner table, R420
  keys : Tab Nat            -- key id to the generation of the key loaded, R176, R442; 1 is the generation of no key
  nextGen : Nat
  loaded : List (List Byte × Nat)   -- the keys that KEYLOADs have installed, each with its generation, R442
  icache : List ILine
  started : Tab Nat         -- 1 + the launch that a core last started a team of, R199
  parked : List Parked
  argPages : List ArgPage
  deriving DecidableEq, Repr

/-! ## Threads, clauses, groups and teams, spec/04 and spec/05 -/

/-- A write of a result register. -/
inductive RegWrite where
  | v (tid n : Nat) (x : W32)
  | c (tid n : Nat) (x : W32)
  | s (n : Nat) (x : W64)
  | k (tid n : Nat) (x : Bool)
  deriving DecidableEq, Repr

/-- What a suspended thread waits for: a barrier phase, a wake time, the compaction at a header, or the wait record of its group. -/
inductive Susp where
  | bar (bid : Nat)
  | sleep (wake : Nat)
  | regrp (head : Nat)
  | wait (id : Nat)
  deriving DecidableEq, Repr

/-- Run state, R71. -/
inductive Run where
  | runnable | held | suspended (w : Susp) | exited
  deriving DecidableEq, Repr

structure Thread where
  tid : Nat
  pc : Nat
  age : Nat                 -- step at which it became runnable at its PC, R74
  meet : Nat                -- MEET, 0 for none
  mset : Nat                -- meeting set
  recno : Nat
  pos : Nat                 -- lane
  run : Run
  v : Tab W32               -- unlisted reads 0, R107
  live : List Nat           -- register blocks whose zero mark is cleared, R107
  c : Tab W32
  k : Tab Bool              -- k1 to k7
  pend : Tab (Option Nat)   -- pending phase of each barrier, R95
  key : Nat                 -- REGRP key, R82
  keyed : Bool              -- it came to its header by REGRP and has not started the clause there
  endH : Nat                -- extended blocks its record held when it ended, R113, R323
  deriving DecidableEq, Repr

/-- A meeting set, R78. -/
structure MSet where
  id : Nat
  head : Nat
  members : List Nat
  spent : Bool
  deriving DecidableEq, Repr

/-- A latch: the position that filled it and the value of each present thread, R43. -/
structure Latch where
  pos : Nat
  vals : Tab W64
  deriving DecidableEq, Repr

/-- What an instruction that waits waits for, with the operands it captured at issue. -/
inductive WaitKind where
  | claim (n : Nat)                                              -- R123
  | monitor (dst : Spec) (line : Nat) (armed : Bool) (hbm : Bool) (limit t0 : Nat)   -- WAITA, R217, R218
  | chunks (trk : Nat) (mask : W64)                              -- CWAIT, R239
  | promise (trk : Nat) (mask : W64) (until_ : Nat)              -- CPROM, R241
  | pop (dst : Spec) (q off : Nat) (tryOnce : Bool) (claimed : Option Nat)   -- QPOP, R312
  | fab (dst : Spec) (arr : Bool) (region : Nat) (count : W64) (limit t0 : Nat)      -- FWAIT, R365
  | guest (dst : Spec) (q : Nat) (target : Nat) (limit t0 : Nat) -- GWAIT, R407
  deriving DecidableEq, Repr

/-- The part of a terminal instruction that takes effect after CLEND, captured at issue (R29). -/
inductive Terminal where
  | go (targets : List (Nat × Nat))              -- active thread to target
  | exit (tids : List Nat)
  | bar (bid : Nat) (tids : List Nat)
  | regrp (keys : List (Nat × Nat))
  | sleep (wake : Nat) (tids : List Nat)
  | yield (tids : List Nat)
  | wait (k : WaitKind) (tids : List Nat)
  | waita (dst : Spec) (pa gen n expect limit : Nat) (tids : List Nat)
  | resume (skip : Bool)
  deriving DecidableEq, Repr

/-- The clause in execution, R24 to R29. -/
structure Clause where
  head : Nat                     -- header address
  hdr : Header
  pos : Nat                      -- position to issue next, 1 to LEN
  issue : List Nat               -- the issue set
  latches : List Latch           -- l0 to l2
  lines : Tab (BitVec 512)       -- its lines that have been fetched, by address, R198, R199
  writers : List (Spec × Nat)    -- registers written under a flag in this clause
  term : Option Terminal
  resumed : Bool                 -- RESUME put it back: the next slot waits for the WAIT mask, R416
  idle : Bool                    -- it gave up its quadrant, parked or trapped, and has not issued since (R28, R188, R416)
  flown : List (Spec × Nat)      -- entries that its CLEND put in flight before a PROMISE_MISS took it back (R34, R241)
  deriving DecidableEq, Repr

/-- The trap record, R413. -/
structure TrapRec where
  clause : Clause
  temps : List (Nat × Tab W32)
  code : Nat
  deriving DecidableEq, Repr

/-- A wait in progress: the threads suspended by one issue, and for CPROM the context that a trap would save (R241). -/
structure Waiting where
  tids : List Nat
  kind : WaitKind
  saved : Option TrapRec
  deriving DecidableEq, Repr

/-! ### Matrix commands, spec/12 -/

inductive MatOp where
  | mma | mzero | mrnm (t : Int) | mld | mst (rs : Int) (ofmt : Ofmt) (sat : Bool) | mexp | mmov (src : Nat)
  deriving DecidableEq, Repr

/-- Bounds of an engine command's reads, R209: the seal of its launch, and scopes with the stamps at which they bound. -/
structure ReadBound where
  sealedAt : Nat
  scopes : List (Scope × Nat)
  by_ : Writer
  deriving DecidableEq, Repr

structure MatCmd where
  num : Nat
  iss : Issuer
  fl : Option (Fin 12)
  op : MatOp
  acc : Nat
  base : Nat                      -- MLD, MST, MEXP
  bound : ReadBound
  rel : Option Scope
  -- MMA only
  members : List Nat
  fmt : Option W32                -- none is a null arrival
  specs : List Spec               -- SA and SB, compared at matching
  acq : Option Scope
  shb : Bool
  descr : List W64                -- sa, sa+1, sa+2, sb, .. sb+3 as captured
  words : List Nat                -- destination words performed, as done for copies
  failed : Bool                   -- stopped by a fault
  ends : List (Issuer × Option (Fin 12))   -- once accepted: the members and their flags
  nums : List (Issuer × Nat)               -- once accepted: the members and the numbers of their own commands
  deriving DecidableEq, Repr

/-- A REGRP mark, R85: the regroup point and the TIME at which the group arrived. -/
structure Mark where
  head : Nat
  since : Nat
  deriving DecidableEq, Repr

structure Grp where
  recno : Nat
  role : Nat
  h : Nat                         -- extended blocks held
  s : Tab W64
  flags : List Nat                -- twelve counts
  flight : List (Spec × Fin 12)   -- registers in flight
  clause : Option Clause
  gang : W32
  mq : List MatCmd                -- at most 8
  warn : W32
  trapc : W32
  trapv : W64
  trap : Option TrapRec
  passes : Nat                    -- R75
  youngest : Bool                 -- ended its last clause with YLD or YIELD, and no clause of the quadrant started since
  endedAt : Nat                   -- step at which its last clause ended
  clearAt : List Nat              -- steps at which the twelve flags last became clear
  park : Option Nat               -- parked under REPLAY (its number), R188
  stall : Option Nat              -- an FL = 15 command whose result register is awaited
  marks : List Mark               -- regroup points at which it waits, R85
  waited : Tab Nat                -- regroup points at which its wait has ended, each with the step, since its last clause ended
  waits : Tab Waiting
  seen : List (Nat × Option Nat)  -- engine commands, or chunks of them, whose completion the group observed
  done_ : List (Fin 12 × Nat)     -- completed commands of a flag, observed when a WAIT on it starts a clause
  bounds : List (Scope × Nat)     -- FENCE.rel made, R209
  podRel : Option Nat             -- R351: a POD release in force, the last request number it covers
  retired : Bool
  freedAt : List Nat              -- steps at which the latest queue entries were freed, newest first, at most 8 (R75, R264)
  deriving DecidableEq, Repr

/-- A barrier, R95, R96. -/
structure Barrier where
  phase : Nat
  arr : Nat
  exp : Option Nat
  carry : List (Nat × Nat)
  deriving DecidableEq, Repr

/-- A tracker, R223. -/
structure Tracker where
  space : Bool
  base : Nat
  touch : W64
  pend : Tab Nat
  promise : Nat
  wrote : List (Nat × Nat)   -- chunk and command of tracked writes that are done, for R225
  deriving DecidableEq, Repr

/-- An accumulator tile, R254: an element not listed is tag 0, mantissa 0. The entry is the 64-bit raw image (R255). -/
structure Tile where
  e : Int
  els : Tab W64
  deriving DecidableEq, Repr

/-- The parsed kernel header, R64. -/
structure KHdr where
  flags : Nat
  entry : Nat
  handler : Nat
  threads : Nat
  bars : Nat
  accs : Nat
  scratch : Nat
  xpool : Nat
  roles : List (Nat × Nat)     -- GROUPS, XBLK
  args : Nat
  defer : Nat
  smask : Nat
  deriving DecidableEq, Repr

/-- The successor record, R317, with the header captured at the recording. -/
structure SuccRec where
  h : Nat
  m : W32
  s : W64
  hdr : KHdr
  deriving DecidableEq, Repr

/-- What a team is of: a launch, a den, or a collective reduce team. -/
inductive Item where
  | launch (id : Nat)
  | den (num : Nat)
  | reduce (part cid : Nat)
  deriving DecidableEq, Repr

/-- Why a team is being discarded, and whether it restarts (R332, R333). -/
inductive Ending where
  | kill | cancel | preempt
  deriving DecidableEq, Repr

/-- The first fault of a team that fw3 recorded: index of its fault record, if it was written, and the configuration of
the fault ring that the index belongs to (R411, R412). -/
structure Reported where
  code : Nat
  index : Option Nat
  ring : Nat
  deriving DecidableEq, Repr

structure Team where
  ref : TeamRef
  b : Nat
  item : Item
  part : Nat
  asid : Nat
  launch : Nat                 -- %launch
  pkg : Nat                    -- %pkg, as the team started
  seq : Nat
  deadline : Nat
  frep : Bool
  sealedAt : Nat                   -- stamp of the seal of its launch record, R209
  index : Nat                  -- %team
  coord : List Nat             -- tmx tmy tmz ntmx ntmy ntmz
  khdr : Nat
  hdr : KHdr
  argp : Nat
  argLen : Nat
  succh : Nat
  fpcw : W32
  threads : List Thread
  grps : List Grp
  msets : List MSet
  bars : List Barrier
  pool : Nat                   -- free extended blocks
  grants : List (Nat × Nat)    -- waiting RCLAIMs in order: record and wait id
  scratch : Store
  tiles : List Tile            -- 8
  trk : List Tracker           -- 16
  succ : Option SuccRec
  rgn : W32
  pre : Bool
  region : W32                 -- %region
  succMask : W32               -- %succ
  cancel : W32                 -- %cancel
  cancelBy : Option Nat        -- TIME at which its defer budget for a cancel ends
  preempt : Option Nat         -- a pending pre-emption request: TIME at which its budget ends
  fabErr : Nat                 -- FABERR count, R368
  fabErrCode : Nat
  badReqs : List Nat           -- destinations of its requests that ended other than OK, R364
  fault : Option Reported
  ending : Option Ending
  fired : Bool                 -- chunk fired at launch level
  records : List (List Byte)   -- den records it took
  deriving DecidableEq, Repr

/-! ## Commands in flight -/

/-- A command that will release a flag, or end a stall, and write a result register. -/
structure Ticket where
  cmd : Nat
  iss : Issuer
  fl : Option (Fin 12)
  dst : Spec
  deriving DecidableEq, Repr

/-- What a work command does at the front end when it lands. -/
inductive FrontAct where
  | denput (den : Nat) (data : List Byte)
  | qpush (q : Nat) (data : List Byte) (dst : Spec)
  | launch (data : List Byte) (dst : Spec) (stamp : Nat)
  deriving DecidableEq, Repr

inductive LandKind where
  | load | atomic | front (a : FrontAct)
  deriving DecidableEq, Repr

/-- A flagged load or atomic whose register writes are outstanding, or a work command on its way to the front end. -/
structure Landing where
  num : Nat
  iss : Issuer
  fl : Option (Fin 12)
  kind : LandKind
  writes : List RegWrite
  lost : List RegWrite      -- what it writes instead if the port is fenced first: of guest memory, all ones (R401)
  deriving DecidableEq, Repr

/-- The bytes a copy moves, R237, R238. -/
inductive CopyShape where
  | lanes (size : Nat) (pairs : List (Nat × Nat))     -- destination, source, in ascending %tid
  | block (src dst x y z : Nat) (srs sps drs dps : Int)
  deriving DecidableEq, Repr

structure CopyCmd where
  num : Nat
  iss : Issuer
  op : Nat
  fl : Option (Fin 12)
  bound : ReadBound
  rel : Option Scope
  dscr : Bool
  sscr : Bool
  trk : Option Nat
  shape : CopyShape
  chunks : List Nat            -- tracker chunks not yet done
  words : List Nat             -- destination words performed
  got : List (Nat × W32)       -- source words read, by address
  failed : Bool
  deriving DecidableEq, Repr

/-- A broadcast set, R279: only who may share a fetch, which no value shows. -/
structure BSet where
  cluster : Nat
  key : W64
  members : List (Nat × Nat)   -- commands and their cores
  first : MatCmd
  fetched : Bool
  words : List (Nat × W32)     -- B words already fetched for the set, by physical address
  deriving DecidableEq, Repr

structure Eng where
  landings : List Landing
  copies : List CopyCmd
  mats : List MatCmd           -- accepted, oldest first
  bsets : List BSet
  deriving DecidableEq, Repr

/-! ## The front end, spec/13 -/

/-- The fields of a launch record, R288. -/
structure LRec where
  khdr : Nat
  gridx : Nat
  gridy : Nat
  gridz : Nat
  argp : Nat
  deadline : Nat
  scls : Nat
  dcls : Nat
  graph : Nat
  phase : Nat
  job : Nat
  feedq : Nat
  succh : Nat
  collb : Nat
  fpcw : W32
  flags : Nat
  ranges : List (Nat × Nat × Nat)     -- base, length in 64 KiB units, KIND
  deriving DecidableEq, Repr

/-- A pre-empted team awaiting restart, R333. -/
structure Waiter where
  index : Nat
  khdr : Nat
  hdr : KHdr
  rgn : W32
  cancel : W32
  records : List (List Byte)
  deadline : Nat
  seq : Nat
  fired : Bool
  deriving DecidableEq, Repr

/-- A burrow, R106: the slot, 16 * core + slot, for which it was created, its bytes, and the key id of its pages. -/
structure Burrow where
  slot : Nat
  size : Nat
  key : Nat
  deriving DecidableEq, Repr

structure Launch where
  id : Nat
  seq : Nat
  part : Nat
  asid : Nat
  lrec : LRec
  hdr : KHdr
  argp : Nat                   -- VA of the argument page
  hazards : List Item
  next : Nat                   -- next team to dispatch
  total : Nat
  restarts : List Waiter
  cancelled : Bool
  cancelBits : W32
  overBudget : Bool            -- R292: a team was discarded at the end of its budget
  killed : Bool
  late : Bool
  sealedAt : Nat
  report : Option Reported     -- the fault that killed the launch, R411
  timedOut : Bool              -- its collective ended by TMO, R386
  burrows : List Burrow        -- created for it, R106
  coll : Option Nat            -- cid of its binding
  deriving DecidableEq, Repr

/-- A triggered den team awaiting dispatch, R306. -/
structure DenTeam where
  deadline : Nat
  seq : Nat
  records : List (List Byte)
  deriving DecidableEq, Repr

/-- A den, R305, R306. -/
structure Den where
  num : Nat
  part : Nat
  opened : Bool
  id : Nat                     -- launch id of its declaration
  seq : Nat
  asid : Nat
  lrec : LRec
  hdr : KHdr
  argp : Nat
  records : List (List Byte)
  reserved : Nat
  timer : Option Nat           -- TIME at which it expires
  ready : List DenTeam
  restarts : List Waiter
  cancelled : Bool
  late : Bool
  sealedAt : Nat
  hazards : List Item
  report : Option Reported     -- the fault that killed it, R411
  burrows : List Burrow        -- as for a launch, R106
  deriving DecidableEq, Repr

/-- A feed queue, R307. -/
structure FeedQ where
  num : Nat
  part : Nat
  enabled : Bool
  l : Nat
  base : Nat
  asid : Nat
  head : Nat
  claim : Nat
  tail : Nat
  rsv : Nat
  qovf : Bool
  sleepers : List (Issuer × Nat)   -- group and wait id, oldest first
  orphans : List Nat
  consumed : List Nat
  deriving DecidableEq, Repr

/-- An interval, R294. -/
structure Interval where
  asid : Nat
  base : Nat
  len : Nat
  kind : Nat
  owner : Item
  deriving DecidableEq, Repr

/-- A graph, phase or job counter, R303. -/
structure LevelCtr where
  level : Level
  part : Nat
  id : Nat
  opened : Bool                -- holds its open token
  cancelled : Bool
  deriving DecidableEq, Repr

/-- A status record, R292. -/
structure Status where
  type : Nat
  detail : Nat
  id : Nat
  seq : Nat
  time : Nat
  launch : Nat                 -- launch whose order of R423 it follows; 0 for none
  vec : Option Nat             -- the interrupt that announces it, raised once it is written, R423
  deriving DecidableEq, Repr

/-- A mailbox block, R295: eight inbound queues, the message being written, SENDST. -/
structure Mailbox where
  queues : List (List (BitVec 512))
  sending : List (BitVec 512)  -- the bytes last written to SEND by each core
  sendst : Nat
  deriving DecidableEq, Repr

/-- Front-end registers of one partition, and those of R412 and R419. -/
structure Part where
  e : Nat
  reads : Nat                  -- WINSEQ[63:7]
  ids : Nat                    -- count of R291
  winBase : Nat                -- physical address of the launch window
  sqbase : Nat
  sqcfg : Nat
  sqhead : Nat
  sqtail : Nat
  sqdrop : Nat
  held : List Status
  frbase : Nat
  frcfg : Nat
  frhead : Nat
  frtail : Nat
  frdrop : Nat
  frrings : Nat                -- accepted writes of FRBASE and FRCFG, which empty the ring
  pctl : W64
  flr : Bool                   -- PSTAT[0]
  slotsh : Nat
  hbmw : Nat
  fabsh : Nat
  defdef : Nat
  tmodef : Nat                 -- fw5's default TMO of the partition in us, R371
  deriving DecidableEq, Repr

/-- A LAUNCH issued by a team that was discarded before fw0 answered it, R233, R332. -/
structure Orphan where
  part : Nat
  asid : Nat
  item : Item
  stamp : Nat
  data : List Byte
  deriving DecidableEq, Repr

structure Front where
  binds : Tab W64              -- bind record of slot 16 * core + slot
  bindErr : W64
  accSeq : Nat
  launches : List Launch
  levels : List LevelCtr
  intervals : List Interval
  dens : List Den
  feedqs : List FeedQ
  boxes : List Mailbox         -- eight
  irqs : List (Nat × Nat)      -- interrupts raised, oldest first: partition and vector
  pendingLaunches : List (Nat × Nat × List Byte)   -- partition, stamp of the seal, record
  orphans : List Orphan
  answers : List W64           -- values answered to the register reads that have a side effect, oldest first
  deriving DecidableEq, Repr

/-! ## The fabric, spec/15 -/

/-- State of a request at its source, R346; `held` is a request that waits for a POD release (R351). -/
inductive ReqState where
  | held | queued | sent (k : Nat) | waiting (k : Nat)
  deriving DecidableEq, Repr

structure FabReq where
  num : Nat
  iss : Option Issuer          -- none for a collective's own request
  coll : Option Nat            -- cid of the collective that sent it
  part : Nat
  dest : Nat
  tc : Nat
  direct : Bool                -- takes the direct path
  via : Option Nat             -- intermediate of the first transmission
  stream : Option Nat          -- its number in its direct stream
  since : Nat                  -- TIME at which it entered its queue
  state : ReqState
  sentOnce : Bool
  retries : Nat
  expires : Nat                -- TIME at which its timer ends; as remaining ns while timers are frozen
  region : Nat
  key : BitVec 32
  off : Nat
  len : Nat
  src : Nat                    -- FSEND: virtual address of the source
  body : Option FabBody        -- FATOM's operands, or a collective's data
  bound : ReadBound
  tk : Option Ticket           -- of FSEND and FATOM
  wait : Option Nat            -- requests of its group up to this number must have a final status first, R351
  samedest : Bool              -- R351: only those to the same destination (REL = POD)
  deriving DecidableEq, Repr

/-- A drain marker, R364. -/
structure Drain where
  tk : Ticket
  covers : List Nat            -- request numbers still awaited
  bad : Nat                    -- of the issuing team, ended other than OK
  deriving DecidableEq, Repr

/-- An entry of a duplicate filter, R347. -/
structure Filtered where
  src : Nat
  num : Nat
  code : Nat
  old : W64
  until_ : Nat
  deriving DecidableEq, Repr

/-- A direct stream at its destination, R350. -/
structure Stream where
  src : Nat
  tc : Nat
  part : Nat
  next : Nat
  floor : Nat                  -- the highest floor received
  early : List FabPacket
  deriving DecidableEq, Repr

/-- Next number of a direct stream at its source. -/
structure StreamSrc where
  dest : Nat
  tc : Nat
  part : Nat
  next : Nat
  deriving DecidableEq, Repr

/-- What the part owes a peer in its next data window: acknowledgements (with the region in whose count the request
is in flight, R354), POOLWAIT answers (R377) and skip notices (R350). -/
inductive Owed where
  | ack (dest num code : Nat) (old : W64) (region : Option Nat)
  | poolwait (dest num : Nat)
  | skip (dest tc part floor : Nat)
  deriving DecidableEq, Repr

/-- An uncorrectable error that strikes the writes of a request at this part, its destination, once `words` words are
written, R349. -/
structure Strike where
  src : Nat
  num : Nat
  words : Nat
  pa : Nat
  syndrome : Nat
  deriving DecidableEq, Repr

inductive RgnState where
  | free | open_ | closing
  deriving DecidableEq, Repr

/-- A registered region, R353. -/
structure Region where
  state : RgnState
  launch : Nat
  asid : Nat
  base : Nat
  len : Nat
  key : BitVec 32
  w : Bool
  a : Bool
  arr : W64
  flight : Nat
  deriving DecidableEq, Repr

/-- STATE[2:0], R341. -/
inductive PodState where
  | alone | locked | quiesced | dark | relocking | left
  deriving DecidableEq, Repr

structure Fab where
  self : Nat
  mask : W64
  state : PodState
  inPod : Bool                 -- a relock has joined it to a pod of several members
  calErr : Bool
  calMism : Bool
  offWarn : Bool
  cal : List Nat               -- 64 entries, slot * 8 + port
  ncal : List Nat
  nmask : W64
  epoch : Nat
  nepoch : Nat
  foxt : Nat
  offset : Int                 -- ps
  lfsr : Nat
  commits : Nat
  staged : Bool
  calL : Nat                   -- length of the current calendar
  windows : Tab Nat            -- per port, 1 + the slot count of its latest data window
  badPorts : List (Nat × Nat)  -- slot and port unusable for the rest of the calendar, R337
  draining : Bool              -- QUIESCE written
  darkAt : Option Nat          -- DARK written: the cycle boundary at which the ports go dark
  darkDone : Bool              -- MASK has changed and its calendar is not yet in force
  relockAt : Option Nat        -- RELOCK written: the TIME at which the ports relock
  markers : List Nat           -- requests the quiesce markers still await
  reqNo : Nat
  reqs : List FabReq
  drains : List Drain
  relays : List (Nat × FabPacket)        -- TIME of acceptance and record
  filter : List Filtered
  streams : List Stream
  sources : List StreamSrc
  owed : List Owed
  sent : List FabPacket        -- requests as they left for other members, oldest first (R352)
  stalled : Tab FabPacket      -- requests held at the destination for a not-present page, by parked number, R349
  strikes : List Strike
  regions : Tab Region         -- 1024 ids; unlisted is FREE
  deriving DecidableEq, Repr

/-! ## Collectives, spec/16 -/

/-- The binding record, R371. -/
structure Binding where
  cid : Nat
  opr : Nat
  red : Nat
  sat : Bool
  elt : Nat
  srck : Bool
  tile : Nat
  tc : Nat
  box : List Nat               -- X0 Y0 Z0 NX NY NZ
  cbytes : Nat
  sbase : Nat
  sstride : Nat
  rstride : Nat
  rbase : Nat
  memb : W64
  tmo : Nat
  deriving DecidableEq, Repr

/-- A snapshot in progress, R380: chunk, firing team, the CFIRE that asked for it, if one did, and the stamp of the fire. -/
structure Snap where
  k : Nat
  team : TeamRef
  tk : Option Ticket
  stamp : Nat
  deriving DecidableEq, Repr

/-- A live collective, R376. -/
structure Coll where
  part : Nat
  own : Nat                    -- the part's own member index as the binding was accepted
  launch : Nat
  asid : Nat
  sealedAt : Nat
  bind : Binding
  counter : Nat
  second : Nat                 -- the counter of results, OPR 1
  fired : List Nat
  outbound : List (Nat × List Byte)          -- chunk and snapshot
  inbound : List (Nat × Nat × List Byte)     -- source rank, chunk, data
  seen : List (Nat × Nat)                    -- arrivals counted: source and request number
  snaps : List Snap
  cmd : Nat                                  -- command number of its writes to the result range
  joins : List Ticket
  reduceDue : Bool
  reduceDone : Bool
  deadline : Nat
  deriving DecidableEq, Repr

/-- An entry of the collective range table, R378. -/
structure RangeEntry where
  base : Nat
  len : Nat
  part : Nat
  cid : Nat
  guard : Bool
  deriving DecidableEq, Repr

/-- An unmatched arrival, R377. -/
structure Unmatched where
  src : Nat
  num : Nat
  part : Nat
  chunk : Chunk
  deriving DecidableEq, Repr

structure Colls where
  live : List Coll
  ranges : List RangeEntry
  pool : List Unmatched
  deriving DecidableEq, Repr

/-! ## The guest, spec/17 -/

/-- A packet submitted and not yet completed, R398, R399. -/
structure Packet where
  i : Nat
  tk : Ticket
  asid : Nat
  stop : Option Nat            -- TIME by which a stop request must be met, R397
  faulted : List Nat           -- VAs answered FAULT, R397
  deriving DecidableEq, Repr

structure GQueue where
  sq : Nat
  cq : Nat
  l : Nat
  part : Nat
  enabled : Bool
  sub : Nat
  cmp : Nat
  packets : List Packet
  deriving DecidableEq, Repr

/-- A GCAN in progress, R408. -/
structure GCancel where
  tk : Ticket
  q : Nat
  left : List Nat              -- indexes still awaited
  count : Nat
  deriving DecidableEq, Repr

/-- A shadow entry, R395. -/
structure Shadow where
  asid : Nat
  va : Nat
  frame : Nat
  size : Nat
  key : Option Nat             -- key id of its page; none is plain
  r : Bool
  w : Bool
  deriving DecidableEq, Repr

/-- An answer of the translation service, R395. -/
inductive Granted where
  | frame (pa size : Nat) (r w x : Bool) (ca : Nat)
  | fault (code : Nat)
  deriving DecidableEq, Repr

/-- A translation request of the guest. -/
structure GuestReq where
  ctx : BitVec 32
  va : Nat
  r : Bool
  w : Bool
  x : Bool
  deriving DecidableEq, Repr

/-- An invalidation sent to the guest, R396: TIME by which to acknowledge, its ASID, and the shadow entries that it ends. -/
structure Inval where
  due : Nat
  asid : Nat
  ends : List Shadow
  deriving DecidableEq, Repr

structure Guest where
  queues : List GQueue         -- 64
  shadows : List Shadow        -- at most 4096
  fenced : Bool
  cause : Nat
  present : Bool
  cancels : List GCancel
  invals : List Inval          -- invalidations outstanding, oldest first
  excessSince : Option Nat     -- TIME since which the guest rail exceeds GPWR
  throttles : Nat              -- throttle requests sent to the guest, R403
  answers : List (GuestReq × Granted)   -- translation requests answered, oldest first
  waiting : List GuestReq      -- held requests that found the fault buffer full, oldest first
  ready : Bool                 -- Genmon has reset the guest since the port was last fenced, R401
  doorbells : Nat              -- GCTL test writes notified to the guest
  deriving DecidableEq, Repr

/-! ## Genmon, spec/19 -/

structure Rail where
  set : W64                    -- RSET
  enable : Bool
  good : Bool
  fault : Bool
  volts : Nat                  -- RVMEAS
  amps : Nat                   -- RIMEAS
  since : Nat                  -- Genmon's time of the enable
  deriving DecidableEq, Repr

structure Stack where
  start : Bool
  step : Nat
  result : Nat
  lanes : Nat
  deriving DecidableEq, Repr

structure Ucie where
  start : Bool
  state : Nat
  result : Nat
  width : Nat
  deriving DecidableEq, Repr

structure Optic where
  laser : Bool
  lock : Bool
  locked : W32
  all : Bool
  out : Bool
  laserAt : Nat                -- Genmon's time of the laser enable
  lockAt : Nat                 -- and of the lock start
  deriving DecidableEq, Repr

structure LogEntry where
  time : Nat
  kind : Nat              -- names CODE and the layout of DATA (log 12)
  srcu : Nat
  sev : Nat
  data : List Nat
  deriving DecidableEq, Repr

/-- Banks A and B of a target, R444: bytes written to each over the flash at manufacture. -/
structure Target where
  bankA : Tab Byte
  bankB : Tab Byte
  preferB : Bool
  prevB : Bool                 -- the preference before the last IMGCOMMIT
  usedB : Bool
  trial : Bool
  tried : Bool
  floor : Nat                  -- the SVN that a CONFIRM raised the floor to; 0 before any
  raises : Nat
  deriving DecidableEq, Repr

/-- A management core, R429, R437: fw0 to fw7, and Genmon. No instruction of its program is in the spec. -/
structure FwCore where
  released : Bool              -- released from reset
  pc : Nat
  x : Tab W64
  sram : Tab Byte
  deriving DecidableEq, Repr

structure Mgmt where
  now : Nat                    -- Genmon's own count of ns since power-on, R431
  stage : Nat                  -- BOOTST[3:0]
  error : Nat                  -- BOOTST[7:4]
  trialBoot : Bool             -- BOOTST[17]
  off : Bool                   -- powered down by a trip or a rail fault
  readyAt : Nat
  status : Nat                 -- GMSTS[15:8]
  busy : Bool
  cmd : Nat                    -- the command that runs
  ignored : Bool               -- GMSTS[1]
  buf : Tab Byte               -- GMBUF
  cfgcnt : Nat
  pcap : Nat
  gpwr : Nat
  pcapDue : Option Nat         -- TIME by which a new cap is enforced
  capHeld : Nat                -- the cap that is enforced, R432
  phy : Bool                   -- the host link's PHY is released, R440
  guestCap : Option Nat        -- the rail target of the guest's capability block, once read, R436
  temps : Tab Int              -- 96 readings, 1/8 degree
  hbmHalved : Bool             -- the HBM zone throttles, R430
  rails : List Rail            -- eleven
  hbm : List Stack          -- eight
  ucie : List Ucie             -- four
  optics : List Optic          -- eight
  meas : List (BitVec 256)     -- sixteen
  guestKeys : List (BitVec 256)
  guestDone : Bool             -- the guest's exchange of R439 has been held
  log : List LogEntry
  targets : List Target        -- nine: fw0 to fw7, Genmon
  cores : List FwCore          -- the same nine
  flash : Tab Byte             -- Genmon's flash but for the banks, the log, the quote index and the boot count
  quotes : Nat
  boots : Nat
  configAnswers : List Bool    -- configuration requests answered, oldest first: true when completed normally
  fwIrqs : List Nat            -- firmware cores interrupted, oldest first (R337, R340, R430)
  deriving DecidableEq, Repr

/-! ## The state -/

structure State where
  sched : Sched
  clock : Clock
  mem : Mem
  teams : Tab Team             -- resident teams by 16 * core + slot
  eng : Eng
  front : Front
  parts : List Part            -- 32
  fab : Fab
  coll : Colls
  guest : Guest
  mgmt : Mgmt
  deriving DecidableEq, Repr

/-! ## Reset -/

def Store.empty : Store := ⟨[], [], []⟩

def Part.reset (p : Nat) : Part where
  e := 0; reads := 0; ids := 0
  winBase := 0x5F00000000 + 0x2000 * p   -- log 8
  sqbase := 0; sqcfg := 0; sqhead := 0; sqtail := 0; sqdrop := 0; held := []
  frbase := 0; frcfg := 0; frhead := 0; frtail := 0; frdrop := 0; frrings := 0
  pctl := 0; flr := false; slotsh := 0; hbmw := 1; fabsh := 1; defdef := 1000; tmodef := 1000

/-- Slot 15 of core 0 of every cluster is enabled with SCLS 1, R297. -/
def bindsReset : Tab W64 :=
  (List.range 48).map fun c => (16 * (8 * c) + 15, (0xA000000000000000 : W64))

def Target.reset : Target := ⟨[], [], false, false, false, false, false, 0, 0⟩

/-- The machine right after a package reset. Values the spec does not state are in log 8. -/
def State.reset : State where
  sched := ⟨[], none, 0, 0⟩
  clock := ⟨0, false, 0, 0, List.replicate 4 ⟨1600, 2100, 2100, 2100⟩, []⟩
  mem := ⟨.empty, [], [], [], [], [], 2, [], [], [], [], []⟩
  teams := []
  eng := ⟨[], [], [], []⟩
  front := { binds := bindsReset, bindErr := 0, accSeq := 0, launches := [], levels := [], intervals := [],
             dens := [], feedqs := [], boxes := List.replicate 8 ⟨List.replicate 8 [], List.replicate 8 0, 0⟩, irqs := [],
             pendingLaunches := [], orphans := [], answers := [] }
  parts := (List.range 32).map Part.reset
  fab := { self := 0, mask := 1, state := .alone, inPod := false, calErr := false, calMism := false, offWarn := false,
           cal := List.replicate 64 0, ncal := List.replicate 64 0, nmask := 0, epoch := 0, nepoch := 0, foxt := 400000,
           offset := 0, lfsr := 0xACE1, commits := 0, staged := false, calL := 1, windows := [], badPorts := [],
           draining := false, darkAt := none, darkDone := false, relockAt := none, markers := [], reqNo := 0, reqs := [],
           drains := [], relays := [], filter := [], streams := [], sources := [], owed := [], sent := [], stalled := [],
           strikes := [], regions := [] }
  coll := ⟨[], [], []⟩
  guest := { queues := List.replicate 64 ⟨0, 0, 4, 0, false, 0, 0, []⟩, shadows := [], fenced := true, cause := 0,
             present := false, cancels := [], invals := [], excessSince := none, throttles := 0, answers := [], waiting := [],
             ready := false, doorbells := 0 }
  mgmt := { now := 0, stage := 1, error := 0, trialBoot := false, off := false, readyAt := 0, status := 0, busy := false,
            cmd := 0, ignored := false, buf := [], cfgcnt := 0, pcap := Config.pceil, gpwr := 0, pcapDue := none, capHeld := Config.pceil,
            phy := false, guestCap := none, temps := [],
            hbmHalved := false,
            rails := ⟨0, true, true, false, 800, 0, 0⟩ :: List.replicate 10 ⟨0, false, false, false, 0, 0, 0⟩,
            hbm := List.replicate 8 ⟨false, 0, 0, 0⟩, ucie := List.replicate 4 ⟨false, 0, 0, 0⟩,
            optics := List.replicate 8 ⟨false, false, 0, false, false, 0, 0⟩, meas := List.replicate 16 0, guestKeys := [], guestDone := false,
            log := [], targets := List.replicate 9 Target.reset,
            cores := List.replicate 9 ⟨false, 0, [], []⟩, flash := [], quotes := 0, boots := 0, configAnswers := [],
            fwIrqs := [] }

end Sys2Proof.Machine
end

