-- ==== Sys2Proof/Machine/Access.lean ====
section
/-! DEFINITION. Reading and changing teams, group records and threads; completion flags; the view an instruction has of its issuer. -/
namespace Sys2Proof.Machine

/-! ## Teams, groups, threads -/

def slotKey (r : TeamRef) : Nat := 16 * r.core + r.slot

def State.team? (s : State) (r : TeamRef) : Option Team := s.teams.find (slotKey r)
def State.putTeam (s : State) (t : Team) : State := { s with teams := s.teams.put (slotKey t.ref) t }
def State.dropTeam (s : State) (r : TeamRef) : State := { s with teams := s.teams.del (slotKey r) }
def State.modTeam (s : State) (r : TeamRef) (f : Team → Team) : State :=
  match s.team? r with
  | some t => { s with teams := s.teams.put (slotKey r) (f t) }
  | none => s

def Team.grp? (t : Team) (n : Nat) : Option Grp := t.grps.find? (·.recno == n)
def Team.modGrp (t : Team) (n : Nat) (f : Grp → Grp) : Team :=
  { t with grps := t.grps.map fun g => if g.recno = n then f g else g }
def Team.modThreads (t : Team) (p : Thread → Bool) (f : Thread → Thread) : Team :=
  { t with threads := t.threads.map fun th => if p th then f th else th }
def Team.thread? (t : Team) (tid : Nat) : Option Thread := t.threads.find? (·.tid == tid)
def Team.modThread (t : Team) (tid : Nat) (f : Thread → Thread) : Team := t.modThreads (·.tid == tid) f

def State.grp? (s : State) (i : Issuer) : Option Grp := (s.team? i.team).bind (·.grp? i.recno)
def State.modGrp (s : State) (i : Issuer) (f : Grp → Grp) : State := s.modTeam i.team (·.modGrp i.recno f)

def Team.issuer (t : Team) (g : Nat) : Issuer := ⟨t.ref, g⟩
/-- Cluster of a core, R10. -/
def clusterOf (core : Nat) : Nat := core / 8
def dieOf (core : Nat) : Nat := core / 96
def Team.writer (t : Team) : Writer := ⟨some t.ref, some (clusterOf t.ref.core)⟩

/-! ## Registers -/

def Thread.getV (th : Thread) (n : Nat) : W32 := th.v.get 0 n
/-- The first write to a block clears its zero mark, R107. -/
def Thread.setV (th : Thread) (n : Nat) (x : W32) : Thread :=
  { th with v := th.v.set 0 n x, live := if th.live.contains (n / 32) then th.live else n / 32 :: th.live }
def Thread.getC (th : Thread) (n : Nat) : W32 := th.c.get 0 n
def Thread.setC (th : Thread) (n : Nat) (x : W32) : Thread := { th with c := th.c.set 0 n x }
/-- k0 reads 1, R38. -/
def Thread.getK (th : Thread) (n : Nat) : Bool := if n = 0 then true else th.k.get false n
def Thread.setK (th : Thread) (n : Nat) (x : Bool) : Thread := if n = 0 then th else { th with k := th.k.set false n x }
def Grp.getS (g : Grp) (n : Nat) : W64 := g.s.get 0 n
def Grp.setS (g : Grp) (n : Nat) (x : W64) : Grp := { g with s := g.s.set 0 n x }

def Team.applyWrite (t : Team) (rec : Nat) : RegWrite → Team
  | .v tid n x => t.modThread tid (·.setV n x)
  | .c tid n x => t.modThread tid (·.setC n x)
  | .k tid n x => t.modThread tid (·.setK n x)
  | .s n x => t.modGrp rec (·.setS n x)

def Team.applyWrites (t : Team) (rec : Nat) (ws : List RegWrite) : Team := ws.foldl (fun t w => t.applyWrite rec w) t
def State.applyWrites (s : State) (i : Issuer) (ws : List RegWrite) : State := s.modTeam i.team (·.applyWrites i.recno ws)

/-! ## Completion flags, R30, and %warn, R428 -/

def Grp.flag (g : Grp) (f : Fin 12) : Nat := nth 0 g.flags f.val
/-- All twelve flags read clear. -/
def Grp.clear (g : Grp) : Bool := g.flags.all (· == 0)
def Grp.incFlag (g : Grp) (f : Fin 12) : Grp := { g with flags := modNth (· + 1) g.flags f.val }

/-- Drop the registers whose bound flag now reads clear, R34. -/
def Grp.landed (g : Grp) : Grp := { g with flight := g.flight.filter fun x => g.flag x.2 != 0 }

/-- One operation of flag f completes. -/
def Grp.decFlag (g : Grp) (now : Nat) (f : Fin 12) : Grp :=
  Grp.landed { g with
    flags := modNth (· - 1) g.flags f.val,
    clearAt := if g.flag f = 1 then modNth (fun _ => now) g.clearAt f.val else g.clearAt }

def Grp.setWarn (g : Grp) (n : Nat) : Grp := { g with warn := g.warn ||| BitVec.ofNat 32 (2 ^ n) }
def State.setWarn (s : State) (i : Issuer) (n : Nat) : State := s.modGrp i (·.setWarn n)

/-- A command with flag `fl` is entered: its flag counts up. -/
def State.flagUp (s : State) (i : Issuer) : Option (Fin 12) → State
  | some f => s.modGrp i (·.incFlag f)
  | none => s

/-- Command `num` of flag `fl` completes: its flag counts down, and it waits to be observed (R208). A stall on it ends. -/
def State.flagDown (s : State) (i : Issuer) (fl : Option (Fin 12)) (num : Nat) : State :=
  s.modGrp i fun g =>
    let g := if g.stall = some num then { g with stall := none } else g
    match fl with
    | some f => ({ g with done_ := g.done_ ++ [(f, num)] }).decFlag s.sched.steps f
    | none => g

/-- A fresh command number. -/
def State.newCmd (s : State) : Nat × State :=
  (s.sched.nextCmd, { s with sched := { s.sched with nextCmd := s.sched.nextCmd + 1 } })

/-- A free choice of this step. -/
def State.choose (s : State) (key : List Nat) : Nat := Config.choose s.sched.steps key

/-! ## The calendar position, R338, R339 -/

/-- Number of set bits. -/
def popcount (w x : Nat) : Nat := (List.range w).foldl (fun n i => n + (x >>> i) % 2) 0

/-- L of a mask of N members, R336. -/
def calLength (mask : W64) : Nat := max 1 ((popcount 64 mask.toNat + 6) / 8)
def State.slotCount (s : State) : Nat := (s.clock.time - s.fab.epoch) / 520
def State.fslot (s : State) : Nat := s.slotCount % s.fab.calL
def State.fcyc (s : State) : Nat := s.slotCount / s.fab.calL
/-- The part's own member index, R10, R335: 0 in no pod. A part is in no pod until MASK first names one, whatever QUIESCE has
done to STATE, and again from the relock of a pod of one. DESIGN CHOICE: a part that has left by its clock (state `left`, R340, whose
MASK is unchanged) keeps its index (log 55). -/
def Fab.me (f : Fab) : Nat := if f.inPod || f.mask != 1 then f.self else 0
/-- A member index names this part. -/
def Fab.isMe (f : Fab) (m : Nat) : Bool := m == f.me

/-! ## What an instruction sees of its issuer -/

/-- The issuer's team, group record and clause, with the present threads in ascending %tid. -/
structure View where
  s : State
  iss : Issuer
  team : Team
  grp : Grp
  cl : Clause
  present : List Thread
  deriving DecidableEq, Repr

def View.of (s : State) (i : Issuer) : Option View :=
  match s.team? i.team with
  | none => none
  | some t =>
    match t.grp? i.recno with
    | none => none
    | some g =>
      match g.clause with
      | none => none
      | some c => some ⟨s, i, t, g, c, t.threads.filter fun th => c.issue.contains th.tid⟩

/-- Address of clause position p: slots follow one another, five to a line, R18. -/
def slotAddr (head p : Nat) : Nat :=
  let n := head % 8 + p
  (head / 64 * 64 + 64 * (n / 5)) % 2 ^ 64 + n % 5

def View.pc (v : View) : Nat := slotAddr v.cl.head v.cl.pos
/-- The header that follows this clause's CLEND. -/
def Clause.following (c : Clause) : Nat := slotAddr c.head (c.hdr.len.val + 1)
def View.following (v : View) : Nat := v.cl.following

/-- R45. -/
def Thread.active (th : Thread) (o : Opnds) : Bool := th.getK o.pk.val != o.neg
def View.active (v : View) (o : Opnds) : List Thread := v.present.filter (·.active o)
def View.any (v : View) (o : Opnds) : Bool := !(v.active o).isEmpty

end Sys2Proof.Machine
end

