-- ==== Sys2Proof/Machine/Operands.lean ====
section
/-! DEFINITION. Reading an operand field and writing a destination, spec/02 R38 to R47, spec/05 R113, R115. A value is its bit pattern as a natural number below 2 to the width. -/
namespace Sys2Proof.Machine

/-! ## Values of the fields -/

/-- An IMM operand under a type, R44. -/
def immValue (ty : Ty) (imm : BitVec 24) : Nat :=
  let n := imm.toNat
  match ty with
  | .u8 | .s8 => n % 2 ^ 8
  | .u16 | .s16 | .f16 | .bf16 => n % 2 ^ 16
  | .s32 => (imm.signExtend 32).toNat
  | .s64 => (imm.signExtend 64).toNat
  | .u32 | .u64 | .b32 | .b64 => n
  | .f32 => n * 2 ^ 8
  | .f64 => n * 2 ^ 40
  | .f16x2 | .bf16x2 => n % 2 ^ 16 + 2 ^ 16 * (n % 2 ^ 16)

/-- A special register of a thread, R41. -/
def View.special (v : View) (th : Option Thread) : Special → Nat
  | .tid => match th with | some x => x.tid | none => 0
  | .lane => match th with | some x => x.pos | none => 0
  | .grp => v.iss.recno
  | .team => v.team.index
  | .tmx => nth 0 v.team.coord 0
  | .tmy => nth 0 v.team.coord 1
  | .tmz => nth 0 v.team.coord 2
  | .ntmx => nth 0 v.team.coord 3
  | .ntmy => nth 0 v.team.coord 4
  | .ntmz => nth 0 v.team.coord 5
  | .core => v.iss.team.core
  | .clu => clusterOf v.iss.team.core
  | .die => dieOf v.iss.team.core
  | .pkg => v.team.pkg
  | .role => v.grp.role
  | .region => v.team.region.toNat
  | .time => v.s.clock.time
  | .fslot => v.s.fslot
  | .fcyc => v.s.fcyc
  | .warn => v.grp.warn.toNat
  | .trapc => v.grp.trapc.toNat
  | .trapv => v.grp.trapv.toNat
  | .cancel => v.team.cancel.toNat
  | .launch => v.team.launch
  | .part => v.team.part
  | .succ => v.team.succMask.toNat

/-- The value of a v or c file entry, or pair under a 64-bit type, R40. -/
def pairOf (wide : Bool) (f : Nat → W32) (n : Nat) : Nat :=
  if wide then (f n).toNat + 2 ^ 32 * (f (n + 1)).toNat else (f n).toNat

/-- The operand of a field under a type for one thread (none for a scalar reading), R38, R40, R44. -/
def View.read (v : View) (o : Opnds) (ty : Ty) (th : Option Thread) : Spec → Nat
  | .v n => match th with | some x => pairOf ty.wide x.getV n.val % 2 ^ ty.width | none => 0
  | .c n => match th with | some x => pairOf ty.wide x.getC n.val % 2 ^ ty.width | none => 0
  | .s n => (v.grp.getS n.val).toNat % 2 ^ ty.width
  | .l n => match th with
    | some x => ((nth ⟨0, []⟩ v.cl.latches n.val).vals.get 0 x.tid).toNat % 2 ^ ty.width
    | none => 0
  | .zero => 0
  | .imm => immValue ty o.imm
  | .sp r => v.special th r % 2 ^ ty.width
  | .k n => match th with | some x => (x.getK n.val).toNat | none => 0

/-- A field read once for the group, under a type. -/
def View.scalar (v : View) (o : Opnds) (ty : Ty) (sp : Spec) : Nat := v.read o ty none sp

/-- Scalar register n, whole. -/
def View.s64 (v : View) (n : Nat) : Nat := (v.grp.getS n).toNat
/-- The s register that a spec names, plus k. -/
def sIndex : Spec → Nat
  | .s n => n.val
  | _ => 0

/-! ## Destinations -/

/-- The writes of a value to the register a thread's destination names, R40. -/
def regWrite (wide : Bool) (tid : Nat) (x : Nat) : Spec → List RegWrite
  | .v n => if wide then [.v tid n.val (BitVec.ofNat 32 x), .v tid (n.val + 1) (BitVec.ofNat 32 (x / 2 ^ 32))]
            else [.v tid n.val (BitVec.ofNat 32 x)]
  | .c n => if wide then [.c tid n.val (BitVec.ofNat 32 x), .c tid (n.val + 1) (BitVec.ofNat 32 (x / 2 ^ 32))]
            else [.c tid n.val (BitVec.ofNat 32 x)]
  | .k n => [.k tid n.val (x != 0)]
  | .s n => [.s n.val (BitVec.ofNat 64 x)]
  | _ => []

def isSReg : Spec → Bool
  | .s _ => true
  | _ => false

/-- The writes of an instruction's result: once for an s destination when some thread is active, otherwise
one for each active thread (R6, R45). -/
def View.dst (v : View) (o : Opnds) (wide : Bool) (f : Option Thread → Nat) : List RegWrite :=
  match o.dst with
  | .s n => if v.any o then [.s n.val (BitVec.ofNat 64 (f none))] else []
  | sp => (v.active o).flatMap fun th => regWrite wide th.tid (f (some th)) sp

/-- One scalar result to an s register or zero, when some thread is active. -/
def View.dstS (v : View) (o : Opnds) (x : Nat) : List RegWrite := if v.any o then regWrite false 0 x o.dst else []

/-! ## The branch form, R47 -/

/-- The instruction address that IMM names from a slot at `pc`. -/
def target (pc : Nat) (imm : BitVec 24) : Nat :=
  let off := ((imm.extractLsb' 3 21).signExtend 58).toNat
  ((pc / 64 + off) % 2 ^ 58) * 64 + imm.toNat % 8

/-- The signed byte offset of classes 0x5 and 0x6, sext(IMM, 64). -/
def immOff (imm : BitVec 24) : Int := imm.toInt

/-! ## Registers that an instruction touches, for R34 and R111 -/

/-- A register and the next k - 1 of its kind. -/
def runOf (sp : Spec) (k : Nat) : List Spec :=
  (List.range k).filterMap fun j =>
    match sp with
    | .v n => if h : n.val + j < 128 then some (.v ⟨n.val + j, h⟩) else none
    | .s n => if h : n.val + j < 64 then some (.s ⟨n.val + j, h⟩) else none
    | .k n => if j = 0 && n != 0 then some (.k n) else none
    | .c n => if h : n.val + j < 8 then some (.c ⟨n.val + j, h⟩) else none
    | _ => none

/-- How many registers a field names: two in v or c under a 64-bit type. -/
def fieldRegs (t : Ty) (sp : Spec) : Nat :=
  match sp with
  | .v _ | .c _ => if t.wide then 2 else 1
  | _ => 1

/-- Elements of a class 0x5 data field; descriptor and record registers of the engine instructions. -/
def groupOf : Instr → (Nat × Nat × Nat)     -- counts for DST, SA, SB
  | .ld _ m | .lds _ m | .ldc _ m => (m.vec.count, 1, 1)
  | .st _ m | .sts _ m => (1, 1, m.vec.count)
  | .tcpy _ _ => (1, 8, 1)
  | .mma _ _ => (1, 3, 4)
  | .fsend _ _ | .fatom _ _ _ => (1, 2, 1)
  | .freg _ _ => (1, 2, 1)
  | .crange _ => (1, 1, 2)
  | _ => (1, 1, 1)

/-- Every register that an instruction reads or writes through its fields. -/
def touched (i : Instr) (o : Opnds) : List Spec :=
  match instrRaw i with
  | none => []
  | some r =>
    match rowOf r with
    | none => []
    | some w =>
      let g := groupOf i
      let fld (f : Option Field) (sp : Spec) (n : Nat) : List Spec :=
        match f with
        | some f => runOf sp (n * fieldRegs (f.ty.getD o.ty) sp)
        | none => []
      fld w.dst o.dst g.1 ++ fld w.sa o.sa g.2.1 ++ fld w.sb o.sb g.2.2 ++ fld w.sc o.sc 1 ++ runOf (.k o.pk) 1

/-- Registers that an instruction writes. -/
def written (i : Instr) (o : Opnds) : List Spec :=
  match instrRaw i with
  | none => []
  | some r =>
    match rowOf r with
    | some { dst := some f, .. } => runOf o.dst ((groupOf i).1 * fieldRegs (f.ty.getD o.ty) o.dst)
    | _ => []

/-- The type under which the field that HOLD selects is read. -/
def heldTy (i : Instr) (o : Opnds) : Ty :=
  match instrRaw i with
  | none => o.ty
  | some r =>
    match rowOf r with
    | none => o.ty
    | some w =>
      let f := match o.hold with | .none => none | .sa => w.sa | .sb => w.sb | .sc => w.sc
      match f with | some f => f.ty.getD o.ty | none => o.ty

end Sys2Proof.Machine
end

