-- ==== Sys2Proof/Machine/Groups.lean ====
section
/-! DEFINITION. How threads reach headers, meet, wait and wake, and how a group chooses its PC: spec/04 R71 to R81. -/
namespace Sys2Proof.Machine

/-! ## Meeting points, R78 to R80 -/

def Team.spent (t : Team) (set : Nat) : Bool :=
  match t.msets.find? (·.id == set) with
  | some m => m.spent
  | none => true

/-- A thread of a parked group that is in its issue set counts as suspended (R188). -/
def Team.parkedThread (t : Team) (th : Thread) : Bool :=
  match t.grp? th.recno with
  | some g => g.park.isSome && (match g.clause with | some c => c.issue.contains th.tid | none => false)
  | none => false

def Run.isSuspended : Run → Bool
  | .suspended _ => true
  | _ => false

/-- A member of set m no longer keeps it from releasing, R79; only the members' present state counts (R80). -/
def Team.memberDone (t : Team) (m : MSet) (tid : Nat) : Bool :=
  match t.thread? tid with
  | none => true
  | some th =>
    match th.run with
    | .exited => true
    | .suspended _ => true
    | .held => th.pc != m.head || th.mset == m.id
    | .runnable => t.parkedThread th

def Team.release (t : Team) (now : Nat) (m : MSet) : Team :=
  let t := t.modThreads (fun th => th.run == .held && th.mset == m.id && th.pc == m.head)
    fun th => { th with run := .runnable, meet := 0, age := now }
  { t with msets := t.msets.map fun x => if x.id = m.id then { x with spent := true } else x }

/-- Release every set whose members are all done. -/
def Team.settle (t : Team) (now : Nat) : Team :=
  t.msets.foldl (fun t m =>
    if !m.spent && t.threads.any (fun th => th.run == .held && th.mset == m.id && th.pc == m.head)
       && m.members.all (t.memberDone m)
    then t.release now m else t) t

/-- A thread reaches the header at h: it is held, or becomes runnable there (R79, R80). -/
def Team.arrive1 (t : Team) (now h : Nat) (th : Thread) : Thread :=
  let th := { th with pc := h, age := now }
  if th.meet = h && h != 0 then
    if t.spent th.mset then { th with run := .runnable, meet := 0 } else { th with run := .held }
  else { th with run := .runnable }

/-- The threads of `tids` reach the header at h. -/
def Team.arrive (t : Team) (now h : Nat) (tids : List Nat) : Team :=
  t.modThreads (fun th => tids.contains th.tid) (t.arrive1 now h)

/-- The threads of `tids` are suspended; they will continue at the header h. -/
def Team.suspend (t : Team) (h : Nat) (w : Susp) (tids : List Nat) : Team :=
  t.modThreads (fun th => tids.contains th.tid) fun th => { th with pc := h, run := .suspended w }

/-- A suspended thread wakes and reaches the header it was to continue at. -/
def Team.wakeThreads (t : Team) (now : Nat) (p : Thread → Bool) : Team :=
  (t.modThreads p fun th => t.arrive1 now th.pc th).settle now

/-! ## Waits of a group -/

/-- End wait `id` of record `n`: its threads become runnable at the following header. -/
def Team.endWait (t : Team) (now n id : Nat) : Team :=
  (t.modGrp n fun g => { g with waits := g.waits.del id }).wakeThreads now
    fun th => th.recno == n && th.run == .suspended (.wait id)

/-- Start a wait of record n for the threads of `tids`, which are to continue at h. The wait's number is the step's stamp. -/
def Team.startWait (t : Team) (h n id : Nat) (k : WaitKind) (tids : List Nat) (saved : Option TrapRec) : Team :=
  (t.modGrp n fun g => { g with waits := g.waits.put id ⟨tids, k, saved⟩ }).suspend h (.wait id) tids

/-- Every wait of a team that satisfies p, as (record, wait id, wait). -/
def Team.waitsOf (t : Team) (p : WaitKind → Bool) : List (Nat × Nat × Waiting) :=
  t.grps.flatMap fun g => (g.waits.filter fun x => p x.2.kind).map fun x => (g.recno, x.1, x.2)

/-- Write a wait's result register and wake its threads. -/
def Team.finishWait (t : Team) (now n id : Nat) (dst : Spec) (x : Nat) : Team :=
  (t.applyWrites n (regWrite false 0 x dst)).endWait now n id

/-! ## Choosing a PC, R74 -/

/-- Threads of a record that are runnable. -/
def Team.runnable (t : Team) (n : Nat) : List Thread := t.threads.filter fun th => th.recno == n && th.run == .runnable

/-- Age of a PC among threads: the earliest age at it. -/
def ageAt (ths : List Thread) (pc : Nat) : Nat :=
  (ths.filter (·.pc == pc)).foldl (fun a th => min a th.age) ((ths.find? (·.pc == pc)).elim 0 (·.age))

/-- The record waits at a regroup point: its threads there start nothing until the wait ends (R85). -/
def Team.waitsAt (t : Team) (n pc : Nat) : Bool := (t.grp? n).any fun g => g.marks.any (·.head == pc)

/-- The oldest PC, ties to the lower address. -/
def Team.choosePC (t : Team) (n : Nat) : Option Nat :=
  let ths := (t.runnable n).filter fun th => !t.waitsAt n th.pc
  ths.foldl (fun best th =>
    match best with
    | none => some th.pc
    | some p =>
      let a := ageAt ths p
      let b := ageAt ths th.pc
      if b < a ∨ (b = a ∧ th.pc < p) then some th.pc else best) none

/-- The quadrant a record issues on, R72. -/
def Team.quadrant (t : Team) (n : Nat) : Nat := (n + t.b) % 4

end Sys2Proof.Machine
end

