-- ==== Sys2Proof/Machine/Memory.lean ====
section
/-! DEFINITION. Memory and scratch: the ordinary accesses of R200 to R206, the engine accesses of R207 to R211, encryption tags (R177), poison (R417) and the wake-ups of WAITA (R218). -/
namespace Sys2Proof.Machine

/-! ## Bytes and words -/

/-- The canonical form: addresses strictly rising, and no entry equal to what an unlisted byte reads as, 0 (log 7). -/
def Memory.wf (st : Store) : Bool := Tab.wf (0 : Byte) st.cells

def Store.byte (st : Store) (a : Nat) : Byte := st.cells.get 0 a

/-- Little-endian value of bytes, R4. -/
def leNat : List Byte → Nat
  | [] => 0
  | b :: bs => b.toNat + 256 * leNat bs

/-- n bytes of a value, least significant first. -/
def leBytes : Nat → Nat → List Byte
  | 0, _ => []
  | n + 1, x => BitVec.ofNat 8 x :: leBytes n (x / 256)

def Store.word (st : Store) (w : Nat) : W32 := BitVec.ofNat 32 (leNat ((List.range 4).map fun j => st.byte (w + j)))

/-- The aligned words that bytes a .. a+n-1 touch. -/
def wordsOf (a n : Nat) : List Nat :=
  if n = 0 then [] else (List.range ((a + n - 1) / 4 - a / 4 + 1)).map fun i => 4 * (a / 4 + i)

/-! ## Observers and scopes, R210 -/

/-- Observer `ob` lies within scope sc of `me`. -/
def inScope (me : Writer) (sc : Scope) (ob : Writer) : Bool :=
  match sc with
  | .team => me.team.isSome && me.team == ob.team
  | .cluster => me.cluster.isSome && me.cluster == ob.cluster
  | .package | .pod => true

/-- PACKAGE or wider. -/
def atPackage : Option Scope → Bool
  | some .package | some .pod => true
  | _ => false

def scopeNum : Scope → Nat | .team => 0 | .cluster => 1 | .package => 2 | .pod => 3

/-- The write has been placed for an observer. -/
def Unplaced.mustSee (u : Unplaced) (ob : Writer) : Bool := u.placed.any fun sc => inScope u.by_ sc ob

/-- The step from which the observers within a scope see a write that nothing has placed for them: it joins the memory
order one scope at a time, at a free time, and does not leave it again (R210, log 6). -/
def Unplaced.joinsAt (u : Unplaced) (sc : Scope) : Nat := u.since + Config.choose u.since [1, u.cmd, u.word, scopeNum sc]

/-- Some observers see the write at this step: it has its place before every later write (log 6). -/
def Unplaced.begun (u : Unplaced) (now : Nat) : Bool :=
  u.placed.isSome || [Scope.team, .cluster, .package].any fun sc => decide (u.joinsAt sc ≤ now)

/-- The observer sees the write at this step. -/
def Unplaced.joined (u : Unplaced) (now : Nat) (ob : Writer) : Bool :=
  u.mustSee ob || [Scope.team, .cluster, .package].any fun sc => inScope u.by_ sc ob && decide (u.joinsAt sc ≤ now)

/-- The byte at a as an observer reads it: the cells, and over them the engine writes that it sees. -/
def State.seen (s : State) (st : Store) (ob : Writer) (a : Nat) : Byte :=
  st.unplaced.foldl (fun b u =>
    if u.word = a / 4 * 4 && u.joined s.sched.steps ob then (u.bytes.find? (·.1 == a % 4)).elim b (·.2) else b) (st.byte a)

/-! ## Writes -/

def Store.setBytes (st : Store) (a : Nat) (bs : List Byte) : Store :=
  { st with cells := (bs.zipIdx).foldl (fun m x => m.set 0 (a + x.2) x.1) st.cells }

/-- A word with an unplaced write applied. -/
def Unplaced.over (u : Unplaced) (x : W32) : W32 :=
  BitVec.ofNat 32 (leNat ((List.range 4).map fun j =>
    (u.bytes.find? (·.1 == j)).elim (BitVec.ofNat 8 (x.toNat / 256 ^ j)) (·.2)))

/-- The placements below PACKAGE of a list of writes. -/
def placings (us : List Unplaced) : List Placing := us.filterMap fun u => u.placed.map fun sc => ⟨sc, u.placedAt, u.by_⟩

def Unplaced.bare (u : Unplaced) : Unplaced := { u with bytes := [] }

/-- The values that word w held, `x` and those of the unplaced writes `us` one after the other, when a write by `by_`
comes after them all. -/
def pastOf (now : Nat) (by_ : Writer) (w : Nat) : List Unplaced → W32 → List Past
  | [], x => [⟨w, x, now, by_, [], []⟩]
  | u :: us, x => ⟨w, x, now, by_, placings (u :: us), (u :: us).map (·.bare)⟩ :: pastOf now by_ w us (u.over x)

/-- Remember the values of the words about to be overwritten by a write that comes after the unplaced writes `us`, R209. -/
def Store.remember (st : Store) (now : Nat) (by_ : Writer) (us : List Unplaced) (a n : Nat) : Store :=
  { st with past := st.past ++ (wordsOf a n).flatMap fun w => pastOf now by_ w (us.filter (·.word == w)) (st.word w) }

/-- An unplaced write without its bytes in a .. a+n-1; none when no byte is left. -/
def Unplaced.without (u : Unplaced) (a n : Nat) : Option Unplaced :=
  let rest := u.bytes.filter fun x => u.word + x.1 < a ∨ a + n ≤ u.word + x.1
  if rest.isEmpty then none else some { u with bytes := rest }

/-- The write is to a word of a .. a+n-1. -/
def Unplaced.shares (u : Unplaced) (a n : Nat) : Bool := (wordsOf a n).contains u.word

/-- An ordinary write of n bytes at a comes after this unplaced engine write to one of its words: some observer sees the
engine's write already, or a free choice says so. -/
def State.comesAfter (s : State) (a n : Nat) (u : Unplaced) : Bool :=
  u.shares a n && (u.begun s.sched.steps || s.choose [2, u.cmd, u.word] % 2 == 0)

/-- An ordinary write at one point of the memory order. Of unplaced engine writes to the same words, those that some
observer sees come before it; of the others a free choice says which side they fall on. Those before it lose the bytes that it
writes. -/
def State.storeWrite (s : State) (st : Store) (by_ : Writer) (a : Nat) (bs : List Byte) : Store :=
  let n := bs.length
  let st := (st.remember s.sched.steps by_ (st.unplaced.filter (s.comesAfter a n)) a n).setBytes a bs
  { st with unplaced := st.unplaced.filterMap fun u => if s.comesAfter a n u then u.without a n else some u }

/-- Unplaced writes with those before a placed write u cut by its bytes: they come before it. -/
def Unplaced.cut (u : Unplaced) (xs : List Unplaced) : List Unplaced :=
  xs.filterMap fun x =>
    if x.word ≠ u.word then some x
    else u.bytes.foldl (fun (y : Option Unplaced) b => y.bind (·.without (u.word + b.1) 1)) (some x)

/-- The writes among xs to bytes that u covers. -/
def Unplaced.under (u : Unplaced) (xs : List Unplaced) : List Unplaced :=
  xs.filter fun x => x.word == u.word && u.bytes.any fun b => x.bytes.any (·.1 == b.1)

/-- Place the engine writes that satisfy p at PACKAGE scope, oldest first: they enter the cells, over every write made
before them (R228). `kept` holds the writes met so far that stay unplaced. -/
def Store.enterCells (now : Nat) (p : Unplaced → Bool) : List Unplaced → List Unplaced → Store → Store
  | [], kept, st => { st with unplaced := kept }
  | u :: rest, kept, st =>
    if p u then
      let x := st.word u.word
      let before := u.under kept
      let last : Past := ⟨u.word, before.foldl (fun x k => k.over x) x, now, u.by_, placings [u], []⟩
      let older := (pastOf now u.by_ u.word before x).dropLast.map fun p => { p with early := p.early ++ placings [u] }
      let st := { st with past := st.past ++ older ++ [last] }
      Store.enterCells now p rest (u.cut kept) { st with cells := u.bytes.foldl (fun m x => m.set 0 (u.word + x.1) x.2) st.cells }
    else Store.enterCells now p rest (kept ++ [u]) st

/-- The engine writes that satisfy p are placed at a scope, those among them too that have been overwritten: within the scope no
read returns a value from before them any more. -/
def Past.place (now : Nat) (sc : Scope) (p : Unplaced → Bool) (x : Past) : Past :=
  { x with early := x.early ++ (x.above.filter p).map fun u => ⟨sc, now, u.by_⟩ }

/-- Place the engine writes that satisfy p at a scope. -/
def Store.place (st : Store) (now : Nat) (sc : Scope) (p : Unplaced → Bool) : Store :=
  let st := { st with past := st.past.map (Past.place now sc p) }
  match sc with
  | .package | .pod => Store.enterCells now p st.unplaced [] st
  | sc =>
    let put (u : Unplaced) : Unplaced :=
      match u.placed, sc with
      | some .cluster, .team => u
      | q, _ => if q = some sc then u else { u with placed := some sc, placedAt := now }
    { st with unplaced := st.unplaced.map fun u => if p u then put u else u }

/-! ## Engine reads, R207, R209 -/

/-- A write made at a stamp by a team within a scope of the reader, no later than the scope's own stamp. -/
def ReadBound.covers (b : ReadBound) (by_ : Writer) (stamp : Nat) : Bool :=
  b.scopes.any fun x => inScope b.by_ x.1 by_ && decide (stamp ≤ x.2)

/-- What overwrote the value bounds the read: it came before the seal or within a scope's bound, or an engine write over
the value had been placed for the reader by then. -/
def ReadBound.binds (b : ReadBound) (p : Past) : Bool :=
  decide (p.stamp ≤ b.sealedAt) || b.covers p.by_ p.stamp
    || p.early.any fun e => inScope e.by_ e.scope b.by_ && b.covers e.by_ e.stamp

/-- The past values of word w that a read may still return, of a list in the order in which they were overwritten: nothing
that bounds the read overwrote one, or one after it. -/
def ReadBound.allowed (b : ReadBound) (w : Nat) : List Past → List Past
  | [] => []
  | p :: rest =>
    if p.word == w && !(p :: rest).any fun q => q.word == w && b.binds q then p :: b.allowed w rest else b.allowed w rest

/-- An engine write that the bound makes the oldest a read may return: it was placed, for the reader among others, before
a scope's stamp, by a team within that scope. -/
def ReadBound.requires (b : ReadBound) (u : Unplaced) : Bool := u.mustSee b.by_ && b.covers u.by_ u.placedAt

/-- The values an engine read of a word may return: the present one, those still allowed, and those with unplaced
engine writes applied, one alone or the first few together. Writes that the bound requires are in every one. -/
def Store.candidates (st : Store) (b : ReadBound) (w : Nat) : List W32 :=
  let us := st.unplaced.filter (·.word == w)
  let must := us.filter fun u => b.requires u
  let base := must.foldl (fun x u => u.over x) (st.word w)
  let free := us.filter fun u => !b.requires u
  base :: (if must.isEmpty then (b.allowed w st.past).map (·.value) else [])
    ++ free.map (·.over base) ++ (List.range free.length).map fun n => (free.take (n + 1)).foldl (fun x u => u.over x) base

/-- The word an engine command reads, by free choice among the candidates. -/
def State.engineWord (s : State) (st : Store) (b : ReadBound) (cmd w : Nat) : W32 :=
  let c := st.candidates b w
  nth (st.word w) c (s.choose [3, cmd, w] % c.length)

def State.engineByte (s : State) (st : Store) (b : ReadBound) (cmd a : Nat) : Byte :=
  BitVec.ofNat 8 ((s.engineWord st b cmd (a / 4 * 4)).toNat / 256 ^ (a % 4))

/-! ## Physical memory, R172, R177, R417 -/

inductive PhysKind where
  | hbm | host | guest | regs | none
  deriving DecidableEq, Repr

/-- R172. -/
def physKind (pa : Nat) : PhysKind :=
  if pa < 0x6000000000 then .hbm
  else if 0x100000000000 ≤ pa ∧ pa < 0x200000000000 then .host
  else if 0x200000000000 ≤ pa ∧ pa < 0x210000000000 then .guest
  else if 0x3F0000000000 ≤ pa ∧ pa < 0x400000000000 then .regs
  else .none

/-- Wake every group whose monitor covers the line of a write, R218. -/
def Team.wakeLine (t : Team) (now line : Nat) : Team :=
  (t.waitsOf fun k => match k with | .monitor _ l armed _ _ _ => armed && l == line | _ => false).foldl
    (fun t x => match x.2.2.kind with | .monitor dst .. => t.finishWait now x.1 x.2.1 dst 1 | _ => t) t

def State.wakeLine (s : State) (line : Nat) : State :=
  { s with teams := s.teams.map fun kv => (kv.1, kv.2.wakeLine s.sched.steps line) }

/-- The lines that bytes a .. a+n-1 touch. -/
def linesOf (a n : Nat) : List Nat :=
  if n = 0 then [] else (List.range ((a + n - 1) / 128 - a / 128 + 1)).map fun i => a / 128 + i

def State.setPhys (s : State) (st : Store) : State := { s with mem := { s.mem with phys := st } }

/-- Before a write under key generation g into a line written under another: what the rest of the line now holds is
unpredictable (R177), and the line counts as written under g. -/
def State.retag (s : State) (g line : Nat) : State :=
  if s.mem.tags.get 0 line = g then s
  else
    let cells := (List.range 128).foldl
      (fun (m : Tab Byte) j => m.set 0 (128 * line + j) (Config.garbage s.sched.steps (128 * line + j))) s.mem.phys.cells
    { s with mem := { s.mem with tags := s.mem.tags.set 0 line g, phys := { s.mem.phys with cells := cells } } }

/-- An ordinary write to physical memory: bytes within one line. -/
def State.physWrite (s : State) (by_ : Writer) (g : Nat) (pa : Nat) (bs : List Byte) : State :=
  let s := if physKind pa = .hbm then s.retag g (pa / 128) else s
  let s := s.setPhys (s.storeWrite s.mem.phys by_ pa bs)
  (linesOf pa bs.length).foldl (fun s l => s.wakeLine l) s

/-- The generation under which an access of a page whose key id holds no key is made: no key is of it. -/
def noKey : Nat := 1

/-- The generation of a page's key id as it is now; none is a plain page. -/
def State.keyGen (s : State) : Option Nat → Nat
  | some k => s.mem.keys.get noKey k
  | none => 0

/-- The value of a byte that no write of it determines: of HBM read under another key generation, or under none (R177), or
of the memory of a guest that does not serve the read as R394 asks. -/
def State.stray (s : State) (g pa : Nat) : Option Byte :=
  if physKind pa = .hbm ∧ (g = noKey ∨ s.mem.tags.get 0 (pa / 128) ≠ g) then some (Config.garbage s.sched.steps pa)
  else if physKind pa = .guest ∧ !Config.guestServes s.sched.steps pa then some (Config.guestByte s.sched.steps pa)
  else none

/-- A byte of physical memory as an observer under key generation g reads it. -/
def State.physByte (s : State) (ob : Writer) (g : Nat) (pa : Nat) : Byte := (s.stray g pa).getD (s.seen s.mem.phys ob pa)

def State.physRead (s : State) (ob : Writer) (g pa n : Nat) : List Byte :=
  (List.range n).map fun j => s.physByte ob g (pa + j)

def State.poisoned (s : State) (pa : Nat) : Bool := s.mem.poison.contains (pa / 128)
def State.clean (s : State) (line : Nat) : State :=
  { s with mem := { s.mem with poison := s.mem.poison.filter (· != line) } }

/-- Place engine writes of physical memory and wake the lines they enter at PACKAGE scope. -/
def State.placePhys (s : State) (sc : Scope) (p : Unplaced → Bool) : State :=
  let lines := if atPackage (some sc) then (s.mem.phys.unplaced.filter fun u => p u).map (·.word / 128) else []
  lines.foldl (fun s l => s.wakeLine l) (s.setPhys (s.mem.phys.place s.sched.steps sc p))

/-- Before an access that reads and then writes n bytes at pa as one point of the memory order: the unplaced engine writes that come
before its write come before its read too, and so are placed for everyone (R202). -/
def State.joinBefore (s : State) (pa n : Nat) : State := s.placePhys .package (s.comesAfter pa n)

/-- An engine write of part of an aligned word of physical memory. -/
def State.enginePhys (s : State) (cmd : Nat) (chunk : Option Nat) (launch : Nat) (by_ : Writer) (g w : Nat)
    (bytes : List (Nat × Byte)) : State :=
  let s := if physKind w = .hbm then s.retag g (w / 128) else s
  s.setPhys { s.mem.phys with unplaced := s.mem.phys.unplaced ++ [⟨w, bytes, cmd, chunk, launch, by_, s.sched.steps, none, 0⟩] }

/-- An engine write of part of an aligned word of a team's scratch. -/
def Team.engineScratch (t : Team) (now cmd : Nat) (chunk : Option Nat) (w : Nat) (bytes : List (Nat × Byte)) : Team :=
  { t with scratch := { t.scratch with
      unplaced := t.scratch.unplaced ++ [⟨w, bytes, cmd, chunk, t.launch, t.writer, now, none, 0⟩] } }

/-- Place a command's writes to its team's scratch, R227: nobody outside the team can read them. -/
def Team.placeScratch (t : Team) (now : Nat) (p : Unplaced → Bool) : Team :=
  { t with scratch := t.scratch.place now .package p }

/-- A byte of scratch as a thread of the team reads it. -/
def State.scratchByte (s : State) (t : Team) (o : Nat) : Byte := s.seen t.scratch t.writer o

def State.scratchRead (s : State) (t : Team) (o n : Nat) : List Byte :=
  (List.range n).map fun j => s.scratchByte t (o + j)

def State.scratchWrite (s : State) (r : TeamRef) (o : Nat) (bs : List Byte) : State :=
  s.modTeam r fun t => { t with scratch := s.storeWrite t.scratch t.writer o bs }

end Sys2Proof.Machine
end

