-- ==== Sys2Proof/Machine/Translate.lean ====
section
/-! DEFINITION. Translation (spec/08 R171 to R176), the pieces and checks of an access (R184, R186), instruction fetch and its line checks (spec/02 R18 to R21, spec/08 R190, R199), and kernel headers (spec/03 R64 to R66). -/
namespace Sys2Proof.Machine

/-! ## The walk -/

/-- A translated byte: its physical address, the key generation it is read and written under, its page's rights and CA. -/
structure Leaf where
  pa : Nat
  gen : Nat
  r : Bool
  w : Bool
  x : Bool
  ca : Nat
  size : Nat
  key : Option Nat     -- key id of the page; none is plain
  deriving DecidableEq, Repr

/-- R176. -/
inductive Walk where
  | ok (l : Leaf)
  | absent
  | bad
  | refused
  | poisoned (pa : Nat)        -- a table entry stands in a poisoned line, R417
  deriving DecidableEq, Repr

structure Right where
  r : Bool := false
  w : Bool := false
  x : Bool := false
  deriving DecidableEq, Repr

def rightR : Right := { r := true }
def rightW : Right := { w := true }
def rightX : Right := { x := true }

/-- R171. -/
def canonical (a : Nat) : Bool := a < 2 ^ 64 && (bits a 63 53 == 0 || bits a 63 53 == 2 ^ 11 - 1)

/-- R171 for an exact address that may lie outside 64 bits. -/
def canonicalI (a : Int) : Bool := decide (0 ≤ a) && canonical a.toNat

def State.ctx? (s : State) (asid : Nat) : Option Ctx := s.mem.ctxs.find? (·.asid == asid)

/-- A table entry, as it stands in HBM. -/
def State.entry (s : State) (pa : Nat) : Nat := leNat ((List.range 8).map fun j => s.mem.phys.byte (pa + j))

/-- The key-id set of a partition, R420. -/
def State.ownsKey (s : State) (part id : Nat) : Bool :=
  let b := s.mem.owners.get 0 id
  id != 0 && b.getLsbD 7 && decide (b.toNat % 32 = part)

/-- A leaf at a level whose pages have `sh` offset bits, R175, R176. -/
def State.leaf (s : State) (c : Ctx) (e va sh : Nat) (need : Right) : Walk :=
  let frame := bits e 49 16 * 2 ^ 16
  let r := e.testBit 3
  let w := e.testBit 4
  let x := e.testBit 5
  let enc := e.testBit 8
  let ca := bits e 7 6
  let key := bits e 61 50
  if bits e 63 62 ≠ 0 ∨ e.testBit 2 ∨ frame % 2 ^ sh ≠ 0 ∨ (w && !r) ∨ ca = 3 ∨ 49 ≤ bits e 15 10
     ∨ (enc && physKind frame != .hbm) ∨ physKind frame = .none then .bad
  else if (need.r && !r) ∨ (need.w && !w) ∨ (need.x && !x) ∨ physKind frame = .regs
     ∨ (enc && !(s.ownsKey c.part key && (s.mem.keys.find key).isSome))
     ∨ (physKind frame = .guest && s.guest.fenced) then .refused
  else .ok ⟨frame + va % 2 ^ sh, s.keyGen (if enc then some key else none), r, w, x, ca, 2 ^ sh,
    if enc then some key else none⟩

/-- A non-leaf entry is well formed, R175: NEXT aligned to the next table's size, and the table in HBM (R173). -/
def nextOk (e align : Nat) : Bool :=
  bits e 63 50 == 0 && bits e 7 2 == 0 && (bits e 49 8 * 256) % align == 0 && physKind (bits e 49 8 * 256) == .hbm

/-- The entry at pa, unless its line is poisoned or it is not present. -/
def State.present (s : State) (pa : Nat) (k : Nat → Walk) : Walk :=
  if s.poisoned pa then .poisoned pa
  else
    let e := s.entry pa
    if !e.testBit 0 then .absent else k e

/-- R174 to R176. -/
def State.walk (s : State) (c : Ctx) (va : Nat) (need : Right) : Walk :=
  s.present (c.root + 8 * bits va 53 39) fun e0 =>
  if e0.testBit 1 ∨ !nextOk e0 4096 then .bad
  else s.present (bits e0 49 8 * 256 + 8 * bits va 38 30) fun e1 =>
    if e1.testBit 1 then s.leaf c e1 va 30 need
    else if !nextOk e1 4096 then .bad
    else s.present (bits e1 49 8 * 256 + 8 * bits va 29 21) fun e2 =>
      if e2.testBit 1 then s.leaf c e2 va 21 need
      else if !nextOk e2 256 then .bad
      else s.present (bits e2 49 8 * 256 + 8 * bits va 20 16) fun e3 =>
        if !e3.testBit 1 then .bad else s.leaf c e3 va 16 need

/-- The walk in a context named by its ASID; a context that fw2 has not created maps nothing. A page that fw2 mapped for
an argument block has R without W or X (R291). -/
def State.translate (s : State) (asid va : Nat) (need : Right) : Walk :=
  match s.mem.argPages.find? fun p => p.asid == asid && p.va == va / 65536 * 65536 with
  | some p => if need.w || need.x then .refused else .ok ⟨p.pa + va % 65536, 0, true, false, false, 0, 65536, none⟩
  | none =>
    match s.ctx? asid with
    | some c => s.walk c va need
    | none => .bad

/-! ## Faults as values -/

/-- The codes of R409. -/
inductive Code where
  | illOp | illOpnd | regBound | barBound | scrBound | accBound | flagMiss | align | xlate | prot | collRange
  | fmtDiv | fabNopeer | fabRegion | succShape | succCtx | guestQ | denFull | trap | bkpt | promiseMiss | fetchPar
  | illLine | preemptOverrun | collTimeout | mchk
  deriving DecidableEq, Repr

def Code.num : Code → Nat
  | .illOp => 0x01 | .illOpnd => 0x02 | .regBound => 0x03 | .barBound => 0x04 | .scrBound => 0x05 | .accBound => 0x06
  | .flagMiss => 0x07 | .align => 0x08 | .xlate => 0x09 | .prot => 0x0A | .collRange => 0x0B | .fmtDiv => 0x0C
  | .fabNopeer => 0x0D | .fabRegion => 0x0E | .succShape => 0x0F | .succCtx => 0x10 | .guestQ => 0x11 | .denFull => 0x12
  | .trap => 0x13 | .bkpt => 0x14 | .promiseMiss => 0x15 | .fetchPar => 0x16 | .illLine => 0x17
  | .preemptOverrun => 0x18 | .collTimeout => 0x19 | .mchk => 0x1A

/-- Where a fault was raised: SRC of R412. -/
inductive Src where
  | instr | fetch | engine | firmware | machine
  deriving DecidableEq, Repr

/-- A fault with the value it names (%trapv; none is the faulting instruction's address), the thread whose access
failed (none for the instruction as a whole), and a TRAP's code. -/
structure FaultInfo where
  code : Code
  val : Option Nat := none
  tid : Option Nat := none
  trapCode : Nat := 0
  src : Src := .instr
  deriving DecidableEq, Repr

/-- The outcome of an access check. -/
inductive Check where
  | pass
  | fail (f : FaultInfo)
  | absent (f : FaultInfo)     -- fails only by pages that are not present: parks under REPLAY, R188
  deriving DecidableEq, Repr

/-! ## Pieces, R184 -/

def pieceSize (p left : Nat) : Nat :=
  if 16 ≤ left ∧ p % 16 = 0 then 16 else if 8 ≤ left ∧ p % 8 = 0 then 8 else if 4 ≤ left ∧ p % 4 = 0 then 4
  else if 2 ≤ left ∧ p % 2 = 0 then 2 else 1

def piecesN : Nat → Nat → Nat → List (Nat × Nat)
  | 0, _, _ => []
  | n + 1, p, left =>
    if left = 0 then []
    else
      let k := pieceSize p left
      (p, k) :: piecesN n (p + k) (left - k)

/-- The pieces of a `size`-byte access at a (at most `size` of them); addresses wrap at 2^64. -/
def pieces (a size : Nat) : List (Nat × Nat) := (piecesN size a size).map fun x => (x.1 % 2 ^ 64, x.2)

/-- R379: does a physical range touch the collective range table? -/
def State.collHit (s : State) (pa n : Nat) : Bool :=
  s.coll.ranges.any fun e => decide (pa < e.base + e.len ∧ e.base < pa + n)

/-- R186 for one piece of virtual memory; `frames` limits the backed ranges allowed (R213, R229). -/
def State.checkPiece (s : State) (asid : Nat) (need : Right) (frames : List PhysKind) (p : Nat × Nat) : Check :=
  let f (c : Code) : FaultInfo := { code := c, val := some p.1 }
  if !canonical p.1 then .fail (f .xlate)
  else
    match s.translate asid p.1 need with
    | .absent => .absent (f .xlate)
    | .bad => .fail (f .xlate)
    | .refused => .fail (f .prot)
    | .poisoned pa => .fail { code := .mchk, val := some pa, src := .machine }
    | .ok l =>
      if !frames.contains (physKind l.pa) then .fail (f .prot)
      else if s.collHit l.pa p.2 then .fail (f .collRange)
      else .pass

def anyFrame : List PhysKind := [.hbm, .host, .guest]

/-- The checks of a list that fail. -/
def failing (cs : List Check) : List Check := cs.filter fun c => match c with | .pass => false | _ => true

/-- The first failure of a list of checks, with the context's REPLAY choosing between park and fault: an access parks
only when every failing piece is not present (R188). -/
def firstFail : List Check → Check
  | [] => .pass
  | .pass :: r => firstFail r
  | .fail f :: _ => .fail f
  | .absent f :: r => if r.any (fun c => match c with | .fail _ => true | _ => false) then .fail f else .absent f

def Check.forThread (tid : Nat) : Check → Check
  | .fail f => .fail { f with tid := some tid }
  | .absent f => .absent { f with tid := some tid }
  | .pass => .pass

/-- R182. A negative offset is named as 64 bits (log 53). -/
def scratchCheck (limit : Nat) (p : Int × Nat) : Check :=
  if 0 ≤ p.1 ∧ p.1 + p.2 ≤ limit then .pass
  else .fail { code := .scrBound, val := some (wrap 64 p.1) }

/-! ## Virtual accesses -/

/-- Physical byte address and key generation of a virtual address whose walk succeeded. -/
def State.place1 (s : State) (asid va : Nat) (need : Right) : Nat × Nat :=
  match s.translate asid va need with
  | .ok l => (l.pa, l.gen)
  | _ => (0, 0)

/-- Read a piece (it never crosses a page). -/
def State.virtRead (s : State) (ob : Writer) (asid va n : Nat) (need : Right) : List Byte :=
  let l := s.place1 asid va need
  s.physRead ob l.2 l.1 n

/-- Write a piece, translated as `at_` stands: an instruction's pieces are all translated when it is checked. -/
def State.virtWrite (s at_ : State) (by_ : Writer) (asid va : Nat) (bs : List Byte) : State :=
  let l := at_.place1 asid va rightW
  s.physWrite by_ l.2 l.1 bs

/-- Firmware's read of n bytes in a context, piece by piece, as though with ACQ = PACKAGE: none when some byte is not readable. -/
def State.fwRead (s : State) (asid va n : Nat) : Option (List Byte) :=
  ((pieces va n).mapM fun (p : Nat × Nat) =>
    match s.translate asid p.1 rightR with
    | .ok l => if canonical p.1 && !s.poisoned l.pa then some (s.physRead ⟨none, none⟩ l.gen l.pa p.2) else none
    | _ => none).map List.flatten

/-- The first poisoned line that such a read consumes, R417. -/
def State.fwPoison (s : State) (asid va n : Nat) : Option Nat :=
  (pieces va n).findSome? fun p =>
    if !canonical p.1 then none
    else
      match s.translate asid p.1 rightR with
      | .ok l => if s.poisoned l.pa then some l.pa else none
      | .poisoned pa => some pa
      | _ => none

/-! ## Instruction fetch -/

/-- Exclusive or of bits lo .. lo+n-1. -/
def parity (x lo n : Nat) : Bool := (popcount n (x >>> lo)) % 2 == 1

/-- A fetch line as a number, byte 0 lowest. -/
def lineNat (bs : List Byte) : Nat := leNat bs
def lineSlot (x i : Nat) : Slot := BitVec.ofNat 96 (x >>> (96 * i))
def lineWord (x : Nat) : Nat := x >>> 480

/-- The six parity bits of a line are right, R19, R20. -/
def lineParity (x : Nat) : Bool :=
  let w := lineWord x
  (List.range 5).all (fun i => parity x (96 * i) 96 == w.testBit (9 + i)) && parity w 0 9 == w.testBit 14

def lineReserved (x : Nat) : Bool := bits (lineWord x) 31 15 != 0
def lineTgt (x i : Nat) : Bool := (lineWord x).testBit i

/-- What fetching a line gives. -/
inductive Fetched where
  | line (x : Nat) (s : State)
  | fault (f : FaultInfo)

/-- Consuming a poisoned line at pa. -/
def poisonFault (pa : Nat) : FaultInfo := { code := .mchk, val := some pa, src := .machine }

/-- The line at a 64-byte-aligned address, as core `core` returns it: a line its instruction cache holds, by free
choice, or the line as it stands (R199), which may be poisoned (R417). A parity error is refetched once (R20). -/
def State.fetchLine (s : State) (core asid va : Nat) : Fetched :=
  let f (c : Code) : Fetched := .fault { code := c, src := .fetch }
  if !canonical va then f .xlate
  else
    match s.translate asid va rightX with
    | .absent | .bad => f .xlate
    | .refused => f .prot
    | .poisoned pa => .fault (poisonFault pa)
    | .ok l =>
      let now := lineNat (s.physRead ⟨none, none⟩ l.gen l.pa 64)
      let keep (x : Nat) : State :=
        let rest := s.mem.icache.filter fun e => !(e.core == core && e.asid == asid && e.va == va)
        { s with mem := { s.mem with icache := rest ++ [⟨core, asid, va, leBytes 64 x⟩] } }
      let got := match s.mem.icache.find? (fun e => e.core == core && e.asid == asid && e.va == va) with
        | some e => if (lineNat e.bytes != now || s.poisoned l.pa) && s.choose [4, core, va] % 2 == 1 then some (lineNat e.bytes) else none
        | none => none
      if got.any lineParity then .line (got.getD 0) (keep (got.getD 0))
      else if s.poisoned l.pa then .fault (poisonFault l.pa)
      else if lineParity now then .line now (keep now)
      else f .fetchPar

/-- A line holds a legal target at an instruction address: one of its five slots, a header with its TGT bit (R21). -/
def targetIn (x target : Nat) : Bool :=
  decide (target % 8 < 5) && bits target 5 3 == 0 && lineTgt x (target % 8) && isHeader (lineSlot x (target % 8))

/-- The landing check of a transfer, R21: translation, then the line, then the slot. None when the landing is legal, else
the fault, which names the target; a line whose parity fails is left to its fetch (R20). -/
def State.landing (s : State) (core asid target : Nat) : Option FaultInfo :=
  match s.fetchLine core asid (target / 64 * 64) with
  | .fault f =>
    match f.code with
    | .fetchPar => none
    | .mchk => some f
    | c => some { code := c, val := some target }
  | .line x _ => if lineReserved x || !targetIn x target then some { code := .illLine, val := some target } else none

/-! ## Kernel headers, R64, R65 -/

def field (bs : List Byte) (off n : Nat) : Nat := leNat ((bs.drop off).take n)

def zeroBytes (bs : List Byte) (off n : Nat) : Bool := ((bs.drop off).take n).all (· == 0)

/-- The header's fields where every one holds a value that R64 and R65 allow; ENTRY and HANDLER are checked against their lines by the caller. -/
def parseHdr (bs : List Byte) : Option KHdr :=
  let threads := field bs 0x18 2
  let nroles := field bs 0x21 1
  let roleAt (i : Nat) : Nat × Nat := (field bs (0x40 + 4 * i) 1, field bs (0x41 + 4 * i) 1)
  let roles := (List.range nroles).map roleAt
  let scratch := field bs 0x1C 4
  let args := field bs 0x22 2
  let xpool := field bs 0x20 1
  if bs.length = 256 ∧ field bs 0 4 = 0x57524B31 ∧ field bs 4 2 = 1 ∧ field bs 6 2 < 8
     ∧ threads % 32 = 0 ∧ 32 ≤ threads ∧ threads ≤ 1024 ∧ field bs 0x1A 1 ≤ 16 ∧ field bs 0x1B 1 ≤ 8
     ∧ scratch % 1024 = 0 ∧ scratch ≤ 393216 ∧ args % 8 = 0 ∧ args ≤ 4096 ∧ 1 ≤ nroles ∧ nroles ≤ 8
     ∧ (List.range 8).all (fun i => zeroBytes bs (0x42 + 4 * i) 2 && decide ((roleAt i).1 ≤ 32 ∧ (roleAt i).2 ≤ 3)
          && (decide (i < nroles) || zeroBytes bs (0x40 + 4 * i) 4))
     ∧ field bs 0x28 4 < 2 ^ 15 ∧ zeroBytes bs 0x2C 4 ∧ zeroBytes bs 0x30 16 ∧ zeroBytes bs 0x60 32 ∧ zeroBytes bs 0xC0 64
     ∧ (roles.map (·.1)).sum = threads / 32 ∧ (roles.map fun r => r.1 * r.2).sum ≤ xpool ∧ xpool ≤ 3 * (threads / 32)
  then some { flags := field bs 6 2, entry := field bs 8 8, handler := field bs 0x10 8, threads, bars := field bs 0x1A 1,
              accs := field bs 0x1B 1, scratch, xpool, roles, args, defer := field bs 0x24 4, smask := field bs 0x28 4 }
  else none

/-- A header address with the TGT bit set, R65: whatever the rights of its page, if it may be read or fetched (log 39). -/
def State.headerAt (s : State) (asid target : Nat) : Bool :=
  canonical target &&
    match s.translate asid (target / 64 * 64) {} with
    | .ok l => (l.r || l.x) && !s.poisoned l.pa && targetIn (lineNat (s.physRead ⟨none, none⟩ l.gen l.pa 64)) target
    | _ => false

/-- A well-formed header at h in a context, R65, with its entry points on headers. -/
def State.readHdr (s : State) (asid h : Nat) : Option KHdr :=
  let good (target : Nat) : Bool := s.headerAt asid target
  if h % 256 ≠ 0 ∨ !canonical h then none
  else
    match s.fwRead asid h 256 with
    | none => none
    | some bs =>
      match parseHdr bs with
      | none => none
      | some k =>
        if good k.entry = true ∧ (k.handler = 0 ∨ good k.handler = true) then some k
        else none

/-- The first poisoned line that a check of the header at h consumes: its bytes, then the lines of its entry points. -/
def State.hdrPoison (s : State) (asid h : Nat) : Option Nat :=
  let line (target : Nat) : Option Nat :=
    match s.translate asid (target / 64 * 64) {} with
    | .ok l => if canonical target && (l.r || l.x) && s.poisoned l.pa then some l.pa else none
    | .poisoned pa => some pa
    | _ => none
  match s.fwPoison asid h 256, (s.fwRead asid h 256).bind parseHdr with
  | some pa, _ => some pa
  | none, some k => (line k.entry).orElse fun _ => if k.handler = 0 then none else line k.handler
  | none, none => none

/-! ## Team start, R66, R72 -/

/-- Roles of groups 0 to G-1, with their extended blocks. -/
def roleList (roles : List (Nat × Nat)) : List (Nat × Nat) :=
  (roles.zipIdx).flatMap fun x => List.replicate x.1.1 (x.2, x.1.2)

def Thread.start (now entry tid : Nat) : Thread :=
  { tid, pc := entry, age := now, meet := 0, mset := 0, recno := tid / 32, pos := tid % 32, run := .runnable, v := [], live := [],
    c := [], k := [], pend := [], key := 0, keyed := false, endH := 0 }

def Grp.start (recno role h : Nat) : Grp :=
  { recno, role, h, s := [], flags := List.replicate 12 0, flight := [], clause := none, gang := 0, mq := [], warn := 0,
    trapc := 0, trapv := 0, trap := none, passes := 0, youngest := false, endedAt := 0, clearAt := List.replicate 12 0, park := none,
    stall := none, marks := [], waited := [], waits := [], seen := [], done_ := [], bounds := [], podRel := none, retired := false,
    freedAt := [] }

/-- The tile that MZERO leaves, R254. -/
def Tile.zero : Tile := ⟨-16384, []⟩
def Tracker.zero : Tracker := ⟨false, 0, 0, [], 0, []⟩

def startThreads (now : Nat) (k : KHdr) : List Thread := (List.range k.threads).map (Thread.start now k.entry)
def startGrps (k : KHdr) : List Grp := (roleList k.roles).zipIdx.map fun x => Grp.start x.2 x.1.1 x.1.2
def startPool (k : KHdr) : Nat := k.xpool - (k.roles.map fun r => r.1 * r.2).sum
def startBars (k : KHdr) : List Barrier := List.replicate k.bars ⟨0, 0, none, []⟩

end Sys2Proof.Machine
end

