-- ==== Sys2Proof/Machine/Report.lean ====
section
/-! DEFINITION. Records and interrupts: the status ring (spec/13 R292, R293), the fault ring (spec/18 R412), interrupts (R421), the event log (spec/19 R431). -/
namespace Sys2Proof.Machine

def State.part (s : State) (p : Nat) : Part := nth (Part.reset 0) s.parts p
def State.modMgmt (s : State) (f : Mgmt → Mgmt) : State := { s with mgmt := f s.mgmt }
def State.modPart (s : State) (p : Nat) (f : Part → Part) : State := { s with parts := modNth f s.parts p }

/-- Raise a vector of a partition. None while its function-level reset runs, R422. -/
def State.irq (s : State) (p vec : Nat) : State :=
  if (s.part p).flr then s else { s with front := { s.front with irqs := s.front.irqs ++ [(p, vec)] } }

/-- Interrupt a firmware core. -/
def State.fwIrq (s : State) (n : Nat) : State := s.modMgmt fun m => { m with fwIrqs := m.fwIrqs ++ [n] }

/-- One entry of the event log; the oldest is overwritten when the ring is full, R431. -/
def State.logEvent (s : State) (kind srcu sev : Nat) (data : List Nat) : State :=
  let t := if s.clock.runs then s.clock.time else s.mgmt.now % 2 ^ 63 + 2 ^ 63
  s.modMgmt fun m =>
    let l := m.log ++ [⟨t, kind, srcu, sev, data⟩]
    { m with log := l.drop (l.length - 65536) }

/-- Host physical address h lies at this physical address of the part (log 21). -/
def hostPa (h : Nat) : Nat := 0x100000000000 + h % 2 ^ 44

def State.hostWrite (s : State) (h : Nat) (bs : List Byte) : State := s.physWrite ⟨none, none⟩ 0 (hostPa h) bs

/-! ## The status ring -/

def Part.ringSize (p : Part) : Nat := 2 ^ p.sqcfg
def Part.ringOk (p : Part) : Bool := p.sqbase != 0 && decide (4 ≤ p.sqcfg ∧ p.sqcfg ≤ 16)
def Part.ringRoom (p : Part) : Bool := p.ringOk && decide (p.sqtail - p.sqhead < p.ringSize)

/-- The 32 bytes of a status record. -/
def Status.bytes (r : Status) : List Byte :=
  leBytes 4 r.type ++ leBytes 4 r.detail ++ leBytes 4 r.id ++ leBytes 4 0 ++ leBytes 8 r.seq ++ leBytes 8 r.time

/-- The record is written, and then its interrupt is raised (R423). -/
def State.putStatus (s : State) (p : Nat) (r : Status) : State :=
  let q := s.part p
  let s := (s.hostWrite (q.sqbase + 32 * (q.sqtail % q.ringSize)) r.bytes).modPart p fun q => { q with sqtail := q.sqtail + 1 }
  match r.vec with
  | some n => s.irq p n
  | none => s

def sat64 (n : Nat) : Nat := min n (2 ^ 64 - 1)

/-- A status record falls due: written, held in order, or dropped and counted (R293). -/
def State.status (s : State) (p : Nat) (type detail id seq launch : Nat) (vec : Option Nat) : State :=
  let r : Status := ⟨type, detail, id, seq, s.clock.time, launch, vec⟩
  let q := s.part p
  if q.flr then s
  else if q.held.isEmpty && q.ringRoom then s.putStatus p r
  else if q.held.length < 64 then s.modPart p fun q => { q with held := q.held ++ [r] }
  else s.modPart p fun q => { q with sqdrop := sat64 (q.sqdrop + 1) }

/-- Held records are written in order while there is room. -/
def State.drainStatus (s : State) (p : Nat) : Nat → State
  | 0 => s
  | n + 1 =>
    match (s.part p).held with
    | [] => s
    | r :: rest =>
      if (s.part p).ringRoom then
        ((s.putStatus p r).modPart p fun q => { q with held := rest }).drainStatus p n
      else s

/-! ## The fault ring -/

structure FaultRec where
  code : Nat
  src : Nat
  action : Nat
  launch : Nat
  pc : Nat
  addr : Nat
  tid : Nat
  team : Nat
  core : Nat
  slot : Nat
  recno : Nat
  detail : Nat

def FaultRec.bytes (r : FaultRec) (time : Nat) : List Byte :=
  leBytes 1 r.code ++ leBytes 1 r.src ++ leBytes 1 r.action ++ leBytes 1 0 ++ leBytes 4 r.launch ++ leBytes 8 time
    ++ leBytes 8 r.pc ++ leBytes 8 r.addr ++ leBytes 4 r.tid ++ leBytes 4 r.team
    ++ leBytes 4 (r.core + 2 ^ 9 * r.slot + 2 ^ 13 * r.recno) ++ leBytes 4 0 ++ leBytes 8 r.detail ++ leBytes 8 0

/-- A fault record is written to the partition's fault ring, or dropped and counted, R412. -/
def State.ringRecord (s : State) (p : Nat) (r : FaultRec) : State × Reported :=
  let q := s.part p
  let size := 2 ^ (q.frcfg % 16 + 4)
  if q.flr then (s, ⟨r.code, none, q.frrings⟩)
  else if q.frbase ≠ 0 ∧ q.frtail - q.frhead < size then
    ((s.hostWrite (q.frbase + 64 * (q.frtail % size)) (r.bytes s.clock.time)).modPart p fun q => { q with frtail := q.frtail + 1 },
      ⟨r.code, some q.frtail, q.frrings⟩)
  else (s.modPart p fun q => { q with frdrop := sat64 (q.frdrop + 1) }, ⟨r.code, none, q.frrings⟩)

/-- fw3 writes the fault record and then the FAULT status record, R412, R423. -/
def State.faultRecord (s : State) (p : Nat) (seq : Nat) (r : FaultRec) : State × Reported :=
  let w := s.ringRecord p r
  (w.1.status p 7 (r.code + 2 ^ 8 * w.2.index.elim 0xFFFFFF (· % 2 ^ 24)) r.launch seq r.launch (some 2), w.2)

/-- A further fault adds one to MORE of a record already written, while the record still has its place in the ring, R411. -/
def State.moreFault (s : State) (p : Nat) (r : Reported) : State :=
  match r.index with
  | none => s
  | some i =>
    let q := s.part p
    let size := 2 ^ (q.frcfg % 16 + 4)
    let a := q.frbase + 64 * (i % size) + 3
    let n := (s.mem.phys.byte (hostPa a)).toNat
    if q.frrings = r.ring ∧ q.frtail ≤ i + size then s.hostWrite a [BitVec.ofNat 8 (min (n + 1) 255)] else s

end Sys2Proof.Machine
end

