-- ==== Sys2Proof/Machine/Queue.lean ====
section
/-! DEFINITION. The fabric's queues at a source: routes, streams, held requests, drain markers, and how requests leave (spec/15 R342 to R351, R358, R364). -/
namespace Sys2Proof.Machine

/-- Members of a mask. -/
def members (m : W64) : List Nat := (List.range 64).filter fun i => m.getLsbD i
def Fab.has (f : Fab) (m : Nat) : Bool := decide (m < 64) && f.mask.getLsbD m

/-- A request may name member m: before its first calendar commit the part serves itself alone (R339). -/
def Fab.peer (f : Fab) (m : Nat) : Bool := f.has m && (f.commits != 0 || f.isMe m)

/-- A ticketed command completes with a result. -/
def State.complete (s : State) (tk : Ticket) (x : Nat) : State :=
  (s.applyWrites tk.iss (regWrite false 0 x tk.dst)).flagDown tk.iss tk.fl tk.cmd

/-- A request before its fields are set. -/
def FabReq.blank : FabReq where
  num := 0; iss := none; coll := none; part := 0; dest := 0; tc := 0; direct := false; via := none; stream := none
  since := 0; state := .held; sentOnce := false; retries := 0; expires := 0; region := 0; key := 0; off := 0; len := 0; src := 0
  body := none; bound := ⟨0, [], ⟨none, none⟩⟩; tk := none; wait := none; samedest := false

/-! ## Routes, R344 -/

def bodySize : FabBody → Nat
  | .send d => d.length
  | .add _ | .cas _ _ => 8
  | .chunk c => c.data.length
  | .drop _ => 0

def FabReq.hop (q : FabReq) : Nat := q.via.getD q.dest

/-- Payload bytes held untransmitted whose next hop is m, for the requests that satisfy p. -/
def Fab.bytesTo (f : Fab) (m : Nat) (p : FabReq → Bool) : Nat :=
  ((f.reqs.filter fun q => q.state == .queued && q.hop == m && p q).map (·.len)).sum

def Fab.backlog (f : Fab) (m : Nat) : Nat :=
  f.bytesTo m (fun _ => true) + ((f.relays.filter (·.2.dest == m)).map (bodySize ·.2.body)).sum

/-- One step of the Galois generator. -/
def lfsrStep (x : Nat) : Nat := if x % 2 = 1 then (x / 2) ^^^ 0xB400 else x / 2

/-- The intermediate of a route, if it is a fox route, and the generator after it. -/
def Fab.route (f : Fab) (dest : Nat) (direct : Bool) : Option Nat × Nat :=
  let n := popcount 64 f.mask.toNat
  if f.isMe dest ∨ direct ∨ n ≤ 2 ∨ f.draining ∨ f.backlog dest ≤ f.foxt then (none, f.lfsr)
  else
    let l := lfsrStep f.lfsr
    let x := nth 0 ((members f.mask).filter fun m => m != f.me && m != dest) (l % (n - 2))
    if f.foxt < f.backlog x then (none, l) else (some x, l)

/-! ## Entering a queue, R342, R350, R351 -/

/-- The next number of a direct stream at its source. -/
def Fab.nextIn (f : Fab) (dest tc part : Nat) : Nat :=
  match f.sources.find? fun x => x.dest == dest && x.tc == tc && x.part == part with
  | some x => x.next
  | none => 0

def Fab.bump (f : Fab) (dest tc part : Nat) : Fab :=
  { f with sources := f.sources.filter (fun x => !(x.dest == dest && x.tc == tc && x.part == part))
      ++ [⟨dest, tc, part, f.nextIn dest tc part + 1⟩] }

/-- The queue to a next hop, class and partition has room for one more. -/
def Fab.room (f : Fab) (hop tc part : Nat) : Bool :=
  decide ((f.reqs.filter fun q => q.state == .queued && q.hop == hop && q.tc == tc && q.part == part).length < 256)

/-- A request takes its route and enters its queue; a direct one takes its stream number. -/
def Fab.enter (f : Fab) (now : Nat) (q : FabReq) : Fab :=
  let r := f.route q.dest q.direct
  let q := { q with since := now }
  let f := { f with reqs := f.reqs.filter (·.num != q.num), lfsr := r.2 }
  match r.1 with
  | some x => { f with reqs := f.reqs ++ [{ q with state := .queued, via := some x, stream := none }] }
  | none =>
    let q := { q with state := .queued, via := none, stream := some (f.nextIn q.dest q.tc q.part) }
    { f.bump q.dest q.tc q.part with reqs := f.reqs ++ [q] }

/-- R351: an earlier request of its group keeps q from its queue, or one that is itself kept precedes it in its stream. -/
def Fab.blocked (f : Fab) (q : FabReq) : Bool :=
  f.reqs.any fun r => r.iss == q.iss && q.iss.isSome && decide (r.num < q.num) &&
    ((q.samedest && r.dest == q.dest) || q.wait.any (fun n => decide (r.num < n))
      || (r.state == .held && r.dest == q.dest && r.tc == q.tc && r.part == q.part))

/-- The queue that q would enter has room. -/
def Fab.roomFor (f : Fab) (q : FabReq) : Bool := f.room ((f.route q.dest q.direct).1.getD q.dest) q.tc q.part

/-- Held requests that nothing blocks enter their queues, in order. -/
def Fab.releaseHeld (f : Fab) (now : Nat) : Fab :=
  (f.reqs.filter (·.state == .held)).foldl (fun f q => if f.blocked q || !f.roomFor q then f else f.enter now q) f

/-- A request is numbered, and is held or enters its queue. -/
def State.submit (s : State) (q : FabReq) : State :=
  let q := { q with num := s.fab.reqNo, len := q.body.elim q.len bodySize }
  let f := { s.fab with reqNo := s.fab.reqNo + 1 }
  { s with fab := if f.blocked q || !f.roomFor q then { f with reqs := f.reqs ++ [{ q with state := .held }] } else f.enter s.clock.time q }

/-! ## Leaving, R346, R350, R358, R364 -/

/-- The floor of a stream: its lowest number without a final status. -/
def Fab.floor (f : Fab) (dest tc part : Nat) : Nat :=
  (f.reqs.filter fun q => q.dest == dest && q.tc == tc && q.part == part).foldl
    (fun m q => match q.stream with | some n => min m n | none => m) (f.nextIn dest tc part)

/-- The source owes the destination of q's stream a skip notice. -/
def Fab.oweSkip (f : Fab) (q : FabReq) : Fab :=
  if q.stream.isSome && !f.isMe q.dest && f.has q.dest then
    { f with owed := f.owed ++ [.skip q.dest q.tc q.part (f.floor q.dest q.tc q.part)] }
  else f

/-- Drain markers that await nothing more complete. -/
def State.settleDrains (s : State) : State :=
  let done := s.fab.drains.filter (·.covers.isEmpty)
  let s : State := { s with fab := { s.fab with drains := s.fab.drains.filter fun d => !d.covers.isEmpty } }
  done.foldl (fun s d => s.complete d.tk (min d.bad (2 ^ 32 - 1))) s

/-- The part's own index has changed from `old` with MASK: what it holds of requests to itself goes by the new one, and so do the
numbers of its own stream (R339). -/
def Fab.renumber (f : Fab) (old : Nat) : Fab :=
  let new := f.me
  if new = old ∨ !f.reqs.any (·.dest == old) then f
  else
    let swap (m : Nat) : Nat := if m = old then new else if m = new then old else m
    { f with
      reqs := f.reqs.map fun q => if q.dest = old then { q with dest := new } else q
      sources := f.sources.map fun x => { x with dest := swap x.dest }
      stalled := f.stalled.map fun x => if x.2.src = old then (x.1, { x.2 with src := new, dest := new }) else x
      strikes := f.strikes.map fun k => if k.src = old then { k with src := new } else k }

/-- The package has quiesced when every marker has completed, R369. -/
def Fab.settleMarkers (f : Fab) : Fab :=
  if f.draining && f.markers.isEmpty && (f.state == .locked || f.state == .alone) then { f with state := .quiesced } else f

/-- Request q is gone: `bad` when it ended other than OK. Markers and held requests go on. -/
def State.reqGone (s : State) (q : FabReq) (bad : Bool) : State :=
  let note (d : Drain) : Drain :=
    if d.covers.contains q.num then
      { d with covers := d.covers.filter (· != q.num),
               bad := if bad && q.iss.any (·.team == d.tk.iss.team) then d.bad + 1 else d.bad }
    else d
  let s : State := { s with
    fab := { s.fab with
      reqs := s.fab.reqs.filter (·.num != q.num), drains := s.fab.drains.map note,
      markers := s.fab.markers.filter (· != q.num) },
    mem := { s.mem with parked := s.mem.parked.filter (·.who != .req q.num) } }
  let s := s.settleDrains
  { s with fab := s.fab.settleMarkers.releaseHeld s.clock.time }

/-- Requests that satisfy p are removed or abandoned, R358: a direct one is skipped in its stream. -/
def State.dropReqs (s : State) (p : FabReq → Bool) : State :=
  (s.fab.reqs.filter fun q => p q).foldl (fun s q =>
    let s := s.reqGone q false
    { s with fab := s.fab.oweSkip q }) s

end Sys2Proof.Machine
end

