-- ==== Sys2Proof/Machine/Discard.lean ====
section
/-! DEFINITION. How teams, launches, dens and collectives end: discards (spec/14 R332), kills (spec/18 R410, R411), the team's end (spec/04 R86, spec/14 R321), collective drops and fires (spec/16 R380, R381, R387), level counters (spec/13 R303). -/
namespace Sys2Proof.Machine

def State.teamList (s : State) : List Team := s.teams.map (·.2)

/-! ## Collectives -/

def State.coll? (s : State) (part cid : Nat) : Option Coll :=
  s.coll.live.find? fun c => c.part == part && c.bind.cid == cid

def State.modColl (s : State) (part cid : Nat) (f : Coll → Coll) : State :=
  { s with coll := { s.coll with live := s.coll.live.map fun c =>
      if c.part = part ∧ c.bind.cid = cid then f c else c } }

/-- R372: the chunk of a team of the launch, if the binding maps it. -/
def Binding.chunk (b : Binding) (coord : List Nat) : Option Nat :=
  let x := nth 0 coord 0; let y := nth 0 coord 1; let z := nth 0 coord 2
  let x0 := nth 0 b.box 0; let y0 := nth 0 b.box 1; let z0 := nth 0 b.box 2
  let nx := nth 0 b.box 3; let ny := nth 0 b.box 4; let nz := nth 0 b.box 5
  if x0 ≤ x ∧ x < x0 + nx ∧ y0 ≤ y ∧ y < y0 + ny ∧ z0 ≤ z ∧ z < z0 + nz
  then some ((x - x0) + nx * ((y - y0) + ny * (z - z0))) else none

def Binding.nchunk (b : Binding) : Nat := nth 0 b.box 3 * nth 0 b.box 4 * nth 0 b.box 5

/-- The live collective to which a team's launch is bound. -/
def State.collOf (s : State) (t : Team) : Option Coll :=
  match t.item with
  | .launch id => s.coll.live.find? fun c => c.launch == id && c.part == t.part
  | _ => none

/-- The chunk that a team has still to fire. -/
def State.unfired (s : State) (t : Team) : Option (Coll × Nat) :=
  match s.collOf t with
  | none => none
  | some c =>
    match c.bind.chunk t.coord with
    | none => none
    | some k => if c.fired.contains k then none else some (c, k)

/-! ## Discard, first half -/

/-- A claimed but uncopied index becomes an orphan; sleepers of the team leave the queue, R313. -/
def FeedQ.forget (q : FeedQ) (r : TeamRef) (claims : List Nat) : FeedQ :=
  { q with sleepers := q.sleepers.filter (·.1.team != r), orphans := q.orphans ++ claims }

/-- Commands leave their broadcast sets, R279; a set without members closes. -/
def Eng.leaveSets (e : Eng) (p : Nat → Bool) : Eng :=
  { e with bsets := (e.bsets.map fun b => { b with members := b.members.filter fun x => !p x.1 }).filter fun b => !b.members.isEmpty }

/-- A team begins to be discarded, R332 steps 1 and 2: it issues nothing more, its waits are dropped, its guest
packets are asked to stop. A later kill or cancel of a team being pre-empted keeps it from restarting. -/
def State.beginDiscard (s : State) (r : TeamRef) (why : Ending) : State :=
  match s.team? r with
  | none => s
  | some t =>
    if t.ending.isSome then
      if why = .preempt then s else s.modTeam r fun t => { t with ending := some why }
    else
      let claims := t.waitsOf fun k => match k with | .pop _ _ _ _ (some _) => true | _ => false
      let claimed (q : Nat) : List Nat := claims.filterMap fun x =>
        match x.2.2.kind with | .pop _ q' _ _ (some i) => if q' = q then some i else none | _ => none
      let s := s.modTeam r fun t => { t with
        ending := some why, grants := [],
        grps := t.grps.map fun g => { g with waits := [], park := none, stall := none, clause := none, trap := none, marks := [] } }
      { s with
        eng := s.eng.leaveSets fun n => s.eng.mats.any fun c => c.num == n && c.iss.team == r,
        mem := { s.mem with parked := s.mem.parked.filter fun p => match p.who with | .instr i => i.team != r | _ => true },
        front := { s.front with feedqs := s.front.feedqs.map fun q => q.forget r (claimed q.num) },
        fab := { s.fab with drains := s.fab.drains.filter fun d => d.tk.iss.team != r },
        coll := { s.coll with live := s.coll.live.map fun c => { c with joins := c.joins.filter (·.iss.team != r) } },
        guest := { s.guest with
          cancels := s.guest.cancels.filter fun c => c.tk.iss.team != r,
          queues := s.guest.queues.map fun q => { q with packets := q.packets.map fun p =>
            if p.tk.iss.team = r ∧ p.stop = none then { p with stop := some (s.clock.time + 50000) } else p } } }

/-- R387: a collective is dropped here; `status` goes to the waiters, and notices to the other members unless the drop
came from one. -/
def State.dropColl (s : State) (part cid status : Nat) (notify : Bool) : State :=
  match s.coll? part cid with
  | none => s
  | some c =>
    let s := { s with
      mem := { s.mem with parked := s.mem.parked.filter fun p =>
        match p.who with | .snap p' c' _ => !(p' == part && c' == cid) | _ => true },
      coll := { s.coll with
      live := s.coll.live.filter fun x => !(x.part == part && x.bind.cid == cid),
      ranges := s.coll.ranges.filter fun e => !(e.part == part && e.cid == cid),
      pool := s.coll.pool.filter fun a => !(a.part == part && a.chunk.digest.cid == cid) } }
    let s := s.dropReqs fun q => q.part == part && q.coll == some cid
    let s := c.joins.foldl (fun s tk => s.complete tk status) s
    let s := c.snaps.foldl (fun s x => match x.tk with | some tk => s.complete tk 1 | none => s) s
    let s := (s.teamList.filter fun t => t.item == .reduce part cid).foldl (fun s t => s.beginDiscard t.ref .kill) s
    if notify then
      ((members c.bind.memb).filter (· != c.own)).foldl (fun s m =>
        s.submit { FabReq.blank with part := part, dest := m, tc := c.bind.tc, direct := true, body := some (.drop cid) }) s
    else s

/-- A mapped team that has not fired and is killed, or whose launch is cancelled, drops the collective, R381. -/
def State.dropUnfired (s : State) (t : Team) : State :=
  match s.unfired t with
  | some (c, _) => s.dropColl c.part c.bind.cid 1 true
  | none => s

/-- Kill one team: it is discarded and never restarted. -/
def State.killTeam (s : State) (t : Team) : State := (s.dropUnfired t).beginDiscard t.ref .kill

/-- Cancel one team now, R304. -/
def State.cancelTeam (s : State) (t : Team) : State := (s.dropUnfired t).beginDiscard t.ref .cancel

/-! ## Launches, dens and their counters -/

def State.launch? (s : State) (id : Nat) : Option Launch := s.front.launches.find? (·.id == id)
def State.modLaunch (s : State) (id : Nat) (f : Launch → Launch) : State :=
  { s with front := { s.front with launches := s.front.launches.map fun l => if l.id = id then f l else l } }
def State.den? (s : State) (n : Nat) : Option Den := s.front.dens.find? (·.num == n)
def State.modDen (s : State) (n : Nat) (f : Den → Den) : State :=
  { s with front := { s.front with dens := s.front.dens.map fun d => if d.num = n then f d else d } }

def State.teamsOf (s : State) (i : Item) : List Team := s.teamList.filter (·.item == i)

/-- Undispatched teams of a launch are dropped and counted as retired. -/
def Launch.dropRest (l : Launch) : Launch := { l with next := l.total, restarts := [] }
def Den.dropAll (d : Den) : Den := { d with records := [], timer := none, ready := [], restarts := [], cancelled := true }

/-- Dies of an item whose die counter is nonzero, R301. -/
def State.diesOf (s : State) (i : Item) : Nat :=
  ((List.range 4).filter fun d => (s.teamsOf i).any fun t => dieOf t.ref.core == d).length

/-- The package counter of a launch, R301, R333. -/
def State.launchCount (s : State) (l : Launch) : Nat := l.total - l.next + l.restarts.length + s.diesOf (.launch l.id)

/-- A record names a level id. -/
def LRec.names (r : LRec) (lv : Level) (id : Nat) : Bool :=
  id != 0 && match lv with
    | .launch => false | .graph => r.graph == id | .phase => r.phase == id | .job => r.job == id

/-- A den holds records or has a team live (triggered, resident or awaiting restart). DESIGN CHOICE: a record that a DENPUT on its way
has only reserved counts as held (log 60). -/
def State.denBusy (s : State) (d : Den) : Bool :=
  !d.records.isEmpty || d.reserved != 0 || !d.ready.isEmpty || !d.restarts.isEmpty || !(s.teamsOf (.den d.num)).isEmpty

/-- The counter of a level id, R303. -/
def State.levelCount (s : State) (c : LevelCtr) : Nat :=
  c.opened.toNat + (s.front.launches.filter fun l => l.part == c.part && l.lrec.names c.level c.id).length
    + (s.front.dens.filter fun d => d.opened && d.part == c.part && d.lrec.names c.level c.id && s.denBusy d).length

def levelNum : Level → Nat | .launch => 0 | .graph => 0 | .phase => 1 | .job => 2

/-- Remove an owner's intervals and release those who wait on it, R294, R302. -/
def State.ownerDone (s : State) (i : Item) : State :=
  { s with front := { s.front with
      intervals := s.front.intervals.filter (·.owner != i),
      launches := s.front.launches.map fun l => { l with hazards := l.hazards.filter (· != i) },
      dens := s.front.dens.map fun d => { d with hazards := d.hazards.filter (· != i) } } }

/-- Level counters at zero report GDONE and are freed, R303. -/
def State.settleLevels (s : State) : State :=
  let zero := s.front.levels.filter fun c => s.levelCount c == 0
  zero.foldl (fun s c =>
    let s := { s with front := { s.front with levels := s.front.levels.filter (· != c) } }
    s.status c.part 5 (levelNum c.level) c.id (s.choose [5, c.part, c.id] % 2 ^ 64) 0 (some 0)) s

/-- A den that may close, R305. -/
def State.denCloses (s : State) (d : Den) : Bool :=
  let open_ (lv : Level) (id : Nat) : Bool :=
    id != 0 && s.front.levels.any fun c => c.level == lv && c.part == d.part && c.id == id
  d.opened && !s.denBusy d &&
    if d.lrec.graph = 0 ∧ d.lrec.phase = 0 ∧ d.lrec.job = 0 then d.cancelled
    else !(open_ .graph d.lrec.graph || open_ .phase d.lrec.phase || open_ .job d.lrec.job)

/-- fw2 removes the private page of an owner's argument bytes, R291. -/
def State.dropArgPage (s : State) (owner : Nat) : State :=
  { s with mem := { s.mem with argPages := s.mem.argPages.filter (·.owner != owner) } }

def State.settleDens (s : State) : State :=
  (s.front.dens.filter s.denCloses).foldl
    (fun s d => ((s.modDen d.num fun d => { d with opened := false, cancelled := false }).ownerDone (.den d.num)).dropArgPage d.id) s

/-- After something ended: level counters, then dens. -/
def State.settleWork (s : State) : State := s.settleLevels.settleDens

/-! ## Kill, R410, R411 -/

/-- A launch that is killed or cancelled whole drops its collective when some mapped team has not fired, R381. -/
def State.dropBound (s : State) (id : Nat) : State :=
  match s.coll.live.find? (·.launch == id) with
  | some c => if c.fired.length < c.bind.nchunk then s.dropColl c.part c.bind.cid 1 true else s
  | none => s

/-- fw3 kills the item of a faulting team; counters that this brings to zero report (R303). DESIGN CHOICE: a den that a fault kills
drops its records, takes no more and closes when idle, as one that is cancelled does (R305, log 60). -/
def State.killItem (s : State) (i : Item) : State :=
  let s := (s.teamsOf i).foldl (fun s t => s.killTeam t) s
  (match i with
  | .launch id => (s.dropBound id).modLaunch id fun l => { l.dropRest with killed := true }
  | .den n => s.modDen n Den.dropAll
  | .reduce part cid => s.dropColl part cid 1 true).settleWork

/-- The fault that killed an item. -/
def State.reportOf (s : State) (i : Item) : Option Reported :=
  match i with
  | .launch id => (s.launch? id).bind (·.report)
  | .den n => (s.den? n).bind (·.report)
  | .reduce .. => none

/-- The fault that killed an item becomes known. -/
def State.setReport (s : State) (i : Item) (r : Reported) : State :=
  match i with
  | .launch id => s.modLaunch id fun l => { l with report := some r }
  | .den n => s.modDen n fun d => { d with report := some r }
  | .reduce .. => s

/-- A fault goes to fw3: a further one of a killed team or launch counts in MORE; else the record, and the kill under the
launch's FREP. A reduce team's fault kills it alone, with its collective (log 31). -/
def State.fw3 (s : State) (t : Team) (r : FaultRec) : State :=
  match t.fault, s.reportOf t.item with
  | some f, _ => s.moreFault t.part f
  | none, some f => s.moreFault t.part f
  | none, none =>
    let alone : Bool := t.frep || match t.item with | .reduce .. => true | _ => false
    let w := s.faultRecord t.part t.seq { r with action := if alone then 1 else 0 }
    let s := w.1.modTeam t.ref fun t => { t with fault := some w.2 }
    if t.frep then s.killTeam { t with fault := some w.2 } else (s.setReport t.item w.2).killItem t.item

/-- The record of a fault of an issuer's instruction or command. -/
def Team.faultRec (t : Team) (recno : Nat) (code : Code) (src : Src) (pc addr tid detail : Nat) : FaultRec where
  code := code.num
  src := match src with | .instr => 0 | .fetch => 1 | .engine => 2 | .firmware => 3 | .machine => 4
  action := 0
  launch := t.launch
  pc := pc
  addr := addr
  tid := tid
  team := t.index
  core := t.ref.core
  slot := t.ref.slot
  recno := recno
  detail := detail

/-- DETAIL of an engine fault: OP in bits 9:0, FL in bits 19:16. -/
def engineDetail (op : Nat) (fl : Option (Fin 12)) : Nat := op + 2 ^ 16 * (flagBits fl).toNat

/-- Who consumed a poisoned line, for the fields of R412: a team's record, the instruction's address and the thread. -/
structure Consumer where
  team : Team
  recno : Nat
  pc : Nat := 0
  tid : Nat := 0xFFFFFFFF

/-- An engine acting on a group's command consumed it. -/
def State.consumer (s : State) (i : Issuer) : Option Consumer := (s.team? i.team).map fun t => { team := t, recno := i.recno }

/-- MCHK ends a translation context, R418: every launch of it is killed whatever FREP says, with one record each, which for the
launch of a team that consumed the line names the team; one already killed by a fault counts this one in MORE (R411). -/
def State.endContext (s : State) (asid pa syndrome : Nat) (who : Option Consumer) : State :=
  let s := s.logEvent 1 0 3 [pa, syndrome]
  let kill (s : State) (i : Item) (part seq : Nat) (r : FaultRec) : State :=
    match s.reportOf i with
    | some f => s.moreFault part f
    | none =>
      let w := s.faultRecord part seq { r with action := 3 }
      (w.1.setReport i w.2).killItem i
  let base (i : Item) (launch : Nat) : FaultRec :=
    match who.filter (·.team.item == i) with
    | some c => { c.team.faultRec c.recno .mchk .machine c.pc pa c.tid syndrome with launch := launch }
    | none => ⟨0x1A, 4, 3, launch, 0, pa, 0xFFFFFFFF, 0, 0, 0, 0, syndrome⟩
  let s := (s.front.launches.filter (·.asid == asid)).foldl
    (fun s l => kill s (.launch l.id) l.part l.seq (base (.launch l.id) l.id)) s
  (s.front.dens.filter fun d => d.opened && d.asid == asid).foldl
    (fun s d => kill s (.den d.num) d.part d.seq (base (.den d.num) d.id)) s

/-- An access of a context consumed the poisoned line at pa: the context ends (R417, R418). -/
def State.consume (s : State) (asid pa : Nat) (who : Option Consumer) : State := s.endContext asid pa (s.choose [6, pa]) who

/-- An engine reports a fault against the team that issued the command, R231, R269; one that met a poisoned table ends the
context. -/
def State.engineFault (s : State) (i : Issuer) (code : Code) (addr detail : Nat) : State :=
  match s.team? i.team with
  | some t =>
    if code = .mchk then s.consume t.asid addr (s.consumer i)
    else s.fw3 t (t.faultRec i.recno code .engine 0 addr 0xFFFFFFFF detail)
  | none => s

/-! ## The team's end -/

/-- Some command of classes 0x7 to 0xC of the team has not completed, R321. -/
def State.outstanding (s : State) (r : TeamRef) : Bool :=
  s.eng.landings.any (·.iss.team == r) || s.eng.copies.any (·.iss.team == r) || s.eng.mats.any (·.iss.team == r)
    || (match s.team? r with | some t => t.grps.any (fun g => !g.mq.isEmpty) | none => false)
    || s.fab.reqs.any (fun q => q.iss.any (·.team == r))
    || s.fab.drains.any (·.tk.iss.team == r)
    || s.coll.live.any (fun c => c.joins.any (·.iss.team == r) || c.snaps.any (·.team == r))
    || s.guest.queues.any (fun q => q.packets.any (·.tk.iss.team == r)) || s.guest.cancels.any (·.tk.iss.team == r)

/-- The slot is freed; the counters of the team's item fall. -/
def State.freeSlot (s : State) (r : TeamRef) : State := (s.dropTeam r).settleWork

/-- Start the snapshot of a team's chunk, R380: the chunk counts as fired. -/
def State.fire (s : State) (c : Coll) (k : Nat) (r : TeamRef) (tk : Option Ticket) : State :=
  s.modColl c.part c.bind.cid fun c => { c with fired := c.fired ++ [k], snaps := c.snaps ++ [⟨k, r, tk, s.sched.steps⟩] }

/-- A team whose records have all retired ends when its commands have completed, unless a successor takes its slot
(R86, R233, R321); before that it fires its chunk (R381). -/
def State.tryEnd (s : State) (r : TeamRef) : State :=
  match s.team? r with
  | none => s
  | some t =>
    if t.ending.isSome || !t.grps.all (·.retired) || s.outstanding r then s
    else if t.succ.isSome && t.cancel == 0 then s
    else
      match s.unfired t with
      | some (c, k) => if t.cancel = 0 then s.fire c k r none else s.freeSlot r
      | none => s.freeSlot r

/-- Every team that can end does. -/
def State.settleTeams (s : State) : State := s.teamList.foldl (fun s t => s.tryEnd t.ref) s

end Sys2Proof.Machine
end

