-- ==== Sys2Proof/Machine/Flags.lean ====
section
/-! DEFINITION. The checks of orders 5 and 6 of R52 (bounds and in-flight registers, R34, R111, R263, R95), the fallbacks of R53, and entering a register into flight. -/
namespace Sys2Proof.Machine

/-- A modifier combination of R53: the instruction runs with its fallback and sets W0 (R54). -/
def fallback (i : Instr) : Bool :=
  match instrRaw i with
  | none => false
  | some r =>
    let op := r.op.toNat
    let cls := op / 64
    let m := r.mod
    let sat := m.getLsbD 2
    let rnd := modField m 0 2 != 0
    let fz := modField m 3 2 != 0
    let cond := modField m 5 3 != 0
    let ty2 := modField m 8 4 != 0
    let intTy (t : Ty) : Bool := intTys.contains t
    let toInt := op == 0x0C9 && intTy (Ty.ofCode (BitVec.ofNat 4 (modField m 8 4)))
    let satIgnored2 := [0x08C, 0x08D, 0x08E, 0x08F, 0x091, 0x093, 0x094, 0x095, 0x096, 0x097, 0x098, 0x099, 0x09E,
      0x088, 0x089].contains op
    match cls with
    | 2 => (sat && satIgnored2) || rnd || fz || (cond && op != 0x099) || (ty2 && op != 0x09A && op != 0x09B)
    | 3 => (sat && !toInt && op != 0x0CB) || (fz && op == 0x0C9 && toInt && intTy (Ty.ofCode r.ty))
        || (cond && op != 0x0C6) || (ty2 && op != 0x0C9)
    | 4 => sat || (rnd && op != 0x108 && op != 0x102) || cond || ty2
    | 6 => op != 0x189 && modField m 0 2 == 3
    | 7 => if op ≤ 0x1C1 then modField m 0 3 == 4 || modField m 3 3 == 4 else m.getLsbD 6
    | 8 => modField m 0 3 == 4 || modField m 3 3 == 4 || (m.getLsbD 6 && op != 0x201)
    | 0xA => m.getLsbD 6 && decide (0x282 ≤ op)
    | _ => false

/-- The highest v register a record holds, R111. -/
def Grp.topV (g : Grp) : Nat := 32 * g.h + 31

def unheld (g : Grp) : Spec → Bool
  | .v n => decide (g.topV < n.val)
  | _ => false

/-- A check that finds a fault: its code as number of R409 and the value it names. -/
inductive Bound where
  | reg
  | acc (n : Nat)
  | bar
  deriving DecidableEq, Repr

/-- Tile indices an instruction names, in the order they are checked (R263). -/
def tilesOf : Instr → List Nat
  | .mma _ m | .mzero _ m | .mrnm _ m | .mld _ m | .mst _ m | .mexp _ m => [m.acc.val]
  | .mmov o m => [m.acc.val, o.imm.toNat % 8]
  | _ => []

def barOf : Instr → Option Nat
  | .bar _ b | .bara _ b | .barw _ b => some b.val
  | _ => none

/-- The registers of a CLEND entry. -/
def entryRegs (e : ClendEntry) : List Spec := runOf e.reg (if e.wide then 2 else 1)

/-- Registers an instruction names: its fields, or a CLEND's entries. -/
def named (i : Instr) (o : Opnds) : List Spec :=
  match i with
  | .clend es => es.flatMap entryRegs
  | _ => touched i o

/-- Check 5 of R52. -/
def boundCheck (t : Team) (g : Grp) (i : Instr) (o : Opnds) : Option Bound :=
  if (named i o).any (unheld g) then some .reg
  else
    match (tilesOf i).find? (fun n => decide (t.hdr.accs ≤ n)) with
    | some n => some (.acc n)
    | none =>
      match barOf i with
      | some b => if t.hdr.bars ≤ b then some .bar else none
      | none => none

def Grp.inFlight (g : Grp) (r : Spec) : Bool := g.flight.any (·.1 == r)

/-- Check 6 of R52. A CLEND entry of a register that this clause itself put in flight is no miss: under a writer, or by
its own CLEND before a PROMISE_MISS took that back (R34, R241). -/
def flightCheck (g : Grp) (c : Clause) (i : Instr) (o : Opnds) : Bool :=
  match i with
  | .clend es => (es.flatMap entryRegs).any fun r =>
      g.flight.any fun x => x.1 == r && !c.writers.any (·.1 == r) && !c.flown.contains (r, x.2.val)
  | _ => (touched i o).any g.inFlight

end Sys2Proof.Machine
end

