-- ==== Sys2Proof/Machine/Ops.lean ====
section
/-! DEFINITION. Taking a fault (spec/18 R409 to R415), parking under REPLAY (spec/08 R188), and the frame in which every instruction word issues (spec/02 R28, R43, R52, R54). -/
namespace Sys2Proof.Machine

/-! ## Taking a fault -/

/-- The codes whose fault goes to HANDLER, R409; translation faults only under XTRAP, and only those raised at an instruction. -/
def handledCode (k : KHdr) (f : FaultInfo) : Bool :=
  match f.code with
  | .trap | .bkpt | .promiseMiss => true
  | .xlate | .prot | .collRange => k.flags.testBit 0 && f.src == .instr
  | _ => false

/-- The group enters its handler for this fault, R413, R415. -/
def handled (t : Team) (g : Grp) (f : FaultInfo) : Bool :=
  t.hdr.handler != 0 && g.trap.isNone && handledCode t.hdr f

/-- %trapc as R414 lays it out. -/
def trapcOf (f : FaultInfo) (pos : Nat) : W32 := BitVec.ofNat 32 (f.code.num + 2 ^ 8 * (pos % 32) + 2 ^ 16 * (f.trapCode % 2 ^ 16))

/-- A transfer that has no instruction fails its landing: fw3 reports it against the team's first group (R21). -/
def State.failStart (s : State) (r : TeamRef) (f : FaultInfo) : State :=
  match s.team? r with
  | some t =>
    if f.code = .mchk then s.consume t.asid (f.val.getD 0) (some { team := t, recno := 0 })
    else s.fw3 t (t.faultRec 0 f.code .fetch 0 (f.val.getD 0) 0xFFFFFFFF f.code.num)
  | none => s

/-- TAKING A TRAP, R413: the trap record is saved, %trapc and %trapv are set, the group is in trap state, and the issue
set goes to HANDLER. -/
def State.trapEntry (s : State) (v : View) (f : FaultInfo) : State :=
  let saved : TrapRec := ⟨{ v.cl with idle := false }, v.present.map fun th => (th.tid, th.c), f.code.num⟩
  let s := s.modTeam v.iss.team fun t => t.modGrp v.iss.recno fun g =>
    { g with trap := some saved, trapc := trapcOf f v.cl.pos, trapv := BitVec.ofNat 64 (f.val.getD v.pc), clause := none,
             endedAt := s.sched.steps }
  match s.landing v.iss.team.core v.team.asid v.team.hdr.handler with
  | some f => s.failStart v.iss.team f
  | none => s.modTeam v.iss.team fun t => (t.arrive s.sched.steps v.team.hdr.handler v.cl.issue).settle s.sched.steps

/-- The lowest %tid of an instruction's active threads, or of its issue set, R412. -/
def View.faultTid (v : View) (o : Opnds) : Nat :=
  match v.active o, v.present with
  | th :: _, _ => th.tid
  | [], th :: _ => th.tid
  | [], [] => 0

/-- The team, the instruction and the thread of a fault that an instruction met. -/
def View.consumer (v : View) (o : Opnds) (tid : Option Nat) : Option Consumer :=
  some { team := v.team, recno := v.iss.recno, pc := v.pc, tid := tid.getD (v.faultTid o) }

/-- The fault record of an instruction's fault, R412. -/
def View.faultRec (v : View) (o : Opnds) (f : FaultInfo) : FaultRec :=
  v.team.faultRec v.iss.recno f.code f.src v.pc (f.val.getD v.pc) (f.tid.getD (v.faultTid o)) (trapcOf f v.cl.pos).toNat

/-- A fault of translation, protection or the collective range. -/
def Code.translates : Code → Bool
  | .xlate | .prot | .collRange => true
  | _ => false

/-- TAKING A FAULT at an instruction, R409: the handler, or fw3, which writes the fault record and acts on it. A translation
fault leaves a fault record whichever way it goes on (R187); one that the handler takes is no fault of fw3's, and has neither the
FAULT status record nor its interrupt (R409, log 51). -/
def State.raise (s : State) (v : View) (o : Opnds) (f : FaultInfo) : State :=
  if f.code = .mchk then s.consume v.team.asid (f.val.getD 0) (v.consumer o f.tid)
  else if handled v.team v.grp f then
    let s := if f.code.translates then (s.ringRecord v.team.part { v.faultRec o f with action := 2 }).1 else s
    s.trapEntry v f
  else s.fw3 v.team (v.faultRec o f)

/-! ## Parking, R188 -/

def State.bufferUsed (s : State) (cluster : Nat) : Nat := (s.mem.parked.filter (·.cluster == cluster)).length

/-- A fault-buffer entry, when one of the cluster's 64 is free. -/
def State.parkEntry (s : State) (cluster asid va : Nat) (tid : Option Nat) (who : ParkWho) : State :=
  let n := s.newCmd
  if s.bufferUsed cluster < 64 then
    { n.2 with mem := { n.2.mem with parked := n.2.mem.parked ++ [⟨n.1, cluster, asid, va, tid, who⟩] } }
  else n.2

/-- The group parks; without a free entry it waits for one. -/
def State.parkGroup (s : State) (v : View) (f : FaultInfo) : State :=
  let n := s.sched.nextCmd
  let s := s.parkEntry (clusterOf v.iss.team.core) v.team.asid (f.val.getD 0) f.tid (.instr v.iss)
  s.modTeam v.iss.team fun t => (t.modGrp v.iss.recno fun g =>
    { g with park := some n, clause := g.clause.map fun c => { c with idle := true } }).settle s.sched.steps

/-! ## The frame of an issue -/

/-- What an instruction's own entry says: performed, held at the position, a fault, parked, or a poisoned line consumed, with the lowest
thread whose own access met it. -/
inductive Issued where
  | done (s : State)
  | stall (s : State)
  | fault (f : FaultInfo)
  | park (f : FaultInfo)
  | mchk (pa : Nat) (tid : Option Nat)

/-- Go on when a check passes; a check that fails only by pages not present parks in a context with REPLAY. -/
def View.checked (v : View) (c : Check) (k : Issued) : Issued :=
  match c with
  | .pass => k
  | .fail f => .fault f
  | .absent f => if (v.s.ctx? v.team.asid).any (·.replay) then .park f else .fault f

/-- The latches after an instruction at position p: HOLD copies the operand of every present thread into l(p mod 3), R43; of an
operand of several registers the first, or the pair, that the field's type names (log 54). DESIGN CHOICE: above the width of that type
a latch holds zeros, also for an immediate that R44 extends by sign (log 59). -/
def View.hold (v : View) (i : Instr) (o : Opnds) : List Latch :=
  let ty := heldTy i o
  let fill (sp : Spec) : List Latch :=
    modNth (fun _ => ⟨v.cl.pos, v.present.map fun th => (th.tid, BitVec.ofNat 64 (v.read o ty (some th) sp))⟩)
      v.cl.latches (v.cl.pos % 3)
  match o.hold with
  | .none => v.cl.latches
  | .sa => fill o.sa
  | .sb => fill o.sb
  | .sc => fill o.sc

/-- The clause after the instruction at its position has issued. -/
def View.advance (v : View) (i : Instr) (o : Opnds) (c : Clause) : Clause :=
  let ws := written i o
  { c with
    pos := v.cl.pos + 1, latches := v.hold i o,
    writers := match o.fl with | some f => v.cl.writers ++ ws.map fun r => (r, f.val) | none => v.cl.writers }

/-- The registers an instruction writes go in flight under its flag, R34. -/
def Grp.fly (g : Grp) (rs : List Spec) : Option (Fin 12) → Grp
  | some f => { g with flight := g.flight ++ rs.map fun r => (r, f) }
  | none => g

/-- The record goes on to the clause's next position. With no active thread no command holds the flag, and the registers
an instruction writes under it fly while others do (R34). -/
def Grp.onward (g : Grp) (v : View) (i : Instr) (o : Opnds) : Grp :=
  { g with
    warn := if fallback i then (g.setWarn 0).warn else g.warn
    flight := if !v.any o && o.fl.any (fun f => g.flag f != 0) then (g.fly (written i o) o.fl).flight else g.flight
    clause := g.clause.map (v.advance i o) }

def State.retire (s : State) (v : View) (i : Instr) (o : Opnds) : State := s.modGrp v.iss fun g => g.onward v i o

def Bound.fault : Bound → FaultInfo
  | .reg => { code := .regBound }
  | .acc n => { code := .accBound, val := some n }
  | .bar => { code := .barBound }

/-- Orders 5 and 6 of R52, the flag limit of R30, then the instruction's own entry. -/
def View.run (v : View) (i : Instr) (o : Opnds) (body : View → Issued) : Issued :=
  match boundCheck v.team v.grp i o with
  | some b => .fault b.fault
  | none =>
    if flightCheck v.grp v.cl i o then .fault { code := .flagMiss }
    else if o.fl.any (fun f => v.grp.flag f == 255) && v.any o then .stall v.s
    else body v

/-- The state after an issue. -/
def View.finish (v : View) (i : Instr) (o : Opnds) : Issued → State
  | .done s => s.retire v i o
  | .stall s => s
  | .fault f => v.s.raise v o f
  | .park f => v.s.parkGroup v { f with tid := some (f.tid.getD (v.faultTid o)) }
  | .mchk pa tid => v.s.consume v.team.asid pa (v.consumer o tid)

/-- The view of the group that an instruction word acts for. -/
def State.view? (s : State) : Option View := s.sched.cur.bind (View.of s)

/-- THE FRAME: an instruction word issues for the group that `sched.cur` names. -/
def issue (i : Instr) (o : Opnds) (s : State) (body : View → Issued) : Host.Outcome State Fault Refusal :=
  match s.view? with
  | none => .fault .noIssuer
  | some v => .next (v.finish i o (v.run i o body))

/-- An instruction that only writes registers. -/
def View.writes (v : View) (ws : List RegWrite) : Issued := .done (v.s.applyWrites v.iss ws)

/-- A command of the instruction is entered: its flag counts up and the registers it will write go in flight. -/
def View.enter (v : View) (i : Instr) (o : Opnds) (s : State) : State :=
  s.modGrp v.iss fun g => (match o.fl with | some f => g.incFlag f | none => g).fly (written i o) o.fl

/-- The ticket of a command that the instruction enters. -/
def View.ticket (v : View) (o : Opnds) (cmd : Nat) : Ticket := ⟨cmd, v.iss, o.fl, o.dst⟩

/-- An FL = 15 command whose result register is awaited stalls the group (R30). -/
def View.await (v : View) (o : Opnds) (cmd : Nat) (s : State) : State :=
  if o.fl.isNone && isSReg o.dst then s.modGrp v.iss fun g => { g with stall := some cmd } else s

/-- Capture a terminal instruction's effect for CLEND, R29. -/
def View.capture (v : View) (s : State) (t : Terminal) : State :=
  s.modGrp v.iss fun g => { g with clause := g.clause.map fun c => { c with term := some t } }

/-- Set the head of an instruction's effect when some thread is active, else only retire it (R45). -/
def View.once (v : View) (o : Opnds) (k : Issued) : Issued := if v.any o then k else .done v.s

/-- The bounds of a command that the group issues now, R209, R211. -/
def View.readBound (v : View) (acq : Option Scope) : ReadBound :=
  let own := match acq with
    | some .pod => [(Scope.package, v.s.sched.steps)]
    | some sc => [(sc, v.s.sched.steps)]
    | none => []
  ⟨v.team.sealedAt, v.grp.bounds ++ own, v.team.writer⟩

end Sys2Proof.Machine
end

