-- ==== Sys2Proof/Machine/Integer.lean ====
section
/-! DEFINITION. Class 0x2: integer and address instructions (spec/06 R126 to R146). Each computes an exact integer and narrows it once. -/
namespace Sys2Proof.Machine

/-! ## Values and results, R126, R128 -/

/-- val(x): the low w bits under the signedness of TY. -/
def Ty.val (t : Ty) (x : Nat) : Int := if t.signed then sval t.width x else (x % 2 ^ t.width : Nat)

/-- min_ty and max_ty. -/
def Ty.minVal (t : Ty) : Int := if t.signed then -(2 ^ (t.width - 1)) else 0
def Ty.maxVal (t : Ty) : Int := if t.signed then 2 ^ (t.width - 1) - 1 else 2 ^ t.width - 1

/-- result(x), R128. -/
def Ty.result (t : Ty) (sat : Bool) (x : Int) : Nat :=
  wrap t.width (if sat then min (max x (Ty.minVal t)) (Ty.maxVal t) else x)

/-- A result written to DST by an instruction of this class, from its three sources under TY. -/
def View.arith (v : View) (o : Opnds) (f : Nat → Nat → Nat → Nat) : Issued :=
  v.writes (v.dst o o.ty.wide fun th => f (v.read o o.ty th o.sa) (v.read o o.ty th o.sb) (v.read o o.ty th o.sc))

/-- As `arith` for two sources whose values are combined exactly. -/
def View.exact2 (v : View) (o : Opnds) (sat : Bool) (f : Int → Int → Int) : Issued :=
  v.writes (v.dst o o.ty.wide fun th =>
    Ty.result o.ty sat (f (Ty.val o.ty (v.read o o.ty th o.sa)) (Ty.val o.ty (v.read o o.ty th o.sb))))

/-- For one source. -/
def View.arith1 (v : View) (o : Opnds) (f : Nat → Nat) : Issued :=
  v.writes (v.dst o o.ty.wide fun th => f (v.read o o.ty th o.sa))

/-- For two sources as bit patterns. -/
def View.arith2 (v : View) (o : Opnds) (f : Nat → Nat → Nat) : Issued :=
  v.writes (v.dst o o.ty.wide fun th => f (v.read o o.ty th o.sa) (v.read o o.ty th o.sb))

/-- For a source under TY and a second field under a fixed type. -/
def View.arithN (v : View) (o : Opnds) (sp : Spec) (f : Nat → Nat → Nat) : Issued :=
  v.writes (v.dst o o.ty.wide fun th => f (v.read o o.ty th o.sa) (v.read o .u32 th sp))

/-! ## Addition and subtraction, R132, R133 -/

def execAdd (o : Opnds) (m : ArithMods) (s : State) : Host.Outcome State Fault Refusal :=
  issue (.add o m) o s fun v => v.exact2 o m.sat (· + ·)

def execSub (o : Opnds) (m : ArithMods) (s : State) : Host.Outcome State Fault Refusal :=
  issue (.sub o m) o s fun v => v.exact2 o m.sat (· - ·)

/-- The sum or difference with a carry, R133: the result and the carry out. -/
def carryOp (ty : Ty) (sat sub : Bool) (a b : Nat) (cin : Bool) : Nat × Bool :=
  let c : Int := cin.toNat
  let u : Int := if sub then (a : Int) - b - c else (a : Int) + b + c
  let x : Int := if sub then Ty.val ty a - Ty.val ty b - c else Ty.val ty a + Ty.val ty b + c
  (Ty.result ty sat x, decide ((2 : Int) ^ ty.width ≤ u ∨ u < 0))

/-- The carry operand: a predicate, or bit 0 of an s register. -/
def View.carryIn (v : View) (o : Opnds) (th : Option Thread) : Bool :=
  match o.sc with
  | .k n => match th with | some x => x.getK n.val | none => false
  | .s n => v.s64 n.val % 2 == 1
  | _ => false

/-- ADDC and SUBB write DST and the carry operand. -/
def View.withCarry (v : View) (o : Opnds) (m : ArithMods) (sub : Bool) : Issued :=
  let f (th : Option Thread) : Nat × Bool :=
    carryOp o.ty m.sat sub (v.read o o.ty th o.sa) (v.read o o.ty th o.sb) (v.carryIn o th)
  let oc : Opnds := { o with dst := o.sc }
  v.writes (v.dst o o.ty.wide (fun th => (f th).1) ++ v.dst oc false fun th => (f th).2.toNat)

def execAddc (o : Opnds) (m : ArithMods) (s : State) : Host.Outcome State Fault Refusal :=
  issue (.addc o m) o s fun v => v.withCarry o m false

def execSubb (o : Opnds) (m : ArithMods) (s : State) : Host.Outcome State Fault Refusal :=
  issue (.subb o m) o s fun v => v.withCarry o m true

/-! ## Multiplication, R134 to R136 -/

def execMul (o : Opnds) (m : ArithMods) (s : State) : Host.Outcome State Fault Refusal :=
  issue (.mul o m) o s fun v => v.exact2 o m.sat (· * ·)

/-- The high w bits of the product; SAT has no effect. -/
def execMulh (o : Opnds) (m : ArithMods) (s : State) : Host.Outcome State Fault Refusal :=
  issue (.mulh o m) o s fun v => v.exact2 o false fun a b => Int.fdiv (a * b) (2 ^ o.ty.width)

def execMad (o : Opnds) (m : ArithMods) (s : State) : Host.Outcome State Fault Refusal :=
  issue (.mad o m) o s fun v => v.arith o fun a b c => Ty.result o.ty m.sat (Ty.val o.ty a * Ty.val o.ty b + Ty.val o.ty c)

/-- MADW reads its factors as u32, or as s32 under s64. -/
def factorTy (t : Ty) : Ty := match t with | .s64 => .s32 | _ => .u32

def execMadw (o : Opnds) (m : ArithMods) (s : State) : Host.Outcome State Fault Refusal :=
  issue (.madw o m) o s fun v =>
    let ft := factorTy o.ty
    v.writes (v.dst o true fun th =>
      Ty.result o.ty m.sat (Ty.val ft (v.read o ft th o.sa) * Ty.val ft (v.read o ft th o.sb) + Ty.val o.ty (v.read o o.ty th o.sc)))

/-- R136. -/
def dot4 (ty : Ty) (bSigned : Bool) (a b c : Nat) : Int :=
  let byteOf (sg : Bool) (x i : Nat) : Int :=
    let y := bits x (8 * i + 7) (8 * i)
    if sg then sval 8 y else y
  (List.range 4).foldl (fun x i => x + byteOf ty.signed a i * byteOf bSigned b i) (Ty.val ty c)

def execDot4 (o : Opnds) (m : ArithMods) (s : State) : Host.Outcome State Fault Refusal :=
  issue (.dot4 o m) o s fun v => v.arith o fun a b c =>
    let sg := match m.ty2 with | .u8 => false | .s8 => true | _ => o.ty.signed
    Ty.result o.ty m.sat (dot4 o.ty sg a b c)

/-! ## Minimum, maximum, absolute value, negation, R137 -/

def execMin (o : Opnds) (m : ArithMods) (s : State) : Host.Outcome State Fault Refusal :=
  issue (.min o m) o s fun v => v.exact2 o false min

def execMax (o : Opnds) (m : ArithMods) (s : State) : Host.Outcome State Fault Refusal :=
  issue (.max o m) o s fun v => v.exact2 o false max

def execAbs (o : Opnds) (m : ArithMods) (s : State) : Host.Outcome State Fault Refusal :=
  issue (.abs o m) o s fun v => v.arith1 o fun a => Ty.result o.ty m.sat ((Ty.val o.ty a).natAbs : Int)

def execNeg (o : Opnds) (m : ArithMods) (s : State) : Host.Outcome State Fault Refusal :=
  issue (.neg o m) o s fun v => v.arith1 o fun a => Ty.result o.ty m.sat (-(Ty.val o.ty a))

/-! ## Logic, shifts and rotation, R138 to R140 -/

def execAnd (o : Opnds) (m : ArithMods) (s : State) : Host.Outcome State Fault Refusal :=
  issue (.and o m) o s fun v => v.arith2 o (· &&& ·)

def execOr (o : Opnds) (m : ArithMods) (s : State) : Host.Outcome State Fault Refusal :=
  issue (.or o m) o s fun v => v.arith2 o (· ||| ·)

def execXor (o : Opnds) (m : ArithMods) (s : State) : Host.Outcome State Fault Refusal :=
  issue (.xor o m) o s fun v => v.arith2 o (· ^^^ ·)

def execNot (o : Opnds) (m : ArithMods) (s : State) : Host.Outcome State Fault Refusal :=
  issue (.not o m) o s fun v => v.arith1 o fun a => 2 ^ o.ty.width - 1 - a

/-- Under SAT the full count acts: any nonzero value shifted by w or more is out of range, so a count above w
saturates as w does. -/
def shlValue (ty : Ty) (sat : Bool) (a n : Nat) : Nat :=
  let k := if sat then min n ty.width else n % ty.width
  Ty.result ty sat (Ty.val ty a * 2 ^ k)

def sarValue (ty : Ty) (sat : Bool) (a n : Nat) : Nat :=
  let k := if sat then min n ty.width else n % ty.width
  Ty.result ty sat (Int.fdiv (Ty.val ty a) (2 ^ k))

def execShl (o : Opnds) (m : ArithMods) (s : State) : Host.Outcome State Fault Refusal :=
  issue (.shl o m) o s fun v => v.arithN o o.sb (shlValue o.ty m.sat)

def execShr (o : Opnds) (m : ArithMods) (s : State) : Host.Outcome State Fault Refusal :=
  issue (.shr o m) o s fun v => v.arithN o o.sb fun a n => a / 2 ^ (n % o.ty.width)

def execSar (o : Opnds) (m : ArithMods) (s : State) : Host.Outcome State Fault Refusal :=
  issue (.sar o m) o s fun v => v.arithN o o.sb (sarValue o.ty m.sat)

/-- R140. -/
def rotl (w a n : Nat) : Nat :=
  let k := n % w
  (a * 2 ^ k) % 2 ^ w + a / 2 ^ (w - k)

def execRotl (o : Opnds) (m : ArithMods) (s : State) : Host.Outcome State Fault Refusal :=
  issue (.rotl o m) o s fun v => v.arithN o o.sb (rotl o.ty.width)

/-! ## Bit fields, counts, permutation, R141 to R143 -/

/-- len' of a field spec. -/
def fieldLen (w f : Nat) : Nat := let pos := f % 256; if pos < w then min (f / 256 % 256) (w - pos) else 0

def bfxValue (ty : Ty) (a f : Nat) : Nat :=
  let n := fieldLen ty.width f
  let x := a / 2 ^ (f % 256) % 2 ^ n
  if n = 0 then 0 else if ty.signed then wrap ty.width (sval n x) else x

def bfiValue (ty : Ty) (a b f : Nat) : Nat :=
  let n := fieldLen ty.width f
  let pos := f % 256
  if n = 0 then a else a - (a / 2 ^ pos % 2 ^ n) * 2 ^ pos + (b % 2 ^ n) * 2 ^ pos

def execBfx (o : Opnds) (m : ArithMods) (s : State) : Host.Outcome State Fault Refusal :=
  issue (.bfx o m) o s fun v => v.arithN o o.sc (bfxValue o.ty)

def execBfi (o : Opnds) (m : ArithMods) (s : State) : Host.Outcome State Fault Refusal :=
  issue (.bfi o m) o s fun v => v.writes (v.dst o o.ty.wide fun th =>
    bfiValue o.ty (v.read o o.ty th o.sa) (v.read o o.ty th o.sb) (v.read o .u32 th o.sc))

def execPopc (o : Opnds) (m : ArithMods) (s : State) : Host.Outcome State Fault Refusal :=
  issue (.popc o m) o s fun v => v.arith1 o (popcount o.ty.width)

/-- Zero bits above the most significant one bit of a w-bit value. -/
def clz : Nat → Nat → Nat
  | 0, _ => 0
  | w + 1, a => if a.testBit w then 0 else clz w a + 1

def execClz (o : Opnds) (m : ArithMods) (s : State) : Host.Outcome State Fault Refusal :=
  issue (.clz o m) o s fun v => v.arith1 o (clz o.ty.width)

def brev (w a : Nat) : Nat := (List.range w).foldl (fun x i => if a.testBit (w - 1 - i) then x + 2 ^ i else x) 0

def execBrev (o : Opnds) (m : ArithMods) (s : State) : Host.Outcome State Fault Refusal :=
  issue (.brev o m) o s fun v => v.arith1 o (brev o.ty.width)

/-- R143. -/
def prmb (a b sel : Nat) : Nat :=
  let ba := a + 2 ^ 32 * b
  (List.range 4).foldl (fun x i =>
    let k := bits sel (4 * i + 3) (4 * i)
    let y := bits ba (8 * (k % 8) + 7) (8 * (k % 8))
    let y := if 8 ≤ k then (if 128 ≤ y then 0xFF else 0) else y
    x + y * 2 ^ (8 * i)) 0

def execPrmb (o : Opnds) (m : ArithMods) (s : State) : Host.Outcome State Fault Refusal :=
  issue (.prmb o m) o s fun v => v.writes (v.dst o o.ty.wide fun th =>
    prmb (v.read o o.ty th o.sa) (v.read o o.ty th o.sb) (v.read o .u32 th o.sc))

/-! ## Comparison, R144 -/

def cmpValue (ty : Ty) (cond : Fin 8) (a b : Nat) : Bool :=
  let x := Ty.val ty a
  let y := Ty.val ty b
  match cond.val with
  | 0 => x == y
  | 1 => x != y
  | 2 => decide (x < y)
  | 3 => decide (x ≤ y)
  | 4 => decide (y < x)
  | 5 => decide (y ≤ x)
  | 6 => (a &&& b) != 0
  | _ => (a &&& b) == 0

def execCmp (o : Opnds) (m : ArithMods) (s : State) : Host.Outcome State Fault Refusal :=
  issue (.cmp o m) o s fun v => v.writes (v.dst o false fun th =>
    (cmpValue o.ty m.cond (v.read o o.ty th o.sa) (v.read o o.ty th o.sb)).toNat)

/-! ## Address formation, R145 -/

def leaValue (sat : Bool) (base : Nat) (i : Int) (shift : Nat) : Nat :=
  let x := sval 64 base + i * 2 ^ (shift % 64)
  wrap 64 (if sat then min (max x (-(2 ^ 53))) (2 ^ 53 - 1) else x)

def execLea (o : Opnds) (m : ArithMods) (s : State) : Host.Outcome State Fault Refusal :=
  issue (.lea o m) o s fun v => v.writes (v.dst o true fun th =>
    leaValue m.sat (v.read o .u64 th o.sa) (Ty.val m.ty2 (v.read o m.ty2 th o.sb)) (v.read o .u32 th o.sc))

/-! ## Division, R146 -/

def divValue (ty : Ty) (sat : Bool) (a b : Nat) : Nat :=
  if Ty.val ty b = 0 then 2 ^ ty.width - 1 else Ty.result ty sat (Int.tdiv (Ty.val ty a) (Ty.val ty b))

def remValue (ty : Ty) (a b : Nat) : Nat :=
  if Ty.val ty b = 0 then a % 2 ^ ty.width else wrap ty.width (Int.tmod (Ty.val ty a) (Ty.val ty b))

def execDiv (o : Opnds) (m : ArithMods) (s : State) : Host.Outcome State Fault Refusal :=
  issue (.div o m) o s fun v => v.arith2 o (divValue o.ty m.sat)

def execRem (o : Opnds) (m : ArithMods) (s : State) : Host.Outcome State Fault Refusal :=
  issue (.rem o m) o s fun v => v.arith2 o (remValue o.ty)

end Sys2Proof.Machine
end

