-- ==== Sys2Proof/Machine/SoftFloat.lean ====
section
/-! DEFINITION. Exact floating-point arithmetic: decoding a format, one rounding, flushing (spec/07 R147 to R153). -/
namespace Sys2Proof.Machine

/-! ## Formats, R147 -/

/-- Exponent and fraction widths of a binary format. -/
structure Fmt where
  ew : Nat
  mw : Nat
  deriving DecidableEq, Repr

def Fmt.f64 : Fmt := ⟨11, 52⟩
def Fmt.f32 : Fmt := ⟨8, 23⟩
def Fmt.f16 : Fmt := ⟨5, 10⟩
def Fmt.bf16 : Fmt := ⟨8, 7⟩

def Fmt.ofTy : Ty → Fmt
  | .f64 => .f64
  | .f16 | .f16x2 => .f16
  | .bf16 | .bf16x2 => .bf16
  | _ => .f32

def Fmt.bias (f : Fmt) : Int := 2 ^ (f.ew - 1) - 1
def Fmt.width (f : Fmt) : Nat := f.ew + f.mw + 1
/-- The weight of the sign bit. -/
def Fmt.sign (f : Fmt) : Nat := 2 ^ (f.ew + f.mw)
def Fmt.inf (f : Fmt) (neg : Bool) : Nat := (2 ^ f.ew - 1) * 2 ^ f.mw + neg.toNat * f.sign
def Fmt.zero (f : Fmt) (neg : Bool) : Nat := neg.toNat * f.sign
/-- The canonical NaN, R148. -/
def Fmt.nan (f : Fmt) : Nat := (2 ^ f.ew - 1) * 2 ^ f.mw + 2 ^ (f.mw - 1)

def Fmt.neg (f : Fmt) (x : Nat) : Bool := x.testBit (f.ew + f.mw)
def Fmt.mag (f : Fmt) (x : Nat) : Nat := x % f.sign
def Fmt.isNan (f : Fmt) (x : Nat) : Bool := decide (f.inf false < f.mag x)
def Fmt.isInf (f : Fmt) (x : Nat) : Bool := f.mag x == f.inf false
def Fmt.isSub (f : Fmt) (x : Nat) : Bool := f.mag x != 0 && decide (f.mag x < 2 ^ f.mw)

/-! ## Exact values -/

/-- An exact value: (-1)^neg * m * 2^e when finite; a zero keeps its sign. -/
inductive Fp where
  | nan
  | inf (neg : Bool)
  | fin (neg : Bool) (m : Nat) (e : Int)
  deriving DecidableEq, Repr

def Fmt.decode (f : Fmt) (x : Nat) : Fp :=
  let ex := f.mag x / 2 ^ f.mw
  let fr := f.mag x % 2 ^ f.mw
  if ex = 2 ^ f.ew - 1 then (if fr = 0 then .inf (f.neg x) else .nan)
  else if ex = 0 then .fin (f.neg x) fr (1 - f.bias - f.mw)
  else .fin (f.neg x) (2 ^ f.mw + fr) (ex - f.bias - f.mw)

/-- Round away from zero? The kept part is odd, the rest is compared with half, and something is left. -/
def roundUp (rnd : Rnd) (neg odd : Bool) (half : Ordering) (inexact : Bool) : Bool :=
  match rnd with
  | .rn => half == .gt || (half == .eq && odd)
  | .rz => false
  | .ru => inexact && !neg
  | .rd => inexact && neg

/-- m * 2^e, plus something below one unit of m when `more`, rounded to a multiple of 2^u: the multiple. -/
def roundAt (rnd : Rnd) (neg : Bool) (m : Nat) (e u : Int) (more : Bool) : Nat :=
  if u ≤ e then m * 2 ^ (e - u).toNat
  else
    let k := (u - e).toNat
    let q := m / 2 ^ k
    let r := m % 2 ^ k
    let half := match compare (2 * r) (2 ^ k) with
      | .eq => if more then .gt else .eq
      | x => x
    if roundUp rnd neg (q % 2 == 1) half (r != 0 || more) then q + 1 else q

/-- An overflowing result, R152. -/
def Fmt.overflow (f : Fmt) (rnd : Rnd) (neg : Bool) : Nat :=
  let toInf := match rnd with | .rn => true | .rz => false | .ru => !neg | .rd => neg
  if toInf then f.inf neg else f.inf neg - 1

/-- Round a finite magnitude once to the format. With `more`, m carries more bits than the format keeps. -/
def Fmt.pack (f : Fmt) (rnd : Rnd) (neg : Bool) (m : Nat) (e : Int) (more : Bool) : Nat :=
  if m = 0 then f.zero neg
  else
    let top : Int := max (e + Nat.log2 m) (1 - f.bias)
    let q := roundAt rnd neg m e (top - f.mw) more
    let x := (top - (1 - f.bias)).toNat * 2 ^ f.mw + q
    if f.inf false ≤ x then f.overflow rnd neg else x + neg.toNat * f.sign

def Fmt.round (f : Fmt) (rnd : Rnd) : Fp → Nat
  | .nan => f.nan
  | .inf n => f.inf n
  | .fin n m e => f.pack rnd n m e false

/-! ## Sums of products, R152, R156, R157 -/

def Fp.mul : Fp → Fp → Fp
  | .nan, _ => .nan
  | _, .nan => .nan
  | .inf a, .inf b => .inf (a != b)
  | .inf a, .fin b m _ => if m = 0 then .nan else .inf (a != b)
  | .fin a m _, .inf b => if m = 0 then .nan else .inf (a != b)
  | .fin a m e, .fin b n k => .fin (a != b) (m * n) (e + k)

def Fp.negate : Fp → Fp
  | .nan => .nan
  | .inf a => .inf (!a)
  | .fin a m e => .fin (!a) m e

def Fp.isNan : Fp → Bool
  | .nan => true
  | _ => false

/-- m * 2^e as a multiple of 2^lo, for lo at most e. -/
def scaled (neg : Bool) (m : Nat) (e lo : Int) : Int :=
  let x : Int := (m * 2 ^ (e - lo).toNat : Nat)
  if neg then -x else x

/-- The exact sum of the terms, with the sign of an exact zero as R152 gives it. -/
def sumFp (rnd : Rnd) (ts : List Fp) : Fp :=
  let infs := ts.filterMap fun t => match t with | .inf a => some a | _ => none
  let fins := ts.filterMap fun t => match t with | .fin a m e => some (a, m, e) | _ => none
  if ts.any Fp.isNan then .nan
  else
    match infs with
    | a :: r => if r.all (· == a) then .inf a else .nan
    | [] =>
      let lo := fins.foldl (fun (l : Int) t => min l t.2.2) (match fins with | t :: _ => t.2.2 | [] => 0)
      let x := fins.foldl (fun (x : Int) t => x + scaled t.1 t.2.1 t.2.2 lo) 0
      if x = 0 then
        let zeros := fins.all (·.2.1 == 0)
        let sg := match fins with
          | t :: r => if zeros && r.all (·.1 == t.1) then t.1 else rnd == .rd
          | [] => false
        .fin sg 0 0
      else .fin (decide (x < 0)) x.natAbs lo

/-! ## Flushing, R150, R151 -/

/-- A subnormal replaced by a zero of its sign. -/
def Fmt.flush (f : Fmt) (on : Bool) (x : Nat) : Nat := if on && f.isSub x then f.zero (f.neg x) else x

/-- The control word's operand bit of a format; its result bit is the next one. -/
def Fmt.cwBit (f : Fmt) : Nat :=
  if f = .f64 then 2 else if f = .f16 then 4 else if f = .bf16 then 6 else 0

def flushOperand (cw : W32) (fz : Fz) (f : Fmt) : Bool :=
  match fz with
  | .cw => cw.getLsbD f.cwBit
  | .fzn => false
  | .fzo | .fza => true

def flushResult (cw : W32) (fz : Fz) (f : Fmt) : Bool :=
  match fz with
  | .cw => cw.getLsbD (f.cwBit + 1)
  | .fzn | .fzo => false
  | .fza => true

/-- Operand and result flushing of an instruction. -/
structure Flush where
  cw : W32
  fz : Fz

def Flush.op (x : Flush) (f : Fmt) (a : Nat) : Nat := f.flush (flushOperand x.cw x.fz f) (a % 2 ^ f.width)
def Flush.res (x : Flush) (f : Fmt) (a : Nat) : Nat := f.flush (flushResult x.cw x.fz f) a
/-- An operand's exact value after operand flushing. -/
def Flush.val (x : Flush) (f : Fmt) (a : Nat) : Fp := f.decode (x.op f a)

/-! ## Quotients and roots -/

/-- round(a / b): 2^k is enough for the quotient to carry two bits more than any format keeps. -/
def Fmt.divide (f : Fmt) (rnd : Rnd) : Fp → Fp → Nat
  | .nan, _ => f.nan
  | _, .nan => f.nan
  | .inf _, .inf _ => f.nan
  | .inf a, .fin b _ _ => f.inf (a != b)
  | .fin a _ _, .inf b => f.zero (a != b)
  | .fin a m e, .fin b n k =>
    if n = 0 then (if m = 0 then f.nan else f.inf (a != b))
    else
      let s := f.mw + 3 + n.log2
      let q := m * 2 ^ s / n
      f.pack rnd (a != b) q (e - k - s) (m * 2 ^ s % n != 0)

/-- floor of the square root, from bit `i - 1` down. -/
def isqrtN : Nat → Nat → Nat → Nat
  | 0, _, r => r
  | i + 1, x, r =>
    let t := r + 2 ^ i
    isqrtN i x (if t * t ≤ x then t else r)

def isqrt (x : Nat) : Nat := isqrtN (x.log2 / 2 + 1) x 0

def Fmt.root (f : Fmt) (rnd : Rnd) : Fp → Nat
  | .nan => f.nan
  | .inf a => if a then f.nan else f.inf false
  | .fin a m e =>
    if m = 0 then f.zero a
    else if a then f.nan
    else
      let s : Nat := 2 * (f.mw + 3) + (if (e - 2 * (f.mw + 3)) % 2 = 0 then 0 else 1)
      let x := m * 2 ^ s
      let r := isqrt x
      f.pack rnd false r ((e - s) / 2) (r * r != x)

/-! ## Integers, R161, R163 -/

/-- The integer that m * 2^e rounds to. -/
def roundInt (rnd : Rnd) (neg : Bool) (m : Nat) (e : Int) : Nat := roundAt rnd neg m e 0 false

end Sys2Proof.Machine
end

