-- ==== Sys2Proof/Machine/FloatOps.lean ====
section
/-! DEFINITION. Class 0x3: floating-point instructions (spec/07 R154 to R164). -/
namespace Sys2Proof.Machine

/-! ## Elements -/

def isPacked : Ty → Bool
  | .f16x2 | .bf16x2 => true
  | _ => false

/-- A function of one format applied to a value, element by element for a packed type, R149. -/
def perElement (ty : Ty) (f : Nat → Nat → Nat → Nat) (a b c : Nat) : Nat :=
  if isPacked ty then
    f (a % 2 ^ 16) (b % 2 ^ 16) (c % 2 ^ 16) + 2 ^ 16 * f (a / 2 ^ 16) (b / 2 ^ 16) (c / 2 ^ 16)
  else f a b c

def View.flush (v : View) (m : ArithMods) : Flush := ⟨v.team.fpcw, m.fz⟩

/-- An instruction whose result is in the format of its operands. -/
def View.fp (v : View) (o : Opnds) (m : ArithMods) (f : Flush → Fmt → Nat → Nat → Nat → Nat) : Issued :=
  let fl := v.flush m
  v.arith o fun a b c => perElement o.ty (fun a b c => fl.res (.ofTy o.ty) (f fl (.ofTy o.ty) a b c)) a b c

/-! ## Arithmetic, R156, R157 -/

def execFadd (o : Opnds) (m : ArithMods) (s : State) : Host.Outcome State Fault Refusal :=
  issue (.fadd o m) o s fun v => v.fp o m fun x f a b _ => f.round m.rnd (sumFp m.rnd [x.val f a, x.val f b])

def execFsub (o : Opnds) (m : ArithMods) (s : State) : Host.Outcome State Fault Refusal :=
  issue (.fsub o m) o s fun v => v.fp o m fun x f a b _ => f.round m.rnd (sumFp m.rnd [x.val f a, (x.val f b).negate])

def execFmul (o : Opnds) (m : ArithMods) (s : State) : Host.Outcome State Fault Refusal :=
  issue (.fmul o m) o s fun v => v.fp o m fun x f a b _ => f.round m.rnd ((x.val f a).mul (x.val f b))

def execFfma (o : Opnds) (m : ArithMods) (s : State) : Host.Outcome State Fault Refusal :=
  issue (.ffma o m) o s fun v => v.fp o m fun x f a b c =>
    f.round m.rnd (sumFp m.rnd [(x.val f a).mul (x.val f b), x.val f c])

/-- R157: two products of one packed type and an f32 addend. -/
def fdot2 (x : Flush) (rnd : Rnd) (f : Fmt) (a b c : Nat) : Nat :=
  let el (y : Nat) (i : Nat) : Fp := x.val f (y / 2 ^ (16 * i) % 2 ^ 16)
  x.res .f32 (Fmt.f32.round rnd (sumFp rnd [(el a 0).mul (el b 0), (el a 1).mul (el b 1), x.val .f32 c]))

def execFdot2 (o : Opnds) (m : ArithMods) (s : State) : Host.Outcome State Fault Refusal :=
  issue (.fdot2 o m) o s fun v => v.writes (v.dst o false fun th =>
    fdot2 (v.flush m) m.rnd (.ofTy o.ty) (v.read o o.ty th o.sa) (v.read o o.ty th o.sb) (v.read o .f32 th o.sc))

/-! ## Minimum and maximum, R158 -/

/-- An order of the encodings that are no NaN, with -0 below +0. -/
def Fmt.key (f : Fmt) (x : Nat) : Int := if f.neg x then -1 - (f.mag x : Int) else f.mag x

def fminmax (x : Flush) (f : Fmt) (isMax : Bool) (a b : Nat) : Nat :=
  let a := x.op f a
  let b := x.op f b
  if f.isNan a then (if f.isNan b then f.nan else b)
  else if f.isNan b then a
  else if isMax then (if f.key a < f.key b then b else a) else (if f.key b < f.key a then b else a)

def execFmin (o : Opnds) (m : ArithMods) (s : State) : Host.Outcome State Fault Refusal :=
  issue (.fmin o m) o s fun v => v.fp o m fun x f a b _ => fminmax x f false a b

def execFmax (o : Opnds) (m : ArithMods) (s : State) : Host.Outcome State Fault Refusal :=
  issue (.fmax o m) o s fun v => v.fp o m fun x f a b _ => fminmax x f true a b

/-! ## Comparison and classification, R159, R160 -/

/-- Sign and magnitude as an integer; zeros of either sign are equal. -/
def Fmt.order (f : Fmt) (x : Nat) : Int := if f.neg x then -(f.mag x : Int) else f.mag x

def fcmpValue (f : Fmt) (cond : Fin 8) (a b : Nat) : Bool :=
  let un := f.isNan a || f.isNan b
  let x := f.order a
  let y := f.order b
  match cond.val with
  | 0 => !un && x == y
  | 1 => un || x != y
  | 2 => !un && decide (x < y)
  | 3 => !un && decide (x ≤ y)
  | 4 => !un && decide (y < x)
  | 5 => !un && decide (y ≤ x)
  | 6 => un
  | _ => !un

def execFcmp (o : Opnds) (m : ArithMods) (s : State) : Host.Outcome State Fault Refusal :=
  issue (.fcmp o m) o s fun v =>
    let x := v.flush m
    let f := Fmt.ofTy o.ty
    v.writes (v.dst o false fun th =>
      (fcmpValue f m.cond (x.op f (v.read o o.ty th o.sa)) (x.op f (v.read o o.ty th o.sb))).toNat)

/-- R160: one bit set. -/
def fclass (f : Fmt) (a : Nat) : Nat :=
  let n := f.neg a
  if f.isNan a then (if a.testBit (f.mw - 1) then 2 ^ 9 else 2 ^ 8)
  else if f.isInf a then (if n then 1 else 2 ^ 7)
  else if f.mag a = 0 then (if n then 2 ^ 3 else 2 ^ 4)
  else if f.isSub a then (if n then 2 ^ 2 else 2 ^ 5)
  else if n then 2 else 2 ^ 6

def execFclass (o : Opnds) (m : ArithMods) (s : State) : Host.Outcome State Fault Refusal :=
  issue (.fclass o m) o s fun v =>
    let f := Fmt.ofTy o.ty
    v.writes (v.dst o false fun th => fclass f ((v.flush m).op f (v.read o o.ty th o.sa)))

/-! ## Rounding to integral values, R161 -/

def frnd (f : Fmt) (rnd : Rnd) (a : Nat) : Nat :=
  match f.decode a with
  | .nan => f.nan
  | .inf n => f.inf n
  | .fin n m e => if m = 0 ∨ 0 ≤ e then a else f.pack .rz n (roundInt rnd n m e) 0 false

def execFrnd (o : Opnds) (m : ArithMods) (s : State) : Host.Outcome State Fault Refusal :=
  issue (.frnd o m) o s fun v => v.fp o m fun x f a _ _ => frnd f m.rnd (x.op f a)

/-! ## Conversion, R162, R163 -/

def isFloat : Ty → Bool
  | .f64 | .f32 | .f16 | .bf16 => true
  | _ => false

/-- R163. -/
def floatToInt (t : Ty) (rnd : Rnd) (sat : Bool) : Fp → Nat
  | .nan => 0
  | .inf n => if sat then wrap t.width (if n then Ty.minVal t else Ty.maxVal t) else 0
  | .fin n m e =>
    let x : Int := roundInt rnd n m e
    Ty.result t sat (if n then -x else x)

/-- An integer rounded to a format; 0 gives +0. -/
def intToFloat (f : Fmt) (rnd : Rnd) (x : Int) : Nat := f.pack rnd (decide (x < 0)) x.natAbs 0 false

def cvtValue (x : Flush) (m : ArithMods) (ty : Ty) (a b : Nat) : Nat :=
  let out := m.ty2
  let down (f : Fmt) (y : Nat) : Nat := x.res f (f.round m.rnd (x.val (.ofTy ty) y))
  if isPacked out then down (.ofTy out) a + 2 ^ 16 * down (.ofTy out) b
  else if isFloat out then
    if isFloat ty then down (.ofTy out) a else x.res (.ofTy out) (intToFloat (.ofTy out) m.rnd (Ty.val ty a))
  else if isFloat ty then floatToInt out m.rnd m.sat (x.val (.ofTy ty) a)
  else Ty.result out m.sat (Ty.val ty a)

def execCvt (o : Opnds) (m : ArithMods) (s : State) : Host.Outcome State Fault Refusal :=
  issue (.cvt o m) o s fun v => v.writes (v.dst o m.ty2.wide fun th =>
    cvtValue (v.flush m) m o.ty (v.read o o.ty th o.sa) (v.read o .f32 th o.sb))

/-! ## Block quantisation, R164 -/

/-- |x| / s rounded to an integer, ties to even. -/
def divInt (m : Nat) (e : Int) (n : Nat) (k : Int) : Nat :=
  let lo := min e k
  let a := m * 2 ^ (e - lo).toNat
  let b := n * 2 ^ (k - lo).toNat
  let q := a / b
  match compare (2 * (a % b)) b with
  | .lt => q
  | .gt => q + 1
  | .eq => q + q % 2

/-- The scale of the values, before result flushing: the largest finite magnitude over 127; 0 when no value is finite
(log 53). -/
def qntScale (xs : List Fp) : Nat :=
  let fins := xs.filterMap fun x => match x with | .fin _ m e => some (m, e) | _ => none
  let lo := fins.foldl (fun (l : Int) x => min l x.2) 0
  let m := fins.foldl (fun (y : Nat) x => max y (x.1 * 2 ^ (x.2 - lo).toNat)) 0
  Fmt.f32.divide .rn (.fin false m lo) (.fin false 127 0)

def qntCode (s : Fp) (x : Fp) : Int :=
  match s, x with
  | .fin _ n k, .fin neg m e =>
    if n = 0 then 0
    else
      let q : Int := min (divInt m e n k) 127
      if neg then -q else q
  | .fin _ n _, .inf neg => if n = 0 then 0 else if neg then -127 else 127
  | _, _ => 0

def execQnt (o : Opnds) (m : ArithMods) (s : State) : Host.Outcome State Fault Refusal :=
  issue (.qnt o m) o s fun v => v.once o <|
    let x := v.flush m
    let val (th : Thread) : Fp := x.val .f32 (v.read o .f32 (some th) o.sa)
    let xs := (v.active o).map val
    let bad := xs.any fun y => match y with | .fin .. => false | _ => true
    if bad && !m.sat then
      v.writes ((v.active o).flatMap (fun th => regWrite false th.tid 0 o.dst) ++ regWrite false 0 Fmt.f32.nan o.sc)
    else
      let sc := x.res .f32 (qntScale xs)
      v.writes ((v.active o).flatMap (fun th => regWrite false th.tid (wrap 8 (qntCode (Fmt.f32.decode sc) (val th))) o.dst)
        ++ regWrite false 0 sc o.sc)

end Sys2Proof.Machine
end

