-- ==== Sys2Proof/Machine/Control.lean ====
section
/-! DEFINITION. Class 0x0: clause start, transfers, meetings, barriers, cross-lane instructions, regrouping and sleeping (spec/04). -/
namespace Sys2Proof.Machine

/-! ## Blocks and grants, R112 -/

/-- Grant waiting claims strictly in order, each whole. The limit of three blocks is tested at issue only: a second claim of
one record, waiting beside the first, may pass it (log 53). -/
def Team.grantN : Nat → Nat → Team → Team
  | 0, _, t => t
  | k + 1, now, t =>
    match t.grants with
    | [] => t
    | (n, id) :: rest =>
      match (t.grp? n).bind (·.waits.find id) with
      | some ⟨_, .claim m, _⟩ =>
        if m ≤ t.pool then
          ((({ t with pool := t.pool - m, grants := rest }).modGrp n fun g => { g with h := g.h + m }).endWait now n id).grantN k now
        else t
      | _ => ({ t with grants := rest }).grantN k now

def Team.grant (t : Team) (now : Nat) : Team := t.grantN t.grants.length now

/-- Zero-mark blocks lo .. hi of the threads of record n that have not ended. -/
def Team.zeroBlocks (t : Team) (n lo hi : Nat) : Team :=
  t.modThreads (fun th => th.recno == n && th.run != .exited) fun th =>
    { th with v := th.v.filter fun x => !(decide (32 * lo ≤ x.1 ∧ x.1 < 32 * (hi + 1))),
              live := th.live.filter fun b => !(decide (lo ≤ b ∧ b ≤ hi)) }

/-- Record n returns its top m blocks. -/
def Team.giveBlocks (t : Team) (now n m : Nat) : Team :=
  match t.grp? n with
  | none => t
  | some g =>
    let t := (t.zeroBlocks n (g.h - m + 1) g.h).modGrp n fun g => { g with h := g.h - m }
    ({ t with pool := t.pool + m }).grant now

/-- A record retires: it issues nothing more and returns its blocks, R86, R112. -/
def Team.retireRec (t : Team) (now n : Nat) : Team :=
  match t.grp? n with
  | none => t
  | some g => (t.modGrp n fun g => { g with retired := true, marks := [] }).giveBlocks now n g.h

/-! ## Gangs, R277 -/

/-- A command waits to be matched with those of other records. -/
def MatCmd.awaits (c : MatCmd) : Bool := !c.failed && c.members.length > 1

/-- The gang MMA at the head of a record's queue. -/
def Grp.gangHead (g : Grp) : Option MatCmd := g.mq.head?.filter (·.awaits)

/-- Matrix commands at the heads of queues that can never be matched because a member record has retired: those of the members
that wait, and the retired record's own. -/
def Team.deadHeads (t : Team) : List (Grp × MatCmd) :=
  let retired (n : Nat) : Bool := (t.grp? n).any (·.retired)
  t.grps.filterMap fun g =>
    let dead (c : MatCmd) : Bool := c.members.any fun n => n != g.recno &&
      (retired n || (retired g.recno && ((t.grp? n).bind (·.gangHead)).any fun x => x.members.contains g.recno))
    (g.gangHead.filter dead).map fun c => (g, c)

def Team.failHead (t : Team) (n : Nat) : Team :=
  t.modGrp n fun g => { g with mq := match g.mq with | c :: r => { c with failed := true } :: r | [] => [] }

/-- FMT_DIV for the MMAs at the heads of these records' queues: reported through fw3, naming each, with ADDR 0 (log 22). -/
def State.gangFault (s : State) (r : TeamRef) (heads : List (Nat × MatCmd)) : State :=
  let s := heads.foldl (fun s x => s.modTeam r (·.failHead x.1)) s
  heads.foldl (fun s x => s.engineFault x.2.iss .fmtDiv 0 (engineDetail 0x201 x.2.fl)) s

/-- A member record of a waiting gang MMA has retired or been emptied: FMT_DIV. -/
def State.settleGangs (s : State) (r : TeamRef) : State :=
  match s.team? r with
  | none => s
  | some t => if t.ending.isSome then s else s.gangFault r (t.deadHeads.map fun x => (x.1.recno, x.2))

/-! ## Regrouping, R81 to R85 -/

/-- R81: a group eligible for compaction at H. -/
def Team.eligible (t : Team) (h : Nat) (g : Grp) : Bool :=
  let live := t.threads.filter fun th => th.recno == g.recno && th.run != .exited
  !g.retired && g.clause.isNone && g.trap.isNone && g.park.isNone && g.clear && !live.isEmpty
    && live.all fun th => th.pc == h && (th.run == .runnable || th.run == .suspended (.regrp h))

/-- The records of H's pool that shares a role and a block count with record n. -/
def Team.poolOf (t : Team) (h n : Nat) : List Nat :=
  match t.grp? n with
  | none => []
  | some g => (t.grps.filter fun x => t.eligible h x && x.role == g.role && x.h == g.h).map (·.recno)

/-- Insert by key, then by %tid. -/
def insKey (th : Thread) : List Thread → List Thread
  | [] => [th]
  | x :: xs => if th.key < x.key ∨ (th.key = x.key ∧ th.tid < x.tid) then th :: x :: xs else x :: insKey th xs

/-- R82, R83: compact the records `recs` at H. The bounds that a thread's FENCEs have put on its commands go with it (R209, log 5). Threads suspended by REGRP reach H, and are held there when their meeting
set says so (R79). -/
def Team.compact (t : Team) (now h : Nat) (recs : List Nat) : Team :=
  let movers := t.threads.filter fun th => recs.contains th.recno && th.run != .exited
  let order := movers.foldr insKey []
  let place (tid : Nat) : Nat := (order.findIdx (·.tid == tid))
  let warn := (t.grps.filter fun g => recs.contains g.recno).foldl (fun w g => w ||| g.warn) 0
  let full := (order.length + 31) / 32
  let goesTo (n : Nat) (x : Thread × Nat) : Bool := nth 0 recs (x.2 / 32) == n
  let brought (n : Nat) : List (Scope × Nat) :=
    (t.grps.filter fun g => g.recno != n && (order.zipIdx.filter (goesTo n)).any (·.1.recno == g.recno)).flatMap (·.bounds)
  let t := t.modThreads (fun th => recs.contains th.recno && th.run != .exited) fun th =>
    let i := place th.tid
    let th : Thread := { th with recno := nth 0 recs (i / 32), pos := i % 32 }
    if th.run = .suspended (.regrp h) then t.arrive1 now h th else th
  let t := (recs.take full).foldl (fun t n => t.modGrp n fun g =>
    { g with warn := warn, marks := g.marks.filter (·.head != h), bounds := g.bounds ++ brought g.recno,
             waited := if g.marks.any (·.head == h) then g.waited.put h now else g.waited }) t
  ((recs.drop full).foldl (fun t n => t.retireRec now n) t).settle now

/-- A marked group's wait at H ends: its pool compacts as it stands, with the group itself; a group that is not eligible
continues in its record (R85, R103). -/
def Team.endMark (t : Team) (now n h : Nat) : Team :=
  let pool := t.poolOf h n
  if !t.waitsAt n h then t
  else if pool.contains n then t.compact now h pool
  else
    (t.modGrp n fun g => { g with marks := g.marks.filter (·.head != h), waited := g.waited.put h now }).wakeThreads now
      fun th => th.recno == n && th.run == .suspended (.regrp h)

/-- The thread takes part in a clause in execution. -/
def Team.inClause (t : Team) (th : Thread) : Bool :=
  (t.grp? th.recno).any fun g => g.clause.any (·.issue.contains th.tid)

/-- Every non-exited thread of the role has arrived at the regroup point, R85. -/
def Team.allArrived (t : Team) (h role : Nat) : Bool :=
  t.threads.all fun th =>
    th.run == .exited || !(t.grps.any fun g => g.recno == th.recno && g.role == role)
      || (th.pc == h && (th.run == .suspended (.regrp h) || (th.run == .runnable && !t.inClause th)))

/-- End the waits of marked groups whose role has all arrived. -/
def Team.settleMarks (t : Team) (now : Nat) : Team :=
  t.grps.foldl (fun t g => g.marks.foldl (fun t m => if t.allArrived m.head g.role then t.endMark now g.recno m.head else t) t) t

/-- The waits at regroup points that every thread of the role has reached, by whatever path, end (R85). -/
def State.settleRegroups (s : State) : State :=
  s.teamList.foldl (fun s t =>
    if t.ending.isSome || t.grps.all (·.marks.isEmpty) then s
    else (s.modTeam t.ref (·.settleMarks s.sched.steps)).settleGangs t.ref) s

/-! ## Barriers, R95, R96 -/

/-- Exited threads that did not arrive in the phase; one whose arrival was carried to the next had arrived in it. -/
def Team.exitedMissing (t : Team) (bid phase : Nat) : Nat :=
  (t.threads.filter fun th => th.run == .exited && !(th.pend.get none bid).any fun p => decide (phase ≤ p)).length

/-- Complete phases while the test holds. -/
def Team.barSettleN : Nat → Team → Nat → Nat → Team
  | 0, t, _, _ => t
  | k + 1, t, now, bid =>
    let b := nth ⟨0, 0, none, []⟩ t.bars bid
    let done := match b.exp with
      | none => false
      | some 0 => decide (b.arr + t.exitedMissing bid b.phase = t.hdr.threads)
      | some e => decide (e ≤ b.arr)
    if done then
      let next (b : Barrier) : Barrier := ⟨b.phase + 1, b.carry.length, b.carry.head?.map (·.2), []⟩
      let t := { t with bars := modNth next t.bars bid }
      let t := t.wakeThreads now fun th =>
        th.run == .suspended (.bar bid) && (th.pend.get none bid).any (fun p => decide (p ≤ b.phase))
      t.barSettleN k now bid
    else t

def Team.barSettle (t : Team) (now bid : Nat) : Team := t.barSettleN 4 now bid

/-- One thread arrives. -/
def Team.barArrive (t : Team) (now bid tid count : Nat) : Team :=
  match t.thread? tid with
  | none => t
  | some th =>
    let b := nth ⟨0, 0, none, []⟩ t.bars bid
    let p := if th.pend.get none bid = some b.phase then b.phase + 1 else b.phase
    let f (b : Barrier) : Barrier :=
      if p = b.phase then { b with exp := some (b.exp.getD count), arr := b.arr + 1 }
      else { b with carry := b.carry ++ [(tid, count)] }
    let t := { t with bars := modNth f t.bars bid }
    (t.modThread tid fun th => { th with pend := th.pend.set none bid (some p) }).barSettle now bid

/-- The thread's pending phase of the barrier has not completed. -/
def Team.barPending (t : Team) (bid tid : Nat) : Bool :=
  match t.thread? tid with
  | none => false
  | some th => (th.pend.get none bid).any fun p => decide ((nth ⟨0, 0, none, []⟩ t.bars bid).phase ≤ p)

/-! ## Starting a clause, R27 -/

/-- The slot at an address, fetched as it stands: none when its line cannot be fetched. -/
def State.peek (s : State) (core asid a : Nat) : Option Slot :=
  match s.fetchLine core asid (a / 64 * 64) with
  | .line x _ => some (lineSlot x (a % 8))
  | .fault .. => none

/-- Slot p of a clause, fetched as it stands. -/
def State.peekSlot (s : State) (core asid head p : Nat) : Option Slot := s.peek core asid (slotAddr head p)

/-- Matrix commands that a clause holds. -/
def State.matrixCount (s : State) (core asid head len : Nat) : Nat :=
  ((List.range len).filter fun p => (s.peekSlot core asid head (p + 1)).any isMatrix).length

/-- The room in its group's queue that a clause needs to start, R264: one that holds more than eight commands faults at the
ninth, and needs no more. -/
def State.matrixNeed (s : State) (core asid head len : Nat) : Nat := min (s.matrixCount core asid head len) 8

/-- Every flag named by the mask reads clear. -/
def Grp.waitClear (g : Grp) (w : BitVec 12) : Bool := (List.range 12).all fun n => !w.getLsbD n || nth 0 g.flags n == 0

/-- The group can start this header's clause, R27, R75, R264. -/
def State.ready (s : State) (t : Team) (g : Grp) (pc : Nat) (h : Header) : Bool :=
  t.ending.isNone && !g.retired && g.clause.isNone && g.park.isNone && g.stall.isNone
    && (!h.rgp || g.clear) && g.waitClear h.wait
    && decide (s.matrixNeed t.ref.core t.asid pc h.len.val + g.mq.length ≤ 8)

/-- Commands of the flags in a WAIT mask are observed, R208. -/
def Grp.observe (g : Grp) (w : BitVec 12) : Grp :=
  { g with seen := g.seen ++ (g.done_.filter fun x => w.getLsbD x.1.val).map fun x => (x.2, none),
           done_ := g.done_.filter fun x => !w.getLsbD x.1.val }

/-- The lines of a clause that can be fetched as it starts; any other is fetched when the clause reaches it (log 50). -/
def State.fetchClause (s : State) (core asid pc len : Nat) : State × Tab (BitVec 512) :=
  (List.range ((pc % 8 + len) / 5 + 1)).foldl (fun (x : State × Tab (BitVec 512)) k =>
    let va := (pc / 64 * 64 + 64 * k) % 2 ^ 64
    match x.1.fetchLine core asid va with
    | .line l s => (s, x.2.put va (BitVec.ofNat 512 l))
    | .fault .. => x) (s, [])

/-- What temporary n of a thread holds until the clause writes it (log 50). -/
def State.freeTemp (s : State) (tid n : Nat) : W32 := BitVec.ofNat 32 (s.choose [25, tid, n])
def State.freeTemps (s : State) (tid : Nat) : Tab W32 := (List.range 8).foldl (fun m n => m.set 0 n (s.freeTemp tid n)) []
/-- What the latches hold until the clause fills them. -/
def State.freeLatches (s : State) (tids : List Nat) : List Latch :=
  (List.range 3).map fun j => ⟨0, tids.map fun t => (t, BitVec.ofNat 64 (s.choose [26, t, j]))⟩

/-- The clause at pc starts for the record's runnable threads there. -/
def State.startClause (s : State) (t : Team) (n pc : Nat) (h : Header) (lines : Tab (BitVec 512)) : Team :=
  let set := (t.runnable n).filter (·.pc == pc)
  if set.isEmpty then t
  else
    let t := t.modThreads (fun th => th.recno == n && th.run == .runnable && th.pc == pc)
      fun th => { th with c := s.freeTemps th.tid, key := 0, keyed := false }
    t.modGrp n fun g =>
      { g.observe h.wait with
        passes := 0, youngest := false,
        clause := some ⟨pc, h, 1, set.map (·.tid), s.freeLatches (set.map (·.tid)), lines, [], none, false, false, []⟩ }

/-- At an RGP header the part may compact the group with others of its pool, by free choice; not threads that came there
by REGRP, whose compaction has been made (R82). -/
def State.rgpChoice (s : State) (t : Team) (n pc : Nat) : Team :=
  let pool := (t.poolOf pc n).filter fun r => !t.threads.any fun th => th.recno == r && th.keyed && th.run != .exited
  if pool.contains n && s.choose [7, n] % 2 == 1 then
    t.compact s.sched.steps pc (pool.filter fun r => r == n || s.choose [8, n, r] % 2 == 1)
  else t

/-- CLAUSE_HEADER. A group that is not ready waits. -/
def execClauseHeader (h : Header) (s : State) : Host.Outcome State Fault Refusal :=
  match s.sched.cur with
  | none => .fault .noIssuer
  | some i =>
    match s.team? i.team with
    | none => .fault .noIssuer
    | some t =>
      match t.grp? i.recno, t.choosePC i.recno with
      | some g, some pc =>
        if s.ready t g pc h then
          let t := if h.rgp then s.rgpChoice t i.recno pc else t
          let x := s.fetchClause t.ref.core t.asid pc h.len.val
          .next ((x.1.modTeam i.team fun _ => s.startClause t i.recno pc h x.2).settleGangs i.team)
        else .next s
      | _, _ => .next s

/-! ## Transfers, R89 to R94 -/

def execNop (o : Opnds) (s : State) : Host.Outcome State Fault Refusal := issue (.nop o) o s fun v => .done v.s

/-- The fault of the first thread whose target fails R21. -/
def View.badLanding (v : View) (ts : List (Nat × Nat)) (perThread : Bool) : Option FaultInfo :=
  ts.findSome? fun x => (v.s.landing v.iss.team.core v.team.asid x.2).map fun f =>
    { f with tid := if perThread then some x.1 else none }

/-- Send the active threads to targets, each checked by R21; the first failing thread's fault is raised. -/
def View.transfer (v : View) (s : State) (ts : List (Nat × Nat)) (perThread : Bool) : Issued :=
  match v.badLanding ts perThread with
  | some f => .fault f
  | none => .done (v.capture s (.go ts))

/-- Every active thread, with one target or its own. -/
def View.allTo (v : View) (o : Opnds) (x : Nat) : List (Nat × Nat) := (v.active o).map fun th => (th.tid, x)
def View.eachTo (v : View) (o : Opnds) : List (Nat × Nat) := (v.active o).map fun th => (th.tid, v.read o .u64 (some th) o.sa)

/-- BRC's counter as its mode leaves it, and its decision, R90. -/
def View.brcTakes (v : View) (o : Opnds) (m : BrcMode) : Nat × Bool :=
  let c := v.scalar o .u64 o.sa
  let c := match m with | .dec => (c + (2 ^ 64 - 1)) % 2 ^ 64 | _ => c
  (c, match m with | .dec | .nz => c != 0 | .z => c == 0)

def execBra (o : Opnds) (s : State) : Host.Outcome State Fault Refusal :=
  issue (.bra o) o s fun v => v.transfer v.s (v.allTo o (target v.pc o.imm)) false

def execBrc (o : Opnds) (m : BrcMode) (s : State) : Host.Outcome State Fault Refusal :=
  issue (.brc o m) o s fun v => v.once o <|
    let c := v.brcTakes o m
    let s := match m with | .dec => v.s.applyWrites v.iss (regWrite false 0 c.1 o.sa) | _ => v.s
    if c.2 then v.transfer s (v.allTo o (target v.pc o.imm)) false else .done s

/-- BRI and RET, R91. -/
def View.indirect (v : View) (o : Opnds) : Issued :=
  v.transfer v.s (v.eachTo o) true

def execBri (o : Opnds) (s : State) : Host.Outcome State Fault Refusal := issue (.bri o) o s fun v => v.indirect o
def execRet (o : Opnds) (s : State) : Host.Outcome State Fault Refusal := issue (.ret o) o s fun v => v.indirect o

def execCall (o : Opnds) (s : State) : Host.Outcome State Fault Refusal :=
  issue (.call o) o s fun v =>
    let s := v.s.applyWrites v.iss (v.dst o true fun _ => v.following)
    v.transfer s (v.allTo o (target v.pc o.imm)) false

/-- X is not a header address, as the code stands: a MEET at it holds no thread (R80). Of one that cannot be fetched this is not
known (log 54). -/
def View.noHeader (v : View) (x : Nat) : Bool := (v.s.peek v.iss.team.core v.team.asid x).any fun w => !isHeader w

/-- R78, R93. -/
def execMeet (o : Opnds) (m : MeetMode) (s : State) : Host.Outcome State Fault Refusal :=
  issue (.meet o m) o s fun v => v.once o <|
    let tids := (v.active o).map (·.tid)
    match m with
    | .clr => .done (v.s.modTeam v.iss.team fun t => t.modThreads (fun th => tids.contains th.tid) fun th => { th with meet := 0 })
    | .set =>
      let x := target v.pc o.imm
      .done (v.s.modTeam v.iss.team fun t =>
        let id := t.msets.length + 1
        let t := t.modThreads (fun th => tids.contains th.tid) fun th => { th with meet := x, mset := id }
        { t with msets := t.msets ++ [⟨id, x, tids, v.noHeader x⟩] })

def execExit (o : Opnds) (s : State) : Host.Outcome State Fault Refusal :=
  issue (.exit o) o s fun v => .done (v.capture v.s (.exit ((v.active o).map (·.tid))))

/-! ## Barriers, R96, R97 -/

def View.barriers (v : View) (o : Opnds) (bid : Nat) : State :=
  v.s.modTeam v.iss.team fun t =>
    (v.active o).foldl (fun t th => t.barArrive v.s.sched.steps bid th.tid (v.read o .u32 (some th) o.sa)) t

def execBar (o : Opnds) (bid : Fin 16) (s : State) : Host.Outcome State Fault Refusal :=
  issue (.bar o bid) o s fun v => .done (v.capture (v.barriers o bid.val) (.bar bid.val ((v.active o).map (·.tid))))

def execBara (o : Opnds) (bid : Fin 16) (s : State) : Host.Outcome State Fault Refusal :=
  issue (.bara o bid) o s fun v => .done (v.barriers o bid.val)

def execBarw (o : Opnds) (bid : Fin 16) (s : State) : Host.Outcome State Fault Refusal :=
  issue (.barw o bid) o s fun v => .done (v.capture v.s (.bar bid.val ((v.active o).map (·.tid))))

/-! ## Cross-lane instructions, R98 to R102 -/

def View.vote (v : View) (o : Opnds) : VoteMode → Bool
  | .all => (v.active o).all fun th => v.read o .u32 (some th) o.sa != 0
  | .any => (v.active o).any fun th => v.read o .u32 (some th) o.sa != 0
  | .uni => match (v.active o).map fun th => v.read o o.ty (some th) o.sa with
    | [] => true
    | x :: xs => xs.all (· == x)

def execVote (o : Opnds) (m : VoteMode) (s : State) : Host.Outcome State Fault Refusal :=
  issue (.vote o m) o s fun v => v.writes (v.dst o false fun _ => (v.vote o m).toNat)

/-- The mask of R99: bit i for an active thread with %tid base + i whose predicate is true. -/
def View.ballot (v : View) (o : Opnds) (w base : Nat) : Nat :=
  (List.range w).foldl (fun m i =>
    if (v.active o).any fun th => th.tid == base + i && v.read o .u32 (some th) o.sa != 0 then m + 2 ^ i else m) 0

def execBallot (o : Opnds) (s : State) : Host.Outcome State Fault Refusal :=
  issue (.ballot o) o s fun v => v.writes (v.dst o o.ty.wide fun _ => v.ballot o o.ty.width (v.scalar o .u32 o.sb))

/-- A register of a thread outside the issue set, R100, R113, R323. -/
def Team.crossV (t : Team) (wide : Bool) (th : Thread) (n : Nat) : Nat :=
  let h := if th.run = .exited then th.endH else ((t.grp? th.recno).map (·.h)).getD 0
  if n ≤ 32 * h + 31 then pairOf wide th.getV n else 0

/-- Operand SA of thread j as a cross-lane read obtains it; none where R100 gives the fill. -/
def View.crossRead (v : View) (o : Opnds) (j : Nat) : Option Nat :=
  match v.present.find? (·.tid == j) with
  | some th => some (v.read o o.ty (some th) o.sa)
  | none =>
    match o.sa, v.team.thread? j with
    | .v n, some th => some (v.team.crossV o.ty.wide th n.val)
    | _, _ => none

def View.shuf (v : View) (o : Opnds) (m : ShufMode) (th : Thread) : Nat :=
  let i := v.read o .u32 (some th) o.sb
  let j : Int := match m with
    | .idx => i
    | .xor => (th.tid ^^^ i : Nat)
    | .up => (th.tid : Int) - i
    | .down => th.tid + i
  let fill := v.read o o.ty (some th) o.sc
  if j < 0 ∨ (v.team.hdr.threads : Int) ≤ j then fill else (v.crossRead o j.toNat).getD fill

def execShuf (o : Opnds) (m : ShufMode) (s : State) : Host.Outcome State Fault Refusal :=
  issue (.shuf o m) o s fun v => v.writes ((v.active o).flatMap fun th => regWrite o.ty.wide th.tid (v.shuf o m th) o.dst)

/-- The sender that wins at a receiver, R101. -/
def View.sender (v : View) (o : Opnds) (m : PushMode) (r : Thread) : Option Thread :=
  let c := (v.active o).filter fun th => v.read o .u32 (some th) o.sb == r.tid
  match m with
  | .hi => c.getLast?
  | .lo => c.head?

def execPush (o : Opnds) (m : PushMode) (s : State) : Host.Outcome State Fault Refusal :=
  issue (.push o m) o s fun v => v.writes (v.present.flatMap fun r =>
    match v.sender o m r with
    | some th => regWrite o.ty.wide r.tid (v.read o o.ty (some th) o.sa) o.dst
    | none => [])

/-- A key as a number whose order is the one R102 gives: value for integers, totalOrder for floats. -/
def rankKey (ty : Ty) (x : Nat) : Int :=
  match ty with
  | .s32 | .s64 => sval ty.width x
  | .f32 | .f64 => if x < 2 ^ (ty.width - 1) then (x : Int) else 2 ^ (ty.width - 1) - 1 - (x : Int)
  | _ => x

def View.rank (v : View) (o : Opnds) (m : RankMode) (th : Thread) : Nat :=
  let key (u : Thread) : Int := rankKey o.ty (v.read o o.ty (some u) o.sa)
  let before (a b : Int) : Bool := match m with | .desc => decide (b < a) | .asc => decide (a < b)
  let n := ((v.active o).filter fun u => u.tid != th.tid && (before (key u) (key th) || (key u == key th && decide (u.tid < th.tid)))).length
  (v.read o .u32 (some th) o.sb + n) % 2 ^ 32

def execRank (o : Opnds) (m : RankMode) (s : State) : Host.Outcome State Fault Refusal :=
  issue (.rank o m) o s fun v => v.writes ((v.active o).flatMap fun th => regWrite false th.tid (v.rank o m th) o.dst)

/-! ## Regrouping, sleeping, yielding, R103 to R105 -/

/-- Every present thread waits at the following header, an inactive one with key 0, R103. -/
def View.regrpKeys (v : View) (o : Opnds) : List (Nat × Nat) :=
  if v.any o then v.present.map fun th => (th.tid, if th.active o then v.read o .u32 (some th) o.sa else 0) else []

def execRegrp (o : Opnds) (s : State) : Host.Outcome State Fault Refusal :=
  issue (.regrp o) o s fun v => .done (v.capture v.s (.regrp (v.regrpKeys o)))

/-- REGRP_WAIT_TIMEOUT: the 512 clk bound of a marked group (R85). It cannot come before 512 clk at 2.1 GHz; when it does
come is the schedule's (log 18). -/
def execRegrpWaitTimeout (t : TeamRef) (rec : Nat) (s : State) : Host.Outcome State Fault Refusal :=
  let due (t : Team) : List Mark :=
    if t.ending.isSome then [] else ((t.grp? rec).elim [] (·.marks)).filter fun m => decide (512000 ≤ 2100 * (s.clock.time - m.since))
  .next ((s.modTeam t fun t => (due t).foldl (fun t m => t.endMark s.sched.steps rec m.head) t).settleGangs t)

def execSleep (o : Opnds) (m : SleepMode) (s : State) : Host.Outcome State Fault Refusal :=
  issue (.sleep o m) o s fun v => v.once o <|
    let wake := match m with
      | .rel => v.s.clock.time + v.scalar o .u32 o.sa
      | .abs => v.scalar o .u64 o.sa
    .done (v.capture v.s (.sleep wake ((v.active o).map (·.tid))))

/-- SLEEP_WAKE: TIME has reached the thread's wake time. -/
def execSleepWake (t : TeamRef) (tid : Nat) (s : State) : Host.Outcome State Fault Refusal :=
  .next (s.modTeam t fun t => t.wakeThreads s.sched.steps fun th =>
    th.tid == tid && match th.run with | .suspended (.sleep w) => decide (w ≤ s.clock.time) | _ => false)

def execYield (o : Opnds) (s : State) : Host.Outcome State Fault Refusal :=
  issue (.yield o) o s fun v => .done (v.capture v.s (.yield ((v.active o).map (·.tid))))

end Sys2Proof.Machine
end

