-- ==== Sys2Proof/Machine/MemOps.lean ====
section
/-! DEFINITION. Class 0x5: loads and stores, prefetch, instruction-cache flush; LOAD_COMPLETE, page-table writes and unparking (spec/08 R183 to R199). -/
namespace Sys2Proof.Machine

/-! ## Elements of an access, R183 -/

def Ty.bytes (t : Ty) : Nat := t.width / 8

/-- The register k places above a field's own. -/
def specPlus (sp : Spec) (k : Nat) : Spec :=
  match sp with
  | .v n => if h : n.val + k < 128 then .v ⟨n.val + k, h⟩ else .zero
  | .s n => if h : n.val + k < 64 then .s ⟨n.val + k, h⟩ else .zero
  | .c n => if h : n.val + k < 8 then .c ⟨n.val + k, h⟩ else .zero
  | sp => sp

/-- The register of element i of a field. -/
def elemSpec (ty : Ty) (sp : Spec) (i : Nat) : Spec :=
  match sp with
  | .s _ => specPlus sp i
  | _ => specPlus sp (if ty.wide then 2 * i else i)

/-- A loaded element as its register holds it. -/
def extend (ty : Ty) (sp : Spec) (x : Nat) : Nat :=
  match ty with
  | .s8 | .s16 | .s32 => wrap (if isSReg sp then 64 else 32) (sval ty.width x)
  | _ => x

/-- The register writes of a load's bytes for one thread. -/
def loadWrites (ty : Ty) (n : Nat) (dst : Spec) (tid : Nat) (bs : List Byte) : List RegWrite :=
  (List.range n).flatMap fun i =>
    let x := leNat ((bs.drop (i * Ty.bytes ty)).take (Ty.bytes ty))
    regWrite ty.wide tid (extend ty dst x) (elemSpec ty dst i)

/-- The bytes a store takes from a thread's registers. -/
def View.storeBytes (v : View) (o : Opnds) (n : Nat) (th : Thread) : List Byte :=
  (List.range n).flatMap fun i => leBytes (Ty.bytes o.ty) (v.read o o.ty (some th) (elemSpec o.ty o.sb i))

/-! ## Addresses, R193, R195 -/

/-- The virtual address of a thread's access, or of the group's. -/
def View.address (v : View) (o : Opnds) (th : Option Thread) : Nat := wrap 64 (v.read o .u64 th o.sa + immOff o.imm)

/-- The scratch offset of a thread's access: exact, without wrap. -/
def View.offset (v : View) (o : Opnds) (th : Option Thread) : Int := v.read o .u32 th o.sa + immOff o.imm

/-! ## Checks, R186 -/

/-- The pieces of every active thread, checked; the lowest %tid and then the lowest address comes first. -/
def View.checkVirt (v : View) (ths : List Thread) (addr : Thread → Nat) (size : Nat) (need : Right) (frames : List PhysKind) : Check :=
  firstFail (ths.flatMap fun th => (pieces (addr th) size).map fun p =>
    (v.s.checkPiece v.team.asid need frames p).forThread th.tid)

/-- Scratch pieces from an exact offset; a piece of a negative offset is its first byte. -/
def scratchPieces (o : Int) (size : Nat) : List (Int × Nat) :=
  if o < 0 then [(o, 1)] else (piecesN size o.toNat size).map fun x => ((x.1 : Int), x.2)

def View.checkScratch (v : View) (ths : List Thread) (off : Thread → Int) (size : Nat) : Check :=
  firstFail (ths.flatMap fun th => (scratchPieces (off th) size).map fun p =>
    (scratchCheck v.team.hdr.scratch p).forThread th.tid)

/-! ## Poison, R417 -/

/-- The first poisoned line that a virtual access reads. -/
def View.poisonAt (v : View) (addrs : List (Nat × Nat)) : Option Nat :=
  (addrs.filterMap fun p =>
    let pa := (v.s.place1 v.team.asid p.1 rightR).1
    if v.s.poisoned pa then some pa else none).head?

/-! ## Hints, R181 -/

def hintAgainst (h : Hint) (ca : Nat) : Bool :=
  match h with
  | .strm => ca != 0
  | .l2 => ca == 2
  | _ => false

/-- Some piece of the addresses has its hint contradicted. -/
def State.hintWarn (s : State) (asid : Nat) (h : Hint) (need : Right) (addrs : List (Nat × Nat)) : Bool :=
  addrs.any fun p => match s.translate asid p.1 need with
    | .ok l => hintAgainst h l.ca
    | _ => false

/-! ## Entering a load's results, R30, R193 -/

/-- Results go to the registers at once, or arrive with the flag: `lost` in their place if the guest's port is fenced
before (R401). -/
def View.deliver (v : View) (i : Instr) (o : Opnds) (kind : LandKind) (s : State) (ws : List RegWrite) (lost : List RegWrite := []) : State :=
  match o.fl with
  | none => s.applyWrites v.iss ws
  | some f =>
    let n := s.newCmd
    let s := v.enter i o n.2
    { s with eng := { s.eng with landings := s.eng.landings ++ [⟨n.1, v.iss, some f, kind, ws, lost⟩] } }

/-- The piece lies in guest memory. -/
def View.guestPiece (v : View) (p : Nat × Nat) : Bool := physKind (v.s.place1 v.team.asid p.1 rightR).1 == .guest

/-- The bytes of a piece that is read, and those of a guest that the fence has cut off: all ones. -/
def View.pieceBytes (v : View) (p : Nat × Nat) : List Byte := v.s.virtRead v.team.writer v.team.asid p.1 p.2 rightR
def View.lostBytes (v : View) (p : Nat × Nat) : List Byte := if v.guestPiece p then List.replicate p.2 0xFF else v.pieceBytes p

def View.warnIf (v : View) (b : Bool) (n : Nat) (s : State) : State := if b then s.setWarn v.iss n else s

/-! ## Loads and stores -/

def execLd (o : Opnds) (m : MemMods) (s : State) : Host.Outcome State Fault Refusal :=
  issue (.ld o m) o s fun v => v.once o <|
    let n := m.vec.count
    let size := n * Ty.bytes o.ty
    let ths := v.active o
    let addr (th : Thread) : Nat := v.address o (some th)
    let ps (th : Thread) : List (Nat × Nat) := pieces (addr th) size
    let ws (bytes : Nat × Nat → List Byte) : List RegWrite :=
      ths.flatMap fun th => loadWrites o.ty n o.dst th.tid ((ps th).flatMap bytes)
    let all := ths.flatMap ps
    v.checked (v.checkVirt ths addr size rightR anyFrame) <|
      match v.poisonAt all with
      | some pa => .mchk pa ((ths.find? fun th => (v.poisonAt (ps th)).isSome).map (·.tid))
      | none =>
        let s := v.deliver (.ld o m) o .load v.s (ws v.pieceBytes) (if all.any v.guestPiece then ws v.lostBytes else [])
        .done (v.warnIf (v.s.hintWarn v.team.asid m.hint rightR all) 1 s)

/-- Write a run of bytes at a virtual address, piece by piece. -/
def State.virtStore (s at_ : State) (by_ : Writer) (asid a : Nat) (bs : List Byte) : State :=
  ((piecesN bs.length a bs.length).foldl
    (fun (st : State × List Byte) p => (st.1.virtWrite at_ by_ asid (p.1 % 2 ^ 64) (st.2.take p.2), st.2.drop p.2)) (s, bs)).1

/-- Lines of physical memory that the pieces cover whole. -/
def State.wholeLines (s : State) (asid : Nat) (ps : List (Nat × Nat)) : List Nat :=
  s.mem.poison.filter fun line => (List.range 128).all fun j =>
    ps.any fun p =>
      let pa := (s.place1 asid p.1 rightW).1
      decide (pa ≤ 128 * line + j ∧ 128 * line + j < pa + p.2)

def execSt (o : Opnds) (m : MemMods) (s : State) : Host.Outcome State Fault Refusal :=
  issue (.st o m) o s fun v => v.once o <|
    let n := m.vec.count
    let size := n * Ty.bytes o.ty
    let ths := v.active o
    let addr (th : Thread) : Nat := v.address o (some th)
    let all := ths.flatMap fun th => pieces (addr th) size
    v.checked (v.checkVirt ths addr size rightW anyFrame) <|
      let s := ths.foldl (fun s th => s.virtStore v.s v.team.writer v.team.asid (addr th) (v.storeBytes o n th)) v.s
      let s := (v.s.wholeLines v.team.asid all).foldl State.clean s
      .done (v.warnIf (v.s.hintWarn v.team.asid m.hint rightW all) 1 s)

def execLds (o : Opnds) (m : MemMods) (s : State) : Host.Outcome State Fault Refusal :=
  issue (.lds o m) o s fun v => v.once o <|
    let n := m.vec.count
    let size := n * Ty.bytes o.ty
    let ths := v.active o
    let off (th : Thread) : Int := v.offset o (some th)
    v.checked (v.checkScratch ths off size) <|
      .done (v.deliver (.lds o m) o .load v.s (ths.flatMap fun th =>
        loadWrites o.ty n o.dst th.tid (v.s.scratchRead v.team (off th).toNat size)))

def execSts (o : Opnds) (m : MemMods) (s : State) : Host.Outcome State Fault Refusal :=
  issue (.sts o m) o s fun v => v.once o <|
    let n := m.vec.count
    let ths := v.active o
    let off (th : Thread) : Int := v.offset o (some th)
    v.checked (v.checkScratch ths off (n * Ty.bytes o.ty)) <|
      .done (ths.foldl (fun s th => s.scratchWrite v.iss.team (off th).toNat (v.storeBytes o n th)) v.s)

/-- One access for the group, R196. -/
def execLdc (o : Opnds) (m : MemMods) (s : State) : Host.Outcome State Fault Refusal :=
  issue (.ldc o m) o s fun v => v.once o <|
    let n := m.vec.count
    let size := n * Ty.bytes o.ty
    let ps := pieces (v.address o none) size
    let ws (bytes : Nat × Nat → List Byte) : List RegWrite :=
      if isSReg o.dst then loadWrites o.ty n o.dst 0 (ps.flatMap bytes)
      else (v.active o).flatMap fun th => loadWrites o.ty n o.dst th.tid (ps.flatMap bytes)
    v.checked (firstFail (ps.map (v.s.checkPiece v.team.asid rightR anyFrame))) <|
      match v.poisonAt ps with
      | some pa => .mchk pa none
      | none => .done (v.deliver (.ldc o m) o .load v.s (ws v.pieceBytes) (if ps.any v.guestPiece then ws v.lostBytes else []))

/-! ## Prefetch and flush, R197, R198 -/

/-- A prefetch changes no value but W1. DESIGN CHOICE: the model has no TLB, so a prefetch never meets a full one, and a contradicted
hint always sets W1 (log 9). -/
def execPfx (o : Opnds) (m : MemMods) (s : State) : Host.Outcome State Fault Refusal :=
  issue (.pfx o m) o s fun v =>
    let addrs := ((v.active o).map fun th => (v.address o (some th), 1)).filter fun p =>
      match v.s.checkPiece v.team.asid rightR anyFrame p with
      | .pass => true
      | _ => false
    .done (v.warnIf (v.s.hintWarn v.team.asid m.hint rightR addrs) 1 v.s)

/-- Lines of the issuing core under the team's ASID leave its instruction cache. -/
def State.flushLines (s : State) (core asid a len : Nat) : State :=
  if len = 0 then s
  else { s with mem := { s.mem with icache := s.mem.icache.filter fun e =>
    !(e.core == core && e.asid == asid && decide (a / 64 ≤ e.va / 64 ∧ e.va / 64 ≤ (a + len - 1) / 64)) } }

def execIflush (o : Opnds) (s : State) : Host.Outcome State Fault Refusal :=
  issue (.iflush o) o s fun v => v.once o <|
    .done (v.s.flushLines v.iss.team.core v.team.asid (v.address o none) (v.scalar o .u32 o.sb))

/-! ## Completion of a flagged load, R34 -/

/-- A register write that does not go to a thread that has ended: its registers keep their values (R86, R323). -/
def Team.live (t : Team) : RegWrite → Bool
  | .v tid _ _ | .c tid _ _ | .k tid _ _ => (t.thread? tid).any (·.run != .exited)
  | .s .. => true

/-- The landing numbered n, of a kind: its registers are written and its flag counts down. -/
def State.landed (s : State) (n : Nat) (kind : LandKind) : State :=
  match s.eng.landings.find? (fun l => l.num == n && l.kind == kind) with
  | none => s
  | some l =>
    let s : State := { s with eng := { s.eng with landings := s.eng.landings.filter fun x => x.num != n } }
    ((s.modTeam l.iss.team fun t => t.applyWrites l.iss.recno (l.writes.filter t.live)).flagDown l.iss l.fl n).tryEnd l.iss.team

def execLoadComplete (n : Nat) (s : State) : Host.Outcome State Fault Refusal := .next (s.landed n .load)

/-! ## Replay, R188 -/

/-- fw2 writes page-table entries: aligned words of HBM. -/
def State.tableWrites (s : State) (ws : List (Nat × W64)) : State :=
  ws.foldl (fun s x =>
    if physKind x.1 = .hbm ∧ x.1 % 8 = 0 then s.physWrite ⟨none, none⟩ 0 x.1 (leBytes 8 x.2.toNat) else s) s

/-- A group that was parked is no longer: it issues its instruction again when its quadrant is free, or its fault is
raised. -/
def State.unpark (s : State) (i : Issuer) : State := s.modGrp i fun g => { g with park := none }

end Sys2Proof.Machine
end

