-- ==== Sys2Proof/Machine/Atomics.lean ====
section
/-! DEFINITION. Class 0x6: atomics, FENCE and WAITA, with the steps that end a WAITA (spec/09 R211 to R218). -/
namespace Sys2Proof.Machine

/-! ## Checks, R213 -/

def atomicFrames : List PhysKind := [.hbm, .host]

/-- Orders 1 to 5 for one address. -/
def State.checkAtomic (s : State) (asid : Nat) (need : Right) (a n : Nat) : Check :=
  if !canonical a then .fail { code := .xlate, val := some a }
  else if a % n ≠ 0 then .fail { code := .align, val := some a }
  else s.checkPiece asid need atomicFrames (a, n)

/-! ## One atomic, R214 -/

/-- One thread's atomic at the home slice: reads the old value, then writes the new one, if there is one, with nothing between the
two (R202). -/
def State.atomic1 (s : State) (v : View) (a n : Nat) (f : Nat → Option Nat) : State × Nat :=
  let l := v.s.place1 v.team.asid a { r := true, w := true }
  let s := s.joinBefore l.1 n
  let old := leNat (s.physRead v.team.writer l.2 l.1 n)
  match f old with
  | some x => (s.physWrite v.team.writer l.2 l.1 (leBytes n x), old)
  | none => (s, old)

/-- The threads' atomics in ascending %tid order, with the value each read, R215. -/
def View.atomics (v : View) (o : Opnds) (f : Thread → Nat → Option Nat) : State × List (Nat × Nat) :=
  (v.active o).foldl (fun (st : State × List (Nat × Nat)) th =>
    let r := st.1.atomic1 v (v.address o (some th)) (Ty.bytes o.ty) (f th)
    (r.1, st.2 ++ [(th.tid, r.2)])) (v.s, [])

/-- The frame of an atomic: checks, the accesses, the old values. `f` gives the new value from a thread's old one. -/
def View.atomic (v : View) (i : Instr) (o : Opnds) (m : AtomMods) (f : Thread → Nat → Option Nat) : Issued :=
  v.once o <|
    let n := Ty.bytes o.ty
    let ths := v.active o
    let addr (th : Thread) : Nat := v.address o (some th)
    v.checked (firstFail (ths.map fun th =>
        (v.s.checkAtomic v.team.asid { r := true, w := true } (addr th) n).forThread th.tid)) <|
      match v.poisonAt (ths.map fun th => (addr th, n)) with
      | some pa => .mchk pa ((ths.find? fun th => (v.poisonAt [(addr th, n)]).isSome).map (·.tid))
      | none =>
        let r := v.atomics o f
        let ws := if m.ret then r.2.flatMap fun x => regWrite o.ty.wide x.1 x.2 o.dst else []
        .done (v.deliver i o .atomic r.1 ws)

/-- Operand SB of a thread under TY. -/
def View.opB (v : View) (o : Opnds) (th : Thread) : Nat := v.read o o.ty (some th) o.sb

/-- An integer operation on the old value and SB. -/
def View.atomic2 (v : View) (i : Instr) (o : Opnds) (m : AtomMods) (f : Nat → Nat → Nat) : Issued :=
  v.atomic i o m fun th old => some (f old (v.opB o th))

def execAadd (o : Opnds) (m : AtomMods) (s : State) : Host.Outcome State Fault Refusal :=
  issue (.aadd o m) o s fun v => v.atomic2 (.aadd o m) o m fun old b => (old + b) % 2 ^ o.ty.width

def execAmin (o : Opnds) (m : AtomMods) (s : State) : Host.Outcome State Fault Refusal :=
  issue (.amin o m) o s fun v => v.atomic2 (.amin o m) o m fun old b => if Ty.val o.ty b < Ty.val o.ty old then b else old

def execAmax (o : Opnds) (m : AtomMods) (s : State) : Host.Outcome State Fault Refusal :=
  issue (.amax o m) o s fun v => v.atomic2 (.amax o m) o m fun old b => if Ty.val o.ty old < Ty.val o.ty b then b else old

def execAand (o : Opnds) (m : AtomMods) (s : State) : Host.Outcome State Fault Refusal :=
  issue (.aand o m) o s fun v => v.atomic2 (.aand o m) o m (· &&& ·)

def execAor (o : Opnds) (m : AtomMods) (s : State) : Host.Outcome State Fault Refusal :=
  issue (.aor o m) o s fun v => v.atomic2 (.aor o m) o m (· ||| ·)

def execAxor (o : Opnds) (m : AtomMods) (s : State) : Host.Outcome State Fault Refusal :=
  issue (.axor o m) o s fun v => v.atomic2 (.axor o m) o m (· ^^^ ·)

def execAxch (o : Opnds) (m : AtomMods) (s : State) : Host.Outcome State Fault Refusal :=
  issue (.axch o m) o s fun v => v.atomic2 (.axch o m) o m fun _ b => b

/-- A compare that fails writes nothing. -/
def execAcas (o : Opnds) (m : AtomMods) (s : State) : Host.Outcome State Fault Refusal :=
  issue (.acas o m) o s fun v => v.atomic (.acas o m) o m fun th old =>
    if old = v.opB o th then some (v.read o o.ty (some th) o.sc) else none

/-- Nearest, ties to even; nothing is flushed. -/
def afadd (ty : Ty) (a b : Nat) : Nat :=
  perElement ty (fun a b _ => let f := Fmt.ofTy ty; f.round .rn (sumFp .rn [f.decode a, f.decode b])) a b 0

def execAfadd (o : Opnds) (m : AtomMods) (s : State) : Host.Outcome State Fault Refusal :=
  issue (.afadd o m) o s fun v => v.atomic2 (.afadd o m) o m (afadd o.ty)

def execAtomicComplete (n : Nat) (s : State) : Host.Outcome State Fault Refusal := .next (s.landed n .atomic)

/-! ## FENCE, R211 -/

/-- The writes of an acquire fence's commands are placed for the observers within its scope. -/
def State.fenceAcq (s : State) (i : Issuer) (sc : Scope) (observed : List (Nat × Option Nat)) : State :=
  let p (u : Unplaced) : Bool := observed.any fun x => u.cmd == x.1 && (x.2.isNone || u.chunk == x.2)
  (s.placePhys sc p).modTeam i.team fun t => t.placeScratch s.sched.steps p

def execFence (o : Opnds) (scope : Scope) (fk : FenceKind) (s : State) : Host.Outcome State Fault Refusal :=
  issue (.fence o scope fk) o s fun v => v.once o <|
    let sc : Scope := match scope with | .pod => .package | x => x
    let s := match fk with | .acq => v.s | _ => v.s.modGrp v.iss fun g => { g with bounds := g.bounds ++ [(sc, v.s.sched.steps)] }
    let s := match fk, scope with
      | .acq, _ => s
      | _, .pod => s.modGrp v.iss fun g => { g with podRel := some s.fab.reqNo }
      | _, _ => s
    .done (match fk with | .rel => s | _ => s.fenceAcq v.iss sc v.grp.seen)

/-! ## WAITA, R217, R218 -/

/-- The checks and operands at issue; the wait takes effect after CLEND. -/
def execWaita (w : WaitaOpnds) (s : State) : Host.Outcome State Fault Refusal :=
  let o := w.ops
  issue (.waita w) o s fun v => v.once o <|
    let a := v.address o none
    let n := Ty.bytes o.ty
    v.checked (v.s.checkAtomic v.team.asid rightR a n) <|
      let l := v.s.place1 v.team.asid a rightR
      .done (v.capture v.s (.waita o.dst l.1 l.2 n (v.scalar o o.ty o.sb)
        (v.scalar o .u32 o.sc) ((v.active o).map (·.tid))))

/-- How a wait ends of itself: its destination, the TIME and the reason. WAITA, FWAIT and GWAIT end at their limit, with
reason 2; a WAITA without a monitor, or on a line outside HBM, wakes 2 µs after its arming point, with reason 1, if its limit
has not come by then (R218, R365, R407, log 54). -/
def WaitKind.end? : WaitKind → Option (Spec × Nat × Nat)
  | .monitor dst _ armed hbm limit t0 =>
    if limit ≠ 0 ∧ (limit ≤ 2000 ∨ (armed ∧ hbm)) then some (dst, t0 + limit, 2)
    else if armed && hbm then none
    else some (dst, t0 + 2000, 1)
  | .fab dst _ _ _ limit t0 | .guest dst _ _ limit t0 => if limit = 0 then none else some (dst, t0 + limit, 2)
  | _ => none

/-- A wait that ends of itself: the TIME, record, wait id, destination and reason. -/
structure DueWait where
  time : Nat
  recno : Nat
  id : Nat
  dst : Spec
  reason : Nat

/-- Insert by time, after those of the same time. -/
def insDue (x : DueWait) : List DueWait → List DueWait
  | [] => [x]
  | y :: ys => if x.time < y.time then x :: y :: ys else y :: insDue x ys

/-- The waits of a team whose end has come by a TIME, earliest first. -/
def Team.dueWaits (t : Team) (time : Nat) : List DueWait :=
  ((t.waitsOf fun k => k.end?.any fun e => decide (e.2.1 ≤ time)).filterMap fun x =>
    x.2.2.kind.end?.map fun e => (⟨e.2.1, x.1, x.2.1, e.1, e.2.2⟩ : DueWait)).foldl (fun l x => insDue x l) []

/-- Of those waits, the ones that satisfy p end. -/
def Team.endDue (t : Team) (now time : Nat) (p : DueWait → Bool) : Team :=
  ((t.dueWaits time).filter p).foldl (fun t x => t.finishWait now x.recno x.id x.dst x.reason) t

/-- No wait outlasts its end: those whose end has come by a TIME end, before anything else can end them (R218, R365, R407). -/
def State.expireWaits (s : State) (time : Nat) : State :=
  { s with teams := s.teams.map fun kv => (kv.1, kv.2.endDue s.sched.steps time fun _ => true) }

/-- The waits of one record whose end has come end, if it has this reason. -/
def State.endDue (s : State) (r : TeamRef) (rec reason : Nat) : State :=
  s.modTeam r fun t => t.endDue s.sched.steps s.clock.time fun x => x.recno == rec && x.reason == reason

/-- WAITA_TIMEOUT: TIME has reached t0 + limit. -/
def execWaitaTimeout (r : TeamRef) (rec : Nat) (s : State) : Host.Outcome State Fault Refusal := .next (s.endDue r rec 2)

/-- WAITA_UNMONITORED_WAKE: 2 µs after the arming point of a wait without a monitor, or on a line outside HBM. -/
def execWaitaUnmonitoredWake (r : TeamRef) (rec : Nat) (s : State) : Host.Outcome State Fault Refusal := .next (s.endDue r rec 1)

/-- MONITOR_RECLAIM: every group of the cluster that the monitor served wakes; one whose end has come has gone already. -/
def execMonitorReclaim (cluster line : Nat) (s : State) : Host.Outcome State Fault Refusal :=
  .next { s with teams := s.teams.map fun kv =>
    (kv.1, if clusterOf kv.2.ref.core = cluster then
        (kv.2.endDue s.sched.steps s.clock.time fun _ => true).wakeLine s.sched.steps line
      else kv.2) }

end Sys2Proof.Machine
end

