-- ==== Sys2Proof/Machine/Sha.lean ====
section
/-! DEFINITION. SHA-256, and the LMS signatures of RFC 8554 with the parameters of spec/19 R437 (LMS_SHA256_M32_H10, LMOTS_SHA256_N32_W4), as those standards define them (log 12). -/
namespace Sys2Proof.Machine

/-! ## SHA-256 -/

def shaK : List W32 :=
  [0x428a2f98, 0x71374491, 0xb5c0fbcf, 0xe9b5dba5, 0x3956c25b, 0x59f111f1, 0x923f82a4, 0xab1c5ed5]
    ++ [0xd807aa98, 0x12835b01, 0x243185be, 0x550c7dc3, 0x72be5d74, 0x80deb1fe, 0x9bdc06a7, 0xc19bf174]
    ++ [0xe49b69c1, 0xefbe4786, 0x0fc19dc6, 0x240ca1cc, 0x2de92c6f, 0x4a7484aa, 0x5cb0a9dc, 0x76f988da]
    ++ [0x983e5152, 0xa831c66d, 0xb00327c8, 0xbf597fc7, 0xc6e00bf3, 0xd5a79147, 0x06ca6351, 0x14292967]
    ++ [0x27b70a85, 0x2e1b2138, 0x4d2c6dfc, 0x53380d13, 0x650a7354, 0x766a0abb, 0x81c2c92e, 0x92722c85]
    ++ [0xa2bfe8a1, 0xa81a664b, 0xc24b8b70, 0xc76c51a3, 0xd192e819, 0xd6990624, 0xf40e3585, 0x106aa070]
    ++ [0x19a4c116, 0x1e376c08, 0x2748774c, 0x34b0bcb5, 0x391c0cb3, 0x4ed8aa4a, 0x5b9cca4f, 0x682e6ff3]
    ++ [0x748f82ee, 0x78a5636f, 0x84c87814, 0x8cc70208, 0x90befffa, 0xa4506ceb, 0xbef9a3f7, 0xc67178f2]

def shaInit : List W32 := [0x6a09e667, 0xbb67ae85, 0x3c6ef372, 0xa54ff53a, 0x510e527f, 0x9b05688c, 0x1f83d9ab, 0x5be0cd19]

/-- An octet string as one number, and n octets of a number, most significant first. -/
def beNat (bs : List Byte) : Nat := bs.foldl (fun n b => 256 * n + b.toNat) 0
def beBytes (n x : Nat) : List Byte := (List.range n).map fun i => BitVec.ofNat 8 (x / 256 ^ (n - 1 - i))

/-- The padded message: a one bit, zeros, and the length in bits, a whole number of 64-byte blocks. -/
def shaPad (m : List Byte) : List Byte :=
  m ++ 0x80 :: List.replicate ((119 - m.length % 64) % 64) 0 ++ beBytes 8 (8 * m.length)

/-- The next word of a block's schedule, from the sixteen before it. -/
def shaNext (w : List W32) : W32 :=
  let g (i : Nat) : W32 := w.getD i 0
  let s0 := (g 1).rotateRight 7 ^^^ (g 1).rotateRight 18 ^^^ (g 1) >>> 3
  let s1 := (g 14).rotateRight 17 ^^^ (g 14).rotateRight 19 ^^^ (g 14) >>> 10
  g 0 + s0 + g 9 + s1

/-- One round: the working variables a to h and the sixteen words from this round's on. -/
def shaRound (x : List W32 × List W32) (k : W32) : List W32 × List W32 :=
  match x.1 with
  | [a, b, c, d, e, f, g, h] =>
    let s1 := e.rotateRight 6 ^^^ e.rotateRight 11 ^^^ e.rotateRight 25
    let t1 := h + s1 + ((e &&& f) ^^^ (~~~e &&& g)) + k + x.2.getD 0 0
    let s0 := a.rotateRight 2 ^^^ a.rotateRight 13 ^^^ a.rotateRight 22
    let t2 := s0 + ((a &&& b) ^^^ (a &&& c) ^^^ (b &&& c))
    ([t1 + t2, a, b, c, d + t1, e, f, g], x.2.tail ++ [shaNext x.2])
  | _ => x

def shaBlock (h : List W32) (block : List Byte) : List W32 :=
  let w := (List.range 16).map fun i => BitVec.ofNat 32 (beNat ((block.drop (4 * i)).take 4))
  List.zipWith (· + ·) h (shaK.foldl shaRound (h, w)).1

/-- The digest as a number whose least significant byte is the digest's first. -/
def sha256 (m : List Byte) : BitVec 256 :=
  let p := shaPad m
  let h := (List.range (p.length / 64)).foldl (fun h i => shaBlock h ((p.drop (64 * i)).take 64)) shaInit
  BitVec.ofNat 256 ((h.flatMap fun x => beBytes 4 x.toNat).foldr (fun b n => b.toNat + 256 * n) 0)

/-- The digest as octets. -/
def shaBytes (m : List Byte) : List Byte :=
  (List.range 32).map fun i => BitVec.ofNat 8 ((sha256 m).toNat / 256 ^ i)

/-! ## LMS, RFC 8554 -/

/-- The octets from i on, n of them. -/
def octets (bs : List Byte) (i n : Nat) : List Byte := (bs.drop i).take n

/-- The hash under an identifier I and a number, with a 16-bit tag. -/
def lmsHash (id : List Byte) (q tag : Nat) (m : List Byte) : List Byte := shaBytes (id ++ beBytes 4 q ++ beBytes 2 tag ++ m)

/-- The 67 digits of four bits of a digest with its checksum. -/
def otsDigits (d : List Byte) : List Nat :=
  let ds := d.flatMap fun b => [b.toNat / 16, b.toNat % 16]
  let sum := ds.foldl (fun n x => n + (15 - x)) 0
  ds ++ [sum / 256 % 16, sum / 16 % 16, sum % 16]

/-- A chain's value moved on from digit a to digit b. -/
def otsSteps (id : List Byte) (q i a b : Nat) (y : List Byte) : List Byte :=
  (List.range (b - a)).foldl (fun t j => shaBytes (id ++ beBytes 4 q ++ beBytes 2 i ++ beBytes 1 (a + j) ++ t)) y

/-- A chain's value moved on from digit a to 15. -/
def otsChain (id : List Byte) (q i a : Nat) (y : List Byte) : List Byte := otsSteps id q i a 15 y

/-- The one-time public key that a one-time signature (type, C, y) of a message gives. -/
def otsKey (id : List Byte) (q : Nat) (m sig : List Byte) : List Byte :=
  let digits := otsDigits (lmsHash id q 0x8181 (octets sig 4 32 ++ m))
  lmsHash id q 0x8080 (digits.zipIdx.flatMap fun x => otsChain id q x.2 x.1 (octets sig (36 + 32 * x.2) 32))

/-- The tree's root from a node's value and its authentication path. -/
def lmsRoot (id : List Byte) : Nat → List (List Byte) → List Byte → List Byte
  | _, [], t => t
  | n, p :: ps, t => lmsRoot id (n / 2) ps (lmsHash id (n / 2) 0x8383 (if n % 2 = 1 then p ++ t else t ++ p))

/-! ### The attestation key, R443: LMS_SHA256_M32_H20 with LMOTS_SHA256_N32_W4, type codes 8 and 3 -/

/-- The first n octets, filled with zeros. -/
def fit (n : Nat) (bs : List Byte) : List Byte := (bs ++ List.replicate n 0).take n

def attestId : List Byte := fit 16 (Config.attestIdOf Config.deviceSecret)

/-- Where chain i of one-time key q starts. -/
def attestSecret (q i : Nat) : List Byte := fit 32 (Config.otsSecretOf Config.deviceSecret q i)

/-- The node numbered r of the tree, h levels above its leaves. -/
def attestNode : Nat → Nat → List Byte
  | 0, r => lmsHash attestId r 0x8282 (lmsHash attestId (r - 2 ^ 20) 0x8080
      ((List.range 67).flatMap fun i => otsChain attestId (r - 2 ^ 20) i 0 (attestSecret (r - 2 ^ 20) i)))
  | h + 1, r => lmsHash attestId r 0x8383 (attestNode h (2 * r) ++ attestNode h (2 * r + 1))

def attestKey : List Byte := beBytes 4 8 ++ beBytes 4 3 ++ attestId ++ attestNode 20 1

/-- The signature of a message under index q: q, the one-time signature, and the path from its leaf. -/
def attestSign (q : Nat) (m : List Byte) : List Byte :=
  let c := fit 32 (Config.otsRandomOf Config.deviceSecret q)
  let ys := (otsDigits (lmsHash attestId q 0x8181 (c ++ m))).zipIdx.flatMap fun x => otsSteps attestId q x.2 0 x.1 (attestSecret q x.2)
  beBytes 4 q ++ beBytes 4 3 ++ c ++ ys ++ beBytes 4 8 ++ (List.range 20).flatMap fun j => attestNode j (((2 ^ 20 + q) / 2 ^ j) ^^^ 1)

/-- The signature verifies under the public key: type codes 6 and 3, then q, the one-time signature and ten path nodes. -/
def lmsVerify (key m sig : List Byte) : Bool :=
  let id := octets key 8 16
  let q := beNat (octets sig 0 4)
  key.length == 56 && sig.length == 2508 && beNat (octets key 0 4) == 6 && beNat (octets key 4 4) == 3
    && beNat (octets sig 4 4) == 3 && beNat (octets sig 2184 4) == 6 && decide (q < 1024)
    && lmsRoot id (1024 + q) ((List.range 10).map fun i => octets sig (2188 + 32 * i) 32)
         (lmsHash id (1024 + q) 0x8282 (otsKey id q m (octets sig 4 2180))) == octets key 24 32

end Sys2Proof.Machine
end

