-- ==== Sys2Proof/Machine/Copy.lean ====
section
/-! DEFINITION. Class 0x7: asynchronous copies and trackers, with the copy engine's steps (spec/10). -/
namespace Sys2Proof.Machine

/-! ## Fields of IMM, R235 -/

def trkOf (o : Opnds) : Nat := o.imm.toNat % 16
def dscrOf (o : Opnds) : Bool := o.imm.getLsbD 4
def sscrOf (o : Opnds) : Bool := o.imm.getLsbD 5
def ntrkOf (o : Opnds) : Bool := o.imm.getLsbD 6
def cmodeOf (o : Opnds) : Nat := bits o.imm.toNat 8 7

/-! ## Trackers, R223 to R225 -/

def Team.tracker (t : Team) (n : Nat) : Tracker := nth Tracker.zero t.trk n
def Team.modTracker (t : Team) (n : Nat) (f : Tracker → Tracker) : Team := { t with trk := modNth f t.trk n }

/-- Bit i of the bitmap, R224. -/
def Tracker.bit (k : Tracker) (i : Nat) : Bool := k.touch.getLsbD i && k.pend.get 0 i == 0
def Tracker.bitmap (k : Tracker) : Nat := (List.range 64).foldl (fun x i => if k.bit i then x + 2 ^ i else x) 0
def Tracker.covers (k : Tracker) (m : W64) : Bool := (List.range 64).all fun i => !m.getLsbD i || k.bit i

/-- The chunk in which an address lies; addresses are taken mod 2^64. -/
def Tracker.chunkAt (k : Tracker) (a : Nat) : Option Nat :=
  let i := wrap 64 ((a : Int) - k.base) / 512
  if i < 64 then some i else none

/-- Chunks of the tracker that n bytes at d meet. -/
def Tracker.chunksOf (k : Tracker) (d n : Nat) : List Nat :=
  let o := wrap 64 ((d : Int) - k.base)
  (List.range 64).filter fun i => decide ((o < 512 * (i + 1) ∧ 512 * i < o + n) ∨ 2 ^ 64 + 512 * i < o + n)

/-- A tracked command issues: TOUCH is set and PEND counts up for each chunk it writes. -/
def Tracker.start (k : Tracker) (cs : List Nat) : Tracker :=
  { k with touch := cs.foldl (fun x i => x ||| BitVec.ofNat 64 (2 ^ i)) k.touch,
           pend := cs.foldl (fun p i => p.set 0 i (p.get 0 i + 1)) k.pend }

/-- A command's writes in chunk i are done. -/
def Tracker.done (k : Tracker) (cmd i : Nat) : Tracker :=
  { k with pend := k.pend.set 0 i (k.pend.get 0 i - 1), wrote := k.wrote ++ [(i, cmd)] }

/-- A group that reads the mask's bits as 1 observes the tracked writes of those chunks, R225. -/
def Team.observeChunks (t : Team) (n trk : Nat) (m : W64) : Team :=
  t.modGrp n fun g => { g with seen := g.seen ++ ((t.tracker trk).wrote.filter fun x => m.getLsbD x.1).map fun x => (x.2, some x.1) }

/-- End every CWAIT whose mask reads all ones. -/
def Team.settleChunks (t : Team) (now : Nat) : Team :=
  (t.waitsOf fun k => match k with | .chunks .. => true | _ => false).foldl
    (fun t x => match x.2.2.kind with
      | .chunks trk m => if (t.tracker trk).covers m then (t.observeChunks x.1 trk m).endWait now x.1 x.2.1 else t
      | _ => t) t

/-! ## The bytes of a command, R228, R237, R238 -/

/-- Rows of a block in element order: exact destination and source of byte 0. -/
def blockRows (src dst y z : Nat) (srs sps drs dps : Int) : List (Int × Int) :=
  (List.range z).flatMap fun p => (List.range y).map fun r =>
    (sval 64 dst + p * dps + r * drs, sval 64 src + p * sps + r * srs)

/-- Destination runs in element order: start, length, source start, each address mod 2^64. -/
def CopyShape.runs : CopyShape → List (Nat × Nat × Nat)
  | .lanes size ps => ps.map fun x => (x.1, size, x.2)
  | .block src dst x y z srs sps drs dps =>
    (blockRows src dst y z srs sps drs dps).map fun r => (wrap 64 r.1, x, wrap 64 r.2)

/-- The source of the destination byte that the addresses of a list name: the last element that writes one of them. -/
def CopyShape.sourceOf (sh : CopyShape) (as : List Nat) : Option Nat :=
  sh.runs.reverse.findSome? fun r =>
    match (as.map fun a => wrap 64 ((a : Int) - r.1)).filter (· < r.2.1) with
    | [] => none
    | x :: xs => some ((r.2.2 + xs.foldl max x) % 2 ^ 64)

/-- The sources of every element that writes a byte that the addresses of a list name. -/
def CopyShape.sourcesOf (sh : CopyShape) (as : List Nat) : List Nat :=
  sh.runs.flatMap fun r => ((as.map fun a => wrap 64 ((a : Int) - r.1)).filter (· < r.2.1)).map fun x => (r.2.2 + x) % 2 ^ 64

/-- Destination words. -/
def CopyShape.words (sh : CopyShape) : List Nat :=
  (sh.runs.flatMap fun r => (wordsOf r.1 r.2.1).map (· % 2 ^ 64)).eraseDups

/-- Destination pages of 64 KiB. -/
def CopyShape.pages (sh : CopyShape) : List Nat :=
  (sh.runs.flatMap fun r => (List.range ((r.1 % 65536 + r.2.1 - 1) / 65536 + 1)).map fun i => (r.1 / 65536 + i) % 2 ^ 48).eraseDups

/-- Offsets of a destination word, named by the addresses `ws`, that the command writes, with their sources. -/
def CopyShape.wordBytes (sh : CopyShape) (ws : List Nat) : List (Nat × Nat) :=
  (List.range 4).filterMap fun j => (sh.sourceOf (ws.map (· + j))).map fun a => (j, a)

def CopyShape.chunks (sh : CopyShape) (k : Tracker) : List Nat :=
  (List.range 64).filter fun i => sh.runs.any fun r => (k.chunksOf r.1 r.2.1).contains i

/-! ## Performing words, R207, R209, R210, R227 -/

def State.modCopy (s : State) (n : Nat) (f : CopyCmd → CopyCmd) : State :=
  { s with eng := { s.eng with copies := s.eng.copies.map fun c => if c.num = n then f c else c } }

/-- An engine's byte of virtual memory. -/
def State.engineVirt (s : State) (b : ReadBound) (asid cmd a : Nat) : Byte :=
  let l := s.place1 asid a rightR
  (s.stray l.2 l.1).getD (s.engineByte s.mem.phys b cmd l.1)

/-- The frame of a destination page. -/
def State.frameOf (s : State) (asid page : Nat) : Option Nat :=
  match s.translate asid (65536 * page) rightW with
  | .ok l => some l.pa
  | _ => none

/-- The destination words of a command that are one location with the word w: those at its place in pages of the same
frame (R179). -/
def State.sameWords (s : State) (t : Team) (scr : Bool) (sh : CopyShape) (w : Nat) : List Nat :=
  if scr || sh.pages.length ≤ 1 then [w]
  else
    match s.frameOf t.asid (w / 65536) with
    | none => [w]
    | some f => (sh.pages.filter fun p => s.frameOf t.asid p == some f).map fun p => 65536 * p + w % 65536

/-- Offsets of a destination word with their sources: of a location written more than once, the command's last write (R228). -/
def State.wordBytes (s : State) (t : Team) (scr : Bool) (sh : CopyShape) (w : Nat) : List (Nat × Nat) :=
  sh.wordBytes (s.sameWords t scr sh w)

/-- The source bytes that a command reads for a destination word: those of the elements that it writes over too (R220). -/
def State.wordSources (s : State) (t : Team) (scr : Bool) (sh : CopyShape) (w : Nat) : List Nat :=
  let ws := s.sameWords t scr sh w
  (List.range 4).flatMap fun j => sh.sourcesOf (ws.map (· + j))

/-- The engine's checks of one destination word and its sources, as though at R186. -/
def State.copyChecks (s : State) (t : Team) (c : CopyCmd) (w : Nat) : List Check :=
  let one (scr : Bool) (need : Right) (a : Nat) : Check :=
    if scr then scratchCheck t.hdr.scratch (a, 1) else s.checkPiece t.asid need anyFrame (a, 1)
  (s.wordBytes t c.dscr c.shape w).map (fun b => one c.dscr rightW ((w + b.1) % 2 ^ 64))
    ++ (s.wordSources t c.dscr c.shape w).map (one c.sscr rightR)

/-- A command's read of the aligned source word at w. -/
def State.copySource (s : State) (t : Team) (c : CopyCmd) (w : Nat) : W32 :=
  let byte (a : Nat) : Byte :=
    if c.sscr then s.engineByte ((s.team? t.ref).elim .empty (·.scratch)) c.bound c.num a else s.engineVirt c.bound t.asid c.num a
  BitVec.ofNat 32 (leNat ((List.range 4).map fun j => byte (w + j)))

/-- The chunk that a command still has to do in which the word lies. -/
def Team.chunkOf (t : Team) (c : CopyCmd) (w : Nat) : Option Nat :=
  c.trk.bind fun k => ((t.tracker k).chunkAt w).bind fun i => if c.chunks.contains i then some i else none

/-- Perform one destination word. Each source word is read once by a command, at one point (R207, R209). -/
def State.copyWord (s : State) (t : Team) (c : CopyCmd) (w : Nat) : State :=
  let bs := s.wordBytes t c.dscr c.shape w
  let old := ((s.eng.copies.find? (·.num == c.num)).getD c).got
  let new := ((s.wordSources t c.dscr c.shape w).map fun a => a / 4 * 4).eraseDups.filter fun a => !old.any (·.1 == a)
  let got := old ++ new.map fun a => (a, s.copySource t c a)
  let val (a : Nat) : Byte := ((got.find? (·.1 == a / 4 * 4)).elim 0 fun x => BitVec.ofNat 8 (x.2.toNat / 256 ^ (a % 4)))
  let bytes := bs.map fun b => (b.1, val b.2)
  let s := s.modCopy c.num fun c => { c with words := c.words ++ [w], got }
  if c.dscr then s.modTeam t.ref fun t => t.engineScratch s.sched.steps c.num (t.chunkOf c w) w bytes
  else
    let l := s.place1 t.asid w rightW
    s.enginePhys c.num (t.chunkOf c w) t.launch t.writer l.2 l.1 bytes

/-- The first poisoned line that the words read. -/
def State.copyPoison (s : State) (t : Team) (c : CopyCmd) (ws : List Nat) : Option Nat :=
  if c.sscr then none
  else (ws.flatMap (s.wordSources t c.dscr c.shape)).findSome? fun a =>
    let pa := (s.place1 t.asid a rightR).1
    if s.poisoned pa then some pa else none

/-- How an engine's attempt at some words ended. -/
inductive Performed where
  | ok (s : State)
  | stuck
  | mchk (pa : Nat)

/-- The lines that the performed words of a command store whole lose their poison, R417. -/
def State.cleanWords (s : State) (t : Team) (sh : CopyShape) (done : List Nat) : State :=
  (s.wholeLines t.asid (done.flatMap fun w => (s.wordBytes t false sh w).map fun b => ((w + b.1) % 2 ^ 64, 1))).foldl State.clean s

/-- Perform the words of a list that the command has not yet performed; a word that fails its checks stops the attempt. -/
def State.copyWords (s : State) (t : Team) (c : CopyCmd) (ws : List Nat) : Performed :=
  let ws := ws.filter fun w => !c.words.contains w
  if (failing (ws.flatMap (s.copyChecks t c))).isEmpty then
    match s.copyPoison t c ws with
    | some pa => .mchk pa
    | none =>
      let s := ws.foldl (fun s w => s.copyWord t c w) s
      .ok (if c.dscr then s else s.cleanWords t c.shape (c.words ++ ws))
  else .stuck

/-- The writes of a command, or those of one of its chunks, are placed as REL says; scratch always for the team. -/
def State.copyPlace (s : State) (t : Team) (c : CopyCmd) (chunk : Option Nat) : State :=
  let p (u : Unplaced) : Bool := u.cmd == c.num && (chunk.isNone || u.chunk == chunk)
  if c.dscr then s.modTeam t.ref fun t => t.placeScratch s.sched.steps p
  else match c.rel with
    | some sc => s.placePhys sc p
    | none => s

def CopyShape.chunkWords (sh : CopyShape) (k : Tracker) (i : Nat) : List Nat := sh.words.filter fun w => k.chunkAt w == some i

/-! ## Issue -/

/-- A command enters its core's queue: tracker, promise, flag. -/
def View.enterCopy (v : View) (i : Instr) (o : Opnds) (m : CopyMods) (dscr sscr : Bool) (sh : CopyShape) : Issued :=
  if 256 ≤ (v.s.eng.copies.filter fun c => c.iss.team.core == v.iss.team.core).length then .stall v.s
  else
    let n := v.s.newCmd
    let k := v.team.tracker (trkOf o)
    let tracked := !ntrkOf o
    let cs := if tracked && k.space == dscr then sh.chunks k else []
    let promise := n.2.choose [10, n.1] % 2 ^ 64
    let s := n.2.modTeam v.iss.team fun t => t.modTracker (trkOf o) fun k =>
      let k := if tracked then k.start cs else k
      if tracked && m.prom then { k with promise := max k.promise promise } else k
    let c : CopyCmd := ⟨n.1, v.iss, match i with | .tcpy .. => 0x1C1 | _ => 0x1C0, o.fl, v.readBound m.acq, m.rel, dscr, sscr,
      if tracked then some (trkOf o) else none, sh, cs, [], [], false⟩
    let s := v.enter i o s
    .done { s with eng := { s.eng with copies := s.eng.copies ++ [c] } }

/-- R229 for one address. -/
def View.checkCopyAddr (v : View) (scr : Bool) (need : Right) (size a : Nat) : Check :=
  if a % size ≠ 0 then .fail { code := .align, val := some a }
  else if scr then scratchCheck v.team.hdr.scratch (a, size)
  else v.s.checkPiece v.team.asid need anyFrame (a, size)

/-- An address operand: an offset of 32 bits in scratch space. -/
def View.copyAddr (v : View) (o : Opnds) (scr : Bool) (th : Thread) (sp : Spec) : Nat :=
  let a := v.read o .u64 (some th) sp
  if scr then a % 2 ^ 32 else a

def execAcpy (o : Opnds) (m : CopyMods) (s : State) : Host.Outcome State Fault Refusal :=
  issue (.acpy o m) o s fun v => v.once o <|
    let size := m.size.bytes
    let ps := (v.active o).map fun th => (th.tid, v.copyAddr o (dscrOf o) th o.sa, v.copyAddr o (sscrOf o) th o.sb)
    v.checked (firstFail (ps.flatMap fun p =>
        [(v.checkCopyAddr (dscrOf o) rightW size p.2.1).forThread p.1, (v.checkCopyAddr (sscrOf o) rightR size p.2.2).forThread p.1])) <|
      v.enterCopy (.acpy o m) o m (dscrOf o) (sscrOf o) (.lanes size (ps.map (·.2)))

/-- The corners of a side of a block, exact: lowest and highest byte. -/
def corners (base : Int) (x y z : Nat) (rs ps : Int) : Int × Int :=
  let r := (y - 1 : Nat) * rs
  let p := (z - 1 : Nat) * ps
  (base + min 0 r + min 0 p, base + max 0 r + max 0 p + (x - 1 : Nat))

/-- R230 for one corner. A virtual address is exact and signed: canonical is -2^53 to 2^53 - 1. -/
def cornerCheck (scr : Bool) (limit : Nat) (a : Int) : Check :=
  if scr then scratchCheck limit (a, 1)
  else if -(2 ^ 53) ≤ a ∧ a < 2 ^ 53 then .pass
  else .fail { code := .xlate, val := some (wrap 64 a) }

def execTcpy (o : Opnds) (m : CopyMods) (s : State) : Host.Outcome State Fault Refusal :=
  issue (.tcpy o m) o s fun v => v.once o <|
    let b := sIndex o.sa
    let r (k : Nat) : Nat := v.s64 (b + k)
    let ctl := r 7
    let sscr := ctl.testBit 0
    let dscr := ctl.testBit 1
    let src := if sscr then r 0 % 2 ^ 32 else r 0
    let dst := if dscr then r 1 % 2 ^ 32 else r 1
    let x := bits (r 2) 31 0; let y := bits (r 2) 47 32; let z := bits (r 2) 63 48
    let srs := sval 64 (r 3); let sps := sval 64 (r 4); let drs := sval 64 (r 5); let dps := sval 64 (r 6)
    let sc := corners (sval 64 src) x y z srs sps
    let dc := corners (sval 64 dst) x y z drs dps
    if ctl / 4 ≠ 0 then .fault { code := .illOpnd }
    else if x = 0 ∨ y = 0 ∨ z = 0 then .done v.s
    else
      v.checked (firstFail [cornerCheck sscr v.team.hdr.scratch sc.1, cornerCheck sscr v.team.hdr.scratch sc.2,
          cornerCheck dscr v.team.hdr.scratch dc.1, cornerCheck dscr v.team.hdr.scratch dc.2]) <|
        v.enterCopy (.tcpy o m) o m dscr sscr (.block src dst x y z srs sps drs dps)

/-! ## Waiting and testing, R239 to R242 -/

/-- The tracker an instruction selects, and its mask. -/
def View.trk (v : View) (o : Opnds) : Tracker := v.team.tracker (trkOf o)
def View.mask (v : View) (o : Opnds) : W64 := BitVec.ofNat 64 (v.scalar o .u64 o.sa)

def execCwait (o : Opnds) (prom : Bool) (s : State) : Host.Outcome State Fault Refusal :=
  issue (.cwait o prom) o s fun v =>
    .done (v.capture v.s (.wait (.chunks (trkOf o) (v.mask o)) ((v.active o).map (·.tid))))

/-- The chunks of the mask are observed when every bit of it reads 1 (log 53). -/
def execCtest (o : Opnds) (prom : Bool) (s : State) : Host.Outcome State Fault Refusal :=
  issue (.ctest o prom) o s fun v =>
    let r := (v.trk o).covers (v.mask o)
    let s := v.s.applyWrites v.iss (v.dst o false fun _ => r.toNat)
    .done (if r && v.any o then s.modTeam v.iss.team (·.observeChunks v.iss.recno (trkOf o) (v.mask o)) else s)

def execCprom (o : Opnds) (prom : Bool) (s : State) : Host.Outcome State Fault Refusal :=
  issue (.cprom o prom) o s fun v =>
    .done (v.capture v.s (.wait (.promise (trkOf o) (v.mask o) 0) ((v.active o).map (·.tid))))

/-- PROMISE_MISS, R241, R413: the trap's context is the one saved when the CPROM's clause ended. -/
def State.promiseTrap (s : State) (t : Team) (n id : Nat) (w : Waiting) (r : TrapRec) (m : W64) : State :=
  let f : FaultInfo := { code := .promiseMiss }
  let s := s.putTeam (t.modGrp n fun g =>
    { g with waits := g.waits.del id, trap := some r, trapc := trapcOf f r.clause.pos, trapv := m })
  match s.landing t.ref.core t.asid t.hdr.handler with
  | some f => s.failStart t.ref f
  | none => s.modTeam t.ref fun t => (t.arrive s.sched.steps t.hdr.handler w.tids).settle s.sched.steps

/-- The promised time of a waiting CPROM has come. -/
def State.promiseTest (s : State) (r : TeamRef) (n id : Nat) : State :=
  match s.team? r with
  | none => s
  | some t =>
    match (t.grp? n).bind fun g => (g.waits.find id).map fun w => (g, w) with
    | some (g, w) =>
      match w.kind, w.saved with
      | .promise trk m pr, some rec =>
        if pr ≤ s.clock.time then
          if (t.tracker trk).covers m then s.modTeam r fun t => (t.observeChunks n trk m).endWait s.sched.steps n id
          else if t.hdr.handler ≠ 0 ∧ g.trap.isNone then s.promiseTrap t n id w rec m
          else s.modTeam r fun t => t.modGrp n fun g => { g.setWarn 3 with waits := g.waits.put id { w with kind := .chunks trk m } }
        else s
      | _, _ => s
    | none => s

def execCpromPromiseTime (r : TeamRef) (rec : Nat) (s : State) : Host.Outcome State Fault Refusal :=
  match (s.team? r).bind (·.grp? rec) with
  | none => .next s
  | some g => .next ((g.waits.map (·.1)).foldl (fun s id => s.promiseTest r rec id) s)

/-- Arming keeps bits 63:32 of a BASE in scratch space, which no offset reaches (log 53). -/
def execCstat (o : Opnds) (prom : Bool) (s : State) : Host.Outcome State Fault Refusal :=
  issue (.cstat o prom) o s fun v => v.once o <|
    match cmodeOf o with
    | 0 => v.writes (v.dstS o (v.trk o).bitmap)
    | 1 => v.writes (v.dstS o (v.trk o).promise)
    | _ =>
      if !(v.trk o).pend.isEmpty then .stall v.s
      else .done (v.s.modTeam v.iss.team fun t => t.modTracker (trkOf o) fun _ =>
        ⟨dscrOf o, v.scalar o .u64 o.sa / 512 * 512, 0, [], 0, []⟩)

/-! ## The engine's steps -/

/-- A command that may still act, with its team. -/
def State.liveCopy (s : State) (n : Nat) : Option (CopyCmd × Team) :=
  match s.eng.copies.find? (·.num == n) with
  | some c => if c.failed then none else
    match s.team? c.iss.team with
    | some t => if t.ending.isNone then some (c, t) else none
    | none => none
  | none => none

/-- A chunk is done: its count falls and the waits it ends end. -/
def State.chunkDone (s : State) (c : CopyCmd) (i : Nat) : State :=
  match c.trk with
  | none => s
  | some k =>
    (s.modCopy c.num fun c => { c with chunks := c.chunks.filter (· != i) }).modTeam c.iss.team fun t =>
      (t.modTracker k (·.done c.num i)).settleChunks s.sched.steps

/-- COPY_CHUNK_COMPLETE, R224. -/
def execCopyChunkComplete (n chunk : Nat) (s : State) : Host.Outcome State Fault Refusal :=
  match s.liveCopy n with
  | none => .next s
  | some (c, t) =>
    if !c.chunks.contains chunk then .next s
    else
      let ws := c.shape.chunkWords (t.tracker (c.trk.getD 0)) chunk
      match s.copyWords t c ws with
      | .ok s => .next ((s.copyPlace t c (some chunk)).chunkDone c chunk)
      | .stuck => .next s
      | .mchk pa => .next (s.consume t.asid pa (s.consumer c.iss))

/-- COPY_COMMAND_COMPLETE, R220. -/
def execCopyCommandComplete (n : Nat) (s : State) : Host.Outcome State Fault Refusal :=
  match s.liveCopy n with
  | none => .next s
  | some (c, t) =>
    match s.copyWords t c c.shape.words with
    | .ok s =>
      let s := s.copyPlace t c none
      let s := c.chunks.foldl (fun s i => s.chunkDone c i) s
      let s : State := { s with eng := { s.eng with copies := s.eng.copies.filter fun c => c.num != n } }
      .next ((s.flagDown c.iss c.fl n).tryEnd c.iss.team)
    | .stuck => .next s
    | .mchk pa => .next (s.consume t.asid pa (s.consumer c.iss))

/-- A command stops for good: what it wrote stands, its flag and chunks are never released, R231. -/
def State.failCopy (s : State) (c : CopyCmd) (f : FaultInfo) : State :=
  (s.modCopy c.num fun c => { c with failed := true }).engineFault c.iss f.code (f.val.getD 0) (engineDetail c.op c.fl)

/-- The checks that fail of the words not yet performed. -/
def State.failingWords (s : State) (t : Team) (c : CopyCmd) : List Check :=
  failing ((c.shape.words.filter fun w => !c.words.contains w).flatMap (s.copyChecks t c))

/-- A not-present page stalls command n, with a fault-buffer entry when one is free, R231. -/
def State.stallEngine (s : State) (t : Team) (n : Nat) (f : FaultInfo) : State :=
  if s.mem.parked.any (·.who == .cmd n) then s
  else s.parkEntry (clusterOf t.ref.core) t.asid (f.val.getD 0) none (.cmd n)

/-- COPY_ENGINE_FAULT: the engine meets a byte whose translation, rights or range fail; it takes one of them by free
choice. A page not present stalls the command under REPLAY, with a fault-buffer entry when one is free. -/
def execCopyEngineFault (n : Nat) (s : State) : Host.Outcome State Fault Refusal :=
  match s.liveCopy n with
  | none => .next s
  | some (c, t) =>
    let fs := s.failingWords t c
    match nth .pass fs (s.choose [9, n] % fs.length) with
    | .pass =>
      match s.copyPoison t c (c.shape.words.filter fun w => !c.words.contains w) with
      | some pa => .next (s.consume t.asid pa (s.consumer c.iss))
      | none => .next s
    | .fail f => .next (s.failCopy c f)
    | .absent f =>
      if (s.ctx? t.asid).any (·.replay) then .next (s.stallEngine t n f) else .next (s.failCopy c f)

end Sys2Proof.Machine
end

