-- ==== Sys2Proof/Machine/TileNum.lean ====
section
/-! DEFINITION. The numbers of the matrix engine: operands, format words, scales, exact accumulation, read-out (spec/11). -/
namespace Sys2Proof.Machine

/-! ## The format word, R247, R248 -/

def fmtB (f : W32) : Nat := bits f.toNat 1 0
def fmtAstr (f : W32) : Nat := 2 ^ bits f.toNat 3 2
def fmtBstr (f : W32) : Nat := 2 ^ bits f.toNat 5 4
/-- Number of blocks. -/
def fmtBlocks (f : W32) : Nat := bits f.toNat 14 8 + 1
def fmtValid (f : W32) : Bool :=
  decide (f.toNat < 2 ^ 15) && bits f.toNat 7 6 == 0 && fmtB f != 3 && bits f.toNat 3 2 != 3 && bits f.toNat 5 4 != 3
/-- Bytes of one block of a B column, R246. -/
def fmtBBytes (f : W32) : Nat := match fmtB f with | 0 => 8 | 1 => 16 | _ => 32
/-- Scale groups of an operand with stride t, R249. -/
def scaleGroups (blocks t : Nat) : Nat := (blocks + t - 1) / t

/-- Weight k of a block of a B column, R244 to R246. -/
def weightOf (f : Nat) (bs : List Byte) (k : Nat) : Int :=
  match f with
  | 0 =>
    match ((nth 0 bs (k / 4)).toNat / 4 ^ (k % 4)) % 4 with
    | 1 => 1
    | 3 => -1
    | _ => 0
  | 1 => sval 4 ((nth 0 bs (k / 2)).toNat / 16 ^ (k % 2))
  | _ => sval 8 (nth 0 bs k).toNat

/-- A T2 code of 0b10 occurs among the weights, R245. -/
def hasReserved (f : Nat) (bs : List Byte) : Bool :=
  f == 0 && bs.any fun b => (List.range 4).any fun i => (b.toNat / 4 ^ i) % 4 == 2

/-- P, R251, R253: the exact sum over a block. Digit planes and skipped passes give this sum. -/
def partialP (f : Nat) (a b : List Byte) : Int :=
  (List.range 32).foldl (fun p k => p + sval 8 (nth 0 a k).toNat * weightOf f b k) 0

/-! ## Elements, R254, R255 -/

def elMant (x : W64) : Int := sval 48 x.toNat
def elTag (x : W64) : Nat := bits x.toNat 49 48
def elMake (tag : Nat) (m : Int) : W64 := BitVec.ofNat 64 (wrap 48 m + 2 ^ 48 * tag)
def elNormal (m : Int) : W64 := elMake 0 m
/-- A malformed image loads as NaN, R283. -/
def elLoad (x : W64) : W64 :=
  if bits x.toNat 63 50 ≠ 0 ∨ (elTag x ≠ 0 ∧ elMant x ≠ 0) then elMake 3 0 else x

/-- The nearest integer to n * 2^k, ties to even. -/
def rneInt (n : Int) (k : Int) : Int :=
  let m : Int := roundAt .rn false n.natAbs k 0 false
  if n < 0 then -m else m

/-! ## Adding a block, R256 to R259 -/

/-- An incoming term. -/
inductive Term where
  | nan
  | inf (neg : Bool)
  | fin (n : Int) (e : Int)
  deriving DecidableEq, Repr

/-- R257: the product of the scales, rounded, times P. -/
def termOf (sa sb : W32) (p : Int) : Term :=
  match Fmt.f32.decode (Fmt.f32.round .rn ((Fmt.f32.decode sa.toNat).mul (Fmt.f32.decode sb.toNat))) with
  | .nan => .nan
  | .inf n => if p = 0 then .nan else .inf (n != decide (p < 0))
  | .fin n m e => if p = 0 ∨ m = 0 then .fin 0 0 else .fin (if n then -(p * m) else p * m) e

/-- An element with its incoming term. -/
structure ElTerm where
  i : Nat
  x : W64
  t : Term

/-- The aligned sum of a normal element and a normal term under a further shift d. -/
def alignedSum (e : Int) (d : Nat) (m : Int) (n : Int) (k : Int) : Int := rneInt m (-(d : Int)) + rneInt n (k - (e + d))

/-- The headroom bound fails for an element under a shift d. -/
def overHead (e : Int) (d : Nat) (z : ElTerm) : Bool :=
  match z.t with
  | .fin n k => elTag z.x == 0 && decide (2 ^ 47 ≤ (alignedSum e d (elMant z.x) n k).natAbs)
  | _ => false

/-- A shift below this one fails for the element: its sum is at least twice the bound. -/
def headStart (e : Int) (z : ElTerm) : Nat :=
  match z.t with
  | .fin n k =>
    if elTag z.x ≠ 0 then 0
    else
      let lo := min e k
      let v := (elMant z.x * 2 ^ (e - lo).toNat + n * 2 ^ (k - lo).toNat).natAbs
      if v = 0 then 0 else (lo + v.log2 - e - 47).toNat
  | _ => 0

/-- The least d from `d` on, within the fuel, that no element fails. -/
def headroom (e : Int) (zs : List ElTerm) : Nat → Nat → Nat
  | 0, d => d
  | k + 1, d => if zs.any (overHead e d) then headroom e zs k (d + 1) else d

/-- R257: an element's tag with a term that is not both normal. -/
def combineTag (tag : Nat) (t : Term) : Nat :=
  match tag, t with
  | 3, _ => 3
  | _, .nan => 3
  | 1, .inf true => 3
  | 2, .inf false => 3
  | 0, .inf n => if n then 2 else 1
  | tag, _ => tag

/-- The tile after a block, and whether a renormalisation shifted a nonzero mantissa: the shift that counts is the one made,
0 when the exponent cannot rise (log 53). `f` gives the term of element 64m + n. -/
def addBlock (t : Tile) (f : Nat → Term) : Tile × Bool :=
  let zs : List ElTerm := (List.range 4096).map fun i => ⟨i, t.els.get 0 i, f i⟩
  let live := zs.filter fun z => z.x != 0 || z.t != .fin 0 0
  let cap := (32767 - t.e).toNat
  let start := live.foldl (fun d z => max d (headStart t.e z)) 0
  let d := if cap < start then cap + 1 else headroom t.e live (cap + 1 - start) start
  let capped := decide (cap < d)
  let d := min d cap
  let put (m : Tab W64) (z : ElTerm) : Tab W64 :=
    let x := match z.t with
      | .fin n k =>
        if elTag z.x ≠ 0 then elMake (elTag z.x) 0
        else
          let y := alignedSum t.e d (elMant z.x) n k
          if capped && decide (2 ^ 47 ≤ y.natAbs) then elMake (if y < 0 then 2 else 1) 0 else elNormal y
      | u => elMake (combineTag (elTag z.x) u) 0
    m.set 0 z.i x
  (⟨t.e + d, live.foldl put t.els⟩, d != 0 && zs.any fun z => elTag z.x == 0 && elMant z.x != 0)

/-! ## Realigning, R281 -/

def realign (t : Tile) (to_ : Int) : Tile × Bool :=
  let d := to_ - t.e
  let one (x : W64) : W64 :=
    if elTag x ≠ 0 then x
    else
      let v := rneInt (elMant x) (-d)
      if 2 ^ 47 ≤ v.natAbs then elMake (if 0 < elMant x then 1 else 2) 0 else elNormal v
  (⟨to_, t.els.foldl (fun m x => m.set 0 x.1 (one x.2)) t.els⟩, d != 0 && t.els.any fun x => elTag x.2 == 0 && elMant x.2 != 0)

/-! ## Reading out, R261 -/

def readEl (f : Ofmt) (sat : Bool) (e : Int) (x : W64) : Nat :=
  let m := elMant x
  match f with
  | .i8 =>
    let v := match elTag x with
      | 0 => rneInt m e
      | 1 => if sat then 127 else 0
      | 2 => if sat then -128 else 0
      | _ => 0
    wrap 8 (if sat then min (max v (-128)) 127 else v)
  | f =>
    let F := match f with | .bf16 => Fmt.bf16 | _ => Fmt.f32
    match elTag x with
    | 0 =>
      let y := F.pack .rn (decide (m < 0)) m.natAbs e false
      if sat && F.isInf y then y - 1 else y
    | 1 => if sat then F.inf false - 1 else F.inf false
    | 2 => if sat then F.inf true - 1 else F.inf true
    | _ => F.nan

def Ofmt.bytes : Ofmt → Nat
  | .f32 => 4 | .bf16 => 2 | .i8 => 1

end Sys2Proof.Machine
end

