-- ==== Sys2Proof/Machine/Matrix.lean ====
section
/-! DEFINITION. Class 0x8: matrix commands, gangs, broadcast sets, and the matrix engine's steps (spec/12). -/
namespace Sys2Proof.Machine

/-! ## Tiles -/

def Team.tile (t : Team) (n : Nat) : Tile := nth Tile.zero t.tiles n
def Team.setTile (t : Team) (n : Nat) (x : Tile) : Team := { t with tiles := modNth (fun _ => x) t.tiles n }

/-- Tiles a command names. -/
def MatCmd.tiles (c : MatCmd) : List Nat :=
  match c.op with
  | .mmov src => [c.acc, src]
  | _ => [c.acc]

def MatOp.num : MatOp → Nat
  | .mma => 0x201 | .mzero => 0x202 | .mrnm _ => 0x203 | .mld => 0x204 | .mst .. => 0x205 | .mexp => 0x206 | .mmov _ => 0x207

/-! ## Descriptors and their checks, R276, R285 -/

/-- Register k of a descriptor as captured: 0 to 2 of A, 3 to 6 of B. -/
def MatCmd.reg (c : MatCmd) (k : Nat) : Nat := (nth 0 c.descr k).toNat

/-- Lowest and highest byte of every range of an MMA, exact, in the order R285 lists them; the scale groups of A
before those of B (log 54). -/
def mmaRanges (d : List W64) (f : W32) : List (Int × Int) :=
  let r (k : Nat) : Nat := (nth 0 d k).toNat
  let a := sval 64 (r 0); let ast := sval 64 (r 1); let asc := sval 64 (r 2)
  let b := sval 64 (r 3); let bst := sval 64 (r 4); let bsc := sval 64 (r 5)
  let n := fmtBlocks f
  let kc : Int := 32 * n
  let bl : Int := fmtBBytes f * n
  [(a, a + kc - 1), (a + 63 * ast, a + 63 * ast + kc - 1), (b, b + bl - 1), (b + 63 * bst, b + 63 * bst + bl - 1)]
    ++ (List.range (scaleGroups n (fmtAstr f))).map (fun g : Nat => (asc + 256 * g, asc + 256 * g + 255))
    ++ (List.range (scaleGroups n (fmtBstr f))).map (fun g : Nat => (bsc + 256 * g, bsc + 256 * g + 255))

def rangeChecks (rs : List (Int × Int)) : Check :=
  firstFail (rs.flatMap fun r => [cornerCheck false 0 r.1, cornerCheck false 0 r.2])

def alignCheck (n a : Nat) : Check := if a % n = 0 then .pass else .fail { code := .align, val := some a }

def mmaCheck (d : List W64) (f : W32) : Check :=
  firstFail [alignCheck 4 (nth 0 d 2).toNat, alignCheck 4 (nth 0 d 5).toNat, rangeChecks (mmaRanges d f)]

/-! ## Issue -/

/-- A command takes an entry of its group's queue, R264. The group's clause started, or went on after RESUME, with room for
its commands: it waits here only for commands that its code did not show then. -/
def View.enqueue (v : View) (i : Instr) (o : Opnds) (c : Nat → MatCmd) : Issued :=
  if 8 ≤ v.grp.mq.length then .stall v.s
  else
    let n := v.s.newCmd
    .done ((v.enter i o n.2).modGrp v.iss fun g => { g with mq := g.mq ++ [c n.1] })

def View.matCmd (v : View) (o : Opnds) (m : MatMods) (op : MatOp) (base : Nat) (num : Nat) : MatCmd :=
  { num, iss := v.iss, fl := o.fl, op, acc := m.acc.val, base, bound := v.readBound m.acq, rel := m.rel,
    members := [v.iss.recno], fmt := none, specs := [], acq := m.acq, shb := op == .mma && m.shb, descr := [], words := [], failed := false,
    ends := [], nums := [] }

/-- R274. -/
def execMgang (o : Opnds) (m : MatMods) (s : State) : Host.Outcome State Fault Refusal :=
  issue (.mgang o m) o s fun v => v.once o <|
    let x := v.scalar o .u32 o.sa
    let g := v.iss.recno
    if x = 0 ∨ x = 2 ^ g then .done (v.s.modGrp v.iss fun g => { g with gang := 0 })
    else if !x.testBit g ∨ 6 < popcount 32 x ∨ 2 ^ (v.team.hdr.threads / 32) ≤ x then .fault { code := .illOpnd, val := some x }
    else .done (v.s.modGrp v.iss fun g => { g with gang := BitVec.ofNat 32 x })

/-- The members of an MMA that a record issues now. -/
def View.gangMembers (v : View) : List Nat :=
  if v.grp.gang = 0 then [v.iss.recno] else (List.range 32).filter fun n => v.grp.gang.getLsbD n

def execMma (o : Opnds) (m : MatMods) (s : State) : Host.Outcome State Fault Refusal :=
  issue (.mma o m) o s fun v =>
    let members := v.gangMembers
    let fs := (v.active o).map fun th => BitVec.ofNat 32 (v.read o .u32 (some th) o.sc)
    let descr := (List.range 3).map (fun k => v.grp.getS (sIndex o.sa + k)) ++ (List.range 4).map fun k => v.grp.getS (sIndex o.sb + k)
    let go (f : Option W32) (s : Check) : Issued :=
      if o.fl.any (fun f => v.grp.flag f == 255) then .stall v.s
      else v.checked s <| v.enqueue (.mma o m) o fun n =>
        { v.matCmd o m .mma 0 n with members, fmt := f, specs := [o.sa, o.sb], descr }
    match fs with
    | [] => if members = [v.iss.recno] then .done v.s else go none .pass
    | f :: r =>
      if r.any (· != f) || !fmtValid f then .fault { code := .fmtDiv }
      else go (some f) (if members.head? = some v.iss.recno then mmaCheck descr f else .pass)

def execMzero (o : Opnds) (m : MatMods) (s : State) : Host.Outcome State Fault Refusal :=
  issue (.mzero o m) o s fun v => v.once o <| v.enqueue (.mzero o m) o (v.matCmd o m .mzero 0)

def execMrnm (o : Opnds) (m : MatMods) (s : State) : Host.Outcome State Fault Refusal :=
  issue (.mrnm o m) o s fun v => v.once o <|
    v.enqueue (.mrnm o m) o (v.matCmd o m (.mrnm (sval 16 (v.scalar o .s16 o.sa))) 0)

/-- The bytes of a raw tile image, R283. -/
def rawBytes : Nat := 32776

/-- Checks of MLD and MEXP. -/
def rawCheck (a : Nat) : Check := firstFail [alignCheck 128 a, rangeChecks [(sval 64 a, sval 64 a + rawBytes - 1)]]

def execMld (o : Opnds) (m : MatMods) (s : State) : Host.Outcome State Fault Refusal :=
  issue (.mld o m) o s fun v => v.once o <|
    let a := v.scalar o .u64 o.sa
    v.checked (rawCheck a) <| v.enqueue (.mld o m) o (v.matCmd o m .mld a)

def execMexp (o : Opnds) (m : MatMods) (s : State) : Host.Outcome State Fault Refusal :=
  issue (.mexp o m) o s fun v => v.once o <|
    let a := v.scalar o .u64 o.sa
    v.checked (rawCheck a) <| v.enqueue (.mexp o m) o (v.matCmd o m .mexp a)

/-- Checks of MST: alignment of a and rs, then the four corner elements. -/
def mstCheck (a : Nat) (rs : Nat) (z : Nat) : Check :=
  let el (m n : Int) : Int × Int := let x := sval 64 a + m * sval 64 rs + n * z; (x, x + z - 1)
  firstFail [alignCheck z a, alignCheck z rs, rangeChecks [el 0 0, el 0 63, el 63 0, el 63 63]]

def execMst (o : Opnds) (m : MatMods) (s : State) : Host.Outcome State Fault Refusal :=
  issue (.mst o m) o s fun v => v.once o <|
    let a := v.scalar o .u64 o.sa
    let rs := v.scalar o .u64 o.sb
    v.checked (mstCheck a rs (Ofmt.bytes m.ofmt)) <|
      v.enqueue (.mst o m) o (v.matCmd o m (.mst (sval 64 rs) m.ofmt m.sat) a)

def execMmov (o : Opnds) (m : MatMods) (s : State) : Host.Outcome State Fault Refusal :=
  issue (.mmov o m) o s fun v => v.once o <|
    v.enqueue (.mmov o m) o (v.matCmd o m (.mmov (o.imm.toNat % 8)) 0)

/-! ## Acceptance, R265, R277, R279 -/

/-- An MMA with a shared B opens its cluster's set or joins the open one. -/
def State.joinSet (s : State) (r : TeamRef) (c : MatCmd) : State :=
  if !c.shb then s
  else
    let cl := clusterOf r.core
    let key := nth 0 c.descr 6
    let put (b : List BSet) : State := { s with eng := { s.eng with bsets := b } }
    match s.eng.bsets.find? fun b => b.cluster == cl && b.key == key with
    | none => put (s.eng.bsets ++ [⟨cl, key, [(c.num, r.core)], c, false, []⟩])
    | some b =>
      let same := (List.range 3).all (fun k => b.first.reg (3 + k) == c.reg (3 + k))
        && (b.first.fmt.map fun f => (fmtB f, fmtBstr f, fmtBlocks f)) == (c.fmt.map fun f => (fmtB f, fmtBstr f, fmtBlocks f))
      if b.fetched || b.members.any (·.2 == r.core) || !same then s
      else
        let members := b.members ++ [(c.num, r.core)]
        put (s.eng.bsets.map fun x =>
          if x.cluster = cl ∧ x.key = key then { x with members, fetched := decide (8 ≤ members.length) } else x)

/-- Remove the head of a record's queue: its entry is free. -/
def Team.popHead (t : Team) (now n : Nat) : Team :=
  t.modGrp n fun g => { g with mq := g.mq.tail, freedAt := (now :: g.freedAt).take 8 }

/-- Release the flag that each member of a command named. -/
def State.releaseEnds (s : State) (c : MatCmd) : State := c.ends.foldl (fun s e => s.flagDown e.1 e.2 c.num) s

/-- The heads of a gang's queues, when an MMA of a gang stands at every one. An MMA of one group alone is no arrival: it is
accepted alone (log 53). -/
def Team.gangHeads (t : Team) (members : List Nat) : Option (List (Nat × MatCmd)) :=
  members.mapM fun n => match (t.grp? n).bind (·.mq.head?) with
    | some c => if c.op == .mma && c.members.length > 1 && !c.failed then some (n, c) else none
    | none => none

/-- The fields that the heads of a gang must agree in. -/
def MatCmd.sameAs (a b : MatCmd) : Bool :=
  a.specs == b.specs && a.acc == b.acc && a.shb == b.shb && a.acq == b.acq && a.members == b.members

/-- All equal, or the first two non-null format words differ. -/
def headsAgree (hs : List (Nat × MatCmd)) : Bool :=
  match hs with
  | [] => true
  | h :: r =>
    r.all (fun x => h.2.sameAs x.2) &&
      (match hs.filterMap fun x => x.2.fmt with
       | [] => true
       | f :: fs => fs.all (· == f))

/-- The heads of a gang are compared, and the gang MMA is accepted or FMT_DIV is reported. Its reads are bounded by the
command of each member (R264, R267). -/
def State.matchGang (s : State) (r : TeamRef) (t : Team) (hs : List (Nat × MatCmd)) : State :=
  if !headsAgree hs then s.gangFault r hs
  else
    match hs with
    | [] => s
    | (_, lead) :: _ =>
      let fmt := (hs.filterMap fun x => x.2.fmt).head?
      let ends := hs.map fun x => (x.2.iss, x.2.fl)
      let s := s.modTeam r fun _ => hs.foldl (fun t x => t.popHead s.sched.steps x.1) t
      let c := { lead with fmt, ends, nums := hs.map fun x => (x.2.iss, x.2.num), bound := { lead.bound with scopes := hs.flatMap fun x => x.2.bound.scopes } }
      match fmt with
      | none => (s.releaseEnds c).tryEnd r
      | some f =>
        match (if lead.fmt.isNone then mmaCheck lead.descr f else .pass) with
        | .fail x => (s.engineFault lead.iss x.code (x.val.getD 0) (engineDetail 0x201 lead.fl))
        | _ => ({ s with eng := { s.eng with mats := s.eng.mats ++ [c] } } : State).joinSet r c

/-- The gangs of a team whose MMA stands at the head of every member's queue are matched, which may bring the next to the heads; one
of which a record has retired before is not (R277). The fuel bounds the commands queued. -/
def State.settleGangHeads : Nat → State → TeamRef → State
  | 0, s, _ => s
  | n + 1, s, r =>
    match s.team? r with
    | none => s
    | some t =>
      if t.ending.isSome then s
      else if !t.deadHeads.isEmpty then State.settleGangHeads n (s.settleGangs r) r
      else
        match t.grps.findSome? fun g => g.gangHead.bind fun c => t.gangHeads c.members with
        | some hs => State.settleGangHeads n (s.matchGang r t hs) r
        | none => s

/-- A gang MMA is accepted at the moment it stands at the head of every member's queue (R265). -/
def State.settleHeads (s : State) : State :=
  s.teamList.foldl (fun s t =>
    let n := (t.grps.map (·.mq.length)).sum
    if n = 0 then s else s.settleGangHeads n t.ref) s

/-- MATRIX_COMMAND_ACCEPT: the head of a record's queue is accepted; a gang MMA when it stands at every member's head. -/
def execMatrixCommandAccept (r : TeamRef) (rec : Nat) (s : State) : Host.Outcome State Fault Refusal :=
  match s.team? r with
  | none => .next s
  | some t =>
    match (t.grp? rec).bind (·.mq.head?) with
    | none => .next s
    | some c =>
      if c.failed || t.ending.isSome then .next s
      else if c.members.length > 1 then
        if !t.deadHeads.isEmpty then .next (s.settleGangs r)
        else
          match t.gangHeads c.members with
          | some hs => .next (s.matchGang r t hs)
          | none => .next s
      else
        let c := { c with ends := [(c.iss, c.fl)], nums := [(c.iss, c.num)] }
        let s := s.modTeam r (·.popHead s.sched.steps rec)
        .next (({ s with eng := { s.eng with mats := s.eng.mats ++ [c] } } : State).joinSet r c)

/-- BROADCAST_FIRST_FETCH: the set takes no more members. -/
def execBroadcastFirstFetch (cluster : Nat) (key : W64) (s : State) : Host.Outcome State Fault Refusal :=
  .next { s with eng := { s.eng with bsets := s.eng.bsets.map fun b =>
    if b.cluster = cluster ∧ b.key = key then { b with fetched := true } else b } }

/-! ## Reading operands -/

/-- A checked run of virtual bytes that an engine reads. -/
structure EngRun where
  a : Nat
  n : Nat

/-- Runs that block b of an MMA reads: 64 rows of A, 64 columns of B, the two scale runs. -/
def mmaRuns (c : MatCmd) (f : W32) (b : Nat) : List EngRun :=
  let at_ (base st : Nat) (i off : Int) : Nat := wrap 64 (sval 64 base + i * sval 64 st + off)
  (List.range 64).map (fun m => ⟨at_ (c.reg 0) (c.reg 1) m (32 * b : Nat), 32⟩)
    ++ (List.range 64).map (fun n => ⟨at_ (c.reg 3) (c.reg 4) n (fmtBBytes f * b : Nat), fmtBBytes f⟩)
    ++ [⟨at_ (c.reg 2) 0 0 (256 * (b / fmtAstr f) : Nat), 256⟩, ⟨at_ (c.reg 5) 0 0 (256 * (b / fmtBstr f) : Nat), 256⟩]

def State.runChecks (s : State) (t : Team) (need : Right) (r : EngRun) : List Check :=
  (pieces r.a r.n).map (s.checkPiece t.asid need anyFrame)
def State.checkRun (s : State) (t : Team) (need : Right) (r : EngRun) : Check := firstFail (s.runChecks t need r)

def State.runPoison (s : State) (t : Team) (r : EngRun) : Option Nat :=
  (pieces r.a r.n).findSome? fun p =>
    let pa := (s.place1 t.asid p.1 rightR).1
    if s.poisoned pa then some pa else none

/-- The broadcast set of an accepted command. -/
def State.setOf (s : State) (c : MatCmd) : Option BSet := s.eng.bsets.find? fun b => b.members.any (·.1 == c.num)

/-- A byte of B: a member of a broadcast set takes the word that the set fetched, or fetches it for the set. The
fetched word is one that every member's bounds allow. Members of other contexts share it by its physical address (log 28). -/
def State.sharedByte (s : State) (t : Team) (c : MatCmd) (a : Nat) : Byte :=
  match s.setOf c with
  | none => s.engineVirt c.bound t.asid c.num a
  | some b =>
    let l := s.place1 t.asid a rightR
    let w := l.1 / 4 * 4
    match b.words.find? (·.1 == w) with
    | some x => BitVec.ofNat 8 (x.2.toNat / 256 ^ (l.1 % 4))
    | none =>
      match s.stray l.2 l.1 with
      | some x => x
      | none =>
        let others := (s.eng.mats.filter fun m => b.members.any (·.1 == m.num)).map (·.bound)
        let ok := (s.mem.phys.candidates c.bound w).filter fun x => others.all fun o => (s.mem.phys.candidates o w).contains x
        BitVec.ofNat 8 ((nth (s.mem.phys.word w) ok (s.choose [3, c.num, w] % ok.length)).toNat / 256 ^ (l.1 % 4))

/-- The words that a run covers, as fetched for a set: from then on it takes no more members. -/
def State.fetchForSet (s : State) (t : Team) (c : MatCmd) (r : EngRun) : State :=
  match s.setOf c with
  | none => s
  | some b =>
    let ws := (wordsOf r.a r.n).map fun w =>
      ((s.place1 t.asid (w % 2 ^ 64) rightR).1,
       BitVec.ofNat 32 (leNat ((List.range 4).map fun j => s.sharedByte t c ((w + j) % 2 ^ 64))))
    { s with eng := { s.eng with bsets := s.eng.bsets.map fun x =>
      if x.members = b.members then { x with fetched := true, words := x.words ++ ws.filter fun w => !x.words.any (·.1 == w.1) } else x } }

/-- What block b of an MMA reads: the rows of A, the columns of B, the two scale runs. -/
def State.readBlock (s : State) (t : Team) (c : MatCmd) (f : W32) (b : Nat) : List (List Byte) × List (List Byte) × List W32 × List W32 :=
  let rs := mmaRuns c f b
  let plain (r : EngRun) : List Byte := (List.range r.n).map fun j => s.engineVirt c.bound t.asid c.num ((r.a + j) % 2 ^ 64)
  let shared (r : EngRun) : List Byte := (List.range r.n).map fun j => s.sharedByte t c ((r.a + j) % 2 ^ 64)
  let words (bs : List Byte) : List W32 := (List.range 64).map fun i => BitVec.ofNat 32 (leNat ((bs.drop (4 * i)).take 4))
  ((rs.take 64).map plain, ((rs.drop 64).take 64).map shared, words (((rs.drop 128).take 1).flatMap plain),
   words ((rs.drop 129).flatMap shared))

/-- Apply one block; gives the warnings W0 and W2. -/
def State.applyBlock (s : State) (t : Team) (c : MatCmd) (f : W32) (b : Nat) : State × Bool × Bool :=
  let d := s.readBlock t c f b
  let term (i : Nat) : Term :=
    termOf (nth 0 d.2.2.1 (i / 64)) (nth 0 d.2.2.2 (i % 64)) (partialP (fmtB f) (nth [] d.1 (i / 64)) (nth [] d.2.1 (i % 64)))
  let tile := ((s.team? t.ref).getD t).tile c.acc
  let r := addBlock tile term
  let s := ((mmaRuns c f b).drop 64).foldl (fun s x => s.fetchForSet t c x) s
  (s.modTeam t.ref (·.setTile c.acc r.1), d.2.1.any (hasReserved (fmtB f)), r.2)

/-- Apply blocks 0 to n - 1, then set the members' warnings, R278. -/
def State.applyBlocks (s : State) (t : Team) (c : MatCmd) (f : W32) (n : Nat) : State :=
  let r := (List.range n).foldl (fun (st : State × Bool × Bool) b =>
    let x := st.1.applyBlock t c f b
    (x.1, st.2.1 || x.2.1, st.2.2 || x.2.2)) (s, false, false)
  let warn (s : State) (b : Bool) (k : Nat) : State := if b then c.ends.foldl (fun s e => s.setWarn e.1 k) s else s
  warn (warn r.1 r.2.1 0) r.2.2 2

/-- Checks of a block. -/
def State.checkBlock (s : State) (t : Team) (c : MatCmd) (f : W32) (b : Nat) : Check :=
  firstFail ((mmaRuns c f b).map (s.checkRun t rightR))

/-! ## Storing tiles, R283, R284 -/

/-- The destination bytes of a storing command, with sources as indexes into its image. -/
def MatCmd.shape (c : MatCmd) : CopyShape :=
  match c.op with
  | .mst rs f _ => .block 0 c.base (64 * Ofmt.bytes f) 64 1 (64 * Ofmt.bytes f) 0 rs 0
  | .mexp => .block 0 c.base rawBytes 1 1 0 0 0 0
  | _ => .lanes 4 []

/-- Byte i of the image that a command stores. -/
def MatCmd.image (c : MatCmd) (x : Tile) (i : Nat) : Byte :=
  match c.op with
  | .mst _ f sat => BitVec.ofNat 8 (readEl f sat x.e (x.els.get 0 (i / Ofmt.bytes f)) / 256 ^ (i % Ofmt.bytes f))
  | _ => BitVec.ofNat 8 ((if i < 32768 then (x.els.get 0 (i / 8)).toNat else wrap 16 x.e) / 256 ^ (i % 8))

/-- The checks of one destination word. -/
def State.matChecks (s : State) (t : Team) (c : MatCmd) (w : Nat) : List Check :=
  (s.wordBytes t false c.shape w).map fun b => s.checkPiece t.asid rightW anyFrame ((w + b.1) % 2 ^ 64, 1)

def State.modMat (s : State) (n : Nat) (f : MatCmd → MatCmd) : State :=
  { s with eng := { s.eng with mats := s.eng.mats.map fun c => if c.num = n then f c else c } }

def State.matWord (s : State) (t : Team) (c : MatCmd) (w : Nat) : State :=
  let x := t.tile c.acc
  let bytes := (s.wordBytes t false c.shape w).map fun b => (b.1, c.image x b.2)
  let l := s.place1 t.asid w rightW
  (s.modMat c.num fun c => { c with words := c.words ++ [w] }).enginePhys c.num none t.launch t.writer l.2 l.1 bytes

/-- Perform words of a storing command. -/
def State.matWords (s : State) (t : Team) (c : MatCmd) (ws : List Nat) : Performed :=
  let ws := ws.filter fun w => !c.words.contains w
  if (failing (ws.flatMap (s.matChecks t c))).isEmpty then .ok ((ws.foldl (fun s w => s.matWord t c w) s).cleanWords t c.shape (c.words ++ ws))
  else .stuck

/-- The writes of a storing command are placed as REL says. -/
def State.matPlace (s : State) (c : MatCmd) : State :=
  match c.rel with
  | some sc => s.placePhys sc (·.cmd == c.num)
  | none => s

/-! ## Performing a command whole -/

/-- The tile of a raw image in memory. -/
def State.loadTile (s : State) (t : Team) (c : MatCmd) : Tile :=
  let byte (i : Nat) : Byte := s.engineVirt c.bound t.asid c.num ((c.base + i) % 2 ^ 64)
  let word (k : Nat) : W64 := BitVec.ofNat 64 (leNat ((List.range 8).map fun j => byte (8 * k + j)))
  ⟨sval 16 (word 4096).toNat, (List.range 4096).foldl (fun m i => m.set 0 i (elLoad (word i))) []⟩

/-- A storing command's own reads and writes of memory pass their checks: the failing checks of a command. -/
def State.matFails (s : State) (t : Team) (c : MatCmd) : List Check :=
  match c.op, c.fmt with
  | .mma, some f =>
    match (List.range (fmtBlocks f)).find? fun b => match s.checkBlock t c f b with | .pass => false | _ => true with
    | some b => failing ((mmaRuns c f b).flatMap (s.runChecks t rightR))
    | none => []
  | .mld, _ => failing ((pieces c.base rawBytes).map (s.checkPiece t.asid rightR anyFrame))
  | .mst .., _ | .mexp, _ => failing ((c.shape.words.filter fun w => !c.words.contains w).flatMap (s.matChecks t c))
  | _, _ => []

/-- The first poisoned line that a command reads. -/
def State.matPoison (s : State) (t : Team) (c : MatCmd) : Option Nat :=
  match c.op, c.fmt with
  | .mma, some f => ((List.range (fmtBlocks f)).flatMap (mmaRuns c f)).findSome? (s.runPoison t)
  | .mld, _ => s.runPoison t ⟨c.base, rawBytes⟩
  | _, _ => none

/-- What a command does when it is performed whole. -/
def State.matPerform (s : State) (t : Team) (c : MatCmd) : Performed :=
  match s.matFails t c, s.matPoison t c with
  | [], none =>
    match c.op with
    | .mma => match c.fmt with
      | some f => .ok (s.applyBlocks t c f (fmtBlocks f))
      | none => .ok s
    | .mzero => .ok (s.modTeam t.ref (·.setTile c.acc Tile.zero))
    | .mrnm e =>
      let r := realign (t.tile c.acc) e
      let s := s.modTeam t.ref (·.setTile c.acc r.1)
      .ok (if r.2 then s.setWarn c.iss 2 else s)
    | .mld => .ok (s.modTeam t.ref (·.setTile c.acc (s.loadTile t c)))
    | .mst .. | .mexp => s.matWords t c c.shape.words
    | .mmov src => .ok (s.modTeam t.ref (·.setTile c.acc (t.tile src)))
  | _ :: _, _ => .stuck
  | [], some pa => .mchk pa

/-- The command follows, in its group's order, a CFIRE whose snapshot of one of its tiles is still to be read (R380). -/
def State.behindFire (s : State) (c : MatCmd) : Bool :=
  s.coll.live.any fun x => x.bind.srck && c.tiles.contains x.bind.tile &&
    x.snaps.any fun y => y.tk.any fun tk => c.nums.any fun n => n.1 == tk.iss && decide (tk.cmd < n.2)

/-- An accepted command that no earlier one on its tiles holds up, with its team, R265. -/
def State.liveMat (s : State) (n : Nat) : Option (MatCmd × Team) :=
  match s.eng.mats.find? (·.num == n) with
  | none => none
  | some c =>
    match s.team? c.iss.team with
    | none => none
    | some t =>
      let before := (s.eng.mats.takeWhile (·.num != n)).filter fun d => d.iss.team == c.iss.team && !d.failed
      if c.failed || t.ending.isSome || before.any (fun d => d.tiles.any c.tiles.contains) || s.behindFire c then none else some (c, t)

/-- The command leaves the engine and its broadcast set. -/
def State.dropMat (s : State) (n : Nat) : State :=
  { s with eng := { s.eng with
      mats := s.eng.mats.filter (·.num != n), bsets := (s.eng.leaveSets (· == n)).bsets } }

/-- MATRIX_COMMAND_COMPLETE. -/
def execMatrixCommandComplete (n : Nat) (s : State) : Host.Outcome State Fault Refusal :=
  match s.liveMat n with
  | none => .next s
  | some (c, t) =>
    match s.matPerform t c with
    | .ok s => .next ((((s.matPlace c).dropMat n).releaseEnds c).tryEnd c.iss.team)
    | .stuck => .next s
    | .mchk pa => .next (s.consume t.asid pa (s.consumer c.iss))

/-- Blocks of an MMA before the first that fails a check. -/
def State.goodBlocks (s : State) (t : Team) (c : MatCmd) : Nat :=
  match c.op, c.fmt with
  | .mma, some w => ((List.range (fmtBlocks w)).takeWhile fun b => match s.checkBlock t c w b with | .pass => true | _ => false).length
  | _, _ => 0

/-- A command stops for good: an MMA with the blocks before the failing one applied, R269; one of them that reads a poisoned
line ends the context first (R417). -/
def State.failMat (s : State) (t : Team) (c : MatCmd) (f : FaultInfo) : State :=
  let w := c.fmt.getD 0
  let n := s.goodBlocks t c
  match ((List.range n).flatMap (mmaRuns c w)).findSome? (s.runPoison t) with
  | some pa => s.consume t.asid pa (s.consumer c.iss)
  | none =>
    let s := s.applyBlocks t c w n
    let s := s.modMat c.num fun c => { c with failed := true }
    let s : State := { s with eng := s.eng.leaveSets (· == c.num) }
    s.engineFault c.iss f.code (f.val.getD 0) (engineDetail c.op.num c.fl)

/-- MATRIX_ENGINE_FAULT: as COPY_ENGINE_FAULT. -/
def execMatrixEngineFault (n : Nat) (s : State) : Host.Outcome State Fault Refusal :=
  match s.liveMat n with
  | none => .next s
  | some (c, t) =>
    let fs := s.matFails t c
    match nth .pass fs (s.choose [9, n] % fs.length) with
    | .pass =>
      match s.matPoison t c with
      | some pa => .next (s.consume t.asid pa (s.consumer c.iss))
      | none => .next s
    | .fail f => .next (s.failMat t c f)
    | .absent f =>
      if (s.ctx? t.asid).any (·.replay) then .next (s.stallEngine t n f) else .next (s.failMat t c f)

end Sys2Proof.Machine
end

