-- ==== Sys2Proof/Machine/Coll.lean ====
section
/-! DEFINITION. Collectives: bindings, placement, arrivals, snapshots, reduction, completion, timeout; class 0xB (spec/16). -/
namespace Sys2Proof.Machine

/-! ## The binding record, R371 to R375 -/

def Binding.m (b : Binding) : Nat := popcount 64 b.memb.toNat
/-- Rank of a member. -/
def Binding.rank (b : Binding) (i : Nat) : Nat := ((members b.memb).filter (· < i)).length
def Binding.memberAt (b : Binding) (rank : Nat) : Nat := nth 0 (members b.memb) rank
def Binding.owner (b : Binding) (k : Nat) : Nat := b.memberAt (k % b.m)
/-- O_j: chunks whose owner has rank j. -/
def Binding.owned (b : Binding) (j : Nat) : Nat := ((List.range b.nchunk).filter fun k => k % b.m == j).length
def Binding.elSize (b : Binding) : Nat := if b.elt = 1 ∨ b.elt = 3 then 8 else 4
def Binding.digest (b : Binding) : Digest := ⟨b.cid, b.opr, b.red, b.elt, b.cbytes, b.nchunk, b.memb, b.tc⟩

/-- Arrivals expected at rank j, of contributions and then of results, R375. -/
def Binding.expected (b : Binding) (j : Nat) : Nat × Nat :=
  match b.opr with
  | 0 => (b.m * b.owned j, 0)
  | 1 => (b.m * b.owned j, b.nchunk - b.owned j)
  | 2 => (b.m * b.nchunk, 0)
  | _ => (b.nchunk, 0)

/-- Offset from RBASE at which chunk k of source rank i is placed. -/
def Binding.offset (b : Binding) (i k : Nat) : Nat :=
  b.rstride * match b.opr with
    | 0 => k / b.m
    | 1 => k
    | 2 => i * b.nchunk + k
    | _ => i * (b.nchunk / b.m) + k / b.m

/-- Bytes of the result range of rank j. -/
def Binding.resultLen (b : Binding) (j : Nat) : Nat :=
  let n := match b.opr with | 0 => b.owned j | 2 => b.m * b.nchunk | _ => b.nchunk
  if n = 0 then 0 else (n - 1) * b.rstride + b.cbytes

/-- The 64 bytes as fields; none when a Reserved bit is set. -/
def parseBinding (bs : List Byte) : Option Binding :=
  let src := field bs 7 1
  if field bs 0x3C 4 ≠ 0 ∨ 64 ≤ src ∨ 4 ≤ field bs 6 1 ∨ 16 ≤ field bs 5 1 ∨ 4 ≤ field bs 4 1 then none
  else some {
    cid := field bs 0 4, opr := field bs 4 1, red := field bs 5 1 % 8, sat := (field bs 5 1).testBit 3, elt := field bs 6 1,
    srck := src.testBit 0, tile := bits src 3 1, tc := bits src 5 4,
    box := (List.range 6).map fun i => field bs (8 + 2 * i) 2,
    cbytes := field bs 0x14 4, sbase := field bs 0x18 8, sstride := field bs 0x20 4, rstride := field bs 0x24 4,
    rbase := field bs 0x28 8, memb := BitVec.ofNat 64 (field bs 0x30 8), tmo := field bs 0x38 4 }

/-- R373. -/
def Binding.combination (b : Binding) : Bool :=
  (match b.red with
    | 0 => b.opr == 2 || b.opr == 3
    | 1 => decide (b.opr ≤ 1) && b.elt == 3
    | 2 => decide (b.opr ≤ 1) && decide (b.elt ≤ 1)
    | 3 => decide (b.opr ≤ 1) && b.elt == 2
    | 4 | 5 => decide (b.opr ≤ 1) && decide (b.elt ≤ 2)
    | _ => false)
  && (!b.sat || b.red == 2) && (b.elt != 3 || b.cbytes == rawBytes) && (!b.srck || b.elt == 3)

/-! ## The range table, R378 -/

/-- The physically contiguous runs of a virtual range of n bytes, in whole 128-byte lines, oldest page first. -/
def State.runs (s : State) (asid a n : Nat) : List (Nat × Nat) :=
  if n = 0 then []
  else ((List.range ((a + n - 1) / 65536 - a / 65536 + 1)).foldl (fun (rs : List (Nat × Nat)) i =>
    let lo := max a (65536 * (a / 65536 + i))
    let hi := min (a + n) (65536 * (a / 65536 + i + 1))
    let pa := (s.place1 asid (lo % 2 ^ 64) {}).1
    match rs with
    | (b, len) :: rest => if b + len = pa then (b, len + (hi - lo)) :: rest else (pa, hi - lo) :: rs
    | [] => [(pa, hi - lo)]) []).reverse.map fun r => (r.1 / 128 * 128, (r.1 + r.2 + 127) / 128 * 128 - r.1 / 128 * 128)

/-- Every 64 KiB of a virtual range, as the first address of it in the range. -/
def pageStarts (a n : Nat) : List Nat :=
  if n = 0 then []
  else (List.range ((a + n - 1) / 65536 - a / 65536 + 1)).map fun i => max a (65536 * (a / 65536 + i))

/-- Enter the runs of a range, as one event; none when the table lacks entries. -/
def State.enterRuns (s : State) (asid a n part cid : Nat) (guard : Bool) : Option State :=
  let rs := s.runs asid a n
  if 256 < s.coll.ranges.length + rs.length then none
  else some { s with coll := { s.coll with ranges := s.coll.ranges ++ rs.map fun r => ⟨r.1, r.2, part, cid, guard⟩ } }

/-! ## Arrivals, R376, R377 -/

/-- The state without a collective's own entries, which its own accesses do not meet (R379). -/
def State.exempt (s : State) (c : Coll) : State :=
  { s with coll := { s.coll with ranges := s.coll.ranges.filter fun e => !(e.part == c.part && e.cid == c.bind.cid) } }

/-- A write of n bytes by the collective meets an entry of another one (R379). -/
def State.collBlocked (s : State) (c : Coll) (a n : Nat) : Bool :=
  (wordsOf a n).any fun w =>
    match s.translate c.asid (w % 2 ^ 64) rightW with
    | .ok l => (s.exempt c).collHit l.pa 4
    | _ => false

/-- The first poisoned table that the walks of such a write consume. -/
def State.collPoison (s : State) (c : Coll) (a n : Nat) : Option Nat :=
  (wordsOf a n).findSome? fun w => match s.translate c.asid (w % 2 ^ 64) rightW with | .poisoned pa => some pa | _ => none

/-- An engine write of a collective's bytes at a virtual address of its context; bytes whose page is not mapped with W are
not written, whole lines are cleaned, and a poisoned table ends the context (R417). -/
def State.collWrite (s : State) (c : Coll) (a : Nat) (bs : List Byte) : State :=
  match s.collPoison c a bs.length with
  | some pa => s.consume c.asid pa none
  | none =>
  (wordsOf a bs.length).foldl (fun s w =>
    match s.translate c.asid (w % 2 ^ 64) rightW with
    | .ok l =>
      let part := ((List.range 4).filter fun j => decide (a ≤ w + j ∧ w + j < a + bs.length)).map fun j => (j, nth 0 bs (w + j - a))
      s.enginePhys c.cmd none c.launch ⟨none, none⟩ l.gen l.pa part
    | _ => s) ((s.wholeLines c.asid (pieces a bs.length)).foldl State.clean s)

/-- A result that arrives would touch an entry of another collective: it is refused with RANGE (R349, R379). -/
def State.resultBlocked (s : State) (c : Coll) (src : Nat) (x : Chunk) : Bool :=
  x.result && x.digest == c.bind.digest && c.bind.memb.getLsbD src
    && s.collBlocked c (c.bind.rbase + c.bind.offset (c.bind.rank src) x.k) x.data.length

/-- An arrival at a live collective: it is counted exactly once; one whose digest differs drops the collective, and so does a
result from the pool that would touch another collective's entry, whose request has been answered (log 31). -/
def State.arriveLive (s : State) (c : Coll) (src num : Nat) (x : Chunk) : State :=
  if x.digest ≠ c.bind.digest then s.dropColl c.part c.bind.cid 8 true
  else if c.seen.contains (src, num) ∨ !c.bind.memb.getLsbD src then s
  else
    let rank := c.bind.rank src
    let a := c.bind.rbase + c.bind.offset rank x.k
    if x.result then
      if s.resultBlocked c src x then s.dropColl c.part c.bind.cid 1 true
      else (s.collWrite c a x.data).modColl c.part c.bind.cid
        fun c => { c with seen := c.seen ++ [(src, num)], second := c.second - 1 }
    else
      s.modColl c.part c.bind.cid fun c =>
        { c with seen := c.seen ++ [(src, num)], inbound := c.inbound ++ [(rank, x.k, x.data)], counter := c.counter - 1,
                 reduceDue := c.reduceDue || c.counter == 1 }

/-- The TMO that an unmatched arrival carries has passed since it was sent, R377. -/
def chunkExpired (x : Chunk) (now : Nat) : Bool := decide (x.sent + 1000 * x.tmo ≤ now)

/-- What an arrival meets: counted, held or discarded, with its status; or no room in the pool. -/
def State.arriveChunk (s : State) (src num part : Nat) (x : Chunk) : Option (State × Nat) :=
  match s.coll? part x.digest.cid with
  | some c => some (if !c.seen.contains (src, num) && s.resultBlocked c src x then (s, 8) else (s.arriveLive c src num x, 0))
  | none =>
    if chunkExpired x s.clock.time then some (s, 0)
    else
    let used := ((s.coll.pool.filter (·.part == part)).map fun u => u.chunk.digest.cbytes + 64).sum
    if used + x.digest.cbytes + 64 ≤ 2 ^ 20 then
      some ({ s with coll := { s.coll with pool := s.coll.pool ++ [⟨src, num, part, x⟩] } }, 0)
    else none

/-- A drop notice from src, R387. -/
def State.arriveDrop (s : State) (src part cid : Nat) : State :=
  match s.coll? part cid with
  | some _ => s.dropColl part cid 1 false
  | none => { s with coll := { s.coll with pool := s.coll.pool.filter fun u =>
      !(u.part == part && u.src == src && u.chunk.digest.cid == cid) } }

/-- Held arrivals that satisfy p and whose time has passed are discarded. -/
def State.expirePool (s : State) (p : Unmatched → Bool) : State :=
  { s with coll := { s.coll with pool := s.coll.pool.filter fun u => !(p u && chunkExpired u.chunk s.clock.time) } }

/-- UNMATCHED_ARRIVAL_EXPIRY: one that is due as time passes has gone already. -/
def execUnmatchedArrivalExpiry (src num : Nat) (s : State) : Host.Outcome State Fault Refusal :=
  .next (s.expirePool fun u => u.src == src && u.num == num)

/-! ## Acceptance of a binding, R374, R376 -/

/-- The binding at COLLB of a record, when order 6 of R290 passes. -/
def State.checkBinding (s : State) (part asid : Nat) (r : LRec) : Option Binding :=
  if r.collb % 64 ≠ 0 then none
  else
    match (s.fwRead asid r.collb 64).bind parseBinding with
    | none => none
    | some b =>
      let me := s.fab.me
      let rank := b.rank me
      let len := b.resultLen rank
      let n i := nth 0 b.box i
      if b.combination ∧ b.memb &&& ~~~s.fab.mask = 0 ∧ b.memb.getLsbD me ∧ !r.flags.testBit 5
         ∧ n 0 + n 3 ≤ r.gridx ∧ n 1 + n 4 ≤ r.gridy ∧ n 2 + n 5 ≤ r.gridz ∧ 1 ≤ b.nchunk ∧ b.nchunk ≤ 4096
         ∧ (b.opr ≠ 3 ∨ b.nchunk % b.m = 0) ∧ 1 ≤ b.cbytes ∧ b.cbytes ≤ 65536 ∧ b.cbytes % b.elSize = 0
         ∧ b.cbytes ≤ b.rstride ∧ (b.srck ∨ b.cbytes ≤ b.sstride) ∧ b.rstride % b.elSize = 0 ∧ b.sstride % b.elSize = 0
         ∧ (s.coll? part b.cid).isNone
         ∧ (pageStarts b.rbase len).all (fun a => canonical a &&
              match s.translate asid a rightW with | .ok _ => true | _ => false)
         ∧ canonicalI ((b.rbase : Int) + max len 1 - 1)
         ∧ s.coll.ranges.length + (s.runs asid b.rbase len).length ≤ 256
         ∧ s.choose [11, part, b.cid] % 2 = 0
      then some b else none

/-- fw5 creates the collective: counters, range entries, and the arrivals held in the pool. -/
def State.bindColl (s : State) (part launch asid : Nat) (b : Binding) : State :=
  let rank := b.rank s.fab.me
  let e := b.expected rank
  let n := s.newCmd
  let tmo := if b.tmo = 0 then (s.part part).tmodef else b.tmo
  let c : Coll := {
    part, own := s.fab.me, launch, asid, sealedAt := s.sched.steps, bind := b, counter := e.1, second := e.2, fired := [], outbound := [],
    inbound := [], seen := [], snaps := [], cmd := n.1, joins := [], reduceDue := e.1 == 0, reduceDone := false,
    deadline := s.clock.time + 1000 * tmo }
  let s : State := { n.2 with coll := { n.2.coll with live := n.2.coll.live ++ [c] } }
  let s := (s.enterRuns asid b.rbase (b.resultLen rank) part b.cid false).getD s
  let held := s.coll.pool.filter fun u => u.part == part && u.chunk.digest.cid == b.cid
  let s : State := { s with coll := { s.coll with pool := s.coll.pool.filter fun u => !(u.part == part && u.chunk.digest.cid == b.cid) } }
  held.foldl (fun s u => match s.coll? part b.cid with | some c => s.arriveLive c u.src u.num u.chunk | none => s) s

/-! ## Snapshots and sends, R380 -/

/-- Send a chunk of the collective to one member, as a direct-path request; one to this part goes by loopback. -/
def State.sendChunk (s : State) (c : Coll) (k : Nat) (result : Bool) (data : List Byte) (dest : Nat) : State :=
  let x : Chunk := ⟨c.bind.digest, k, result, data, s.clock.time, if c.bind.tmo = 0 then (s.part c.part).tmodef else c.bind.tmo⟩
  s.submit { FabReq.blank with coll := some c.bind.cid, part := c.part, dest := dest, tc := c.bind.tc, direct := true, body := some (.chunk x) }

/-- Members to which R375 sends chunk k. -/
def Binding.dests (b : Binding) (k : Nat) : List Nat := if b.opr = 2 then members b.memb else [b.owner k]

/-- The engine's checks of a piece of a snapshot's source. -/
def State.checkSnap (s : State) (c : Coll) (p : Nat × Nat) : Check := (s.exempt c).checkPiece c.asid rightR anyFrame p

def Coll.snapAddr (c : Coll) (k : Nat) : Nat := (c.bind.sbase + k * c.bind.sstride) % 2 ^ 64

/-- A matrix command that the firing group issued before the fire, alone or as a member of a gang, and that names the tile
is still to complete: not one that stopped, or of a team that is being discarded. -/
def State.tileBusy (s : State) (tk : Ticket) (tile : Nat) : Bool :=
  (s.team? tk.iss.team).any (·.ending.isNone) &&
  (s.eng.mats.any (fun m => !m.failed && m.tiles.contains tile && m.nums.any fun x => x.1 == tk.iss && decide (x.2 < tk.cmd))
    || (s.grp? tk.iss).any fun g => g.mq.any fun m => !m.failed && m.tiles.contains tile && decide (m.num < tk.cmd))

/-- The raw image of a tile, R283. -/
def rawImage (x : Tile) : List Byte :=
  (List.range 4096).flatMap (fun i => leBytes 8 (x.els.get 0 i).toNat) ++ leBytes 8 (wrap 16 x.e)

/-- The snapshot is complete: the chunk is in the outbound area and is sent. -/
def State.snapDone (s : State) (c : Coll) (x : Snap) (data : List Byte) : State :=
  let s := s.modColl c.part c.bind.cid fun c => { c with snaps := c.snaps.filter (· != x), outbound := c.outbound ++ [(x.k, data)] }
  let s := (c.bind.dests x.k).foldl (fun s d => s.sendChunk c x.k false data d) s
  (match x.tk with | some tk => s.complete tk 0 | none => s).tryEnd x.team

/-- A snapshot that faults ends as R231 says, and the collective is dropped. -/
def State.snapFails (s : State) (c : Coll) (x : Snap) (f : FaultInfo) : State :=
  let i := x.tk.elim ⟨x.team, 0⟩ (·.iss)
  (s.engineFault i f.code (f.val.getD 0) (engineDetail 0x2C1 (x.tk.bind (·.fl)))).dropColl c.part c.bind.cid 1 true

/-- CHUNK_SNAPSHOT_COMPLETE: the engine reads the chunk's source, each word by R209 as though with ACQ = PACKAGE at the fire. -/
def execChunkSnapshotComplete (part cid k : Nat) (s : State) : Host.Outcome State Fault Refusal :=
  match s.coll? part cid with
  | none => .next s
  | some c =>
    match c.snaps.find? (·.k == k) with
    | none => .next s
    | some x =>
      match s.team? x.team with
      | none => .next s
      | some t =>
        if s.mem.parked.any (·.who == .snap part cid k) then .next s
        else if c.bind.srck then
          if x.tk.any (fun tk => s.tileBusy tk c.bind.tile) then .next s
          else .next (s.snapDone c x (rawImage (t.tile c.bind.tile)))
        else
          let a := c.snapAddr k
          let ps := pieces a c.bind.cbytes
          let fs := failing (ps.map (s.checkSnap c))
          match nth .pass fs (s.choose [9, k] % fs.length) with
          | .fail f => .next (s.snapFails c x f)
          | .absent f =>
            if (s.ctx? c.asid).any (·.replay) then
              .next (s.parkEntry (clusterOf x.team.core) c.asid (f.val.getD 0) none (.snap part cid k))
            else .next (s.snapFails c x f)
          | .pass =>
            match ps.findSome? (fun p => let pa := (s.place1 c.asid p.1 rightR).1; if s.poisoned pa then some pa else none) with
            | some pa => .next (s.consume c.asid pa (some { team := t, recno := x.tk.elim 0 (·.iss.recno) }))
            | none =>
              let b : ReadBound := ⟨t.sealedAt, [(.package, x.stamp)], t.writer⟩
              .next (s.snapDone c x ((List.range c.bind.cbytes).map fun j => s.engineVirt b c.asid c.cmd ((a + j) % 2 ^ 64)))

/-! ## Exact reduction, R384 -/

def chunkEl (n : Nat) (bs : List Byte) (e : Nat) : Nat := field bs (n * e) n

/-- The raw images' exact sum, rounded once. -/
def accSum (cs : List (List Byte)) : List Byte :=
  let ex (c : List Byte) : Int := sval 16 (chunkEl 8 c 4096)
  let el (c : List Byte) (i : Nat) : W64 := elLoad (BitVec.ofNat 64 (chunkEl 8 c i))
  let lo := (cs.map ex).foldl min (cs.head?.elim 0 ex)
  let tag (i : Nat) : Nat := cs.foldl (fun g c =>
    combineTag g (match elTag (el c i) with | 0 => .fin 0 0 | 1 => .inf false | 2 => .inf true | _ => .nan)) 0
  -- each element's sum in units of 2^lo
  let xs : List (Nat × Int) := (List.range 4096).map fun i =>
    (tag i, (cs.map fun c => elMant (el c i) * 2 ^ (ex c - lo).toNat).sum)
  let need (x : Nat × Int) : Nat :=
    if x.1 ≠ 0 ∨ x.2.natAbs < 2 ^ 47 then 0
    else
      let d := x.2.natAbs.log2 - 46
      if (rneInt x.2 (-(d : Int))).natAbs < 2 ^ 47 then d else d + 1
  let d := min ((xs.map need).foldl max 0) (32767 - lo).toNat
  let out (x : Nat × Int) : W64 :=
    if x.1 ≠ 0 then elMake x.1 0
    else
      let y := rneInt x.2 (-(d : Int))
      if y.natAbs < 2 ^ 47 then elNormal y else elMake (if x.2 < 0 then 2 else 1) 0
  xs.flatMap (fun x => leBytes 8 (out x).toNat) ++ leBytes 8 (wrap 16 (lo + d))

/-- One element's values in rank order, combined. -/
def reduceEl (b : Binding) (vs : List Nat) : Nat :=
  let ty : Ty := match b.elt with | 0 => .s32 | 1 => .s64 | _ => .f32
  let noFlush : Flush := ⟨0, .fzn⟩
  let two (a c : Nat) : Nat :=
    match b.red with
    | 3 => Fmt.f32.round .rn (sumFp .rn [Fmt.f32.decode a, Fmt.f32.decode c])
    | r =>
      if b.elt = 2 then fminmax noFlush .f32 (r == 4) a c
      else if r = 4 then (if Ty.val ty a < Ty.val ty c then c else a) else (if Ty.val ty c < Ty.val ty a then c else a)
  if b.red = 2 then Ty.result ty b.sat ((vs.map (Ty.val ty)).sum)
  else match vs with
    | [] => 0
    | v :: rest => rest.foldl two v

/-- The combination of the contributions c_0 to c_(M-1) of a chunk. -/
def reduceChunk (b : Binding) (cs : List (List Byte)) : List Byte :=
  if b.red = 1 then accSum cs
  else (List.range (b.cbytes / b.elSize)).flatMap fun e => leBytes b.elSize (reduceEl b (cs.map fun c => chunkEl b.elSize c e))

/-- Contribution of rank i to chunk k. -/
def Coll.contribution (c : Coll) (i k : Nat) : List Byte :=
  match c.inbound.find? fun x => x.1 == i && x.2.1 == k with
  | some x => x.2.2
  | none => []

/-- The work of a reduce team: it writes the result range, and under OPR 1 sends each owned result to every other member. A
result that would touch another collective's entry faults COLL_RANGE against the bound launch, and ends the reduce team and
with it the collective (R379, log 31). -/
def State.reduceWork (s : State) (t : Team) (c : Coll) : State :=
  let fault (a : Nat) : State :=
    s.fw3 t { t.faultRec 0 .collRange .engine 0 a 0xFFFFFFFF 0 with launch := c.launch }
  let b := c.bind
  let rank := b.rank c.own
  -- source rank or own rank, chunk, data
  let results : List (Nat × Nat × List Byte) :=
    if b.opr ≤ 1 then
      ((List.range b.nchunk).filter fun k => k % b.m == rank).map fun k =>
        (rank, k, reduceChunk b ((List.range b.m).map fun i => c.contribution i k))
    else c.inbound
  let at_ (x : Nat × Nat × List Byte) : Nat := b.rbase + b.offset x.1 x.2.1
  match results.find? fun x => s.collBlocked c (at_ x) x.2.2.length with
  | some x => fault (at_ x % 2 ^ 64)
  | none =>
    let s := results.foldl (fun s x =>
      let s := s.collWrite c (at_ x) x.2.2
      if b.opr = 1 then ((members b.memb).filter (· != c.own)).foldl (fun s d => s.sendChunk c x.2.1 true x.2.2 d) s else s) s
    s.modColl c.part b.cid fun c => { c with reduceDone := true }

/-! ## Completion and timeout, R383, R386 -/

/-- COLLECTIVE_COMPLETE. -/
def execCollectiveComplete (part cid : Nat) (s : State) : Host.Outcome State Fault Refusal :=
  match s.coll? part cid with
  | none => .next s
  | some c =>
    if c.counter = 0 ∧ c.second = 0 ∧ c.reduceDone ∧ (s.teamsOf (.reduce part cid)).isEmpty ∧ c.snaps.isEmpty
       ∧ c.fired.length = c.bind.nchunk ∧ !s.fab.reqs.any (fun q => q.part == part && q.coll == some cid) then
      let s := s.placePhys .package fun u => u.cmd == c.cmd
      let s : State := { s with coll := { s.coll with
        live := s.coll.live.filter fun x => !(x.part == part && x.bind.cid == cid),
        ranges := s.coll.ranges.filter fun e => !(e.part == part && e.cid == cid) } }
      .next ((c.joins.foldl (fun s tk => s.complete tk 0) s).settleTeams)
    else .next s

/-- fw5 drops a collective whose TMO has expired, and fw3 reports COLL_TIMEOUT for the bound launch: its FAULT record stands
in place of DONE, and no team is killed. -/
def State.timeoutColl (s : State) (c : Coll) : State :=
  let s := s.dropColl c.part c.bind.cid 2 true
  let w := s.faultRecord c.part ((s.launch? c.launch).elim 0 (·.seq)) ⟨0x19, 3, 2, c.launch, 0, 0, 0xFFFFFFFF, 0, 0, 0, 0, 0⟩
  (w.1.modLaunch c.launch fun l => { l with timedOut := true }).settleTeams

/-- No collective outlives its TMO, R385: those whose deadline has come end now. -/
def State.expireColls (s : State) : State :=
  (s.coll.live.filter fun c => decide (c.deadline ≤ s.clock.time)).foldl (fun s c => s.timeoutColl c) s

/-- COLLECTIVE_TIMEOUT. -/
def execCollectiveTimeout (part cid : Nat) (s : State) : Host.Outcome State Fault Refusal :=
  match s.coll? part cid with
  | none => .next s
  | some c => .next (if c.deadline ≤ s.clock.time then s.timeoutColl c else s)

/-! ## Class 0xB, R388 to R390 -/

def View.cid (v : View) (o : Opnds) : Nat := v.scalar o .u32 o.sa

/-- A command of class 0xB stalls its group under FL = 15. -/
def View.hold15 (v : View) (o : Opnds) (cmd : Nat) (s : State) : State :=
  if o.fl.isNone then s.modGrp v.iss fun g => { g with stall := some cmd } else s

/-- A command that completes with a status as it issues. -/
def View.status (v : View) (i : Instr) (o : Opnds) (s : State) (x : Nat) : Issued :=
  let n := s.newCmd
  .done ((v.enter i o n.2).complete (v.ticket o n.1) x)

def execCrange (o : Opnds) (s : State) : Host.Outcome State Fault Refusal :=
  issue (.crange o) o s fun v => v.once o <|
    let b := sIndex o.sb
    let base := v.s64 b
    let len := v.s64 (b + 1)
    let cid := v.cid o
    let page (a : Nat) : Check :=
      let f (c : Code) : FaultInfo := { code := c, val := some a }
      match v.s.translate v.team.asid a {} with
      | .ok _ => .pass
      | .absent => .absent (f .xlate)
      | .bad => .fail (f .xlate)
      | .refused => .fail (f .prot)
      | .poisoned pa => .fail (poisonFault pa)
    if base % 128 ≠ 0 ∨ len % 128 ≠ 0 then .fault { code := .align }
    else if len = 0 then v.status (.crange o) o v.s 0
    else if !canonical base then .fault { code := .xlate, val := some base }
    else if !canonicalI ((base : Int) + len - 1) then .fault { code := .xlate, val := some ((base + len - 1) % 2 ^ 64) }
    else v.checked (firstFail ((pageStarts base len).map page)) <|
      match v.s.coll? v.team.part cid with
      | none => v.status (.crange o) o v.s 3
      | some _ =>
        match v.s.enterRuns v.team.asid base len v.team.part cid true with
        | none => v.status (.crange o) o v.s 4
        | some s => v.status (.crange o) o s 0

def execCfire (o : Opnds) (s : State) : Host.Outcome State Fault Refusal :=
  issue (.cfire o) o s fun v => v.once o <|
    match v.s.collOf v.team with
    | none => v.status (.cfire o) o v.s 3
    | some c =>
      if c.bind.cid ≠ v.cid o then v.status (.cfire o) o v.s 3
      else
        match c.bind.chunk v.team.coord with
        | none => v.status (.cfire o) o v.s 6
        | some k =>
          if c.fired.contains k then v.status (.cfire o) o v.s 5
          else
            let n := v.s.newCmd
            .done (v.hold15 o n.1 ((v.enter (.cfire o) o n.2).fire c k v.iss.team (some (v.ticket o n.1))))

/-- Some chunk of this member has not fired. -/
def Coll.unfired (c : Coll) : Bool := decide (c.fired.length < c.bind.nchunk)

def execCjoin (o : Opnds) (s : State) : Host.Outcome State Fault Refusal :=
  issue (.cjoin o) o s fun v => v.once o <|
    match v.s.coll? v.team.part (v.cid o) with
    | none => v.status (.cjoin o) o v.s 3
    | some c =>
      if (v.s.collOf v.team).any (fun x => x.bind.cid == v.cid o) && c.unfired then v.status (.cjoin o) o v.s 7
      else
        let n := v.s.newCmd
        let s := v.enter (.cjoin o) o n.2
        .done (v.hold15 o n.1 (s.modColl c.part c.bind.cid fun c => { c with joins := c.joins ++ [v.ticket o n.1] }))

def execCdrop (o : Opnds) (s : State) : Host.Outcome State Fault Refusal :=
  issue (.cdrop o) o s fun v => v.once o <|
    v.status (.cdrop o) { o with dst := .zero } (v.s.dropColl v.team.part (v.cid o) 1 true).settleTeams 0

end Sys2Proof.Machine
end

