-- ==== Sys2Proof/Machine/Fabric.lean ====
section
/-! DEFINITION. The fabric: class 0xA, the port engines' windows, timers and acknowledgements, arrivals and regions, relays, filters, and the calendar's steps (spec/15). -/
namespace Sys2Proof.Machine

/-! ## Regions, R353, R354, R365 -/

def Region.blank : Region := ⟨.free, 0, 0, 0, 0, 0, false, false, 0, 0⟩
def State.region (s : State) (r : Nat) : Region := s.fab.regions.get Region.blank r
def State.putRegion (s : State) (r : Nat) (x : Region) : State :=
  { s with fab := { s.fab with regions := s.fab.regions.set Region.blank r x } }

/-- The condition of an FWAIT on region r. -/
def State.fabMet (s : State) (arr : Bool) (r : Nat) (count : W64) : Bool :=
  if arr then decide (count.toNat ≤ (s.region r).arr.toNat) else (s.region r).state == .free

/-- Waiting FWAITs whose condition a change made true wake with reason 1. -/
def State.wakeFab (s : State) : State :=
  { s with teams := s.teams.map fun kv =>
      (kv.1, (kv.2.waitsOf fun k => match k with | .fab _ a r c _ _ => s.fabMet a r c | _ => false).foldl
        (fun t x => match x.2.2.kind with | .fab dst .. => t.finishWait s.sched.steps x.1 x.2.1 dst 1 | _ => t) kv.2) }

/-- A region that is CLOSING and has nothing in flight becomes FREE. -/
def State.closeRegion (s : State) (r : Nat) : State :=
  let x := s.region r
  if x.state = .closing ∧ x.flight = 0 then (s.putRegion r { x with state := .free }).wakeFab else s

/-- The acknowledgement of a request in flight in region r is sent. -/
def State.ackSent (s : State) (r : Option Nat) : State :=
  match r with
  | none => s
  | some r =>
    let x := s.region r
    (s.putRegion r { x with flight := x.flight - 1 }).closeRegion r

/-- Make the OPEN regions that satisfy p CLOSING. -/
def State.closeRegions (s : State) (p : Nat → Region → Bool) : State :=
  (s.fab.regions.filter fun x => x.2.state == .open_ && p x.1 x.2).foldl
    (fun s x => (s.putRegion x.1 { x.2 with state := .closing }).closeRegion x.1) s

/-! ## Final statuses, R346, R356, R357 -/

def FabReq.statusWord (q : FabReq) (code : Nat) : Nat :=
  let maybe := code == 3 || code == 9 || (code == 1 && q.sentOnce)
  let via := if q.sentOnce then q.via else none
  code + 2 ^ 8 * q.retries + 2 ^ 16 * via.getD 0 + 2 ^ 22 * via.isSome.toNat + 2 ^ 23 * maybe.toNat

/-- A request receives its final status. -/
def State.finishReq (s : State) (q : FabReq) (code : Nat) (old : W64) : State :=
  let bad := code != 0
  let s := match q.iss with
    | some i => if bad then s.modTeam i.team fun t => { t with fabErr := min (t.fabErr + 1) (2 ^ 32 - 1), fabErrCode := code, badReqs := t.badReqs ++ [q.dest] } else s
    | none => s
  let s := match q.tk with
    | some tk => s.complete tk (if q.body.isNone then q.statusWord code else if bad then 0 else old.toNat)
    | none => s
  let s := s.reqGone q bad
  let s : State := if code = 1 ∨ code = 3 then { s with fab := s.fab.oweSkip q } else s
  match q.coll with
  | some cid => if bad then s.dropColl q.part cid 1 true else s
  | none => s

/-! ## Clocks and timers, R338, R346 -/

def Fab.up (f : Fab) : Bool := f.state == .locked || f.state == .quiesced
def Fab.frozen (f : Fab) : Bool := f.state == .dark || f.state == .relocking || f.state == .left
/-- TIME at which the current slot ends, and its cycle. -/
def State.slotEnd (s : State) : Nat := s.fab.epoch + 520 * (s.slotCount + 1)
def State.cycleEnd (s : State) : Nat := s.fab.epoch + 520 * s.fab.calL * (s.fcyc + 1)

/-- Timers stop: they are kept as what remains of them. -/
def Fab.freeze (f : Fab) (now : Nat) : Fab :=
  if f.frozen then f else { f with reqs := f.reqs.map fun q => { q with expires := q.expires - now } }
def Fab.thaw (f : Fab) (now : Nat) : Fab := { f with reqs := f.reqs.map fun q => { q with expires := q.expires + now } }

/-! ## Sending, R343, R346, R352 -/

/-- Virtual words of an FSEND's source. -/
def FabReq.words (q : FabReq) : List Nat :=
  if q.body.isNone then (List.range (q.len / 4)).map fun i => (q.src + 4 * i) % 2 ^ 64 else []

inductive SrcRead where
  | good
  | fail (f : FaultInfo)
  | hold (f : FaultInfo)
  | mchk (pa asid : Nat)

/-- The engine's checks of a source as it is read for a transmission. -/
def State.readSource (s : State) (q : FabReq) : SrcRead :=
  match q.iss.bind fun i => s.team? i.team with
  | none => .good
  | some t =>
    let fs := (q.words.map fun w => s.checkPiece t.asid rightR anyFrame (w, 4)).filter fun k => match k with | .pass => false | _ => true
    match nth .pass fs (s.choose [9, q.num] % fs.length) with
    | .fail f => .fail f
    | .absent f => if (s.ctx? t.asid).any (·.replay) then .hold f else .fail f
    | .pass =>
      match q.words.findSome? (fun w => let pa := (s.place1 t.asid w rightR).1; if s.poisoned pa then some pa else none) with
      | some pa => .mchk pa t.asid
      | none => .good

/-- The packet of a request as it is sent now: an FSEND's words as its engine reads them (R209, R352). -/
def State.packet (s : State) (q : FabReq) : FabPacket :=
  let body := q.body.getD (.send (q.words.flatMap fun w =>
    match q.iss.bind fun i => s.team? i.team with
    | some t => (List.range 4).map fun j => s.engineVirt q.bound t.asid q.num (w + j)
    | none => []))
  ⟨s.fab.me, q.dest, q.num, q.part, q.tc, q.stream, s.fab.floor q.dest q.tc q.part, q.region, q.key, q.off, body⟩

def State.modReq (s : State) (n : Nat) (f : FabReq → FabReq) : State :=
  { s with fab := { s.fab with reqs := s.fab.reqs.map fun q => if q.num = n then f q else q } }

/-- One transmission of request n in the present window. -/
def State.transmit (s : State) (n : Nat) : State :=
  match s.fab.reqs.find? (·.num == n) with
  | none => s
  | some q =>
    match s.readSource q with
    | .good =>
      let k := match q.state with | .waiting k => k | _ => 0
      let s : State := { s with fab := { s.fab with sent := s.fab.sent ++ [s.packet q] } }
      s.modReq n fun q => { q with state := .sent k, sentOnce := true, retries := k, expires := s.slotEnd + 1000 * 2 ^ (k + 1) }
    | .hold f =>
      match q.iss with
      | some i => s.parkEntry (clusterOf i.team.core) ((s.team? i.team).elim 0 (·.asid)) (f.val.getD 0) none (.req n)
      | none => s
    | .fail f =>
      let s := match q.iss with
        | some i => s.engineFault i f.code (f.val.getD 0) (q.statusWord 0)
        | none => s
      s.dropReqs (·.num == n)
    | .mchk pa asid => (s.consume asid pa (q.iss.bind s.consumer)).dropReqs (·.num == n)

/-- The request's team, if it has one, is not being discarded. -/
def State.reqLive (s : State) (q : FabReq) : Bool :=
  match q.iss with
  | some i => (s.team? i.team).any (·.ending.isNone)
  | none => true

/-- TIME at which the current slot's data window opened, R338. -/
def State.opened (s : State) : Nat := s.fab.epoch + 520 * s.slotCount + 20

/-- Requests of one partition and class that a window to `peer` may carry, in order: those in their queue, or waiting with
their timer expired, when it opened (R346). -/
def State.sendable (s : State) (peer part tc : Nat) : List FabReq :=
  let parked (q : FabReq) : Bool := s.mem.parked.any (·.who == .req q.num)
  let mine := s.fab.reqs.filter fun q => q.part == part && q.tc == tc && s.reqLive q
  (mine.filter fun q => (match q.state with | .waiting _ => true | _ => false) && q.dest == peer && decide (q.expires ≤ s.opened) && !parked q)
    ++ (mine.filter fun q => q.state == .queued && q.hop == peer && decide (q.since ≤ s.opened) && (!s.fab.draining || s.fab.markers.contains q.num)).takeWhile fun q => !parked q

/-- Weighted round robin: in each round every list gives as many entries as its weight. -/
def interleave {α : Type} : Nat → List (Nat × List α) → List α
  | 0, _ => []
  | n + 1, xs => (xs.flatMap fun x => x.2.take x.1) ++ interleave n (xs.map fun x => (x.1, x.2.drop x.1))

/-- The order of service of R343. -/
def State.service (s : State) (peer : Nat) : List FabReq :=
  let n := s.fab.reqs.length
  let classes (p : Nat) : List FabReq := interleave n ((List.range 4).map fun c => (2 ^ (3 - c), s.sendable peer p c))
  interleave n ((List.range 32).map fun p => ((s.part p).fabsh, classes p))

/-- The longest prefix whose sizes stay within a budget, and what is left of it. -/
def within {α : Type} (size : α → Nat) : Nat → List α → List α × Nat
  | b, [] => ([], b)
  | b, x :: xs => if size x ≤ b then let r := within size (b - size x) xs; (x :: r.1, r.2) else ([], b)

def Owed.dest : Owed → Nat
  | .ack d _ _ _ _ => d
  | .poolwait d _ => d
  | .skip d _ _ _ => d

/-- Relays for the peer, what is owed to it, and requests, in one data window. -/
def State.window (s : State) (peer : Nat) : State :=
  let rel := within (fun x : Nat × FabPacket => bodySize x.2.body) 100000 (s.fab.relays.filter (·.2.dest == peer))
  let s : State := { s with fab := { s.fab with relays := s.fab.relays.filter fun x => !rel.1.contains x } }
  let mine := s.fab.owed.filter (·.dest == peer)
  let s : State := { s with fab := { s.fab with owed := s.fab.owed.filter (·.dest != peer) } }
  let s := mine.foldl (fun s o => match o with | .ack _ _ _ _ r => s.ackSent r | _ => s) s
  let go := within (·.len) (100000 + rel.2) (s.service peer)
  let s := go.1.foldl (fun s q => s.transmit q.num) s
  { s with fab := s.fab.releaseHeld s.clock.time }

/-- FABRIC_DATA_WINDOW on a port, with the identity flit received. A flit that differs from the entry makes the port-slot
unusable for the rest of the calendar, R337. -/
def execFabricDataWindow (port : Fin 8) (peer peerPort generation : Nat) (s : State) : Host.Outcome State Fault Refusal :=
  let slot := s.fslot
  let e := nth 0 s.fab.cal (8 * slot + port.val)
  if !s.fab.up || !e.testBit 15 || (s.clock.time - s.fab.epoch) % 520 < 20 || s.fab.badPorts.contains (slot, port.val)
     || s.fab.windows.get 0 port.val == s.slotCount + 1 then .next s
  else
    let s : State := { s with fab := { s.fab with windows := s.fab.windows.set 0 port.val (s.slotCount + 1) } }
    if peer = bits e 5 0 ∧ peerPort = bits e 14 12 ∧ generation = s.fab.commits then .next ((s.window peer).settleTeams)
    else .next (State.fwIrq { s with fab := { s.fab with badPorts := s.fab.badPorts ++ [(slot, port.val)], calMism := true } } 4)

/-- FABRIC_RETRY_TIMER. The next window that opens after the timer's expiry carries the request. -/
def execFabricRetryTimer (n : Nat) (s : State) : Host.Outcome State Fault Refusal :=
  match s.fab.reqs.find? (·.num == n) with
  | some q =>
    match q.state with
    | .sent k =>
      if s.fab.frozen ∨ s.clock.time < q.expires then .next s
      else if k < 7 then .next (s.modReq n fun q => { q with state := .waiting (k + 1) })
      else .next ((s.finishReq q 3 0).settleTeams)
    | _ => .next s
  | none => .next s

/-- A port-slot in which an identity flit disagreed accepts no data, R337. -/
def State.accepts (s : State) (port : Nat) : Bool := s.fab.up && !s.fab.badPorts.contains (s.fslot, port)

/-- POOLWAIT_ANSWER: the request returns to WAIT with its timer set to 2 microseconds, and RETRIES does not change. -/
def execPoolwaitAnswer (a : AtPort Nat) (s : State) : Host.Outcome State Fault Refusal :=
  let n := a.msg
  match s.fab.reqs.find? (·.num == n) with
  | some q =>
    match q.state with
    | .sent k => if s.accepts a.port then .next (s.modReq n fun q => { q with state := .waiting k, expires := s.clock.time + 2000 }) else .next s
    | _ => .next s
  | none => .next s

/-! ## Applying a request at its destination, R349 -/

/-- What came of an arrival: applied or refused with a code, the atomic's old value and the region it is in flight in;
held for a not-present page; or no room in the pool. -/
inductive Applied where
  | done (s : State) (code : Nat) (old : W64) (region : Option Nat)
  | hold (s : State) (asid va : Nat)
  | poolwait

/-- Words of a request in its region. -/
def targetWords (a n : Nat) : List Nat := (List.range (n / 4)).map fun i => (a + 4 * i) % 2 ^ 64

/-- The writes of a request that passed its checks: the state, the old value, and a poisoned line that an atomic consumed. -/
def State.applyBody (s : State) (asid a : Nat) (b : FabBody) : State × W64 × Option Nat :=
  let me : Writer := ⟨none, none⟩
  match b with
  | .send d =>
    let s1 := ((targetWords a d.length).zipIdx).foldl (fun s' w => s'.virtWrite s me asid w.1 ((d.drop (4 * w.2)).take 4)) s
    ((s.wholeLines asid ((targetWords a d.length).map fun w => (w, 4))).foldl State.clean s1, 0, none)
  | .add _ | .cas _ _ =>
    let ws := targetWords a 8
    let s := ws.foldl (fun s w => s.joinBefore (s.place1 asid w rightR).1 4) s
    let old : W64 := BitVec.ofNat 64 (leNat (ws.flatMap fun w => s.virtRead me asid w 4 rightR))
    match ws.findSome? (fun w => let pa := (s.place1 asid w rightR).1; if s.poisoned pa then some pa else none) with
    | some pa => (s.consume asid pa none, 0, some pa)
    | none =>
      let new : Option W64 := match b with
        | .add x => some (old + x)
        | .cas c n => if old = c then some n else none
        | _ => none
      match new with
      | some x => ((ws.zipIdx).foldl (fun s' w => s'.virtWrite s me asid w.1 (((leBytes 8 x.toNat).drop (4 * w.2)).take 4)) s, old, none)
      | none => (s, old, none)
  | .chunk _ | .drop _ => (s, 0, none)

/-- The error that is to strike a request's writes. -/
def State.strike? (s : State) (p : FabPacket) : Option Strike := s.fab.strikes.find? fun k => k.src == p.src && k.num == p.num

/-- Checks 2 to 6 and the application of a request that has passed check 1 and is counted in flight. -/
def State.applyOpen (s : State) (p : FabPacket) : Applied :=
  let r := s.region p.region
  let n := bodySize p.body
  let a := (r.base + p.off) % 2 ^ 64
  let need : Right := match p.body with | .send _ => rightW | _ => { r := true, w := true }
  let refuse (code : Nat) : Applied := .done s code 0 (some p.region)
  let walks := (targetWords a n).map fun w => if canonical w then (w, s.translate r.asid w need) else (w, .bad)
  if p.key ≠ r.key then refuse 4
  else if r.len < p.off + n then refuse 5
  else if (match p.body with | .send _ => !r.w | _ => !r.a) then refuse 6
  else
    let absent := walks.find? fun x => x.2 == .absent
    let bad := walks.any fun x => match x.2 with | .ok _ => false | .absent => false | _ => true
    match absent with
    | some x => if !bad && (s.ctx? r.asid).any (·.replay) then .hold s r.asid x.1 else refuse 7
    | none =>
      if bad then
        match walks.findSome? fun x => match x.2 with | .poisoned pa => some pa | _ => none with
        | some pa => .done (s.consume r.asid pa none) 9 0 (some p.region)
        | none => refuse 7
      else if walks.any fun x => match x.2 with | .ok l => s.collHit l.pa 4 | _ => false then refuse 8
      else
        match s.strike? p, p.body with
        | some k, .send d =>
          let s := (s.applyBody r.asid a (.send (d.take (4 * k.words)))).1
          let s : State := { s with fab := { s.fab with strikes := s.fab.strikes.filter (· != k) } }
          .done (s.endContext r.asid k.pa k.syndrome none) 9 0 (some p.region)
        | _, _ =>
        let w := s.applyBody r.asid a p.body
        if w.2.2.isSome then .done w.1 9 0 (some p.region)
        else
          let x := w.1.region p.region
          .done ((w.1.putRegion p.region { x with arr := x.arr + 1 }).wakeFab) 0 w.2.1 (some p.region)

/-- Apply a request whose turn has come. -/
def State.applyReq (s : State) (p : FabPacket) : Applied :=
  match p.body with
  | .chunk c =>
    match s.arriveChunk p.src p.num p.part c with
    | some (s, code) => .done s code 0 none
    | none => .poolwait
  | .drop cid => .done (s.arriveDrop p.src p.part cid) 0 0 none
  | _ =>
    let r := s.region p.region
    if r.state = .open_ ∧ p.region / 32 = p.part then
      (s.putRegion p.region { r with flight := r.flight + 1 }).applyOpen p
    else .done s 2 0 none

/-! ## Arrivals, R347, R350 -/

/-- The outcome enters the duplicate filter, and the acknowledgement is owed; a loopback request is acknowledged at once. -/
def State.answer (s : State) (p : FabPacket) (code : Nat) (old : W64) (region : Option Nat) : State :=
  if p.src = s.fab.me then
    match s.fab.reqs.find? (·.num == p.num) with
    | some q => (s.ackSent region).finishReq { q with sentOnce := true } code old
    | none => s.ackSent region
  else
    { s with fab := { s.fab with
        filter := s.fab.filter ++ [⟨p.src, p.num, code, old, s.clock.time + 1100000⟩],
        owed := s.fab.owed ++ [.ack p.src p.num code old region] } }

/-- The source's filter has no room for another entry. -/
def Fab.filterFull (f : Fab) (src : Nat) : Bool := decide (8192 ≤ (f.filter.filter (·.src == src)).length)

/-- A request that passed check 1 waits for a not-present page, in an entry of the fault buffer or for one. -/
def State.stallReq (s : State) (p : FabPacket) (asid va : Nat) : State :=
  let n := s.sched.nextCmd
  let s := s.parkEntry 0 asid va none .landing
  { s with fab := { s.fab with stalled := s.fab.stalled.put n p } }

/-- Apply a packet and answer it; false when it could not be finished now. -/
def State.turn (s : State) (p : FabPacket) : State × Bool :=
  match s.applyReq p with
  | .done s code old r => (s.answer p code old r, true)
  | .hold s asid va => (s.stallReq p asid va, false)
  | .poolwait => ({ s with fab := { s.fab with owed := s.fab.owed ++ [.poolwait p.src p.num] } }, false)

def Fab.stream? (f : Fab) (src tc part : Nat) : Stream :=
  (f.streams.find? fun x => x.src == src && x.tc == tc && x.part == part).getD ⟨src, tc, part, 0, 0, []⟩

def State.putStream (s : State) (x : Stream) : State :=
  { s with fab := { s.fab with streams :=
      (s.fab.streams.filter fun y => !(y.src == x.src && y.tc == x.tc && y.part == x.part)) ++ [x] } }

/-- A request of the stream is held for a not-present page. -/
def Fab.streamStalled (f : Fab) (src tc part : Nat) : Bool :=
  f.stalled.any fun x => x.2.src == src && x.2.tc == tc && x.2.part == part && x.2.stream.isSome

/-- Apply a stream's requests in their turn, skipping missing numbers below the highest floor received; one whose turn finds
the filter full is dropped. The fuel bounds the requests held. -/
def State.settleStream : Nat → State → Nat → Nat → Nat → State
  | 0, s, _, _, _ => s
  | fuel + 1, s, src, tc, part =>
    let x := s.fab.stream? src tc part
    if s.fab.streamStalled src tc part then s
    else
      match x.early.find? (fun p => p.stream == some x.next) with
      | some p =>
        let s := s.putStream { x with early := x.early.filter (fun y => y != p) }
        let r := if s.fab.filterFull src then (s, false) else s.turn p
        if r.2 then
          let y := r.1.fab.stream? src tc part
          State.settleStream fuel (r.1.putStream { y with next := x.next + 1 }) src tc part
        else r.1
      | none =>
        -- the next number is missing: skip to the first request held below the floor, or to the floor
        let skip := (x.early.filterMap (·.stream)).foldl min x.floor
        if x.next < skip then State.settleStream fuel (s.putStream { x with next := skip }) src tc part else s

/-- A stream's floor is received; it stays known while the stream is stalled. -/
def State.noteFloor (s : State) (src tc part floor : Nat) : State :=
  let x := s.fab.stream? src tc part
  let s := s.putStream { x with floor := max x.floor floor }
  s.settleStream (2 * x.early.length + 4) src tc part

/-- A request arrives: duplicates are answered again, a full filter drops it, a direct one waits for its turn. The floor that
any transmission carries is received, and a number below one received before has been skipped (R350). -/
def State.arrive (s : State) (port : Nat) (p : FabPacket) : State :=
  if !s.accepts port || !s.fab.has p.src || p.src == s.fab.me || p.dest != s.fab.me then s
  else
    match s.fab.filter.find? fun e => e.src == p.src && e.num == p.num with
    | some e =>
      let s : State := { s with fab := { s.fab with owed := s.fab.owed ++ [.ack p.src p.num e.code e.old none] } }
      s.noteFloor p.src p.tc p.part p.floor
    | none =>
      if s.fab.filterFull p.src ∨ s.fab.stalled.any (fun x => x.2.src == p.src && x.2.num == p.num)
      then s.noteFloor p.src p.tc p.part p.floor
      else
        match p.stream with
        | none => (s.turn p).1.noteFloor p.src p.tc p.part p.floor
        | some n =>
          let x := s.fab.stream? p.src p.tc p.part
          let s := if n < max x.next x.floor ∨ x.early.any (·.num == p.num) then s else s.putStream { x with early := x.early ++ [p] }
          let s := s.noteFloor p.src p.tc p.part p.floor
          -- at most 32 early arrivals are held
          let y := s.fab.stream? p.src p.tc p.part
          if 32 < y.early.length then s.putStream { y with early := y.early.filter (· != p) } else s

def isData : FabBody → Bool
  | .chunk _ | .drop _ => false
  | _ => true

def execFabricRequestArrival (p : AtPort FabPacket) (s : State) : Host.Outcome State Fault Refusal :=
  .next (if isData p.msg.body then (s.arrive p.port p.msg).settleTeams else s)

/-- CHUNK_ARRIVAL, R376. -/
def execChunkArrival (p : AtPort FabPacket) (s : State) : Host.Outcome State Fault Refusal :=
  .next (match p.msg.body with | .chunk _ => (s.arrive p.port p.msg).settleTeams | _ => s)

/-- DROP_NOTICE_ARRIVAL, R387. -/
def execDropNoticeArrival (p : AtPort FabPacket) (s : State) : Host.Outcome State Fault Refusal :=
  .next (match p.msg.body with | .drop _ => (s.arrive p.port p.msg).settleTeams | _ => s)

def execSkipNoticeArrival (a : AtPort Nat) (tc part floor : Nat) (s : State) : Host.Outcome State Fault Refusal :=
  let src := a.msg
  if s.accepts a.port && s.fab.has src && src != s.fab.me then .next ((s.noteFloor src tc part floor).settleTeams)
  else .next s

def execFilterEntryExpiry (src num : Nat) (s : State) : Host.Outcome State Fault Refusal :=
  .next { s with fab := { s.fab with filter := s.fab.filter.filter fun e =>
    !(e.src == src && e.num == num && decide (e.until_ ≤ s.clock.time)) } }

/-- A request held for a not-present page goes on once fw2 has answered: `mapped` applies it, else it is refused XLATE. One
that finds its filter full by then stays held, since it has passed check 1 (R354). -/
def State.resumeStalled (s : State) (n : Nat) (mapped : Bool) : State :=
  match s.fab.stalled.find n with
  | none => s
  | some p =>
    if p.src != s.fab.me && s.fab.filterFull p.src then s
    else
      let s : State := { s with fab := { s.fab with stalled := s.fab.stalled.del n } }
      let r := match (if mapped then s.applyOpen p else .done s 7 0 (some p.region)) with
        | .done s code old r => (s.answer p code old r, true)
        | .hold s asid va => (s.stallReq p asid va, false)
        | .poolwait => (s, false)
      match p.stream, r.2 && p.src != s.fab.me with
      | some k, true =>
        let x := r.1.fab.stream? p.src p.tc p.part
        (r.1.putStream { x with next := k + 1 }).settleStream (2 * x.early.length + 4) p.src p.tc p.part
      | _, _ => r.1

/-- Held requests without an entry of the fault buffer go on when one is free and their filter has room. -/
def State.retryStalled (s : State) : State :=
  ((s.fab.stalled.map (·.1)).filter fun n => !s.mem.parked.any (·.num == n)).foldl
    (fun s n => if s.bufferUsed 0 < 64 then s.resumeStalled n true else s) s

/-- Requests of this package that satisfy p and are held at it as their destination are abandoned there: no later write is
theirs (R332). -/
def State.dropLocal (s : State) (p : FabReq → Bool) : State :=
  let own (x : Nat × FabPacket) : Bool := s.fab.isMe x.2.src && s.fab.reqs.any fun q => p q && q.num == x.2.num
  (s.fab.stalled.filter fun x => own x).foldl (fun s x =>
    State.ackSent { s with
      fab := { s.fab with stalled := s.fab.stalled.del x.1 },
      mem := { s.mem with parked := s.mem.parked.filter (·.num != x.1) } } (some x.2.region)) s

/-! ## Acknowledgements and loopback, R344, R346 -/

/-- The local port engine applies a loopback request in its turn and acknowledges it at once. DESIGN CHOICE: no port carries it, so it
goes on after QUIESCE's markers and while the ports are dark (log 55). -/
def State.loopback (s : State) (q : FabReq) : State :=
  let earlier := s.fab.reqs.any fun r => r.dest == q.dest && r.tc == q.tc && r.part == q.part && r.state != .held &&
    (match r.stream, q.stream with | some a, some b => decide (a < b) | _, _ => false)
  if earlier ∨ s.mem.parked.any (·.who == .req q.num) ∨ !s.reqLive q
     ∨ s.fab.stalled.any (fun x => x.2.src == q.dest && x.2.num == q.num) then s
  else
    match s.readSource q with
    | .good =>
      (s.turn (s.packet q)).1
    | _ => s.transmit q.num

/-- An FSEND comes to this part, its destination, and an uncorrectable error is to strike its writes (R349): at once, or when
the request is applied, if it is held for its turn or for a page. A request to SELF is the port engine's own. -/
def State.arriveMchk (s : State) (port : Nat) (p : FabPacket) (words pa syndrome : Nat) : State :=
  let armed : State := { s with fab := { s.fab with
    strikes := s.fab.strikes.filter (fun k => !(k.src == p.src && k.num == p.num)) ++ [⟨p.src, p.num, words, pa, syndrome⟩] } }
  let s := if s.fab.isMe p.src then
      match s.fab.reqs.find? (·.num == p.num) with
      | some q => if s.fab.isMe q.dest && q.state == .queued then armed.loopback q else armed
      | none => armed
    else armed.arrive port p
  let held (k : Strike) : Bool :=
    s.fab.stalled.any (fun x => x.2.src == k.src && x.2.num == k.num)
      || s.fab.streams.any fun x => x.early.any fun y => y.src == k.src && y.num == k.num
  { s with fab := { s.fab with strikes := s.fab.strikes.filter held } }

/-- FABRIC_ACK: an acknowledgement of any transmission completes the request; for a request to SELF, the local port
engine applies it now. -/
def execFabricAck (a : AtPort Nat) (code : Nat) (old : W64) (s : State) : Host.Outcome State Fault Refusal :=
  let n := a.msg
  match s.fab.reqs.find? (·.num == n) with
  | none => .next s
  | some q =>
    if s.fab.isMe q.dest then
      match q.state with
      | .queued => .next ((s.loopback q).settleTeams)
      | _ => .next s
    else if !s.accepts a.port ∨ !q.sentOnce ∨ code = 1 ∨ code = 3 ∨ 9 < code then .next s
    else .next ((s.finishReq q code old).settleTeams)

/-! ## Relays, R345 -/

def execRelayRecordArrival (a : AtPort FabPacket) (s : State) : Host.Outcome State Fault Refusal :=
  let p := a.msg
  let used := (s.fab.relays.map fun x => bodySize x.2.body).sum
  if s.accepts a.port && s.fab.has p.dest && p.dest != s.fab.me && decide (used + bodySize p.body ≤ 2 ^ 22) then
    .next { s with fab := { s.fab with relays := s.fab.relays ++ [(s.clock.time, p)] } }
  else .next s

/-- RELAY_RECORD_EXPIRY: a record that is due as time passes has gone already. -/
def execRelayRecordExpiry (n : Nat) (s : State) : Host.Outcome State Fault Refusal :=
  .next { s with fab := { s.fab with relays := s.fab.relays.filter fun x => !(x.2.num == n && decide (x.1 + 550000 ≤ s.clock.time)) } }

/-! ## Issue, R360, R362, R363 -/

/-- A target word with its Reserved bits zero. -/
def targetOk (w : Nat) : Bool := bits w 31 22 == 0 && bits w 11 6 == 0

/-- A request that passed its issue checks: it stalls while its queue is full or its core has 256 in flight. -/
def View.request (v : View) (i : Instr) (o : Opnds) (m : FabMods) (tw : Nat) (f : FabReq → FabReq) : Issued :=
  let n := v.s.newCmd
  let q : FabReq := f { FabReq.blank with
    num := v.s.fab.reqNo, iss := some v.iss, part := v.team.part, dest := bits tw 5 0, tc := m.tc.val,
    direct := m.direct || m.relPod, bound := v.readBound m.acq, region := bits tw 21 12, key := BitVec.ofNat 32 (tw / 2 ^ 32),
    tk := if o.fl.isSome || isSReg o.dst then some (v.ticket o n.1) else none, wait := v.grp.podRel, samedest := m.relPod }
  let inflight := (v.s.fab.reqs.filter fun q => q.iss.any (·.team.core == v.iss.team.core)).length
  if 256 ≤ inflight ∨ (!v.s.fab.blocked q && !v.s.fab.roomFor q) then .stall v.s
  else .done (v.await o n.1 ((v.enter i o n.2).submit q))

def execFsend (o : Opnds) (m : FabMods) (s : State) : Host.Outcome State Fault Refusal :=
  issue (.fsend o m) o s fun v => v.once o <|
    let b := sIndex o.sa
    let x := v.s64 b
    let tw := v.s64 (b + 1)
    let len := x / 2 ^ 32
    let off := x % 2 ^ 32
    let a := v.s64 (sIndex o.sb)
    if !targetOk tw then .fault { code := .illOpnd, val := some tw }
    else if len = 0 ∨ 65536 < len then .fault { code := .illOpnd, val := some x }
    else if !v.s.fab.peer (bits tw 5 0) then .fault { code := .fabNopeer, val := some (bits tw 5 0) }
    else
      match [a, off, len].find? (· % 4 != 0) with
      | some y => .fault { code := .align, val := some y }
      | none =>
        v.checked (firstFail ((pieces a len).map (v.s.checkPiece v.team.asid rightR anyFrame))) <|
          v.request (.fsend o m) o m tw fun q => { q with off, len, src := a }

def execFatom (o : Opnds) (m : FabMods) (var : FatomVar) (s : State) : Host.Outcome State Fault Refusal :=
  issue (.fatom o m var) o s fun v => v.once o <|
    let b := sIndex o.sa
    let x := v.s64 b
    let tw := v.s64 (b + 1)
    if !targetOk tw then .fault { code := .illOpnd, val := some tw }
    else if x / 2 ^ 32 ≠ 0 then .fault { code := .illOpnd, val := some x }
    else if !v.s.fab.peer (bits tw 5 0) then .fault { code := .fabNopeer, val := some (bits tw 5 0) }
    else if x % 8 ≠ 0 then .fault { code := .align, val := some x }
    else
      let y := BitVec.ofNat 64 (v.scalar o .u64 o.sb)
      let body : FabBody := match var with | .add => .add y | .cas => .cas y (BitVec.ofNat 64 (v.scalar o .u64 o.sc))
      v.request (.fatom o m var) o m tw fun q => { q with off := x, body := some body }

/-! ## FDRAIN, R364 -/

def execFdrain (o : Opnds) (m : FabMods) (s : State) : Host.Outcome State Fault Refusal :=
  issue (.fdrain o m) o s fun v => v.once o <|
    let x := v.scalar o .u64 o.sa
    if 64 < x then .fault { code := .illOpnd, val := some x }
    else if x ≠ 64 ∧ !v.s.fab.has x then .fault { code := .fabNopeer, val := some x }
    else
      let covered (q : FabReq) : Bool :=
        q.part == v.team.part && q.state != .held && (if x = 64 then v.s.fab.has q.dest else q.dest == x)
      let n := v.s.newCmd
      let s := v.await o n.1 (v.enter (.fdrain o m) o n.2)
      let ended := (v.team.badReqs.filter fun m => if x = 64 then v.s.fab.has m else m == x).length
      let d : Drain := ⟨v.ticket o n.1, (s.fab.reqs.filter covered).map (·.num), ended⟩
      .done (State.settleDrains { s with fab := { s.fab with drains := s.fab.drains ++ [d] } })

/-! ## Regions by instruction, R365 to R368 -/

/-- R365's checks of a region operand, and then k. -/
def View.regionId (v : View) (x : Nat) (k : Nat → Issued) : Issued :=
  if 1024 ≤ x then .fault { code := .illOpnd }
  else if x / 32 ≠ v.team.part then .fault { code := .fabRegion }
  else k x

def execFwait (o : Opnds) (m : FabMods) (var : FwaitVar) (s : State) : Host.Outcome State Fault Refusal :=
  issue (.fwait o m var) o s fun v => v.once o <|
    v.regionId (v.scalar o .u64 o.sa) fun r =>
      let arr := match var with | .arr => true | .free => false
      let count := if arr then v.scalar o .u64 o.sb else 0
      .done (v.capture v.s (.wait (.fab o.dst arr r (BitVec.ofNat 64 count) (v.scalar o .u32 o.sc) 0) ((v.active o).map (·.tid))))

/-- FWAIT_TIMEOUT: TIME has reached the limit. -/
def execFwaitTimeout (r : TeamRef) (rec : Nat) (s : State) : Host.Outcome State Fault Refusal :=
  .next (s.endDue r rec 2)

def execFreg (o : Opnds) (m : FabMods) (s : State) : Host.Outcome State Fault Refusal :=
  issue (.freg o m) o s fun v => v.once o <|
    let b := sIndex o.sa
    let base := v.s64 b
    let y := v.s64 (b + 1)
    let len := y % 2 ^ 32
    let key : BitVec 32 := BitVec.ofNat 32 (y / 2 ^ 32)
    let x := v.scalar o .u64 o.sb
    let id := x % 1024
    let w := x.testBit 16
    let a := x.testBit 17
    let r := v.s.region id
    if bits x 15 10 ≠ 0 ∨ 2 ^ 18 ≤ x then .fault { code := .illOpnd }
    else if id / 32 ≠ v.team.part then .fault { code := .fabRegion }
    else if r.state = .open_ ∧ r.launch = v.team.launch ∧ r.base = base ∧ r.len = len ∧ r.key = key ∧ r.w = w ∧ r.a = a then .done v.s
    else if r.state ≠ .free then .fault { code := .fabRegion }
    else if base % 4 ≠ 0 ∨ len % 4 ≠ 0 ∨ len = 0 then .fault { code := .align }
    else if !canonical base then .fault { code := .xlate, val := some base }
    else if !canonicalI ((base : Int) + len - 1) then .fault { code := .xlate, val := some ((base + len - 1) % 2 ^ 64) }
    else .done (v.s.putRegion id ⟨.open_, v.team.launch, v.team.asid, base, len, key, w, a, 0, 0⟩)

def execFrev (o : Opnds) (m : FabMods) (s : State) : Host.Outcome State Fault Refusal :=
  issue (.frev o m) o s fun v => v.once o <|
    v.regionId (v.scalar o .u64 o.sa) fun id =>
      let r := v.s.region id
      if r.state = .free ∨ r.launch ≠ v.team.launch then .fault { code := .fabRegion }
      else .done ((v.s.putRegion id { r with state := .closing }).closeRegion id)

def execFqry (o : Opnds) (m : FabMods) (item : FqryItem) (s : State) : Host.Outcome State Fault Refusal :=
  issue (.fqry o m item) o s fun v => v.once o <|
    let f := v.s.fab
    let x := v.scalar o .u64 o.sa
    let give (n : Nat) : Issued := v.writes (v.dstS o n)
    match item with
    | .pod => give f.mask.toNat
    | .cal => give (popcount 64 f.mask.toNat + 2 ^ 8 * f.calL + 2 ^ 16 * f.commits)
    | .back =>
      let m := x % 64
      give (if f.has m then f.bytesTo m (fun q => q.part == v.team.part)
        + ((f.relays.filter fun r => r.2.dest == m && r.2.part == v.team.part).map fun r => bodySize r.2.body).sum else 0)
    | .rgn => v.regionId x fun r =>
      let g := v.s.region r
      give ((match g.state with | .free => 0 | .open_ => 1 | .closing => 2) + 2 ^ 16 * (g.flight % 2 ^ 32))
    | .arr => v.regionId x fun r => give (v.s.region r).arr.toNat
    | .err => give (v.team.fabErr + 2 ^ 32 * v.team.fabErrCode)
    | .lfsr => give f.lfsr

/-! ## The clock and the calendar, R336, R337, R340, R369, R370 -/

/-- R336 for a package of index i and a mask. -/
def calValid (cal : List Nat) (mask : W64) (i : Nat) : Bool :=
  let l := calLength mask
  let live := (cal.take (8 * l)).filter (·.testBit 15)
  cal.all (fun e => bits e 11 6 == 0) && (cal.drop (8 * l)).all (· == 0)
    && live.all (fun e => mask.getLsbD (bits e 5 0) && bits e 5 0 != i)
    && ((members mask).filter (· != i)).all fun m => (live.filter fun e => bits e 5 0 == m).length == 1

/-- The optical port of a valid entry is in service, R441. -/
def State.portsServe (s : State) (cal : List Nat) : Bool :=
  cal.zipIdx.all fun x => !(x.1.testBit 15) || !(nth ⟨false, false, 0, false, false, 0, 0⟩ s.mgmt.optics (x.2 % 8)).out

/-- CTL.STAGE. A table that fails is not staged, and neither is an earlier one any more: a DARK that waits for its boundary is
refused, and a relock keeps the current calendar (R337). -/
def execCalStage (s : State) : Host.Outcome State Fault Refusal :=
  if calValid s.fab.ncal s.fab.nmask s.fab.self && s.portsServe s.fab.ncal then .next { s with fab := { s.fab with staged := true } }
  else .next (State.fwIrq { s with fab := { s.fab with calErr := true, staged := false, darkAt := none } } 4)

/-- CTL.QUIESCE: a drain marker enters every queue. -/
def execCalQuiesce (s : State) : Host.Outcome State Fault Refusal :=
  let f : Fab := { s.fab with draining := true, markers := (s.fab.reqs.filter fun q => q.state != .held).map (·.num) }
  .next { s with fab := f.settleMarkers }

/-- CTL.DARK, refused without an accepted stage. -/
def execCalDark (s : State) : Host.Outcome State Fault Refusal :=
  if s.fab.staged then .next { s with fab := { s.fab with darkAt := some s.cycleEnd } }
  else .next { s with fab := { s.fab with calErr := true } }

/-- R370, once MASK has changed: requests and relays to removed members end; a fox request whose intermediate has left
enters the direct queue. -/
def State.maskChanged (s : State) : State :=
  let s : State := { s with fab := { s.fab with relays := s.fab.relays.filter fun x => s.fab.has x.2.dest } }
  let s := (s.fab.reqs.filter fun q => !s.fab.has q.dest).foldl (fun s q => s.finishReq q 1 0) s
  let s := (s.fab.reqs.filter fun q => q.state == .queued && q.via.any fun x => !s.fab.has x).foldl
    (fun s q => { s with fab := s.fab.enter s.clock.time { q with direct := true } }) s
  { s with fab := { s.fab with owed := s.fab.owed.filter fun o => s.fab.has o.dest } }

/-- FABRIC_DARK_AT_BOUNDARY: ports go dark, timers freeze, MASK := NMASK. DESIGN CHOICE: an acknowledgement owed to a member that
leaves MASK is dropped and counts as sent, so its region has one request less in flight (log 55). -/
def execFabricDarkAtBoundary (s : State) : Host.Outcome State Fault Refusal :=
  match s.fab.darkAt with
  | none => .next s
  | some at_ =>
    if s.clock.time < at_ then .next s
    else
      let gone := s.fab.owed.filter fun o => !(decide (o.dest < 64) && s.fab.nmask.getLsbD o.dest)
      let s := gone.foldl (fun s o => match o with | .ack _ _ _ _ r => s.ackSent r | _ => s) s
      let f := s.fab.freeze s.clock.time
      let f : Fab := { f with state := .dark, darkAt := none, darkDone := true, mask := s.fab.nmask }
      let s : State := { s with fab := f.renumber s.fab.me }
      .next (s.maskChanged.settleTeams)

/-- CTL.RELOCK: at NEPOCH after a DARK, else at the next cycle boundary (R340). -/
def execCalRelock (s : State) : Host.Outcome State Fault Refusal :=
  if s.fab.state = .dark ∨ s.fab.state = .left then
    .next { s with fab := { s.fab with state := .relocking, relockAt := some (if s.fab.darkDone then s.fab.nepoch else s.cycleEnd) } }
  else .next s

/-- RELOCK_AT_NEPOCH, at NEPOCH as it stands after a DARK: the staged calendar takes effect, held requests are released and
timers resume. -/
def execRelockAtNepoch (s : State) : Host.Outcome State Fault Refusal :=
  match s.fab.relockAt with
  | none => .next s
  | some at_ =>
    if s.clock.time < (if s.fab.darkDone then s.fab.nepoch else at_) ∨ s.fab.state ≠ .relocking then .next s
    else
      let f := s.fab.thaw s.clock.time
      let calendar := f.darkDone && f.staged
      let own := f.me
      let f : Fab := { f with relockAt := none, state := .locked, darkDone := false, draining := false, markers := [] }
      let f : Fab :=
        if calendar then
          let single := popcount 64 f.mask.toNat ≤ 1
          { f with
            cal := f.ncal, epoch := f.nepoch, calL := calLength f.mask, lfsr := 0xACE1 ^^^ (f.self * 2 ^ 8), commits := f.commits + 1,
            staged := false, badPorts := [], windows := [],
            state := if single then .alone else .locked, mask := if single then 1 else f.mask, inPod := !single }
        else f
      .next { s with fab := (f.renumber own).releaseHeld s.clock.time }

/-- A write to STATE clears the bits from 8 to 10 that it names, R341; one that sets a Reserved bit does nothing (R2). -/
def execFabricStateClear (x : W64) (s : State) : Host.Outcome State Fault Refusal :=
  if 2 ^ 11 ≤ x.toNat then .next s
  else .next { s with fab := { s.fab with
    calErr := s.fab.calErr && !x.getLsbD 8, calMism := s.fab.calMism && !x.getLsbD 9, offWarn := s.fab.offWarn && !x.getLsbD 10 } }

/-- FABRIC_CLOCK_OFFSET: the offset to the pod reference, in ps, R340. -/
def execFabricClockOffset (ps : Int) (s : State) : Host.Outcome State Fault Refusal :=
  let s : State := { s with fab := { s.fab with offset := ps } }
  if s.fab.state = .alone ∨ ps.natAbs ≤ 2000 then .next s
  else if ps.natAbs ≤ 5000 then .next (State.fwIrq { s with fab := { s.fab with offWarn := true } } 4)
  else
    let f := s.fab.freeze s.clock.time
    let s := State.fwIrq { s with fab := { f with state := .left, relockAt := none } } 4
    .next ((List.range 32).foldl (fun s p => if (s.part p).pctl.getLsbD 0 && (s.part p).fabsh != 0 then s.irq p 3 else s) s)

end Sys2Proof.Machine
end

