-- ==== Sys2Proof/Machine/Work.lean ====
section
/-! DEFINITION. The front end: launch windows and records, hazards, dispatch, completion, cancel, dens, feed queues, the status ring's registers, mailboxes, bind records; DENPUT, QPOP, QPUSH, LAUNCH, CNTW, CANCEL (spec/13). -/
namespace Sys2Proof.Machine

/-! ## Records, R288, R289 -/

/-- KIND and ID of a bind record admit an item, R296. -/
def bindAdmits (x : W64) (item : Item) (feedq : Nat) : Bool :=
  let id := x.toNat % 2 ^ 32
  match bits x.toNat 51 50, item with
  | 0, _ => true
  | 1, .launch l => l == id
  | 2, .den d => d == id
  | 3, .launch _ => feedq == id + 1
  | _, _ => false

def parseLRec (bs : List Byte) : LRec where
  khdr := field bs 0 8
  gridx := field bs 0x08 4
  gridy := field bs 0x0C 2
  gridz := field bs 0x0E 2
  argp := field bs 0x10 8
  deadline := field bs 0x18 6
  scls := field bs 0x1E 1
  dcls := field bs 0x1F 1
  graph := field bs 0x20 2
  phase := field bs 0x22 2
  job := field bs 0x24 2
  feedq := field bs 0x26 2
  succh := field bs 0x28 8
  collb := field bs 0x30 8
  fpcw := BitVec.ofNat 32 (field bs 0x38 4)
  flags := field bs 0x3C 2
  ranges := (List.range 4).map fun i =>
    (field bs (0x40 + 8 * i) 8 / 2 ^ 16 * 2 ^ 16, field bs (0x60 + 4 * i) 4, field bs (0x40 + 8 * i) 8 % 4)

def LRec.frep (r : LRec) : Bool := r.flags.testBit 0
def LRec.cirq (r : LRec) : Bool := r.flags.testBit 1
def LRec.isDen (r : LRec) : Bool := r.flags.testBit 5
/-- Used ranges as base, length in bytes, KIND. A range of length 0 is not used, whatever its KIND; no check looks at the
base of a used one (log 52). -/
def LRec.used (r : LRec) : List (Nat × Nat × Nat) :=
  (r.ranges.filter fun x => x.2.2 != 0 && x.2.1 != 0).map fun x => (x.1, 65536 * x.2.1, x.2.2)
/-- Level ids named: level, id, and whether the record closes the id. -/
def LRec.levels (r : LRec) : List (Level × Nat × Bool) :=
  ([(.graph, r.graph, r.flags.testBit 2), (.phase, r.phase, r.flags.testBit 3), (.job, r.job, r.flags.testBit 4)] :
    List (Level × Nat × Bool)).filter fun x => x.2.1 != 0

def KHdr.blank : KHdr := ⟨0, 0, 0, 0, 0, 0, 0, 0, [], 0, 0, 0⟩
/-- What a reduce team asks of its slot: the smallest team of R16, one group of 32 threads (log 44). -/
def KHdr.reduce : KHdr := { KHdr.blank with threads := 32, roles := [(1, 0)] }
def LRec.blank : LRec := parseLRec []
def Den.blank (num part : Nat) : Den where
  num := num; part := part; opened := false; id := 0; seq := 0; asid := 0; lrec := .blank; hdr := .blank; argp := 0
  records := []; reserved := 0; timer := none; ready := []; restarts := []; cancelled := false; late := false; sealedAt := 0
  hazards := []; report := none; burrows := []

/-! ## The window, R286 -/

def State.slotAddr (s : State) (p : Nat) : Nat := (s.part p).winBase + 128 * ((s.part p).e % 64)

/-- An ASID that no context has. -/
def noAsid : Nat := 4096

/-- The translation context of a partition's host records: the first that fw2 created for it (log 15), if it has one. -/
def State.partAsid (s : State) (part : Nat) : Nat := ((s.mem.ctxs.find? (·.part == part)).map (·.asid)).getD noAsid

/-- The line monitor reads a sealed record of the watched slot, unless one is read and not yet parsed. A slot that is poisoned
ends the partition's context and is released unread (R417, log 22). -/
def State.watch (s : State) (p : Nat) : State :=
  let a := s.slotAddr p
  if (s.part p).flr || s.front.pendingLaunches.any (·.1 == p) || !(s.mem.phys.byte (a + 127)).getLsbD 7 then s
  else if s.poisoned a then (s.consume (s.partAsid p) a none).physWrite ⟨none, none⟩ 0 (a + 127) [0]
  else { s with front := { s.front with pendingLaunches :=
    s.front.pendingLaunches ++ [(p, s.sched.steps, (List.range 128).map fun j => s.mem.phys.byte (a + j))] } }

def State.watchAll (s : State) : State := (List.range 32).foldl (fun s p => s.watch p) s

/-- LAUNCH_RECORD_SEAL: the host stores byte 127 of the watched slot, over its link (R440). -/
def execLaunchRecordSeal (part : Fin 32) (x : Byte) (s : State) : Host.Outcome State Fault Refusal :=
  if !s.mgmt.phy then .next s else .next ((s.physWrite ⟨none, none⟩ 0 (s.slotAddr part + 127) [x]).watch part)

/-- fw0 releases the slot of a record it has read: byte 127 := 0. -/
def State.releaseSlot (s : State) (p slot : Nat) : State :=
  let s : State := { s with front := { s.front with pendingLaunches := s.front.pendingLaunches.filter (·.1 != p) } }
  s.physWrite ⟨none, none⟩ 0 ((s.part p).winBase + 128 * slot + 127) [0]

/-! ## Checks, R290 -/

def State.feedq? (s : State) (q : Nat) : Option FeedQ := s.front.feedqs.find? (·.num == q)
def State.modFeedq (s : State) (q : Nat) (f : FeedQ → FeedQ) : State :=
  { s with front := { s.front with feedqs := s.front.feedqs.map fun x => if x.num = q then f x else x } }

def State.level? (s : State) (part : Nat) (lv : Level) (id : Nat) : Option LevelCtr :=
  s.front.levels.find? fun c => c.level == lv && c.part == part && c.id == id

def levelRoom : Level → Nat
  | .graph => 4096 | .phase => 1024 | .job => 256 | .launch => 0

/-- Order 2. -/
def State.recOk (s : State) (part : Nat) (bs : List Byte) (r : LRec) : Bool :=
  zeroBytes bs 0x70 15 && zeroBytes bs 0x3E 2 && decide (r.flags < 64 ∧ r.dcls < 4 ∧ r.scls < 4 ∧ r.scls ≠ 1 ∧ r.fpcw.toNat < 256)
    && (List.range 4).all (fun i => bits (field bs (0x40 + 8 * i) 8) 15 2 == 0)
    && r.ranges.all (fun x => x.2.2 != 0 || x.2.1 == 0)
    && if r.isDen then
        decide (r.gridx ≤ 2047 ∧ 1 ≤ r.gridy ∧ r.gridy ≤ 64) && (s.den? r.gridx).any fun d => d.part == part && !d.opened
      else decide (r.gridx ≠ 0 ∧ r.gridy ≠ 0 ∧ r.gridz ≠ 0 ∧ r.gridx * r.gridy * r.gridz ≤ 2 ^ 32 - 1)

/-- What the checks from order 2 on find: a reason, or the header and binding. -/
inductive Checked where
  | refused (reason : Nat)
  | good (hdr : KHdr) (bind : Option Binding)

def State.checkRec (s : State) (part asid : Nat) (device : Bool) (bs : List Byte) : Checked :=
  let r := parseLRec bs
  if !s.recOk part bs r || (device && !(field bs 127 1).testBit 7) then .refused 2
  else
    match s.readHdr asid r.khdr with
    | none => .refused 3
    | some h =>
      if r.isDen && decide (h.scratch < 64 * (r.gridy + 1)) then .refused 2
      else
        match s.fwRead asid r.argp h.args with
        | none => .refused 4
        | some _ =>
          if r.feedq ≠ 0 ∧ !(s.feedq? (r.feedq - 1)).any (·.part == part) then .refused 5
          else
            let b := if r.collb = 0 then none else s.checkBinding part asid r
            if r.collb ≠ 0 ∧ b.isNone then .refused 6
            else if r.levels.any fun x => (s.level? part x.1 x.2.1).any (·.cancelled) then .refused 7
            else if r.levels.any fun x => (s.level? part x.1 x.2.1).isNone
                && decide (levelRoom x.1 ≤ (s.front.levels.filter (·.level == x.1)).length) then .refused 8
            else if device ∧ 512 < s.front.intervals.length + r.used.length then .refused 9
            else .good h b

/-- The poisoned line that made a check of a record fail (R417). -/
def State.recPoison (s : State) (asid : Nat) (r : LRec) (reason : Nat) : Option Nat :=
  match reason with
  | 3 => s.hdrPoison asid r.khdr
  | 4 => s.fwPoison asid r.argp ((s.readHdr asid r.khdr).elim 0 (·.args))
  | 6 => if r.collb % 64 = 0 then s.fwPoison asid r.collb 64 else none
  | _ => none

/-- Consuming that line ends the record's context. -/
def State.recMchk (s : State) (asid : Nat) (r : LRec) (reason : Nat) : State :=
  match s.recPoison asid r reason with
  | some pa => s.consume asid pa none
  | none => s

/-! ## Acceptance, R291, R294, R303, R305 -/

/-- The argument bytes as fw0 copies them: words that changed after the record was sealed hold the earlier or the later
value, each by free choice (R209, R291). -/
def State.copyArgs (s : State) (asid va n stamp : Nat) : List Byte :=
  let b : ReadBound := ⟨stamp, [(.package, stamp)], ⟨none, none⟩⟩
  (List.range n).map fun j => s.engineVirt b asid s.sched.nextCmd ((va + j) % 2 ^ 64)

/-- The slots whose bind record lets an item of a partition and its record's classes in, whatever occupies them. -/
def State.slotsOf (s : State) (item : Item) (part : Nat) (r : LRec) : List Nat :=
  (s.front.binds.filter fun b =>
    b.2.getLsbD 63 && bits b.2.toNat 62 61 == r.scls && bits b.2.toNat 60 56 == part && b.2.getLsbD (52 + r.dcls)
      && bindAdmits b.2 item r.feedq).map (·.1)

/-- Bytes of a burrow: THREADS * 512, in whole pages of 64 KiB (R106). -/
def KHdr.burrowSize (h : KHdr) : Nat := (512 * h.threads + 65535) / 65536 * 65536

/-- fw2 creates a burrow for each slot that the bind records come to allow, under the key id of the context, R106. -/
def State.addBurrows (s : State) (bs : List Burrow) (asid : Nat) (h : KHdr) (slots : List Nat) : List Burrow :=
  bs ++ (slots.filter fun n => !bs.any (·.slot == n)).map fun n => ⟨n, h.burrowSize, (s.ctx? asid).elim 0 (·.key)⟩

def Launch.growBurrows (l : Launch) (s : State) : Launch :=
  { l with burrows := s.addBurrows l.burrows l.asid l.hdr (s.slotsOf (.launch l.id) l.part l.lrec) }
def Den.growBurrows (d : Den) (s : State) : Den :=
  { d with burrows := s.addBurrows d.burrows d.asid d.hdr (s.slotsOf (.den d.num) d.part d.lrec) }

def State.growBurrows (s : State) : State :=
  { s with front := { s.front with
      launches := s.front.launches.map fun l => l.growBurrows s,
      dens := s.front.dens.map fun d => if d.opened then d.growBurrows s else d } }

/-- The private page of a record's argument bytes; none when the address fw2 chooses is in use. -/
def State.argPage (s : State) (asid owner : Nat) (args : List Byte) : Option (Nat × State) :=
  let va := 65536 * (s.choose [14, asid] % 2 ^ 37)
  let used := s.mem.argPages.map (·.pa)
  let i := (List.range (used.length + 1)).find? fun i => !used.contains (0x5E00000000 + 65536 * i)
  let pa := 0x5E00000000 + 65536 * i.getD 0
  match s.translate asid va {} with
  | .absent =>
    let out (a : Nat) : Bool := !(decide (pa ≤ a ∧ a < pa + 65536))
    let lines (l : Nat) : Bool := out (128 * l)
    some (va, { s with mem := { s.mem with
      phys := Store.setBytes { cells := s.mem.phys.cells.filter fun x => out x.1, unplaced := s.mem.phys.unplaced.filter fun u => out u.word,
                               past := s.mem.phys.past.filter fun p => out p.word } pa args,
      tags := s.mem.tags.filter fun x => lines x.1, poison := s.mem.poison.filter fun l => lines l,
      argPages := s.mem.argPages ++ [⟨asid, va, pa, owner⟩] } })
  | _ => none

/-- Owners whose ranges conflict with a record's, except the issuing launch. -/
def State.hazardsOf (s : State) (asid : Nat) (r : LRec) (except_ : Option Item) : List Item :=
  ((s.front.intervals.filter fun e => e.asid == asid && some e.owner != except_ && r.used.any fun x =>
    decide (x.1 < e.base + e.len ∧ e.base < x.1 + x.2.1) && (decide (2 ≤ e.kind) || decide (2 ≤ x.2.2))).map (·.owner)).eraseDups

/-- A named level id takes its counter or opens one, and a closing record takes the open token. -/
def State.nameLevel (s : State) (part : Nat) (x : Level × Nat × Bool) : State :=
  let lv : List LevelCtr := match s.level? part x.1 x.2.1 with
    | some _ => s.front.levels
    | none => s.front.levels ++ [⟨x.1, part, x.2.1, true, false⟩]
  { s with front := { s.front with levels := lv.map fun c =>
      if c.level = x.1 ∧ c.part = part ∧ c.id = x.2.1 ∧ x.2.2 then { c with opened := false } else c } }

/-- fw0 accepts a record: the launch id and the state; none while the argument page cannot be mapped. -/
def State.accept (s : State) (part asid sealedAt : Nat) (from_ : Option Item) (r : LRec) (h : KHdr)
    (b : Option Binding) : Option (Nat × State) :=
  let count := if (s.part part).ids = 2 ^ 27 - 1 then 1 else (s.part part).ids + 1
  let id := part * 2 ^ 27 + count
  match s.argPage asid id (s.copyArgs asid r.argp h.args sealedAt) with
  | none => none
  | some (va, s) =>
    let seq := s.front.accSeq + 1
    let s := s.modPart part fun q => { q with ids := count }
    let item : Item := if r.isDen then .den r.gridx else .launch id
    let hz := s.hazardsOf asid r from_
    let s : State := { s with front := { s.front with
      accSeq := seq,
      intervals := s.front.intervals ++ r.used.map fun x => ⟨asid, x.1, x.2.1, x.2.2, item⟩ } }
    let s := r.levels.foldl (fun s x => s.nameLevel part x) s
    let s :=
      if r.isDen then
        s.modDen r.gridx fun d => { Den.blank d.num d.part with
          opened := true, id := id, seq := seq, asid := asid, lrec := r, hdr := h, argp := va, sealedAt := sealedAt, hazards := hz }
      else
        let l : Launch := {
          id, seq, part, asid, lrec := r, hdr := h, argp := va, hazards := hz, next := 0, total := r.gridx * r.gridy * r.gridz,
          restarts := [], cancelled := false, cancelBits := 0, overBudget := false, killed := false, late := false, sealedAt,
          report := none, timedOut := false, burrows := [], coll := b.map (·.cid) }
        { s with front := { s.front with launches := s.front.launches ++ [l] } }
    let s := match b with | some b => s.bindColl part id asid b | none => s
    some (id, s.growBurrows.settleWork)

/-! ## LAUNCH_RECORD_CHECK -/

/-- The oldest LAUNCH record of a partition that has reached fw0: one whose team was discarded since, or one of a
resident team. -/
def State.deviceRecord (s : State) (part : Nat) : Option (Option Landing × Orphan) :=
  match s.front.orphans.find? (·.part == part) with
  | some x => some (none, x)
  | none => s.eng.landings.findSome? fun l =>
    match l.kind, s.team? l.iss.team with
    | .front (.launch d _ stamp), some t => if t.part = part then some (some l, ⟨part, t.asid, t.item, stamp, d⟩) else none
    | _, _ => none

/-- fw0 answers a LAUNCH: its destination is written and its flag released; with its team gone, nothing is. -/
def State.answerLaunch (s : State) (l : Option Landing) (x : Nat) : State :=
  match l with
  | some l =>
    let s : State := { s with eng := { s.eng with landings := s.eng.landings.filter (·.num != l.num) } }
    let dst := match l.kind with | .front (.launch _ d _) => d | _ => .zero
    (s.complete ⟨l.num, l.iss, l.fl, dst⟩ x).tryEnd l.iss.team
  | none => s

def State.checkDevice (s : State) (part : Nat) : State :=
  match s.deviceRecord part with
  | none => s
  | some (l, x) =>
    let gone (s : State) : State := if l.isSome then s else { s with front := { s.front with orphans := s.front.orphans.erase x } }
    match s.checkRec part x.asid true x.data with
    | .refused n => ((gone s).answerLaunch l (0xFFFFFFFF00000000 + n)).recMchk x.asid (parseLRec x.data) n
    | .good h b =>
      match s.accept part x.asid x.stamp (some x.item) (parseLRec x.data) h b with
      | some (id, s) => (gone s).answerLaunch l id
      | none => s

/-- A host record is refused: REFUSED in the ring, the slot released. -/
def State.refuseHost (s : State) (part slot reason : Nat) : State :=
  ((s.status part 1 reason 0 (s.part part).reads 0 none).releaseSlot part slot).modPart part fun q => { q with reads := q.reads + 1 }

/-- fw0 checks a host record; none while it waits for room in the interval table, or for its argument page. -/
def State.checkHost (s : State) (part stamp : Nat) (bs : List Byte) : Option State :=
  let q := s.part part
  let slot := q.e % 64
  let seq := field bs 127 1 % 128
  if seq ≠ q.e then some ((s.refuseHost part slot 1).watch part)
  else
    let pass (s : State) : State := s.modPart part fun q => { q with e := (q.e + 1) % 128 }
    let r := parseLRec bs
    let asid := s.partAsid part
    match s.checkRec part asid false bs with
    | .refused n => some ((((pass s).refuseHost part slot n).recMchk asid r n).watch part)
    | .good h b =>
      if 512 < s.front.intervals.length + r.used.length then none
      else (s.accept part asid stamp none r h b).map fun x =>
        (((pass x.2).releaseSlot part slot).modPart part fun q => { q with reads := q.reads + 1 }).watch part

/-- LAUNCH_RECORD_CHECK: fw0 takes the partition's record from the window, unless its ring has no room, the record waits,
or a function-level reset runs; otherwise its oldest LAUNCH record. -/
def execLaunchRecordCheck (part : Fin 32) (s : State) : Host.Outcome State Fault Refusal :=
  let q := s.part part
  match s.front.pendingLaunches.find? (·.1 == part.val) with
  | some (_, stamp, bs) =>
    if q.flr then .next s
    else if q.ringRoom && q.held.isEmpty then .next ((s.checkHost part stamp bs).getD (s.checkDevice part))
    else .next (s.checkDevice part)
  | none => if q.flr then .next s else .next (s.checkDevice part)

/-! ## Dispatch, R298 to R300 -/

inductive CandFrom where
  | fresh | restart (w : Waiter) | trigger (d : DenTeam) | reduce
  deriving DecidableEq, Repr

/-- A dispatch item. Of items that tie in deadline and sequence, which are a launch's own, the first listed goes (log 26). -/
structure Cand where
  item : Item
  from_ : CandFrom
  scls : Nat
  part : Nat
  dcls : Nat
  feedq : Nat
  deadline : Nat
  seq : Nat
  hdr : KHdr
  deriving DecidableEq, Repr

def State.cands (s : State) : List Cand :=
  (s.coll.live.filter (·.reduceDue)).map (fun c => ⟨.reduce c.part c.bind.cid, .reduce, 1, c.part, 0, 0, 0, 0, .reduce⟩)
  ++ s.front.launches.flatMap (fun l =>
      let mk (f : CandFrom) (h : KHdr) : Cand :=
        ⟨.launch l.id, f, l.lrec.scls, l.part, l.lrec.dcls, l.lrec.feedq, l.lrec.deadline, l.seq, h⟩
      if !l.hazards.isEmpty || (s.part l.part).flr then []
      else l.restarts.map (fun w => mk (.restart w) w.hdr) ++ if l.next < l.total then [mk .fresh l.hdr] else [])
  ++ s.front.dens.flatMap (fun d =>
      let mk (f : CandFrom) (h : KHdr) (dl seq : Nat) : Cand := ⟨.den d.num, f, d.lrec.scls, d.part, d.lrec.dcls, d.lrec.feedq, dl, seq, h⟩
      if !d.hazards.isEmpty || (s.part d.part).flr then []
      else d.restarts.map (fun w => mk (.restart w) w.hdr w.deadline w.seq) ++ d.ready.map fun x => mk (.trigger x) d.hdr x.deadline x.seq)

/-- Resident teams of a core. -/
def State.onCore (s : State) (core : Nat) : List Team := s.teamList.filter (·.ref.core == core)

/-- The core has room for the item under quadrant offset b. -/
def State.coreRoom (s : State) (core b : Nat) (c : Cand) : Bool :=
  let ts := s.onCore core
  let g := c.hdr.threads / 32
  let mine (q : Nat) : Nat := ((List.range g).filter fun n => (n + b) % 4 == q).length
  let theirs (q : Nat) : Nat := (ts.map fun t => (t.grps.filter fun g => t.quadrant g.recno == q).length).sum
  decide ((ts.map (·.hdr.accs)).sum + c.hdr.accs ≤ 16 ∧ (ts.map (·.grps.length)).sum + g ≤ 64
    ∧ (ts.map (·.hdr.scratch)).sum + c.hdr.scratch ≤ 448 * 1024)
  && (List.range 4).all fun q => decide (theirs q + mine q ≤ 16)

/-- The item has a free burrow, R106: each of its resident teams holds one. -/
def State.freeBurrow (s : State) (c : Cand) : Bool :=
  let have_ (bs : List Burrow) : Bool := decide ((s.teamsOf c.item).length < bs.length)
  match c.item with
  | .launch id => (s.launch? id).any fun l => have_ l.burrows
  | .den n => (s.den? n).any fun d => have_ d.burrows
  | .reduce .. => true

/-- A free slot whose bind record matches the item, R298. -/
def State.slotMatches (s : State) (r : TeamRef) (c : Cand) : Bool :=
  let x := s.front.binds.get 0 (slotKey r)
  x.getLsbD 63 && (s.team? r).isNone && bits x.toNat 62 61 == c.scls
    && (c.scls == 1 || (bits x.toNat 60 56 == c.part && x.getLsbD (52 + c.dcls) && bindAdmits x c.item c.feedq && s.freeBurrow c))
    && (List.range 4).any fun b => s.coreRoom r.core b c

def precedes (d1 d2 : Nat) : Bool :=
  let x := (d2 + 2 ^ 48 - d1 % 2 ^ 48) % 2 ^ 48
  decide (1 ≤ x ∧ x < 2 ^ 47)

def Cand.before (a b : Cand) : Bool :=
  match a.from_, b.from_ with
  | .reduce, .reduce => false
  | .reduce, _ => true
  | _, .reduce => false
  | _, _ => precedes a.deadline b.deadline || (!precedes b.deadline a.deadline && decide (a.seq < b.seq))

/-- The item that a die dispatches next, R299. Of deadlines that precede one another in a cycle the fold's last stands, and of reduce
teams the first listed (log 54). -/
def State.choice (s : State) (die : Nat) : Option Cand :=
  let slots := (List.range 96).flatMap fun c => (List.range 16).map fun n => (⟨96 * die + c, n⟩ : TeamRef)
  (s.cands.filter fun c => slots.any fun r => s.slotMatches r c).foldl
    (fun best c => match best with | none => some c | some b => if c.before b then some c else some b) none

/-- A team before its item's values are set. -/
def Team.fresh (now : Nat) (r : TeamRef) (b : Nat) (item : Item) (h : KHdr) : Team where
  ref := r; b := b; item := item; part := 0; asid := 0; launch := 0; pkg := 0; seq := 0; deadline := 0; frep := false; sealedAt := 0
  index := 0; coord := [0, 0, 0, 1, 1, 1]; khdr := 0; hdr := h; argp := 0; argLen := 0; succh := 0; fpcw := 0
  threads := startThreads now h; grps := startGrps h; msets := []; bars := startBars h; pool := startPool h; grants := []
  scratch := .empty; tiles := List.replicate 8 Tile.zero; trk := List.replicate 16 Tracker.zero; succ := none; rgn := 0
  pre := false; region := 0; succMask := 0; cancel := 0; cancelBy := none; preempt := none; fabErr := 0; fabErrCode := 0; badReqs := []
  fault := none; ending := none; fired := false; records := []

/-- Scratch of a den team at its start, R306. -/
def denScratch (records : List (List Byte)) : Store :=
  Store.setBytes .empty 0 (leBytes 64 records.length ++ records.flatten)

/-- The team that a launch's item starts. -/
def Launch.team (l : Launch) (now : Nat) (r : TeamRef) (b : Nat) (c : Cand) : Team :=
  let w := match c.from_ with | .restart w => some w | _ => none
  let i := w.elim l.next (·.index)
  let x := l.lrec.gridx
  let y := l.lrec.gridy
  { Team.fresh now r b (.launch l.id) c.hdr with
    part := l.part, asid := l.asid, launch := l.id, seq := l.seq, deadline := l.lrec.deadline, frep := l.lrec.frep,
    sealedAt := l.sealedAt, index := i, coord := [i % x, i / x % y, i / (x * y), x, y, l.lrec.gridz],
    khdr := w.elim l.lrec.khdr (·.khdr), argp := l.argp, argLen := l.hdr.args, succh := l.lrec.succh, fpcw := l.lrec.fpcw,
    region := w.elim 0 (·.rgn) }

/-- The team that a den's item starts. -/
def Den.team (d : Den) (now : Nat) (r : TeamRef) (b : Nat) (c : Cand) : Team :=
  let w := match c.from_ with | .restart w => some w | _ => none
  let recs := match c.from_ with | .trigger x => x.records | .restart w => w.records | _ => []
  { Team.fresh now r b (.den d.num) c.hdr with
    part := d.part, asid := d.asid, launch := d.id, seq := c.seq, deadline := c.deadline, frep := d.lrec.frep,
    sealedAt := d.sealedAt, khdr := w.elim d.lrec.khdr (·.khdr), argp := d.argp, argLen := d.hdr.args, succh := d.lrec.succh,
    fpcw := d.lrec.fpcw, region := w.elim 0 (·.rgn), records := recs,
    scratch := if w.isSome then .empty else denScratch recs }

/-- A reduce team: one group whose threads run fw5's kernel, of which only the work shows, at GROUP_RETIRE (R382, log 44). -/
def Coll.team (c : Coll) (r : TeamRef) (b : Nat) : Team :=
  let t := Team.fresh 0 r b (.reduce c.part c.bind.cid) .reduce
  { t with part := c.part, asid := c.asid, sealedAt := c.sealedAt,
           threads := t.threads.map fun th => { th with run := .suspended (.wait 0) } }

/-- The item's record after one of its teams is placed. -/
def State.took (s : State) (c : Cand) : State :=
  match c.item, c.from_ with
  | .launch id, .restart w => s.modLaunch id fun l => { l with restarts := l.restarts.erase w }
  | .launch id, _ => s.modLaunch id fun l => { l with next := l.next + 1 }
  | .den n, .restart w => s.modDen n fun d => { d with restarts := d.restarts.erase w }
  | .den n, .trigger x => s.modDen n fun d => { d with ready := d.ready.erase x }
  | .den _, _ => s
  | .reduce p cid, _ => s.modColl p cid fun c => { c with reduceDue := false }

/-- The first late dispatch of an item writes a LATE record, R300. -/
def State.lateRecord (s : State) (t : Team) : State :=
  let late := (s.clock.time % 2 ^ 48 + 2 ^ 48 - t.deadline % 2 ^ 48) % 2 ^ 48
  if 2 ^ 47 ≤ late then s
  else
    let put (s : State) : State := s.status t.part 2 (min (late / 1000) (2 ^ 32 - 1)) t.launch t.seq t.launch none
    match t.item with
    | .launch id => if (s.launch? id).any (·.late) then s else put (s.modLaunch id fun l => { l with late := true })
    | .den n => if (s.den? n).any (·.late) then s else put (s.modDen n fun d => { d with late := true })
    | .reduce .. => s

/-- A core that starts a team of another launch no longer returns the lines it holds, R199. -/
def State.startLaunch (s : State) (core launch : Nat) : State :=
  if s.mem.started.get 0 core = launch + 1 then s
  else { s with mem := { s.mem with
    started := s.mem.started.put core (launch + 1), icache := s.mem.icache.filter (·.core != core) } }

/-- A placed team starts at its header's ENTRY, a transfer checked by R21. -/
def State.startTeam (s : State) (t : Team) : State :=
  let t := { t with pkg := s.fab.me }
  let s := ((s.putTeam t).startLaunch t.ref.core t.launch).lateRecord t
  match s.landing t.ref.core t.asid t.hdr.entry with
  | some f => s.failStart t.ref f
  | none => s

/-- TEAM_DISPATCH into slot r with quadrant offset b: the die's choice, if that slot matches it. -/
def execTeamDispatch (r : TeamRef) (b : Fin 4) (s : State) : Host.Outcome State Fault Refusal :=
  if 384 ≤ r.core ∨ 16 ≤ r.slot then .next s
  else
    match s.choice (dieOf r.core) with
    | none => .next s
    | some c =>
      if !s.slotMatches r c || !s.coreRoom r.core b.val c then .next s
      else
        match c.item with
        | .launch id =>
          match s.launch? id with
          | some l => .next ((s.took c).startTeam (l.team s.sched.steps r b.val c))
          | none => .next s
        | .den n =>
          match s.den? n with
          | some d => .next ((s.took c).startTeam (d.team s.sched.steps r b.val c))
          | none => .next s
        | .reduce p cid =>
          match s.coll? p cid with
          | some x => .next ((s.took c).putTeam (x.team r b.val))
          | none => .next s

/-! ## Completion, R302, R355 -/

/-- The record of a launch's completion: CANCELLED, DONE under CIRQ, or none where a FAULT record stands in its place.
DETAIL of DONE, as of QOVF, is 0 (log 54). -/
def State.doneRecord (s : State) (l : Launch) : State :=
  let vec := if l.lrec.cirq then some 0 else none
  if l.killed ∨ l.timedOut then s
  else if l.cancelled then s.status l.part 4 l.overBudget.toNat l.id l.seq l.id vec
  else if l.lrec.cirq then s.status l.part 3 0 l.id l.seq l.id vec
  else s

/-- LAUNCH_COMPLETE: the package counter is zero, its collective has ended, and each of its regions is FREE. -/
def execLaunchComplete (id : Nat) (s : State) : Host.Outcome State Fault Refusal :=
  match s.launch? id with
  | none => .next s
  | some l =>
    if s.launchCount l ≠ 0 then .next s
    else
      let s := s.closeRegions fun _ r => r.launch == id
      if s.fab.regions.any (fun x => x.2.launch == id && x.2.state != .free) ∨ s.coll.live.any (·.launch == id) then .next s
      else
        let s := s.placePhys .package fun u => u.launch == id
        let s : State := { s with front := { s.front with launches := s.front.launches.filter (·.id != id) } }
        .next ((((s.ownerDone (.launch id)).dropArgPage id).settleWork).doneRecord l)

/-! ## Cancel, R304 -/

/-- The defer budget of a team in microseconds, R331. -/
def State.budget (s : State) (t : Team) : Nat := if t.hdr.defer = 0 then (s.part t.part).defdef else t.hdr.defer

/-- Sleepers of a team that have not claimed wake with all ones but bit 0 and claim nothing, R313. -/
def State.wakeCancelled (s : State) (r : TeamRef) : State :=
  let s := s.modTeam r fun t => (t.waitsOf fun k => match k with | .pop _ _ _ _ none => true | _ => false).foldl
    (fun t x => match x.2.2.kind with
      | .pop dst .. => t.finishWait s.sched.steps x.1 x.2.1 dst 0xFFFFFFFFFFFFFFFE
      | _ => t) t
  { s with front := { s.front with feedqs := s.front.feedqs.map fun q => { q with sleepers := q.sleepers.filter (·.1.team != r) } } }

/-- A resident team of a cancelled item. -/
def State.cancelResident (s : State) (bit : Nat) (r : TeamRef) : State :=
  match s.team? r with
  | none => s
  | some t =>
    if t.ending.isSome then s.beginDiscard r .cancel
    else
      let due := some (t.cancelBy.getD (s.clock.time + 1000 * s.budget t))
      let s := s.modTeam r fun t => { t with cancel := t.cancel ||| BitVec.ofNat 32 (2 ^ bit), cancelBy := due }
      if t.pre then s.cancelTeam t else (s.wakeCancelled r).tryEnd r

def levelBit : Level → Nat | .launch => 0 | .graph => 1 | .phase => 2 | .job => 3

/-- A cancel of a partition's launch, graph, phase or job; of an id without a counter it has no effect. A cancelled level gives up its open token, since no record may
close it any more (R16, R304). -/
def State.cancel (s : State) (part : Nat) (lv : Level) (id : Nat) : State :=
  if lv != .launch && (s.level? part lv id).isNone then s
  else
  let hit (r : LRec) (own : Nat) : Bool := match lv with | .launch => own == id | lv => r.names lv id
  let bit := levelBit lv
  let s : State := { s with front := { s.front with levels := s.front.levels.map fun c =>
    if c.part = part ∧ c.level = lv ∧ c.id = id then { c with cancelled := true, opened := false } else c } }
  let s := (s.front.launches.filter fun l => l.part == part && hit l.lrec l.id).foldl (fun s l =>
    let s := (s.dropBound l.id).modLaunch l.id fun l =>
      { l.dropRest with cancelled := true, cancelBits := l.cancelBits ||| BitVec.ofNat 32 (2 ^ bit) }
    (s.teamsOf (.launch l.id)).foldl (fun s t => s.cancelResident bit t.ref) s) s
  let s := (s.front.dens.filter fun d => d.part == part && d.opened && hit d.lrec d.id).foldl (fun s d =>
    let s := s.modDen d.num Den.dropAll
    (s.teamsOf (.den d.num)).foldl (fun s t => s.cancelResident bit t.ref) s) s
  s.settleWork

/-- The CANCEL register, R287; a write with a Reserved bit set performs no cancel. -/
def execCancelRegisterWrite (part : Fin 32) (x : W64) (s : State) : Host.Outcome State Fault Refusal :=
  if bits x.toNat 61 32 ≠ 0 then .next s
  else
    let lv : Level := match bits x.toNat 63 62 with | 0 => .launch | 1 => .graph | 2 => .phase | _ => .job
    .next (s.cancel part lv (x.toNat % 2 ^ 32))

/-- A team whose defer budget for a cancel has ended is discarded, even inside a REGION.hold stretch; it is no fault. -/
def State.overBudget (s : State) (t : Team) : State :=
  (match t.item with | .launch id => s.modLaunch id fun l => { l with overBudget := true } | _ => s).cancelTeam t

/-- CANCEL_BUDGET_EXPIRY. -/
def execCancelBudgetExpiry (r : TeamRef) (s : State) : Host.Outcome State Fault Refusal :=
  match s.team? r with
  | some t =>
    if t.ending.isNone && t.cancelBy.any fun b => decide (b ≤ s.clock.time) then
      .next (s.overBudget t)
    else .next s
  | none => .next s

/-! ## Work instructions: dens, R310 -/

/-- A den triggers a team that takes its oldest n records. -/
def State.trigger (s : State) (d : Den) (n : Nat) : State :=
  let seq := s.front.accSeq + 1
  let x : DenTeam := ⟨(s.clock.time + d.lrec.deadline) % 2 ^ 48, seq, d.records.take n⟩
  let rest := d.records.drop n
  let s : State := { s with front := { s.front with accSeq := seq } }
  s.modDen d.num fun d => { d with
    records := rest, ready := d.ready ++ [x],
    timer := if rest.isEmpty ∨ d.lrec.gridz = 0 then none else some (s.clock.time + 1000 * d.lrec.gridz) }

/-- One record enters a den. -/
def State.denAppend (s : State) (n : Nat) (data : List Byte) : State :=
  match s.den? n with
  | none => s
  | some d =>
    if d.cancelled ∨ !d.opened then (s.modDen n fun d => { d with reserved := d.reserved - 1 }).settleWork
    else
      let d := { d with
        records := d.records ++ [data], reserved := d.reserved - 1,
        timer := if d.records.isEmpty ∧ d.lrec.gridz ≠ 0 then some (s.clock.time + 1000 * d.lrec.gridz) else d.timer }
      let s := s.modDen n fun _ => d
      if d.lrec.gridy ≤ d.records.length then s.trigger d d.lrec.gridy else s

/-- DEN_TIMER_EXPIRY. -/
def execDenTimerExpiry (n : Nat) (s : State) : Host.Outcome State Fault Refusal :=
  match s.den? n with
  | some d => if d.timer.any (fun t => decide (t ≤ s.clock.time)) && !d.records.isEmpty then .next (s.trigger d d.records.length) else .next s
  | none => .next s

/-- A scratch offset of DENPUT, QPUSH and QPOP. -/
def View.checkOff (v : View) (x : Nat) : Check :=
  if x % 64 ≠ 0 then .fail { code := .align, val := some x }
  else if v.team.hdr.scratch < x + 64 then .fail { code := .scrBound, val := some x }
  else .pass

/-- A work command leaves for the front end. -/
def View.sendFront (v : View) (i : Instr) (o : Opnds) (s : State) (a : FrontAct) : Nat × State :=
  let n := s.newCmd
  let s := v.enter i o n.2
  (n.1, { s with eng := { s.eng with landings := s.eng.landings ++ [⟨n.1, v.iss, o.fl, .front a, [], []⟩] } })

def execDenput (o : Opnds) (s : State) : Host.Outcome State Fault Refusal :=
  issue (.denput o) o s fun v => v.once o <|
    let d := v.scalar o .u32 o.sa
    let x := v.scalar o .u32 o.sb
    match v.s.den? d with
    | none => .fault { code := .prot, val := some d }
    | some den =>
      if 2048 ≤ d ∨ !den.opened ∨ den.part ≠ v.team.part then .fault { code := .prot, val := some d }
      else v.checked (v.checkOff x) <|
        if 256 ≤ den.records.length + den.reserved then .fault { code := .denFull, val := some d }
        else
          let s := v.s.modDen d fun d => { d with reserved := d.reserved + 1 }
          .done (v.sendFront (.denput o) o s (.denput d (v.s.scratchRead v.team x 64))).2

/-! ## Feed queues, R307, R308, R311 to R313 -/

def FeedQ.size (q : FeedQ) : Nat := 2 ^ q.l
/-- Virtual address of the slot of index i. -/
def FeedQ.slot (q : FeedQ) (i : Nat) : Nat := (q.base + 64 * (i % q.size)) % 2 ^ 64

/-- HEAD over consecutive consumed indices. -/
def FeedQ.advanceN : Nat → FeedQ → FeedQ
  | 0, q => q
  | n + 1, q => if q.consumed.contains q.head then FeedQ.advanceN n { q with head := q.head + 1, consumed := q.consumed.filter (· != q.head) } else q

def FeedQ.consume (q : FeedQ) (i : Nat) : FeedQ := FeedQ.advanceN (q.consumed.length + 1) { q with consumed := q.consumed ++ [i] }

/-- An index to take now: the lowest orphan, else the next one below TAIL. -/
def FeedQ.takeIndex (q : FeedQ) : Option (Nat × FeedQ) :=
  match q.orphans with
  | x :: xs => let i := xs.foldl min x; some (i, { q with orphans := q.orphans.filter (· != i) })
  | [] => if q.claim < q.tail then some (q.claim, { q with claim := q.claim + 1 }) else none

/-- Set the claim of a waiting QPOP. -/
def Team.claimPop (t : Team) (n id i : Nat) : Team :=
  t.modGrp n fun g => { g with waits := g.waits.map fun x =>
    if x.1 = id then (id, { x.2 with kind := match x.2.kind with | .pop d q o m _ => .pop d q o m (some i) | k => k }) else x }

/-- Sleepers wake in order, one per index available. -/
def State.wakeSleepersN : Nat → State → Nat → State
  | 0, s, _ => s
  | k + 1, s, n =>
    match s.feedq? n with
    | none => s
    | some q =>
      match q.sleepers, q.takeIndex with
      | (i, id) :: rest, some (x, q') =>
        ((s.modFeedq n fun _ => { q' with sleepers := rest }).modTeam i.team (·.claimPop i.recno id x)).wakeSleepersN k n
      | _, _ => s

def State.wakeSleepers (s : State) (n : Nat) : State := s.wakeSleepersN ((s.feedq? n).elim 0 (·.sleepers.length)) n

/-- The sleepers of every queue that has an index for them. -/
def State.wakeAll (s : State) : State := (s.front.feedqs.map (·.num)).foldl (fun s n => s.wakeSleepers n) s

/-- Write a record at an index of a queue, with its SEQ word, at PACKAGE scope. A poisoned table that the walk consumes ends the
context (R417). DESIGN CHOICE: where the slot's page does not translate with W, nothing is written, and the push goes on as though it had
been: status 0, RSV and TAIL advanced (log 58). -/
def State.putRecord (s : State) (q : FeedQ) (i : Nat) (data : List Byte) : State :=
  match s.translate q.asid (q.slot i) rightW with
  | .ok l => s.physWrite ⟨none, none⟩ l.gen l.pa (data ++ leBytes 4 (i + 1))
  | .poisoned pa => s.consume q.asid pa none
  | _ => s

/-- A QPUSH at the front end: the status and the state. -/
def State.pushRecord (s : State) (n : Nat) (data : List Byte) : Nat × State :=
  match s.feedq? n with
  | none => (1, s)
  | some q =>
    if q.rsv - q.head = q.size then (1, s)
    else
      let s := s.putRecord q q.rsv data
      (0, (s.modFeedq n fun q => { q with rsv := q.rsv + 1, tail := max q.tail (q.rsv + 1) }).wakeSleepers n)

/-- The checks of a queue operand and an offset. -/
def View.queue (v : View) (o : Opnds) (k : FeedQ → Nat → Issued) : Issued :=
  let n := v.scalar o .u32 o.sa
  let x := v.scalar o .u32 o.sb
  match v.s.feedq? n with
  | none => .fault { code := .prot, val := some n }
  | some q =>
    if 256 ≤ n ∨ q.part ≠ v.team.part ∨ !q.enabled then .fault { code := .prot, val := some n }
    else v.checked (v.checkOff x) (k q x)

def execQpush (o : Opnds) (s : State) : Host.Outcome State Fault Refusal :=
  issue (.qpush o) o s fun v => v.once o <| v.queue o fun q x =>
    let r := v.sendFront (.qpush o) o v.s (.qpush q.num (v.s.scratchRead v.team x 60) o.dst)
    .done (v.hold15 o r.1 r.2)

def execQpop (o : Opnds) (m : QpopMode) (s : State) : Host.Outcome State Fault Refusal :=
  issue (.qpop o m) o s fun v => v.once o <| v.queue o fun q x =>
    let once := match m with | .tryOnce => true | .wait => false
    .done (v.capture v.s (.wait (.pop o.dst q.num x once none) (v.present.map (·.tid))))

/-- QPOP_SLOT_READY: the record at the claimed index is ready; the oldest claim of the group completes. DESIGN CHOICE: a claim whose
slot's page does not translate with R waits on (log 58). -/
def execQpopSlotReady (r : TeamRef) (rec : Nat) (s : State) : Host.Outcome State Fault Refusal :=
  match s.team? r with
  | none => .next s
  | some t =>
    match ((t.waitsOf fun k => match k with | .pop _ _ _ _ (some _) => true | _ => false).filter (·.1 == rec)).head? with
    | none => .next s
    | some (n, id, w) =>
      match w.kind with
      | .pop dst qn off _ (some i) =>
        match s.feedq? qn with
        | none => .next s
        | some q =>
          match s.translate q.asid (q.slot i) rightR with
          | .ok l =>
            let data := s.physRead t.writer l.gen l.pa 64
            if s.poisoned l.pa then .next (s.consume q.asid l.pa (some { team := t, recno := rec }))
            else if field data 60 4 = (i + 1) % 2 ^ 32 then
              let s := s.scratchWrite r off data
              .next ((s.modFeedq qn (·.consume i)).modTeam r fun t => t.finishWait s.sched.steps n id dst i)
            else .next s
          | .poisoned pa => .next (s.consume q.asid pa (some { team := t, recno := rec }))
          | _ => .next s
      | _ => .next s

/-! ## Reads of the front end's registers, R287, R295, R307, R412 -/

/-- A feed queue's register at an offset of its block. -/
def FeedQ.read (q : FeedQ) (off : Nat) : W64 :=
  match off with
  | 0x00 => BitVec.ofNat 64 q.base
  | 0x08 => BitVec.ofNat 64 (q.l + 2 ^ 8 * q.part + 2 ^ 63 * q.enabled.toNat)
  | 0x10 => BitVec.ofNat 64 q.head
  | 0x18 => BitVec.ofNat 64 q.tail
  | 0x20 => if q.rsv - q.head = q.size then BitVec.allOnes 64 else BitVec.ofNat 64 q.rsv
  | 0x28 => BitVec.ofNat 64 q.qovf.toNat
  | _ => 0

/-- The value that a read at an offset of a partition's BAR0 returns. The block of a feed queue that is not the
partition's reads 0, as a write-only register does. -/
def State.barRead (s : State) (p off : Nat) : W64 :=
  let q := s.part p
  match off with
  | 0x0000 => BitVec.ofNat 64 q.winBase
  | 0x0008 => BitVec.ofNat 64 (q.e + 2 ^ 7 * q.reads)
  | 0x0010 => BitVec.ofNat 64 q.sqbase
  | 0x0018 => BitVec.ofNat 64 q.sqcfg
  | 0x0020 => BitVec.ofNat 64 q.sqtail
  | 0x0028 => BitVec.ofNat 64 q.sqhead
  | 0x0038 => BitVec.ofNat 64 q.sqdrop
  | 0x0800 => BitVec.ofNat 64 q.frbase
  | 0x0808 => BitVec.ofNat 64 q.frcfg
  | 0x0810 => BitVec.ofNat 64 q.frhead
  | 0x0818 => BitVec.ofNat 64 q.frtail
  | 0x0820 => BitVec.ofNat 64 q.frdrop
  | off =>
    if off < 0x1000 then 0
    else
      match s.feedq? ((off - 0x1000) / 0x40) with
      | some f => if f.part = p then f.read (off % 0x40) else 0
      | none => 0

/-- A read with a side effect answers the value that the register had. -/
def State.answerRead (s : State) (p off : Nat) : State :=
  { s with front := { s.front with answers := s.front.answers ++ [s.barRead p off] } }

def execFeedqReserveRead (r : FeedQName) (s : State) : Host.Outcome State Fault Refusal :=
  .next ((s.answerRead r.part (0x1020 + 0x40 * r.num)).modFeedq r.num fun q =>
    if q.part ≠ r.part ∨ q.rsv - q.head = q.size then q else { q with rsv := q.rsv + 1 })

def execFeedqTailWrite (r : FeedQName) (x : W64) (s : State) : Host.Outcome State Fault Refusal :=
  let n := r.num
  match s.feedq? n with
  | none => .next s
  | some q =>
    if q.part ≠ r.part ∨ x.toNat ≤ q.tail then .next s
    else if q.size < x.toNat - q.head ∨ q.rsv < x.toNat then
      let s := s.modFeedq n fun q => { q with qovf := true }
      .next (s.status q.part 6 0 n (s.choose [5, 256, n] % 2 ^ 64) 0 (some 1))
    else .next ((s.modFeedq n fun q => { q with tail := x.toNat }).wakeSleepers n)

def execFeedqStatusWrite (r : FeedQName) (x : W64) (s : State) : Host.Outcome State Fault Refusal :=
  .next (s.modFeedq r.num fun q => if q.part = r.part ∧ x.getLsbD 0 ∧ x.toNat < 2 then { q with qovf := false } else q)

/-! ## LAUNCH, CNTW, CANCEL, R314 to R316 -/

def execLaunch (o : Opnds) (s : State) : Host.Outcome State Fault Refusal :=
  issue (.launch o) o s fun v => v.once o <|
    let a := v.s64 (sIndex o.sa)
    if a % 128 ≠ 0 then .fault { code := .align, val := some a }
    else
      let ps := pieces a 128
      v.checked (firstFail (ps.map (v.s.checkPiece v.team.asid rightR anyFrame))) <|
        match v.poisonAt ps with
        | some pa => .mchk pa none
        | none =>
          let data := ps.flatMap fun p => v.s.virtRead v.team.writer v.team.asid p.1 p.2 rightR
          let r := v.sendFront (.launch o) o v.s (.launch data o.dst v.s.sched.steps)
          .done (v.await o r.1 r.2)

/-- The package counter of an open den, R301. -/
def State.denCount (s : State) (d : Den) : Nat := d.ready.length + d.restarts.length + s.diesOf (.den d.num)

/-- The counter that CNTW reads. -/
def State.counter (s : State) (part : Nat) (lv : Level) (id : Nat) : Nat :=
  match lv with
  | .launch =>
    match s.launch? id, s.front.dens.find? (fun d => d.opened && d.id == id) with
    | some l, _ => s.launchCount l
    | none, some d => s.denCount d
    | none, none => 0
  | lv => if id = 0 then 0 else (s.level? part lv id).elim 0 s.levelCount

/-- The id operand of CNTW and CANCEL; a launch id of another partition faults PROT. -/
def View.levelId (v : View) (o : Opnds) (lv : Level) (k : Nat → Issued) : Issued :=
  let x := v.scalar o .u32 o.sa
  match lv with
  | .launch =>
    let id := if x = 0 then v.team.launch else x
    if id / 2 ^ 27 ≠ v.team.part then .fault { code := .prot, val := some x } else k id
  | _ => k x

def execCntw (o : Opnds) (lv : Level) (s : State) : Host.Outcome State Fault Refusal :=
  issue (.cntw o lv) o s fun v => v.once o <| v.levelId o lv fun id => v.writes (v.dstS o (v.s.counter v.team.part lv id))

def execCancel (o : Opnds) (lv : Level) (s : State) : Host.Outcome State Fault Refusal :=
  issue (.cancel o lv) o s fun v => v.once o <| v.levelId o lv fun id => .done (v.s.cancel v.team.part lv id)

/-! ## Landing of work commands -/

/-- The group has an earlier DENPUT on its way: its appends enter in issue order, R306. -/
def State.denBehind (s : State) (l : Landing) : Bool :=
  s.eng.landings.any fun x => x.iss == l.iss && decide (x.num < l.num) && match x.kind with | .front (.denput _ _) => true | _ => false

/-- A DENPUT or QPUSH reaches the front end. LAUNCH is answered by LAUNCH_RECORD_CHECK. -/
def State.landFront (s : State) (n : Nat) : State :=
  match s.eng.landings.find? (·.num == n) with
  | none => s
  | some l =>
    let drop (s : State) : State := { s with eng := { s.eng with landings := s.eng.landings.filter fun x => x.num != n } }
    match l.kind with
    | .front (.denput d data) =>
      if s.denBehind l then s
      else (((drop s).denAppend d data).flagDown l.iss l.fl n).tryEnd l.iss.team
    | .front (.qpush q data dst) =>
      let r := (drop s).pushRecord q data
      (r.2.complete ⟨n, l.iss, l.fl, dst⟩ r.1).tryEnd l.iss.team
    | _ => s

/-! ## Registers of the front end, R287, R293 -/

/-- An accepted write to the ring's base or size empties it; held records follow. -/
def State.setRing (s : State) (p : Nat) (f : Part → Part) : State :=
  (s.modPart p fun q => { f q with sqhead := 0, sqtail := 0 }).drainStatus p 64

def execSqbaseWrite (part : Fin 32) (x : W64) (s : State) : Host.Outcome State Fault Refusal :=
  let q := s.part part
  if x.toNat % 4096 ≠ 0 ∨ q.sqtail ≠ q.sqhead then .next s else .next (s.setRing part fun q => { q with sqbase := x.toNat })

def execSqcfgWrite (part : Fin 32) (x : W64) (s : State) : Host.Outcome State Fault Refusal :=
  let q := s.part part
  if x.toNat < 4 ∨ 16 < x.toNat ∨ q.sqtail ≠ q.sqhead then .next s else .next (s.setRing part fun q => { q with sqcfg := x.toNat })

def execSqheadWrite (part : Fin 32) (x : W64) (s : State) : Host.Outcome State Fault Refusal :=
  let q := s.part part
  if x.toNat < q.sqhead ∨ q.sqtail < x.toNat then .next s
  else .next ((s.modPart part fun q => { q with sqhead := x.toNat }).drainStatus part 64)

/-- A read of SQDROP clears it. -/
def execSqdropRead (part : Fin 32) (s : State) : Host.Outcome State Fault Refusal :=
  .next ((s.answerRead part 0x38).modPart part fun q => { q with sqdrop := 0 })

/-! ## Mailboxes, R295 -/

def State.modBox (s : State) (n : Nat) (f : Mailbox → Mailbox) : State :=
  { s with front := { s.front with boxes := modNth f s.front.boxes n } }

/-- Physical address of a core's block. -/
def boxBase (n : Nat) : Nat := 0x3F0000100000 + 0x10000 * n

/-- RSTAT: which queues hold a message. -/
def Mailbox.rstat (b : Mailbox) : W64 :=
  BitVec.ofNat 64 (((List.range 8).map fun j => if (nth [] b.queues j).isEmpty then 0 else 2 ^ j).sum)

/-- RECVj: the head message; zero in an empty queue (log 52). -/
def Mailbox.recv (b : Mailbox) (j : Nat) : BitVec 512 := (nth [] b.queues j).headD 0

/-- A byte of a block as its core reads it. -/
def Mailbox.byte (b : Mailbox) (off : Nat) : Byte :=
  if 0x100 ≤ off ∧ off < 0x108 then BitVec.ofNat 8 (b.rstat.toNat / 2 ^ (8 * (off - 0x100)))
  else if 0x108 ≤ off ∧ off < 0x110 then BitVec.ofNat 8 (b.sendst / 2 ^ (8 * (off - 0x108)))
  else if 0x400 ≤ off ∧ off < 0x600 then BitVec.ofNat 8 ((b.recv ((off - 0x400) / 64)).toNat / 2 ^ (8 * (off % 64)))
  else 0

/-- The byte at a physical address of the mailbox blocks. -/
def State.boxByte (s : State) (pa : Nat) : Byte :=
  (nth ⟨[], [], 0⟩ s.front.boxes ((pa - boxBase 0) / 0x10000)).byte ((pa - boxBase 0) % 0x10000)

/-- A message to a firmware core; SENDST tells its sender whether it was dropped. -/
def State.mailTo (s : State) (src dest : Fin 8) (msg : BitVec 512) : State :=
  let q := nth [] (nth ⟨[], [], 0⟩ s.front.boxes dest.val).queues src.val
  let s := s.modBox dest.val fun b => { b with sending := modNth (fun _ => msg) b.sending src.val }
  if 16 ≤ q.length then s.modBox src.val fun b => { b with sendst := 1 }
  else (s.modBox dest.val fun b => { b with queues := modNth (· ++ [msg]) b.queues src.val }).modBox src.val
    fun b => { b with sendst := 0 }

/-- A message to Genmon is an entry of its log, of the sender's SRCU (R431); its layout is not stated (log 12). -/
def execMailboxSend (src : Fin 8) (dest : Option (Fin 8)) (msg : BitVec 512) (s : State) : Host.Outcome State Fault Refusal :=
  match dest with
  | some d => .next (s.mailTo src d msg)
  | none => .next (s.logEvent 6 (src.val + 2) (s.choose [27, src.val] % 4) [msg.toNat])

/-- The read of byte 63 answers it and pops the message. -/
def execMailboxRecvPop (core src : Fin 8) (s : State) : Host.Outcome State Fault Refusal :=
  let x := (s.boxByte (boxBase core + 0x43F + 0x40 * src)).setWidth 64
  let s : State := { s with front := { s.front with answers := s.front.answers ++ [x] } }
  .next (s.modBox core.val fun b => { b with queues := modNth List.tail b.queues src.val })

/-! ## Bind records, R296, R297 -/

/-- A record that the slot table takes. -/
def State.bindOk (s : State) (r : TeamRef) (x : W64) : Bool :=
  let n := x.toNat
  let kind := bits n 51 50
  let id := n % 2 ^ 32
  let part := bits n 60 56
  let scls := bits n 62 61
  let after := s.front.binds.set 0 (slotKey r) x
  let reduce (y : W64) : Bool := y.getLsbD 63 && bits y.toNat 62 61 == 1
  bits n 49 32 == 0 && (kind != 1 || id / 2 ^ 27 == part)
    && (kind != 2 || (s.den? id).any (·.part == part)) && (kind != 3 || (s.feedq? id).any (·.part == part))
    && (scls != 1 || (kind == 0 && id == 0))
    && ((List.range 8).any fun c => (List.range 16).any fun k => reduce (after.get 0 (slotKey ⟨8 * clusterOf r.core + c, k⟩)))

def execBindRecordWrite (r : TeamRef) (x : W64) (s : State) : Host.Outcome State Fault Refusal :=
  if 384 ≤ r.core ∨ 16 ≤ r.slot then .next s
  else if s.bindOk r x then
    let put : State := { s with front := { s.front with binds := s.front.binds.set 0 (slotKey r) x } }
    .next put.growBurrows
  else .next { s with front := { s.front with bindErr := BitVec.ofNat 64 (s.choose [15, slotKey r]) } }

end Sys2Proof.Machine
end

