-- ==== Sys2Proof/Machine/Succ.lean ====
section
/-! DEFINITION. How a team's records retire, successors and handover, regions, pre-emption and the end of a discard (spec/04 R86, spec/14). -/
namespace Sys2Proof.Machine

/-! ## GROUP_RETIRE, R86 -/

def Team.isReduce (t : Team) : Bool := match t.item with | .reduce .. => true | _ => false

/-- A record whose threads have all exited retires once its flags are clear. A reduce team does its work then, and ends. -/
def execGroupRetire (r : TeamRef) (rec : Nat) (s : State) : Host.Outcome State Fault Refusal :=
  match s.team? r with
  | none => .next s
  | some t =>
    match t.grp? rec with
    | none => .next s
    | some g =>
      if t.ending.isSome || g.retired || g.clause.isSome || !g.clear || (!t.isReduce && t.threads.any fun th => th.recno == rec && th.run != .exited)
      then .next s
      else
        let s := match t.item with
          | .reduce part cid => (s.coll? part cid).elim s (s.reduceWork t)
          | _ => s
        .next (((s.modTeam r fun t => t.retireRec s.sched.steps rec).settleGangs r).tryEnd r)

/-! ## EXITS, R318 to R320 -/

/-- The header at h can be read, and its entry's line fetched, in a context: none, or the fault. -/
def State.succCtx (s : State) (core asid h : Nat) : Option FaultInfo :=
  let no : Option FaultInfo := some { code := .succCtx, val := some h }
  if !canonical h then no
  else
    match s.fwPoison asid h 256, s.fwRead asid h 256 with
    | some pa, _ => some (poisonFault pa)
    | none, none => no
    | none, some bs =>
      match s.fetchLine core asid (field bs 8 8 / 64 * 64) with
      | .fault f => if f.code = .fetchPar then none else if f.code = .mchk then some f else no
      | .line .. => none

/-- R320's checks in order: the value that the first failing one names, or the captured header. -/
def View.exitsCheck (v : View) (h m x : Nat) : FaultInfo ⊕ KHdr :=
  let t := v.team
  let shape (y : Nat) : FaultInfo ⊕ KHdr := .inl { code := .succShape, val := some y }
  if m / 2 ^ 15 ≠ 0 then shape m
  else if h % 256 ≠ 0 then shape h
  else
    match v.s.succCtx v.iss.team.core t.asid h with
    | some f => .inl f
    | none =>
    match v.s.readHdr t.asid h with
    | none => match v.s.hdrPoison t.asid h with
      | some pa => .inl (poisonFault pa)
      | none => shape h
    | some k =>
      if !k.flags.testBit 2 ∨ k.threads ≠ t.hdr.threads ∨ (t.succh ≠ 0 ∧ t.succh ≠ h) then shape h
      else if (List.range 15).any (fun i => m.testBit i && !k.smask.testBit i) then shape m
      else if (List.range 8).any (fun i => m.testBit (5 + i) && decide (t.hdr.accs ≤ i)) then shape m
      else if m.testBit 13 ∧ (x % 2 ^ 32 % 1024 ≠ 0 ∨ x / 2 ^ 32 % 1024 ≠ 0 ∨ t.hdr.scratch < x % 2 ^ 32 + x / 2 ^ 32) then shape x
      else if t.argLen < k.args then shape h
      else
        match t.succ with
        | none => .inr k
        | some r =>
          if r.h ≠ h then shape h
          else if r.m.toNat ≠ m then shape m
          else if m.testBit 13 ∧ r.s.toNat ≠ x then shape x
          else .inr k

def execExits (o : Opnds) (s : State) : Host.Outcome State Fault Refusal :=
  issue (.exits o) o s fun v => v.once o <|
    let h := v.s64 (sIndex o.sa)
    let m := v.scalar o .u32 o.sb
    let x := v.scalar o .u64 o.sc
    match v.exitsCheck h m x with
    | .inl f => .fault f
    | .inr k =>
      let rec_ : SuccRec := ⟨h, BitVec.ofNat 32 m, BitVec.ofNat 64 x, k⟩
      let s := v.s.modTeam v.iss.team fun t => { t with succ := some (t.succ.getD rec_) }
      .done (v.capture s (.exit ((v.active o).map (·.tid))))

/-! ## Handover, R321 to R326 -/

/-- The core holds the successor beside its other teams. -/
def State.succFits (s : State) (t : Team) (k : KHdr) : Bool :=
  let others := (s.onCore t.ref.core).filter (·.ref != t.ref)
  decide ((others.map (·.hdr.accs)).sum + k.accs ≤ 16 ∧ (others.map (·.hdr.scratch)).sum + k.scratch ≤ 448 * 1024)

/-- A thread inherits block k: held by its record when it ended and by its successor record, and named by M. -/
def inherits (m : W32) (old : Thread) (h k : Nat) : Bool := m.getLsbD k && decide (k ≤ old.endH) && decide (k ≤ h)

/-- A thread's inherited blocks. -/
def inheritV (m : W32) (old : Thread) (h : Nat) : Tab W32 := old.v.filter fun x => inherits m old h (x.1 / 32)

/-- The successor's state, R322 to R325. -/
def Team.successor (t : Team) (now : Nat) (r : SuccRec) : Team :=
  let k := r.hdr
  let new := Team.fresh now t.ref t.b t.item k
  let hOf (recno : Nat) : Nat := ((new.grps.find? (·.recno == recno)).map (·.h)).getD 0
  let lo := r.s.toNat % 2 ^ 32
  let hi := min (lo + r.s.toNat / 2 ^ 32) k.scratch
  let kept := (t.placeScratch now fun _ => true).scratch.cells.filter fun x => decide (lo ≤ x.1 ∧ x.1 < hi)
  let cells := if r.m.getLsbD 13 then kept else []
  { new with
    part := t.part, asid := t.asid, launch := t.launch, pkg := t.pkg, seq := t.seq, deadline := t.deadline, frep := t.frep, sealedAt := t.sealedAt,
    index := t.index, coord := t.coord, khdr := r.h, argp := t.argp, argLen := t.argLen, succh := t.succh, fpcw := t.fpcw,
    threads := new.threads.map fun th =>
      match t.thread? th.tid with
      | some old => { th with v := inheritV r.m old (hOf th.recno), live := old.live.filter (inherits r.m old (hOf th.recno)) }
      | none => th,
    grps := new.grps.map fun g =>
      { g with s := if r.m.getLsbD 4 then ((t.grp? g.recno).map (·.s)).getD [] else [], bounds := [(.team, now)] },
    tiles := (List.range 8).map fun i => if r.m.getLsbD (5 + i) ∧ i < k.accs then nth Tile.zero t.tiles i else Tile.zero,
    scratch := ⟨cells, [], []⟩,
    succMask := r.m, preempt := t.preempt, fired := t.fired, records := t.records }

/-- SUCCESSOR_HANDOVER. -/
def execSuccessorHandover (r : TeamRef) (s : State) : Host.Outcome State Fault Refusal :=
  match s.team? r with
  | none => .next s
  | some t =>
    match t.succ with
    | none => .next s
    | some x =>
      if t.ending.isSome || !t.grps.all (·.retired) || s.outstanding r || t.cancel != 0 || !s.succFits t x.hdr then .next s
      else
        let sc : Scope := if x.m.getLsbD 14 then .package else .team
        let s := s.placePhys sc fun u => u.by_ == t.writer && u.launch == t.launch
        let s := s.modTeam r fun _ => t.successor s.sched.steps x
        .next (match s.landing r.core t.asid x.hdr.entry with
          | some f => s.failStart r f
          | none => s)

/-! ## REGION, R328, R329 -/

/-- fw1 kills a team whose pre-emption was still pending when its budget expired, R331. -/
def State.overrun (s : State) (t : Team) : State := s.fw3 t (t.faultRec 0 .preemptOverrun .firmware 0 0 0xFFFFFFFF 0)

/-- PRE becomes 1: a cancel or a pending pre-emption takes the team now (R304, R331), unless a budget has expired: then what the
first expiry does stands, a cancel's before a pre-emption's of the same ns (log 54). -/
def State.preSet (s : State) (r : TeamRef) : State :=
  match s.team? r with
  | none => s
  | some t =>
    let now := s.clock.time
    let late := t.preempt.filter fun b => decide (b ≤ now)
    if t.cancelBy.any fun c => decide (c ≤ now) && late.all fun b => decide (c ≤ b) then s.overBudget t
    else if late.isSome then s.overrun t
    else if t.cancel ≠ 0 then s.cancelTeam t
    else if t.preempt.isSome then s.beginDiscard r .preempt
    else s

def execRegion (o : Opnds) (m : RegionMode) (s : State) : Host.Outcome State Fault Refusal :=
  issue (.region o m) o s fun v => v.once o <|
    match m with
    | .set =>
      let n := BitVec.ofNat 32 (v.scalar o .u32 o.sa)
      .done ((v.s.modTeam v.iss.team fun t => { t with rgn := n, pre := true }).preSet v.iss.team)
    | .hold => .done (v.s.modTeam v.iss.team fun t => { t with pre := false })

/-! ## Pre-emption, R331 to R333 -/

def execPreemptRequest (r : TeamRef) (s : State) : Host.Outcome State Fault Refusal :=
  match s.team? r with
  | none => .next s
  | some t =>
    if t.pre then .next (s.beginDiscard r .preempt)
    else .next (s.modTeam r fun t => { t with preempt := some (t.preempt.getD (s.clock.time + 1000 * s.budget t)) })

def execPreemptBudgetExpiry (r : TeamRef) (s : State) : Host.Outcome State Fault Refusal :=
  match s.team? r with
  | none => .next s
  | some t =>
    if t.ending.isNone && !t.pre && t.preempt.any fun b => decide (b ≤ s.clock.time) then .next (s.overrun t)
    else .next s

/-- The team as a dispatch item, R333. -/
def Team.waiter (t : Team) : Waiter := ⟨t.index, t.khdr, t.hdr, t.rgn, 0, t.records, t.deadline, t.seq, t.fired⟩

/-- A LAUNCH of the team that fw0 has not answered, R28: it stays to be answered. -/
def Team.orphan (t : Team) (l : Landing) : Option Orphan :=
  match l.kind with
  | .front (.launch d _ stamp) => some ⟨t.part, t.asid, t.item, stamp, d⟩
  | _ => none

/-- Engine commands of a discarded team: copies and matrix commands are cancelled at a word boundary, and what they have
written is placed, so that none of it lands later (R332); records on their way to a den or queue arrive, and a LAUNCH stays
issued (R28, R232, R270). -/
def State.dropCommands (s : State) (r : TeamRef) : State :=
  let mine (i : Issuer) : Bool := i.team == r
  let own := s.eng.landings.filter fun l => mine l.iss
  let left := match s.team? r with | some t => own.filterMap t.orphan | none => []
  let s : State := { s with front := { s.front with orphans := s.front.orphans ++ left } }
  let s := (own.map (·.num)).foldl (fun s n => s.landFront n) s
  let s := match s.team? r with
    | some t => s.placePhys .package fun u => u.by_ == t.writer && u.launch == t.launch
    | none => s
  let s := (s.eng.mats.filter fun c => mine c.iss).foldl (fun s c => s.dropMat c.num) s
  let cmds := (s.eng.copies.filter fun c => mine c.iss).map (·.num)
  { s with
    eng := { s.eng with
      landings := s.eng.landings.filter fun l => !mine l.iss,
      copies := s.eng.copies.filter fun c => !mine c.iss },
    mem := { s.mem with parked := s.mem.parked.filter fun p =>
      match p.who with
      | .cmd n => !cmds.contains n && (s.eng.mats.any (·.num == n) || s.eng.copies.any (·.num == n))
      | _ => true } }

/-- DISCARD_ACKNOWLEDGED: every engine has acknowledged; the team's state is dropped and its slot freed. A guest packet
or a snapshot still in progress holds it. -/
def execDiscardAcknowledged (r : TeamRef) (s : State) : Host.Outcome State Fault Refusal :=
  match s.team? r with
  | none => .next s
  | some t =>
    match t.ending with
    | none => .next s
    | some why =>
      if s.guest.queues.any (fun q => q.packets.any (·.tk.iss.team == r)) || s.coll.live.any (fun c => c.snaps.any (·.team == r)) then .next s
      else
        let mine (q : FabReq) : Bool := q.iss.any (·.team == r)
        let s := ((s.dropCommands r).dropLocal mine).dropReqs mine
        let s := match why, t.item with
          | .preempt, .launch id => s.modLaunch id fun l => { l with restarts := l.restarts ++ [t.waiter] }
          | .preempt, .den n => s.modDen n fun d => { d with restarts := d.restarts ++ [t.waiter] }
          | _, _ => s
        .next (s.freeSlot r).wakeAll.settleTeams

end Sys2Proof.Machine
end

