-- ==== Sys2Proof/Machine/Guest.lean ====
section
/-! DEFINITION. The Isdar socket: queues and packets, the guest's accesses, translations and duties, the fence; class 0xC (spec/17). -/
namespace Sys2Proof.Machine

def GQueue.blank : GQueue := ⟨0, 0, 4, 0, false, 0, 0, []⟩
def State.gq (s : State) (q : Nat) : GQueue := nth GQueue.blank s.guest.queues q
def State.modGq (s : State) (q : Nat) (f : GQueue → GQueue) : State :=
  { s with guest := { s.guest with queues := modNth f s.guest.queues q } }
def GQueue.size (q : GQueue) : Nat := 2 ^ q.l
/-- SEQ of packet i, R398. -/
def seqOf (i : Nat) : Nat := (i + 1) % 2 ^ 32
/-- a is at or past b modulo 2^32, R407. -/
def seqReached (a b : Nat) : Bool := decide ((a % 2 ^ 32 + 2 ^ 32 - b % 2 ^ 32) % 2 ^ 32 < 2 ^ 31)

/-! ## Completion, R400, R406 to R408 -/

/-- Waiting GWAITs of queue q whose target is reached wake with reason 1. -/
def State.wakeGuest (s : State) (q : Nat) : State :=
  let met (k : WaitKind) : Bool := match k with | .guest _ q' t _ _ => q' == q && seqReached (s.gq q).cmp t | _ => false
  { s with teams := s.teams.map fun kv => (kv.1, (kv.2.waitsOf met).foldl
      (fun t x => match x.2.2.kind with | .guest dst .. => t.finishWait s.sched.steps x.1 x.2.1 dst 1 | _ => t) kv.2) }

/-- GCANs that await packet i of queue q count it; those that await nothing more complete. -/
def State.countCancel (s : State) (q i : Nat) (hit : Bool) : State :=
  let note (c : GCancel) : GCancel :=
    if c.q = q ∧ c.left.contains i then { c with left := c.left.filter (· != i), count := c.count + hit.toNat } else c
  let all := s.guest.cancels.map note
  let s : State := { s with guest := { s.guest with cancels := all.filter fun c => !c.left.isEmpty } }
  (all.filter (·.left.isEmpty)).foldl (fun s c => s.complete c.tk c.count) s

/-- The oldest packet of queue q completes with a STATUS word; CMP counts it. -/
def State.completePacket (s : State) (q status : Nat) : State :=
  match (s.gq q).packets with
  | [] => s
  | p :: rest =>
    let s := s.modGq q fun g => { g with packets := rest, cmp := p.i + 1 }
    let code := status % 256
    let s := s.complete p.tk (seqOf p.i * 2 ^ 32 + status % 2 ^ 32)
    ((s.countCancel q p.i (decide (3 ≤ code ∧ code ≤ 5))).wakeGuest q).tryEnd p.tk.iss.team

/-- A completion record in the queue's ring. -/
def State.writeCompletion (s : State) (q slot value status cseq : Nat) : State :=
  s.physWrite ⟨none, none⟩ 0 ((s.gq q).cq + 16 * slot) (leBytes 8 value ++ leBytes 4 status ++ leBytes 4 cseq)

/-! ## The fence, R401 -/

/-- GUEST_LOST for every uncompleted packet of a queue, in order. VALUE is not stated: a free choice. -/
def State.loseN : Nat → State → Nat → State
  | 0, s, _ => s
  | n + 1, s, q =>
    match (s.gq q).packets with
    | [] => s
    | p :: _ =>
      ((s.writeCompletion q (p.i % (s.gq q).size) (s.choose [16, q, p.i] % 2 ^ 64) 5 (seqOf p.i)).completePacket q 5).loseN n q

/-- PORT_FENCE with the violation's row. Waiting GWAITs that the lost packets do not satisfy wake with reason 3. Every queue is of
the partition in its CFG (log 17). -/
def State.fence (s : State) (cause : Nat) : State :=
  if s.guest.fenced then s
  else
    let s : State := { s with
      guest := { s.guest with
        fenced := true, cause := cause, shadows := [], invals := [], excessSince := none, waiting := [], ready := false },
      eng := { s.eng with landings := s.eng.landings.map fun l => if l.lost.isEmpty then l else { l with writes := l.lost } },
      mem := { s.mem with parked := s.mem.parked.filter fun p =>
        match p.who with | .guest .. => false | _ => true } }
    let s := (List.range 64).foldl (fun s q => s.loseN (s.gq q).packets.length q) s
    let s : State := { s with teams := s.teams.map fun kv =>
      (kv.1, (kv.2.waitsOf fun k => match k with | .guest .. => true | _ => false).foldl
        (fun t x => match x.2.2.kind with | .guest dst .. => t.finishWait s.sched.steps x.1 x.2.1 dst 3 | _ => t) kv.2) }
    let s := (List.range 32).foldl (fun s p => if s.guest.queues.any (·.part == p) then s.irq p 4 else s) s
    s.settleTeams

/-- The violations whose deadlines have passed, R396, R397, R403: how long ago, and the row of R401. An invalidation or a stop
request may still be met in the ns of its deadline; an excess that has lasted 1 ms is one. -/
def State.overdue (s : State) : List (Nat × Nat) :=
  let late (row : Nat) (ts : List Nat) : List (Nat × Nat) :=
    (ts.filter fun t => decide (t < s.clock.time)).map fun t => (s.clock.time - t, row)
  late 3 (s.guest.invals.map (·.due)) ++ late 4 (s.guest.queues.flatMap fun q => q.packets.filterMap (·.stop))
    ++ match s.guest.excessSince with
      | some t => if t + 1000000 ≤ s.mgmt.now then [(s.mgmt.now - (t + 1000000), 6)] else []
      | none => []

/-- The first violation to come of those; of two at one time, the one of the lower row. -/
def State.firstOverdue (s : State) : Option (Nat × Nat) :=
  s.overdue.foldl (fun best x => match best with | some y => if y.1 < x.1 then some x else best | none => some x) none

/-- The guest's deadlines that have passed: the first fences the port, after the waits that ended before it and before those
that end after (R401). -/
def State.expireGuest (s : State) : State :=
  match s.firstOverdue with
  | some x => (s.expireWaits (s.clock.time - x.1)).fence x.2
  | none => s

/-! ## The guest's accesses, R393, R395, R398, R400 -/

/-- The shadow entry that covers n bytes at pa with a right. -/
def State.shadowOf (s : State) (pa n : Nat) (w : Bool) : Option Shadow :=
  s.guest.shadows.find? fun e => decide (e.frame ≤ pa ∧ pa + n ≤ e.frame + e.size) && (if w then e.w else e.r)

/-- The queue in whose completion ring, or for a read in whose submission ring, n bytes at pa lie: the guest's shadow
entries hold the rings (R398). -/
def State.ringOf (s : State) (pa n : Nat) (w : Bool) : Option Nat :=
  (List.range 64).find? fun q =>
    let g := s.gq q
    g.enabled && (decide (g.cq ≤ pa ∧ pa + n ≤ g.cq + 16 * g.size) || (!w && decide (g.sq ≤ pa ∧ pa + n ≤ g.sq + 64 * g.size)))

/-- A CSEQ of this value in this slot is one that R400 accepts. -/
def GQueue.accepts (g : GQueue) (slot cseq : Nat) : Bool := decide (g.cmp < g.sub ∧ slot = g.cmp % g.size ∧ cseq = seqOf g.cmp)

/-- Bytes from outside the part, of the guest or the host, are performed line by line; a whole line is clean (R417). -/
def State.outerStore (s : State) (gen pa : Nat) (bs : List Byte) : State :=
  (linesOf pa bs.length).foldl (fun s l =>
    let lo := max pa (128 * l)
    let hi := min (pa + bs.length) (128 * l + 128)
    let s := s.physWrite ⟨none, none⟩ gen lo ((bs.drop (lo - pa)).take (hi - lo))
    if hi - lo = 128 then s.clean l else s) s

/-- Of the completion slots whose CSEQ a write touches, in order, the leading ones that R400 accepts with CMP at the first; the
rest of the list begins with one that it does not. -/
def GQueue.acceptsRun (g : GQueue) (cseq : Nat → Nat) : List Nat → List Nat × List Nat
  | [] => ([], [])
  | k :: ks =>
    if g.accepts k (cseq k) then
      let r := { g with cmp := g.cmp + 1 }.acceptsRun cseq ks
      (k :: r.1, r.2)
    else ([], k :: ks)

/-- A write into queue q's completion ring: each CSEQ that it writes completes a packet. One that is not accepted is a violation,
and nothing from it on is performed (R400, R401). -/
def State.ringStore (s : State) (q pa : Nat) (bs : List Byte) : State :=
  let g := s.gq q
  let end_ := pa + bs.length
  let slots := (List.range g.size).filter fun k => decide (pa < g.cq + 16 * k + 16 ∧ g.cq + 16 * k + 12 < end_)
  -- four bytes of a record as the write leaves them
  let word (a : Nat) : Nat := leNat ((List.range 4).map fun j =>
    if pa ≤ a + j ∧ a + j < end_ then nth 0 bs (a + j - pa) else s.physByte ⟨none, none⟩ 0 (a + j))
  let run := g.acceptsRun (fun k => word (g.cq + 16 * k + 12)) slots
  let upto := match run.2 with | [] => end_ | k :: _ => g.cq + 16 * k + 12
  let s := run.1.foldl (fun s k => s.completePacket q (word (g.cq + 16 * k + 8))) (s.outerStore 0 pa (bs.take (upto - pa)))
  if run.2.isEmpty then s else s.fence 5

/-- A packet under a context handle, R399. -/
def ofCtx (ctx : BitVec 32) (q : GQueue) (p : Packet) : Bool := ctx.toNat == p.asid + 2 ^ 12 * q.part

def State.packets (s : State) (hit : GQueue → Packet → Bool) : List Packet := s.guest.queues.flatMap fun q => q.packets.filter (hit q)

/-- Outstanding packets under a context handle. -/
def State.packetsOf (s : State) (ctx : BitVec 32) : Bool := !(s.packets (ofCtx ctx)).isEmpty

/-- Mark the oldest outstanding packet that fits as answered FAULT at va, R397. -/
def State.markFaulted (s : State) (hit : GQueue → Packet → Bool) (va : Nat) : State :=
  match s.guest.queues.findIdx? fun q => q.packets.any (hit q) with
  | some i => s.modGq i fun q =>
    { q with packets := modNth (fun p => { p with faulted := p.faulted ++ [va] }) q.packets ((q.packets.findIdx? (hit q)).getD 0) }
  | none => s

/-- An uncompleted packet that fits was answered FAULT at one of n bytes at va: asking again is a violation, R397. -/
def State.asksAgain (s : State) (hit : GQueue → Packet → Bool) (va n : Nat) : Bool :=
  (s.packets hit).any fun p => p.faulted.any fun a => decide (va ≤ a ∧ a < va + n)

/-- The context of firmware's own mappings, which no launch has (R398). -/
def fwAsid : Nat := 4096

/-- A read that consumes a poisoned line ends the context it was made in (R417). -/
def State.outerRead (s : State) (asid pa n : Nat) : State :=
  match (linesOf pa n).find? fun l => s.poisoned (128 * l) with
  | some l => s.consume asid (128 * l) none
  | none => s

/-- GUEST_ACCESS: an ordinary access inside a shadow entry, under the key that its page's id now holds; a collective range answers
it with a fault response. -/
def execGuestAccess (pa : Nat) (write : Option (List Byte)) (len : Nat) (s : State) : Host.Outcome State Fault Refusal :=
  let n := write.elim len (·.length)
  if s.guest.fenced ∨ n = 0 then .next s
  else
    match s.shadowOf pa n write.isSome, s.ringOf pa n write.isSome with
    | none, none => .next (s.fence 1)
    | none, some q => .next (match write with | some bs => s.ringStore q pa bs | none => s.outerRead fwAsid pa n)
    | some e, _ =>
      let va := e.va + (pa - e.frame)
      let mine (_ : GQueue) (p : Packet) : Bool := p.asid == e.asid
      if s.asksAgain mine va n then .next (s.fence 5)
      else if s.collHit pa n then .next (s.markFaulted mine va)
      else .next (match write with | some bs => s.outerStore (s.keyGen e.key) pa bs | none => s.outerRead e.asid pa n)

def State.answerGuest (s : State) (q : GuestReq) (g : Granted) : State :=
  { s with guest := { s.guest with answers := s.guest.answers ++ [(q, g)] } }

def State.faultGuest (s : State) (q : GuestReq) (c : Code) : State := (s.markFaulted (ofCtx q.ctx) q.va).answerGuest q (.fault c.num)

/-- The entry holds the translation of an address in a context. -/
def Shadow.of (e : Shadow) (asid va : Nat) : Bool := e.asid == asid && e.va == va / e.size * e.size

/-- The translation service's answer: a shadow entry, a FAULT, or the request is held for fw2, in a fault buffer or until
one has room. One granted when 4096 entries are held is beyond them, whenever it was made (R401, log 17). -/
def State.guestWalk (s : State) (q : GuestReq) : State :=
  let asid := q.ctx.toNat % 2 ^ 12
  if !canonical q.va then s.faultGuest q .xlate
  else
    match s.translate asid q.va ⟨q.r, q.w, q.x⟩ with
    | .ok l =>
      let frame := l.pa / l.size * l.size
      if physKind frame = .regs ∨ physKind frame = .guest then s.faultGuest q .prot
      else
        let rest := s.guest.shadows.filter fun e => !e.of asid q.va
        if 4096 ≤ rest.length then s.fence 2
        else
          let s : State := { s with guest := { s.guest with
            shadows := rest ++ [⟨asid, q.va / l.size * l.size, frame, l.size, l.key, l.r, l.w⟩] } }
          s.answerGuest q (.frame frame l.size l.r l.w l.x l.ca)
    | .absent =>
      let who : ParkWho := .guest q.ctx q.r q.w q.x
      if !(s.ctx? asid).any (·.replay) then s.faultGuest q .xlate
      else if s.mem.parked.any fun p => p.who == who && p.va == q.va then s
      else if s.bufferUsed 0 < 64 then s.parkEntry 0 asid q.va none who
      else { s with guest := { s.guest with waiting := s.guest.waiting ++ [q] } }
    | .bad => s.faultGuest q .xlate
    | .refused => s.faultGuest q .prot
    | .poisoned pa => s.consume asid pa none

/-- The oldest request that found no entry of the fault buffer is walked again once one is free. -/
def State.retryGuest (s : State) : State :=
  match s.guest.waiting with
  | [] => s
  | q :: rest =>
    if s.bufferUsed 0 < 64 then State.guestWalk { s with guest := { s.guest with waiting := rest } } q else s

/-- GUEST_TRANSLATE_REQUEST, after the translations that the guest released. -/
def execGuestTranslateRequest (ask : GuestAsk) (va : W64) (r w x : Bool) (s : State) : Host.Outcome State Fault Refusal :=
  let ctx := ask.ctx
  if s.guest.fenced then .next s
  else
    let s : State := { s with guest := { s.guest with
      shadows := s.guest.shadows.filter fun e => !ask.release.any fun y => e.of y.1 y.2 } }
    if !s.packetsOf ctx ∨ (4096 ≤ s.guest.shadows.length ∧ !s.guest.shadows.any (·.of (ctx.toNat % 2 ^ 12) va.toNat)) then .next (s.fence 2)
    else if s.asksAgain (ofCtx ctx) va.toNat 1 then .next (s.fence 5)
    else .next (s.guestWalk ⟨ctx, va.toNat, r, w, x⟩)

/-! ## Duties, R396, R397, R400, R403 -/

/-- A walk no longer gives the shadow entry. -/
def State.stale (s : State) (e : Shadow) : Bool :=
  match s.translate e.asid e.va {} with
  | .ok l => !(l.pa == e.frame && l.size == e.size && l.r == e.r && l.w == e.w && l.key == e.key)
  | _ => true

/-- The invalidation ends: the shadow entries that it was sent for go, those that a walk gives again apart (R396). -/
def State.endInval (s : State) (x : Inval) : State :=
  { s with guest := { s.guest with shadows := s.guest.shadows.filter fun e => !(x.ends.contains e && s.stale e) } }

/-- GUEST_INVALIDATION_ACK: the guest acknowledges its oldest invalidation, in time or not. -/
def execGuestInvalidationAck (s : State) : Host.Outcome State Fault Refusal :=
  match s.guest.invals with
  | [] => .next s
  | x :: rest =>
    if x.due < s.clock.time then .next (s.fence 3)
    else .next (State.endInval { s with guest := { s.guest with invals := rest } } x)

def execGuestInvalidationTimeout (s : State) : Host.Outcome State Fault Refusal :=
  if s.guest.invals.any fun x => decide (x.due ≤ s.clock.time) then .next (s.fence 3) else .next s

def execGuestStopTimeout (q : Nat) (s : State) : Host.Outcome State Fault Refusal :=
  if (s.gq q).packets.any fun p => p.stop.any fun t => decide (t ≤ s.clock.time) then .next (s.fence 4) else .next s

/-- GUEST_COMPLETION_RECORD: a CSEQ write that R400 accepts completes the oldest packet; any other is a violation. -/
def execGuestCompletionRecord (q slot : Nat) (value : W64) (status cseq : W32) (s : State) : Host.Outcome State Fault Refusal :=
  if s.guest.fenced then .next s
  else if q < 64 ∧ (s.gq q).accepts slot cseq.toNat then
    .next ((s.writeCompletion q slot value.toNat status.toNat cseq.toNat).completePacket q status.toNat)
  else .next (s.fence 5)

/-- The excess over GPWR has lasted 1 ms. -/
def State.excessDue (s : State) : Bool := s.guest.excessSince.any fun t => decide (t + 1000000 ≤ s.mgmt.now)

/-- GUEST_RAIL_OVER_ALLOWANCE: Genmon reads the guest rail's power in W, a free value; above GPWR it asks the guest to throttle, and at or
below it the excess ends, unless it has lasted 1 ms. -/
def execGuestRailOverAllowance (s : State) : Host.Outcome State Fault Refusal :=
  let g := s.guest
  let h := if s.choose [29] ≤ s.mgmt.gpwr then { g with excessSince := none }
    else if g.excessSince.isSome then g
    else { g with excessSince := some s.mgmt.now, throttles := g.throttles + 1 }
  if s.excessDue then .next (s.fence 6) else .next { s with guest := h }

/-- GUEST_POWER_EXCESS: the excess has lasted 1 ms. -/
def execGuestPowerExcess (s : State) : Host.Outcome State Fault Refusal := if s.excessDue then .next (s.fence 6) else .next s

def execGuestLinkDown (s : State) : Host.Outcome State Fault Refusal :=
  let s := s.fence 7
  .next { s with guest := { s.guest with present := false } }

/-! ## Registers, R404 -/

def execQcfgWrite (q : Nat) (x : W64) (s : State) : Host.Outcome State Fault Refusal :=
  let n := x.toNat
  let g := s.gq q
  if bits n 62 13 ≠ 0 ∨ bits n 7 4 ≠ 0 ∨ 8 < n % 16 ∨ (g.enabled ∧ g.sub ≠ g.cmp) then .next s
  else .next (s.modGq q fun g => { g with l := n % 16 + 4, part := bits n 12 8, enabled := x.getLsbD 63 })

/-- The value that a read at an offset of the socket control block returns, R404. -/
def State.socketRead (s : State) (off : Nat) : W64 :=
  let g := s.gq ((off - 0x1000) / 0x40)
  if off = 0x08 then BitVec.ofNat 64 (s.guest.fenced.toNat + 2 * s.guest.cause)
  else if off = 0x10 then BitVec.ofNat 64 s.mgmt.gpwr
  else if off < 0x1000 ∨ 0x2000 ≤ off then 0
  else
    match off % 0x40 with
    | 0x00 => BitVec.ofNat 64 g.sq
    | 0x08 => BitVec.ofNat 64 g.cq
    | 0x10 => BitVec.ofNat 64 (g.l - 4 + 2 ^ 8 * g.part + 2 ^ 63 * g.enabled.toNat)
    | 0x18 => BitVec.ofNat 64 (g.sub % 2 ^ 32)
    | 0x20 => BitVec.ofNat 64 (g.cmp % 2 ^ 32)
    | _ => 0

/-- GCTL_DOORBELL_TEST: the guest is notified; no other state changes. -/
def execGctlDoorbellTest (s : State) : Host.Outcome State Fault Refusal :=
  .next { s with guest := { s.guest with doorbells := s.guest.doorbells + 1 } }

/-! ## Class 0xC, R405 to R408 -/

/-- The queue checks of R405. -/
def View.guestQ (v : View) (o : Opnds) (fenced : Bool) (k : Nat → GQueue → Issued) : Issued :=
  let q := v.scalar o .u32 o.sa
  let g := v.s.gq q
  if 64 ≤ q ∨ !g.enabled ∨ g.part ≠ v.team.part ∨ (fenced && v.s.guest.fenced) then .fault { code := .guestQ, val := some q }
  else k q g

def execGsub (o : Opnds) (acq : Bool) (s : State) : Host.Outcome State Fault Refusal :=
  issue (.gsub o acq) o s fun v => v.once o <| v.guestQ o true fun q g =>
    let x := v.scalar o .u32 o.sb
    v.checked (v.checkOff x) <|
      if g.sub - g.cmp = g.size then .stall v.s
      else
        let body := v.s.scratchRead v.team x 56
        let s := if acq then v.s.fenceAcq v.iss .package v.grp.seen else v.s
        let n := s.newCmd
        let ctx := v.team.asid % 2 ^ 12 + 2 ^ 12 * v.team.part
        let s := (v.enter (.gsub o acq) o n.2).physWrite ⟨none, none⟩ 0 (g.sq + 64 * (g.sub % g.size))
          (body ++ leBytes 4 ctx ++ leBytes 4 (seqOf g.sub))
        .done (v.hold15 o n.1 (s.modGq q fun g => { g with
          sub := g.sub + 1, packets := g.packets ++ [⟨g.sub, v.ticket o n.1, v.team.asid, none, []⟩] }))

def execGwait (o : Opnds) (s : State) : Host.Outcome State Fault Refusal :=
  issue (.gwait o) o s fun v => v.once o <| v.guestQ o false fun q _ =>
    .done (v.capture v.s (.wait (.guest o.dst q (v.scalar o .u32 o.sb) (v.scalar o .u32 o.sc) 0) ((v.active o).map (·.tid))))

/-- GWAIT_TIMEOUT: TIME has reached the limit. -/
def execGwaitTimeout (r : TeamRef) (rec : Nat) (s : State) : Host.Outcome State Fault Refusal :=
  .next (s.endDue r rec 2)

def execGcan (o : Opnds) (s : State) : Host.Outcome State Fault Refusal :=
  issue (.gcan o) o s fun v => v.once o <| v.guestQ o true fun q g =>
    let seq := v.scalar o .u32 o.sb
    let covered (p : Packet) : Bool := seqReached (seqOf p.i) seq
    let left := (g.packets.filter fun p => covered p).map (·.i)
    if left.isEmpty then v.status (.gcan o) o v.s 0
    else
      let n := v.s.newCmd
      let by_ := v.s.clock.time + 50000
      let s := (v.enter (.gcan o) o n.2).modGq q fun g => { g with
        packets := g.packets.map fun p => if covered p ∧ p.stop.isNone then { p with stop := some by_ } else p }
      .done (v.await o n.1 { s with guest := { s.guest with cancels := s.guest.cancels ++ [⟨v.ticket o n.1, q, left, 0⟩] } })

end Sys2Proof.Machine
end

