-- ==== Sys2Proof/Machine/System.lean ====
section
/-! DEFINITION. Class 0xD, machine checks and scrubbing, the fault ring's and partition control registers, key ownership, function-level reset (spec/18). -/
namespace Sys2Proof.Machine

/-! ## System instructions, R424 to R428 -/

def execTrap (o : Opnds) (s : State) : Host.Outcome State Fault Refusal :=
  issue (.trap o) o s fun v => v.once o <| .fault { code := .trap, trapCode := v.scalar o .u32 o.sa % 2 ^ 16 }

/-- A BKPT without a handler, or in trap state, has no effect. -/
def execBkpt (o : Opnds) (s : State) : Host.Outcome State Fault Refusal :=
  issue (.bkpt o) o s fun v => v.once o <|
    if v.team.hdr.handler = 0 ∨ v.grp.trap.isSome then .done v.s else .fault { code := .bkpt }

/-- RESUME's checks; the return itself follows CLEND (R416). -/
def execResume (o : Opnds) (skip : Bool) (s : State) : Host.Outcome State Fault Refusal :=
  issue (.resume o skip) o s fun v =>
    match v.grp.trap with
    | none => .fault { code := .illOp }
    | some r =>
      if (v.active o).length = v.present.length ∧ v.cl.issue = r.clause.issue then .done (v.capture v.s (.resume skip))
      else .fault { code := .illOp }

def execSwr (o : Opnds) (s : State) : Host.Outcome State Fault Refusal :=
  issue (.swr o) o s fun v => v.once o <|
    let x := v.scalar o .u32 o.sb
    let vec := x % 64
    let p := v.team.part
    let q := v.s.part p
    if bits x 31 7 ≠ 0 ∨ (x.testBit 6 ∧ vec < 8) then .fault { code := .illOpnd }
    else if q.flr || !q.held.isEmpty || !q.ringRoom then v.writes (v.dstS o 1)
    else
      let r : Status := ⟨8, vec, v.team.launch, v.scalar o .u64 o.sa, v.s.clock.time, 0, if x.testBit 6 then some vec else none⟩
      .done ((v.s.putStatus p r).applyWrites v.iss (v.dstS o 0))

def execWarnc (o : Opnds) (s : State) : Host.Outcome State Fault Refusal :=
  issue (.warnc o) o s fun v => v.once o <|
    let mask := BitVec.ofNat 32 (v.scalar o .u32 o.sa)
    .done ((v.s.applyWrites v.iss (v.dstS o v.grp.warn.toNat)).modGrp v.iss fun g => { g with warn := g.warn &&& ~~~mask })

/-! ## Machine checks, R417, R418 -/

def State.poisonLine (s : State) (line : Nat) : State :=
  { s with mem := { s.mem with poison := s.mem.poison.filter (· != line) ++ [line] } }

/-- UNCORRECTABLE_ERROR: an error of a core's or an engine's storage, or of a line that a context consumes, ends the
context; one of firmware's storage is a package error in the log. -/
def execUncorrectableError (site : ErrorSite) (pa : Nat) (syndrome : W64) (s : State) : Host.Outcome State Fault Refusal :=
  match site with
  | .context asid => .next (s.endContext asid pa syndrome.toNat none)
  | .line a asid => .next ((s.poisonLine (a / 128)).endContext asid a syndrome.toNat none)
  | .firmware => .next (s.logEvent 2 0 3 [pa, syndrome.toNat])
  | .arrival a words => .next ((s.arriveMchk a.port a.msg words pa syndrome.toNat).settleTeams)
  | .corrected => .next (s.logEvent 2 0 0 [pa, syndrome.toNat])

/-- PATROL_SCRUB of a line of HBM: a correctable error is rewritten, any other poisons the line. -/
def execPatrolScrub (pa : Nat) (correctable : Bool) (s : State) : Host.Outcome State Fault Refusal :=
  if correctable ∨ physKind pa ≠ .hbm then .next s else .next (s.poisonLine (pa / 128))

/-! ## The fault ring's registers, R412 -/

def State.setFaultRing (s : State) (p : Nat) (f : Part → Part) : State := s.modPart p fun q => { f q with frhead := 0, frtail := 0, frrings := q.frrings + 1 }

def execFrbaseWrite (part : Fin 32) (x : W64) (s : State) : Host.Outcome State Fault Refusal :=
  let q := s.part part
  if x.toNat % 4096 ≠ 0 ∨ q.frtail ≠ q.frhead then .next s else .next (s.setFaultRing part fun q => { q with frbase := x.toNat })

def execFrcfgWrite (part : Fin 32) (x : W64) (s : State) : Host.Outcome State Fault Refusal :=
  let q := s.part part
  if 8 < x.toNat ∨ q.frtail ≠ q.frhead then .next s else .next (s.setFaultRing part fun q => { q with frcfg := x.toNat })

def execFrheadWrite (part : Fin 32) (x : W64) (s : State) : Host.Outcome State Fault Refusal :=
  let q := s.part part
  if x.toNat < q.frhead ∨ q.frtail < x.toNat then .next s else .next (s.modPart part fun q => { q with frhead := x.toNat })

/-- A read of FRDROP clears it. -/
def execFrdropRead (part : Fin 32) (s : State) : Host.Outcome State Fault Refusal :=
  .next ((s.answerRead part 0x820).modPart part fun q => { q with frdrop := 0 })

/-! ## The partition control block and key ownership, R419, R420 -/

def execPctlWrite (part : Fin 32) (x : W64) (s : State) : Host.Outcome State Fault Refusal :=
  if 2 ≤ x.toNat then .next s else .next (s.modPart part fun q => { q with pctl := x })

def execDefdefWrite (part : Fin 32) (x : W64) (s : State) : Host.Outcome State Fault Refusal :=
  if x.toNat = 0 ∨ 2 ^ 32 ≤ x.toNat then .next s else .next (s.modPart part fun q => { q with defdef := x.toNat })

def execFabshWrite (part : Fin 32) (x : W64) (s : State) : Host.Outcome State Fault Refusal :=
  if x.toNat = 0 ∨ 256 ≤ x.toNat then .next s else .next (s.modPart part fun q => { q with fabsh := x.toNat })

def execHbmwWrite (part : Fin 32) (x : W64) (s : State) : Host.Outcome State Fault Refusal :=
  if x.toNat = 0 ∨ 256 ≤ x.toNat then .next s else .next (s.modPart part fun q => { q with hbmw := x.toNat })

/-- The key id of a team's burrow, R106. -/
def State.burrowKey (s : State) (t : Team) : Nat :=
  match t.item with
  | .launch id => ((s.launch? id).bind (·.burrows.head?)).elim 0 (·.key)
  | .den n => ((s.den? n).bind (·.burrows.head?)).elim 0 (·.key)
  | .reduce .. => (s.ctx? t.asid).elim 0 (·.key)

/-- Byte offset of a register in its burrow, R106. -/
def burrowOffset (tid n : Nat) : Nat := 512 * tid + 4 * n

/-- The v registers of a thread that stand in its burrow, as they read under another key than they were written under: each is
unpredictable (R106, R177). Zero-marked blocks are not read from it (R107). -/
def Thread.scramble (th : Thread) (f : Nat → W32) : Thread :=
  let regs := th.live.flatMap fun b => (List.range 32).map fun i => 32 * b + i
  { th with v := regs.foldl (fun v n => v.set 0 n (f (burrowOffset th.tid n))) th.v }

/-- The key that id k holds is another one from now on, or none: so read the burrows of teams under it. DESIGN CHOICE: of a team that
starts while its id holds no key the registers read as they were written (log 26). -/
def State.rekey (s : State) (k : Nat) : State :=
  { s with teams := s.teams.map fun x =>
    if s.burrowKey x.2 = k then
      (x.1, x.2.modThreads (fun _ => true) fun th => th.scramble fun a => BitVec.ofNat 32 (s.choose [31, x.1, a]))
    else x }

/-- Id k holds a key of generation g, or none. -/
def State.putKey (s : State) (k : Nat) (g : Option Nat) : State :=
  let keys := match g with
    | some g => s.mem.keys.put k g
    | none => s.mem.keys.del k
  let new : State := { s with mem := { s.mem with keys := keys } }
  if k = 0 ∨ s.mem.keys.find k = g then new else new.rekey k

/-- Erase the key that an id holds. -/
def State.eraseKey (s : State) (k : Nat) : State := s.putKey k none

/-- KEY_OWNER_WRITE: bits 6 and 5 are Reserved; a byte without bit 7 owns nothing, and releases the id. -/
def execKeyOwnerWrite (k : Nat) (x : Byte) (s : State) : Host.Outcome State Fault Refusal :=
  let old := s.mem.owners.get 0 k
  let put : State := { s with mem := { s.mem with owners := s.mem.owners.set 0 k x } }
  if k = 0 ∨ 4096 ≤ k ∨ x.getLsbD 6 ∨ x.getLsbD 5 then .next s
  else if !x.getLsbD 7 then .next (put.eraseKey k)
  else if old.getLsbD 7 ∧ old.toNat % 32 ≠ x.toNat % 32 then .next s
  else .next put

/-! ## Function-level reset, R422 -/

/-- Step 1: binds, dens, feed queues and the window of the partition stop. -/
def State.stopPart (s : State) (p : Nat) : State :=
  let off (b : Tab W64) (x : Nat × W64) : Tab W64 :=
    if bits x.2.toNat 60 56 = p ∧ bits x.2.toNat 62 61 ≠ 1 then b.set 0 x.1 (x.2 &&& 0x7FFFFFFFFFFFFFFF) else b
  let s := s.modPart p fun q => { q with flr := true, held := [] }
  { s with front := { s.front with
      binds := s.front.binds.foldl off s.front.binds,
      pendingLaunches := s.front.pendingLaunches.filter (·.1 != p),
      levels := s.front.levels.filter (·.part != p),
      feedqs := s.front.feedqs.map fun q => if q.part = p then { q with enabled := false } else q,
      dens := s.front.dens.map fun d => if d.part = p then d.dropAll else d } }

/-- FUNCTION_LEVEL_RESET, steps 1 to 6 as far as they begin at once. -/
def execFunctionLevelReset (part : Fin 32) (s : State) : Host.Outcome State Fault Refusal :=
  let p := part.val
  if (s.part p).flr then .next s
  else
    let s := s.stopPart p
    let s := (s.teamList.filter (·.part == p)).foldl (fun s t => s.beginDiscard t.ref .kill) s
    let s := (s.front.launches.filter (·.part == p)).foldl (fun s l =>
      s.modLaunch l.id fun l => { l.dropRest with killed := true }) s
    let s := (s.coll.live.filter (·.part == p)).foldl (fun s c => s.dropColl p c.bind.cid 1 true) s
    let s := s.dropReqs fun q => q.part == p && q.iss.isSome
    let s := s.closeRegions fun r _ => r / 32 == p
    let stop : State := { s with guest := { s.guest with queues := s.guest.queues.map fun q =>
      if q.part = p then
        { q with packets := q.packets.map fun x => { x with stop := some (x.stop.getD (s.clock.time + 50000)) } }
      else q } }
    .next stop.settleWork

/-- The steps 2 to 6 have ended for partition p. -/
def State.flrReady (s : State) (p : Nat) : Bool :=
  s.teamList.all (·.part != p) && s.front.launches.all (·.part != p) && s.coll.live.all (·.part != p)
    && s.fab.reqs.all (fun q => q.part != p || q.iss.isNone)
    && s.fab.regions.all (fun x => x.1 / 32 != p || x.2.state == .free)
    && s.guest.queues.all fun q => q.part != p || q.packets.isEmpty

/-- FLR_COMPLETE, steps 7 and 8. -/
def execFlrComplete (part : Fin 32) (s : State) : Host.Outcome State Fault Refusal :=
  let p := part.val
  if !(s.part p).flr || !s.flrReady p then .next s
  else
    let s := s.modPart p fun q => { Part.reset p with
      pctl := q.pctl, slotsh := q.slotsh, hbmw := q.hbmw, fabsh := q.fabsh, defdef := q.defdef, winBase := q.winBase,
      tmodef := q.tmodef, frrings := q.frrings + 1 }
    let s : State := { s with front := { s.front with
      orphans := s.front.orphans.filter (·.part != p),
      feedqs := s.front.feedqs.map fun q =>
      if q.part = p then { num := q.num, part := p, enabled := false, l := 0, base := 0, asid := q.asid, head := 0, claim := 0, tail := 0,
                           rsv := 0, qovf := false, sleepers := [], orphans := [], consumed := [] } else q } }
    .next (s.watch p)

end Sys2Proof.Machine
end

