-- ==== Sys2Proof/Machine/Mgmt.lean ====
section
/-! DEFINITION. Genmon and the parts of the package that firmware and the host drive: boot stages, rails, training, thermal and power limits, Genmon's commands, the guest's admission, TIME and clocks, invalidation, host accesses and register writes (spec/19, spec/01 R11, R12, R14, spec/08 R178, R180). -/
namespace Sys2Proof.Machine

/-! ## Images, R437 -/

def State.target (s : State) (t : Nat) : Target := nth Target.reset s.mgmt.targets t
def State.modTarget (s : State) (t : Nat) (f : Target → Target) : State :=
  { s with mgmt := { s.mgmt with targets := modNth f s.mgmt.targets t } }

/-- A byte of a bank: what was written, else the flash as manufactured. -/
def State.flashByte (s : State) (t : Nat) (b : Bool) (off : Nat) : Byte :=
  ((if b then (s.target t).bankB else (s.target t).bankA).find off).getD (Config.flash t b off)

def State.flashBytes (s : State) (t : Nat) (b : Bool) (off n : Nat) : List Byte :=
  (List.range n).map fun i => s.flashByte t b (off + i)

def State.flashField (s : State) (t : Nat) (b : Bool) (off n : Nat) : Nat := leNat (s.flashBytes t b off n)

/-- A digest as 32 bytes, and back. -/
def digestBytes (d : BitVec 256) : List Byte := leBytes 32 d.toNat

inductive Verdict where
  | good | badSig | rollback
  deriving DecidableEq, Repr

/-- The floor of a target: as fused, or as raised. -/
def State.floorOf (s : State) (t : Nat) : Nat := max (Config.fuseFloor t) (s.target t).floor

/-- The checks of R437 on a bank's image for a target. -/
def State.verify (s : State) (t : Nat) (b : Bool) : Verdict :=
  let f := s.flashField t b
  let zero (off n : Nat) : Bool := (s.flashBytes t b off n).all (· == 0)
  let pubk := s.flashBytes t b 0x100 56
  let len := f 0x20 4
  if f 0 4 ≠ 0x4B464D57 ∨ f 4 2 ≠ 1 ∨ f 6 1 ≠ t ∨ !zero 0xC 4 ∨ !zero 0x24 28 ∨ !zero 0xA0 96 ∨ !zero 0xB04 1276
     ∨ 4 ≤ f 7 1 ∨ Config.slotRevoked (f 7 1) ∨ sha256 pubk ≠ Config.slotDigest (f 7 1)
     ∨ !lmsVerify pubk (s.flashBytes t b 0 0x138) (s.flashBytes t b 0x138 2508)
     ∨ 2 ^ 22 - 4096 < len ∨ digestBytes (sha256 (s.flashBytes t b 4096 len)) ≠ s.flashBytes t b 0x40 32 then .badSig
  else if f 8 4 < s.floorOf t then .rollback
  else .good

/-- The bank that a boot loads, R444: the preferred one first. -/
def State.pick (s : State) (t : Nat) : Option Bool :=
  let p := (s.target t).preferB
  if s.verify t p = .good then some p else if s.verify t (!p) = .good then some (!p) else none

/-- Bytes of a core's SRAM: Genmon's is 1 MiB (R429); that of a firmware core is not stated (log 12). -/
def sramHolds (t a : Nat) : Bool := t != 8 || decide (a < 2 ^ 20)

/-- The image of a bank in its core's SRAM, its body at LOAD; the core is released and starts at ENTRY. -/
def State.release (s : State) (t : Nat) (b : Bool) : State :=
  let f := s.flashField t b
  let body := (s.flashBytes t b 4096 (f 0x20 4)).zipIdx.filter fun y => sramHolds t (f 0x10 8 + y.2)
  s.modMgmt fun m => { m with cores := modNth (fun c =>
    { c with released := true, pc := f 0x18 8, sram := body.foldl (fun r y => r.set 0 (f 0x10 8 + y.2) y.1) c.sram }) m.cores t }

/-- A boot loads a target from a bank; a fresh trial becomes tried. -/
def State.load (s : State) (t : Nat) (b : Bool) : State :=
  let x := s.target t
  let s := (s.release t b).modTarget t fun x => { x with usedB := b, tried := x.tried || x.trial }
  if x.trial && !x.tried then s.modMgmt fun m => { m with trialBoot := true } else s

/-! ## Measurement, R438 -/

def State.extendBy (s : State) (i : Nat) (d : BitVec 256) : State :=
  s.modMgmt fun m => { m with meas := modNth (fun x => sha256 (digestBytes x ++ digestBytes d)) m.meas i }

def State.extendHeader (s : State) (i t : Nat) (b : Bool) : State := s.extendBy i (sha256 (s.flashBytes t b 0 0x138))

/-! ## Boot stages, R433 -/

def State.setStage (s : State) (n : Nat) : State := s.modMgmt fun m => { m with stage := n }

/-- Bring-up stops at its stage, with a log entry of SEV 3: its DATA is the error code, then what R431 lists for the event, a rail
and its current, or an image's target and bank (log 12). -/
def State.failStage (s : State) (code srcu : Nat) (data : List Nat) : State :=
  (s.logEvent 3 srcu 3 (code :: data)).modMgmt fun m => { m with error := code }

/-- The bank that a boot of a target tried last, when neither holds a valid image. -/
def State.lastTried (s : State) (t : Nat) : Nat := (!(s.target t).preferB).toNat

/-- The boot ROM's published digest, R429. -/
def romDigest : BitVec 256 := sha256 ((List.range 32768).map Config.bootRom)

/-- Stage 1 with the Genmon image of a bank; stage 2 follows. -/
def State.bootGenmon (s : State) (b : Bool) : State := (((s.load 8 b).extendBy 0 romDigest).extendHeader 0 8 b).setStage 2

/-- Stage 1. -/
def State.bootRom (s : State) : State :=
  match s.pick 8 with
  | some b => s.bootGenmon b
  | none => s.failStage 1 1 [8, s.lastTried 8]

/-- Stage 2. -/
def State.bootFuses (s : State) : State :=
  if !Config.fusesGood then s.failStage 2 0 []
  else (s.extendBy 1 (sha256 (Config.fuseSummary ((List.range 9).map s.floorOf)))).setStage 3

/-- Stage 5: every firmware image is verified, extended, loaded and released, in core order; then stage 6 releases the host
link's PHY (R440). -/
def State.bootFirmware (s : State) : State :=
  let go (s : State) (n : Nat) : State :=
    if s.mgmt.error ≠ 0 then s
    else
      match s.pick n with
      | none => s.failStage 5 0 [n, s.lastTried n]
      | some b => (s.load n b).extendHeader 2 n b
  let s := (List.range 8).foldl go s
  if s.mgmt.error ≠ 0 then s else (s.setStage 6).modMgmt fun m => { m with phy := true }

/-- HBM reads zero, under key id 0, R435. -/
def State.zeroHbm (s : State) : State :=
  let out (a : Nat) : Bool := physKind a != .hbm
  let st := s.mem.phys
  { s with mem := { s.mem with
      phys := ⟨st.cells.filter fun x => out x.1, st.unplaced.filter fun u => out u.word, st.past.filter fun p => out p.word⟩,
      tags := [], poison := [] } }

/-- Stage 4 ends when every stack has passed: HBM is zeroed, and stage 5 begins. -/
def State.endTraining (s : State) : State :=
  let m := s.mgmt
  if m.stage = 4 ∧ m.error = 0 ∧ !m.off ∧ m.hbm.all (·.result == 1) then s.zeroHbm.setStage 5 else s

/-- The work of a stage that is done, and the stage after it; stage 4 ends with its last stack's training. Stage 7 begins with the
read of the guest's capability block, if there is a guest (R436). -/
def State.bringUp (s : State) : State :=
  let m := s.mgmt
  if m.error ≠ 0 ∨ m.off then s
  else
    match m.stage with
    | 1 => s.bootRom
    | 2 => s.bootFuses
    | 3 => if (m.rails.take 10).all (·.good) then s.setStage 4 else s
    | 5 => s.bootFirmware
    | 6 => (s.setStage 7).modMgmt fun m => { m with guestCap := if Config.guestFitted then some Config.guestRail else none }
    | 7 =>
      if !Config.guestFitted || m.guestDone || (m.ucie.all (·.result != 0) && m.ucie.any (·.result == 2)) then s.setStage 8 else s
    | 8 => if m.optics.all fun p => p.all || p.out then (s.setStage 9).modMgmt fun m => { m with readyAt := m.now } else s
    | _ => s

/-- Bring-up goes on by a stage as time passes: what Genmon and the boot ROM do there touches their own state alone, and BOOTST
shows each stage in turn (R433). -/
def State.bootStep (s : State) : State := { s with mgmt := s.bringUp.mgmt }

/-- A stack in training goes on to its next step at a free time, R435. -/
def State.trainHbm (s : State) : State :=
  s.modMgmt fun m => { m with hbm := m.hbm.zipIdx.map fun x =>
    if x.1.start && x.1.result == 0 && decide (x.1.step < 8) then { x.1 with step := x.1.step + s.choose [28, x.2] % 2 } else x.1 }

/-- A power cap that was written is enforced once its time is up, R432. -/
def State.enforceCap (s : State) : State :=
  s.modMgmt fun m => if m.pcapDue.any fun t => decide (t ≤ m.now) then { m with capHeld := m.pcap, pcapDue := none } else m

/-- What Genmon does as time passes. -/
def State.genmonTime (s : State) : State := s.bootStep.trainHbm.enforceCap

/-- What a reset of the package leaves: Genmon's flash, its fuses and its log, the memory of the host and the guest, and
HBM until stage 4 zeroes it. -/
def State.packageReset (s : State) : State :=
  let r := State.reset
  { r with
    sched := s.sched,
    mem := { r.mem with
      phys := ⟨s.mem.phys.cells, [], []⟩, tags := s.mem.tags, poison := s.mem.poison, nextGen := s.mem.nextGen, loaded := s.mem.loaded },
    mgmt := { r.mgmt with
      now := s.mgmt.now, log := s.mgmt.log, targets := s.mgmt.targets, flash := s.mgmt.flash, quotes := s.mgmt.quotes,
      boots := s.mgmt.boots } }

/-- A trial that was tried and not confirmed reverts, R444. -/
def Target.revert (t : Target) : Target :=
  if t.trial && t.tried then { t with preferB := t.prevB, trial := false, tried := false } else t

/-- POWER_ON_RESET: a package reset, or a power-on, from which Genmon counts (R431); stage 1 runs. -/
def execPowerOnReset (s : State) : Host.Outcome State Fault Refusal :=
  .next (s.packageReset.modMgmt fun m => { m with
    now := if s.choose [30] % 2 = 1 then 0 else m.now, boots := m.boots + 1, targets := m.targets.map Target.revert })

/-- CONFIGURATION_REQUEST: answered with Request Retry Status until stage 9. -/
def execConfigurationRequest (s : State) : Host.Outcome State Fault Refusal :=
  .next (s.modMgmt fun m => { m with configAnswers := m.configAnswers ++ [m.stage == 9 && !m.off] })

/-! ## Rails, R434 -/

def Rail.blank : Rail := ⟨0, false, false, false, 0, 0, 0⟩
def State.rail (s : State) (n : Nat) : Rail := nth Rail.blank s.mgmt.rails n
def State.modRail (s : State) (n : Nat) (f : Rail → Rail) : State := s.modMgmt fun m => { m with rails := modNth f m.rails n }

/-- Every enabled rail but STBY is disabled, in reverse order; what the rails fed is lost. -/
def State.powerDown (s : State) : State :=
  let m := s.mgmt
  let drop (x : Rail × Nat) : Rail := if x.2 = 0 then x.1 else { x.1 with enable := false, good := false, volts := 0, amps := 0 }
  s.packageReset.modMgmt fun r => { r with
    stage := m.stage, error := m.error, trialBoot := m.trialBoot, off := true, rails := m.rails.zipIdx.map drop,
    temps := m.temps, meas := m.meas, buf := m.buf, status := m.status, cfgcnt := m.cfgcnt,
    cores := r.cores.take 8 ++ m.cores.drop 8 }

/-- The target in mV of a rail's RSET: its nominal voltage; the guest's is that of its capability block. -/
def Mgmt.railTarget (m : Mgmt) (n mv : Nat) : Bool :=
  match n with
  | 1 => mv == 750
  | 2 => mv == 850
  | 3 | 4 | 5 | 6 => decide (650 ≤ mv ∧ mv ≤ 900)
  | 7 => mv == 1050
  | 8 => mv == 400
  | 9 => mv == 1200
  | 10 => m.guestCap == some mv
  | _ => false

/-- RAIL_ENABLE: Genmon writes RSET and sets RCTL[0] of the next rail in order. -/
def execRailEnable (n : Fin 11) (setting : W64) (s : State) : Host.Outcome State Fault Refusal :=
  let m := s.mgmt
  let turn := (m.stage == 3 && decide (n.val ≤ 9)) || (m.stage == 7 && decide (n.val = 10) && Config.guestFitted)
  if n.val = 0 ∨ 2 ^ 32 ≤ setting.toNat ∨ !m.railTarget n (setting.toNat % 2 ^ 16) ∨ m.off ∨ m.error ≠ 0 ∨ !turn ∨ (s.rail n).enable ∨ !(m.rails.take n.val).all (·.good) then .next s
  else .next (s.modRail n fun r => { r with set := setting, enable := true, since := m.now })

/-- RAIL_POWER_GOOD within 2 ms of the enable: RCTL[1]; BASE starts TIME (R12). -/
def execRailPowerGood (n : Fin 11) (s : State) : Host.Outcome State Fault Refusal :=
  let r := s.rail n
  if !r.enable || r.good || r.fault || s.mgmt.off || decide (r.since + 2000000 < s.mgmt.now) then .next s
  else
    let s := s.modRail n fun r => { r with good := true, volts := s.choose [18, n.val] % 2 ^ 16, amps := s.choose [17, n.val] % 2 ^ 32 }
    .next (if n.val = 1 then { s with clock := { s.clock with runs := true } } else s)

/-- Rail n fails: every rail is disabled; in stage 3 bring-up fails. -/
def State.railFails (s : State) (n : Nat) : State :=
  (if s.mgmt.stage = 3 ∧ s.mgmt.error = 0 then s.failStage 3 0 [n, (s.rail n).amps] else s).powerDown

def execRailPowerGoodTimeout (n : Fin 11) (s : State) : Host.Outcome State Fault Refusal :=
  let r := s.rail n
  if r.enable && !r.good && decide (r.since + 2000000 ≤ s.mgmt.now) then .next (s.railFails n) else .next s

def execRailFault (n : Fin 11) (s : State) : Host.Outcome State Fault Refusal :=
  if (s.rail n).enable then .next ((s.modRail n fun r => { r with fault := true }).railFails n) else .next s

def execRailFaultClear (n : Fin 11) (s : State) : Host.Outcome State Fault Refusal :=
  .next (s.modRail n fun r => { r with fault := false })

/-! ## Training, R435, R436, R441 -/

def execHbmTrainStart (x : Fin 8) (s : State) : Host.Outcome State Fault Refusal :=
  if s.mgmt.stage = 4 ∧ s.mgmt.error = 0 then
    .next (s.modMgmt fun m => { m with hbm := modNth (fun y => if y.start then y else ⟨true, 1, 0, 0⟩) m.hbm x.val })
  else .next s

/-- HBM_TRAIN_COMPLETE: a stack passes at its last step, or fails at the step that it has reached. -/
def execHbmTrainComplete (x : Fin 8) (pass : Bool) (lanes : Byte) (s : State) : Host.Outcome State Fault Refusal :=
  let h := nth ⟨false, 0, 0, 0⟩ s.mgmt.hbm x.val
  if !h.start || h.result != 0 || s.mgmt.error != 0 || (pass && h.step != 8) then .next s
  else
    let done : Stack := ⟨true, h.step, if pass then 1 else 2, lanes.toNat⟩
    let s := s.modMgmt fun m => { m with hbm := modNth (fun _ => done) m.hbm x.val }
    .next (if pass then s.endTraining else s.failStage 4 0 [x.val])

/-- UCIE_TRAIN_START: before Genmon trains a module of a fenced port it resets the guest (log 17). -/
def execUcieTrainStart (x : Fin 4) (s : State) : Host.Outcome State Fault Refusal :=
  if 7 ≤ s.mgmt.stage ∧ Config.guestFitted then
    let s := s.modMgmt fun m => { m with ucie := modNth (fun _ => ⟨true, s.choose [22, x.val] % 16, 0, 0⟩) m.ucie x.val }
    .next { s with guest := { s.guest with ready := s.guest.ready || s.guest.fenced } }
  else .next s

/-- UCIE_TRAIN_COMPLETE: a module is accepted with the options of R391; any other outcome is logged, and the port is fenced. -/
def execUcieTrainComplete (x : Fin 4) (width : Nat) (link : UcieLink) (s : State) : Host.Outcome State Fault Refusal :=
  let u := nth ⟨false, 0, 0, 0⟩ s.mgmt.ucie x.val
  if !u.start || u.result != 0 then .next s
  else
    let lanes := if width = 64 ∨ width = 32 then width else 0
    let good := lanes != 0 && link.rate == 32 && link.package && link.protocol
    let s := s.modMgmt fun m => { m with ucie := modNth (fun u => { u with
      state := s.choose [22, x.val] % 16, result := if good then 1 else 2, width := lanes }) m.ucie x.val }
    .next (if good then s else (s.logEvent 5 0 2 [x.val, lanes]).fence 7)

def State.modOptic (s : State) (p : Nat) (f : Optic → Optic) : State := s.modMgmt fun m => { m with optics := modNth f m.optics p }
def State.optic (s : State) (p : Nat) : Optic := nth ⟨false, false, 0, false, false, 0, 0⟩ s.mgmt.optics p

/-- OPTICAL_LASER_ENABLE, from stage 8 on: the bias ramp starts. -/
def execOpticalLaserEnable (p : Fin 8) (s : State) : Host.Outcome State Fault Refusal :=
  if 8 ≤ s.mgmt.stage ∧ (s.rail 9).good ∧ !(s.optic p).laser then
    .next (s.modOptic p fun o => { o with laser := true, laserAt := s.mgmt.now })
  else .next s

/-- OPTICAL_LOCK_START, after the bias ramp of 1 ms. -/
def execOpticalLockStart (p : Fin 8) (s : State) : Host.Outcome State Fault Refusal :=
  if (s.optic p).laser ∧ (s.optic p).laserAt + 1000000 ≤ s.mgmt.now then
    .next (s.modOptic p fun o => { o with lock := true, out := false, lockAt := s.mgmt.now })
  else .next s

/-- OPTICAL_LOCK_COMPLETE, within 5 ms. -/
def execOpticalLockComplete (p : Fin 8) (s : State) : Host.Outcome State Fault Refusal :=
  if (s.optic p).lock && !(s.optic p).out && decide (s.mgmt.now ≤ (s.optic p).lockAt + 5000000) then
    .next (s.modOptic p fun o => { o with locked := 0xFFFFFFFF, all := true })
  else .next s

/-- OPTICAL_LOCK_TIMEOUT: not every wavelength is locked in time, and the port is out of service. -/
def execOpticalLockTimeout (p : Fin 8) (locked : W32) (s : State) : Host.Outcome State Fault Refusal :=
  if (s.optic p).lock && !(s.optic p).all && locked != 0xFFFFFFFF && decide ((s.optic p).lockAt + 5000000 ≤ s.mgmt.now) then
    .next (s.modOptic p fun o => { o with locked := locked, out := true })
  else .next s

/-! ## Clocks and limits, R11, R14, R430, R432 -/

def State.modDie (s : State) (d : Nat) (f : DieClock → DieClock) : State :=
  { s with clock := { s.clock with dies := modNth f s.clock.dies d } }

/-- The frequency at which a die runs: the lowest that applies. -/
def DieClock.runs (d : DieClock) : Nat := min d.mhz (min d.thermal (min d.current d.power))
def State.die (s : State) (d : Nat) : DieClock := nth ⟨1600, 2100, 2100, 2100⟩ s.clock.dies d

/-- The clock limit that a hot zone puts on a die: below its clock now, by free choice. -/
def State.throttleDie (s : State) (d : Nat) : State :=
  let now := (s.die d).runs
  s.modDie d fun c => { c with thermal := s.choose [19, d] % max 1 now }

def State.hottest (s : State) (lo n : Nat) : Int :=
  (List.range n).foldl (fun h i => max h (s.mgmt.temps.get 0 (lo + i))) (s.mgmt.temps.get 0 lo)

/-- The sensor of a zone with the hottest reading. -/
def State.hotSensor (s : State) (lo n : Nat) : Nat :=
  lo + ((List.range n).findIdx? fun i => s.mgmt.temps.get 0 (lo + i) == s.hottest lo n).getD 0

/-- Zones as first sensor, number of sensors, and trip reading in 1/8 degree. -/
def zones : List (Nat × Nat × Int) := [(0, 16, 960), (16, 16, 960), (32, 16, 960), (48, 16, 960), (64, 16, 920), (80, 8, 840), (88, 8, 680)]

/-- THERMAL_SAMPLE. -/
def execThermalSample (readings : List (Nat × Int)) (s : State) : Host.Outcome State Fault Refusal :=
  let s := s.modMgmt fun m => { m with temps := readings.foldl (fun t x => if x.1 < 96 then t.set 0 x.1 x.2 else t) m.temps }
  match zones.find? fun z => decide (z.2.2 ≤ s.hottest z.1 z.2.1) with
  | some z => .next (s.logEvent 4 0 3 [s.hotSensor z.1 z.2.1, (s.hottest z.1 z.2.1).toNat]).powerDown
  | none =>
    let base := decide (800 ≤ s.hottest 64 16)
    let s := (List.range 4).foldl (fun s d =>
      if base || decide (840 ≤ s.hottest (16 * d) 16) then s.throttleDie d else s.modDie d fun c => { c with thermal := 2100 }) s
    let s := s.modMgmt fun m => { m with hbmHalved := decide (760 ≤ s.hottest 80 8) }
    .next (if 600 ≤ s.hottest 88 8 then s.fwIrq 4 else s)

/-- CURRENT_LIMIT: the limit put on a die's clock, 2100 MHz when none is needed. -/
def execCurrentLimit (die : Fin 4) (mhz : Nat) (s : State) : Host.Outcome State Fault Refusal :=
  if 2100 < mhz then .next s else .next (s.modDie die fun c => { c with current := mhz })

/-- POWER_CAP_LIMIT: the clock that the power cap allows a die; the cap is enforced. -/
def execPowerCapLimit (die : Fin 4) (mhz : Nat) (s : State) : Host.Outcome State Fault Refusal :=
  if 2100 < mhz then .next s
  else .next ((s.modDie die fun c => { c with power := mhz }).modMgmt fun m => { m with capHeld := m.pcap, pcapDue := none })

/-- CORE_CLOCK_SELECT: between base and peak. -/
def execCoreClockSelect (die : Fin 4) (mhz : Nat) (s : State) : Host.Outcome State Fault Refusal :=
  if 1600 ≤ mhz ∧ mhz ≤ 2100 then .next (s.modDie die fun c => { c with mhz := mhz }) else .next s

/-- PCAP_WRITE. The previous cap is enforced until the new one is. -/
def execPcapWrite (x : W64) (s : State) : Host.Outcome State Fault Refusal :=
  let cap := bits x.toNat 15 0
  let gpwr := bits x.toNat 31 16
  if 2 ^ 32 ≤ x.toNat ∨ Config.pceil < cap ∨ 250 < gpwr ∨ cap < gpwr then .next s
  else .next (s.modMgmt fun m => { m with pcap := cap, gpwr := gpwr, pcapDue := some (m.now + 1000000) })

/-- CLUSTER_FUSION_MODE_SET: L1 lines hold no value of their own, so only the mode changes. -/
def execClusterFusionModeSet (cluster : Nat) (fused : Bool) (s : State) : Host.Outcome State Fault Refusal :=
  if 48 ≤ cluster then .next s
  else
    let rest := s.clock.fused.filter (· != cluster)
    .next { s with clock := { s.clock with
      fused := if fused then rest.filter (· < cluster) ++ [cluster] ++ rest.filter (cluster < ·) else rest } }

/-- TIME_POD_SYNC, R12, before the first relock of a pod: a step forward, or half rate until the two agree. -/
def execTimePodSync (podTime : W64) (s : State) : Host.Outcome State Fault Refusal :=
  if !s.clock.runs || s.fab.inPod then .next s
  else if s.clock.time ≤ podTime.toNat then .next { s with clock := { s.clock with time := podTime.toNat, lead := 0, half := 0 } }
  else .next { s with clock := { s.clock with lead := s.clock.time - podTime.toNat, half := 0 } }

/-! ## Genmon's commands, R442 to R444 -/

def Mgmt.putBuf (m : Mgmt) (off : Nat) (bs : List Byte) : Mgmt :=
  { m with buf := (bs.zipIdx).foldl (fun t x => if off + x.2 < 4096 then t.set 0 (off + x.2) x.1 else t) m.buf }
def State.bufBytes (s : State) (off n : Nat) : List Byte := (List.range n).map fun i => s.mgmt.buf.get 0 (off + i)
def State.bufNat (s : State) (off n : Nat) : Nat := leNat (s.bufBytes off n)

/-- The ROM stays in recovery: no valid Genmon image. -/
def State.recovery (s : State) : Bool := s.mgmt.stage == 1 && s.mgmt.error == 1

/-- A write of GMCMD: the command starts, or the write is ignored while another runs. -/
def State.startCmd (s : State) (code : Nat) : State :=
  if s.mgmt.busy then s.modMgmt fun m => { m with ignored := true }
  else s.modMgmt fun m => { m with busy := true, cmd := code, ignored := false }

/-- The command that runs ends with a result code and result bytes. -/
def State.endCmd (s : State) (code : Nat) (out : List Byte) : State :=
  s.modMgmt fun m => { m.putBuf 0 out with status := code, busy := false, cfgcnt := m.cfgcnt + 1 }

/-- A command with its arguments: unless it runs already, they are written to GMBUF and it starts; it reads them there.
While another command runs, the write of GMCMD is ignored. In recovery the ROM carries out IMGWR only. -/
def State.command (s : State) (code : Nat) (args : List Byte) (run : State → State) : State :=
  if s.mgmt.off then s
  else if s.mgmt.busy then
    if s.mgmt.cmd = code then (if s.recovery && code != 6 then s.endCmd 6 [] else run s) else s.startCmd code
  else
    let s := (s.modMgmt fun m => m.putBuf 0 args).startCmd code
    if s.recovery && code != 6 then s.endCmd 6 [] else run s

/-- A byte of the attestation key's certificate, in the part of the flash that no bank takes, R443. -/
def State.certByte (s : State) (i : Nat) : Byte := (s.mgmt.flash.find i).getD (Config.attestCert i)

/-- QUOTE, R443. -/
def State.runQuote (s : State) : State :=
  if 2 ^ 20 ≤ s.mgmt.quotes then s.endCmd 5 []
  else
    let body := s.bufBytes 0 32 ++ s.mgmt.meas.flatMap digestBytes ++ fit 16 Config.serial ++ leBytes 8 s.mgmt.boots
      ++ fit 97 (Config.transportKey s.mgmt.boots) ++ List.replicate 7 0 ++ attestKey
    let q := body ++ attestSign s.mgmt.quotes body
    (s.modMgmt fun m => { m with quotes := m.quotes + 1 }).endCmd 0 q

def execQuote (nonce : BitVec 256) (s : State) : Host.Outcome State Fault Refusal :=
  .next (s.command 1 (digestBytes nonce) State.runQuote)

def LogEntry.bytes (e : LogEntry) : List Byte :=
  leBytes 8 e.time ++ leBytes 2 (Config.eventCode e.kind) ++ leBytes 1 e.srcu ++ leBytes 1 e.sev ++ fit 20 (Config.eventData e.kind e.data)

/-- LOGRD: entries from an index, counted from the oldest held. -/
def State.runLogrd (s : State) : State := s.endCmd 0 (((s.mgmt.log.drop (s.bufNat 0 4)).take 127).flatMap LogEntry.bytes)

def execLogrd (start : Nat) (s : State) : Host.Outcome State Fault Refusal := .next (s.command 2 (leBytes 4 start) State.runLogrd)

/-- SENSRD: the readings, then the rail currents as they are measured now. -/
def State.runSensrd (s : State) : State :=
  let s := s.modMgmt fun m => { m with rails := m.rails.zipIdx.map fun x =>
    if x.1.good then { x.1 with amps := s.choose [17, x.2] % 2 ^ 32 } else x.1 }
  s.endCmd 0 (((List.range 96).flatMap fun i => leBytes 2 (wrap 16 (s.mgmt.temps.get 0 i))) ++ s.mgmt.rails.flatMap fun r => leBytes 4 r.amps)

def execSensrd (s : State) : Host.Outcome State Fault Refusal := .next (s.command 3 [] State.runSensrd)

/-- Key id k holds a key: under the generation that the key has had before, or a new one. -/
def State.setKey (s : State) (k : Nat) (key : List Byte) : State :=
  match s.mem.loaded.find? (·.1 == key) with
  | some x => s.putKey k (some x.2)
  | none =>
    let m := s.mem
    ({ s with mem := { m with nextGen := m.nextGen + 1, loaded := m.loaded ++ [(key, m.nextGen)] } } : State).putKey k (some m.nextGen)

/-- KEYLOAD. A key that does not unwrap is BADARG (log 12). Data is read under the key that it was written under, whichever
KEYLOAD brought it (R177). -/
def State.runKeyload (s : State) : State :=
  let k := s.bufNat 0 2
  if 4096 ≤ k then s.endCmd 2 []
  else if k = 0 ∨ !(s.mem.owners.get 0 k).getLsbD 7 then s.endCmd 6 []
  else
    match Config.unwrap (s.bufBytes 2 97) (s.bufBytes 99 72) s.mgmt.boots with
    | none => s.endCmd 2 []
    | some key => (s.setKey k (fit 64 key)).endCmd 0 []

def execKeyload (id : Nat) (pub wrapped : List Byte) (s : State) : Host.Outcome State Fault Refusal :=
  .next (s.command 4 (leBytes 2 id ++ fit 97 pub ++ fit 72 wrapped) State.runKeyload)

def State.runKeyerase (s : State) : State :=
  if 4096 ≤ s.bufNat 0 2 then s.endCmd 2 [] else (s.eraseKey (s.bufNat 0 2)).endCmd 0 []

def execKeyerase (id : Nat) (s : State) : Host.Outcome State Fault Refusal := .next (s.command 5 (leBytes 2 id) State.runKeyerase)

/-- Bytes of the 64 MiB of flash in use: the log's ring, and the bytes written to the banks and beside them (R429, R431). -/
def Mgmt.flashUsed (m : Mgmt) : Nat :=
  65536 * 32 + m.flash.length + (m.targets.map fun x => x.bankA.length + x.bankB.length).sum

/-- The firmware core has been released from reset, R433. -/
def Mgmt.released (m : Mgmt) (n : Nat) : Bool := (nth ⟨false, 0, [], []⟩ m.cores n).released

/-- The target runs the image of a bank. -/
def State.runsImage (s : State) (t : Nat) (b : Bool) : Bool := s.mgmt.released t && (s.target t).usedB == b

/-- IMGWR; in recovery the ROM starts a Genmon image of bank A once it is valid (R433). DESIGN CHOICE: a write that the flash has no room
for ends with BADARG (log 45). -/
def State.runImgwr (s : State) : State :=
  let t := s.bufNat 0 1
  let b := s.bufNat 1 1
  let off := s.bufNat 2 4
  let len := s.bufNat 6 4
  let put (x : Tab Byte) : Tab Byte := ((s.bufBytes 10 len).zipIdx).foldl (fun m y => m.put (off + y.2) y.1) x
  if 8 < t ∨ 1 < b ∨ 4086 < len ∨ 2 ^ 22 < off + len ∨ (s.recovery && (t != 8 || b != 0)) then s.endCmd 2 []
  else if !s.recovery && s.runsImage t (b == 1) then s.endCmd 6 []
  else
    let w := s.modTarget t fun x => if b = 1 then { x with bankB := put x.bankB } else { x with bankA := put x.bankA }
    if 2 ^ 26 < w.mgmt.flashUsed then s.endCmd 2 []
    else
    let s := w.endCmd 0 []
    if s.recovery && s.verify 8 false = .good then (s.modMgmt fun m => { m with error := 0 }).bootGenmon false else s

def execImgwr (target : Nat) (bankB : Bool) (off : Nat) (data : List Byte) (s : State) : Host.Outcome State Fault Refusal :=
  .next (s.command 6 (leBytes 1 target ++ leBytes 1 bankB.toNat ++ leBytes 4 off ++ leBytes 4 data.length ++ data) State.runImgwr)

def State.runImgcommit (s : State) : State :=
  let t := s.bufNat 0 1
  let b := s.bufNat 1 1
  if 8 < t ∨ 1 < b then s.endCmd 2 []
  else if (s.target t).trial then s.endCmd 6 []
  else
    match s.verify t (b == 1) with
    | .badSig => s.endCmd 3 []
    | .rollback => s.endCmd 4 []
    | .good => (s.modTarget t fun x => { x with prevB := x.preferB, preferB := b == 1, trial := true, tried := false }).endCmd 0 []

def execImgcommit (target : Nat) (bankB : Bool) (s : State) : Host.Outcome State Fault Refusal :=
  .next (s.command 7 (leBytes 1 target ++ leBytes 1 bankB.toNat) State.runImgcommit)

/-- The 60 s that follow READY of a trial boot. -/
def State.trialOpen (s : State) : Bool := s.mgmt.trialBoot && s.mgmt.stage == 9 && decide (s.mgmt.now < s.mgmt.readyAt + 60000000000)

/-- CONFIRM raises each trial target's floor, at most 64 times, and ends the trials. -/
def State.runConfirm (s : State) : State :=
  if !s.trialOpen then s.endCmd 6 []
  else
    let go (s : State) (t : Nat) : State :=
      let x := s.target t
      let svn := s.flashField t x.preferB 8 4
      if !x.trial then s
      else if s.floorOf t < svn ∧ x.raises < 64 then
        s.modTarget t fun x => { x with trial := false, tried := false, floor := svn, raises := x.raises + 1 }
      else s.modTarget t fun x => { x with trial := false, tried := false }
    ((List.range 9).foldl go s).endCmd 0 []

def execConfirm (s : State) : Host.Outcome State Fault Refusal := .next (s.command 8 [] State.runConfirm)

def State.runExtend (s : State) : State :=
  let i := s.bufNat 0 1
  if i < 8 ∨ 15 < i then s.endCmd 2 [] else (s.extendBy i (BitVec.ofNat 256 (s.bufNat 1 32))).endCmd 0 []

def execExtend (reg : Nat) (d : BitVec 256) (s : State) : Host.Outcome State Fault Refusal :=
  .next (s.command 9 (leBytes 1 reg ++ digestBytes d) State.runExtend)

/-- TRIAL_CONFIRM_TIMEOUT. -/
def execTrialConfirmTimeout (s : State) : Host.Outcome State Fault Refusal :=
  if s.mgmt.trialBoot && s.mgmt.stage == 9 && decide (s.mgmt.readyAt + 60000000000 ≤ s.mgmt.now) then
    .next (s.modMgmt fun m => { m with targets := m.targets.map Target.revert })
  else .next s

/-- GMCMD: a code that names no command ends at once with BADARG. -/
def State.gmcmd (s : State) (code : Nat) : State :=
  if s.mgmt.off then s
  else if s.mgmt.busy then s.startCmd code
  else if code = 0 ∨ 9 < code then (s.startCmd code).endCmd 2 [] else s.startCmd code

/-- The value that a read at an offset of BAR2 returns, R432. -/
def State.genmonRead (s : State) (off : Nat) : W64 :=
  let m := s.mgmt
  let banks := (List.range 9).foldl (fun n t => if (s.target t).usedB then n + 2 ^ (8 + t) else n) 0
  if 0x1000 ≤ off ∧ off < 0x2000 then BitVec.ofNat 64 (s.bufNat (off - 0x1000) 8)
  else
    match off with
    | 0x00 => BitVec.ofNat 64 (0x4E4D4757 + 2 ^ 32 * (if s.recovery then 0 else 0xB1))
    | 0x08 => if s.recovery then 0 else BitVec.ofNat 64 (s.flashField 8 (s.target 8).usedB 8 4)
    | 0x18 => BitVec.ofNat 64 (m.busy.toNat + 2 * m.ignored.toNat + 2 ^ 8 * m.status)
    | 0x20 => BitVec.ofNat 64 (m.stage + 2 ^ 4 * m.error + banks + 2 ^ 17 * m.trialBoot.toNat)
    | 0x38 => BitVec.ofNat 64 Config.pceil
    | 0x40 => BitVec.ofNat 64 (m.pcap + 2 ^ 16 * m.gpwr)
    | 0x48 => BitVec.ofNat 64 m.cfgcnt
    | _ => 0

/-! ## The guest's admission, R402, R436, R439 -/

/-- GUEST_LINK_UP: the guest answers Genmon's nonce. The link of an open port was down. A fenced port opens to a guest that
Genmon has reset since the fence (R401). -/
def execGuestLinkUp (key : List Byte) (fw : BitVec 256) (sig : List Byte) (s : State) : Host.Outcome State Fault Refusal :=
  if s.mgmt.stage < 7 ∨ s.mgmt.off ∨ !(s.rail 10).good ∨ !s.mgmt.ucie.all (·.result == 1) then .next s
  else
    let s := s.fence 7
    let nonce := BitVec.ofNat 256 (s.choose [20])
    let msg := digestBytes (sha256 (digestBytes fw ++ digestBytes nonce))
    let s : State := { s with guest := { s.guest with present := true } }
    let s := s.modMgmt fun m => { m with guestDone := true }
    if s.guest.ready ∧ key.length = 56 ∧ s.mgmt.guestKeys.contains (sha256 key) ∧ lmsVerify key msg sig then
      let s := s.extendBy 4 (sha256 (key ++ digestBytes fw))
      .next { s with guest := { s.guest with fenced := false } }
    else .next s

/-- GUEST_KEY_LIST_CHANGE: MEAS3 is extended with the digest of the list. -/
def execGuestKeyListChange (keys : List (BitVec 256)) (s : State) : Host.Outcome State Fault Refusal :=
  if 16 < keys.length then .next s
  else .next ((s.modMgmt fun m => { m with guestKeys := keys }).extendBy 3 (sha256 (keys.flatMap digestBytes)))

/-! ## Memory: invalidation and the host -/

/-- INVALIDATION, R178: fw2's table writes, and the invalidation sent to the guest for the shadow entries of the context that
they make stale, which owes an acknowledgement within 2 µs (R396). -/
def execInvalidation (asid : Nat) (writes : List (Nat × W64)) (s : State) : Host.Outcome State Fault Refusal :=
  let s := s.tableWrites writes
  if s.guest.present && !s.guest.fenced then
    let ends := s.guest.shadows.filter fun e => e.asid == asid && s.stale e && !s.guest.invals.any (·.ends.contains e)
    .next { s with guest := { s.guest with invals := s.guest.invals ++ [⟨s.clock.time + 2000, asid, ends⟩] } }
  else .next s

/-- HOST_COHERENT_ACCESS: an ordinary access of the host, once its link is up (R440), each line's bytes one piece. A read changes
nothing. The host names no page, so it reads and writes as a plain page does, one whose mappings have ENC set among them (log 16). -/
def execHostCoherentAccess (pa : Nat) (write : Option (List Byte)) (s : State) : Host.Outcome State Fault Refusal :=
  match write with
  | none => .next s
  | some bs =>
    let n := bs.length
    if !s.mgmt.phy ∨ (physKind pa ≠ .hbm ∧ physKind pa ≠ .host) ∨ physKind (pa + (n - 1)) ≠ physKind pa then .next s
    else
      .next (s.outerStore 0 pa bs).watchAll

/-! ## Other registers, R2, R341, R404, R419, R432, R434 -/

/-- The state that a step of the part leads to. -/
def after (s : State) : Host.Outcome State Fault Refusal → State
  | .next t => t
  | _ => s

/-- CTL: its bits act in ascending order. -/
def State.fabCtl (s : State) (x : Nat) : State :=
  let s := if x.testBit 0 then after s (execCalStage s) else s
  let s := if x.testBit 1 then after s (execCalQuiesce s) else s
  let s := if x.testBit 2 then after s (execCalDark s) else s
  if x.testBit 3 then after s (execCalRelock s) else s

/-- RCTL, R434: a 1 in bit 2 clears the fault; power good is read only; bit 0 enables the rail in its turn, under RSET as it stands.
DEDUCED: a 0 there disables an enabled rail, and as power-down runs in reverse order, those after it first: of the guest's
rail, the last, only it; of another but STBY, which is always on, every one (log 56). -/
def State.railCtl (s : State) (n : Fin 11) (x : Nat) : State :=
  let s := if x.testBit 2 then after s (execRailFaultClear n s) else s
  if x.testBit 0 then (if (s.rail n).enable then s else after s (execRailEnable n (s.rail n).set s))
  else if !(s.rail n).enable ∨ n.val = 0 then s
  else if n.val = 10 then s.modRail n fun r => { r with enable := false, good := false, volts := 0, amps := 0 }
  else s.powerDown

/-- The ASID of a feed queue whose partition has no context, and that of its partition's context. -/
def State.queueAsid (s : State) (q : FeedQ) : FeedQ :=
  if (s.ctx? q.asid).any (·.part == q.part) then q else { q with asid := s.partAsid q.part }

/-- A feed queue before fw7 configures it; partition 32, which is none, until CFG names one. -/
def FeedQ.blank (q p : Nat) : FeedQ where
  num := q; part := p; enabled := false; l := 0; base := 0; asid := noAsid; head := 0; claim := 0; tail := 0; rsv := 0
  qovf := false; sleepers := []; orphans := []; consumed := []

/-- CFG of a feed queue, R307, as fw7 writes it. -/
def State.setFqCfg (s : State) (q x : Nat) : State :=
  let p := bits x 12 8
  let f (y : FeedQ) : FeedQ := { y with part := p, l := x % 32, enabled := x.testBit 63, asid := s.partAsid p }
  let old := (s.feedq? q).getD (FeedQ.blank q p)
  { s with front := { s.front with feedqs := s.front.feedqs.filter (·.num != q) ++ [f old] } }

/-- QBASE of a feed queue, which fw7 may write before CFG. -/
def State.setFqBase (s : State) (q x : Nat) : State :=
  let old := (s.feedq? q).getD (FeedQ.blank q 32)
  { s with front := { s.front with feedqs := s.front.feedqs.filter (·.num != q) ++ [{ old with base := x }] } }

/-- fw2 changes the contexts; each feed queue stays in one of its own partition, or is in none (log 15). -/
def State.setCtxs (s : State) (cs : List Ctx) : State :=
  let s : State := { s with mem := { s.mem with ctxs := cs } }
  { s with front := { s.front with feedqs := s.front.feedqs.map s.queueAsid } }

/-- REGISTER_WRITE: a write that sets a Reserved bit, or to a read-only register, has no effect (R2). DESIGN CHOICE: NCAL and NMASK
written after an accepted STAGE leave it standing, and take effect unchecked (log 55). -/
def execRegisterWrite (r : PartReg) (x : W64) (s : State) : Host.Outcome State Fault Refusal :=
  let n := x.toNat
  match r with
  | .fabSelf => if 64 ≤ n ∨ s.fab.state ≠ .alone then .next s else .next { s with fab := { s.fab with self := n } }
  | .fabCtl => if 16 ≤ n then .next s else .next (s.fabCtl n)
  | .nmask => .next { s with fab := { s.fab with nmask := x } }
  | .nepoch =>
    if n < s.fab.epoch ∨ (n - s.fab.epoch) % 520 ≠ 0 then .next s else .next { s with fab := { s.fab with nepoch := n } }
  | .foxt => .next { s with fab := { s.fab with foxt := n } }
  | .ncal slot port =>
    if 8 ≤ slot ∨ 8 ≤ port ∨ 2 ^ 16 ≤ n ∨ bits n 11 6 ≠ 0 then .next s
    else .next { s with fab := { s.fab with ncal := modNth (fun _ => n) s.fab.ncal (8 * slot + port) } }
  | .qcq q => if n % 4096 ≠ 0 ∨ physKind n ≠ .hbm then .next s else .next (s.modGq q fun g => { g with cq := n })
  | .qsq q => if n % 4096 ≠ 0 ∨ physKind n ≠ .hbm then .next s else .next (s.modGq q fun g => { g with sq := n })
  | .gctl => if 2 ≤ n then .next s else if n = 1 then execGctlDoorbellTest s else .next s
  | .slotsh p => if 2 ^ 16 ≤ n then .next s else .next (s.modPart p fun y => { y with slotsh := n })
  | .gmcmd => if 256 ≤ n then .next s else .next (s.gmcmd n)
  | .gmbuf off => if off % 8 ≠ 0 ∨ 4096 ≤ off then .next s else .next (s.modMgmt fun m => m.putBuf off (leBytes 8 n))
  | .rset k => if 2 ^ 32 ≤ n then .next s else .next (s.modRail k fun y => { y with set := x })
  | .rctl k => if 8 ≤ n then .next s else .next (s.railCtl k n)
  | .denOwner d =>
    if 2048 ≤ d ∨ 32 ≤ n ∨ (s.den? d).any (·.opened) then .next s
    else .next { s with front := { s.front with dens := s.front.dens.filter (·.num != d) ++ [Den.blank d n] } }
  | .fqCfg q =>
    if 256 ≤ q ∨ bits n 62 13 ≠ 0 ∨ bits n 7 5 ≠ 0 ∨ n % 32 < 4 ∨ 16 < n % 32 then .next s else .next (s.setFqCfg q n)
  | .fqBase q => if 256 ≤ q ∨ n % 4096 ≠ 0 then .next s else .next (s.setFqBase q n)
  | .context asid root part key replay =>
    let rest := s.mem.ctxs.filter (·.asid != asid)
    if 4096 ≤ asid ∨ 32 ≤ part ∨ 4096 ≤ key ∨ root % 2 ^ 18 ≠ 0 ∨ physKind root ≠ .hbm ∨ 2 ≤ n then .next s
    else .next (s.setCtxs (if n = 1 then rest ++ [⟨asid, root, part, key, replay⟩] else rest))
  | .readOnly => .next s

end Sys2Proof.Machine
end

