-- ==== Sys2Proof/Machine/Replay.lean ====
section
/-! DEFINITION. REPLAY_RESOLVED: fw2 answers an entry of a fault buffer (spec/08 R188, spec/10 R231, spec/12 R269, spec/15 R349, R352, spec/16 R390, spec/17 R395). -/
namespace Sys2Proof.Machine

/-- A parked instruction: it issues again, with its checks, or its fault is raised precisely. -/
def State.replayInstr (s : State) (i : Issuer) (p : Parked) (mapped : Bool) : State :=
  let s := s.unpark i
  if mapped then s
  else
    match View.of s i with
    | some v => s.raise v {} { code := .xlate, val := some p.va, tid := p.tid }
    | none => s

/-- A stalled engine command: it goes on, or its fault is reported. -/
def State.replayCmd (s : State) (n : Nat) (p : Parked) (mapped : Bool) : State :=
  let f : FaultInfo := { code := .xlate, val := some p.va, src := .engine }
  if mapped then s
  else
    match s.eng.copies.find? (·.num == n), s.eng.mats.find? (·.num == n) with
    | some c, _ => s.failCopy c f
    | none, some c => match s.team? c.iss.team with | some t => s.failMat t c f | none => s
    | none, none => s

/-- A held fabric request: it is sent in its turn, or ends with the fault reported (R352). -/
def State.replayReq (s : State) (n : Nat) (p : Parked) (mapped : Bool) : State :=
  if mapped then s
  else
    match s.fab.reqs.find? (·.num == n) with
    | some q =>
      let s := match q.iss with
        | some i => s.engineFault i .xlate p.va (q.statusWord 0)
        | none => s
      s.dropReqs (·.num == n)
    | none => s

/-- A stalled snapshot: it goes on, or fails with its collective. -/
def State.replaySnap (s : State) (part cid k : Nat) (p : Parked) (mapped : Bool) : State :=
  if mapped then s
  else
    match s.coll? part cid with
    | some c =>
      match c.snaps.find? (·.k == k) with
      | some x => s.snapFails c x { code := .xlate, val := some p.va, src := .engine }
      | none => s
    | none => s

/-- The guest's held translation request: walked again, or answered FAULT. -/
def State.replayGuest (s : State) (ctx : BitVec 32) (need : Right) (p : Parked) (mapped : Bool) : State :=
  let q : GuestReq := ⟨ctx, p.va, need.r, need.w, need.x⟩
  if s.guest.fenced then s
  else if mapped then s.guestWalk q
  else s.faultGuest q .xlate

/-- REPLAY_RESOLVED: entry n is resolved, by mapping the page with these table writes or by declaring it unmapped. -/
def execReplayResolved (n : Nat) (writes : List (Nat × W64)) (mapped : Bool) (s : State) : Host.Outcome State Fault Refusal :=
  match s.mem.parked.find? (·.num == n) with
  | none => .next s
  | some p =>
    let s : State := { s with mem := { s.mem with parked := s.mem.parked.filter (·.num != n) } }
    let s := if mapped then s.tableWrites writes else s
    let s := match p.who with
      | .instr i => s.replayInstr i p mapped
      | .cmd c => s.replayCmd c p mapped
      | .req r => s.replayReq r p mapped
      | .snap part cid k => s.replaySnap part cid k p mapped
      | .landing => s.resumeStalled n mapped
      | .guest ctx r w x => s.replayGuest ctx ⟨r, w, x⟩ p mapped
    .next s.settleTeams

end Sys2Proof.Machine
end

