-- ==== Sys2Proof/Machine/Clend.lean ====
section
/-! DEFINITION. CLEND: the registers it puts in flight, and what the clause's terminal instruction does to control, to suspension and to the ending of threads (spec/02 R29, R32 to R34, spec/04, spec/18 R416). -/
namespace Sys2Proof.Machine

/-! ## Starting a wait -/

/-- Line monitors in use in a cluster, R218. -/
def State.monitors (s : State) (cluster : Nat) : List Nat :=
  (s.teamList.flatMap fun t =>
    if clusterOf t.ref.core = cluster then
      (t.waitsOf fun k => match k with | .monitor _ _ armed _ _ _ => armed | _ => false).filterMap fun x =>
        match x.2.2.kind with | .monitor _ l _ _ _ _ => some l | _ => none
    else []).eraseDups

/-- One cluster's monitor serves the line: it already does, or one of 64 is free. -/
def State.canArm (s : State) (cluster line : Nat) : Bool :=
  (s.monitors cluster).contains line || decide ((s.monitors cluster).length < 64)

/-- The result of a wait that is met when it starts; its threads go on at h. -/
def Team.met (t : Team) (now h n : Nat) (dst : Spec) (x : Nat) (tids : List Nat) : Team :=
  (t.applyWrites n (regWrite false 0 x dst)).arrive now h tids

/-- QPOP after CLEND, R312, R313: the lowest orphan, the next index, an empty queue's answer, or sleep. -/
def State.startPop (s : State) (r : TeamRef) (h n id : Nat) (dst : Spec) (q off : Nat) (once : Bool) (tids : List Nat) : State :=
  let now := s.sched.steps
  let wait (s : State) (c : Option Nat) : State := s.modTeam r fun t => t.startWait h n id (.pop dst q off once c) tids none
  match s.feedq? q with
  | none => wait s none
  | some fq =>
    match fq.takeIndex with
    | some (i, fq') => wait (s.modFeedq q fun _ => fq') (some i)
    | none =>
      if once then s.modTeam r fun t => t.met now h n dst (2 ^ 64 - 1) tids
      else if (s.team? r).any (·.cancel != 0) then s.modTeam r fun t => t.met now h n dst (2 ^ 64 - 2) tids
      else (wait s none).modFeedq q fun fq => { fq with sleepers := fq.sleepers ++ [(⟨r, n⟩, id)] }

/-- The context that a trap of a CPROM saves: its position, LEN - 1, and its active threads (R28, R241). -/
def View.promiseRec (v : View) (tids : List Nat) : TrapRec :=
  ⟨{ v.cl with pos := v.cl.pos - 1, issue := tids, term := none, idle := false },
   (v.present.filter fun th => tids.contains th.tid).map fun th => (th.tid, th.c), Code.promiseMiss.num⟩

/-- A terminal instruction that waits, after CLEND, for the threads `tids`. -/
def View.startWait (v : View) (s : State) (k : WaitKind) (tids : List Nat) : State :=
  let now := s.sched.steps
  let h := v.following
  let n := v.iss.recno
  let r := v.iss.team
  match k with
  | .claim _ => s.modTeam r fun t =>
      let t := t.startWait h n now k tids none
      ({ t with grants := t.grants ++ [(n, now)] } : Team).grant now
  | .monitor .. => s
  | .chunks trk m => s.modTeam r fun t =>
      if (t.tracker trk).covers m then (t.observeChunks n trk m).arrive now h tids else t.startWait h n now k tids none
  | .promise trk m _ =>
      (s.modTeam r fun t => t.startWait h n now (.promise trk m (t.tracker trk).promise) tids (some (v.promiseRec tids))).promiseTest r n now
  | .pop dst q off once _ => s.startPop r h n now dst q off once tids
  | .fab dst arr region count limit _ =>
      if s.fabMet arr region count then s.modTeam r fun t => t.met now h n dst 0 tids
      else s.modTeam r fun t => t.startWait h n now (.fab dst arr region count limit s.clock.time) tids none
  | .guest dst q target limit _ =>
      if seqReached (s.gq q).cmp target then s.modTeam r fun t => t.met now h n dst 0 tids
      else s.modTeam r fun t => t.startWait h n now (.guest dst q target limit s.clock.time) tids none

/-- WAITA's check read at the arming point, R217. -/
def View.startMonitor (v : View) (s : State) (dst : Spec) (pa gen n expect limit : Nat) (tids : List Nat) : State :=
  let now := s.sched.steps
  let h := v.following
  let line := pa / 128
  if s.poisoned pa then s.consume v.team.asid pa (v.consumer {} tids.head?)
  else if leNat (s.physRead v.team.writer gen pa n) ≠ expect then
    s.modTeam v.iss.team fun t => t.met now h v.iss.recno dst 0 tids
  else
    let k : WaitKind := .monitor dst line (s.canArm (clusterOf v.iss.team.core) line) (physKind pa == .hbm) limit s.clock.time
    s.modTeam v.iss.team fun t => t.startWait h v.iss.recno now k tids none

/-! ## Terminal instructions -/

/-- RESUME's return to the trapping clause, R416. -/
def View.return (v : View) (s : State) (skip : Bool) : State :=
  match v.grp.trap with
  | none => s
  | some r =>
    let p := r.clause.pos
    let q := if skip ∨ r.code = Code.trap.num ∨ r.code = Code.bkpt.num then p + 1 else p
    s.modTeam v.iss.team fun t =>
      let t := t.modGrp v.iss.recno fun g =>
        { g with trap := none, clause := some { r.clause with pos := q, term := none, resumed := true } }
      t.modThreads (fun th => r.clause.issue.contains th.tid) fun th =>
        { th with pc := r.clause.head, c := ((r.temps.find? (·.1 == th.tid)).map (·.2)).getD [] }

/-- Threads end, R94; an exit may complete barrier phases (R96). -/
def Team.endThreads (t : Team) (now h : Nat) (tids : List Nat) : Team :=
  let t := t.modThreads (fun th => tids.contains th.tid) fun th => { th with run := .exited, endH := h }
  (List.range t.bars.length).foldl (fun t b => t.barSettle now b) t

/-- The present threads that are not among `tids`. -/
def Clause.others (c : Clause) (tids : List Nat) : List Nat := c.issue.filter fun x => !tids.contains x

/-- What the clause's terminal instruction does after CLEND; every other present thread goes on at the following header. -/
def View.terminal (v : View) (s : State) : State :=
  let now := s.sched.steps
  let h := v.following
  let r := v.iss.team
  let rest (s : State) (tids : List Nat) : State := s.modTeam r fun t => t.arrive now h (v.cl.others tids)
  let yields (s : State) (tids : List Nat) : State :=
    if tids.isEmpty then rest s []
    else
      let s := s.modTeam r fun t =>
        (t.modThreads (fun th => (v.cl.others tids).contains th.tid) fun th => { t.arrive1 now h th with age := th.age }).arrive now h tids
      s.modGrp v.iss fun g => { g with youngest := true }
  match v.cl.term with
  | none => rest s []
  | some (.go ts) =>
    (rest s (ts.map (·.1))).modTeam r fun t => ts.foldl (fun t x => t.arrive now x.2 [x.1]) t
  | some (.exit tids) => (rest s tids).modTeam r fun t => t.endThreads now v.grp.h tids
  | some (.bar b tids) =>
    let wait := tids.filter (v.team.barPending b)
    (rest s wait).modTeam r fun t => t.suspend h (.bar b) wait
  | some (.regrp keys) =>
    let tids := keys.map (·.1)
    let s := (rest s tids).modTeam r fun t =>
      (t.suspend h (.regrp h) tids).modThreads (fun th => tids.contains th.tid) fun th =>
        { th with key := ((keys.find? (·.1 == th.tid)).map (·.2)).getD 0, keyed := true }
    if tids.isEmpty then s else s.modGrp v.iss fun g =>
      if g.marks.any (·.head == h) then g else { g with marks := g.marks ++ [⟨h, s.clock.time⟩] }
  | some (.sleep wake tids) =>
    if wake ≤ s.clock.time then yields s tids else (rest s tids).modTeam r fun t => t.suspend h (.sleep wake) tids
  | some (.yield tids) => yields s tids
  | some (.wait k tids) => if tids.isEmpty then rest s [] else v.startWait (rest s tids) k tids
  | some (.waita dst pa gen m e limit tids) =>
    if tids.isEmpty then rest s [] else v.startMonitor (rest s tids) dst pa gen m e limit tids
  | some (.resume skip) => v.return s skip

/-! ## CLEND -/

/-- The flag to which an entry is bound. -/
def ClendEntry.flag (e : ClendEntry) (h : Header) : Option (Fin 12) := if e.bind then h.setb else h.seta

/-- Entries that no instruction of the clause writes under their flag go in flight until it reads clear; the others flew
when their writer issued (R34). -/
def Grp.flyEntries (g : Grp) (c : Clause) (es : List ClendEntry) : Grp :=
  let add (fl : List (Spec × Fin 12)) (e : ClendEntry) : List (Spec × Fin 12) :=
    match ClendEntry.flag e c.hdr with
    | some f =>
      if g.flag f = 0 then fl
      else fl ++ ((entryRegs e).filter fun r => !fl.contains (r, f) && !c.writers.contains (r, f.val)).map fun r => (r, f)
    | none => fl
  { g with flight := es.foldl add g.flight }

/-- What the entries put in flight: a PROMISE_MISS that returns to the clause's CPROM keeps it, so that the clause's own CLEND
may issue again (R34, R241). -/
def Grp.flown (g : Grp) (c : Clause) (es : List ClendEntry) : List (Spec × Nat) :=
  c.flown ++ (((g.flyEntries c es).flight.filter fun x => !g.flight.contains x).map fun x => (x.1, x.2.val))

/-- The clause ends: entries, the terminal instruction, then whatever the threads' new states release. -/
def View.endClause (v : View) (es : List ClendEntry) : State :=
  let now := v.s.sched.steps
  let v : View := { v with cl := { v.cl with flown := v.grp.flown v.cl es } }
  let s := v.s.modGrp v.iss fun g =>
    { g.flyEntries v.cl es with clause := none, youngest := v.cl.hdr.yld, endedAt := now, waited := [] }
  ((v.terminal s).modTeam v.iss.team fun t => if t.ending.isSome then t else t.settle now).settleGangs v.iss.team

/-- CLEND. -/
def execClend (es : List ClendEntry) (s : State) : Host.Outcome State Fault Refusal :=
  match s.view? with
  | none => .fault .noIssuer
  | some v =>
    .next (match v.run (.clend es) {} fun v => .done (v.endClause es) with
      | .done s => s
      | r => v.finish (.clend es) {} r)

end Sys2Proof.Machine
end

