-- ==== Sys2Proof/Machine/Regs.lean ====
section
/-! DEFINITION. Class 0x1: moves, selection, predicate logic, register blocks and launch values (spec/05 R117 to R125). -/
namespace Sys2Proof.Machine

def execMov (o : Opnds) (s : State) : Host.Outcome State Fault Refusal :=
  issue (.mov o) o s fun v => v.writes (v.dst o o.ty.wide fun th => v.read o o.ty th o.sa)

/-- Bits hi .. lo of x replaced by y. -/
def putBits (x hi lo y : Nat) : Nat :=
  let m := 2 ^ (hi + 1 - lo)
  x - (x / 2 ^ lo % m) * 2 ^ lo + (y % m) * 2 ^ lo

/-- R118. -/
def moviValue (ty : Ty) (m : MoviMode) (imm : BitVec 24) (old : Nat) : Nat :=
  match m with
  | .lo => if ty == .s32 ∨ ty == .s64 then wrap ty.width imm.toInt else imm.toNat
  | .mid => putBits old 47 24 imm.toNat
  | .top => if ty.width = 64 then putBits old 63 48 imm.toNat else putBits old 31 24 imm.toNat

/-- The destination as MODE 1 and 2 read it: an s register whole, so that its other bits stay. -/
def View.oldDst (v : View) (o : Opnds) (th : Option Thread) : Nat :=
  match o.dst with
  | .s n => v.s64 n.val
  | sp => v.read o o.ty th sp

def execMovi (o : Opnds) (m : MoviMode) (s : State) : Host.Outcome State Fault Refusal :=
  issue (.movi o m) o s fun v => v.writes (v.dst o o.ty.wide fun th => moviValue o.ty m o.imm (v.oldDst o th))

def execSel (o : Opnds) (s : State) : Host.Outcome State Fault Refusal :=
  issue (.sel o) o s fun v => v.writes (v.dst o o.ty.wide fun th =>
    if v.read o .u32 th o.sc != 0 then v.read o o.ty th o.sa else v.read o o.ty th o.sb)

/-- The value RDL reads, R120: none when nothing is written. -/
def View.rdl (v : View) (o : Opnds) (m : RdlMode) : Option Nat :=
  let j := match m with
    | .idx => some (v.scalar o .u32 o.sb)
    | .first => ((v.active o).head?).map fun (th : Thread) => th.tid
  j.map fun j => if v.team.hdr.threads ≤ j then 0 else (v.crossRead o j).getD 0

def execRdl (o : Opnds) (m : RdlMode) (s : State) : Host.Outcome State Fault Refusal :=
  issue (.rdl o m) o s fun v =>
    match v.rdl o m with
    | some x => v.writes (v.dst o o.ty.wide fun _ => x)
    | none => .done v.s

/-- R122. -/
def execRgive (o : Opnds) (n : Fin 4) (s : State) : Host.Outcome State Fault Refusal :=
  issue (.rgive o n) o s fun v => v.once o <|
    let h := v.grp.h
    if h < n.val then .fault { code := .regBound }
    else if n.val ≠ 0 ∧ v.grp.flight.any (fun x => match x.1 with
        | .v k => decide (32 * (h - n.val) + 32 ≤ k.val ∧ k.val ≤ 32 * h + 31) | _ => false) then .fault { code := .flagMiss }
    else if n.val = 0 then .done v.s
    else .done (v.s.modTeam v.iss.team fun t => t.giveBlocks v.s.sched.steps v.iss.recno n.val)

/-- R123. -/
def execRclaim (o : Opnds) (n : Fin 4) (s : State) : Host.Outcome State Fault Refusal :=
  issue (.rclaim o n) o s fun v => v.once o <|
    if 3 < v.grp.h + n.val ∨ v.team.hdr.xpool < n.val then .fault { code := .regBound }
    else if n.val = 0 then .done v.s
    else .done (v.capture v.s (.wait (.claim n.val) (v.present.map (·.tid))))

/-- R124. A count that its byte does not hold is taken mod 256 (log 54). -/
def rstatValue (t : Team) (g : Grp) : Nat :=
  g.h % 4 + 2 ^ 8 * (t.pool % 256) + 2 ^ 16 * (t.hdr.xpool % 256) + 2 ^ 24 * (t.grants.length % 256)

def execRstat (o : Opnds) (s : State) : Host.Outcome State Fault Refusal :=
  issue (.rstat o) o s fun v => v.writes (v.dst o false fun _ => rstatValue v.team v.grp)

/-- R121. -/
def ksetValue (p : KsetOp) (a b : Bool) : Bool :=
  match p with
  | .and => a && b
  | .or => a || b
  | .xor => a != b
  | .andn => a && !b
  | .orn => a || !b
  | .nand => !(a && b)
  | .nor => !(a || b)
  | .xnor => a == b
  | .nz => a

def execKset (o : Opnds) (p : KsetOp) (s : State) : Host.Outcome State Fault Refusal :=
  issue (.kset o p) o s fun v => v.writes (v.dst o false fun th =>
    (ksetValue p (v.read o o.ty th o.sa != 0) (v.read o .u32 th o.sb != 0)).toNat)

/-- R125. -/
def View.srd (v : View) : SrdItem → Nat
  | .fpcw => v.team.fpcw.toNat
  | .argp => v.team.argp
  | .khdr => v.team.khdr
  | .scr => v.team.hdr.scratch
  | .accs => v.team.hdr.accs
  | .thr => v.team.hdr.threads
  | .slot => v.iss.team.slot
  | .dl => v.team.deadline % 2 ^ 48

def execSrd (o : Opnds) (item : SrdItem) (s : State) : Host.Outcome State Fault Refusal :=
  issue (.srd o item) o s fun v => v.writes (v.dst o o.ty.wide fun _ => v.srd item % 2 ^ o.ty.width)

end Sys2Proof.Machine
end

