-- ==== Sys2Proof/Machine/Special.lean ====
section
/-! DEFINITION. Class 0x4: special functions (spec/07 R165 to R169). SQRT and DIVF are rounded correctly. The other seven are free values held to the bounds of R167: a candidate without a value that a proof can see is taken where it lies within the bound of the function, and otherwise the function rounded to nearest; the special values of R168 are fixed. -/
namespace Sys2Proof.Machine

/-! ## The functions themselves, to about 2^-100

Fixed point with `fxBits` fraction bits. -/

def fxBits : Nat := 140
def fxOne : Int := 2 ^ fxBits
def fxMul (a b : Int) : Int := Int.fdiv (a * b) fxOne

/-- Sum of t(0) + t(1) + .. where each term is `next` of the one before. -/
def fxSeries (next : Nat → Int → Int) : Nat → Nat → Int → Int → Int
  | 0, _, _, acc => acc
  | n + 1, i, t, acc => fxSeries next n (i + 1) (next i t) (acc + t)

/-- 2 atanh(z). -/
def fxAtanh2 (z : Int) : Int :=
  let z2 := fxMul z z
  (List.range 75).foldl (fun (st : Int × Int) i => (st.1 + 2 * Int.fdiv st.2 (2 * i + 1), fxMul st.2 z2)) (0, z) |>.1

/-- atan(1 / n). -/
def fxAtanInv (n : Nat) : Int :=
  (List.range 75).foldl (fun (st : Int × Int) i =>
    (st.1 + (if i % 2 = 0 then st.2 / (2 * i + 1) else -(st.2 / (2 * i + 1))), st.2 / (n * n))) (0, fxOne / n) |>.1

def fxLn2 : Int := fxAtanh2 (fxOne / 3)
def fxPi : Int := 16 * fxAtanInv 5 - 4 * fxAtanInv 239

/-- e^y for |y| at most 1. -/
def fxExp (y : Int) : Int := fxSeries (fun i t => Int.fdiv (fxMul t y) (i + 1)) 45 0 fxOne 0

/-- sin or cos of y for |y| at most 4. -/
def fxSin (y : Int) : Int := fxSeries (fun i t => -(Int.fdiv (fxMul (fxMul t y) y) ((2 * i + 2) * (2 * i + 3)))) 35 0 y 0
def fxCos (y : Int) : Int := fxSeries (fun i t => -(Int.fdiv (fxMul (fxMul t y) y) ((2 * i + 1) * (2 * i + 2)))) 35 0 fxOne 0

/-- A finite value in fixed point, rounded down. -/
def fxOf (neg : Bool) (m : Nat) (e : Int) : Int :=
  let k := e + fxBits
  let x : Int := if 0 ≤ k then (m * 2 ^ k.toNat : Nat) else (m / 2 ^ (-k).toNat : Nat)
  if neg then -x else x

/-- An exact number n * 2^e. -/
structure Dyadic where
  n : Int
  e : Int

def Dyadic.ofFx (x : Int) : Dyadic := ⟨x, -(fxBits : Int)⟩

/-- |a - b| is at most c. No f32 value lies so near a bound of R167 that the error of the functions above could decide, but
where the function itself lies next to an f32 value; there `specialExact` gives a number on the function's side of it. -/
def Dyadic.within (a b c : Dyadic) : Bool :=
  let lo := min a.e (min b.e c.e)
  let at_ (d : Dyadic) : Int := d.n * 2 ^ (d.e - lo).toNat
  decide ((at_ a - at_ b).natAbs ≤ (at_ c).natAbs)

/-- The exact result of a function on a finite operand that R168 does not fix, to about 2^-115 of it. Next to an f32
value it lies on the side on which the function lies, so that its unit in the last place and what lies within a bound of it are
the right ones. -/
def specialExact (f : Nat) (neg : Bool) (m : Nat) (e : Int) : Dyadic :=
  let sg (x : Int) : Int := if neg then -x else x
  match f with
  | 0 => ⟨sg (2 ^ (fxBits + m.log2) / (m : Int)), -(e + fxBits + m.log2)⟩
  | 1 =>
    let k : Nat := 2 * (fxBits + m.log2) + (if e % 2 = 0 then 0 else 1)
    ⟨(isqrt (2 ^ k / m) : Nat), -((e + k) / 2)⟩
  | 3 =>
    if 10 ≤ e + m.log2 then ⟨1, if neg then -2000 else 2000⟩
    else if e + m.log2 < -120 then ⟨2 ^ 130 + sg 1, -130⟩
    else
      let x := fxOf neg m e
      let n := Int.fdiv x fxOne
      ⟨fxExp (fxMul (x - n * fxOne) fxLn2), n - fxBits⟩
  | 4 =>
    let k := e + m.log2
    let y := fxOf false m (-(m.log2 : Int))
    let (y, k) := if 3 * fxOne < 2 * y then (y / 2, k + 1) else (y, k)
    .ofFx (k * fxOne + Int.fdiv (fxAtanh2 (Int.fdiv ((y - fxOne) * fxOne) (y + fxOne)) * fxOne) fxLn2)
  | 5 | 6 =>
    if 2 ^ 15 * fxOne < (fxOf false m (min e 200)) then ⟨0, 0⟩
    else if e + m.log2 < -60 then (if f = 5 then ⟨sg ((m : Int) * 2 ^ 130 - 1), e - 130⟩ else ⟨2 ^ 130 - 1, -130⟩)
    else
      let x := fxOf neg m e
      let turn := 2 * fxPi
      let y := x - Int.fdiv (x + fxPi) turn * turn
      .ofFx (if f = 5 then fxSin y else fxCos y)
  | _ =>
    if e + m.log2 < -60 then ⟨sg ((m : Int) * 2 ^ 130 - 1), e - 130⟩
    else if e + m.log2 < -11 then
      let x2 := fxMul (fxOf false m e) (fxOf false m e)
      let x4 := fxMul x2 x2
      ⟨sg ((m : Int) * (fxOne - Int.fdiv x2 3 + Int.fdiv (2 * x4) 15 - Int.fdiv (17 * fxMul x4 x2) 315
        + Int.fdiv (62 * fxMul x4 x4) 2835)), e - fxBits⟩
    else
      let t0 := fxOf false m e
      let t := fxExp (-(Int.fdiv t0 16))
      let t2 := fxMul t t; let t4 := fxMul t2 t2; let t8 := fxMul t4 t4; let t16 := fxMul t8 t8
      let u := fxMul t16 t16
      .ofFx (sg (Int.fdiv ((fxOne - u) * fxOne) (fxOne + u)))

def Dyadic.toFp (d : Dyadic) : Fp := .fin (decide (d.n < 0)) d.n.natAbs d.e

/-- One unit in the last place of the exact result in f32. -/
def Dyadic.ulp (d : Dyadic) : Int := max (d.e + d.n.natAbs.log2) (-126) - 23

/-- The bound of R167 on the result. DESIGN CHOICE: RCP of ±2^-128, whose exact result 2^128 lies past f32 and so has no unit in the
last place there, has that of its own binade, 2^105, with an infinity standing for 2^128 (log 57). -/
def specialBound (f : Nat) (m : Nat) (e : Int) (x : Dyadic) : Dyadic :=
  match f with
  | 0 => ⟨1, x.ulp⟩
  | 3 => if x.e + x.n.natAbs.log2 < -126 then ⟨2, -149⟩ else ⟨2, x.ulp⟩
  | 4 =>
    let top := e + m.log2
    let isTwo : Bool := top == 1 && m == 2 ^ m.log2
    if top = -1 ∨ top = 0 ∨ isTwo then ⟨1, -22⟩ else ⟨2, x.ulp⟩
  | 5 | 6 => if 2 ^ 15 * fxOne < fxOf false m (min e 200) then ⟨1, 0⟩ else ⟨1, -21⟩
  | _ => ⟨2, x.ulp⟩

/-- The results R168 fixes; none where the function is bounded only. -/
def specialFixed (f : Nat) (a : Fp) : Option Nat :=
  let F := Fmt.f32
  match a with
  | .nan => some F.nan
  | .inf neg =>
    some (match f, neg with
      | 0, n => F.zero n
      | 1, true | 4, true | 5, _ | 6, _ => F.nan
      | 1, false | 3, true => F.zero false
      | 3, false | 4, false => F.inf false
      | _, n => F.pack .rn n 1 0 false)
  | .fin neg m e =>
    if m = 0 then
      some (match f with
        | 0 | 1 => F.inf neg
        | 3 | 6 => F.pack .rn false 1 0 false
        | 4 => F.inf true
        | _ => F.zero neg)
    else
      let top := e + m.log2
      let pow2 := m == 2 ^ m.log2
      match f with
      | 0 => if pow2 && decide (-126 ≤ -top ∧ -top ≤ 127) then some (F.pack .rn neg 1 (-top) false) else none
      | 1 => if neg then some F.nan else if pow2 && top % 2 == 0 then some (F.pack .rn false 1 (-(top / 2)) false) else none
      | 3 =>
        let k : Option Int := if 8 ≤ top then none else if 0 ≤ e then some ((m * 2 ^ e.toNat : Nat) : Int)
          else if m % 2 ^ (-e).toNat = 0 then some ((m / 2 ^ (-e).toNat : Nat) : Int) else none
        if 7 ≤ top && !neg then some (F.inf false)
        else k.bind fun k =>
          let k := if neg then -k else k
          if -149 ≤ k ∧ k ≤ 127 then some (F.pack .rn false 1 k false) else none
      | 4 => if neg then some F.nan else if pow2 then some (intToFloat F .rn top) else none
      | 7 => if 10 * fxOne ≤ fxOf false m (min e 200) then some (F.pack .rn neg 1 0 false) else none
      | _ => none

/-- An f32 result as an exact number; an infinity stands for the value one binade above the largest. -/
def specialValue (x : Nat) : Option Dyadic :=
  match Fmt.f32.decode x with
  | .nan => none
  | .inf n => some ⟨if n then -1 else 1, 128⟩
  | .fin n m e => some ⟨if n then -(m : Int) else m, e⟩

/-- A function evaluated on an exact operand to the f32 bounds: `c` is the candidate. An underflowing EXP2 is not -0 (R168);
of a subnormal within the bound the sign is left open (log 11), but it neither rounds nor is flushed to -0. -/
def specialF32 (f : Nat) (c : Nat) (a : Fp) : Nat :=
  match specialFixed f a, a with
  | some x, _ => x
  | none, .fin neg m e =>
    let x := specialExact f neg m e
    let b := specialBound f m e x
    match specialValue (c % 2 ^ 32) with
    | some y => if y.within x b && !(f == 3 && c % 2 ^ 32 == 0x80000000) then c % 2 ^ 32 else Fmt.f32.round .rn x.toFp
    | none => Fmt.f32.round .rn x.toFp
  | none, _ => Fmt.f32.nan

/-- For f16 and bf16 the f32 result is rounded once more, to nearest, R167. -/
def specialResult (x : Flush) (f : Nat) (word : Nat) (ty : Ty) (a : Nat) : Nat :=
  let F := Fmt.ofTy ty
  let y := specialF32 f (Config.special word x.cw.toNat (x.op F a)) (x.val F a)
  let r := x.res F (if F = .f32 then y else F.round .rn (Fmt.f32.decode y))
  if f = 3 ∧ r = F.zero true then F.zero false else r

/-- The instruction's word as a number. -/
def wordOf (i : Instr) : Nat := ((encode i).map BitVec.toNat).getD 0

/-- The frame of the seven bounded functions. -/
def View.special1 (v : View) (i : Instr) (o : Opnds) (m : ArithMods) (f : Nat) : Issued :=
  v.arith1 o (specialResult (v.flush m) f (wordOf i) o.ty)

def execRcp (o : Opnds) (m : ArithMods) (s : State) : Host.Outcome State Fault Refusal :=
  issue (.rcp o m) o s fun v => v.special1 (.rcp o m) o m 0

def execRsq (o : Opnds) (m : ArithMods) (s : State) : Host.Outcome State Fault Refusal :=
  issue (.rsq o m) o s fun v => v.special1 (.rsq o m) o m 1

/-- R166. -/
def execSqrt (o : Opnds) (m : ArithMods) (s : State) : Host.Outcome State Fault Refusal :=
  issue (.sqrt o m) o s fun v => v.fp o m fun x f a _ _ => f.root m.rnd (x.val f a)

def execExp2 (o : Opnds) (m : ArithMods) (s : State) : Host.Outcome State Fault Refusal :=
  issue (.exp2 o m) o s fun v => v.special1 (.exp2 o m) o m 3

def execLog2 (o : Opnds) (m : ArithMods) (s : State) : Host.Outcome State Fault Refusal :=
  issue (.log2 o m) o s fun v => v.special1 (.log2 o m) o m 4

def execSin (o : Opnds) (m : ArithMods) (s : State) : Host.Outcome State Fault Refusal :=
  issue (.sin o m) o s fun v => v.special1 (.sin o m) o m 5

def execCos (o : Opnds) (m : ArithMods) (s : State) : Host.Outcome State Fault Refusal :=
  issue (.cos o m) o s fun v => v.special1 (.cos o m) o m 6

def execTanh (o : Opnds) (m : ArithMods) (s : State) : Host.Outcome State Fault Refusal :=
  issue (.tanh o m) o s fun v => v.special1 (.tanh o m) o m 7

/-- R166. -/
def execDivf (o : Opnds) (m : ArithMods) (s : State) : Host.Outcome State Fault Refusal :=
  issue (.divf o m) o s fun v => v.fp o m fun x f a b _ => f.divide m.rnd (x.val f a) (x.val f b)

end Sys2Proof.Machine
end

