-- ==== Sys2Proof/Machine/Dispatch.lean ====
section
/-! DEFINITION. One arm per constructor: the meaning of each instruction and step. -/
namespace Sys2Proof.Machine

def exec (i : Instr) (s : State) : Host.Outcome State Fault Refusal :=
  match i with
  | .clauseHeader h => Sys2Proof.Machine.execClauseHeader h s
  | .clend es => Sys2Proof.Machine.execClend es s
  | .regrpWaitTimeout t rec => Sys2Proof.Machine.execRegrpWaitTimeout t rec s
  | .nop o => Sys2Proof.Machine.execNop o s
  | .bra o => Sys2Proof.Machine.execBra o s
  | .brc o m => Sys2Proof.Machine.execBrc o m s
  | .bri o => Sys2Proof.Machine.execBri o s
  | .call o => Sys2Proof.Machine.execCall o s
  | .ret o => Sys2Proof.Machine.execRet o s
  | .meet o m => Sys2Proof.Machine.execMeet o m s
  | .exit o => Sys2Proof.Machine.execExit o s
  | .bar o bid => Sys2Proof.Machine.execBar o bid s
  | .bara o bid => Sys2Proof.Machine.execBara o bid s
  | .barw o bid => Sys2Proof.Machine.execBarw o bid s
  | .vote o m => Sys2Proof.Machine.execVote o m s
  | .ballot o => Sys2Proof.Machine.execBallot o s
  | .shuf o m => Sys2Proof.Machine.execShuf o m s
  | .push o m => Sys2Proof.Machine.execPush o m s
  | .rank o m => Sys2Proof.Machine.execRank o m s
  | .regrp o => Sys2Proof.Machine.execRegrp o s
  | .sleep o m => Sys2Proof.Machine.execSleep o m s
  | .sleepWake t tid => Sys2Proof.Machine.execSleepWake t tid s
  | .yield o => Sys2Proof.Machine.execYield o s
  | .mov o => Sys2Proof.Machine.execMov o s
  | .movi o m => Sys2Proof.Machine.execMovi o m s
  | .sel o => Sys2Proof.Machine.execSel o s
  | .rdl o m => Sys2Proof.Machine.execRdl o m s
  | .rgive o n => Sys2Proof.Machine.execRgive o n s
  | .rclaim o n => Sys2Proof.Machine.execRclaim o n s
  | .rstat o => Sys2Proof.Machine.execRstat o s
  | .kset o op => Sys2Proof.Machine.execKset o op s
  | .srd o item => Sys2Proof.Machine.execSrd o item s
  | .add o m => Sys2Proof.Machine.execAdd o m s
  | .sub o m => Sys2Proof.Machine.execSub o m s
  | .addc o m => Sys2Proof.Machine.execAddc o m s
  | .subb o m => Sys2Proof.Machine.execSubb o m s
  | .mul o m => Sys2Proof.Machine.execMul o m s
  | .mulh o m => Sys2Proof.Machine.execMulh o m s
  | .mad o m => Sys2Proof.Machine.execMad o m s
  | .madw o m => Sys2Proof.Machine.execMadw o m s
  | .min o m => Sys2Proof.Machine.execMin o m s
  | .max o m => Sys2Proof.Machine.execMax o m s
  | .abs o m => Sys2Proof.Machine.execAbs o m s
  | .neg o m => Sys2Proof.Machine.execNeg o m s
  | .and o m => Sys2Proof.Machine.execAnd o m s
  | .or o m => Sys2Proof.Machine.execOr o m s
  | .xor o m => Sys2Proof.Machine.execXor o m s
  | .not o m => Sys2Proof.Machine.execNot o m s
  | .shl o m => Sys2Proof.Machine.execShl o m s
  | .shr o m => Sys2Proof.Machine.execShr o m s
  | .sar o m => Sys2Proof.Machine.execSar o m s
  | .rotl o m => Sys2Proof.Machine.execRotl o m s
  | .bfx o m => Sys2Proof.Machine.execBfx o m s
  | .bfi o m => Sys2Proof.Machine.execBfi o m s
  | .popc o m => Sys2Proof.Machine.execPopc o m s
  | .clz o m => Sys2Proof.Machine.execClz o m s
  | .brev o m => Sys2Proof.Machine.execBrev o m s
  | .cmp o m => Sys2Proof.Machine.execCmp o m s
  | .lea o m => Sys2Proof.Machine.execLea o m s
  | .dot4 o m => Sys2Proof.Machine.execDot4 o m s
  | .div o m => Sys2Proof.Machine.execDiv o m s
  | .rem o m => Sys2Proof.Machine.execRem o m s
  | .prmb o m => Sys2Proof.Machine.execPrmb o m s
  | .fadd o m => Sys2Proof.Machine.execFadd o m s
  | .fsub o m => Sys2Proof.Machine.execFsub o m s
  | .fmul o m => Sys2Proof.Machine.execFmul o m s
  | .ffma o m => Sys2Proof.Machine.execFfma o m s
  | .fmin o m => Sys2Proof.Machine.execFmin o m s
  | .fmax o m => Sys2Proof.Machine.execFmax o m s
  | .fcmp o m => Sys2Proof.Machine.execFcmp o m s
  | .fclass o m => Sys2Proof.Machine.execFclass o m s
  | .frnd o m => Sys2Proof.Machine.execFrnd o m s
  | .cvt o m => Sys2Proof.Machine.execCvt o m s
  | .fdot2 o m => Sys2Proof.Machine.execFdot2 o m s
  | .qnt o m => Sys2Proof.Machine.execQnt o m s
  | .rcp o m => Sys2Proof.Machine.execRcp o m s
  | .rsq o m => Sys2Proof.Machine.execRsq o m s
  | .sqrt o m => Sys2Proof.Machine.execSqrt o m s
  | .exp2 o m => Sys2Proof.Machine.execExp2 o m s
  | .log2 o m => Sys2Proof.Machine.execLog2 o m s
  | .sin o m => Sys2Proof.Machine.execSin o m s
  | .cos o m => Sys2Proof.Machine.execCos o m s
  | .tanh o m => Sys2Proof.Machine.execTanh o m s
  | .divf o m => Sys2Proof.Machine.execDivf o m s
  | .ld o m => Sys2Proof.Machine.execLd o m s
  | .st o m => Sys2Proof.Machine.execSt o m s
  | .lds o m => Sys2Proof.Machine.execLds o m s
  | .sts o m => Sys2Proof.Machine.execSts o m s
  | .ldc o m => Sys2Proof.Machine.execLdc o m s
  | .pfx o m => Sys2Proof.Machine.execPfx o m s
  | .iflush o => Sys2Proof.Machine.execIflush o s
  | .loadComplete n => Sys2Proof.Machine.execLoadComplete n s
  | .replayResolved n writes mapped => Sys2Proof.Machine.execReplayResolved n writes mapped s
  | .aadd o m => Sys2Proof.Machine.execAadd o m s
  | .amin o m => Sys2Proof.Machine.execAmin o m s
  | .amax o m => Sys2Proof.Machine.execAmax o m s
  | .aand o m => Sys2Proof.Machine.execAand o m s
  | .aor o m => Sys2Proof.Machine.execAor o m s
  | .axor o m => Sys2Proof.Machine.execAxor o m s
  | .axch o m => Sys2Proof.Machine.execAxch o m s
  | .acas o m => Sys2Proof.Machine.execAcas o m s
  | .afadd o m => Sys2Proof.Machine.execAfadd o m s
  | .atomicComplete n => Sys2Proof.Machine.execAtomicComplete n s
  | .fence o scope fk => Sys2Proof.Machine.execFence o scope fk s
  | .waita o => Sys2Proof.Machine.execWaita o s
  | .waitaTimeout t rec => Sys2Proof.Machine.execWaitaTimeout t rec s
  | .waitaUnmonitoredWake t rec => Sys2Proof.Machine.execWaitaUnmonitoredWake t rec s
  | .monitorReclaim cluster line => Sys2Proof.Machine.execMonitorReclaim cluster line s
  | .acpy o m => Sys2Proof.Machine.execAcpy o m s
  | .tcpy o m => Sys2Proof.Machine.execTcpy o m s
  | .cwait o prom => Sys2Proof.Machine.execCwait o prom s
  | .ctest o prom => Sys2Proof.Machine.execCtest o prom s
  | .cprom o prom => Sys2Proof.Machine.execCprom o prom s
  | .cpromPromiseTime t rec => Sys2Proof.Machine.execCpromPromiseTime t rec s
  | .cstat o prom => Sys2Proof.Machine.execCstat o prom s
  | .copyChunkComplete n chunk => Sys2Proof.Machine.execCopyChunkComplete n chunk s
  | .copyCommandComplete n => Sys2Proof.Machine.execCopyCommandComplete n s
  | .copyEngineFault n => Sys2Proof.Machine.execCopyEngineFault n s
  | .mgang o m => Sys2Proof.Machine.execMgang o m s
  | .mma o m => Sys2Proof.Machine.execMma o m s
  | .mzero o m => Sys2Proof.Machine.execMzero o m s
  | .mrnm o m => Sys2Proof.Machine.execMrnm o m s
  | .mld o m => Sys2Proof.Machine.execMld o m s
  | .mst o m => Sys2Proof.Machine.execMst o m s
  | .mexp o m => Sys2Proof.Machine.execMexp o m s
  | .mmov o m => Sys2Proof.Machine.execMmov o m s
  | .matrixCommandAccept t rec => Sys2Proof.Machine.execMatrixCommandAccept t rec s
  | .broadcastFirstFetch cluster key => Sys2Proof.Machine.execBroadcastFirstFetch cluster key s
  | .matrixCommandComplete n => Sys2Proof.Machine.execMatrixCommandComplete n s
  | .matrixEngineFault n => Sys2Proof.Machine.execMatrixEngineFault n s
  | .exits o => Sys2Proof.Machine.execExits o s
  | .region o m => Sys2Proof.Machine.execRegion o m s
  | .denput o => Sys2Proof.Machine.execDenput o s
  | .denTimerExpiry den => Sys2Proof.Machine.execDenTimerExpiry den s
  | .qpop o m => Sys2Proof.Machine.execQpop o m s
  | .qpopSlotReady t rec => Sys2Proof.Machine.execQpopSlotReady t rec s
  | .qpush o => Sys2Proof.Machine.execQpush o s
  | .launch o => Sys2Proof.Machine.execLaunch o s
  | .cntw o lv => Sys2Proof.Machine.execCntw o lv s
  | .cancel o lv => Sys2Proof.Machine.execCancel o lv s
  | .fsend o m => Sys2Proof.Machine.execFsend o m s
  | .fatom o m var => Sys2Proof.Machine.execFatom o m var s
  | .fwait o m var => Sys2Proof.Machine.execFwait o m var s
  | .fwaitTimeout t rec => Sys2Proof.Machine.execFwaitTimeout t rec s
  | .fdrain o m => Sys2Proof.Machine.execFdrain o m s
  | .freg o m => Sys2Proof.Machine.execFreg o m s
  | .frev o m => Sys2Proof.Machine.execFrev o m s
  | .fqry o m item => Sys2Proof.Machine.execFqry o m item s
  | .crange o => Sys2Proof.Machine.execCrange o s
  | .cfire o => Sys2Proof.Machine.execCfire o s
  | .cjoin o => Sys2Proof.Machine.execCjoin o s
  | .cdrop o => Sys2Proof.Machine.execCdrop o s
  | .gsub o acq => Sys2Proof.Machine.execGsub o acq s
  | .gwait o => Sys2Proof.Machine.execGwait o s
  | .gwaitTimeout t rec => Sys2Proof.Machine.execGwaitTimeout t rec s
  | .gcan o => Sys2Proof.Machine.execGcan o s
  | .trap o => Sys2Proof.Machine.execTrap o s
  | .bkpt o => Sys2Proof.Machine.execBkpt o s
  | .resume o skip => Sys2Proof.Machine.execResume o skip s
  | .swr o => Sys2Proof.Machine.execSwr o s
  | .warnc o => Sys2Proof.Machine.execWarnc o s
  | .groupRetire t rec => Sys2Proof.Machine.execGroupRetire t rec s
  | .successorHandover t => Sys2Proof.Machine.execSuccessorHandover t s
  | .launchRecordSeal part sealByte => Sys2Proof.Machine.execLaunchRecordSeal part sealByte s
  | .launchRecordCheck part => Sys2Proof.Machine.execLaunchRecordCheck part s
  | .teamDispatch t b => Sys2Proof.Machine.execTeamDispatch t b s
  | .launchComplete id => Sys2Proof.Machine.execLaunchComplete id s
  | .cancelRegisterWrite part x => Sys2Proof.Machine.execCancelRegisterWrite part x s
  | .cancelBudgetExpiry t => Sys2Proof.Machine.execCancelBudgetExpiry t s
  | .feedqReserveRead q => Sys2Proof.Machine.execFeedqReserveRead q s
  | .feedqTailWrite q x => Sys2Proof.Machine.execFeedqTailWrite q x s
  | .feedqStatusWrite q x => Sys2Proof.Machine.execFeedqStatusWrite q x s
  | .sqbaseWrite part x => Sys2Proof.Machine.execSqbaseWrite part x s
  | .sqcfgWrite part x => Sys2Proof.Machine.execSqcfgWrite part x s
  | .sqheadWrite part x => Sys2Proof.Machine.execSqheadWrite part x s
  | .sqdropRead part => Sys2Proof.Machine.execSqdropRead part s
  | .frbaseWrite part x => Sys2Proof.Machine.execFrbaseWrite part x s
  | .frcfgWrite part x => Sys2Proof.Machine.execFrcfgWrite part x s
  | .frheadWrite part x => Sys2Proof.Machine.execFrheadWrite part x s
  | .frdropRead part => Sys2Proof.Machine.execFrdropRead part s
  | .mailboxSend src dest msg => Sys2Proof.Machine.execMailboxSend src dest msg s
  | .mailboxRecvPop core src => Sys2Proof.Machine.execMailboxRecvPop core src s
  | .bindRecordWrite t x => Sys2Proof.Machine.execBindRecordWrite t x s
  | .preemptRequest t => Sys2Proof.Machine.execPreemptRequest t s
  | .preemptBudgetExpiry t => Sys2Proof.Machine.execPreemptBudgetExpiry t s
  | .discardAcknowledged t => Sys2Proof.Machine.execDiscardAcknowledged t s
  | .invalidation asid writes => Sys2Proof.Machine.execInvalidation asid writes s
  | .hostCoherentAccess pa write => Sys2Proof.Machine.execHostCoherentAccess pa write s
  | .fabricDataWindow port peer peerPort generation => Sys2Proof.Machine.execFabricDataWindow port peer peerPort generation s
  | .fabricRetryTimer num => Sys2Proof.Machine.execFabricRetryTimer num s
  | .fabricAck num code old => Sys2Proof.Machine.execFabricAck num code old s
  | .fabricRequestArrival p => Sys2Proof.Machine.execFabricRequestArrival p s
  | .relayRecordArrival p => Sys2Proof.Machine.execRelayRecordArrival p s
  | .relayRecordExpiry num => Sys2Proof.Machine.execRelayRecordExpiry num s
  | .filterEntryExpiry src num => Sys2Proof.Machine.execFilterEntryExpiry src num s
  | .skipNoticeArrival src tc part floor => Sys2Proof.Machine.execSkipNoticeArrival src tc part floor s
  | .fabricClockOffset ps => Sys2Proof.Machine.execFabricClockOffset ps s
  | .calStage => Sys2Proof.Machine.execCalStage s
  | .calQuiesce => Sys2Proof.Machine.execCalQuiesce s
  | .calDark => Sys2Proof.Machine.execCalDark s
  | .fabricDarkAtBoundary => Sys2Proof.Machine.execFabricDarkAtBoundary s
  | .calRelock => Sys2Proof.Machine.execCalRelock s
  | .relockAtNepoch => Sys2Proof.Machine.execRelockAtNepoch s
  | .fabricStateClear x => Sys2Proof.Machine.execFabricStateClear x s
  | .timePodSync podTime => Sys2Proof.Machine.execTimePodSync podTime s
  | .chunkSnapshotComplete part cid k => Sys2Proof.Machine.execChunkSnapshotComplete part cid k s
  | .chunkArrival p => Sys2Proof.Machine.execChunkArrival p s
  | .unmatchedArrivalExpiry src num => Sys2Proof.Machine.execUnmatchedArrivalExpiry src num s
  | .collectiveComplete part cid => Sys2Proof.Machine.execCollectiveComplete part cid s
  | .collectiveTimeout part cid => Sys2Proof.Machine.execCollectiveTimeout part cid s
  | .dropNoticeArrival p => Sys2Proof.Machine.execDropNoticeArrival p s
  | .guestAccess pa write len => Sys2Proof.Machine.execGuestAccess pa write len s
  | .guestTranslateRequest ask va r w x => Sys2Proof.Machine.execGuestTranslateRequest ask va r w x s
  | .guestInvalidationAck => Sys2Proof.Machine.execGuestInvalidationAck s
  | .guestInvalidationTimeout => Sys2Proof.Machine.execGuestInvalidationTimeout s
  | .guestStopTimeout q => Sys2Proof.Machine.execGuestStopTimeout q s
  | .guestCompletionRecord q slot value status cseq => Sys2Proof.Machine.execGuestCompletionRecord q slot value status cseq s
  | .guestPowerExcess => Sys2Proof.Machine.execGuestPowerExcess s
  | .guestLinkDown => Sys2Proof.Machine.execGuestLinkDown s
  | .guestLinkUp key fw sig => Sys2Proof.Machine.execGuestLinkUp key fw sig s
  | .qcfgWrite q x => Sys2Proof.Machine.execQcfgWrite q x s
  | .gctlDoorbellTest => Sys2Proof.Machine.execGctlDoorbellTest s
  | .uncorrectableError site pa syndrome => Sys2Proof.Machine.execUncorrectableError site pa syndrome s
  | .keyOwnerWrite k x => Sys2Proof.Machine.execKeyOwnerWrite k x s
  | .pctlWrite part x => Sys2Proof.Machine.execPctlWrite part x s
  | .defdefWrite part x => Sys2Proof.Machine.execDefdefWrite part x s
  | .fabshWrite part x => Sys2Proof.Machine.execFabshWrite part x s
  | .hbmwWrite part x => Sys2Proof.Machine.execHbmwWrite part x s
  | .functionLevelReset part => Sys2Proof.Machine.execFunctionLevelReset part s
  | .flrComplete part => Sys2Proof.Machine.execFlrComplete part s
  | .registerWrite r x => Sys2Proof.Machine.execRegisterWrite r x s
  | .powerOnReset => Sys2Proof.Machine.execPowerOnReset s
  | .railEnable n setting => Sys2Proof.Machine.execRailEnable n setting s
  | .railPowerGoodTimeout n => Sys2Proof.Machine.execRailPowerGoodTimeout n s
  | .railFault n => Sys2Proof.Machine.execRailFault n s
  | .railFaultClear n => Sys2Proof.Machine.execRailFaultClear n s
  | .hbmTrainStart x0 => Sys2Proof.Machine.execHbmTrainStart x0 s
  | .hbmTrainComplete x0 pass lanes => Sys2Proof.Machine.execHbmTrainComplete x0 pass lanes s
  | .ucieTrainStart m => Sys2Proof.Machine.execUcieTrainStart m s
  | .ucieTrainComplete m width link => Sys2Proof.Machine.execUcieTrainComplete m width link s
  | .opticalLaserEnable p => Sys2Proof.Machine.execOpticalLaserEnable p s
  | .opticalLockStart p => Sys2Proof.Machine.execOpticalLockStart p s
  | .opticalLockTimeout p locked => Sys2Proof.Machine.execOpticalLockTimeout p locked s
  | .thermalSample readings => Sys2Proof.Machine.execThermalSample readings s
  | .currentLimit die mhz => Sys2Proof.Machine.execCurrentLimit die mhz s
  | .pcapWrite x => Sys2Proof.Machine.execPcapWrite x s
  | .quote nonce => Sys2Proof.Machine.execQuote nonce s
  | .logrd start => Sys2Proof.Machine.execLogrd start s
  | .sensrd => Sys2Proof.Machine.execSensrd s
  | .keyload id pub wrapped => Sys2Proof.Machine.execKeyload id pub wrapped s
  | .keyerase id => Sys2Proof.Machine.execKeyerase id s
  | .imgwr target bankB off data => Sys2Proof.Machine.execImgwr target bankB off data s
  | .imgcommit target bankB => Sys2Proof.Machine.execImgcommit target bankB s
  | .confirm => Sys2Proof.Machine.execConfirm s
  | .extend reg d => Sys2Proof.Machine.execExtend reg d s
  | .trialConfirmTimeout => Sys2Proof.Machine.execTrialConfirmTimeout s
  | .coreClockSelect die mhz => Sys2Proof.Machine.execCoreClockSelect die mhz s
  | .powerCapLimit die mhz => Sys2Proof.Machine.execPowerCapLimit die mhz s
  | .clusterFusionModeSet cluster fused => Sys2Proof.Machine.execClusterFusionModeSet cluster fused s
  | .poolwaitAnswer num => Sys2Proof.Machine.execPoolwaitAnswer num s
  | .guestRailOverAllowance => Sys2Proof.Machine.execGuestRailOverAllowance s
  | .patrolScrub pa correctable => Sys2Proof.Machine.execPatrolScrub pa correctable s
  | .configurationRequest => Sys2Proof.Machine.execConfigurationRequest s
  | .railPowerGood n => Sys2Proof.Machine.execRailPowerGood n s
  | .opticalLockComplete p => Sys2Proof.Machine.execOpticalLockComplete p s
  | .guestKeyListChange keys => Sys2Proof.Machine.execGuestKeyListChange keys s

end Sys2Proof.Machine
end

