-- ==== Sys2Proof/Machine/Fetch.lean ====
section
/-! DEFINITION. What a step does around the meanings: TIME, issue selection (spec/04 R73 to R75), the checks of a slot in the order of spec/02 R52, and the schedule's entries; and the placing of one word where the next step issues it. -/
namespace Sys2Proof.Machine

/-! ## TIME, R11, R12 -/

/-- Advance of TIME over e ns, with the lead and the odd ns that are left: half rate while TIME is ahead of the pod. -/
def advance (lead half e : Nat) : Nat × Nat × Nat :=
  if lead = 0 then (e, 0, 0)
  else
    let n := e + half
    if 2 * lead ≤ n then (n - lead, 0, 0) else (n / 2, lead - n / 2, n % 2)

/-- Every step has a number, and some time passes with it (log 2). -/
def State.tick (s : State) : State :=
  let n := s.sched.steps + 1
  let e := Config.elapsed n
  let a := advance s.clock.lead s.clock.half e
  { s with
    sched := { s.sched with steps := n, cur := none },
    clock := if s.clock.runs then { s.clock with time := (s.clock.time + a.1) % 2 ^ 64, lead := a.2.1, half := a.2.2 } else s.clock,
    mgmt := { s.mgmt with now := s.mgmt.now + e } }

/-- Relay records held for 550 µs are discarded, R345. -/
def State.expireRelays (s : State) : State :=
  { s with fab := { s.fab with relays := s.fab.relays.filter fun x => decide (s.clock.time < x.1 + 550000) } }

/-- Time passes. Collectives whose TMO has run out end (R385), and arrivals held for none (R377) and relay records (R345); the guest's
deadlines end (R401), and the waits whose end has come (R218, R365, R407); Genmon goes on (R433). -/
def State.passTime (s : State) : State :=
  let s := (s.tick.expireColls.expirePool fun _ => true).expireRelays.expireGuest
  (s.expireWaits s.clock.time).genmonTime

/-! ## Who acts, R429, R433, R440 -/

/-- Whose step it is: the part's own, the host's over its link, a firmware core's, or either's on Genmon's block. -/
inductive Agent where
  | part | host | fw (n : Nat) | either
  deriving DecidableEq, Repr

/-- The core whose block a register is of (R9, R341, R404, R419), or who reaches Genmon's (R432). -/
def regAgent : PartReg → Agent
  | .fabSelf | .fabCtl | .nmask | .nepoch | .foxt | .ncal _ _ => .fw 4
  | .qcq _ | .qsq _ | .gctl => .fw 6
  | .slotsh _ | .denOwner _ | .fqCfg _ | .fqBase _ => .fw 7
  | .context .. => .fw 2
  | .gmcmd | .gmbuf _ => .either
  | .rset _ | .rctl _ | .readOnly => .part

/-- The agent of a step that is no instruction of a group. Those not named are the part's own. -/
def agentOf : Instr → Agent
  | .launchRecordSeal .. | .hostCoherentAccess .. | .cancelRegisterWrite .. | .feedqReserveRead _ | .feedqTailWrite ..
  | .feedqStatusWrite .. | .sqbaseWrite .. | .sqcfgWrite .. | .sqheadWrite .. | .sqdropRead _ | .frbaseWrite .. | .frcfgWrite ..
  | .frheadWrite .. | .frdropRead _ | .functionLevelReset _ | .configurationRequest => .host
  | .launchRecordCheck _ => .fw 0
  | .preemptRequest _ | .preemptBudgetExpiry _ | .bindRecordWrite .. | .clusterFusionModeSet .. => .fw 1
  | .invalidation .. | .replayResolved .. => .fw 2
  | .calStage | .calQuiesce | .calDark | .calRelock | .fabricStateClear _ | .timePodSync _ => .fw 4
  | .qcfgWrite .. | .gctlDoorbellTest => .fw 6
  | .pctlWrite .. | .defdefWrite .. | .fabshWrite .. | .hbmwWrite .. | .keyOwnerWrite .. => .fw 7
  | .mailboxSend src .. => .fw src
  | .mailboxRecvPop core _ => .fw core
  | .registerWrite r _ => regAgent r
  | .quote _ | .logrd _ | .sensrd | .keyload .. | .keyerase _ | .imgwr .. | .imgcommit .. | .confirm | .extend .. | .pcapWrite _ => .either
  | _ => .part

/-- The agent can act: the host once its link's PHY is released (R440), a firmware core once it is itself. In recovery an image
still reaches Genmon's block (R433). -/
def State.canAct (s : State) : Agent → Bool
  | .part => true
  | .host => s.mgmt.phy
  | .fw n => s.mgmt.released n
  | .either => s.mgmt.phy || (List.range 8).any s.mgmt.released || s.recovery

/-! ## The checks of a slot, orders 1 to 4 of R52 -/

/-- What a group finds where it issues. -/
inductive Slotted where
  | instr (i : Instr) (s : State)
  | fault (f : FaultInfo) (o : Opnds)

/-- The slot at an address of a fetched line, with the line word's own check (R21). -/
def slotIn (x pc : Nat) (s : State) : (Slot × State) ⊕ FaultInfo :=
  if lineReserved x then .inr { code := .illLine } else .inl (lineSlot x (pc % 8), s)

/-- The slot at an instruction address, fetched (R20, R21): the word and the state after its fetch. -/
def State.slotAt (s : State) (core asid pc : Nat) : (Slot × State) ⊕ FaultInfo :=
  match s.fetchLine core asid (pc / 64 * 64) with
  | .fault f => .inr f
  | .line x s => slotIn x pc s

/-- The slot at a clause's position: of a line that the clause has fetched, which nothing changes under it (R198), or
fetched now and kept. -/
def State.slotOf (s : State) (v : View) : (Slot × State) ⊕ FaultInfo :=
  let va := v.pc / 64 * 64
  match v.cl.lines.find va with
  | some x => slotIn x.toNat v.pc s
  | none =>
    match s.fetchLine v.iss.team.core v.team.asid va with
    | .fault f => .inr f
    | .line x s => slotIn x v.pc (s.modGrp v.iss fun g =>
        { g with clause := g.clause.map fun c => { c with lines := c.lines.put va (BitVec.ofNat 512 x) } })

/-- The word at position p of a clause in execution: none when its line cannot be fetched. -/
def State.wordOf (s : State) (core asid : Nat) (c : Clause) (p : Nat) : Option Slot :=
  let a := Machine.slotAddr c.head p
  match c.lines.find (a / 64 * 64) with
  | some x => some (lineSlot x.toNat (a % 8))
  | none => s.peek core asid a

def State.wordAt (s : State) (v : View) (p : Nat) : Option Slot := s.wordOf v.iss.team.core v.team.asid v.cl p

/-- Matrix commands at positions 1 to p of a clause, R264. -/
def State.matrixUpTo (s : State) (v : View) (p : Nat) : Nat :=
  ((List.range p).filter fun k => (s.wordAt v (k + 1)).any isMatrix).length

/-- Clause shape, R24, R29, R264: none is good. -/
def State.shapeOk (s : State) (v : View) (w : Slot) : Bool :=
  let len := v.cl.hdr.len.val
  let p := v.cl.pos
  !isHeader w && (isClend w == (p == len)) && (!isTerminal w || p + 1 == len)
    && (!isMatrix w || decide (s.matrixUpTo v p ≤ 8))

/-- Entries of the clause's CLEND, of which there are six at most, as far as they name registers; none when its line cannot be
fetched. -/
def State.clauseEntries (s : State) (v : View) : Option (List ClendEntry) :=
  (s.wordAt v v.cl.hdr.len.val).map fun w =>
    if isClend w then ((List.range (min 6 (bits w.toNat 12 10))).filterMap (clendEntry w)) else []

/-- R33: registers written under a flag appear in entries bound to it, a 64-bit destination as its even register with WIDE set. -/
def covered (h : Header) (es : List ClendEntry) (i : Instr) (o : Opnds) (f : Fin 12) : Bool :=
  let mine := es.filter fun e => (if e.bind then h.setb else h.seta) == some f
  let wide := match instrRaw i with
    | some r => match rowOf r with | some { dst := some d, .. } => (d.ty.getD o.ty).wide | _ => false
    | none => false
  (written i o).all fun r =>
    mine.any fun e => (if e.ok then entryRegs e else [e.reg]).contains r
      && (!wide || (e.wide && e.ok) || (match r with | .v _ => false | _ => true))

/-- Source registers of the fields; MOVI.mid and MOVI.top read their destination (R118). -/
def sources (i : Instr) (o : Opnds) : List Spec :=
  match instrRaw i with
  | none => []
  | some r =>
    match rowOf r with
    | none => []
    | some w =>
      let g := groupOf i
      let fld (f : Option Field) (sp : Spec) (n : Nat) : List Spec :=
        match f with
        | some f => match sp with | .l _ => [sp] | _ => runOf sp (n * fieldRegs (f.ty.getD o.ty) sp)
        | none => []
      fld w.sa o.sa g.2.1 ++ fld w.sb o.sb g.2.2 ++ fld w.sc o.sc 1
        ++ match i with | .movi _ .lo => [] | .movi .. => fld w.dst o.dst 1 | _ => []

/-- A word writes a clause temporary. -/
def wordWrites (n : Fin 8) (w : Slot) : Bool :=
  match decode w with
  | .ok i => (written i (Raw.ofSlot w).opnds).contains (.c n)
  | .error _ => false

/-- A word holds an operand in a latch. -/
def wordHolds (w : Slot) : Bool := !isHeader w && !isClend w && (Raw.ofSlot w).opnds.hold != .none

/-- R42 and R43 for one source, from the words of the clause alone. -/
def State.mayRead (s : State) (v : View) : Spec → Bool
  | .c n => (List.range (v.cl.pos - 1)).any fun k => (s.wordAt v (k + 1)).any (wordWrites n)
  | .l n => [1, 2].any fun k => decide (k < v.cl.pos) && (v.cl.pos - k) % 3 == n.val && (s.wordAt v (v.cl.pos - k)).any wordHolds
  | _ => true

/-- Order 4 as far as the clause decides it: FL, entries, temporaries, latches. -/
def State.clauseOk (s : State) (v : View) (i : Instr) (o : Opnds) : Bool :=
  let h := v.cl.hdr
  let flOk := match o.fl with
    | none => true
    | some f =>
      (h.seta == some f || h.setb == some f) && !(written i o).any (fun r => match r with | .c _ => true | _ => false)
        && (match s.clauseEntries v with | some es => covered h es i o f | none => true)
  let bound := match i with
    | .clend es => es.all fun e => (if e.bind then h.setb else h.seta).isSome
    | _ => true
  flOk && bound && (sources i o).all (s.mayRead v)

/-- What a transfer's SA holds can be read before its word is checked: an s register, or a pair of v registers that the record
holds, none in flight (log 38). -/
def View.readable (v : View) (sp : Spec) : Bool :=
  (match sp with
    | .s _ => true
    | .v n => n.val % 2 == 0 && decide (n.val + 1 ≤ 32 * v.grp.h + 31)
    | _ => false)
  && !(runOf sp (match sp with | .v _ => 2 | _ => 1)).any v.grp.inFlight

/-- Order 2 of R52 for a transfer, R89 to R92: its landings are checked before the word's fields. A target or a decision that
SA holds is taken from it as it stands, where it can be read. -/
def State.landingFirst (s : State) (v : View) (w : Slot) : Option FaultInfo :=
  let r := Raw.ofSlot w
  let o := r.opnds
  let v : View := { v with s := s }
  let sa := (Spec.ofByte r.sa).filter v.readable
  let brc (m : BrcMode) : Bool := match sa with | some (.s _) => (v.brcTakes o m).2 | _ => false
  let direct := v.badLanding (v.allTo o (Machine.target v.pc r.imm)) false
  match r.op.toNat, modField r.mod 0 4 with
  | 0x001, _ | 0x004, _ => direct
  | 0x002, 0 => if brc .dec then direct else none
  | 0x002, 1 => if brc .nz then direct else none
  | 0x002, 2 => if brc .z then direct else none
  | 0x003, _ | 0x005, _ => if sa.isSome then v.badLanding (v.eachTo o) true else none
  | _, _ => none

/-- The checks of the slot at a clause's position. -/
def State.slotCheck (s : State) (v : View) : Slotted :=
  match s.slotOf v with
  | .inr f => .fault f {}
  | .inl (w, s) =>
    let o := (Raw.ofSlot w).opnds
    match s.landingFirst v w, decode w with
    | some f, _ => .fault f o
    | none, .error .illOp => .fault { code := .illOp } o
    | none, .error .illOpnd => .fault { code := if s.shapeOk v w then .illOpnd else .illOp } o
    | none, .ok i =>
      let o' : Opnds := match i with | .clend _ => {} | _ => o
      if !s.shapeOk v w then .fault { code := .illOp } o'
      else if !s.clauseOk v i o' then .fault { code := .illOpnd } o'
      else .instr i s

/-! ## Issuing -/

/-- `exec` is applied to the word for the group. -/
def State.issueFor (s : State) (i : Issuer) (w : Instr) : Host.Outcome State Fault Refusal :=
  exec w { s with sched := { s.sched with cur := some i } }

/-- The next position of a clause in execution issues, or its fault is raised. -/
def State.issueSlot (s : State) (v : View) : Host.Outcome State Fault Refusal :=
  match s.slotCheck v with
  | .instr w s => s.issueFor v.iss w
  | .fault f o => .next (s.raise v o f)

/-- What a group without a clause finds at its chosen PC. -/
inductive Headed where
  | none                                     -- it has no runnable thread, or it is not ready
  | start (h : Header) (s : State)
  | fault (pc : Nat) (f : FaultInfo)

def State.headAt (s : State) (t : Team) (g : Grp) : Headed :=
  match t.choosePC g.recno with
  | none => .none
  | some pc =>
    match s.slotAt t.ref.core t.asid pc with
    | .inr f => .fault pc f
    | .inl (w, s) =>
      if !isHeader w then .fault pc { code := .illOp }
      else
        match decode w with
        | .ok (.clauseHeader h) => if s.ready t g pc h then .start h s else .none
        | _ => .fault pc { code := .illOp }

/-- A fault at a header goes to fw3, with the lowest thread there. -/
def State.headFault (s : State) (t : Team) (g : Grp) (pc : Nat) (f : FaultInfo) : State :=
  let tid := (((t.runnable g.recno).find? (·.pc == pc)).map (·.tid)).getD 0
  if f.code = .mchk then s.consume t.asid (f.val.getD 0) (some { team := t, recno := g.recno, pc, tid })
  else s.fw3 t (t.faultRec g.recno f.code f.src pc (f.val.getD pc) tid (trapcOf f 0).toNat)

/-- Groups that issue on a quadrant of a core. -/
def State.onQuad (s : State) (core quad : Nat) : List (Team × Grp) :=
  (s.teamList.filter fun t => t.ref.core == core && t.ending.isNone).flatMap fun t =>
    (t.grps.filter fun g => !g.retired && t.quadrant g.recno == quad).map fun g => (t, g)

/-- The group holds its quadrant: it is in mid-clause, and has not given the quadrant up (R28). -/
def Grp.holds (g : Grp) : Bool := g.park.isNone && g.clause.any fun c => !c.idle && !c.resumed

/-- The room that what is left of a resumed clause needs in its group's queue, R264. -/
def State.matrixLeft (s : State) (t : Team) (c : Clause) : Nat :=
  min ((List.range (c.hdr.len.val + 1 - c.pos)).filter fun k => (s.wordOf t.ref.core t.asid c (c.pos + k)).any isMatrix).length 8

/-- A group that gave its quadrant up in mid-clause can go on: its parked access is resolved, or has no entry and one is
free (R188); the flags of a resumed clause's WAIT mask are clear (R416), and its matrix commands find room (R264). -/
def State.returns (s : State) (t : Team) (g : Grp) : Bool :=
  (match g.park with
    | none => true
    | some n => !s.mem.parked.any (·.num == n) && decide (s.bufferUsed (clusterOf t.ref.core) < 64))
  && g.clause.any fun c => (c.idle || c.resumed)
      && (!c.resumed || (g.waitClear c.hdr.wait && decide (s.matrixLeft t c + g.mq.length ≤ 8)))

/-- The group takes its quadrant again: a resumed clause's flags are observed, and the clause goes on. -/
def Grp.retake (g : Grp) : Grp :=
  match g.clause with
  | some c =>
    { (if c.resumed then g.observe c.hdr.wait else g) with park := none, clause := some { c with resumed := false, idle := false } }
  | none => g

/-- Each clause start counts as a pass of the other groups that are ready on the quadrant, and ends the rank of those that
yielded, R75. -/
def State.passOver (s : State) (all ready : List (Team × Grp)) (i : Issuer) : State :=
  let is (x y : Team × Grp) : Bool := x.1.ref == y.1.ref && x.2.recno == y.2.recno
  all.foldl (fun s x =>
    if x.1.ref = i.team ∧ x.2.recno = i.recno then s
    else s.modGrp ⟨x.1.ref, x.2.recno⟩ fun g =>
      { g with youngest := false, passes := if ready.any (is x) then g.passes + 1 else g.passes }) s

/-- The header's clause starts for the record: the compaction that it chooses leaves it a thread there (R82). -/
def State.starts (s : State) (t : Team) (n : Nat) (h : Header) : Bool :=
  let pc := (t.choosePC n).getD 0
  ((if h.rgp then s.rgpChoice t n pc else t).runnable n).any (·.pc == pc)

/-- Groups that can start a clause, or fault at its header. -/
def State.readyOn (s : State) (gs : List (Team × Grp)) : List (Team × Grp) :=
  gs.filter fun x => x.2.clause.isNone && x.2.park.isNone && match s.headAt x.1 x.2 with | .none => false | _ => true

/-- One of a list, by free choice. -/
def State.oneOf (s : State) (key : List Nat) (xs : List (Team × Grp)) : Option (Team × Grp) :=
  match xs with
  | [] => none
  | [x] => some x
  | x :: _ => some (nth x xs (s.choose key % xs.length))

/-- The step at which the group's queue came to have room for n more commands (R264). -/
def Grp.roomAt (g : Grp) (n : Nat) : Nat := if n = 0 then 0 else nth 0 g.freedAt (8 - n - g.mq.length)

/-- The step at which the group's chosen clause became ready: its PC was reached, a wait of the group there ended, its last
clause ended, the flags it waits for became clear, and its matrix commands had room (R75, R85, R264). -/
def State.readySince (s : State) (t : Team) (g : Grp) : Nat :=
  let pc := (t.choosePC g.recno).getD 0
  let reached := max (max (ageAt (t.runnable g.recno) pc) (g.waited.get 0 pc)) g.endedAt
  match s.headAt t g with
  | .start h _ =>
    ((List.range 12).filter fun n => h.rgp || h.wait.getLsbD n).foldl (fun m n => max m (nth 0 g.clearAt n))
      (max reached (g.roomAt (s.matrixNeed t.ref.core t.asid pc h.len.val)))
  | _ => reached

/-- Those of a list with the least value. -/
def lowest (f : Team × Grp → Nat) (xs : List (Team × Grp)) : List (Team × Grp) :=
  xs.filter fun x => xs.all fun y => decide (f x ≤ f y)

/-- The ready group that starts next, R75: one passed over 64 times; else the one that became ready earliest, those that
yielded last. Ties go to the lower record number, and between teams to a free choice (log 1). -/
def State.nextGroup (s : State) (core quad : Nat) (ready : List (Team × Grp)) : Option (Team × Grp) :=
  let due := ready.filter fun x => decide (64 ≤ x.2.passes)
  let old := ready.filter fun x => !x.2.youngest
  let first := if due.isEmpty then lowest (fun x => s.readySince x.1 x.2) (if old.isEmpty then ready else old) else due
  s.oneOf [23, core, quad] (lowest (·.2.recno) first)

/-- A group's next slot, unless it waits for a result. -/
def State.issueOf (s : State) (t : Team) (g : Grp) : Host.Outcome State Fault Refusal :=
  match View.of s ⟨t.ref, g.recno⟩ with
  | some v => if g.stall.isSome then .next s else s.issueSlot v
  | none => .next s

/-- A quadrant's next issue: the next position of the group that holds it; else of a group that gave it up in mid-clause and
can go on; else the start of a ready group's clause (log 1). -/
def State.issueQuad (s : State) (core quad : Nat) : Host.Outcome State Fault Refusal :=
  let gs := s.onQuad core quad
  match gs.find? (·.2.holds) with
  | some (t, g) => s.issueOf t g
  | none =>
    match s.oneOf [24, core, quad] (gs.filter fun x => s.returns x.1 x.2) with
    | some (t, g) => (s.modGrp ⟨t.ref, g.recno⟩ Grp.retake).issueOf t g
    | none =>
      let ready := s.readyOn gs
      match s.nextGroup core quad ready with
      | none => .next s
      | some (t, g) =>
        match s.headAt t g with
        | .none => .next s
        | .fault pc f => .next (s.headFault t g pc f)
        | .start h s =>
          (if s.starts t g.recno h then s.passOver gs ready ⟨t.ref, g.recno⟩ else s).issueFor ⟨t.ref, g.recno⟩ (.clauseHeader h)

/-! ## The schedule's entries -/

/-- An engine performs some destination words of a command ahead of its completion, R209, R210. -/
def State.moveWords (s : State) (cmd : Nat) (words : List Nat) : State :=
  match s.liveCopy cmd, s.liveMat cmd with
  | some (c, t), _ =>
    match s.copyWords t c (words.filter c.shape.words.contains) with
    | .ok s => s
    | .stuck => s
    | .mchk pa => s.consume t.asid pa (s.consumer c.iss)
  | none, some (c, t) =>
    match s.matWords t c (words.filter c.shape.words.contains) with
    | .ok s => s
    | _ => s
  | none, none => s

/-- A quadrant that has something to issue. -/
def State.canIssue (s : State) (core quad : Nat) : Bool :=
  let gs := s.onQuad core quad
  match gs.find? (·.2.holds) with
  | some x => x.2.stall.isNone
  | none => gs.any (fun x => s.returns x.1 x.2) || !(s.readyOn gs).isEmpty

/-- With nothing scheduled: the first quadrant that can issue does, else the oldest landing lands. -/
def State.idle (s : State) : Host.Outcome State Fault Refusal :=
  let quads := s.teamList.flatMap fun t => (List.range 4).map fun q => (t.ref.core, q)
  match quads.find? fun x => s.canIssue x.1 x.2 with
  | some (c, q) => s.issueQuad c q
  | none =>
    match s.eng.landings with
    | [] => .next s
    | l :: _ =>
      match l.kind with
      | .front _ => .next (s.landFront l.num)
      | k => .next (s.landed l.num k)

/-- One entry of the schedule. An instruction word comes only from a group's slot, and a step of the host or of a firmware core
only from one that runs. -/
def State.perform (s : State) : Agendum → Host.Outcome State Fault Refusal
  | .event i => if (encode i).isSome || !s.canAct (agentOf i) then .next s else exec i s
  | .issue core quad => s.issueQuad core quad
  | .move cmd words => .next (s.moveWords cmd words)
  | .land n => .next (s.landFront n)

/-- What follows every entry of the schedule: gang MMAs that have come to stand at every head are matched (R277), waits at regroup points that the entry made complete end (R85), teams that can
end do (R86), sleepers of feed queues take what is theirs (R313), and requests of the fabric and the guest that found a fault
buffer full are tried again (R349, R395). -/
def State.close : Host.Outcome State Fault Refusal → Host.Outcome State Fault Refusal
  | .next s => .next s.settleHeads.settleRegroups.settleTeams.wakeAll.retryStalled.retryGuest
  | o => o

/-! ## Placing one word, log 20 -/

/-- A line of three slots, its first a legal target, with its parity bits (R18 to R20). -/
def lineOf (a b c : Nat) : List Byte :=
  let w := 1 + (List.range 3).foldl (fun n i => if parity (nth 0 [a, b, c] i) 0 96 then n + 2 ^ (9 + i) else n) 0 + 2 ^ 14
  leBytes 12 a ++ leBytes 12 b ++ leBytes 12 c ++ leBytes 24 0 ++ leBytes 4 w

/-- Table entries and the code line of one page: virtual 0x10000 of ASID 1, mapped R and X. -/
def codeCells (line : List Byte) : List (Nat × List Byte) :=
  [(0x100000, leBytes 8 0x140001), (0x140000, leBytes 8 0x150001), (0x150000, leBytes 8 0x160001),
   (0x160008, leBytes 8 0x17002B), (0x170000, line)]

/-- Memory with these bytes plain in HBM. -/
def Mem.plain (m : Mem) (xs : List (Nat × List Byte)) : Mem :=
  let st := xs.foldl (fun st x => st.setBytes x.1 x.2) m.phys
  let mine (w : Nat) : Bool := xs.any fun x => decide (x.1 ≤ w ∧ w < x.1 + x.2.length)
  { m with
    phys := { st with unplaced := st.unplaced.filter fun u => !mine u.word },
    tags := xs.foldl (fun t x => t.set 0 (x.1 / 128) 0) m.tags }

/-- The kernel header of the placed team: one group, three extended blocks, 16 barriers, 8 tiles. -/
def KHdr.placed : KHdr := ⟨7, 0x10000, 0, 32, 16, 8, 0x10000, 3, [(1, 3)], 0, 0, 0⟩

/-- The team that issues the placed word: 32 threads of one group in core 0, slot 0. -/
def placedTeam (s : State) (cl : Option Clause) : Team :=
  let t := Team.fresh s.sched.steps ⟨0, 0⟩ 0 (.launch 1) KHdr.placed
  { t with asid := 1, launch := 1, grps := t.grps.map fun g => { g with clause := cl } }

/-- The CLEND and flag that a word written under a flag needs. -/
def placedEnd (w : Slot) : List ClendEntry :=
  match decode w with
  | .ok i =>
    let o := (Raw.ofSlot w).opnds
    if o.fl.isNone then []
    else
      let wide := match rowOf (Raw.ofSlot w) with | some { dst := some d, .. } => (d.ty.getD o.ty).wide | _ => false
      ((written i o).filter fun r => match r with | .v n => !wide || n.val % 2 == 0 | _ => true).map fun r =>
        ⟨r, false, match r with | .v _ => wide | _ => false⟩
  | .error _ => []

/-- The state in which core 0's first quadrant issues the word next. -/
def State.placeWord (s : State) (w : Slot) : State :=
  let fl := (Raw.ofSlot w).opnds.fl
  let hdr (len : Fin 32) : Header := { len := len, seta := fl }
  let cl (len : Fin 32) : Clause := ⟨0x10000, hdr len, 1, List.range 32, List.replicate 3 ⟨0, []⟩, [], [], none, false, false, []⟩
  let z := (encodeClend []).toNat
  let p : List Byte × Option Clause :=
    if isHeader w then (lineOf w.toNat z z, none)
    else if isClend w then (lineOf (encodeHeader (hdr 1)).toNat w.toNat 0, some (cl 1))
    else (lineOf (encodeHeader (hdr 2)).toNat w.toNat (encodeClend (placedEnd w)).toNat, some (cl 2))
  let s' : State := { s with teams := s.teams.filter fun x => x.2.ref.core != 0 }
  { (s'.putTeam (placedTeam s p.2)) with
    mem := { (s.mem.plain (codeCells p.1)) with
      ctxs := s.mem.ctxs.filter (·.asid != 1) ++ [⟨1, 0x100000, 0, 0, false⟩],
      argPages := s.mem.argPages.filter (·.asid != 1),
      icache := s.mem.icache.filter fun e => !(e.core == 0 && e.asid == 1) },
    sched := { s.sched with agenda := .issue 0 0 :: s.sched.agenda } }

end Sys2Proof.Machine
end

