-- ==== Sys2Proof/Machine/Step.lean ====
section
/-! DEFINITION. One step of the part: time passes, then the schedule's next entry is performed; with none, what can issue or land does. -/
namespace Sys2Proof.Machine

def step (s : State) : Host.Outcome State Fault Refusal :=
  let s := s.passTime
  State.close <| match s.sched.agenda with
    | [] => s.idle
    | a :: rest => State.perform { s with sched := { s.sched with agenda := rest } } a

/-- The state with one instruction word placed where the next step issues it (log 20). -/
def State.withFetchWord (s : State) (nbits w : Nat) : State := s.placeWord (BitVec.ofNat 96 (w % 2 ^ nbits))

end Sys2Proof.Machine
end

