-- ==== Sys2Proof/WellFormed.lean ====
section
/-! DEFINITION. Which terms of Instr stand for a word of the part or for one of its steps: the checks of spec/02 R52 that depend on the word alone, and the numbers that the part has. -/
namespace Sys2Proof

/-- A word of the common format passes the checks of orders 3 and 4 (R37 to R49). -/
def WellFormed.word (i : Instr) : Bool :=
  match instrRaw i with
  | some r => (wordCheck r).isNone
  | none => false

/-- The variant of FATOM, FWAIT and FQRY that IMM[3:0] names (R360). -/
def WellFormed.variant : Instr → Bool
  | .fatom o _ v => bits o.imm.toNat 3 0 == match v with | .add => 0 | .cas => 1
  | .fwait o _ v => bits o.imm.toNat 3 0 == match v with | .arr => 0 | .free => 1
  | .fqry o _ v => bits o.imm.toNat 3 0 ==
      match v with | .pod => 0 | .cal => 1 | .back => 2 | .rgn => 3 | .arr => 4 | .err => 5 | .lfsr => 6
  | _ => true

/-- R26. -/
def WellFormed.header (h : Header) : Bool := decide (1 ≤ h.len.val ∧ h.len.val ≤ 24)

/-- R32, R33. -/
def WellFormed.entries (es : List ClendEntry) : Bool := decide (es.length ≤ 6) && es.all ClendEntry.ok

/-- A slot that the package has, R10, R298. -/
def WellFormed.slot (t : TeamRef) : Bool := decide (t.core < 384 ∧ t.slot < 16)

/-- A team's record, R72. -/
def WellFormed.record (t : TeamRef) (rec : Nat) : Bool := WellFormed.slot t && decide (rec < 32)

/-- A member of a pod, R335. -/
def WellFormed.member (n : Nat) : Bool := decide (n < 64)

/-- Numbers in an instruction or a step are those of the part. -/
def WellFormed.numbers : Instr → Bool
  | .regrpWaitTimeout t r | .waitaTimeout t r | .waitaUnmonitoredWake t r | .cpromPromiseTime t r | .matrixCommandAccept t r
  | .qpopSlotReady t r | .fwaitTimeout t r | .gwaitTimeout t r | .groupRetire t r => WellFormed.record t r
  | .sleepWake t tid => WellFormed.slot t && decide (tid < 1024)
  | .successorHandover t | .teamDispatch t _ | .cancelBudgetExpiry t | .bindRecordWrite t _ | .preemptRequest t
  | .preemptBudgetExpiry t | .discardAcknowledged t => WellFormed.slot t
  | .monitorReclaim c _ | .broadcastFirstFetch c _ | .clusterFusionModeSet c _ => decide (c < 48)
  | .denTimerExpiry d => decide (d < 2048)
  | .feedqReserveRead q | .feedqTailWrite q _ | .feedqStatusWrite q _ => decide (q.num < 256)
  | .qcfgWrite q _ | .guestStopTimeout q => decide (q < 64)
  | .guestCompletionRecord q slot _ _ _ => decide (q < 64 ∧ slot < 4096)
  | .invalidation asid _ => decide (asid < 4096)
  | .keyOwnerWrite k _ => decide (k < 4096)
  | .fabricDataWindow _ peer peerPort _ => WellFormed.member peer && decide (peerPort < 8)
  | .fabricRequestArrival ⟨_, p⟩ | .relayRecordArrival ⟨_, p⟩ | .chunkArrival ⟨_, p⟩ | .dropNoticeArrival ⟨_, p⟩ =>
      WellFormed.member p.src && WellFormed.member p.dest && decide (p.part < 32 ∧ p.tc < 4)
  | .skipNoticeArrival src tc part _ => WellFormed.member src.msg && decide (tc < 4 ∧ part < 32)
  | .filterEntryExpiry src _ | .unmatchedArrivalExpiry src _ => WellFormed.member src
  | .chunkSnapshotComplete part _ _ | .collectiveComplete part _ | .collectiveTimeout part _ => decide (part < 32)
  | _ => true

/-- The term stands for a word of the part, or for one of its steps. -/
def WellFormed.ok (i : Instr) : Bool :=
  match i with
  | .clauseHeader h => WellFormed.header h
  | .clend es => WellFormed.entries es
  | i => ((instrRaw i).isNone || WellFormed.word i) && WellFormed.variant i && WellFormed.numbers i

end Sys2Proof
end

