-- ==== Sys2Proof/Safety.lean ====
section
/-! DEFINITION. What counts as a safe run, and the terms in which claims speak of a step: who issues, which registers changed, what stayed. -/
namespace Sys2Proof
open Sys2Proof.Machine

/-! ## The invariant -/

/-- Memory and every team's scratch are in canonical form. -/
def Safety.memory (s : State) : Bool := Memory.wf s.mem.phys && s.teams.all fun x => Memory.wf x.2.scratch

/-- Each partition and each guest queue has its registers, TIME has 64 bits, and there are four dies. -/
def Safety.shape (s : State) : Bool :=
  decide (s.parts.length = 32 ∧ s.guest.queues.length = 64 ∧ s.clock.dies.length = 4 ∧ s.clock.time < 2 ^ 64)

/-- The threads of a team are listed by rising %tid. -/
def Safety.ordered (t : Team) : Bool := decide ((t.threads.map (·.tid)).Pairwise (· < ·))

/-- Each resident team is listed under its own slot, its threads by rising %tid, and each of its records
has twelve completion flags. -/
def Safety.teams (s : State) : Bool :=
  s.teams.all fun x => decide (slotKey x.2.ref = x.1) && Safety.ordered x.2 && x.2.grps.all fun g => decide (g.flags.length = 12)

/-- Invariant of every step. -/
def Safety.inv (s : State) : Bool := Safety.memory s && Safety.shape s && Safety.teams s

/-- A step that neither faults nor refuses. -/
def Safety.goesOn (s : State) : Prop := ∃ t, step s = .next t

/-! ## Who issues -/

/-- Instruction `i` with fields `o` issues for the group of view `v`: checks 5 and 6 of R52 pass and its flag is not
at the limit of R30. -/
def Claim.Issues (s : State) (v : View) (i : Instr) (o : Opnds) : Prop :=
  s.view? = some v ∧ boundCheck v.team v.grp i o = none ∧ flightCheck v.grp v.cl i o = false ∧
    (o.fl.any (fun f => v.grp.flag f == 255) && v.any o) = false

/-! ## What stays -/

/-- `t` differs from `s` at most in the team of slot `r`: memory, the engines, the front end and every other part of the
state are the same. -/
def Claim.OnlyTeam (s t : State) (r : TeamRef) : Prop :=
  t = { s with teams := t.teams } ∧ ∀ k, k ≠ slotKey r → t.teams.find k = s.teams.find k

/-! ## Operands, in terms of the registers alone -/

/-- The value of an IMM operand under a type, as the table of R44 lists it. -/
def Claim.immOperand (imm : BitVec 24) : Ty → Nat
  | .s8 | .u8 => imm.toNat % 2 ^ 8
  | .s16 | .u16 | .f16 | .bf16 => imm.toNat % 2 ^ 16
  | .s32 => (imm.toInt % (2 : Int) ^ 32).toNat
  | .s64 => (imm.toInt % (2 : Int) ^ 64).toNat
  | .u32 | .u64 | .b32 | .b64 => imm.toNat
  | .f32 => imm.toNat * 2 ^ 8
  | .f64 => imm.toNat * 2 ^ 40
  | .f16x2 | .bf16x2 => imm.toNat % 2 ^ 16 * (2 ^ 16 + 1)

/-- The special registers of R41: %tid and %lane of a thread, the others of its group, team and part. -/
def Claim.special (v : View) (th : Option Thread) : Special → Nat
  | .tid => th.elim 0 (·.tid)
  | .lane => th.elim 0 (·.pos)
  | .grp => v.iss.recno
  | .team => v.team.index
  | .tmx => v.team.coord.getD 0 0
  | .tmy => v.team.coord.getD 1 0
  | .tmz => v.team.coord.getD 2 0
  | .ntmx => v.team.coord.getD 3 0
  | .ntmy => v.team.coord.getD 4 0
  | .ntmz => v.team.coord.getD 5 0
  | .core => v.iss.team.core
  | .clu => v.iss.team.core / 8
  | .die => v.iss.team.core / 96
  | .pkg => v.team.pkg
  | .role => v.grp.role
  | .region => v.team.region.toNat
  | .time => v.s.clock.time
  | .fslot => (v.s.clock.time - v.s.fab.epoch) / 520 % v.s.fab.calL
  | .fcyc => (v.s.clock.time - v.s.fab.epoch) / 520 / v.s.fab.calL
  | .warn => v.grp.warn.toNat
  | .trapc => v.grp.trapc.toNat
  | .trapv => v.grp.trapv.toNat
  | .cancel => v.team.cancel.toNat
  | .launch => v.team.launch
  | .part => v.team.part
  | .succ => v.team.succMask.toNat

/-- The operand of a field under a type, R38, R40, R43, R44: the low bits of a register, two registers of a thread under a
64-bit type, a latch, zero, IMM, a special register or a predicate. A per-thread register has no scalar reading. -/
def Claim.operand (v : View) (o : Opnds) (ty : Ty) (sp : Spec) (th : Option Thread) : Nat :=
  match sp, th with
  | .zero, _ => 0
  | .imm, _ => Claim.immOperand o.imm ty
  | .s n, _ => (v.grp.getS n.val).toNat % 2 ^ ty.width
  | .sp r, _ => Claim.special v th r % 2 ^ ty.width
  | .v n, some x => (if ty.width = 64 then (x.getV n.val).toNat + 2 ^ 32 * (x.getV (n.val + 1)).toNat else (x.getV n.val).toNat) % 2 ^ ty.width
  | .c n, some x => (if ty.width = 64 then (x.getC n.val).toNat + 2 ^ 32 * (x.getC (n.val + 1)).toNat else (x.getC n.val).toNat) % 2 ^ ty.width
  | .k n, some x => if n.val = 0 ∨ x.getK n.val = true then 1 else 0
  | .l n, some x => (((v.cl.latches.getD n.val ⟨0, []⟩).vals.get 0 x.tid).toNat) % 2 ^ ty.width
  | .v _, none | .c _, none | .k _, none | .l _, none => 0

/-- A field read once for the group. -/
def Claim.scalar (v : View) (o : Opnds) (ty : Ty) (sp : Spec) : Nat := Claim.operand v o ty sp none

/-- The latches after an instruction at position p: HOLD copies the operand it selects, as read, into l(p mod 3) for every
present thread; the others keep what they hold (R43). -/
def Claim.latches (v : View) (i : Instr) (o : Opnds) : List Latch :=
  let copy (sp : Spec) : Latch :=
    ⟨v.cl.pos, v.present.map fun th => (th.tid, BitVec.ofNat 64 (Claim.operand v o (heldTy i o) sp (some th)))⟩
  (List.range v.cl.latches.length).map fun j =>
    if j = v.cl.pos % 3 then
      match o.hold with
      | .none => v.cl.latches.getD j ⟨0, []⟩
      | .sa => copy o.sa
      | .sb => copy o.sb
      | .sc => copy o.sc
    else v.cl.latches.getD j ⟨0, []⟩

/-- The clause after an instruction: the next position, the latches, the registers its flag will guard (R34) and what it
captured for CLEND. -/
def Claim.clauseAfter (v : View) (i : Instr) (o : Opnds) (term : Option Terminal) : Clause :=
  { v.cl with
    pos := v.cl.pos + 1, latches := Claim.latches v i o, term := term
    writers := v.cl.writers ++ o.fl.elim [] fun f => (written i o).map fun r => (r, f.val) }

/-! ## Registers after writes: the last write of a list to a register counts -/

def Claim.lastV (ws : List RegWrite) (tid n : Nat) (x : W32) : W32 :=
  ws.foldl (fun x w => match w with | .v t m y => if t = tid ∧ m = n then y else x | _ => x) x
def Claim.lastC (ws : List RegWrite) (tid n : Nat) (x : W32) : W32 :=
  ws.foldl (fun x w => match w with | .c t m y => if t = tid ∧ m = n then y else x | _ => x) x
def Claim.lastK (ws : List RegWrite) (tid n : Nat) (x : Bool) : Bool :=
  ws.foldl (fun x w => match w with | .k t m y => if t = tid ∧ m = n then y else x | _ => x) x
def Claim.lastS (ws : List RegWrite) (n : Nat) (x : W64) : W64 :=
  ws.foldl (fun x w => match w with | .s m y => if m = n then y else x | _ => x) x

/-- The write is one of a v register of block k of a thread, whose zero mark it clears (R107). -/
def Claim.inBlock (tid k : Nat) : RegWrite → Bool
  | .v t n _ => t == tid && n / 32 == k
  | _ => false

/-- Of thread `a` only registers changed, as the writes say, and the zero marks of the blocks written; k0 stays true. -/
def Claim.ThreadAfter (ws : List RegWrite) (a b : Thread) : Prop :=
  b = { a with v := b.v, live := b.live, c := b.c, k := b.k } ∧
    (∀ n, b.live.contains n = (a.live.contains n || ws.any (Claim.inBlock a.tid n))) ∧ (∀ n, b.getV n = Claim.lastV ws a.tid n (a.getV n)) ∧
    (∀ n, b.getC n = Claim.lastC ws a.tid n (a.getC n)) ∧
    ∀ n, b.getK n = if n = 0 then true else Claim.lastK ws a.tid n (a.getK n)

/-- Registers in flight after an instruction: with no active thread, those it would write under a flag that others hold
fly with them (R34). -/
def Claim.flight (v : View) (i : Instr) (o : Opnds) : List (Spec × Fin 12) :=
  match o.fl with
  | some f => if v.any o = false ∧ v.grp.flag f ≠ 0 then v.grp.flight ++ (written i o).map fun r => (r, f) else v.grp.flight
  | none => v.grp.flight

/-- Of the issuing record only scalar registers, W0 of %warn, the registers in flight, the clause's progress and its
captured terminal instruction changed. -/
def Claim.GrpAfter (v : View) (i : Instr) (o : Opnds) (ws : List RegWrite) (term : Option Terminal) (b : Grp) : Prop :=
  b = { v.grp with s := b.s, warn := if fallback i then v.grp.warn ||| 1 else v.grp.warn, flight := Claim.flight v i o,
                   clause := some (Claim.clauseAfter v i o term) } ∧
    ∀ n, b.getS n = Claim.lastS ws n (v.grp.getS n)

/-- `t` is `s` after an instruction whose whole effect is the register writes `ws` and the capture of `term` for the
clause's CLEND (R29). -/
def Claim.AfterTerm (s t : State) (v : View) (i : Instr) (o : Opnds) (ws : List RegWrite) (term : Option Terminal) : Prop :=
  Claim.OnlyTeam s t v.iss.team ∧ ∃ b, t.team? v.iss.team = some b ∧
    b = { v.team with threads := b.threads, grps := b.grps } ∧
    b.threads.map (·.tid) = v.team.threads.map (·.tid) ∧
    (∀ th ∈ v.team.threads, ∃ th' ∈ b.threads, Claim.ThreadAfter ws th th') ∧
    (∀ n, n ≠ v.iss.recno → b.grp? n = v.team.grp? n) ∧
    ∃ g, b.grp? v.iss.recno = some g ∧ Claim.GrpAfter v i o ws term g

/-- `t` is `s` after an instruction whose whole effect is the register writes `ws`. -/
def Claim.After (s t : State) (v : View) (i : Instr) (o : Opnds) (ws : List RegWrite) : Prop :=
  Claim.AfterTerm s t v i o ws v.cl.term

/-! ## Results -/

/-- The bit pattern of a register of a thread, or of a pair. -/
def Claim.reg (t : Team) (tid : Nat) (pair : Bool) : Spec → Option Nat
  | .v n => (t.thread? tid).map fun th => pairOf pair th.getV n.val
  | .c n => (t.thread? tid).map fun th => pairOf pair th.getC n.val
  | .k n => (t.thread? tid).map fun th => (th.getK n.val).toNat
  | _ => none

/-- A destination that holds a number. -/
def Claim.keeps : Spec → Bool
  | .v _ | .c _ | .s _ => true
  | _ => false

/-- A destination that holds a truth value: k1 to k7, or a register. -/
def Claim.keepsBit : Spec → Bool
  | .k n => n.val != 0
  | d => Claim.keeps d

/-- The instruction answers a next state in which field `d` holds `x`: of each active thread in a register of its own,
or once in a scalar register when some thread is active. -/
def Claim.Gives (s : State) (v : View) (i : Instr) (o : Opnds) (d : Spec) (pair : Bool) (x : Option Thread → Nat) : Prop :=
  ∃ t b, exec i s = .next t ∧ t.team? v.iss.team = some b ∧
    (∀ th ∈ v.active o, isSReg d = false → Claim.reg b th.tid pair d = some (x (some th))) ∧
    ∀ n, d = .s n → v.any o = true → (b.grp? v.iss.recno).map (·.getS n.val) = some (BitVec.ofNat 64 (x none))

/-! ## Instructions whose whole effect is a register result -/

/-- Fields of an instruction of classes 0x0 to 0x4 that only writes registers, with whether its result is a pair, and the
second field it writes, if any. -/
def Claim.registerOnly : Instr → Option (Opnds × Bool × Option Spec)
  | .vote o _ => some (o, false, none)
  | .ballot o => some (o, o.ty.wide, none)
  | .shuf o _ => some (o, o.ty.wide, none)
  | .push o _ => some (o, o.ty.wide, none)
  | .rank o _ => some (o, false, none)
  | .mov o | .sel o | .movi o _ | .rdl o _ | .srd o _ => some (o, o.ty.wide, none)
  | .rstat o | .kset o _ => some (o, false, none)
  | .add o _ | .sub o _ | .mul o _ | .mulh o _ | .mad o _ | .min o _ | .max o _ | .abs o _ | .neg o _ | .and o _ | .or o _
  | .xor o _ | .not o _ | .shl o _ | .shr o _ | .sar o _ | .rotl o _ | .bfx o _ | .bfi o _ | .popc o _ | .clz o _ | .brev o _
  | .dot4 o _ | .div o _ | .rem o _ | .prmb o _ => some (o, o.ty.wide, none)
  | .addc o _ | .subb o _ => some (o, o.ty.wide, some o.sc)
  | .madw o _ | .lea o _ => some (o, true, none)
  | .cmp o _ | .fcmp o _ | .fclass o _ | .fdot2 o _ => some (o, false, none)
  | .fadd o _ | .fsub o _ | .fmul o _ | .ffma o _ | .fmin o _ | .fmax o _ | .frnd o _ => some (o, o.ty.wide, none)
  | .cvt o m => some (o, m.ty2.wide, none)
  | .qnt o _ => some (o, false, some o.sc)
  | .rcp o _ | .rsq o _ | .sqrt o _ | .exp2 o _ | .log2 o _ | .sin o _ | .cos o _ | .tanh o _ | .divf o _ => some (o, o.ty.wide, none)
  | _ => none

/-- A register write goes to the register, or pair, that a field names. -/
def Claim.inField (pair : Bool) : Spec → RegWrite → Bool
  | .v n, .v _ m _ => m == n.val || (pair && m == n.val + 1)
  | .c n, .c _ m _ => m == n.val || (pair && m == n.val + 1)
  | .k n, .k _ m _ => m == n.val
  | .s n, .s m _ => m == n.val
  | _, _ => false

/-- The thread of a register write is one of a list; a scalar register needs some thread. -/
def Claim.byThread (ths : List Thread) : RegWrite → Bool
  | .v tid _ _ | .c tid _ _ | .k tid _ _ => ths.any (·.tid == tid)
  | .s _ _ => !ths.isEmpty

/-- Threads whose registers an instruction may write: PUSH writes those of receivers, every other its active threads'. -/
def Claim.receivers (v : View) (o : Opnds) : Instr → List Thread
  | .push _ _ => v.present
  | _ => v.active o

end Sys2Proof
end

