-- ==== Sys2Proof/Certificates/Slice0/Obligations.lean ====
section
/-! DEFINITION. Statements for the provers. Each `Obligations.<Name>` is a proposition; the terms `Claim.*` are in Safety.lean. -/
namespace Sys2Proof
open Sys2Proof.Machine

/-! ## Vocabulary of the register results -/

/-- `r` is result(e) of R128 under `ty`: clamped to the range of the type, or the low w bits. -/
def Claim.Narrow (ty : Ty) (sat : Bool) (e : Int) (r : Nat) : Prop :=
  r < 2 ^ ty.width ∧ if sat then Ty.val ty r = min (max e (Ty.minVal ty)) (Ty.maxVal ty) else (r : Int) = e % (2 : Int) ^ ty.width

/-- Operand of a field under TY, as a bit pattern and as val() of R126. -/
def Claim.raw (v : View) (o : Opnds) (sp : Spec) (th : Option Thread) : Nat := Claim.operand v o o.ty sp th
def Claim.val (v : View) (o : Opnds) (sp : Spec) (th : Option Thread) : Int := Ty.val o.ty (Claim.operand v o o.ty sp th)
/-- A field of its own type u32. -/
def Claim.u32 (v : View) (o : Opnds) (sp : Spec) (th : Option Thread) : Nat := Claim.operand v o .u32 sp th

/-- Byte i of a 32-bit value, read as signed or unsigned. -/
def Claim.byteVal (signed : Bool) (x i : Nat) : Int :=
  let y := x / 256 ^ i % 256
  if signed && decide (128 ≤ y) then (y : Int) - 256 else y

/-- The shift count that acts, R139. -/
def Claim.count (ty : Ty) (sat : Bool) (n : Nat) : Nat := if sat then n else n % ty.width

/-- The exact integer x of R132, R134 to R137 and R139, with whether SAT clamps it. -/
def Claim.exactInt (v : View) : Instr → Option (Opnds × Bool × (Option Thread → Int))
  | .add o m => some (o, m.sat, fun th => Claim.val v o o.sa th + Claim.val v o o.sb th)
  | .sub o m => some (o, m.sat, fun th => Claim.val v o o.sa th - Claim.val v o o.sb th)
  | .mul o m => some (o, m.sat, fun th => Claim.val v o o.sa th * Claim.val v o o.sb th)
  | .mulh o _ => some (o, false, fun th => (Claim.val v o o.sa th * Claim.val v o o.sb th) / (2 : Int) ^ o.ty.width)
  | .mad o m => some (o, m.sat, fun th => Claim.val v o o.sa th * Claim.val v o o.sb th + Claim.val v o o.sc th)
  | .madw o m => some (o, m.sat, fun th =>
      (if o.ty = .s64 then sval 32 (Claim.operand v o .s32 o.sa th) * sval 32 (Claim.operand v o .s32 o.sb th)
       else (Claim.u32 v o o.sa th : Int) * (Claim.u32 v o o.sb th : Int)) + Claim.val v o o.sc th)
  | .dot4 o m => some (o, m.sat, fun th =>
      let a := Claim.raw v o o.sa th
      let b := Claim.raw v o o.sb th
      let sg := if m.ty2 = .u8 then false else if m.ty2 = .s8 then true else o.ty.signed
      Claim.byteVal o.ty.signed a 0 * Claim.byteVal sg b 0 + Claim.byteVal o.ty.signed a 1 * Claim.byteVal sg b 1
        + Claim.byteVal o.ty.signed a 2 * Claim.byteVal sg b 2 + Claim.byteVal o.ty.signed a 3 * Claim.byteVal sg b 3
        + Claim.val v o o.sc th)
  | .min o _ => some (o, false, fun th => min (Claim.val v o o.sa th) (Claim.val v o o.sb th))
  | .max o _ => some (o, false, fun th => max (Claim.val v o o.sa th) (Claim.val v o o.sb th))
  | .abs o m => some (o, m.sat, fun th => |Claim.val v o o.sa th|)
  | .neg o m => some (o, m.sat, fun th => -Claim.val v o o.sa th)
  | .shl o m => some (o, m.sat, fun th => Claim.val v o o.sa th * (2 : Int) ^ Claim.count o.ty m.sat (Claim.u32 v o o.sb th))
  | .shr o _ => some (o, false, fun th => (Claim.raw v o o.sa th : Int) / (2 : Int) ^ (Claim.u32 v o o.sb th % o.ty.width))
  | .sar o m => some (o, m.sat, fun th => Claim.val v o o.sa th / (2 : Int) ^ Claim.count o.ty m.sat (Claim.u32 v o o.sb th))
  | _ => none

/-! ## Vocabulary of floating point -/

/-- A type of the floating-point classes: one of four formats, or a pair of one of two. -/
def Claim.packed (ty : Ty) : Bool := ty == .f16x2 || ty == .bf16x2
def Claim.single (ty : Ty) : Bool := ty == .f64 || ty == .f32 || ty == .f16 || ty == .bf16
/-- Element e of a value of a type, R149. -/
def Claim.elem (ty : Ty) (x e : Nat) : Nat := if Claim.packed ty then x / 2 ^ (16 * e) % 2 ^ 16 else x
def Claim.elems (ty : Ty) : Nat := if Claim.packed ty then 2 else 1

/-- Subnormal operands, or results, of a format are flushed: by FZ, else by the control word's bit (R150, R151). -/
def Claim.flushes (v : View) (m : ArithMods) (f : Fmt) (result : Bool) : Bool :=
  match m.fz with
  | .fzn => false
  | .fzo => !result
  | .fza => true
  | .cw => v.team.fpcw.getLsbD ((if f = .f32 then 0 else if f = .f64 then 2 else if f = .f16 then 4 else 6) + result.toNat)

/-- A subnormal or zero keeps only its sign where flushing is on. -/
def Claim.flush (v : View) (m : ArithMods) (f : Fmt) (result : Bool) (x : Nat) : Nat :=
  if Claim.flushes v m f result = true ∧ x / 2 ^ f.mw % 2 ^ f.ew = 0 then x / 2 ^ (f.ew + f.mw) * 2 ^ (f.ew + f.mw) else x

/-- Element e of the operand of a field under TY, after operand flushing. -/
def Claim.fop (v : View) (o : Opnds) (m : ArithMods) (sp : Spec) (th : Option Thread) (e : Nat) : Nat :=
  Claim.flush v m (Fmt.ofTy o.ty) false (Claim.elem o.ty (Claim.raw v o sp th) e)

/-- The value of a finite encoding, R147. The encoding of infinity stands for the next value that the format has not. -/
def Claim.num (f : Fmt) (x : Nat) : ℚ :=
  let ex := x / 2 ^ f.mw % 2 ^ f.ew
  let fr := x % 2 ^ f.mw
  let low : ℤ := 2 - 2 ^ (f.ew - 1) - f.mw
  let y : ℚ := if ex = 0 then fr * (2 : ℚ) ^ low else (2 ^ f.mw + fr) * (2 : ℚ) ^ (low + ex - 1)
  if x.testBit (f.ew + f.mw) then -y else y

/-- `r` is a magnitude, which `cmp` compares with rationals, rounded once to the format under this sign, R152: `k` is the
largest encoding not above it. -/
def Claim.Rounds (f : Fmt) (rnd : Rnd) (neg : Bool) (cmp : ℚ → Ordering) (r : Nat) : Prop :=
  ∃ k, k ≤ f.inf false ∧ cmp (Claim.num f k) ≠ .lt ∧ (k < f.inf false → cmp (Claim.num f (k + 1)) = .lt) ∧
    let mid := (Claim.num f k + Claim.num f (k + 1)) / 2
    let away : Bool := match rnd with | .rn => true | .rz => false | .ru => !neg | .rd => neg
    let mag : Nat :=
      if k = f.inf false then (if away then k else k - 1)
      else
        match rnd with
        | .rn => if cmp mid = .gt ∨ (cmp mid = .eq ∧ k % 2 = 1) then k + 1 else k
        | _ => if away ∧ cmp (Claim.num f k) = .gt then k + 1 else k
    r = mag + neg.toNat * 2 ^ (f.ew + f.mw)

/-- `n` is `q` rounded to an integer in a direction. -/
def Claim.RoundsInt (rnd : Rnd) (q : ℚ) (n : Int) : Prop :=
  match rnd with
  | .rn => |q - n| ≤ 1 / 2 ∧ (|q - n| = 1 / 2 → n % 2 = 0)
  | .rz => |(n : ℚ)| ≤ |q| ∧ |q - n| < 1 ∧ 0 ≤ q * n
  | .ru => q ≤ n ∧ (n : ℚ) < q + 1
  | .rd => (n : ℚ) ≤ q ∧ q < n + 1

/-- A term of a sum: a product of encodings, each with its format, and whether its sign is changed. -/
abbrev Claim.Term := Bool × List (Fmt × Nat)

def Claim.Term.neg (t : Claim.Term) : Bool := t.2.foldl (fun n x => n != x.1.neg x.2) t.1
def Claim.Term.inf (t : Claim.Term) : Bool := t.2.any fun x => x.1.isInf x.2
def Claim.Term.nan (t : Claim.Term) : Bool :=
  t.2.any (fun x => x.1.isNan x.2) || (t.inf && t.2.any fun x => x.1.mag x.2 == 0)
def Claim.Term.num (t : Claim.Term) : ℚ := (if t.1 then -1 else 1) * (t.2.map fun x => Claim.num x.1 x.2).prod

/-- `r` is the sum of the terms in a format, R148, R152, R153: the canonical NaN, an infinity, or the exact sum rounded
once, with the sign of an exact zero. -/
def Claim.SumIs (f : Fmt) (rnd : Rnd) (ts : List Claim.Term) (r : Nat) : Prop :=
  let infs := ts.filter (·.inf)
  let x : ℚ := (ts.map (·.num)).sum
  let same (l : List Claim.Term) : Bool := l.all (·.neg) || l.all (!·.neg)
  if ts.any (·.nan) ∨ same infs = false then r = f.nan
  else if infs ≠ [] then r = f.inf (infs.all (·.neg))
  else
    let neg : Bool := if x = 0 then (if (ts.all fun t => decide (t.num = 0)) && same ts then ts.all (·.neg) else rnd == .rd) else decide (x < 0)
    Claim.Rounds f rnd neg (compare |x|) r

end Sys2Proof

open Sys2Proof Sys2Proof.Machine

/-! ## Registers: classes 0x0 to 0x4 -/

/-- What register n, or a pair, of a thread outside the issue set shows: its value if the thread's record holds the block, or,
of a thread that has ended, held it then; otherwise 0 (R100, R113, R323). -/
def Claim.outside (v : View) (o : Opnds) (th : Thread) (n : Nat) : Nat :=
  let h := if th.run = .exited then th.endH else (v.team.grp? th.recno).elim 0 (·.h)
  if n / 32 ≤ h then (if o.ty.width = 64 then (th.getV n).toNat + 2 ^ 32 * (th.getV (n + 1)).toNat else (th.getV n).toNat) else 0

/-- Thread j is not in the issue set. -/
def Claim.absent (v : View) (j : Nat) : Prop := ∀ u ∈ v.present, u.tid ≠ j

/-- Each of the sixty-four instructions of classes 0x0 to 0x4 that only write registers completes, and changes nothing but registers that its
destination (and for ADDC, SUBB and QNT its SC) names, of its active threads (for PUSH: of present receivers), W0 of its
group's %warn and the clause's position: all memory, every flag, special register and other team stays as it was. -/
def Obligations.RegisterOnlyInstructionsChangeOnlyTheirDestination : Prop :=
  ∀ (s : State) (v : View) (i : Instr) (o : Opnds) (pair : Bool) (sc : Option Spec),
    Claim.registerOnly i = some (o, pair, sc) → Claim.Issues s v i o →
    ∃ t ws, exec i s = .next t ∧ Claim.After s t v i o ws ∧
      ∀ w ∈ ws, Claim.byThread (Claim.receivers v o i) w = true ∧
        (Claim.inField pair o.dst w || sc.any fun d => Claim.inField false d w) = true

/-- R132, R134 to R137, R139: ADD, SUB, MUL, MULH, MAD, MADW, DOT4, MIN, MAX, ABS, NEG, SHL, SHR and SAR write
result(x) of their exact integer. -/
def Obligations.IntegerInstructionsWriteTheirExactResult : Prop :=
  ∀ (s : State) (v : View) (i : Instr) (o : Opnds) (sat : Bool) (e : Option Thread → Int),
    Claim.exactInt v i = some (o, sat, e) → Claim.Issues s v i o → Safety.ordered v.team = true → Claim.keeps o.dst = true →
    ∃ x, Claim.Gives s v i o o.dst o.ty.wide x ∧ ∀ th, Claim.Narrow o.ty sat (e th) (x th)

/-- R133: ADDC and SUBB, with the carry that SC supplies and receives. -/
def Obligations.CarryInstructionsChainTheUnsignedCarry : Prop :=
  ∀ (s : State) (v : View) (o : Opnds) (m : ArithMods) (sub : Bool),
    let i : Instr := if sub then .subb o m else .addc o m
    Claim.Issues s v i o → Safety.ordered v.team = true → Claim.keeps o.dst = true →
    (match o.sc with | .k n => n.val ≠ 0 ∧ isSReg o.dst = false | .s _ => isSReg o.dst = true | _ => False) → o.dst ≠ o.sc →
    ∃ x c, Claim.Gives s v i o o.dst o.ty.wide x ∧ Claim.Gives s v i o o.sc false c ∧
      ∀ th,
        let cin : Int := match o.sc, th with
          | .k n, some y => if y.getK n.val then 1 else 0
          | .s n, _ => ((v.grp.getS n.val).toNat % 2 : Nat)
          | _, _ => 0
        let sg : Int := if sub then -1 else 1
        let u : Int := (Claim.raw v o o.sa th : Int) + sg * (Claim.raw v o o.sb th : Int) + sg * cin
        Claim.Narrow o.ty m.sat (Claim.val v o o.sa th + sg * Claim.val v o o.sb th + sg * cin) (x th) ∧
          c th = if (2 : Int) ^ o.ty.width ≤ u ∨ u < 0 then 1 else 0

/-- R138, R140, R142: AND, OR, XOR, NOT, ROTL, BREV, POPC and CLZ, bit by bit. -/
def Claim.LogicInstructionsActBitByBit : Prop :=
  ∀ (s : State) (v : View) (o : Opnds) (m : ArithMods), Safety.ordered v.team = true → Claim.keeps o.dst = true →
    let w := o.ty.width
    let a := Claim.raw v o o.sa
    let b := Claim.raw v o o.sb
    let gives (i : Instr) (p : Option Thread → Nat → Prop) : Prop :=
      Claim.Issues s v i o → ∃ x, Claim.Gives s v i o o.dst o.ty.wide x ∧ ∀ th, p th (x th)
    gives (.and o m) (fun th x => ∀ j, x.testBit j = ((a th).testBit j && (b th).testBit j)) ∧
    gives (.or o m) (fun th x => ∀ j, x.testBit j = ((a th).testBit j || (b th).testBit j)) ∧
    gives (.xor o m) (fun th x => ∀ j, x.testBit j = ((a th).testBit j != (b th).testBit j)) ∧
    gives (.not o m) (fun th x => ∀ j, x.testBit j = (decide (j < w) && !(a th).testBit j)) ∧
    gives (.rotl o m) (fun th x => ∀ j, x.testBit j = (decide (j < w) && (a th).testBit ((j + w - Claim.u32 v o o.sb th % w) % w))) ∧
    gives (.brev o m) (fun th x => ∀ j, x.testBit j = (decide (j < w) && (a th).testBit (w - 1 - j))) ∧
    gives (.popc o m) (fun th x => x = ((List.range w).filter fun j => (a th).testBit j).length) ∧
    gives (.clz o m) (fun th x => x ≤ w ∧ (∀ j, w ≤ j + x → j < w → (a th).testBit j = false) ∧
      (x < w → (a th).testBit (w - 1 - x) = true))

/-- R141, R143: BFX, BFI and PRMB. -/
def Claim.FieldInstructionsMoveTheirBits : Prop :=
  ∀ (s : State) (v : View) (o : Opnds) (m : ArithMods), Safety.ordered v.team = true → Claim.keeps o.dst = true →
    let w := o.ty.width
    let a := Claim.raw v o o.sa
    let b := Claim.raw v o o.sb
    let pos (th : Option Thread) : Nat := Claim.u32 v o o.sc th % 256
    let n (th : Option Thread) : Nat := if pos th < w then min (Claim.u32 v o o.sc th / 256 % 256) (w - pos th) else 0
    let gives (i : Instr) (p : Option Thread → Nat → Prop) : Prop :=
      Claim.Issues s v i o → ∃ x, Claim.Gives s v i o o.dst o.ty.wide x ∧ ∀ th, p th (x th)
    gives (.bfx o m) (fun th x =>
      (n th = 0 → x = 0) ∧
      (n th ≠ 0 → ∀ j, x.testBit j = if j < n th then (a th).testBit (pos th + j)
        else decide (j < w) && o.ty.signed && (a th).testBit (pos th + n th - 1))) ∧
    gives (.bfi o m) (fun th x => ∀ j, x.testBit j =
      if pos th ≤ j ∧ j < pos th + n th then (b th).testBit (j - pos th) else (a th).testBit j) ∧
    (o.ty = .b32 → gives (.prmb o m) (fun th x => x < 2 ^ 32 ∧ ∀ k < 4,
      let sel := Claim.u32 v o o.sc th / 16 ^ k % 16
      let src := (if sel % 8 < 4 then a th else b th) / 256 ^ (sel % 4) % 256
      x / 256 ^ k % 256 = if sel < 8 then src else if 128 ≤ src then 0xFF else 0))

/-- AND to CLZ, and BFX, BFI and PRMB. -/
def Obligations.LogicAndFieldInstructionsActBitByBit : Prop := Claim.LogicInstructionsActBitByBit ∧ Claim.FieldInstructionsMoveTheirBits

/-- R144, R121: CMP under each condition, and KSET. -/
def Obligations.ComparisonsWritePredicates : Prop :=
  ∀ (s : State) (v : View) (o : Opnds), Safety.ordered v.team = true → Claim.keepsBit o.dst = true →
    let a := Claim.val v o o.sa
    let b := Claim.val v o o.sb
    let both (th : Option Thread) : Prop := ∃ j, (Claim.raw v o o.sa th).testBit j = true ∧ (Claim.raw v o o.sb th).testBit j = true
    (∀ m : ArithMods, Claim.Issues s v (.cmp o m) o → ∃ x, Claim.Gives s v (.cmp o m) o o.dst false x ∧
      ∀ th, x th ≤ 1 ∧ (x th = 1 ↔ match m.cond with
        | 0 => a th = b th | 1 => a th ≠ b th | 2 => a th < b th | 3 => a th ≤ b th | 4 => b th < a th | 5 => b th ≤ a th
        | 6 => both th | 7 => ¬ both th)) ∧
    (∀ op : KsetOp, Claim.Issues s v (.kset o op) o → ∃ x, Claim.Gives s v (.kset o op) o o.dst false x ∧
      ∀ th, x th ≤ 1 ∧
        let p : Prop := Claim.raw v o o.sa th ≠ 0
        let q : Prop := Claim.u32 v o o.sb th ≠ 0
        (x th = 1 ↔ match op with
          | .and => p ∧ q | .or => p ∨ q | .xor => ¬(p ↔ q) | .andn => p ∧ ¬q | .orn => p ∨ ¬q | .nand => ¬(p ∧ q)
          | .nor => ¬(p ∨ q) | .xnor => p ↔ q | .nz => p))

/-- R145, R146: LEA, DIV and REM; a divisor of zero gives all ones, or the dividend, and no fault. -/
def Obligations.AddressAndDivision : Prop :=
  ∀ (s : State) (v : View) (o : Opnds) (m : ArithMods), Safety.ordered v.team = true → Claim.keeps o.dst = true →
    (Claim.Issues s v (.lea o m) o → ∃ x, Claim.Gives s v (.lea o m) o o.dst true x ∧ ∀ th,
      let e : Int := sval 64 (Claim.operand v o .u64 o.sa th) + Ty.val m.ty2 (Claim.operand v o m.ty2 o.sb th) * (2 : Int) ^ (Claim.u32 v o o.sc th % 64)
      x th < 2 ^ 64 ∧ if m.sat then sval 64 (x th) = min (max e (-(2 : Int) ^ 53)) ((2 : Int) ^ 53 - 1) else (x th : Int) = e % (2 : Int) ^ 64) ∧
    (Claim.Issues s v (.div o m) o → ∃ x, Claim.Gives s v (.div o m) o o.dst o.ty.wide x ∧ ∀ th,
      let a := Claim.val v o o.sa th
      let b := Claim.val v o o.sb th
      (b = 0 → x th = 2 ^ o.ty.width - 1) ∧
      (b ≠ 0 → ∃ q r, a = q * b + r ∧ |r| < |b| ∧ 0 ≤ r * a ∧ Claim.Narrow o.ty m.sat q (x th))) ∧
    (Claim.Issues s v (.rem o m) o → ∃ x, Claim.Gives s v (.rem o m) o o.dst o.ty.wide x ∧ ∀ th,
      let a := Claim.val v o o.sa th
      let b := Claim.val v o o.sb th
      (b = 0 → x th = Claim.raw v o o.sa th) ∧
      (b ≠ 0 → ∃ q r, a = q * b + r ∧ |r| < |b| ∧ 0 ≤ r * a ∧ Claim.Narrow o.ty false r (x th)))

/-- R117 to R120, R124, R125: MOV, MOVI, SEL, RDL, RSTAT and SRD. RDL reads a present thread's operand; of a thread that is
not present it reads what a v register shows, and of any other kind 0. That bits 31:24 of RSTAT are a count taken mod 256 is
the model's choice (log 54). -/
def Obligations.MovesWriteTheirSource : Prop :=
  ∀ (s : State) (v : View) (o : Opnds), Safety.ordered v.team = true → Claim.keeps o.dst = true →
    let gives (i : Instr) (pair : Bool) (p : Option Thread → Nat → Prop) : Prop :=
      Claim.Issues s v i o → ∃ x, Claim.Gives s v i o o.dst pair x ∧ ∀ th, p th (x th)
    let old (th : Option Thread) : Nat := match o.dst with | .s n => (v.grp.getS n.val).toNat | d => Claim.operand v o o.ty d th
    gives (.mov o) o.ty.wide (fun th x => x = Claim.raw v o o.sa th) ∧
    gives (.movi o .lo) o.ty.wide (fun _ x => x = if o.ty = .s32 ∨ o.ty = .s64 then (o.imm.toInt % (2 : Int) ^ o.ty.width).toNat else o.imm.toNat) ∧
    (o.ty.width = 64 → gives (.movi o .mid) o.ty.wide (fun th x => ∀ j, x.testBit j =
      if 24 ≤ j ∧ j < 48 then o.imm.toNat.testBit (j - 24) else (old th).testBit j)) ∧
    (o.ty.width = 64 → gives (.movi o .top) o.ty.wide (fun th x => ∀ j, x.testBit j =
      if 48 ≤ j ∧ j < 64 then o.imm.toNat.testBit (j - 48) else (old th).testBit j)) ∧
    (o.ty.width = 32 → gives (.movi o .top) o.ty.wide (fun th x => ∀ j, x.testBit j =
      if 24 ≤ j ∧ j < 32 then o.imm.toNat.testBit (j - 24) else (old th).testBit j)) ∧
    gives (.sel o) o.ty.wide (fun th x => x = if Claim.u32 v o o.sc th ≠ 0 then Claim.raw v o o.sa th else Claim.raw v o o.sb th) ∧
    gives (.rdl o .idx) o.ty.wide (fun _ x =>
      let j := Claim.scalar v o .u32 o.sb
      (v.team.hdr.threads ≤ j → x = 0) ∧
      (j < v.team.hdr.threads → ∀ th ∈ v.present, th.tid = j → x = Claim.raw v o o.sa (some th)) ∧
      (j < v.team.hdr.threads → Claim.absent v j → ∀ th ∈ v.team.threads, th.tid = j →
        (∀ n, o.sa = .v n → x = Claim.outside v o th n.val) ∧ ((∀ n, o.sa ≠ .v n) → x = 0))) ∧
    gives (.rdl o .first) o.ty.wide (fun _ x => ∀ th r, v.active o = th :: r → th.tid < v.team.hdr.threads →
      x = Claim.raw v o o.sa (some th)) ∧
    gives (.rstat o) false (fun _ x => x % 4 = v.grp.h % 4 ∧ x / 4 % 64 = 0 ∧ x / 2 ^ 8 % 256 = v.team.pool % 256 ∧
      x / 2 ^ 16 % 256 = v.team.hdr.xpool % 256 ∧ x / 2 ^ 24 = v.team.grants.length % 256) ∧
    (∀ item, gives (.srd o item) o.ty.wide (fun _ x => x = (match item with
      | .fpcw => v.team.fpcw.toNat | .argp => v.team.argp | .khdr => v.team.khdr | .scr => v.team.hdr.scratch
      | .accs => v.team.hdr.accs | .thr => v.team.hdr.threads | .slot => v.iss.team.slot
      | .dl => v.team.deadline % 2 ^ 48) % 2 ^ o.ty.width))

/-- R98 to R102: VOTE, BALLOT, SHUF, PUSH and RANK. SHUF reads a present thread's operand; of a thread that is not present it
reads what a v register shows, and takes the fill of any other kind. -/
def Obligations.CrossLaneInstructionsExchangeValues : Prop :=
  ∀ (s : State) (v : View) (o : Opnds), Safety.ordered v.team = true → Claim.keepsBit o.dst = true →
    let ths := v.active o
    let src (th : Thread) : Nat := Claim.raw v o o.sa (some th)
    let flag (th : Thread) : Prop := Claim.u32 v o o.sa (some th) ≠ 0
    (∀ m, Claim.Issues s v (.vote o m) o → ∃ x, Claim.Gives s v (.vote o m) o o.dst false (fun _ => x) ∧ x ≤ 1 ∧
      (x = 1 ↔ match m with
        | .all => ∀ th ∈ ths, flag th | .any => ∃ th ∈ ths, flag th | .uni => ∀ a ∈ ths, ∀ b ∈ ths, src a = src b)) ∧
    (Claim.keeps o.dst = true → Claim.Issues s v (.ballot o) o → ∃ x, Claim.Gives s v (.ballot o) o o.dst o.ty.wide (fun _ => x) ∧
      ∀ j, x.testBit j = true ↔ j < o.ty.width ∧ ∃ th ∈ ths, th.tid = Claim.scalar v o .u32 o.sb + j ∧ flag th) ∧
    (∀ m, Claim.keeps o.dst = true → isSReg o.dst = false → Claim.Issues s v (.shuf o m) o →
      ∃ x, Claim.Gives s v (.shuf o m) o o.dst o.ty.wide x ∧ ∀ th : Thread,
        let i := Claim.u32 v o o.sb (some th)
        let j : Int := match m with | .idx => i | .xor => (th.tid ^^^ i : Nat) | .up => th.tid - i | .down => th.tid + i
        (j < 0 ∨ (v.team.hdr.threads : Int) ≤ j → x (some th) = Claim.raw v o o.sc (some th)) ∧
        (0 ≤ j → j < v.team.hdr.threads → ∀ u ∈ v.present, (u.tid : Int) = j → x (some th) = src u) ∧
        (0 ≤ j → j < v.team.hdr.threads → Claim.absent v j.toNat → ∀ u ∈ v.team.threads, (u.tid : Int) = j →
          (∀ n, o.sa = .v n → x (some th) = Claim.outside v o u n.val) ∧
          ((∀ n, o.sa ≠ .v n) → x (some th) = Claim.raw v o o.sc (some th)))) ∧
    (∀ m, Claim.keeps o.dst = true → isSReg o.dst = false → Claim.Issues s v (.push o m) o →
      ∃ t b, exec (.push o m) s = .next t ∧ t.team? v.iss.team = some b ∧ ∀ r ∈ v.present,
        let sends (th : Thread) : Prop := th ∈ ths ∧ Claim.u32 v o o.sb (some th) = r.tid
        let wins (th : Thread) : Prop := sends th ∧ ∀ u, sends u → match m with | .hi => u.tid ≤ th.tid | .lo => th.tid ≤ u.tid
        ((¬ ∃ th, sends th) → Claim.reg b r.tid o.ty.wide o.dst = Claim.reg v.team r.tid o.ty.wide o.dst) ∧
        (∀ th, wins th → Claim.reg b r.tid o.ty.wide o.dst = some (src th))) ∧
    (∀ m, isSReg o.dst = false → Claim.keeps o.dst = true → Claim.Issues s v (.rank o m) o →
      ∃ x, Claim.Gives s v (.rank o m) o o.dst false x ∧ ∀ th ∈ ths,
        let before (a b : Int) : Bool := match m with | .desc => decide (b < a) | .asc => decide (a < b)
        let key (u : Thread) : Int := rankKey o.ty (src u)
        x (some th) = (Claim.u32 v o o.sb (some th) + (ths.countP fun u => decide (u.tid ≠ th.tid) &&
          (before (key u) (key th) || (decide (key u = key th) && decide (u.tid < th.tid))))) % 2 ^ 32)

/-- R148, R149, R151 to R153, R156, R166, R161: FADD, FSUB, FMUL and FFMA, element by element for a packed type; DIVF
and SQRT; FRND. A NaN operand, infinity minus infinity, zero times infinity, 0 / 0, infinity / infinity and the root of
a negative number give the canonical NaN; other infinities and zeros are the standard's; a finite result is the exact
one rounded once in the direction of RND, then flushed. -/
def Obligations.FloatArithmeticRoundsOnce : Prop :=
  ∀ (s : State) (v : View) (o : Opnds) (m : ArithMods), Safety.ordered v.team = true → Claim.keeps o.dst = true →
    (Claim.single o.ty = true ∨ Claim.packed o.ty = true) →
    let f := Fmt.ofTy o.ty
    let a := Claim.fop v o m o.sa
    let b := Claim.fop v o m o.sb
    let c := Claim.fop v o m o.sc
    let gives (i : Instr) (p : Nat → Option Thread → Nat → Prop) : Prop :=
      Claim.Issues s v i o → ∃ x, Claim.Gives s v i o o.dst o.ty.wide x ∧
        ∀ th, x th < 2 ^ o.ty.width ∧ ∀ e < Claim.elems o.ty, p e th (Claim.elem o.ty (x th) e)
    let sum (ts : Nat → Option Thread → List Claim.Term) (e : Nat) (th : Option Thread) (x : Nat) : Prop :=
      ∃ r, Claim.SumIs f m.rnd (ts e th) r ∧ x = Claim.flush v m f true r
    let rounds (neg : Bool) (cmp : ℚ → Ordering) (x : Nat) : Prop :=
      ∃ r, Claim.Rounds f m.rnd neg cmp r ∧ x = Claim.flush v m f true r
    gives (.fadd o m) (sum fun e th => [(false, [(f, a th e)]), (false, [(f, b th e)])]) ∧
    gives (.fsub o m) (sum fun e th => [(false, [(f, a th e)]), (true, [(f, b th e)])]) ∧
    gives (.fmul o m) (sum fun e th => [(false, [(f, a th e), (f, b th e)])]) ∧
    gives (.ffma o m) (sum fun e th => [(false, [(f, a th e), (f, b th e)]), (false, [(f, c th e)])]) ∧
    (Claim.single o.ty = true → gives (.divf o m) (fun e th x =>
      let a := a th e
      let b := b th e
      let neg := f.neg a != f.neg b
      if f.isNan a ∨ f.isNan b ∨ (f.isInf a ∧ f.isInf b) ∨ (f.mag a = 0 ∧ f.mag b = 0) then x = f.nan
      else if f.isInf a ∨ f.mag b = 0 then x = f.inf neg
      else if f.isInf b then x = f.zero neg
      else rounds neg (compare |Claim.num f a / Claim.num f b|) x)) ∧
    (Claim.single o.ty = true → gives (.sqrt o m) (fun e th x =>
      let a := a th e
      if f.isNan a ∨ (f.neg a ∧ f.mag a ≠ 0) then x = f.nan
      else if f.mag a = 0 ∨ f.isInf a then x = a
      else rounds false (fun y => compare (Claim.num f a) (y * y)) x)) ∧
    gives (.frnd o m) (fun e th x =>
      let a := a th e
      if f.isNan a then x = f.nan
      else if f.isInf a ∨ f.mag a = 0 then x = a
      else f.neg x = f.neg a ∧ f.isInf x = false ∧ f.isNan x = false ∧
        ∃ n : Int, Claim.num f x = n ∧ Claim.RoundsInt m.rnd (Claim.num f a) n)

/-- R157: FDOT2, the exact sum of two products of packed elements and an f32 addend, rounded once to f32. -/
def Claim.PackedDotProductRoundsOnce : Prop :=
  ∀ (s : State) (v : View) (o : Opnds) (m : ArithMods), Safety.ordered v.team = true → Claim.keeps o.dst = true →
    Claim.packed o.ty = true → Claim.Issues s v (.fdot2 o m) o →
    ∃ x, Claim.Gives s v (.fdot2 o m) o o.dst false x ∧ ∀ th,
      let f := Fmt.ofTy o.ty
      let c := Claim.flush v m .f32 false (Claim.operand v o .f32 o.sc th)
      let product (e : Nat) : Claim.Term := (false, [(f, Claim.fop v o m o.sa th e), (f, Claim.fop v o m o.sb th e)])
      ∃ r, Claim.SumIs .f32 m.rnd [product 0, product 1, (false, [(Fmt.f32, c)])] r ∧ x th = Claim.flush v m .f32 true r

/-- R158: FMIN and FMAX choose an operand, element by element for a packed type; a NaN gives way to a number, and -0 is
below +0. -/
def Claim.FloatMinimumChoosesAnOperand : Prop :=
  ∀ (s : State) (v : View) (o : Opnds) (m : ArithMods) (isMax : Bool), Safety.ordered v.team = true → Claim.keeps o.dst = true →
    (Claim.single o.ty = true ∨ Claim.packed o.ty = true) →
    let i : Instr := if isMax then .fmax o m else .fmin o m
    let f := Fmt.ofTy o.ty
    Claim.Issues s v i o → ∃ x, Claim.Gives s v i o o.dst o.ty.wide x ∧ ∀ th, x th < 2 ^ o.ty.width ∧ ∀ e < Claim.elems o.ty,
      let a := Claim.fop v o m o.sa th e
      let b := Claim.fop v o m o.sb th e
      let r := Claim.elem o.ty (x th) e
      let pos (y : Nat) : Int := if f.neg y then -1 - (f.mag y : Int) else f.mag y
      (f.isNan a = true → f.isNan b = true → r = f.nan) ∧
      (f.isNan a = true → f.isNan b = false → r = Claim.flush v m f true b) ∧
      (f.isNan a = false → f.isNan b = true → r = Claim.flush v m f true a) ∧
      (f.isNan a = false → f.isNan b = false → ∃ y, (y = a ∨ y = b) ∧ r = Claim.flush v m f true y ∧
        if isMax then pos a ≤ pos y ∧ pos b ≤ pos y else pos y ≤ pos a ∧ pos y ≤ pos b)

/-- R159, R160: FCMP under each condition, and the one bit that FCLASS sets. -/
def Claim.FloatComparisonAndClassification : Prop :=
  ∀ (s : State) (v : View) (o : Opnds) (m : ArithMods), Safety.ordered v.team = true → Claim.keepsBit o.dst = true →
    (o.ty = .f64 ∨ o.ty = .f32 ∨ o.ty = .f16 ∨ o.ty = .bf16) →
    let f := Fmt.ofTy o.ty
    let a (th : Option Thread) : Nat := Claim.fop v o m o.sa th 0
    let b (th : Option Thread) : Nat := Claim.fop v o m o.sb th 0
    let num (y : Nat) : Int := if f.neg y then -(f.mag y : Int) else f.mag y
    (Claim.Issues s v (.fcmp o m) o → ∃ x, Claim.Gives s v (.fcmp o m) o o.dst false x ∧ ∀ th,
      let un : Prop := f.isNan (a th) = true ∨ f.isNan (b th) = true
      x th ≤ 1 ∧ (x th = 1 ↔ match m.cond with
        | 0 => ¬un ∧ num (a th) = num (b th) | 1 => un ∨ num (a th) ≠ num (b th) | 2 => ¬un ∧ num (a th) < num (b th)
        | 3 => ¬un ∧ num (a th) ≤ num (b th) | 4 => ¬un ∧ num (b th) < num (a th) | 5 => ¬un ∧ num (b th) ≤ num (a th)
        | 6 => un | 7 => ¬un)) ∧
    (Claim.keeps o.dst = true → Claim.Issues s v (.fclass o m) o → ∃ x, Claim.Gives s v (.fclass o m) o o.dst false x ∧ ∀ th,
      let sign := (a th).testBit (f.ew + f.mw)
      let ex := a th / 2 ^ f.mw % 2 ^ f.ew
      let fr := a th % 2 ^ f.mw
      x th = 2 ^ (if ex = 2 ^ f.ew - 1 then (if fr = 0 then (if sign then 0 else 7) else if 2 ^ (f.mw - 1) ≤ fr then 9 else 8)
        else if ex = 0 ∧ fr = 0 then (if sign then 3 else 4)
        else if ex = 0 then (if sign then 2 else 5)
        else if sign then 1 else 6))

/-- FMIN, FMAX, FCMP, FCLASS and FDOT2. -/
def Obligations.FloatMinimumComparisonAndClassification : Prop := Claim.PackedDotProductRoundsOnce ∧ Claim.FloatMinimumChoosesAnOperand ∧ Claim.FloatComparisonAndClassification

/-- R162, R163, R164: CVT between every pair of types it converts, integers exactly and floats rounded once; QNT with a
value that is not finite and without SAT, and QNT of values of which one is finite. -/
def Obligations.ConversionsRoundOnce : Prop :=
  ∀ (s : State) (v : View) (o : Opnds) (m : ArithMods), Safety.ordered v.team = true → Claim.keeps o.dst = true →
    let int (ty : Ty) : Prop := Claim.single ty = false ∧ Claim.packed ty = false
    let f := Fmt.ofTy o.ty
    let f2 := Fmt.ofTy m.ty2
    let cvt (p : Option Thread → Nat → Prop) : Prop :=
      Claim.Issues s v (.cvt o m) o → ∃ x, Claim.Gives s v (.cvt o m) o o.dst m.ty2.wide x ∧ ∀ th, p th (x th)
    let narrows (sp : Spec) (th : Option Thread) (x : Nat) : Prop :=
      ∃ r, Claim.SumIs f2 m.rnd [(false, [(f, Claim.flush v m f false (Claim.operand v o o.ty sp th))])] r ∧ x = Claim.flush v m f2 true r
    (int o.ty → int m.ty2 → cvt fun th x => Claim.Narrow m.ty2 m.sat (Claim.val v o o.sa th) x) ∧
    (int o.ty → Claim.single m.ty2 = true → cvt fun th x =>
      let n := Claim.val v o o.sa th
      ∃ r, Claim.Rounds f2 m.rnd (decide (n < 0)) (compare |(n : ℚ)|) r ∧ x = Claim.flush v m f2 true r) ∧
    (Claim.single o.ty = true → Claim.single m.ty2 = true → cvt (narrows o.sa)) ∧
    (o.ty = .f32 → Claim.packed m.ty2 = true → cvt fun th x =>
      x < 2 ^ 32 ∧ narrows o.sa th (x % 2 ^ 16) ∧ narrows o.sb th (x / 2 ^ 16)) ∧
    (Claim.single o.ty = true → int m.ty2 → cvt fun th x =>
      let a := Claim.fop v o m o.sa th 0
      if f.isNan a then x = 0
      else if f.isInf a then
        (m.sat = false → x = 0) ∧ (m.sat = true → Ty.val m.ty2 x = if f.neg a then Ty.minVal m.ty2 else Ty.maxVal m.ty2)
      else ∃ n : Int, Claim.RoundsInt m.rnd (Claim.num f a) n ∧ Claim.Narrow m.ty2 m.sat n x) ∧
    (∀ n, o.sc = .s n → isSReg o.dst = false → o.ty = .f32 → Claim.Issues s v (.qnt o m) o →
      let a (th : Thread) : Nat := Claim.fop v o m o.sa (some th) 0
      let wild (th : Thread) : Bool := Fmt.isNan .f32 (a th) || Fmt.isInf .f32 (a th)
      (m.sat = false → (∃ th ∈ v.active o, wild th = true) →
        Claim.Gives s v (.qnt o m) o o.dst false (fun _ => 0) ∧ Claim.Gives s v (.qnt o m) o o.sc false (fun _ => 0x7FC00000)) ∧
      ∀ top ∈ v.active o, (m.sat = true ∨ ∀ th ∈ v.active o, wild th = false) → wild top = false →
        (∀ th ∈ v.active o, wild th = false → |Claim.num .f32 (a th)| ≤ |Claim.num .f32 (a top)|) →
        ∃ (r : Nat) (x : Option Thread → Int), Claim.Rounds .f32 .rn false (compare (|Claim.num .f32 (a top)| / 127)) r ∧
          let sc := Claim.flush v m .f32 true r
          Claim.Gives s v (.qnt o m) o o.sc false (fun _ => sc) ∧ Claim.Gives s v (.qnt o m) o o.dst false (fun th => (x th).toNat) ∧
          ∀ th ∈ v.active o, ∃ q : Int, x (some th) = q % 256 ∧
            if Fmt.isNan .f32 (a th) ∨ sc = 0 then q = 0
            else if Fmt.isInf .f32 (a th) then q = if Fmt.neg .f32 (a th) then -127 else 127
            else ∃ n, Claim.RoundsInt .rn (Claim.num .f32 (a th) / Claim.num .f32 sc) n ∧ q = min (max n (-127)) 127)

/-- A unit in the last place of a number in f32. -/
def Claim.IsUlp (q u : ℚ) : Prop :=
  ∃ k : ℤ, u = (2 : ℚ) ^ k ∧
    ((-149 ≤ k ∧ (2 : ℚ) ^ (k + 23) ≤ |q| ∧ |q| < (2 : ℚ) ^ (k + 24)) ∨ (k = -149 ∧ |q| < (2 : ℚ) ^ (-126 : ℤ)))

/-- The model's own reference value of function n at a finite operand, to about 2^-115 (log 11). -/
def Claim.reference (n : Nat) (f : Fmt) (a : Nat) : ℚ :=
  match f.decode a with
  | .fin neg m e => (specialExact n neg m e).n * (2 : ℚ) ^ (specialExact n neg m e).e
  | _ => 0

/-- The bound of R167 on an f32 result y of a function at the value a of a finite nonzero operand. That of RCP and RSQ is on
the exact result; of the others, on the reference value. -/
def Claim.Bounded (n : Nat) (ref a y : ℚ) : Prop :=
  match n with
  | 0 => |1 / a| < 2 ^ 128 → ∀ u, Claim.IsUlp (1 / a) u → |y - 1 / a| ≤ u
  | 1 => 0 < a → ∃ k : ℤ, ((2 : ℚ) ^ (k + 23)) ^ 2 * a ≤ 1 ∧
      (y ≤ 2 * (2 : ℚ) ^ k ∨ (y - 2 * (2 : ℚ) ^ k) ^ 2 * a ≤ 1) ∧ 0 ≤ y + 2 * (2 : ℚ) ^ k ∧ 1 ≤ (y + 2 * (2 : ℚ) ^ k) ^ 2 * a
  | 3 => a < 128 → ∀ u, Claim.IsUlp ref u → |y - ref| ≤ 2 * u
  | 4 => 0 < a → if 1 / 2 ≤ a ∧ a ≤ 2 then |y - ref| ≤ (2 : ℚ) ^ (-22 : ℤ) else ∀ u, Claim.IsUlp ref u → |y - ref| ≤ 2 * u
  | 5 | 6 => if |a| ≤ 2 ^ 15 then |y - ref| ≤ (2 : ℚ) ^ (-21 : ℤ) else |y| ≤ 1
  | _ => if |a| < 10 then ∀ u, Claim.IsUlp ref u → |y - ref| ≤ 2 * u else y = if a < 0 then -1 else 1

/-- R167, R168: the values of RCP, RSQ, EXP2, LOG2, SIN, COS and TANH at NaN, the infinities and the zeros; at any other operand
an f32 result within its bound, which for f16 and bf16 is rounded once more. The value within the bound is free, and the bounds
of EXP2, LOG2, SIN, COS and TANH are held to the model's own reference value of the function: the model's choice (log 11). -/
def Obligations.SpecialFunctionsAtSpecialValues : Prop :=
  ∀ (s : State) (v : View) (o : Opnds) (m : ArithMods), Safety.ordered v.team = true → Claim.keeps o.dst = true →
    (o.ty = .f32 ∨ o.ty = .f16 ∨ o.ty = .bf16) →
    let f := Fmt.ofTy o.ty
    let one (neg : Bool) : Nat := (2 ^ (f.ew - 1) - 1) * 2 ^ f.mw + neg.toNat * 2 ^ (f.ew + f.mw)
    let row (i : Instr) (ninf nzero pzero pinf : Nat) : Prop :=
      Claim.Issues s v i o → ∃ x, Claim.Gives s v i o o.dst o.ty.wide x ∧ ∀ th,
        let a := Claim.fop v o m o.sa th 0
        (f.isNan a = true → x th = f.nan) ∧ (a = f.inf true → x th = ninf) ∧ (a = f.zero true → x th = nzero) ∧
          (a = f.zero false → x th = pzero) ∧ (a = f.inf false → x th = pinf)
    let bounded (i : Instr) (n : Nat) : Prop :=
      Claim.Issues s v i o → ∃ x, Claim.Gives s v i o o.dst o.ty.wide x ∧ ∀ th,
        let a := Claim.fop v o m o.sa th 0
        f.isNan a = false → f.isInf a = false → f.mag a ≠ 0 →
          (n ∈ [1, 4] → f.neg a = true → x th = f.nan) ∧
          ((n ∈ [1, 4] → f.neg a = false) → ∃ y r, Fmt.isNan .f32 y = false ∧
            Claim.Bounded n (Claim.reference n f a) (Claim.num f a) (Claim.num .f32 y) ∧
            (if o.ty = .f32 then r = y else Claim.SumIs f .rn [(false, [(Fmt.f32, y)])] r) ∧ x th = Claim.flush v m f true r)
    bounded (.rcp o m) 0 ∧ bounded (.rsq o m) 1 ∧ bounded (.exp2 o m) 3 ∧ bounded (.log2 o m) 4 ∧ bounded (.sin o m) 5 ∧
    bounded (.cos o m) 6 ∧ bounded (.tanh o m) 7 ∧
    row (.rcp o m) (f.zero true) (f.inf true) (f.inf false) (f.zero false) ∧
    row (.rsq o m) f.nan (f.inf true) (f.inf false) (f.zero false) ∧
    row (.exp2 o m) (f.zero false) (one false) (one false) (f.inf false) ∧
    row (.log2 o m) f.nan (f.inf true) (f.inf true) (f.inf false) ∧
    row (.sin o m) f.nan (f.zero true) (f.zero false) f.nan ∧
    row (.cos o m) f.nan (one false) (one false) f.nan ∧
    row (.tanh o m) (one true) (f.zero true) (f.zero false) (one false)

/-! ## Control: class 0x0 and clauses -/

/-- The counter that BRC tests, R90. -/
def Claim.brcCount (v : View) (o : Opnds) : BrcMode → Nat
  | .dec => (Claim.scalar v o .u64 o.sa + (2 ^ 64 - 1)) % 2 ^ 64
  | _ => Claim.scalar v o .u64 o.sa
def Claim.brcTakes (v : View) (o : Opnds) (m : BrcMode) : Bool :=
  match m with | .z => Claim.brcCount v o m == 0 | _ => Claim.brcCount v o m != 0
def Claim.brcWrites (v : View) (o : Opnds) : BrcMode → List RegWrite
  | .dec => regWrite false 0 (Claim.brcCount v o .dec) o.sa
  | _ => []

/-- What a terminal instruction writes at issue and what it captures for its clause's CLEND (R29), with the addresses
that must be legal targets (R21): transfers (R89 to R92), EXIT, BARW, REGRP, SLEEP, YIELD, RCLAIM, CWAIT and CPROM. -/
def Claim.terminalOf (v : View) : Instr → Option (Opnds × List RegWrite × Terminal × List Nat)
  | .bra o => let ts := (v.active o).map fun th => (th.tid, target v.pc o.imm)
      some (o, [], .go ts, ts.map (·.2))
  | .brc o m => let ts := (v.active o).map fun th => (th.tid, target v.pc o.imm)
      if v.any o && Claim.brcTakes v o m then some (o, Claim.brcWrites v o m, .go ts, ts.map (·.2)) else none
  | .bri o | .ret o => let ts := (v.active o).map fun th => (th.tid, Claim.operand v o .u64 o.sa (some th))
      some (o, [], .go ts, ts.map (·.2))
  | .call o => let ts := (v.active o).map fun th => (th.tid, target v.pc o.imm)
      some (o, v.dst o true fun _ => v.following, .go ts, ts.map (·.2))
  | .exit o => some (o, [], .exit ((v.active o).map (·.tid)), [])
  | .barw o b => some (o, [], .bar b.val ((v.active o).map (·.tid)), [])
  | .regrp o => some (o, [], .regrp (if v.any o then v.present.map fun th => (th.tid, if th.active o then Claim.operand v o .u32 o.sa (some th) else 0) else []), [])
  | .sleep o .rel => if v.any o then some (o, [], .sleep (v.s.clock.time + Claim.scalar v o .u32 o.sa) ((v.active o).map (·.tid)), []) else none
  | .sleep o .abs => if v.any o then some (o, [], .sleep (Claim.scalar v o .u64 o.sa) ((v.active o).map (·.tid)), []) else none
  | .yield o => some (o, [], .yield ((v.active o).map (·.tid)), [])
  | .rclaim o n =>
      if v.any o && decide (v.grp.h + n.val ≤ 3 ∧ n.val ≤ v.team.hdr.xpool ∧ n.val ≠ 0)
      then some (o, [], .wait (.claim n.val) (v.present.map (·.tid)), []) else none
  | .cwait o _ => some (o, [], .wait (.chunks (trkOf o) (v.mask o)) ((v.active o).map (·.tid)), [])
  | .cprom o _ => some (o, [], .wait (.promise (trkOf o) (v.mask o) 0) ((v.active o).map (·.tid)), [])
  | _ => none

/-- A terminal instruction completes at its position when its targets are legal: it writes what its entry says and is
captured; nothing else changes before the clause's CLEND.
That REGRP captures every present thread, an inactive one with key 0, and none when no thread is active, is the model's choice
(log 37). -/
def Obligations.TerminalInstructionsAreCapturedForClend : Prop :=
  ∀ (s : State) (v : View) (i : Instr) (o : Opnds) (ws : List RegWrite) (T : Terminal) (targets : List Nat),
    Claim.terminalOf v i = some (o, ws, T, targets) → Claim.Issues s v i o →
    (∀ x ∈ targets, s.landing v.iss.team.core v.team.asid x = none) →
    ∃ t, exec i s = .next t ∧ Claim.AfterTerm s t v i o ws (some T)

/-- NOP, a BRC that is not taken, and RGIVE and RCLAIM of no block only let the clause go on; BRC still counts. MEET gives
its active threads a meeting point in a new set, or takes it from them; a set whose point is no header holds no thread (R80).
That an address whose line cannot be fetched counts as a header here is the model's choice (log 54). -/
def Claim.StraightInstructionsLetTheClauseGoOn : Prop :=
  ∀ (s : State) (v : View) (o : Opnds),
    (Claim.Issues s v (.nop o) o → ∃ t, exec (.nop o) s = .next t ∧ Claim.After s t v (.nop o) o []) ∧
    (∀ m, v.any o = true → Claim.brcTakes v o m = false → Claim.Issues s v (.brc o m) o →
      ∃ t, exec (.brc o m) s = .next t ∧ Claim.After s t v (.brc o m) o (Claim.brcWrites v o m)) ∧
    (Claim.Issues s v (.rgive o 0) o → ∃ t, exec (.rgive o 0) s = .next t ∧ Claim.After s t v (.rgive o 0) o []) ∧
    (v.grp.h ≤ 3 → Claim.Issues s v (.rclaim o 0) o → ∃ t, exec (.rclaim o 0) s = .next t ∧ Claim.After s t v (.rclaim o 0) o []) ∧
    (∀ m, v.any o = true → Safety.ordered v.team = true → Claim.Issues s v (.meet o m) o →
      ∃ t b, exec (.meet o m) s = .next t ∧ Claim.OnlyTeam s t v.iss.team ∧ t.team? v.iss.team = some b ∧
        b = { v.team with threads := b.threads, grps := b.grps, msets := b.msets } ∧
        ∀ th ∈ v.team.threads, b.thread? th.tid = some
          (if (v.active o).any (·.tid == th.tid) then
            match m with
            | .set => { th with meet := target v.pc o.imm, mset := v.team.msets.length + 1 }
            | .clr => { th with meet := 0 }
           else th) ∧
          b.msets = match m with
            | .set => v.team.msets ++ [⟨v.team.msets.length + 1, target v.pc o.imm, (v.active o).map (·.tid),
                (s.peek v.iss.team.core v.team.asid (target v.pc o.imm)).any fun w => !isHeader w⟩]
            | .clr => v.team.msets)

/-- The barrier's phase is complete, where so many ended threads had not arrived in it (R96). -/
def Claim.barFull (threads : Nat) (missing : Nat → Nat) (b : Barrier) : Bool :=
  match b.exp with
  | none => false
  | some 0 => decide (b.arr + missing b.phase = threads)
  | some e => decide (e ≤ b.arr)

/-- Completion of a phase, if it is complete: the carried arrivals count towards the next. -/
def Claim.barNext (threads : Nat) (missing : Nat → Nat) (b : Barrier) : Barrier :=
  if Claim.barFull threads missing b then ⟨b.phase + 1, b.carry.length, b.carry.head?.map (·.2), []⟩ else b

/-- One thread's arrival with its count: the barrier and each thread's pending phase after it. -/
def Claim.barArrive (threads : Nat) (missing : Nat → Nat) (x : Barrier × (Nat → Option Nat)) (tid count : Nat) :
    Barrier × (Nat → Option Nat) :=
  let p := if x.2 tid = some x.1.phase then x.1.phase + 1 else x.1.phase
  let b : Barrier := if p = x.1.phase then { x.1 with exp := some (x.1.exp.getD count), arr := x.1.arr + 1 }
    else { x.1 with carry := x.1.carry ++ [(tid, count)] }
  (Claim.barNext threads missing (Claim.barNext threads missing b), fun t => if t = tid then some p else x.2 t)

/-- R95, R96: the active threads arrive at a barrier one after the other, by ascending %tid. An arrival of a thread that has
arrived in the current phase is carried to the next; a phase whose expected count is met completes, the carried arrivals count
towards the next phase, and it is tested in turn; the threads that waited for a phase that is complete wake, and no other.
BAR also captures the wait. That the arrivals of a BAR count at its issue, before CLEND, is the model's choice (log 41). -/
def Claim.BarrierArrivalsInOrder : Prop :=
  ∀ (s : State) (v : View) (o : Opnds) (bid : Fin 16) (wait : Bool),
    let i : Instr := if wait then .bar o bid else .bara o bid
    let old := nth ⟨0, 0, none, []⟩ v.team.bars bid.val
    let pend (th : Thread) : Option Nat := th.pend.get none bid.val
    let fin := (v.active o).foldl (fun x th =>
      Claim.barArrive v.team.hdr.threads (v.team.exitedMissing bid.val) x th.tid (Claim.u32 v o o.sa (some th)))
      (old, fun tid => (v.team.thread? tid).bind pend)
    Claim.Issues s v i o → Safety.ordered v.team = true → bid.val < v.team.bars.length → (∀ th ∈ v.active o, th.run = .runnable) →
    ∃ t b g, exec i s = .next t ∧ Claim.OnlyTeam s t v.iss.team ∧ t.team? v.iss.team = some b ∧ b.grp? v.iss.recno = some g ∧
      g.clause.bind (·.term) = (if wait then some (.bar bid.val ((v.active o).map (·.tid))) else v.cl.term) ∧
      nth ⟨0, 0, none, []⟩ b.bars bid.val = fin.1 ∧
      (∀ k, k ≠ bid.val → nth ⟨0, 0, none, []⟩ b.bars k = nth ⟨0, 0, none, []⟩ v.team.bars k) ∧
      (∀ th ∈ v.active o, (b.thread? th.tid).bind pend = fin.2 th.tid) ∧
      ∀ th ∈ v.team.threads, th.run = .suspended (.bar bid.val) → th.meet = 0 →
        b.thread? th.tid = some (if old.phase < fin.1.phase ∧ (pend th).any (fun p => decide (p < fin.1.phase))
          then { th with run := .runnable, age := s.sched.steps } else th)

/-- R95, R96: one thread's arrival at a barrier. It counts towards the current phase; the arrival that meets the expected
count completes the phase, and one that does not leaves it pending. BAR also captures the wait, and counts at its issue (log 41). -/
def Claim.BarrierArrivalCompletesItsPhase : Prop :=
  ∀ (s : State) (v : View) (o : Opnds) (bid : Fin 16) (th : Thread) (wait : Bool),
    let i : Instr := if wait then .bar o bid else .bara o bid
    let old := nth ⟨0, 0, none, []⟩ v.team.bars bid.val
    let e := old.exp.getD (Claim.u32 v o o.sa (some th))
    let full : Prop := if e = 0 then old.arr + 1 + v.team.exitedMissing bid.val old.phase = v.team.hdr.threads else e ≤ old.arr + 1
    Claim.Issues s v i o → v.active o = [th] → Safety.ordered v.team = true → bid.val < v.team.bars.length → th.run ≠ .exited →
    th.pend.get none bid.val ≠ some old.phase → old.carry = [] → v.team.msets = [] →
    ∃ t b g, exec i s = .next t ∧ Claim.OnlyTeam s t v.iss.team ∧ t.team? v.iss.team = some b ∧ b.grp? v.iss.recno = some g ∧
      g.clause.bind (·.term) = (if wait then some (.bar bid.val [th.tid]) else v.cl.term) ∧
      (b.thread? th.tid).map (·.pend.get none bid.val) = some (some old.phase) ∧
      (full → nth ⟨0, 0, none, []⟩ b.bars bid.val = ⟨old.phase + 1, 0, none, []⟩) ∧
      (¬ full → nth ⟨0, 0, none, []⟩ b.bars bid.val = ⟨old.phase, old.arr + 1, some e, []⟩) ∧
      ∀ k, k ≠ bid.val → nth ⟨0, 0, none, []⟩ b.bars k = nth ⟨0, 0, none, []⟩ v.team.bars k

/-- A thread that wakes at the header where it stands, where no meeting set holds it. -/
def Claim.freed (now : Nat) (th : Thread) : Thread :=
  { th with run := .runnable, meet := if th.meet = th.pc then 0 else th.meet, age := now }

/-- R96: the EXIT of a clause completes a barrier's phase, when its expected count is of every thread and each that has not arrived
in the phase has now ended; the carried arrivals count towards the next, which is tested in turn. The threads that waited for a phase
that is complete wake, and no thread besides the clause's changes. -/
def Claim.ExitCompletesBarrierPhases : Prop :=
  ∀ (s : State) (v : View) (es : List ClendEntry) (tids : List Nat), Claim.Issues s v (.clend es) {} → Safety.ordered v.team = true →
    v.cl.term = some (.exit tids) → v.team.ending = none → v.team.msets = [] → (∀ g ∈ v.team.grps, g.mq = []) →
    (∀ th ∈ v.present, th.run = .runnable) →
    let old (k : Nat) : Barrier := nth ⟨0, 0, none, []⟩ v.team.bars k
    let missing (k phase : Nat) : Nat := v.team.threads.countP fun th =>
      (th.run == .exited || tids.contains th.tid) && (th.pend.get none k).all fun p => decide (p < phase)
    let next (k : Nat) : Barrier := Claim.barNext v.team.hdr.threads (missing k) (old k)
    let fin (k : Nat) : Barrier := Claim.barNext v.team.hdr.threads (missing k) (next k)
    ∃ t b, exec (.clend es) s = .next t ∧ Claim.OnlyTeam s t v.iss.team ∧ t.team? v.iss.team = some b ∧ b.bars.length = v.team.bars.length ∧
      (∀ k < v.team.bars.length, nth ⟨0, 0, none, []⟩ b.bars k = fin k) ∧
      ∀ th ∈ v.team.threads, th.tid ∉ v.cl.issue → th.tid ∉ tids →
        b.thread? th.tid = some (match th.run with
          | .suspended (.bar k) =>
            if k < v.team.bars.length ∧ (old k).phase < (fin k).phase ∧ (th.pend.get none k).any (fun p => decide (p < (fin k).phase)) = true
            then Claim.freed s.sched.steps th else th
          | _ => th)

/-- One arrival, several in their order, and what EXIT completes. -/
def Obligations.BarrierArrivalsCompletePhases : Prop :=
  Claim.BarrierArrivalCompletesItsPhase ∧ Claim.BarrierArrivalsInOrder ∧ Claim.ExitCompletesBarrierPhases

/-- R112, R122: RGIVE returns a record's top blocks to the pool; their registers read zero afterwards. -/
def Claim.RgiveReturnsBlocksToThePool : Prop :=
  ∀ (s : State) (v : View) (o : Opnds) (n : Fin 4), Claim.Issues s v (.rgive o n) o → v.any o = true → n.val ≠ 0 → n.val ≤ v.grp.h →
    (∀ x ∈ v.grp.flight, ∀ k, x.1 = .v k → k.val < 32 * (v.grp.h - n.val) + 32 ∨ 32 * v.grp.h + 31 < k.val) → v.team.grants = [] →
    ∃ t b g, exec (.rgive o n) s = .next t ∧ Claim.OnlyTeam s t v.iss.team ∧ t.team? v.iss.team = some b ∧
      b = { v.team with threads := b.threads, grps := b.grps, pool := v.team.pool + n.val } ∧
      b.grp? v.iss.recno = some g ∧ g.h = v.grp.h - n.val ∧
      ∀ th ∈ b.threads, th.recno = v.iss.recno → th.run ≠ .exited →
        ∀ k, 32 * (v.grp.h - n.val) + 32 ≤ k → k ≤ 32 * v.grp.h + 31 → th.getV k = 0

/-- What only lets the clause go on, and RGIVE. -/
def Obligations.StraightInstructionsAndRgive : Prop := Claim.StraightInstructionsLetTheClauseGoOn ∧ Claim.RgiveReturnsBlocksToThePool

/-- R27, R74, R75, R85, R264: what a header waits for. A group starts the clause at its chosen PC when it has none, is not parked or
stalled, has every flag that WAIT names clear, with RGP all twelve, and has room in its queue for the matrix commands of the clause, of
which a ninth waits for none. The chosen PC is the oldest of those that its runnable threads have and at which it waits for no
regrouping, and of equal age the lowest. -/
def Claim.HeadersWaitFor : Prop :=
  (∀ (s : State) (a : Team) (g : Grp) (pc : Nat) (h : Header), g.flags.length = 12 →
    let commands := (List.range h.len.val).countP fun p => (s.peek a.ref.core a.asid (slotAddr pc (p + 1))).any fun w =>
      decide (0x201 ≤ (Raw.ofSlot w).op.toNat ∧ (Raw.ofSlot w).op.toNat ≤ 0x207)
    (s.ready a g pc h = true ↔ a.ending = none ∧ g.retired = false ∧ g.clause = none ∧ g.park = none ∧ g.stall = none ∧
      (∀ f : Fin 12, h.rgp = true ∨ h.wait.getLsbD f.val = true → g.flag f = 0) ∧ min commands 8 + g.mq.length ≤ 8)) ∧
  ∀ (a : Team) (n pc : Nat),
    let here (th : Thread) : Prop := th ∈ a.threads ∧ th.recno = n ∧ th.run = .runnable ∧
      (a.grp? n).any (fun g => g.marks.any (·.head == th.pc)) = false
    (a.choosePC n = some pc ↔ (∃ th, here th ∧ th.pc = pc) ∧
      ∀ u, here u → ∃ th, here th ∧ th.pc = pc ∧ (th.age < u.age ∨ (th.age = u.age ∧ pc ≤ u.pc))) ∧
    (a.choosePC n = none ↔ ∀ u, ¬ here u)

/-- R75: which ready group of a quadrant starts its clause next. One passed over 64 times, of those the lowest record; else, of those
that did not yield, if there are any, the one whose clause became ready first, and of these the lowest record. A clause becomes ready
when the last of these has come: a thread at its PC, the end of a wait for regrouping there, the end of the group's last clause, the
flags it waits for, and room for its matrix commands. Each clause start counts as a pass of every other group that is ready there, and
ends the rank of those that yielded. Of groups of two teams that tie in all of this, which starts is the schedule's (log 1). -/
def Claim.IssueSelection : Prop :=
  (∀ (s : State) (core quad : Nat) (ready : List (Team × Grp)), (s.nextGroup core quad ready = none ↔ ready = []) ∧
    ∀ x, s.nextGroup core quad ready = some x → x ∈ ready ∧
      let since (y : Team × Grp) : Nat := s.readySince y.1 y.2
      ((∃ y ∈ ready, 64 ≤ y.2.passes) → 64 ≤ x.2.passes ∧ ∀ y ∈ ready, 64 ≤ y.2.passes → x.2.recno ≤ y.2.recno) ∧
      ((∀ y ∈ ready, y.2.passes < 64) → ((∃ y ∈ ready, y.2.youngest = false) → x.2.youngest = false) ∧
        ∀ y ∈ ready, y.2.youngest = x.2.youngest → since x < since y ∨ (since x = since y ∧ x.2.recno ≤ y.2.recno))) ∧
  (∀ (s s1 : State) (a : Team) (g : Grp) (pc : Nat) (h : Header), a.choosePC g.recno = some pc → s.headAt a g = .start h s1 →
    let need := s.matrixNeed a.ref.core a.asid pc h.len.val
    ∀ n, s.readySince a g ≤ n ↔
      (∃ th ∈ a.threads, th.recno = g.recno ∧ th.run = .runnable ∧ th.pc = pc ∧ th.age ≤ n) ∧
      g.waited.get 0 pc ≤ n ∧ g.endedAt ≤ n ∧
      (∀ f < 12, h.rgp = true ∨ h.wait.getLsbD f = true → g.clearAt.getD f 0 ≤ n) ∧
      (need ≠ 0 → g.freedAt.getD (8 - need - g.mq.length) 0 ≤ n)) ∧
  ∀ (s : State) (all ready : List (Team × Grp)) (i : Issuer) (x : Team × Grp) (a : Team) (g : Grp),
    (all.map fun y => (slotKey y.1.ref, y.2.recno)).Nodup → x ∈ all → s.team? x.1.ref = some a → a.grp? x.2.recno = some g →
    (s.passOver all ready i).grp? ⟨x.1.ref, x.2.recno⟩ = some
      (if x.1.ref ≠ i.team ∨ x.2.recno ≠ i.recno then { g with youngest := false, passes := g.passes + (ready.any fun y => y.1.ref == x.1.ref && y.2.recno == x.2.recno).toNat }
       else g)

/-- R25, R27, R82: a group that is ready starts the clause at its header: its runnable threads there are the issue set, at
position 1, and their keys are spent; what temporaries and latches hold before the clause writes them is open (log 50). At a
header with RGP the part may first compact the group with others of its pool, by a choice that is open (log 3): their threads are
packed in the order of keys and then of %tid, 32 to a record, every other thread keeps its place, and the clause starts for those
that the record then holds there, if it holds any. A group that is not ready waits. The lines that the core fetched may stay in
its instruction cache. -/
def Claim.HeaderStartsItsClause : Prop :=
  ∀ (s : State) (k : Issuer) (a : Team) (g : Grp) (pc : Nat) (h : Header),
    s.sched.cur = some k → s.team? k.team = some a → a.grp? k.recno = some g → a.choosePC k.recno = some pc →
    (s.ready a g pc h = false → exec (.clauseHeader h) s = .next s) ∧
    (s.ready a g pc h = true → h.rgp = true → (∀ x ∈ a.grps, ∀ c, x.mq.head? = some c → c.members.length ≤ 1) → Safety.ordered a = true →
      (a.grps.map (·.recno)).Pairwise (· < ·) →
      ∃ t b g' recs, exec (.clauseHeader h) s = .next t ∧ t = { s with teams := t.teams, mem := { s.mem with icache := t.mem.icache } } ∧
        (∀ j, j ≠ slotKey k.team → t.teams.find j = s.teams.find j) ∧ t.team? k.team = some b ∧ b.grp? k.recno = some g' ∧
        (recs = [] ∨ k.recno ∈ recs) ∧ recs.Pairwise (· < ·) ∧
        (∀ n ∈ recs, n ∈ a.poolOf pc k.recno ∧ ∀ th ∈ a.threads, th.recno = n → th.run ≠ .exited → th.keyed = false) ∧
        (let movers := a.threads.filter fun th => recs.contains th.recno && th.run != .exited
         ∀ th ∈ a.threads,
          let rank := movers.countP fun u => decide (u.key < th.key ∨ (u.key = th.key ∧ u.tid < th.tid))
          (b.thread? th.tid).map (fun th' => (th'.recno, th'.pos)) =
            some (if th ∈ movers then (nth 0 recs (rank / 32), rank % 32) else (th.recno, th.pos))) ∧
        let here := b.threads.filter fun th => th.recno == k.recno && th.run == .runnable && th.pc == pc
        (here = [] → g'.clause = none) ∧
        (here ≠ [] → ∃ latches lines, g'.clause = some ⟨pc, h, 1, here.map (·.tid), latches, lines, [], none, false, false, []⟩)) ∧
    (s.ready a g pc h = true → h.rgp = false →
      (∀ x ∈ a.grps, ∀ c, x.mq.head? = some c → ∀ n ∈ c.members, (a.grp? n).any (·.retired) = false) → Safety.ordered a = true →
      let set := (a.runnable k.recno).filter (·.pc == pc)
      ∃ t b g' latches lines, exec (.clauseHeader h) s = .next t ∧
        t = { s with teams := t.teams, mem := { s.mem with icache := t.mem.icache } } ∧
        (∀ j, j ≠ slotKey k.team → t.teams.find j = s.teams.find j) ∧ t.team? k.team = some b ∧ b.grp? k.recno = some g' ∧ g'.passes = 0 ∧ g'.youngest = false ∧ g'.flags = g.flags ∧ g'.s = g.s ∧
        g'.clause = some ⟨pc, h, 1, set.map (·.tid), latches, lines, [], none, false, false, []⟩ ∧ latches.length = 3 ∧
        ∀ th ∈ a.threads, ∃ c, b.thread? th.tid = some (if th ∈ set then { th with c := c, key := 0, keyed := false } else th))

/-- A header starts its clause when its group is ready; what it waits for, and which group of a quadrant starts next. -/
def Obligations.HeaderStartsAClauseWhenTheGroupIsReady : Prop := Claim.HeaderStartsItsClause ∧ Claim.HeadersWaitFor ∧ Claim.IssueSelection

/-- Where a thread present in a clause stands after its CLEND, by the captured terminal instruction. -/
def Claim.afterClend (v : View) (b : Team) (th th' : Thread) : Prop :=
  let on (pc : Nat) (run : Run) : Prop := th' = { th with pc := pc, run := run, age := th'.age }
  let onward : Prop := on v.following .runnable
  match v.cl.term with
  | none => onward
  | some (.go ts) => (∀ x ∈ ts, x.1 = th.tid → on x.2 .runnable) ∧ ((∀ x ∈ ts, x.1 ≠ th.tid) → onward)
  | some (.exit tids) => if th.tid ∈ tids then th' = { th with run := .exited, endH := v.grp.h } else onward
  | some (.bar bid tids) => if th.tid ∈ tids ∧ v.team.barPending bid th.tid = true then th' = { th with pc := v.following, run := .suspended (.bar bid) } else onward
  | some (.sleep wake tids) => if th.tid ∈ tids ∧ v.s.clock.time < wake then th' = { th with pc := v.following, run := .suspended (.sleep wake) } else onward
  | some (.yield _) => onward
  | some (.regrp keys) =>
      match keys.find? (·.1 == th.tid) with
      | some x => th' = { th with pc := v.following, run := .suspended (.regrp v.following), key := x.2, keyed := true } ∧
          ∃ g, b.grp? v.iss.recno = some g ∧ ∃ m ∈ g.marks, m.head = v.following
      | none => onward
  | some (.wait (.claim n) tids) => v.team.grants = [] → n ≤ v.team.pool → th.tid ∈ tids → tids = v.present.map (·.tid) →
      th.recno = v.iss.recno → onward ∧ v.team.pool = b.pool + n
  | some (.wait (.chunks trk m) tids) => (v.team.tracker trk).covers m = false → tids ≠ [] →
      if th.tid ∈ tids then th' = { th with pc := v.following, run := .suspended (.wait v.s.sched.steps) } else onward
  | some _ => True

/-- R24, R29, R34, R79, R94: CLEND ends the clause. Every present thread stands where the clause's terminal instruction
sends it, at the following header, or where it ended, sleeps or waits to regroup; an entry that no instruction of the clause
wrote goes in flight while its flag is set; memory and every other team stay as they were. CPROM's wait is below, in
`PromiseWaitsBeginAtClend`. That an entry flies only while its flag is set is the model's choice (log 36), and so is that REGRP suspends
every thread it captured, an inactive one with key 0 (log 37). -/
def Obligations.ClendEndsTheClause : Prop :=
  ∀ (s : State) (v : View) (es : List ClendEntry), Claim.Issues s v (.clend es) {} → Safety.ordered v.team = true →
    v.team.ending = none → v.team.msets = [] → (∀ th ∈ v.present, th.meet = 0) → (∀ g ∈ v.team.grps, g.mq = []) →
    (match v.cl.term with
      | some (.go ts) => (ts.map (·.1)).Pairwise (· < ·)
      | some (.resume _) | some (.waita ..) | some (.wait (.promise ..) _) | some (.wait (.pop ..) _)
      | some (.wait (.fab ..) _) | some (.wait (.guest ..) _) | some (.wait (.monitor ..) _) => False
      | _ => True) →
    ∃ t b g, exec (.clend es) s = .next t ∧ Claim.OnlyTeam s t v.iss.team ∧ t.team? v.iss.team = some b ∧
      b.grp? v.iss.recno = some g ∧ g.clause = none ∧
      (∀ r f, (r, f) ∈ g.flight ↔ (r, f) ∈ v.grp.flight ∨ (v.grp.flag f ≠ 0 ∧ (r, f.val) ∉ v.cl.writers ∧
        ∃ e ∈ es, ClendEntry.flag e v.cl.hdr = some f ∧ r ∈ entryRegs e)) ∧
      ∀ th ∈ v.present, ∃ th', b.thread? th.tid = some th' ∧ Claim.afterClend v b th th'

/-- `b` is `a` after the pool of `g` at the regroup point `h` was compacted: every live thread of the pool goes, by key and then by
%tid, to the place that is its rank, 32 to a record, and one that REGRP suspended is runnable there; no other thread, and nothing else
of a thread, changes. Each record that holds threads takes the OR of the pool's %warn and waits there no longer, each other record of
the pool retires and returns its blocks, and all else stays. Where a record gains bounds of FENCEs with the threads it gains,
they stand after its own (log 5). -/
def Claim.Compacted (now : Nat) (a b : Team) (pool : List Nat) (h : Nat) : Prop :=
  let movers := a.threads.filter fun th => pool.contains th.recno && th.run != .exited
  let full := (movers.length + 31) / 32
  let blocks (n : Nat) : Nat := (a.grp? n).elim 0 (·.h)
  b = { a with threads := b.threads, grps := b.grps, pool := a.pool + ((pool.drop full).map blocks).sum } ∧
    (∀ th ∈ a.threads,
      let rank := movers.countP fun u => decide (u.key < th.key ∨ (u.key = th.key ∧ u.tid < th.tid))
      let x := if th.run = .suspended (.regrp h) then Claim.freed now th else th
      b.thread? th.tid = some (if th ∈ movers then { x with recno := nth 0 pool (rank / 32), pos := rank % 32 } else th)) ∧
    (∀ n, n ∉ pool → b.grp? n = a.grp? n) ∧
    ∀ n ∈ pool, ∀ x, a.grp? n = some x → ∃ y, b.grp? n = some y ∧
      (n ∉ pool.take full → y = { x with retired := true, marks := [], h := 0 }) ∧
      (n ∈ pool.take full → y = { x with warn := y.warn, marks := x.marks.filter (·.head != h), bounds := y.bounds, waited := y.waited } ∧
        y.bounds.take x.bounds.length = x.bounds ∧
        ∀ k < 32, y.warn.getLsbD k = pool.any fun m => (a.grp? m).any (·.warn.getLsbD k))

/-- `b` is `a` after the wait of `g` at the regroup point `h` ended: its pool is compacted, or, where it is not eligible, it goes
on in its record. -/
def Claim.RegroupEnds (now : Nat) (a b : Team) (g : Grp) (h : Nat) : Prop :=
  let pool := a.poolOf h g.recno
  (g.recno ∈ pool → Claim.Compacted now a b pool h) ∧
  (g.recno ∉ pool → b = { a with threads := b.threads, grps := b.grps } ∧ (∀ n, n ≠ g.recno → b.grp? n = a.grp? n) ∧
    (∃ y, b.grp? g.recno = some y ∧ y = { g with marks := g.marks.filter (·.head != h), waited := y.waited }) ∧
    ∀ th ∈ a.threads, b.thread? th.tid = some
      (if th.recno = g.recno ∧ th.run = .suspended (.regrp h) then Claim.freed now th else th))

/-- A team whose records regroup with no meeting set, block grant or matrix command beside. -/
def Claim.regroups (s : State) (r : TeamRef) (a : Team) : Prop :=
  s.team? r = some a ∧ a.ending = none ∧ a.msets = [] ∧ a.grants = [] ∧ (∀ x ∈ a.grps, x.mq = []) ∧ Safety.ordered a = true ∧
    (a.grps.map (·.recno)).Pairwise (· < ·)

/-- A live thread has come to the regroup point: REGRP suspends it there, or it is runnable there in no clause (R85). -/
def Claim.atPoint (a : Team) (h : Nat) (th : Thread) : Prop :=
  th.pc = h ∧ (th.run = .suspended (.regrp h) ∨
    (th.run = .runnable ∧ ∀ g, a.grp? th.recno = some g → ∀ c, g.clause = some c → th.tid ∉ c.issue))

/-- R79, R80, R82 to R85, R104: SLEEP_WAKE wakes a sleeping thread once TIME has reached its wake time and not before; one
that wakes at the meeting point of a set still unspent is held there while another member can come, and the last member to
come, end or be suspended releases the set, once;
REGRP_WAIT_TIMEOUT ends the wait of a marked group after its bound, and not before, and so does, after any step, the arrival of the last thread
of its role: a group of the pool is compacted in the order of keys and then of %tid, 32 threads to a record, its waiting threads
runnable, %warn the OR of the pool's, and the records left empty retire; a group that is not eligible goes on in its record; no register,
pc or other record changes.
That 512 clk have passed is judged in ns at 2.1 GHz, the model's choice (log 18); which threads of the group wait is DEDUCED (log 37);
that the bounds of FENCEs go with their threads is the model's choice (log 5). -/
def Obligations.SleepAndRegroupWaitsEnd : Prop :=
  (∀ (s : State) (r : TeamRef) (a : Team) (th : Thread) (w : Nat), s.team? r = some a → Safety.ordered a = true → th ∈ a.threads →
    th.run = .suspended (.sleep w) → a.msets = [] →
    ∃ t b, exec (.sleepWake r th.tid) s = .next t ∧ Claim.OnlyTeam s t r ∧ t.team? r = some b ∧ b = { a with threads := b.threads } ∧
      b.thread? th.tid = some (if w ≤ s.clock.time then Claim.freed s.sched.steps th else th) ∧
      ∀ u ∈ a.threads, u.tid ≠ th.tid → b.thread? u.tid = some u) ∧
  (∀ (s : State) (r : TeamRef) (a : Team) (th : Thread) (w : Nat) (m : MSet), s.team? r = some a → Safety.ordered a = true →
    th ∈ a.threads → th.run = .suspended (.sleep w) → w ≤ s.clock.time → th.meet = th.pc → th.pc ≠ 0 → a.msets = [m] →
    m.id = th.mset → m.head = th.pc →
    let free (u : Thread) : Thread := { u with run := .runnable, meet := 0, age := s.sched.steps }
    let other (u : Thread) : Prop := u ∈ a.threads ∧ u.tid ≠ th.tid
    let away (u : Thread) : Prop := u.run = .exited ∨ u.run.isSuspended = true ∨ (u.run = .held ∧ (u.pc ≠ m.head ∨ u.mset = m.id))
    let met (u : Thread) : Prop := u.run = .held ∧ u.mset = m.id ∧ u.pc = m.head
    ∃ t b, exec (.sleepWake r th.tid) s = .next t ∧ Claim.OnlyTeam s t r ∧ t.team? r = some b ∧
      b = { a with threads := b.threads, msets := b.msets } ∧
      (m.spent = true → b.thread? th.tid = some (free th) ∧ b.msets = [m] ∧ ∀ u, other u → b.thread? u.tid = some u) ∧
      (m.spent = false → (∃ u, other u ∧ u.tid ∈ m.members ∧ u.run = .runnable ∧ a.parkedThread u = false) →
        b.thread? th.tid = some { th with run := .held, age := s.sched.steps } ∧ b.msets = [m] ∧
        ∀ u, other u → b.thread? u.tid = some u) ∧
      (m.spent = false → (∀ u, other u → u.tid ∈ m.members → away u) →
        b.thread? th.tid = some (free th) ∧ b.msets = [{ m with spent := true }] ∧
        ∀ u, other u → (met u → b.thread? u.tid = some (free u)) ∧ (¬ met u → b.thread? u.tid = some u))) ∧
  (∀ (s : State) (r : TeamRef) (a : Team) (g : Grp) (m : Mark), Claim.regroups s r a → a.grp? g.recno = some g → g.marks = [m] →
    ∃ t b, exec (.regrpWaitTimeout r g.recno) s = .next t ∧ Claim.OnlyTeam s t r ∧ t.team? r = some b ∧
      (2100 * (s.clock.time - m.since) < 512000 → b = a) ∧
      (512000 ≤ 2100 * (s.clock.time - m.since) → Claim.RegroupEnds s.sched.steps a b g m.head)) ∧
  (∀ (s : State) (r : TeamRef) (a : Team) (g : Grp) (h : Nat), Claim.regroups s r a → a.ref = r → (∀ x ∈ s.teams, ∀ y ∈ x.2.grps, y.mq = []) →
    a.grp? g.recno = some g → g.marks ≠ [] →
    (∀ x ∈ a.grps, x.role = g.role ∧ (∀ m ∈ x.marks, m.head = h ∧ (x.recno = g.recno ∨ (x.recno ∈ a.poolOf h g.recno ∧ g.recno ∈ a.poolOf h g.recno)))) →
    ∃ b, s.settleRegroups.team? r = some b ∧
      ((∃ th ∈ a.threads, th.run ≠ .exited ∧ ¬ Claim.atPoint a h th ∧ ∃ x ∈ a.grps, x.recno = th.recno) → b = a) ∧
      ((∀ th ∈ a.threads, th.run ≠ .exited → Claim.atPoint a h th) → Claim.RegroupEnds s.sched.steps a b g h))

/-! ## Memory: classes 0x5 and 0x6 -/

/-- The bytes that a virtual access reads, piece by piece (R184). -/
def Claim.virtBytes (v : View) (a size : Nat) : List Byte :=
  (pieces a size).flatMap fun p => v.s.virtRead v.team.writer v.team.asid p.1 p.2 rightR

/-- The little-endian number in element i of a run of bytes. -/
def Claim.element (o : Opnds) (bs : List Byte) (i : Nat) : Nat := leNat ((bs.drop (i * Ty.bytes o.ty)).take (Ty.bytes o.ty))

/-- The bytes that each active thread of LD, LDS or LDC loads, when its checks pass and no line read is poisoned. -/
def Claim.loads (v : View) : Instr → Option (Opnds × Nat × (Thread → List Byte) × Prop)
  | .ld o m =>
      let size := m.vec.count * Ty.bytes o.ty
      let addr (th : Thread) : Nat := v.address o (some th)
      some (o, m.vec.count, fun th => Claim.virtBytes v (addr th) size,
        v.checkVirt (v.active o) addr size rightR anyFrame = .pass ∧ v.poisonAt ((v.active o).flatMap fun th => pieces (addr th) size) = none)
  | .lds o m =>
      let size := m.vec.count * Ty.bytes o.ty
      let off (th : Thread) : Int := v.offset o (some th)
      some (o, m.vec.count, fun th => v.s.scratchRead v.team (off th).toNat size, v.checkScratch (v.active o) off size = .pass)
  | .ldc o m =>
      let size := m.vec.count * Ty.bytes o.ty
      let ps := pieces (v.address o none) size
      some (o, m.vec.count, fun _ => Claim.virtBytes v (v.address o none) size,
        firstFail (ps.map (v.s.checkPiece v.team.asid rightR anyFrame)) = .pass ∧ v.poisonAt ps = none)
  | _ => none

/-- R183, R193, R195, R196: an unflagged LD, LDS or LDC writes each active thread's registers with the elements it reads,
little-endian and extended; memory is unchanged. -/
def Obligations.LoadsWriteWhatMemoryHolds : Prop :=
  ∀ (s : State) (v : View) (i : Instr) (o : Opnds) (n : Nat) (bytes : Thread → List Byte) (ok : Prop),
    Claim.loads v i = some (o, n, bytes, ok) → Claim.Issues s v i o → ok → v.any o = true → Safety.ordered v.team = true → o.fl = none →
    ∃ t b, exec i s = .next t ∧ Claim.OnlyTeam s t v.iss.team ∧ t.team? v.iss.team = some b ∧
      b = { v.team with threads := b.threads, grps := b.grps } ∧
      (∀ th ∈ v.active o, ∀ k < n, isSReg o.dst = false → Claim.keeps (elemSpec o.ty o.dst k) = true →
        Claim.reg b th.tid o.ty.wide (elemSpec o.ty o.dst k) = some (extend o.ty o.dst (Claim.element o (bytes th) k))) ∧
      (∀ m d th k, i = .ldc o m → o.dst = .s d → k < n → d.val + k < 64 →
        (b.grp? v.iss.recno).map (·.getS (d.val + k)) = some (BitVec.ofNat 64 (extend o.ty o.dst (Claim.element o (bytes th) k)))) ∧
      ∀ th ∈ v.team.threads, th ∉ v.active o → b.thread? th.tid = some th

/-- R30, R34, R193: a flagged LD, LDS or LDC counts its flag up by one, puts its registers in flight and leaves every
register and memory as they were; what it read arrives with its landing.
Memory is read at issue, the model's choice (log 43). -/
def Claim.FlaggedLoadsGoInFlight : Prop :=
  ∀ (s : State) (v : View) (i : Instr) (o : Opnds) (n : Nat) (bytes : Thread → List Byte) (ok : Prop) (f : Fin 12),
    Claim.loads v i = some (o, n, bytes, ok) → Claim.Issues s v i o → ok → v.any o = true → o.fl = some f → v.grp.flags.length = 12 →
    ∃ t b g ws lost, exec i s = .next t ∧ t.mem = s.mem ∧ t.team? v.iss.team = some b ∧ b = { v.team with grps := b.grps } ∧
      b.grp? v.iss.recno = some g ∧ g.s = v.grp.s ∧ g.flag f = v.grp.flag f + 1 ∧ (∀ k, k ≠ f → g.flag k = v.grp.flag k) ∧
      (∀ r ∈ written i o, (r, f) ∈ g.flight) ∧
      t.eng.landings = s.eng.landings ++ [⟨s.sched.nextCmd, v.iss, some f, .load, ws, lost⟩] ∧
      (isSReg o.dst = false → ws = (v.active o).flatMap fun th => loadWrites o.ty n o.dst th.tid (bytes th)) ∧
      (∀ m th, i = .ldc o m → isSReg o.dst = true → ws = loadWrites o.ty n o.dst 0 (bytes th)) ∧
      t.sched.nextCmd = s.sched.nextCmd + 1

/-- R30, R34: LOAD_COMPLETE and ATOMIC_COMPLETE write a landing's registers and count its flag down; a register bound to a
flag that then reads clear is no longer in flight. A thread that has ended keeps its registers (R86, R323).
A flagged access acts on memory at issue, the model's choice (log 43). -/
def Claim.LandingsWriteTheirRegisters : Prop :=
  ∀ (s : State) (l : Landing) (a : Team) (g : Grp) (f : Fin 12) (atomic : Bool),
    s.eng.landings.find? (fun x => x.num == l.num && x.kind == (if atomic then LandKind.atomic else LandKind.load)) = some l →
    l.kind = (if atomic then LandKind.atomic else LandKind.load) → l.fl = some f → s.team? l.iss.team = some a →
    a.grp? l.iss.recno = some g → g.flags.length = 12 → a.grps.any (fun x => !x.retired) = true → Safety.ordered a = true →
    ∃ t b g', exec (if atomic then .atomicComplete l.num else .loadComplete l.num) s = .next t ∧ t.mem = s.mem ∧
      t.team? l.iss.team = some b ∧ b.grp? l.iss.recno = some g' ∧
      (∀ th ∈ a.threads, ∃ th', b.thread? th.tid = some th' ∧
        if th.run = .exited then th' = th else Claim.ThreadAfter l.writes th th') ∧
      (∀ n, g'.getS n = Claim.lastS l.writes n (g.getS n)) ∧
      g'.flag f = g.flag f - 1 ∧ (∀ k, k ≠ f → g'.flag k = g.flag k) ∧
      (∀ r, g.flag f ≤ 1 → (r, f) ∉ g'.flight) ∧ ∀ x ∈ t.eng.landings, x.num ≠ l.num

/-- Flagged loads, from issue to landing. -/
def Obligations.FlaggedLoadsGoInFlightAndLand : Prop := Claim.FlaggedLoadsGoInFlight ∧ Claim.LandingsWriteTheirRegisters

/-- A page's CA contradicts a hint, R181. -/
def Claim.contradicts (h : Hint) (ca : Nat) : Prop := (h = .strm ∧ ca ≠ 0) ∨ (h = .l2 ∧ ca = 2)

/-- Some of these addresses stands in a page whose CA contradicts the hint. -/
def Claim.hinted (v : View) (h : Hint) (need : Right) (as : List Nat) : Prop :=
  ∃ a ∈ as, ∃ l, v.s.translate v.team.asid a need = .ok l ∧ Claim.contradicts h l.ca

/-- The check that an access of a piece fails first, R171, R176, R186: the address, the walk, the range it reaches. -/
def Claim.pieceFault (s : State) (asid : Nat) (need : Right) (frames : List PhysKind) (p : Nat × Nat) : Option Code :=
  if 2 ^ 64 ≤ p.1 ∨ (p.1 / 2 ^ 53 ≠ 0 ∧ p.1 / 2 ^ 53 ≠ 2 ^ 11 - 1) then some .xlate
  else
    match s.translate asid p.1 need with
    | .absent | .bad => some .xlate
    | .refused => some .prot
    | .poisoned _ => none
    | .ok l =>
      if physKind l.pa ∉ frames then some .prot
      else if ∃ e ∈ s.coll.ranges, l.pa < e.base + e.len ∧ e.base < l.pa + p.2 then some .collRange else none

/-- Of the issuing record only W0 and W1 of %warn, the registers in flight and the clause's progress changed; W1 is set where `w1` says
that a hint is contradicted. -/
def Claim.hintedGrp (v : View) (i : Instr) (o : Opnds) (w1 : Prop) (g : Grp) : Prop :=
  ∃ c : Bool, (c = true ↔ w1) ∧ g = { v.grp with
    warn := v.grp.warn ||| (if fallback i then 1 else 0) ||| (if c then 2 else 0), flight := Claim.flight v i o,
    clause := some (Claim.clauseAfter v i o v.cl.term) }

/-- R197, R198: PFX changes at most W0 and W1 of %warn, W1 where an address that can be read contradicts its hint; IFLUSH takes the lines
of its range from the issuing core's instruction cache and no other line. Neither changes memory or a register.
That a prefetch never meets a full TLB is the model's choice (log 9). -/
def Claim.PrefetchAndFlushChangeNoData : Prop :=
  (∀ (s : State) (v : View) (o : Opnds) (m : MemMods), Claim.Issues s v (.pfx o m) o →
    let as := ((v.active o).map fun th => v.address o (some th)).filter fun a => (Claim.pieceFault s v.team.asid rightR anyFrame (a, 1)).isNone
    ∃ t b g, exec (.pfx o m) s = .next t ∧ Claim.OnlyTeam s t v.iss.team ∧ t.team? v.iss.team = some b ∧
      b = { v.team with grps := b.grps } ∧ b.grp? v.iss.recno = some g ∧
      Claim.hintedGrp v (.pfx o m) o (Claim.hinted v m.hint rightR as) g ∧ ∀ n, n ≠ v.iss.recno → b.grp? n = v.team.grp? n) ∧
  (∀ (s : State) (v : View) (o : Opnds), Claim.Issues s v (.iflush o) o → v.any o = true →
    let a := v.address o none
    let n := Claim.scalar v o .u32 o.sb
    ∃ t, exec (.iflush o) s = .next t ∧ t.mem = { s.mem with icache := t.mem.icache } ∧
      Claim.After { s with mem := t.mem } t v (.iflush o) o [] ∧
      ∀ e, e ∈ t.mem.icache ↔ e ∈ s.mem.icache ∧
        ¬(e.core = v.iss.team.core ∧ e.asid = v.team.asid ∧ n ≠ 0 ∧ a / 64 ≤ e.va / 64 ∧ e.va / 64 ≤ (a + n - 1) / 64))

/-- Physical places of the pieces of a store's active threads: address, key generation and length. -/
def Claim.storePlaces (v : View) (o : Opnds) (size : Nat) : List (Nat × Nat × Nat) :=
  (v.active o).flatMap fun th => (pieces (v.address o (some th)) size).map fun p =>
    ((v.s.place1 v.team.asid p.1 rightW).1, (v.s.place1 v.team.asid p.1 rightW).2, p.2)

/-- A byte of physical memory lies outside these places, and in no line of HBM that one of them would write under another
key generation than the line's (R177). -/
def Claim.untouched (s : State) (places : List (Nat × Nat × Nat)) (pa : Nat) : Prop :=
  ∀ x ∈ places, (pa < x.1 ∨ x.1 + x.2.2 ≤ pa) ∧ (physKind x.1 = .hbm → x.1 / 128 = pa / 128 → s.mem.tags.get 0 (pa / 128) = x.2.1)

/-- Byte j of what a store takes from a thread's registers: its elements one after the other, each little-endian (R4, R183). -/
def Claim.storedByte (v : View) (o : Opnds) (th : Thread) (j : Nat) : Byte :=
  BitVec.ofNat 8 (Claim.operand v o o.ty (elemSpec o.ty o.sb (j / Ty.bytes o.ty)) (some th) / 256 ^ (j % Ty.bytes o.ty))

/-- The byte at an address after writes in this order. -/
def Claim.lastByte (ws : List (Nat × Byte)) (a : Nat) (x : Byte) : Byte := ws.foldl (fun y w => if w.1 = a then w.2 else y) x

/-- The byte writes of ST, thread after thread by ascending %tid, each thread's piece after piece (R184, R185). -/
def Claim.storeWrites (v : View) (o : Opnds) (size : Nat) : List (Nat × Byte) :=
  (v.active o).flatMap fun th =>
    ((pieces (v.address o (some th)) size).flatMap fun p => (List.range p.2).map fun j => (v.s.place1 v.team.asid p.1 rightW).1 + j).zip
      ((List.range size).map (Claim.storedByte v o th))

/-- No group of a team waits at a monitor. -/
def Claim.unwatched (a : Team) : Prop := a.waitsOf (fun k => match k with | .monitor .. => true | _ => false) = []

/-- R181, R183 to R185, R194, R195: ST writes its bytes where its pieces translate, and STS in the team's scratch; of a byte that several
threads write the highest %tid's stays. Every byte outside them is unchanged, and of all else only the issuing record's clause, W0 and W1
of %warn, and what a wake-up of WAITA gives a waiting team.
A store of part of a line under another key leaves the line's other bytes unpredictable (R177, log 16). -/
def Obligations.StoresChangeOnlyTheirBytes : Prop :=
  (∀ (s : State) (v : View) (o : Opnds) (m : MemMods), Claim.Issues s v (.st o m) o → v.any o = true →
    let size := m.vec.count * Ty.bytes o.ty
    let as := (v.active o).flatMap fun th => (pieces (v.address o (some th)) size).map (·.1)
    v.checkVirt (v.active o) (fun th => v.address o (some th)) size rightW anyFrame = .pass →
    ∃ t, exec (.st o m) s = .next t ∧ t = { s with mem := t.mem, teams := t.teams } ∧
      t.mem = { s.mem with phys := t.mem.phys, tags := t.mem.tags, poison := t.mem.poison } ∧
      (∀ pa, Claim.untouched s (Claim.storePlaces v o size) pa → t.mem.phys.byte pa = s.mem.phys.byte pa) ∧
      ((∀ x ∈ Claim.storePlaces v o size, physKind x.1 = .hbm → s.mem.tags.get 0 (x.1 / 128) = x.2.1) →
        t.mem.tags = s.mem.tags ∧ ∀ pa, t.mem.phys.byte pa = Claim.lastByte (Claim.storeWrites v o size) pa (s.mem.phys.byte pa)) ∧
      (∀ th a, v.active o = [th] → pieces (v.address o (some th)) size = [(a, size)] →
        ∀ j < size, t.mem.phys.byte ((s.place1 v.team.asid a rightW).1 + j) = Claim.storedByte v o th j) ∧
      (∀ k y, k ≠ slotKey v.iss.team → s.teams.find k = some y → Claim.unwatched y → t.teams.find k = some y) ∧
      (Claim.unwatched v.team → ∃ b g, t.team? v.iss.team = some b ∧ b = { v.team with grps := b.grps } ∧ b.grp? v.iss.recno = some g ∧
        Claim.hintedGrp v (.st o m) o (Claim.hinted v m.hint rightW as) g ∧ ∀ n, n ≠ v.iss.recno → b.grp? n = v.team.grp? n)) ∧
  (∀ (s : State) (v : View) (o : Opnds) (m : MemMods), Claim.Issues s v (.sts o m) o → v.any o = true →
    let size := m.vec.count * Ty.bytes o.ty
    let off (th : Thread) : Int := v.offset o (some th)
    v.checkScratch (v.active o) off size = .pass →
    ∃ t b g, exec (.sts o m) s = .next t ∧ Claim.OnlyTeam s t v.iss.team ∧ t.team? v.iss.team = some b ∧
      b = { v.team with grps := b.grps, scratch := b.scratch } ∧ (∀ n, n ≠ v.iss.recno → b.grp? n = v.team.grp? n) ∧
      b.grp? v.iss.recno = some g ∧ Claim.GrpAfter v (.sts o m) o [] v.cl.term g ∧
      ∀ x : Nat, b.scratch.byte x = Claim.lastByte ((v.active o).flatMap fun th =>
        (List.range size).map fun j => ((off th).toNat + j, Claim.storedByte v o th j)) x (v.team.scratch.byte x))

/-- The bytes of the engine writes of a space that satisfy `p`, in the order in which they were made. -/
def Claim.placedBytes (st : Store) (p : Unplaced → Bool) : List (Nat × Byte) :=
  (st.unplaced.filter p).flatMap fun u => u.bytes.map fun x => (u.word + x.1, x.2)

/-- The value an atomic leaves in memory, from the old value and its operands (R214); none where it writes nothing. -/
def Claim.atomicNew (v : View) (th : Thread) : Instr → Option (Opnds × AtomMods × (Nat → Option Nat))
  | .aadd o m => some (o, m, fun x => some ((x + Claim.raw v o o.sb (some th)) % 2 ^ o.ty.width))
  | .amin o m => some (o, m, fun x => some (if Claim.val v o o.sb (some th) < Ty.val o.ty x then Claim.raw v o o.sb (some th) else x))
  | .amax o m => some (o, m, fun x => some (if Ty.val o.ty x < Claim.val v o o.sb (some th) then Claim.raw v o o.sb (some th) else x))
  | .aand o m => some (o, m, fun x => some (x &&& Claim.raw v o o.sb (some th)))
  | .aor o m => some (o, m, fun x => some (x ||| Claim.raw v o o.sb (some th)))
  | .axor o m => some (o, m, fun x => some (x ^^^ Claim.raw v o o.sb (some th)))
  | .axch o m => some (o, m, fun _ => some (Claim.raw v o o.sb (some th)))
  | .acas o m => some (o, m, fun x => if x = Claim.raw v o o.sb (some th) then some (Claim.raw v o o.sc (some th)) else none)
  | .afadd o m => some (o, m, fun x => some (afadd o.ty x (Claim.raw v o o.sb (some th))))
  | _ => none

/-- The value that atomics of threads on one location leave, one after the other, and what each read. -/
def Claim.chain (f : Thread → Nat → Option Nat) : List Thread → Nat → Nat × List (Nat × Nat)
  | [], x => (x, [])
  | th :: r, x => ((Claim.chain f r ((f th x).getD x)).1, (th.tid, x) :: (Claim.chain f r ((f th x).getD x)).2)

/-- R213 to R215: an atomic of several threads on one location acts for one after the other, by ascending %tid; each reads what
the one before it left, and with .ret its register receives what it read. No other byte changes, but that a write of part of a
line under another key leaves the line's other bytes unpredictable (R177): how, is the model's choice (log 16). -/
def Claim.AtomicsOfThreadsFollowOneAnother : Prop :=
  ∀ (s : State) (v : View) (i : Instr) (o : Opnds) (m : AtomMods) (a : Nat) (f : Thread → Nat → Option Nat),
    (∀ th ∈ v.active o, Claim.atomicNew v th i = some (o, m, f th) ∧ v.address o (some th) = a) → Claim.Issues s v i o →
    v.any o = true → Safety.ordered v.team = true →
    let n := Ty.bytes o.ty
    let l := s.place1 v.team.asid a { r := true, w := true }
    let old := leNat ((List.range n).map fun j => s.mem.phys.byte (l.1 + j))
    let q := Claim.chain f (v.active o) old
    s.checkAtomic v.team.asid { r := true, w := true } a n = .pass → v.poisonAt [(a, n)] = none → s.mem.phys.unplaced = [] →
    (∀ j < n, s.stray l.2 (l.1 + j) = none) →
    (∀ x ∈ s.teams, x.2.waitsOf (fun k => match k with | .monitor .. => true | _ => false) = []) →
    ∃ t b, exec i s = .next t ∧ t.team? v.iss.team = some b ∧ t.front = s.front ∧ t.parts = s.parts ∧
      (∀ j < n, t.mem.phys.byte (l.1 + j) = BitVec.ofNat 8 (q.1 / 256 ^ j)) ∧
      (∀ pa, Claim.untouched s [(l.1, l.2, n)] pa → t.mem.phys.byte pa = s.mem.phys.byte pa) ∧
      (m.ret = true → o.fl = none → Claim.keeps o.dst = true → isSReg o.dst = false →
        ∀ x ∈ q.2, Claim.reg b x.1 o.ty.wide o.dst = some x.2) ∧
      (m.ret = true → ∀ k, o.fl = some k → ∃ w, t.eng.landings = s.eng.landings ++ [w] ∧ w.fl = some k ∧
        w.writes = q.2.flatMap fun x => regWrite o.ty.wide x.1 x.2 o.dst)

/-- R214: what AFADD leaves is, element by element, the sum rounded to nearest even, with nothing flushed. -/
def Claim.AfaddRoundsItsSum : Prop :=
  ∀ (ty : Ty) (a b : Nat), ty = .f32 ∨ ty = .f64 ∨ Claim.packed ty = true → a < 2 ^ ty.width → b < 2 ^ ty.width →
    afadd ty a b < 2 ^ ty.width ∧ ∀ e < Claim.elems ty,
      Claim.SumIs (Fmt.ofTy ty) .rn [(false, [(Fmt.ofTy ty, Claim.elem ty a e)]), (false, [(Fmt.ofTy ty, Claim.elem ty b e)])]
        (Claim.elem ty (afadd ty a b) e)

/-- R213 to R215: an atomic of one active thread leaves the new value at its address, little-endian, and no other byte
changes; with .ret its destination receives the old value, at once or with its landing. A write of part of a line under another
key leaves the line's other bytes unpredictable (R177): how, is the model's choice (log 16). That a flagged atomic acts on memory
at its issue is the model's choice (log 43), and which engine writes to its words, placed by none yet, come before it and are placed
with it (log 6). -/
def Claim.AtomicOfOneThread : Prop :=
  ∀ (s : State) (v : View) (i : Instr) (o : Opnds) (m : AtomMods) (th : Thread) (f : Nat → Option Nat),
    Claim.atomicNew v th i = some (o, m, f) → Claim.Issues s v i o → v.active o = [th] → Safety.ordered v.team = true →
    let n := Ty.bytes o.ty
    let a := v.address o (some th)
    let l := s.place1 v.team.asid a { r := true, w := true }
    let s1 := s.joinBefore l.1 n
    let old := leNat (s1.physRead v.team.writer l.2 l.1 n)
    s.checkAtomic v.team.asid { r := true, w := true } a n = .pass → v.poisonAt [(a, n)] = none →
    (∀ x ∈ s.teams, x.2.waitsOf (fun k => match k with | .monitor .. => true | _ => false) = []) →
    ∃ t b, exec i s = .next t ∧ t.team? v.iss.team = some b ∧ t.front = s.front ∧ t.parts = s.parts ∧
      (∀ x, f old = some x → ∀ j < n, t.mem.phys.byte (l.1 + j) = BitVec.ofNat 8 (x / 256 ^ j)) ∧
      (f old = none → t.mem = s1.mem) ∧ s1 = s.setPhys s1.mem.phys ∧
      (∀ pa, s1.mem.phys.byte pa = Claim.lastByte (Claim.placedBytes s.mem.phys (s.comesAfter l.1 n)) pa (s.mem.phys.byte pa)) ∧
      (∀ pa, Claim.untouched s [(l.1, l.2, n)] pa → t.mem.phys.byte pa = s1.mem.phys.byte pa) ∧
      (∀ u ∈ v.team.threads, u.tid ≠ th.tid → b.thread? u.tid = some u) ∧
      (m.ret = true → o.fl = none → Claim.keeps o.dst = true → isSReg o.dst = false → Claim.reg b th.tid o.ty.wide o.dst = some old) ∧
      (m.ret = false → b.threads = v.team.threads) ∧
      (∀ k, o.fl = some k → b.threads = v.team.threads ∧ t.eng.landings = s.eng.landings ++
        [⟨s.sched.nextCmd, v.iss, some k, .atomic, if m.ret then regWrite o.ty.wide th.tid old o.dst else [], []⟩])

/-- An atomic of one thread, and of several on one location; the sum of AFADD. -/
def Obligations.AtomicsReplaceTheOldValue : Prop :=
  Claim.AtomicOfOneThread ∧ Claim.AtomicsOfThreadsFollowOneAnother ∧ Claim.AfaddRoundsItsSum

/-- The writes whose completion the group of a view has observed: of a command, or of a chunk of it. -/
def Claim.observed (v : View) (u : Unplaced) : Bool := v.grp.seen.any fun x => u.cmd == x.1 && (x.2.isNone || u.chunk == x.2)

/-- The issuing record after a FENCE: one with release kind bounds the group's later engine reads, and at POD its later requests (R209,
R351); nothing else of it changes but its clause's progress and W0. -/
def Claim.fencedGrp (s : State) (v : View) (o : Opnds) (sc : Scope) (fk : FenceKind) (g : Grp) : Prop :=
  g = { v.grp with
    bounds := if fk = .acq then v.grp.bounds else v.grp.bounds ++ [(if sc = .pod then .package else sc, s.sched.steps)]
    podRel := if fk ≠ .acq ∧ sc = .pod then some s.fab.reqNo else v.grp.podRel
    warn := if fallback (.fence o sc fk) then v.grp.warn ||| 1 else v.grp.warn
    flight := Claim.flight v (.fence o sc fk) o, clause := some (Claim.clauseAfter v (.fence o sc fk) o v.cl.term) }

/-- R211: FENCE.rel only bounds the group's later engine reads, and at POD holds back its later requests; an acquiring
FENCE places the writes of the commands, and of the chunks of commands, that the group has observed: at PACKAGE and POD their bytes
enter memory, in the order in which they were made, and what remains unplaced of others loses the bytes that they cover; at TEAM and
CLUSTER they are marked as placed for that scope; its team's scratch takes those made to it. Every other byte, every register and every
other unit stays; a team that waits at a monitor of a line that the writes enter wakes. WAITA captures its wait after its checks.
That an engine write stands unplaced, over the bytes of memory, until it is placed is the model's choice (log 6). -/
def Claim.FencesAndMonitorsIssue : Prop :=
  (∀ (s : State) (v : View) (o : Opnds) (sc : Scope), Claim.Issues s v (.fence o sc .rel) o → v.any o = true →
    ∃ t b g, exec (.fence o sc .rel) s = .next t ∧ Claim.OnlyTeam s t v.iss.team ∧ t.team? v.iss.team = some b ∧
      b = { v.team with grps := b.grps } ∧ b.grp? v.iss.recno = some g ∧ Claim.fencedGrp s v o sc .rel g ∧
      ∀ n, n ≠ v.iss.recno → b.grp? n = v.team.grp? n) ∧
  (∀ (s : State) (v : View) (o : Opnds) (sc : Scope) (fk : FenceKind), fk ≠ .rel → sc = .package ∨ sc = .pod →
    Claim.Issues s v (.fence o sc fk) o → v.any o = true →
    let p := Claim.observed v
    let us := s.mem.phys.unplaced
    ∃ t b, exec (.fence o sc fk) s = .next t ∧ t = { s with mem := t.mem, teams := t.teams } ∧ t.mem = { s.mem with phys := t.mem.phys } ∧
      t.team? v.iss.team = some b ∧ (∀ u ∈ b.scratch.unplaced, p u = false) ∧ (∀ u ∈ t.mem.phys.unplaced, p u = false) ∧
      (∀ pa, t.mem.phys.byte pa = Claim.lastByte (Claim.placedBytes s.mem.phys p) pa (s.mem.phys.byte pa)) ∧
      (∀ x, b.scratch.byte x = Claim.lastByte (Claim.placedBytes v.team.scratch p) x (v.team.scratch.byte x)) ∧
      (∀ u ∈ t.mem.phys.unplaced, ∃ u0 ∈ us, p u0 = false ∧ u = { u0 with bytes := u.bytes } ∧ ∀ x ∈ u.bytes, x ∈ u0.bytes) ∧
      (∀ u ∈ us, p u = false → (∀ x ∈ us, p x = true → x.word ≠ u.word) → u ∈ t.mem.phys.unplaced) ∧
      (∀ k y, k ≠ slotKey v.iss.team → s.teams.find k = some y → Claim.unwatched y → t.teams.find k = some y) ∧
      (Claim.unwatched v.team → ∃ g, b = { v.team with grps := b.grps, scratch := b.scratch } ∧ b.grp? v.iss.recno = some g ∧
        Claim.fencedGrp s v o sc fk g ∧ ∀ n, n ≠ v.iss.recno → b.grp? n = v.team.grp? n)) ∧
  (∀ (s : State) (v : View) (o : Opnds) (sc : Scope) (fk : FenceKind), fk ≠ .rel → sc = .team ∨ sc = .cluster →
    Claim.Issues s v (.fence o sc fk) o → v.any o = true →
    let observed (u : Unplaced) : Prop := Claim.observed v u = true
    ∃ t b g, exec (.fence o sc fk) s = .next t ∧ Claim.OnlyTeam { s with mem := t.mem } t v.iss.team ∧
      t.mem = { s.mem with phys := { s.mem.phys with unplaced := t.mem.phys.unplaced, past := t.mem.phys.past } } ∧
      t.team? v.iss.team = some b ∧ b = { v.team with grps := b.grps, scratch := b.scratch } ∧ (∀ u ∈ b.scratch.unplaced, ¬ observed u) ∧
      (∀ x, b.scratch.byte x = Claim.lastByte (Claim.placedBytes v.team.scratch (Claim.observed v)) x (v.team.scratch.byte x)) ∧
      b.grp? v.iss.recno = some g ∧ Claim.fencedGrp s v o sc fk g ∧ (∀ n, n ≠ v.iss.recno → b.grp? n = v.team.grp? n) ∧
      t.mem.phys.unplaced.length = s.mem.phys.unplaced.length ∧
      ∀ (k : Nat) (u u' : Unplaced), s.mem.phys.unplaced[k]? = some u → t.mem.phys.unplaced[k]? = some u' →
        (¬ observed u ∨ u.placed = some sc ∨ (sc = .team ∧ u.placed = some .cluster) → u' = u) ∧
        (observed u → u.placed ≠ some sc → ¬ (sc = .team ∧ u.placed = some .cluster) →
          u' = { u with placed := some sc, placedAt := s.sched.steps })) ∧
  (∀ (s : State) (v : View) (o : Opnds) (pod : Bool), Claim.Issues s v (.waita ⟨o, pod⟩) o → v.any o = true →
    let a := v.address o none
    let l := s.place1 v.team.asid a rightR
    s.checkAtomic v.team.asid rightR a (Ty.bytes o.ty) = .pass →
    ∃ t, exec (.waita ⟨o, pod⟩) s = .next t ∧ Claim.AfterTerm s t v (.waita ⟨o, pod⟩) o []
      (some (.waita o.dst l.1 l.2 (Ty.bytes o.ty) (Claim.scalar v o o.ty o.sb) (Claim.scalar v o .u32 o.sc) ((v.active o).map (·.tid)))))

/-- PFX, IFLUSH, FENCE and WAITA. -/
def Obligations.PrefetchFlushFenceAndMonitorIssue : Prop := Claim.PrefetchAndFlushChangeNoData ∧ Claim.FencesAndMonitorsIssue

/-- R218: the steps that end a WAITA. Its limit, the two microseconds of a wait without a monitor or outside HBM, and the reclaim
of a line each wake the group's threads, with reason 2, 1 and 1 in the wait's register; of a limit and the two microseconds the
earlier, and a reclaim of a wait whose limit has come finds it ended. Where both fall on one nanosecond the limit counts, the
model's choice (log 54). -/
def Claim.MonitorsEndWithTheirReason : Prop :=
  ∀ (s : State) (r : TeamRef) (a : Team) (g : Grp) (id line limit t0 : Nat) (d : Fin 64) (armed hbm : Bool) (tids : List Nat),
    s.team? r = some a → a.grps = [g] → Safety.ordered a = true → a.msets = [] → a.ref = r →
    g.waits = [(id, ⟨tids, .monitor (.s d) line armed hbm limit t0, none⟩)] →
    let woken (t : State) (reason : Nat) : Prop := ∃ b g', t.team? r = some b ∧ b.grp? g.recno = some g' ∧ g'.waits = [] ∧
      g'.getS d.val = BitVec.ofNat 64 reason ∧ ∀ th ∈ a.threads, th.recno = g.recno → th.run = .suspended (.wait id) → th.meet = 0 →
        b.thread? th.tid = some { th with run := .runnable, age := s.sched.steps }
    (limit ≠ 0 → limit ≤ 2000 ∨ (armed = true ∧ hbm = true) → t0 + limit ≤ s.clock.time → ∃ t, exec (.waitaTimeout r g.recno) s = .next t ∧ t.mem = s.mem ∧ woken t 2) ∧
    ((armed = false ∨ hbm = false) → limit = 0 ∨ 2000 < limit → t0 + 2000 ≤ s.clock.time → ∃ t, exec (.waitaUnmonitoredWake r g.recno) s = .next t ∧ t.mem = s.mem ∧ woken t 1) ∧
    (armed = true → limit = 0 ∨ s.clock.time < t0 + limit →
      ∃ t, exec (.monitorReclaim (clusterOf r.core) line) s = .next t ∧ t.mem = s.mem ∧ woken t 1) ∧
    (limit ≠ 0 → limit ≤ 2000 ∨ (armed = true ∧ hbm = true) → t0 + limit ≤ s.clock.time →
      ∃ t, exec (.monitorReclaim (clusterOf r.core) line) s = .next t ∧ t.mem = s.mem ∧ woken t 2)

/-! ## The report of a fault -/

/-- Where the next record of a partition's fault ring lies in memory, and the next of its status ring (log 21). -/
def Claim.faultPlace (q : Part) : Nat := hostPa (q.frbase + 64 * (q.frtail % 2 ^ (q.frcfg % 16 + 4)))
def Claim.statusPlace (q : Part) : Nat := hostPa (q.sqbase + 32 * (q.sqtail % 2 ^ q.sqcfg))

/-- The next fault of a team is its first and its launch's, both rings of its partition have room, at places apart, and its kill brings no
counter or collective to its end. -/
def Claim.canReport (s : State) (a : Team) : Prop :=
  let q := s.part a.part
  s.team? a.ref = some a ∧ a.ending = none ∧ a.fault = none ∧ s.reportOf a.item = none ∧ s.coll.live = [] ∧
    (a.frep = true ∨ (s.front.levels = [] ∧ s.front.dens = [])) ∧
    a.part < 32 ∧ s.parts.length = 32 ∧ q.flr = false ∧ q.held = [] ∧ q.ringRoom = true ∧
    q.frbase ≠ 0 ∧ q.frtail - q.frhead < 2 ^ (q.frcfg % 16 + 4) ∧
    (Claim.faultPlace q + 64 ≤ Claim.statusPlace q ∨ Claim.statusPlace q + 32 ≤ Claim.faultPlace q)

/-- A fault record, R412. -/
def Claim.faultBytes (s : State) (a : Team) (code src action pc addr tid recno detail : Nat) : List Byte :=
  leBytes 1 code ++ leBytes 1 src ++ leBytes 1 action ++ leBytes 1 0 ++ leBytes 4 a.launch ++ leBytes 8 s.clock.time ++ leBytes 8 pc ++ leBytes 8 addr
    ++ leBytes 4 tid ++ leBytes 4 a.index ++ leBytes 4 (a.ref.core + 2 ^ 9 * a.ref.slot + 2 ^ 13 * recno) ++ leBytes 4 0 ++ leBytes 8 detail ++ leBytes 8 0

/-- `t` is `s` after fw3 took a fault of team `a`, R410, R412: the fault record and a FAULT status record stand at their places, with
its interrupt, no other byte of memory changed, and the team, under FREP alone and else with its whole launch, is killed. -/
def Claim.Reported (s t : State) (a : Team) (code src pc addr tid recno detail : Nat) : Prop :=
  let q := s.part a.part
  let alone : Bool := a.frep || match a.item with | .reduce .. => true | _ => false
  let rec_ := Claim.faultBytes s a code src alone.toNat pc addr tid recno detail
  let status := leBytes 4 7 ++ leBytes 4 (code + 2 ^ 8 * (q.frtail % 2 ^ 24)) ++ leBytes 4 a.launch ++ leBytes 4 0 ++ leBytes 8 a.seq ++ leBytes 8 s.clock.time
  (t.part a.part).frtail = q.frtail + 1 ∧ (t.part a.part).sqtail = q.sqtail + 1 ∧ t.front.irqs = s.front.irqs ++ [(a.part, 2)] ∧
    (∀ j < 64, t.mem.phys.byte (Claim.faultPlace q + j) = rec_.getD j 0) ∧
    (∀ j < 32, t.mem.phys.byte (Claim.statusPlace q + j) = status.getD j 0) ∧
    (∀ pa, (pa < Claim.faultPlace q ∨ Claim.faultPlace q + 64 ≤ pa) → (pa < Claim.statusPlace q ∨ Claim.statusPlace q + 32 ≤ pa) →
      t.mem.phys.byte pa = s.mem.phys.byte pa) ∧
    (∃ b, t.team? a.ref = some b ∧ b.ending = some .kill ∧ b.fault = some ⟨code, some q.frtail, q.frrings⟩) ∧
    (a.frep = false → ∀ id, a.item = .launch id → (∀ l ∈ t.front.launches, l.id = id → l.killed = true ∧ l.next = l.total) ∧
      ∀ r b, s.team? r = some b → b.ref = r → b.item = .launch id → ∃ b', t.team? r = some b' ∧ b'.ending = some .kill)

/-! ## Copies: class 0x7 -/

/-- The command that ACPY or TCPY enters: destination and source space, shape, and the checks of R229 or R230. -/
def Claim.copyOf (v : View) : Instr → Option (Opnds × CopyMods × Bool × Bool × CopyShape × Prop)
  | .acpy o m =>
      let a (th : Thread) : Nat := v.copyAddr o (dscrOf o) th o.sa
      let b (th : Thread) : Nat := v.copyAddr o (sscrOf o) th o.sb
      some (o, m, dscrOf o, sscrOf o, .lanes m.size.bytes ((v.active o).map fun th => (a th, b th)),
        ∀ th ∈ v.active o, v.checkCopyAddr (dscrOf o) rightW m.size.bytes (a th) = .pass ∧ v.checkCopyAddr (sscrOf o) rightR m.size.bytes (b th) = .pass)
  | .tcpy o m =>
      let r (k : Nat) : Nat := v.s64 (sIndex o.sa + k)
      let sscr := (r 7).testBit 0
      let dscr := (r 7).testBit 1
      let src := if sscr then r 0 % 2 ^ 32 else r 0
      let dst := if dscr then r 1 % 2 ^ 32 else r 1
      let x := r 2 % 2 ^ 32; let y := r 2 / 2 ^ 32 % 2 ^ 16; let z := r 2 / 2 ^ 48 % 2 ^ 16
      let sc := corners (sval 64 src) x y z (sval 64 (r 3)) (sval 64 (r 4))
      let dc := corners (sval 64 dst) x y z (sval 64 (r 5)) (sval 64 (r 6))
      some (o, m, dscr, sscr, .block src dst x y z (sval 64 (r 3)) (sval 64 (r 4)) (sval 64 (r 5)) (sval 64 (r 6)),
        r 7 < 4 ∧ x ≠ 0 ∧ y ≠ 0 ∧ z ≠ 0 ∧ ∀ c ∈ [(sscr, sc.1), (sscr, sc.2), (dscr, dc.1), (dscr, dc.2)], cornerCheck c.1 v.team.hdr.scratch c.2 = .pass)
  | _ => none

/-- R220, R222 to R225, R235 to R238: ACPY and TCPY enter one command with its bytes, scope and tracker and change no
register and no memory; its flag counts up, and each chunk of its tracker that it writes becomes touched and pending.
A promised time is a free value (log 13). -/
def Obligations.CopiesEnterTheEngine : Prop :=
  ∀ (s : State) (v : View) (i : Instr) (o : Opnds) (m : CopyMods) (dscr sscr : Bool) (sh : CopyShape) (ok : Prop),
    Claim.copyOf v i = some (o, m, dscr, sscr, sh, ok) → Claim.Issues s v i o → v.any o = true → ok →
    (s.eng.copies.filter fun c => c.iss.team.core == v.iss.team.core).length < 256 → v.grp.flags.length = 12 → v.team.trk.length = 16 →
    ∃ t b g c, exec i s = .next t ∧ t.mem = s.mem ∧ t.front = s.front ∧ t.team? v.iss.team = some b ∧ b.grp? v.iss.recno = some g ∧
      b = { v.team with grps := b.grps, trk := b.trk } ∧ g.s = v.grp.s ∧ g.mq = v.grp.mq ∧
      t.eng = { s.eng with copies := s.eng.copies ++ [c] } ∧
      c.num = s.sched.nextCmd ∧ c.iss = v.iss ∧ c.fl = o.fl ∧ c.rel = m.rel ∧ c.dscr = dscr ∧ c.sscr = sscr ∧ c.shape = sh ∧
      c.words = [] ∧ c.got = [] ∧ c.failed = false ∧ c.trk = (if ntrkOf o then none else some (trkOf o)) ∧
      (∀ f, o.fl = some f → g.flag f = v.grp.flag f + 1) ∧ (∀ f, o.fl ≠ some f → g.flag f = v.grp.flag f) ∧
      (∀ k, k ≠ trkOf o ∨ ntrkOf o = true → b.tracker k = v.team.tracker k) ∧
      (∀ n ∈ c.chunks, (b.tracker (trkOf o)).touch.getLsbD n = true ∧
        (b.tracker (trkOf o)).pend.get 0 n = (v.team.tracker (trkOf o)).pend.get 0 n + 1) ∧
      (∀ n < 64, n ∈ c.chunks ↔ ntrkOf o = false ∧ (v.team.tracker (trkOf o)).space = dscr ∧
        ∃ r ∈ sh.runs, ∃ j < r.2.1, ((r.1 : Int) + (j : Int) - (v.team.tracker (trkOf o)).base) % (2 : Int) ^ 64 / 512 = n)

/-- R238: a TCPY of no element enters no command. R239 to R242: CTEST writes 1 when every chunk of its mask is done;
CSTAT reads a tracker's bitmap or promise, or arms it when none of its chunks is pending. That a TCPY of no element checks
only its control word is the model's choice (log 27), and so is that arming in scratch space keeps bits 63:32 of BASE (log 53). -/
def Claim.TrackersAnswerTheirStatus : Prop :=
  ∀ (s : State) (v : View) (o : Opnds),
    (∀ m, Claim.Issues s v (.tcpy o m) o → v.any o = true → v.s64 (sIndex o.sa + 7) < 4 →
      (let n := v.s64 (sIndex o.sa + 2); n % 2 ^ 32 = 0 ∨ n / 2 ^ 32 % 2 ^ 16 = 0 ∨ n / 2 ^ 48 = 0) →
      ∃ t, exec (.tcpy o m) s = .next t ∧ Claim.After s t v (.tcpy o m) o []) ∧
    (∀ p, Claim.Issues s v (.ctest o p) o → Safety.ordered v.team = true → Claim.keepsBit o.dst = true →
      ∃ x, Claim.Gives s v (.ctest o p) o o.dst false (fun _ => x) ∧ x ≤ 1 ∧
        (x = 1 ↔ ∀ n < 64, (Claim.scalar v o .u64 o.sa).testBit n = true →
          (v.team.tracker (trkOf o)).touch.getLsbD n = true ∧ (v.team.tracker (trkOf o)).pend.get 0 n = 0)) ∧
    (∀ p d, cmodeOf o = 0 → o.dst = .s d → v.any o = true → Claim.Issues s v (.cstat o p) o →
      ∃ t g, exec (.cstat o p) s = .next t ∧ t.mem = s.mem ∧ t.grp? v.iss = some g ∧
        ∀ n < 64, (g.getS d.val).getLsbD n = ((v.team.tracker (trkOf o)).touch.getLsbD n && (v.team.tracker (trkOf o)).pend.get 0 n == 0)) ∧
    (∀ p d, cmodeOf o = 1 → o.dst = .s d → v.any o = true → Claim.Issues s v (.cstat o p) o →
      ∃ t g, exec (.cstat o p) s = .next t ∧ t.mem = s.mem ∧ t.grp? v.iss = some g ∧
        g.getS d.val = BitVec.ofNat 64 (v.team.tracker (trkOf o)).promise) ∧
    (∀ p, 2 ≤ cmodeOf o → v.any o = true → v.team.trk.length = 16 → (v.team.tracker (trkOf o)).pend = [] → Claim.Issues s v (.cstat o p) o →
      ∃ t b, exec (.cstat o p) s = .next t ∧ Claim.OnlyTeam s t v.iss.team ∧ t.team? v.iss.team = some b ∧
        b = { v.team with grps := b.grps, trk := b.trk } ∧ (∀ k, k ≠ trkOf o → b.tracker k = v.team.tracker k) ∧
        b.tracker (trkOf o) = ⟨dscrOf o, Claim.scalar v o .u64 o.sa / 512 * 512, 0, [], 0, []⟩)

/-- Where a virtual byte that an engine writes stands, and where one that it reads stands. -/
def Claim.dest (s : State) (asid a : Nat) : Nat := (s.place1 asid a rightW).1
def Claim.src (s : State) (asid a : Nat) : Nat := (s.place1 asid a rightR).1

/-- Bytes that a command writes, by virtual address, stand at places of their own, in lines of their own key. -/
def Claim.apart (s : State) (asid : Nat) (xs : List (Nat × Byte)) : Prop :=
  (∀ x ∈ xs, ∀ y ∈ xs, Claim.dest s asid x.1 = Claim.dest s asid y.1 → x = y) ∧
  ∀ x ∈ xs, physKind (Claim.dest s asid x.1) = .hbm → s.mem.tags.get 0 (Claim.dest s asid x.1 / 128) = (s.place1 asid x.1 rightW).2

/-- After the step memory holds these bytes at their places, and every other byte of it is unchanged. -/
def Claim.Stored (s t : State) (asid : Nat) (xs : List (Nat × Byte)) : Prop :=
  (∀ x ∈ xs, t.mem.phys.byte (Claim.dest s asid x.1) = x.2) ∧
  ∀ pa, (∀ x ∈ xs, pa ≠ Claim.dest s asid x.1) → t.mem.phys.byte pa = s.mem.phys.byte pa

/-- Destination and source of each byte of a copy between virtual addresses. -/
def Claim.copied (sh : CopyShape) : List (Nat × Nat) :=
  sh.runs.flatMap fun r => (List.range r.2.1).map fun j => ((r.1 + j) % 2 ^ 64, (r.2.2 + j) % 2 ^ 64)

/-- A source byte of a command, in the space that it reads. -/
def Claim.copySrc (s : State) (a : Team) (c : CopyCmd) (x : Nat) : Byte :=
  if c.sscr then a.scratch.byte x else s.mem.phys.byte (Claim.src s a.asid x)

/-- A command that nothing has performed a part of, that reads no stray byte, and beside which no engine writes where it reads: nor does it
itself. -/
def Claim.undisturbed (s : State) (a : Team) (c : CopyCmd) : Prop :=
  c.words = [] ∧ c.got = [] ∧ s.mem.phys.unplaced = [] ∧ s.mem.phys.past = [] ∧ a.scratch.unplaced = [] ∧ a.scratch.past = [] ∧
    (c.sscr = false → ∀ x ∈ Claim.copied c.shape, s.stray (s.place1 a.asid x.2 rightR).2 (Claim.src s a.asid x.2) = none) ∧
    ∀ x ∈ Claim.copied c.shape, ∀ y ∈ Claim.copied c.shape,
      (c.sscr = true → c.dscr = true → x.2 / 4 ≠ y.1 / 4) ∧
      (c.sscr = false → c.dscr = false → Claim.src s a.asid x.2 / 4 ≠ Claim.dest s a.asid y.1 / 4)

/-- R220, R228, R237, R238: what a command that completes has copied, each destination byte from its source byte, of several to one
byte of scratch the last in element order. Into scratch, and with REL of PACKAGE or POD, the bytes then stand there for every reader; with
REL of TEAM or CLUSTER memory still holds what it held, and every observer within the scope of the team reads them; without REL they
are placed for nobody. Every other byte stays. -/
def Claim.CopiesBring : Prop :=
  ∀ (s : State) (n : Nat) (c : CopyCmd) (a : Team) (s1 : State), s.liveCopy n = some (c, a) → a.ref = c.iss.team →
    s.copyWords a c c.shape.words = .ok s1 → a.grps.any (fun x => !x.retired) = true → Claim.undisturbed s a c →
    ∃ t b, exec (.copyCommandComplete n) s = .next t ∧ t.team? a.ref = some b ∧
      (c.dscr = true → t.mem.phys = s.mem.phys ∧
        ∀ x, b.scratch.byte x = Claim.lastByte ((Claim.copied c.shape).map fun y => (y.1, Claim.copySrc s a c y.2)) x (a.scratch.byte x)) ∧
      (c.dscr = false → b.scratch = a.scratch ∧
        let xs := (Claim.copied c.shape).map fun x => (x.1, Claim.copySrc s a c x.2)
        Claim.apart s a.asid xs →
        (atPackage c.rel = true → Claim.Stored s t a.asid xs) ∧
        (atPackage c.rel = false → t.mem.phys.cells = s.mem.phys.cells ∧ (∀ u ∈ t.mem.phys.unplaced, u.cmd = n ∧ u.placed = c.rel) ∧
          ∀ sc, c.rel = some sc → ∀ ob, inScope a.writer sc ob = true → ∀ x ∈ xs, t.seen t.mem.phys ob (Claim.dest s a.asid x.1) = x.2))

/-- R231, R410: COPY_ENGINE_FAULT. A byte that the command reads or writes fails the checks of R186: under REPLAY, where only pages
are not present, the command waits with an entry of the fault buffer; else it stops for good, and fw3 reports the fault with its address, the
command's operation and its flag. What it has written stands. A command that has stopped does nothing any more.
Which of several failing bytes is reported is open (log 3); PC of the record is the model's reading (log 22). -/
def Claim.CopyFaults : Prop :=
  (∀ (s : State) (n : Nat), (∀ c ∈ s.eng.copies, c.num = n → c.failed = true) →
    exec (.copyCommandComplete n) s = .next s ∧ (∀ k, exec (.copyChunkComplete n k) s = .next s) ∧ exec (.copyEngineFault n) s = .next s) ∧
  ∀ (s : State) (n : Nat) (c : CopyCmd) (a : Team), s.liveCopy n = some (c, a) → a.ref = c.iss.team →
    let bad (x : Nat) (code : Code) : Prop :=
      (c.dscr = false ∧ x ∈ (Claim.copied c.shape).map (·.1) ∧ Claim.pieceFault s a.asid rightW anyFrame (x, 1) = some code) ∨
      (c.sscr = false ∧ x ∈ (Claim.copied c.shape).map (·.2) ∧ Claim.pieceFault s a.asid rightR anyFrame (x, 1) = some code) ∨
      ((c.dscr = true ∨ c.sscr = true) ∧ code = .scrBound)
    (c.words = [] → (∃ x code, bad x code ∧ code ≠ .scrBound) → s.failingWords a c ≠ []) ∧
    (s.failingWords a c ≠ [] → (∀ x ∈ s.failingWords a c, ∃ f, f.code ≠ .mchk ∧ (x = .fail f ∨ (x = .absent f ∧ (s.ctx? a.asid).any (·.replay) = false))) →
      Claim.canReport s a →
      ∃ t x code, exec (.copyEngineFault n) s = .next t ∧ bad x code ∧
        t.eng.copies = s.eng.copies.map (fun y => if y.num = c.num then { y with failed := true } else y) ∧
        Claim.Reported s t a code.num 2 0 x 0xFFFFFFFF c.iss.recno (c.op + 2 ^ 16 * c.fl.elim 15 (·.val))) ∧
    (s.failingWords a c ≠ [] → (∀ x ∈ s.failingWords a c, ∃ f, x = .absent f) → (s.ctx? a.asid).any (·.replay) = true →
      s.mem.parked.any (fun p => p.who == .cmd n) = false → (s.mem.parked.filter fun p => p.cluster == clusterOf a.ref.core).length < 64 →
      ∃ t x, exec (.copyEngineFault n) s = .next t ∧ bad x .xlate ∧
        t = { s with sched := { s.sched with nextCmd := s.sched.nextCmd + 1 },
                     mem := { s.mem with parked := s.mem.parked ++ [⟨s.sched.nextCmd, clusterOf a.ref.core, a.asid, x, none, .cmd n⟩] } })

/-- R220, R224, R226: the engine's steps. COPY_CHUNK_COMPLETE counts a chunk of the tracker down, and with REL of PACKAGE or POD, or into
scratch, leaves none of its writes unplaced; COPY_COMMAND_COMPLETE removes the command and counts its flag down. -/
def Claim.CopiesComplete : Prop :=
  ∀ (s : State) (n : Nat) (c : CopyCmd) (a : Team), s.liveCopy n = some (c, a) → a.ref = c.iss.team →
    (∀ chunk k s1, chunk ∈ c.chunks → c.trk = some k → k < a.trk.length → chunk < 64 →
      s.copyWords a c (c.shape.chunkWords (a.tracker k) chunk) = .ok s1 →
      ∃ t b, exec (.copyChunkComplete n chunk) s = .next t ∧ t.team? c.iss.team = some b ∧
        (b.tracker k).pend.get 0 chunk = (a.tracker k).pend.get 0 chunk - 1 ∧ (b.tracker k).touch = (a.tracker k).touch ∧
        (∀ x ∈ t.eng.copies, x.num = n → chunk ∉ x.chunks) ∧
        (c.dscr = false → atPackage c.rel = true → ∀ u ∈ t.mem.phys.unplaced, u.cmd = n → u.chunk ≠ some chunk) ∧
        (c.dscr = true → ∀ u ∈ b.scratch.unplaced, u.cmd = n → u.chunk ≠ some chunk)) ∧
    (∀ s1, s.copyWords a c c.shape.words = .ok s1 → a.grps.any (fun x => !x.retired) = true →
      ∃ t, exec (.copyCommandComplete n) s = .next t ∧ (∀ x ∈ t.eng.copies, x.num ≠ n) ∧
        ∀ f g, c.fl = some f → a.grp? c.iss.recno = some g → g.flags.length = 12 →
          ∃ g', t.grp? c.iss = some g' ∧ g'.flag f = g.flag f - 1 ∧ ∀ k, k ≠ f → g'.flag k = g.flag k)

/-- R220, R224, R226 to R228, R231, R237, R238, R410, R412: the engine's steps: a chunk and a command complete with what they copy, or stop
at a fault, which fw3 reports, and then never complete. -/
def Obligations.CopiesCompleteOrFault : Prop := Claim.CopiesComplete ∧ Claim.CopiesBring ∧ Claim.CopyFaults

/-- R241: when its promised time has come, a CPROM whose chunks are done goes on; otherwise the group traps with
PROMISE_MISS, or without a handler takes W3 and waits for the chunks.
What the trap record of a miss holds is the model's reading (log 42). -/
def Claim.PromisesAreKeptOrTrap : Prop :=
  ∀ (s : State) (r : TeamRef) (a : Team) (g : Grp) (id trk pr : Nat) (m : W64) (tids : List Nat) (saved : TrapRec),
    s.team? r = some a → a.ref = r → a.grps = [g] → Safety.ordered a = true → a.msets = [] →
    g.waits = [(id, ⟨tids, .promise trk m pr, some saved⟩)] →
    (s.clock.time < pr → exec (.cpromPromiseTime r g.recno) s = .next s) ∧
    (pr ≤ s.clock.time → (a.tracker trk).covers m = true →
      ∃ t b g', exec (.cpromPromiseTime r g.recno) s = .next t ∧ Claim.OnlyTeam s t r ∧ t.team? r = some b ∧ b.grp? g.recno = some g' ∧
        g'.waits = [] ∧ g'.trap = g.trap ∧ ∀ th ∈ a.threads, th.recno = g.recno → th.run = .suspended (.wait id) → th.meet = 0 →
          b.thread? th.tid = some { th with run := .runnable, age := s.sched.steps }) ∧
    (pr ≤ s.clock.time → (a.tracker trk).covers m = false → a.hdr.handler = 0 →
      ∃ t b g', exec (.cpromPromiseTime r g.recno) s = .next t ∧ Claim.OnlyTeam s t r ∧ t.team? r = some b ∧ b.grp? g.recno = some g' ∧
        b.threads = a.threads ∧ g' = { g with warn := g.warn ||| 8, waits := [(id, ⟨tids, .chunks trk m, some saved⟩)] }) ∧
    (pr ≤ s.clock.time → (a.tracker trk).covers m = false → a.hdr.handler ≠ 0 → g.trap = none →
      s.landing r.core a.asid a.hdr.handler = none →
      ∃ t b g', exec (.cpromPromiseTime r g.recno) s = .next t ∧ Claim.OnlyTeam s t r ∧ t.team? r = some b ∧ b.grp? g.recno = some g' ∧
        g'.trap = some saved ∧ g'.trapv = m ∧ g'.trapc.toNat % 2 ^ 8 = Code.promiseMiss.num ∧ g'.waits = [] ∧
        ∀ th ∈ a.threads, th.tid ∈ tids → th.meet = 0 →
          b.thread? th.tid = some { th with pc := a.hdr.handler, run := .runnable, age := s.sched.steps })

/-- CTEST, CSTAT, CWAIT and CPROM. -/
def Obligations.TrackersAndPromises : Prop := Claim.TrackersAnswerTheirStatus ∧ Claim.PromisesAreKeptOrTrap

/-! ## Matrices: class 0x8 -/

/-- The command that a matrix instruction other than MMA enters: operation, base address and checks (R280 to R284). -/
def Claim.matrixOf (v : View) : Instr → Option (Opnds × MatMods × MatOp × Nat × Prop)
  | .mzero o m => some (o, m, .mzero, 0, True)
  | .mrnm o m => some (o, m, .mrnm (sval 16 (Claim.scalar v o .s16 o.sa)), 0, True)
  | .mld o m => some (o, m, .mld, Claim.scalar v o .u64 o.sa, rawCheck (Claim.scalar v o .u64 o.sa) = .pass)
  | .mexp o m => some (o, m, .mexp, Claim.scalar v o .u64 o.sa, rawCheck (Claim.scalar v o .u64 o.sa) = .pass)
  | .mst o m => some (o, m, .mst (sval 64 (Claim.scalar v o .u64 o.sb)) m.ofmt m.sat, Claim.scalar v o .u64 o.sa,
      mstCheck (Claim.scalar v o .u64 o.sa) (Claim.scalar v o .u64 o.sb) (Ofmt.bytes m.ofmt) = .pass)
  | .mmov o m => some (o, m, .mmov (o.imm.toNat % 8), 0, True)
  | _ => none

/-- `t` is `s` after an instruction that only put command `c` at the end of its group's matrix queue. -/
def Claim.Queued (s t : State) (v : View) (o : Opnds) (c : MatCmd) : Prop :=
  t.mem = s.mem ∧ t.eng = s.eng ∧ t.front = s.front ∧ ∃ b g, t.team? v.iss.team = some b ∧ b = { v.team with grps := b.grps } ∧
    b.grp? v.iss.recno = some g ∧ g.mq = v.grp.mq ++ [c] ∧ g.s = v.grp.s ∧ g.gang = v.grp.gang ∧
    (∀ f, o.fl = some f → g.flag f = v.grp.flag f + 1) ∧ ∀ f, o.fl ≠ some f → g.flag f = v.grp.flag f

/-- R264, R272, R274, R275, R280 to R284: the matrix instructions enter one command at the end of their group's queue, with
the operands they read, and change no tile, register or memory; only an MMA shares its B; MGANG only sets the group's gang. -/
def Claim.MatrixInstructionsQueueTheirCommand : Prop :=
  (∀ (s : State) (v : View) (i : Instr) (o : Opnds) (m : MatMods) (op : MatOp) (base : Nat) (ok : Prop),
    Claim.matrixOf v i = some (o, m, op, base, ok) → Claim.Issues s v i o → v.any o = true → ok → v.grp.flags.length = 12 →
    v.grp.mq.length < 8 →
    ∃ t c, exec i s = .next t ∧ Claim.Queued s t v o c ∧ c.num = s.sched.nextCmd ∧ c.iss = v.iss ∧ c.fl = o.fl ∧ c.op = op ∧
      c.acc = m.acc.val ∧ c.base = base ∧ c.rel = m.rel ∧ c.members = [v.iss.recno] ∧ c.words = [] ∧ c.failed = false ∧ c.shb = false) ∧
  (∀ (s : State) (v : View) (o : Opnds) (m : MatMods) (f : W32), Claim.Issues s v (.mma o m) o → v.any o = true →
    (∀ th ∈ v.active o, BitVec.ofNat 32 (Claim.u32 v o o.sc (some th)) = f) → fmtValid f = true → v.grp.flags.length = 12 → v.grp.mq.length < 8 →
    let members := if v.grp.gang = 0 then [v.iss.recno] else (List.range 32).filter fun n => v.grp.gang.getLsbD n
    let descr := [0, 1, 2].map (fun k => v.grp.getS (sIndex o.sa + k)) ++ [0, 1, 2, 3].map fun k => v.grp.getS (sIndex o.sb + k)
    (members.head? = some v.iss.recno → mmaCheck descr f = .pass) →
    ∃ t c, exec (.mma o m) s = .next t ∧ Claim.Queued s t v o c ∧ c.op = .mma ∧ c.acc = m.acc.val ∧ c.fmt = some f ∧
      c.members = members ∧ c.descr = descr ∧ c.shb = m.shb ∧ c.iss = v.iss ∧ c.fl = o.fl) ∧
  (∀ (s : State) (v : View) (o : Opnds) (m : MatMods), Claim.Issues s v (.mgang o m) o → v.any o = true →
    let x := Claim.scalar v o .u32 o.sa
    (x = 0 ∨ x = 2 ^ v.iss.recno ∨ (x.testBit v.iss.recno = true ∧ popcount 32 x ≤ 6 ∧ x < 2 ^ (v.team.hdr.threads / 32))) →
    ∃ t b g, exec (.mgang o m) s = .next t ∧ Claim.OnlyTeam s t v.iss.team ∧ t.team? v.iss.team = some b ∧
      b = { v.team with grps := b.grps } ∧ b.grp? v.iss.recno = some g ∧ g.mq = v.grp.mq ∧ g.flags = v.grp.flags ∧
      g.gang = if x = 0 ∨ x = 2 ^ v.iss.recno then 0 else BitVec.ofNat 32 x)

/-- R265, R277, R279: MATRIX_COMMAND_ACCEPT takes the head of a record's queue into the engine; a gang's MMA when it stands
at every member's head, the heads agree and the format is given, once for all members. BROADCAST_FIRST_FETCH closes a set.
That a command of one member alone is accepted beside a waiting gang is the model's choice (log 53), and so is that the step
closes every set of the cluster with that key, to any later member (log 28). -/
def Claim.MatrixCommandsAreAccepted : Prop :=
  (∀ (s : State) (r : TeamRef) (a : Team) (g : Grp) (c : MatCmd) (q : List MatCmd), s.team? r = some a → a.grp? g.recno = some g →
    g.mq = c :: q → c.failed = false → a.ending = none → c.members.length ≤ 1 →
    ∃ t b g', exec (.matrixCommandAccept r g.recno) s = .next t ∧ t.mem = s.mem ∧ t.team? r = some b ∧ b.threads = a.threads ∧
      b.tiles = a.tiles ∧ b.grp? g.recno = some g' ∧ g' = { g with mq := q, freedAt := (s.sched.steps :: g.freedAt).take 8 } ∧
      (c.shb = false → t.eng.bsets = s.eng.bsets) ∧
      t.eng.mats = s.eng.mats ++ [{ c with ends := [(c.iss, c.fl)], nums := [(c.iss, c.num)] }] ∧ t.eng.copies = s.eng.copies) ∧
  (∀ (s : State) (r : TeamRef) (a : Team) (n : Nat) (c lead : MatCmd) (rest : List (Nat × MatCmd)) (f : W32), s.team? r = some a →
    (a.grp? n).bind (·.mq.head?) = some c → c.failed = false → a.ending = none → 1 < c.members.length → a.deadHeads = [] →
    a.gangHeads c.members = some ((lead.iss.recno, lead) :: rest) → headsAgree ((lead.iss.recno, lead) :: rest) = true → lead.fmt = some f →
    ∃ t, exec (.matrixCommandAccept r n) s = .next t ∧ t.mem = s.mem ∧
      let hs := lead :: rest.map (·.2)
      t.eng.mats = s.eng.mats ++ [{ lead with
        ends := hs.map fun x => (x.iss, x.fl), nums := hs.map fun x => (x.iss, x.num),
        bound := { lead.bound with scopes := hs.flatMap (·.bound.scopes) } }]) ∧
  (∀ (s : State) (cluster : Nat) (key : W64), ∃ t, exec (.broadcastFirstFetch cluster key) s = .next t ∧
    t = { s with eng := { s.eng with bsets := t.eng.bsets } } ∧ t.eng.bsets.length = s.eng.bsets.length ∧
    (∀ b ∈ t.eng.bsets, b.cluster = cluster → b.key = key → b.fetched = true) ∧
    ∀ b ∈ s.eng.bsets, b.cluster ≠ cluster ∨ b.key ≠ key → b ∈ t.eng.bsets)

/-- From a matrix instruction to its acceptance. -/
def Obligations.MatrixInstructionsQueueAndAreAccepted : Prop := Claim.MatrixInstructionsQueueTheirCommand ∧ Claim.MatrixCommandsAreAccepted

/-- Mantissa and tag of an element's image, R254, R255. -/
def Claim.mant (x : W64) : Int := sval 48 x.toNat
def Claim.tag (x : W64) : Nat := x.toNat / 2 ^ 48 % 4
/-- The image of a normal element. -/
def Claim.image (m : Int) : Nat := (m % (2 : Int) ^ 48).toNat

/-- `r` is what MST writes for an element of a tile with exponent e, R261. -/
def Claim.ReadsOut (f : Ofmt) (sat : Bool) (e : Int) (x : W64) (r : Nat) : Prop :=
  let v : ℚ := Claim.mant x * (2 : ℚ) ^ e
  let float (F : Fmt) (largest : Nat) : Prop :=
    let inf (neg : Bool) : Nat := if sat then largest + neg.toNat * 2 ^ (F.ew + F.mw) else F.inf neg
    match Claim.tag x with
    | 0 => if Claim.mant x = 0 then r = 0 else ∃ y, Claim.Rounds F .rn (decide (v < 0)) (compare |v|) y ∧ r = if F.isInf y then inf (decide (v < 0)) else y
    | 1 => r = inf false
    | 2 => r = inf true
    | _ => r = F.nan
  match f with
  | .f32 => float .f32 0x7F7FFFFF
  | .bf16 => float .bf16 0x7F7F
  | .i8 =>
    match Claim.tag x with
    | 0 => ∃ n, Claim.RoundsInt .rn v n ∧ (r : Int) = (if sat then min (max n (-128)) 127 else n) % 256
    | 1 => r = if sat then 127 else 0
    | 2 => r = if sat then 128 else 0
    | _ => r = 0

/-- The bytes that MEXP or MST stores of a tile, by virtual address: the raw image of R283, or the elements as they are read out, each at
base + m * rs + n * z (R284). -/
def Claim.stored (c : MatCmd) (x : Tile) (out : Nat → Nat) : List (Nat × Byte) :=
  match c.op with
  | .mexp => (List.range 32776).map fun i => ((c.base + i) % 2 ^ 64,
      BitVec.ofNat 8 (if i < 32768 then (x.els.get 0 (i / 8)).toNat / 256 ^ (i % 8) else (x.e % (2 : Int) ^ 16).toNat / 256 ^ (i - 32768)))
  | .mst rs f _ => (List.range 4096).flatMap fun i => (List.range (Ofmt.bytes f)).map fun (j : Nat) =>
      (wrap 64 (sval 64 c.base + (i / 64 : Nat) * rs + (i % 64 : Nat) * (Ofmt.bytes f : Int) + j), BitVec.ofNat 8 (out i / 256 ^ (j : Nat)))
  | _ => []

/-- The bytes that an MMA reads for a block, R246, R249: A's element k of row m, the byte that holds weight k of B's column n, and the scales
of row m and of column n. -/
def Claim.matByte (s : State) (a : Team) (va : Int) : Byte := s.mem.phys.byte (Claim.src s a.asid (va % (2 : Int) ^ 64).toNat)
def Claim.mmaA (s : State) (a : Team) (c : MatCmd) (b m k : Nat) : Int :=
  sval 8 (Claim.matByte s a (sval 64 (c.reg 0) + m * sval 64 (c.reg 1) + (32 * b + k : Nat))).toNat
def Claim.mmaCode (s : State) (a : Team) (c : MatCmd) (f : W32) (b n k : Nat) : Nat :=
  let at_ (off : Nat) : Nat := (Claim.matByte s a (sval 64 (c.reg 3) + n * sval 64 (c.reg 4) + off)).toNat
  match f.toNat % 4 with
  | 0 => at_ (8 * b + k / 4) / 4 ^ (k % 4) % 4
  | 1 => at_ (16 * b + k / 2) / 16 ^ (k % 2) % 16
  | _ => at_ (32 * b + k)
/-- The weight of a code, R244, R245. -/
def Claim.weight (f : W32) (x : Nat) : Int :=
  match f.toNat % 4 with
  | 0 => if x = 1 then 1 else if x = 3 then -1 else 0
  | 1 => if 8 ≤ x then (x : Int) - 16 else x
  | _ => if 128 ≤ x then (x : Int) - 256 else x
def Claim.mmaScale (s : State) (a : Team) (base g i : Nat) : Nat :=
  leNat ((List.range 4).map fun j => Claim.matByte s a (sval 64 base + (4 * (64 * g + i) + j : Nat)))

/-- The exact partial P of an element in a block, R251, R253. -/
def Claim.mmaP (s : State) (a : Team) (c : MatCmd) (f : W32) (b i : Nat) : Int :=
  ((List.range 32).map fun k => Claim.mmaA s a c b (i / 64) k * Claim.weight f (Claim.mmaCode s a c f b (i % 64) k)).sum

/-- `y` is `x` after a block with the scale products S and the partials P, R256 to R258: the exponent rises by the least d at which no sum of
rounded terms reaches 2^47, or to 32767; each normal element takes its sum, or an infinity where it does not fit, and
tags combine. -/
def Claim.BlockAdded (x y : Tile) (S : Nat → Nat) (P : Nat → Int) : Prop :=
  let finite (i : Nat) : Prop := S i / 2 ^ 23 % 2 ^ 8 ≠ 2 ^ 8 - 1
  let term (i : Nat) : ℚ := P i * Claim.num .f32 (S i)
  let el (i : Nat) : W64 := x.els.get 0 i
  let sum (d i : Nat) (n : Int) : Prop := ∃ m k, Claim.RoundsInt .rn (Claim.mant (el i) / (2 : ℚ) ^ d) m ∧
    Claim.RoundsInt .rn (term i / (2 : ℚ) ^ (x.e + d)) k ∧ n = m + k
  let fits (d : Nat) : Prop := ∀ i < 4096, Claim.tag (el i) = 0 → finite i → ∀ n, sum d i n → |n| < 2 ^ 47
  let nan (i : Nat) : Prop := Fmt.f32.isNan (S i) = true ∨ (¬ finite i ∧ P i = 0)
  let neg (i : Nat) : Bool := decide (P i < 0) != (S i).testBit 31
  ∃ d : Nat, y.e = x.e + d ∧ d ≤ (32767 - x.e).toNat ∧ (∀ j < d, ¬ fits j) ∧ (fits d ∨ d = (32767 - x.e).toNat) ∧
    ∀ i < 4096,
      let tagged (n : Nat) : Prop := (y.els.get 0 i).toNat = n * 2 ^ 48
      (Claim.tag (el i) = 3 ∨ nan i → tagged 3) ∧
      (Claim.tag (el i) ≠ 3 → ¬ nan i →
        (Claim.tag (el i) = 0 → finite i → ∃ n, sum d i n ∧
          if |n| < 2 ^ 47 then (y.els.get 0 i).toNat = Claim.image n
          else tagged (if Claim.mant (el i) * (2 : ℚ) ^ x.e + term i < 0 then 2 else 1)) ∧
        (Claim.tag (el i) = 0 → ¬ finite i → tagged (if neg i then 2 else 1)) ∧
        (Claim.tag (el i) ≠ 0 → finite i ∨ (Claim.tag (el i) = 2 ↔ neg i = true) → tagged (Claim.tag (el i))) ∧
        (Claim.tag (el i) ≠ 0 → ¬ (finite i ∨ (Claim.tag (el i) = 2 ↔ neg i = true)) → tagged 3))

/-- The tile of an MMA before and after its first n blocks, R252, R256, R260, R278: each adds the products of its rows and columns under the
rounded product of its scales. -/
def Claim.MmaApplied (s : State) (a : Team) (c : MatCmd) (f : W32) (n : Nat) (T : Nat → Tile) : Prop :=
  ∀ b < n, ∃ S : Nat → Nat,
    (∀ i < 4096, Claim.SumIs .f32 .rn [(false, [(.f32, Claim.mmaScale s a (c.reg 2) (b / 2 ^ (f.toNat / 4 % 4)) (i / 64)),
      (.f32, Claim.mmaScale s a (c.reg 5) (b / 2 ^ (f.toNat / 16 % 4)) (i % 64))])] (S i)) ∧
    Claim.BlockAdded (T b) (T (b + 1)) S (Claim.mmaP s a c f b)

/-- What a command reads is what memory holds: no engine write stands over it or has been overwritten, no byte of it is stray, and the
broadcast set of its B, if it has one, has fetched nothing yet. -/
def Claim.matSteady (s : State) (a : Team) (c : MatCmd) : Prop :=
  s.mem.phys.unplaced = [] ∧ s.mem.phys.past = [] ∧ (∀ x, s.setOf c = some x → x.words = []) ∧
    ∀ f b r, c.fmt = some f → b ≤ f.toNat / 2 ^ 8 % 2 ^ 7 → r ∈ mmaRuns c f b → ∀ j < r.n,
      s.stray (s.place1 a.asid ((r.a + j) % 2 ^ 64) rightR).2 (Claim.src s a.asid ((r.a + j) % 2 ^ 64)) = none

/-- Of the records that a command completes for, %warn gains W0 and W2 where these say so, and no other bit. -/
def Claim.matWarns (a b : Team) (ends : List Issuer) (w0 w2 : Prop) : Prop :=
  ∃ x y : Bool, (x = true ↔ w0) ∧ (y = true ↔ w2) ∧ ∀ e ∈ ends, e.team = a.ref → ∀ g, a.grp? e.recno = some g →
    ∃ g', b.grp? e.recno = some g' ∧ g'.warn = g.warn ||| (if x then 1 else 0) ||| (if y then 4 else 0)

/-- R246 to R261, R265, R278, R281 to R284: MATRIX_COMMAND_COMPLETE performs a command whole. The tile it writes holds zero, the
copied tile, the loaded image, the tile realigned, or for an MMA the old tile with each block's exact products added in turn, with W0
and W2 in its members; every other tile stays; each member's flag counts down; the command leaves the engine. MEXP and MST store their
bytes and no other, for every reader with REL of PACKAGE or POD, for those within the scope else. -/
def Claim.MatrixCommandsComplete : Prop :=
  ∀ (s : State) (n : Nat) (c : MatCmd) (a : Team), s.liveMat n = some (c, a) → a.ref = c.iss.team → c.acc < a.tiles.length →
    s.matFails a c = [] → s.matPoison a c = none → a.grps.any (fun x => !x.retired) = true →
    let x := a.tile c.acc
    (∃ t b, exec (.matrixCommandComplete n) s = .next t ∧ t.team? c.iss.team = some b ∧ (∀ x ∈ t.eng.mats, x.num ≠ n) ∧
      (∀ k, k ≠ c.acc → b.tile k = a.tile k) ∧
      let y := b.tile c.acc
      match c.op with
      | .mzero => y.e = -16384 ∧ ∀ i, y.els.get 0 i = 0
      | .mmov src => y = a.tile src
      | .mrnm e => (x.els.map (·.1)).Nodup → y.e = e ∧
          (∀ i, let z := x.els.get 0 i
            (Claim.tag z ≠ 0 → y.els.get 0 i = z) ∧
            (Claim.tag z = 0 → ∃ v, Claim.RoundsInt .rn (Claim.mant z * (2 : ℚ) ^ (x.e - e)) v ∧
              (y.els.get 0 i).toNat = if |v| < 2 ^ 47 then Claim.image v else if 0 < Claim.mant z then 2 ^ 48 else 2 * 2 ^ 48)) ∧
          Claim.matWarns a b [c.iss] False (e ≠ x.e ∧ ∃ i, Claim.tag (x.els.get 0 i) = 0 ∧ Claim.mant (x.els.get 0 i) ≠ 0)
      | .mld => s.mem.phys.unplaced = [] → s.mem.phys.past = [] →
          (∀ j < 32776, s.stray (s.place1 a.asid ((c.base + j) % 2 ^ 64) rightR).2 (Claim.src s a.asid ((c.base + j) % 2 ^ 64)) = none) →
          let word (i : Nat) : W64 := BitVec.ofNat 64 (leNat ((List.range 8).map fun j => Claim.matByte s a ((c.base + 8 * i + j : Nat) : Int)))
          y.e = sval 16 (word 4096).toNat ∧ ∀ i < 4096, y.els.get 0 i =
            if 2 ^ 50 ≤ (word i).toNat ∨ (Claim.tag (word i) ≠ 0 ∧ Claim.mant (word i) ≠ 0) then BitVec.ofNat 64 (3 * 2 ^ 48) else word i
      | .mst .. | .mexp => y = x
      | .mma => (c.fmt = none → y = x) ∧ ∀ f, c.fmt = some f → Claim.matSteady s a c →
          let blocks := f.toNat / 2 ^ 8 % 2 ^ 7 + 1
          ∃ T, T 0 = x ∧ T blocks = y ∧ Claim.MmaApplied s a c f blocks T ∧
            Claim.matWarns a b (c.ends.map (·.1))
              (f.toNat % 4 = 0 ∧ ∃ b < blocks, ∃ m < 64, ∃ k < 32, Claim.mmaCode s a c f b m k = 2)
              (∃ b < blocks, (T (b + 1)).e ≠ (T b).e ∧ ∃ i < 4096, Claim.tag ((T b).els.get 0 i) = 0 ∧ Claim.mant ((T b).els.get 0 i) ≠ 0)) ∧
    ((c.ends.map (·.1.recno)).Nodup → (∀ e ∈ c.ends, e.1.team = c.iss.team) → (∀ g ∈ a.grps, g.flags.length = 12) →
      ∃ t, exec (.matrixCommandComplete n) s = .next t ∧ ∀ e ∈ c.ends, ∀ f g, e.2 = some f → a.grp? e.1.recno = some g →
        ∃ g', t.grp? e.1 = some g' ∧ g'.flag f = g.flag f - 1 ∧ ∀ k, k ≠ f → g'.flag k = g.flag k) ∧
    ((match c.op with | .mexp | .mst .. => True | _ => False) → c.words = [] → s.mem.phys.unplaced = [] →
      ∃ out, (∀ rs f sat, c.op = .mst rs f sat → ∀ i < 4096, Claim.ReadsOut f sat x.e (x.els.get 0 i) (out i)) ∧
        (Claim.apart s a.asid (Claim.stored c x out) → ∃ t, exec (.matrixCommandComplete n) s = .next t ∧
          (atPackage c.rel = true → Claim.Stored s t a.asid (Claim.stored c x out)) ∧
          (atPackage c.rel = false → t.mem.phys.cells = s.mem.phys.cells ∧ (∀ u ∈ t.mem.phys.unplaced, u.cmd = n ∧ u.placed = c.rel) ∧
            ∀ sc, c.rel = some sc → ∀ ob, inScope a.writer sc ob = true → ∀ z ∈ Claim.stored c x out,
              t.seen t.mem.phys ob (Claim.dest s a.asid z.1) = z.2)))

/-- R231, R269, R410: MATRIX_ENGINE_FAULT. A piece that the command reads, or a byte that it stores, fails the checks of R186: under REPLAY,
where only pages are not present, the command waits with an entry of the fault buffer; else it stops for good, an MMA with the blocks
before the failing one applied, and fw3 reports the fault with its address, the command's operation and its flag. A
command that has stopped does nothing any more.
Which of several failing pieces is reported is open (log 3); PC of the record is the model's reading (log 22). -/
def Claim.MatrixFaults : Prop :=
  (∀ (s : State) (n : Nat), (∀ c ∈ s.eng.mats, c.num = n → c.failed = true) →
    exec (.matrixCommandComplete n) s = .next s ∧ exec (.matrixEngineFault n) s = .next s) ∧
  ∀ (s : State) (n : Nat) (c : MatCmd) (a : Team), s.liveMat n = some (c, a) → a.ref = c.iss.team → s.mem.poison = [] →
    let fails (b : Nat) (p : Nat × Nat) (code : Code) : Prop := ∃ f r, c.fmt = some f ∧ r ∈ mmaRuns c f b ∧ p ∈ pieces r.a r.n ∧
      Claim.pieceFault s a.asid rightR anyFrame p = some code
    let bad (x : Nat) (code : Code) : Prop :=
      match c.op with
      | .mma => ∃ f b k, c.fmt = some f ∧ b ≤ f.toNat / 2 ^ 8 % 2 ^ 7 ∧ fails b (x, k) code
      | .mld => ∃ k, (x, k) ∈ pieces c.base 32776 ∧ Claim.pieceFault s a.asid rightR anyFrame (x, k) = some code
      | .mst .. | .mexp => x ∈ (Claim.stored c (a.tile c.acc) fun _ => 0).map (·.1) ∧ Claim.pieceFault s a.asid rightW anyFrame (x, 1) = some code
      | _ => False
    (c.words = [] → (∃ x code, bad x code) → s.matFails a c ≠ []) ∧
    (s.matFails a c ≠ [] → (∀ x ∈ s.matFails a c, ∃ f, x = .fail f ∨ (x = .absent f ∧ (s.ctx? a.asid).any (·.replay) = false)) → Claim.canReport s a →
      let op := match c.op with
        | .mma => 0x201 | .mzero => 0x202 | .mrnm _ => 0x203 | .mld => 0x204 | .mst .. => 0x205 | .mexp => 0x206 | .mmov _ => 0x207
      ∃ t b x code, exec (.matrixEngineFault n) s = .next t ∧ bad x code ∧
        t.eng.mats = s.eng.mats.map (fun y => if y.num = c.num then { y with failed := true } else y) ∧
        Claim.Reported s t a code.num 2 0 x 0xFFFFFFFF c.iss.recno (op + 2 ^ 16 * c.fl.elim 15 (·.val)) ∧
        t.team? a.ref = some b ∧ (∀ k, k ≠ c.acc ∨ c.op ≠ .mma → b.tile k = a.tile k) ∧
        ∀ f, c.op = .mma → c.fmt = some f → c.acc < a.tiles.length → Claim.matSteady s a c →
          ∃ m T, (∀ j < m, ∀ p code, ¬ fails j p code) ∧ (∃ p code, fails m p code) ∧ T 0 = a.tile c.acc ∧ T m = b.tile c.acc ∧
            Claim.MmaApplied s a c f m T) ∧
    (s.matFails a c ≠ [] → (∀ x ∈ s.matFails a c, ∃ f, x = .absent f) → (s.ctx? a.asid).any (·.replay) = true →
      s.mem.parked.any (fun p => p.who == .cmd n) = false → (s.mem.parked.filter fun p => p.cluster == clusterOf a.ref.core).length < 64 →
      ∃ t x, exec (.matrixEngineFault n) s = .next t ∧ bad x .xlate ∧
        t = { s with sched := { s.sched with nextCmd := s.sched.nextCmd + 1 },
                     mem := { s.mem with parked := s.mem.parked ++ [⟨s.sched.nextCmd, clusterOf a.ref.core, a.asid, x, none, .cmd n⟩] } })

/-- R246 to R261, R265, R269, R278, R281 to R284, R410, R412: a matrix command completes, or stops at a fault, which fw3 reports, and then
never completes. -/
def Obligations.MatrixCommandsCompleteOrFault : Prop := Claim.MatrixCommandsComplete ∧ Claim.MatrixFaults

/-! ## Work: class 0x9 -/

/-- `t` is `s` after an instruction that entered one command, the number `nextCmd` of `s`: memory, the threads and the scalar
registers are as they were, and the command's flag counts up. -/
def Claim.Entered (s t : State) (v : View) (o : Opnds) : Prop :=
  t.mem = s.mem ∧ t.sched.nextCmd = s.sched.nextCmd + 1 ∧ ∃ b g, t.team? v.iss.team = some b ∧
    b = { v.team with grps := b.grps } ∧ b.grp? v.iss.recno = some g ∧ g.s = v.grp.s ∧
    (∀ f, o.fl = some f → g.flag f = v.grp.flag f + 1) ∧ (∀ f, o.fl ≠ some f → g.flag f = v.grp.flag f)

/-- The work command `a` is on its way to the front end. -/
def Claim.Sent (s t : State) (v : View) (o : Opnds) (a : FrontAct) : Prop :=
  Claim.Entered s t v o ∧ t.eng = { s.eng with landings := s.eng.landings ++ [⟨s.sched.nextCmd, v.iss, o.fl, .front a, [], []⟩] } ∧
    t.parts = s.parts ∧ t.front.feedqs = s.front.feedqs ∧ t.front.launches = s.front.launches

/-- A feed queue that a team of the partition may use, and a scratch offset of 64 bytes that lies in its scratch (R311). -/
def Claim.queueOk (v : View) (o : Opnds) (q : FeedQ) : Prop :=
  v.s.feedq? (Claim.scalar v o .u32 o.sa) = some q ∧ Claim.scalar v o .u32 o.sa < 256 ∧ q.part = v.team.part ∧ q.enabled = true ∧
    Claim.scalar v o .u32 o.sb % 64 = 0 ∧ Claim.scalar v o .u32 o.sb + 64 ≤ v.team.hdr.scratch

/-- R310, R311, R312, R314: DENPUT, QPUSH and LAUNCH send their record to the front end, where it lands later; QPOP captures
its wait for its clause's CLEND. A den that is not open faults PROT. -/
def Claim.WorkInstructionsSendTheirRecord : Prop :=
  ∀ (s : State) (v : View) (o : Opnds), v.any o = true → v.grp.flags.length = 12 →
    (∀ d, s.den? (Claim.scalar v o .u32 o.sa) = some d → Claim.scalar v o .u32 o.sa < 2048 → d.opened = true → d.part = v.team.part →
      Claim.scalar v o .u32 o.sb % 64 = 0 → Claim.scalar v o .u32 o.sb + 64 ≤ v.team.hdr.scratch → d.records.length + d.reserved < 256 →
      Claim.Issues s v (.denput o) o →
      ∃ t, exec (.denput o) s = .next t ∧
        Claim.Sent s t v o (.denput (Claim.scalar v o .u32 o.sa) (s.scratchRead v.team (Claim.scalar v o .u32 o.sb) 64)) ∧
        t.den? (Claim.scalar v o .u32 o.sa) = some { d with reserved := d.reserved + 1 } ∧
        ∀ k, k ≠ Claim.scalar v o .u32 o.sa → t.den? k = s.den? k) ∧
    ((∀ d, s.den? (Claim.scalar v o .u32 o.sa) = some d → d.opened = false) → Claim.Issues s v (.denput o) o →
      exec (.denput o) s = .next (s.raise v o { code := .prot, val := some (Claim.scalar v o .u32 o.sa) })) ∧
    (∀ q, Claim.queueOk v o q → Claim.Issues s v (.qpush o) o →
      ∃ t, exec (.qpush o) s = .next t ∧
        Claim.Sent s t v o (.qpush (Claim.scalar v o .u32 o.sa) (s.scratchRead v.team (Claim.scalar v o .u32 o.sb) 60) o.dst) ∧
        (o.fl = none → (t.grp? v.iss).bind (·.stall) = some s.sched.nextCmd)) ∧
    (∀ q m, Claim.queueOk v o q → Claim.Issues s v (.qpop o m) o →
      ∃ t, exec (.qpop o m) s = .next t ∧ Claim.AfterTerm s t v (.qpop o m) o []
        (some (.wait (.pop o.dst (Claim.scalar v o .u32 o.sa) (Claim.scalar v o .u32 o.sb) (m == .tryOnce) none) (v.present.map (·.tid))))) ∧
    (let a := v.s64 (sIndex o.sa)
     a % 128 = 0 → firstFail ((pieces a 128).map (s.checkPiece v.team.asid rightR anyFrame)) = .pass →
      v.poisonAt (pieces a 128) = none → Claim.Issues s v (.launch o) o →
      ∃ t, exec (.launch o) s = .next t ∧
        Claim.Sent s t v o (.launch ((pieces a 128).flatMap fun p => s.virtRead v.team.writer v.team.asid p.1 p.2 rightR) o.dst s.sched.steps))

/-- The landing `l`, of a team that is not at its end, has reached the front end: it is gone, its flag counts down, and its result
register holds `x`, if it has one. -/
def Claim.Landed (s t : State) (l : Landing) (g : Grp) (dst : Spec) (x : Nat) : Prop :=
  t.eng = { s.eng with landings := s.eng.landings.filter fun y => y.num != l.num } ∧
  ∃ g', t.grp? l.iss = some g' ∧ (∀ f, l.fl = some f → g'.flag f = g.flag f - 1) ∧ (∀ f, l.fl ≠ some f → g'.flag f = g.flag f) ∧
    ∀ d, dst = .s d → g'.getS d.val = BitVec.ofNat 64 x

/-- R306, R310, R311, R314: what lands at the front end. A DENPUT's record is appended to its den, and the record that completes
the coalescing count triggers a team with the oldest records; a QPUSH writes its record with SEQ at the next reserved index,
takes RSV and TAIL past it and answers 0, or answers 1 of a full queue; a LAUNCH's record is checked as a host's, and the
answer is the launch id, or a refusal with its reason. Appends of one group enter in its order.
When each lands is the schedule's (log 1). -/
def Claim.WorkLandsAtTheFrontEnd : Prop :=
  ∀ (s : State) (l : Landing) (a : Team) (g : Grp), s.eng.landings.find? (fun x => x.num == l.num) = some l →
    s.team? l.iss.team = some a → a.ref = l.iss.team → a.grp? l.iss.recno = some g → g.flags.length = 12 →
    a.grps.any (fun x => !x.retired) = true → Safety.ordered a = true →
    (∀ n data d, l.kind = .front (.denput n data) → s.den? n = some d → d.num = n → s.denBehind l = false → d.opened = true → d.cancelled = false →
      let all := d.records ++ [data]
      let timer := if d.records = [] ∧ d.lrec.gridz ≠ 0 then some (s.clock.time + 1000 * d.lrec.gridz) else d.timer
      let x : DenTeam := ⟨(s.clock.time + d.lrec.deadline) % 2 ^ 48, s.front.accSeq + 1, all.take d.lrec.gridy⟩
      ∃ t, s.perform (.land l.num) = .next t ∧ Claim.Landed s t l g .zero 0 ∧ t.mem = s.mem ∧
        (all.length < d.lrec.gridy → t.den? n = some { d with records := all, reserved := d.reserved - 1, timer } ∧ t.front.accSeq = s.front.accSeq) ∧
        (d.lrec.gridy ≤ all.length → t.front.accSeq = s.front.accSeq + 1 ∧
          let rest := all.drop d.lrec.gridy
          t.den? n = some { d with records := rest, reserved := d.reserved - 1, ready := d.ready ++ [x],
                                   timer := if rest = [] ∨ d.lrec.gridz = 0 then none else some (s.clock.time + 1000 * d.lrec.gridz) })) ∧
    (∀ n data, l.kind = .front (.denput n data) → s.denBehind l = true → s.perform (.land l.num) = .next s) ∧
    (∀ n data dst q, l.kind = .front (.qpush n data dst) → s.feedq? n = some q → q.num = n →
      (q.rsv - q.head = 2 ^ q.l → ∃ t, s.perform (.land l.num) = .next t ∧ Claim.Landed s t l g dst 1 ∧ t.mem = s.mem ∧ t.front = s.front) ∧
      (∀ p, q.rsv - q.head ≠ 2 ^ q.l → q.sleepers = [] → data.length = 60 → s.translate q.asid (q.slot q.rsv) rightW = .ok p →
        ∃ t, s.perform (.land l.num) = .next t ∧ Claim.Landed s t l g dst 0 ∧
          t.feedq? n = some { q with rsv := q.rsv + 1, tail := max q.tail (q.rsv + 1) } ∧
          ∀ j < 64, t.mem.phys.byte (p.pa + j) = (data ++ leBytes 4 (q.rsv + 1)).getD j 0)) ∧
    (∀ (p : Fin 32) data dst stamp, l.kind = .front (.launch data dst stamp) → s.perform (.land l.num) = .next s ∧
      (s.front.pendingLaunches.find? (fun y => y.1 == p.val) = none → (s.part p).flr = false → s.mem.poison = [] →
        s.deviceRecord p = some (some l, ⟨p, a.asid, a.item, stamp, data⟩) →
        (∀ n, s.checkRec p a.asid true data = .refused n →
          ∃ t, exec (.launchRecordCheck p) s = .next t ∧ Claim.Landed s t l g dst (0xFFFFFFFF00000000 + n) ∧ t.front.launches = s.front.launches) ∧
        (∀ h, s.checkRec p a.asid true data = .good h none → ∀ id s1,
          s.accept p a.asid stamp (some a.item) (parseLRec data) h none = some (id, s1) →
          id = p.val * 2 ^ 27 + (if (s.part p).ids = 2 ^ 27 - 1 then 1 else (s.part p).ids + 1) ∧
          ∃ t, exec (.launchRecordCheck p) s = .next t ∧ Claim.Landed s t l g dst id ∧ t.front = s1.front)))

/-- The defer budget of a team in microseconds: DEFER of its header, or the default of its partition (R331). -/
def Claim.deferBudget (s : State) (a : Team) : Nat := if a.hdr.defer = 0 then (s.part a.part).defdef else a.hdr.defer

/-- A resident team of a cancelled item, R304: with its region open it is discarded at once, else it sees its bit of %cancel and its budget
runs. -/
def Claim.ResidentCancelled (s t : State) (r : TeamRef) (a : Team) (bit : W32) : Prop :=
  ∃ b, t.team? r = some b ∧ b.cancel = a.cancel ||| bit ∧ b.cancelBy = some (a.cancelBy.getD (s.clock.time + 1000 * Claim.deferBudget s a)) ∧
    (a.pre = true → b.ending = some .cancel ∧ ∀ g ∈ b.grps, g.clause = none ∧ g.waits = []) ∧ (a.pre = false → b.ending = none)

/-- R304, R305, R381: `t` is `s` after a cancel of the launch id `id` of a partition: a launch keeps no undispatched team and is cancelled; a den
that was declared under the id holds no record and no team to come; a collective of the launch some chunk of which has not fired is dropped, with its ranges; and
each resident team of such a launch or den that may be cancelled is, where no collective lives. -/
def Claim.LaunchIdCancelled (s t : State) (part id : Nat) : Prop :=
  (∀ l ∈ s.front.launches, l.part = part → l.id = id → ∃ l' ∈ t.front.launches,
    l' = { l with next := l.total, restarts := [], cancelled := true, cancelBits := l.cancelBits ||| 1, hazards := l'.hazards }) ∧
  (∀ d ∈ s.front.dens, d.part = part → d.opened = true → d.id = id →
    ∃ d' ∈ t.front.dens, d'.num = d.num ∧ d'.records = [] ∧ d'.ready = [] ∧ d'.restarts = []) ∧
  (∀ c, s.coll.live.find? (·.launch == id) = some c → c.fired.length < c.bind.nchunk → (∃ l ∈ s.front.launches, l.part = part ∧ l.id = id) →
    t.coll? c.part c.bind.cid = none ∧ ∀ e ∈ t.coll.ranges, e.part = c.part → e.cid ≠ c.bind.cid) ∧
  (s.coll.live = [] → ∀ r a, s.team? r = some a → a.ref = r → a.ending = none → a.grps.any (fun g => !g.retired) = true →
    ((∃ l ∈ s.front.launches, l.part = part ∧ l.id = id ∧ a.item = .launch id) ∨
     (∃ d ∈ s.front.dens, d.part = part ∧ d.opened = true ∧ d.id = id ∧ a.item = .den d.num)) → Claim.ResidentCancelled s t r a 1)

/-- R304: `t` is `s` after a cancel of launch `id` of a partition. The launch keeps no undispatched team and is cancelled; every
other launch is as it was; a team of it that holds its region open sees bit 0 of %cancel, with its budget running. -/
def Claim.LaunchCancelled (s t : State) (part id : Nat) : Prop :=
  (∀ l ∈ s.front.launches, l.part = part → l.id = id → ∃ l' ∈ t.front.launches,
    l' = { l with next := l.total, restarts := [], cancelled := true, cancelBits := l.cancelBits ||| 1 }) ∧
  (∀ l ∈ s.front.launches, l.id ≠ id → l ∈ t.front.launches) ∧
  (∀ r a, s.team? r = some a → a.ref = r → a.item = .launch id → a.ending = none → a.pre = false →
    a.grps.any (fun g => !g.retired) = true → (∃ l ∈ s.front.launches, l.part = part ∧ l.id = id) →
    ∃ b, t.team? r = some b ∧ b.ending = none ∧ b.cancel = a.cancel ||| 1 ∧
      b.cancelBy = some (a.cancelBy.getD (s.clock.time + 1000 * Claim.deferBudget s a)))

/-- R303, R304: `t` is `s` after a cancel of a graph, phase or job id that has a counter. The counter is cancelled and gives up its
open token, if it is not gone at zero; every launch that names the id keeps no undispatched team and is cancelled, every den that
names it holds no record and no team to come, and a resident team of theirs sees the level's bit of %cancel and is discarded at once,
or its budget runs. That a cancelled counter gives up its open token, since no record may close it any more, is the model's choice (log 54). -/
def Claim.LevelCancelled (s t : State) (part : Nat) (lv : Level) (id : Nat) : Prop :=
  let bit : W32 := match lv with | .launch => 1 | .graph => 2 | .phase => 4 | .job => 8
  (∀ c ∈ t.front.levels, c.part = part → c.level = lv → c.id = id → c.cancelled = true ∧ c.opened = false) ∧
  (∀ c ∈ s.front.levels, c.part ≠ part ∨ c.level ≠ lv ∨ c.id ≠ id → s.levelCount c ≠ 0 → s.teams = [] → s.front.dens = [] → c ∈ t.front.levels) ∧
  (∀ l ∈ s.front.launches, l.part = part → l.lrec.names lv id = true → ∃ l' ∈ t.front.launches,
    l' = { l with next := l.total, restarts := [], cancelled := true, cancelBits := l.cancelBits ||| bit, hazards := l'.hazards }) ∧
  (∀ l ∈ s.front.launches, l.part ≠ part ∨ l.lrec.names lv id = false → (∀ m ∈ s.front.launches, m.id = l.id → m = l) →
    ∃ l' ∈ t.front.launches, l' = { l with hazards := l'.hazards }) ∧
  (∀ d ∈ s.front.dens, d.part = part → d.opened = true → d.lrec.names lv id = true →
    ∃ d' ∈ t.front.dens, d'.num = d.num ∧ d'.records = [] ∧ d'.ready = [] ∧ d'.restarts = [] ∧ (d.records ≠ [] → d'.timer = none)) ∧
  (∀ r a, s.team? r = some a → a.ref = r → a.ending = none → a.grps.any (fun g => !g.retired) = true →
    ((∃ l ∈ s.front.launches, l.part = part ∧ l.lrec.names lv id = true ∧ a.item = .launch l.id) ∨
     (∃ d ∈ s.front.dens, d.part = part ∧ d.opened = true ∧ d.lrec.names lv id = true ∧ a.item = .den d.num)) →
    Claim.ResidentCancelled s t r a bit)

/-- R303, R304: CANCEL.graph, .phase and .job, and the CANCEL register's levels, cancel what names the id; of an id without a
counter they have no effect. A level counter that its last launch brings to zero is freed and reports GDONE with its interrupt.
SEQ of GDONE is open (log 3), its DETAIL names the level, and the place of the ring's host memory is the model's choice (log 21). -/
def Claim.LevelsAreCancelledAndReport : Prop :=
  ∀ (lv : Level), lv ≠ .launch →
    (∀ (s : State) (v : View) (o : Opnds), v.any o = true → Claim.Issues s v (.cancel o lv) o →
      let id := Claim.scalar v o .u32 o.sa
      (s.level? v.team.part lv id = none → ∃ t, exec (.cancel o lv) s = .next t ∧ Claim.After s t v (.cancel o lv) o []) ∧
      ((s.level? v.team.part lv id).isSome = true → id ≠ 0 → s.coll.live = [] → v.team.pre = false → v.team.ending = none →
        ∃ t, exec (.cancel o lv) s = .next t ∧ Claim.LevelCancelled s t v.team.part lv id)) ∧
    (∀ (s : State) (p : Fin 32) (id : Nat), id < 2 ^ 32 →
      let code := match lv with | .launch => 0 | .graph => 1 | .phase => 2 | .job => 3
      let y : W64 := BitVec.ofNat 64 (code * 2 ^ 62 + id)
      (s.level? p lv id = none → exec (.cancelRegisterWrite p y) s = .next s) ∧
      ((s.level? p lv id).isSome = true → id ≠ 0 → s.coll.live = [] →
        ∃ t, exec (.cancelRegisterWrite p y) s = .next t ∧ Claim.LevelCancelled s t p lv id)) ∧
    ∀ (s : State) (c : LevelCtr) (l : Launch), s.front.levels = [c] → c.level = lv → c.opened = false → s.front.launches = [l] → s.front.dens = [] →
      l.part = c.part → l.lrec.names lv c.id = true → s.launchCount l = 0 → s.coll.live = [] → s.fab.regions = [] → s.mem.phys.unplaced = [] →
      l.lrec.cirq = false → l.cancelled = false → s.parts.length = 32 → c.part < 32 →
      let q := s.part c.part
      let slot := hostPa (q.sqbase + 32 * (q.sqtail % q.ringSize))
      q.flr = false → q.held = [] → q.ringRoom = true →
      ∃ t, exec (.launchComplete l.id) s = .next t ∧ t.front.launches = [] ∧ t.front.levels = [] ∧
        t.front.irqs = s.front.irqs ++ [(c.part, 0)] ∧ (t.part c.part).sqtail = q.sqtail + 1 ∧
        (let head := leBytes 4 5 ++ leBytes 4 (match lv with | .phase => 1 | .job => 2 | _ => 0) ++ leBytes 4 c.id ++ leBytes 4 0
         ∀ j < 16, t.mem.phys.byte (slot + j) = head.getD j 0) ∧
        ∀ j < 8, t.mem.phys.byte (slot + 24 + j) = (leBytes 8 s.clock.time).getD j 0

/-- R315, R316, R304, R287: CNTW reads the counter of a launch or of a named level; CANCEL, and a write of the CANCEL register
without a Reserved bit, cancel a launch or a den by its id; a launch id of another partition faults PROT.
%trapv of that fault, the id as read, is the model's choice (log 24). -/
def Claim.CountersAreReadAndLaunchesCancelled : Prop :=
  ∀ (s : State) (v : View) (o : Opnds), v.any o = true →
    let x := Claim.scalar v o .u32 o.sa
    let id := if x = 0 then v.team.launch else x
    (Claim.Issues s v (.cntw o .launch) o → id / 2 ^ 27 = v.team.part →
      ∃ t, exec (.cntw o .launch) s = .next t ∧
        Claim.After s t v (.cntw o .launch) o (v.dstS o (s.counter v.team.part .launch id))) ∧
    (∀ lv, lv ≠ .launch → Claim.Issues s v (.cntw o lv) o →
      ∃ t, exec (.cntw o lv) s = .next t ∧ Claim.After s t v (.cntw o lv) o (v.dstS o (s.counter v.team.part lv x))) ∧
    (∀ l, s.launch? id = some l → s.counter v.team.part .launch id = l.total - l.next + l.restarts.length +
      ((List.range 4).filter fun d => (s.teamsOf (.launch l.id)).any fun t => dieOf t.ref.core == d).length) ∧
    (∀ lv, lv ≠ .launch → (x = 0 ∨ s.level? v.team.part lv x = none) → s.counter v.team.part lv x = 0) ∧
    (Claim.Issues s v (.cancel o .launch) o → id / 2 ^ 27 = v.team.part →
      ∃ t, exec (.cancel o .launch) s = .next t ∧ Claim.LaunchIdCancelled s t v.team.part id) ∧
    (Claim.Issues s v (.cancel o .launch) o → id / 2 ^ 27 = v.team.part → s.coll.live = [] → s.front.levels = [] → s.front.dens = [] →
      ∃ t, exec (.cancel o .launch) s = .next t ∧ Claim.LaunchCancelled s t v.team.part id) ∧
    (id / 2 ^ 27 ≠ v.team.part →
      (Claim.Issues s v (.cntw o .launch) o → exec (.cntw o .launch) s = .next (s.raise v o { code := .prot, val := some x })) ∧
      (Claim.Issues s v (.cancel o .launch) o → exec (.cancel o .launch) s = .next (s.raise v o { code := .prot, val := some x }))) ∧
    (∀ (p : Fin 32) (y : W64),
      (y.toNat / 2 ^ 32 % 2 ^ 30 ≠ 0 → exec (.cancelRegisterWrite p y) s = .next s) ∧
      (y.toNat < 2 ^ 32 → ∃ t, exec (.cancelRegisterWrite p y) s = .next t ∧ Claim.LaunchIdCancelled s t p.val y.toNat) ∧
      (y.toNat < 2 ^ 32 → s.coll.live = [] → s.front.levels = [] → s.front.dens = [] →
        ∃ t, exec (.cancelRegisterWrite p y) s = .next t ∧ Claim.LaunchCancelled s t p.val y.toNat))

/-- What the work instructions send, and what lands. -/
def Obligations.WorkInstructionsReachTheFrontEnd : Prop := Claim.WorkInstructionsSendTheirRecord ∧ Claim.WorkLandsAtTheFrontEnd

/-- CNTW and CANCEL, of launches and of levels. -/
def Obligations.CountersAreReadAndLaunchesCancelled : Prop := Claim.CountersAreReadAndLaunchesCancelled ∧ Claim.LevelsAreCancelledAndReport

/-- R318 to R320, R328, R329: EXITS records its successor, once, and captures the ends of its threads; REGION.set opens the
team's region, and REGION.hold closes it. A mask with a Reserved bit faults SUCC_SHAPE. -/
def Obligations.SuccessorsAndRegionsAreRecorded : Prop :=
  ∀ (s : State) (v : View) (o : Opnds), v.any o = true →
    let h := v.s64 (sIndex o.sa)
    let m := Claim.scalar v o .u32 o.sb
    let x := Claim.scalar v o .u64 o.sc
    (∀ k, Claim.Issues s v (.exits o) o → v.exitsCheck h m x = .inr k →
      ∃ t b g, exec (.exits o) s = .next t ∧ Claim.OnlyTeam s t v.iss.team ∧ t.team? v.iss.team = some b ∧
        b = { v.team with grps := b.grps, succ := some (v.team.succ.getD ⟨h, BitVec.ofNat 32 m, BitVec.ofNat 64 x, k⟩) } ∧
        b.grp? v.iss.recno = some g ∧
        Claim.GrpAfter v (.exits o) o [] (some (.exit ((v.active o).map (·.tid)))) g ∧
        ∀ n, n ≠ v.iss.recno → b.grp? n = v.team.grp? n) ∧
    (Claim.Issues s v (.exits o) o → 2 ^ 15 ≤ m →
      exec (.exits o) s = .next (s.raise v o { code := .succShape, val := some m })) ∧
    (∀ md, Claim.Issues s v (.region o md) o → (md = .set → v.team.cancel = 0 ∧ v.team.cancelBy = none ∧ v.team.preempt = none) →
      ∃ t b, exec (.region o md) s = .next t ∧ Claim.OnlyTeam s t v.iss.team ∧ t.team? v.iss.team = some b ∧
        b = { v.team with grps := b.grps, pre := (md == .set),
                          rgn := if md = .set then BitVec.ofNat 32 (Claim.scalar v o .u32 o.sa) else v.team.rgn } ∧
        ∀ n, n ≠ v.iss.recno → b.grp? n = v.team.grp? n)

/-! ## The front end -/

/-- A waiting instruction of record `g` with result register `d` ended with the value `x`: its threads are runnable. -/
def Claim.Woken (s t : State) (r : TeamRef) (a : Team) (g : Grp) (id : Nat) (d : Fin 64) (x : Nat) : Prop :=
  ∃ b g', t.team? r = some b ∧ b.grp? g.recno = some g' ∧ g'.waits = [] ∧ g'.getS d.val = BitVec.ofNat 64 x ∧
    ∀ th ∈ a.threads, th.recno = g.recno → th.run = .suspended (.wait id) → th.meet = 0 →
      b.thread? th.tid = some { th with run := .runnable, age := s.sched.steps }

/-- R306: a den's timer triggers a team that takes all its records, and not before it expires. R312: a QPOP whose claimed
slot carries its SEQ copies the record to scratch and ends with the index, HEAD going past it; one whose slot does not waits. -/
def Claim.DensTriggerAndPopsComplete : Prop :=
  (∀ (s : State) (d : Den) (w : Nat), s.den? d.num = some d → d.records ≠ [] → d.timer = some w →
    (s.clock.time < w → exec (.denTimerExpiry d.num) s = .next s) ∧
    (w ≤ s.clock.time →
      let x : DenTeam := ⟨(s.clock.time + d.lrec.deadline) % 2 ^ 48, s.front.accSeq + 1, d.records⟩
      ∃ t, exec (.denTimerExpiry d.num) s = .next t ∧
        t = { s with front := { s.front with accSeq := s.front.accSeq + 1, dens := t.front.dens } } ∧
        t.den? d.num = some { d with records := [], ready := d.ready ++ [x], timer := none } ∧
        ∀ k, k ≠ d.num → t.den? k = s.den? k)) ∧
  (∀ (s : State) (r : TeamRef) (a : Team) (g : Grp) (id off i : Nat) (d : Fin 64) (once : Bool) (tids : List Nat) (q : FeedQ) (l : Leaf),
    s.team? r = some a → a.ref = r → a.grps = [g] → Safety.ordered a = true → a.msets = [] →
    g.waits = [(id, ⟨tids, .pop (.s d) q.num off once (some i), none⟩)] → s.feedq? q.num = some q →
    s.translate q.asid (q.slot i) rightR = .ok l → s.poisoned l.pa = false →
    let data := s.physRead a.writer l.gen l.pa 64
    (field data 60 4 ≠ (i + 1) % 2 ^ 32 → exec (.qpopSlotReady r g.recno) s = .next s) ∧
    (field data 60 4 = (i + 1) % 2 ^ 32 →
      ∃ t b, exec (.qpopSlotReady r g.recno) s = .next t ∧ Claim.Woken s t r a g id d i ∧ t.mem = s.mem ∧ t.team? r = some b ∧
        (∀ j < 64, b.scratch.byte (off + j) = data.getD j 0) ∧
        (∀ x, x < off ∨ off + 64 ≤ x → b.scratch.byte x = a.scratch.byte x) ∧
        (i = q.head → q.consumed = [] → t.feedq? q.num = some { q with head := i + 1, consumed := [] })))

/-- R307, R308: a RESERVE read answers the next index and takes it while the queue has room, and all ones when it has
none; TAIL moves only up and only over reserved indexes; writing 1 to STATUS clears QOVF. The block of a queue that is
not the partition's reads 0 and ignores writes. -/
def Claim.FeedQueueRegisters : Prop :=
  ∀ (s : State) (q : FeedQ) (p : Fin 32), s.feedq? q.num = some q →
    let only (t : State) : Prop := t = { s with front := { s.front with feedqs := t.front.feedqs } } ∧ ∀ k, k ≠ q.num → t.feedq? k = s.feedq? k
    (q.part ≠ p.val →
      exec (.feedqReserveRead ⟨p, q.num⟩) s = .next { s with front := { s.front with answers := s.front.answers ++ [0] } } ∧
      ∀ x, exec (.feedqTailWrite ⟨p, q.num⟩ x) s = .next s ∧ exec (.feedqStatusWrite ⟨p, q.num⟩ x) s = .next s) ∧
    (q.part = p.val →
      (∃ t, exec (.feedqReserveRead ⟨p, q.num⟩) s = .next t ∧
        t = { s with front := { s.front with
          feedqs := t.front.feedqs
          answers := s.front.answers ++ [if q.rsv - q.head = 2 ^ q.l then BitVec.allOnes 64 else BitVec.ofNat 64 q.rsv] } } ∧
        t.feedq? q.num = some (if q.rsv - q.head = 2 ^ q.l then q else { q with rsv := q.rsv + 1 }) ∧
        ∀ k, k ≠ q.num → t.feedq? k = s.feedq? k) ∧
      ∀ x : W64,
        (x.toNat ≤ q.tail → exec (.feedqTailWrite ⟨p, q.num⟩ x) s = .next s) ∧
        (q.tail < x.toNat → x.toNat ≤ q.rsv → x.toNat - q.head ≤ 2 ^ q.l → q.sleepers = [] →
          ∃ t, exec (.feedqTailWrite ⟨p, q.num⟩ x) s = .next t ∧ only t ∧ t.feedq? q.num = some { q with tail := x.toNat }) ∧
        (q.tail < x.toNat → q.rsv < x.toNat ∨ 2 ^ q.l < x.toNat - q.head →
          ∃ t, exec (.feedqTailWrite ⟨p, q.num⟩ x) s = .next t ∧ t.feedq? q.num = some { q with qovf := true } ∧
            ((s.part p).flr = false → (s.part p).held = [] → (s.part p).ringRoom = true → (p.val, 1) ∈ t.front.irqs)) ∧
        (∃ t, exec (.feedqStatusWrite ⟨p, q.num⟩ x) s = .next t ∧ only t ∧
          t.feedq? q.num = some (if x = 1 then { q with qovf := false } else q)))

/-- A den's timer, QPOP's completion, and the registers of a feed queue. -/
def Obligations.DensAndFeedQueues : Prop := Claim.DensTriggerAndPopsComplete ∧ Claim.FeedQueueRegisters

/-- A write of a partition's register, or a read that clears one: whether it is accepted, what it leaves, and what a read
answers. -/
def Claim.partWrite (s : State) : Instr → Option (Fin 32 × Bool × (Part → Part) × List W64)
  | .sqbaseWrite p x => some (p, decide (x.toNat % 4096 = 0 ∧ (s.part p).sqtail = (s.part p).sqhead),
      fun q => { q with sqbase := x.toNat, sqhead := 0, sqtail := 0 }, [])
  | .sqcfgWrite p x => some (p, decide (4 ≤ x.toNat ∧ x.toNat ≤ 16 ∧ (s.part p).sqtail = (s.part p).sqhead),
      fun q => { q with sqcfg := x.toNat, sqhead := 0, sqtail := 0 }, [])
  | .sqheadWrite p x => some (p, decide ((s.part p).sqhead ≤ x.toNat ∧ x.toNat ≤ (s.part p).sqtail), fun q => { q with sqhead := x.toNat }, [])
  | .sqdropRead p => some (p, true, fun q => { q with sqdrop := 0 }, [BitVec.ofNat 64 (s.part p).sqdrop])
  | .frbaseWrite p x => some (p, decide (x.toNat % 4096 = 0 ∧ (s.part p).frtail = (s.part p).frhead),
      fun q => { q with frbase := x.toNat, frhead := 0, frtail := 0, frrings := q.frrings + 1 }, [])
  | .frcfgWrite p x => some (p, decide (x.toNat ≤ 8 ∧ (s.part p).frtail = (s.part p).frhead),
      fun q => { q with frcfg := x.toNat, frhead := 0, frtail := 0, frrings := q.frrings + 1 }, [])
  | .frheadWrite p x => some (p, decide ((s.part p).frhead ≤ x.toNat ∧ x.toNat ≤ (s.part p).frtail), fun q => { q with frhead := x.toNat }, [])
  | .frdropRead p => some (p, true, fun q => { q with frdrop := 0 }, [BitVec.ofNat 64 (s.part p).frdrop])
  | .pctlWrite p x => some (p, decide (x.toNat ≤ 1), fun q => { q with pctl := x }, [])
  | .defdefWrite p x => some (p, decide (1 ≤ x.toNat ∧ x.toNat < 2 ^ 32), fun q => { q with defdef := x.toNat }, [])
  | .fabshWrite p x => some (p, decide (1 ≤ x.toNat ∧ x.toNat ≤ 255), fun q => { q with fabsh := x.toNat }, [])
  | .hbmwWrite p x => some (p, decide (1 ≤ x.toNat ∧ x.toNat ≤ 255), fun q => { q with hbmw := x.toNat }, [])
  | .registerWrite (.slotsh n) x => if h : n < 32 then some (⟨n, h⟩, decide (x.toNat < 2 ^ 16), fun q => { q with slotsh := x.toNat }, []) else none
  | _ => none

/-- R293, R412, R419: each register of a partition takes only the values its rule allows, and no other register changes;
a read of SQDROP or FRDROP answers the count and clears it.
Held status records are not in question here. -/
def Claim.PartitionRegistersTakeTheirLegalValues : Prop :=
  ∀ (s : State) (i : Instr) (p : Fin 32) (ok : Bool) (f : Part → Part) (xs : List W64),
    Claim.partWrite s i = some (p, ok, f, xs) → s.parts.length = 32 → (s.part p).held = [] →
    ∃ t, exec i s = .next t ∧
      t = { s with parts := t.parts, front := { s.front with answers := s.front.answers ++ xs } } ∧ t.parts.length = 32 ∧
      ∀ k < 32, t.part k = if k = p.val ∧ ok = true then f (s.part k) else s.part k

/-- The little-endian field of n bytes at an offset, R4. -/
def Claim.fld (bs : List Byte) (off n : Nat) : Nat := leNat ((bs.drop off).take n)

/-- The bytes of a virtual range as firmware reads them, and whether it can: each piece canonical, mapped with R, on no poisoned line. -/
def Claim.bytesAt (s : State) (asid a n : Nat) : List Byte := (pieces a n).flatMap fun p => s.virtRead ⟨none, none⟩ asid p.1 p.2 rightR
def Claim.readable (s : State) (asid a n : Nat) : Prop :=
  ∀ p ∈ pieces a n, canonical p.1 = true ∧ ∃ l, s.translate asid p.1 rightR = .ok l ∧ s.poisoned l.pa = false

/-- The address of a clause header whose line marks it as a target, R18, R21, R65; its page may have R or X (log 39). -/
def Claim.marked (s : State) (asid a : Nat) : Prop :=
  canonical a = true ∧ a / 8 % 8 = 0 ∧ a % 8 < 5 ∧ ∃ l, s.translate asid (a / 64 * 64) {} = .ok l ∧ (l.r = true ∨ l.x = true) ∧ s.poisoned l.pa = false ∧
    let line := leNat (s.physRead ⟨none, none⟩ l.gen l.pa 64)
    line.testBit (480 + a % 8) = true ∧ isHeader (BitVec.ofNat 96 (line / 2 ^ (96 * (a % 8)))) = true

/-- The 256 bytes of a well-formed kernel header, R64, R65. -/
def Claim.headerBytesOk (bs : List Byte) : Prop :=
  let f := Claim.fld bs
  let groups (i : Nat) : Nat := f (0x40 + 4 * i) 1
  let xblk (i : Nat) : Nat := f (0x41 + 4 * i) 1
  let n := f 0x21 1
  f 0 4 = 0x57524B31 ∧ f 4 2 = 1 ∧ f 6 2 < 2 ^ 3 ∧ f 0x18 2 % 32 = 0 ∧ 32 ≤ f 0x18 2 ∧ f 0x18 2 ≤ 1024 ∧ f 0x1A 1 ≤ 16 ∧ f 0x1B 1 ≤ 8 ∧
    f 0x1C 4 % 1024 = 0 ∧ f 0x1C 4 ≤ 393216 ∧ f 0x22 2 % 8 = 0 ∧ f 0x22 2 ≤ 4096 ∧ 1 ≤ n ∧ n ≤ 8 ∧ f 0x28 4 < 2 ^ 15 ∧
    f 0x2C 4 = 0 ∧ f 0x30 16 = 0 ∧ f 0x60 32 = 0 ∧ f 0xC0 64 = 0 ∧
    (∀ i < 8, groups i ≤ 32 ∧ xblk i ≤ 3 ∧ f (0x42 + 4 * i) 2 = 0 ∧ (n ≤ i → f (0x40 + 4 * i) 4 = 0)) ∧
    ((List.range n).map groups).sum = f 0x18 2 / 32 ∧ ((List.range n).map fun i => groups i * xblk i).sum ≤ f 0x20 1 ∧ f 0x20 1 ≤ 3 * (f 0x18 2 / 32)

/-- A header that can be read and is well formed, with its entry points. -/
def Claim.headerGood (s : State) (asid h : Nat) : Prop :=
  let bs := Claim.bytesAt s asid h 256
  h % 256 = 0 ∧ canonical h = true ∧ Claim.readable s asid h 256 ∧ Claim.headerBytesOk bs ∧ Claim.marked s asid (Claim.fld bs 8 8) ∧
    (Claim.fld bs 0x10 8 = 0 ∨ Claim.marked s asid (Claim.fld bs 0x10 8))

/-- The record's fields are as order 2 of R290 has them, with R305 of a den's. -/
def Claim.recordFieldsOk (s : State) (part : Nat) (device : Bool) (bs : List Byte) : Prop :=
  let f := Claim.fld bs
  f 0x70 15 = 0 ∧ f 0x3E 2 = 0 ∧ f 0x3C 2 < 2 ^ 6 ∧ f 0x1F 1 < 4 ∧ f 0x1E 1 < 4 ∧ f 0x1E 1 ≠ 1 ∧ f 0x38 4 < 2 ^ 8 ∧
    (∀ i < 4, f (0x40 + 8 * i) 8 / 4 % 2 ^ 14 = 0 ∧ (f (0x40 + 8 * i) 8 % 4 = 0 → f (0x60 + 4 * i) 4 = 0)) ∧
    (if (f 0x3C 2).testBit 5 = true then f 0x08 4 ≤ 2047 ∧ 1 ≤ f 0x0C 2 ∧ f 0x0C 2 ≤ 64 ∧ ∃ d, s.den? (f 0x08 4) = some d ∧ d.part = part ∧ d.opened = false
     else f 0x08 4 ≠ 0 ∧ f 0x0C 2 ≠ 0 ∧ f 0x0E 2 ≠ 0 ∧ f 0x08 4 * f 0x0C 2 * f 0x0E 2 ≤ 2 ^ 32 - 1) ∧
    (device = true → (f 0x7F 1).testBit 7 = true)

/-- The first check of a list that finds its fault gives its reason. -/
def Claim.firstReason : List (Nat × Prop) → Nat → Prop
  | [], _ => False
  | (k, bad) :: r, n => (bad ∧ n = k) ∨ (¬ bad ∧ Claim.firstReason r n)

/-- R290 from order 2 on, with R305 of a den's scratch; `device` for a record of LAUNCH. The binding's own check is R374. -/
def Claim.recordFaults (s : State) (part asid : Nat) (device : Bool) (bs : List Byte) : List (Nat × Prop) :=
  let f := Claim.fld bs
  let h := Claim.bytesAt s asid (f 0 8) 256
  let ids : List (Level × Nat × Nat) := [(.graph, f 0x20 2, 4096), (.phase, f 0x22 2, 1024), (.job, f 0x24 2, 256)]
  [(2, ¬ Claim.recordFieldsOk s part device bs),
   (3, ¬ Claim.headerGood s asid (f 0 8)),
   (2, (f 0x3C 2).testBit 5 = true ∧ Claim.fld h 0x1C 4 < 64 * (f 0x0C 2 + 1)),
   (4, ¬ Claim.readable s asid (f 0x10 8) (Claim.fld h 0x22 2)),
   (5, f 0x26 2 ≠ 0 ∧ ¬ ∃ q, s.feedq? (f 0x26 2 - 1) = some q ∧ q.part = part),
   (6, f 0x30 8 ≠ 0 ∧ s.checkBinding part asid (parseLRec bs) = none),
   (7, ∃ x ∈ ids, x.2.1 ≠ 0 ∧ ∃ c, s.level? part x.1 x.2.1 = some c ∧ c.cancelled = true),
   (8, ∃ x ∈ ids, x.2.1 ≠ 0 ∧ s.level? part x.1 x.2.1 = none ∧ x.2.2 ≤ s.front.levels.countP (·.level == x.1)),
   (9, device = true ∧ 512 < s.front.intervals.length +
      (List.range 4).countP fun i => decide (f (0x40 + 8 * i) 8 % 4 ≠ 0 ∧ f (0x60 + 4 * i) 4 ≠ 0))]

/-- R64, R65, R288 to R290, R305, R374: the checks of a launch record, field by field, and the reason of the first that fails. -/
def Claim.RecordsAreChecked : Prop :=
  ∀ (s : State) (part asid : Nat) (device : Bool) (bs : List Byte),
    let f := Claim.fld bs
    (∀ n, s.checkRec part asid device bs = .refused n ↔ Claim.firstReason (Claim.recordFaults s part asid device bs) n) ∧
    ∀ k b, s.checkRec part asid device bs = .good k b →
      let g := Claim.fld (Claim.bytesAt s asid (f 0 8) 256)
      k.flags = g 6 2 ∧ k.entry = g 8 8 ∧ k.handler = g 0x10 8 ∧ k.threads = g 0x18 2 ∧ k.bars = g 0x1A 1 ∧ k.accs = g 0x1B 1 ∧ k.scratch = g 0x1C 4 ∧
        k.xpool = g 0x20 1 ∧ k.args = g 0x22 2 ∧ k.defer = g 0x24 4 ∧ k.smask = g 0x28 4 ∧
        k.roles = (List.range (g 0x21 1)).map (fun i => (g (0x40 + 4 * i) 1, g (0x41 + 4 * i) 1)) ∧
        (b = none ↔ f 0x30 8 = 0)

/-- R286 to R291: the window. A store of byte 127 with bit 7 hands the watched slot's record to fw0; fw0 refuses one whose
SEQ is not the next, or that breaks a check, and the window goes on; it accepts any other and makes a launch of it.
The REFUSED record holds the reason and the count of records read before. Where the argument page lies is the model's choice (log 25), and so
is the place of the ring (log 21); that fw0 reads ENTRY and HANDLER as data is DEDUCED (log 39). -/
def Obligations.LaunchRecordsAreSealedCheckedAndAccepted : Prop := Claim.RecordsAreChecked ∧
  (∀ (s : State) (p : Fin 32) (x : Byte), s.mgmt.phy = true → (s.part p).flr = false →
    s.front.pendingLaunches.any (fun y => y.1 == p.val) = false →
    s.mem.tags.get 0 ((s.slotAddr p + 127) / 128) = 0 → s.poisoned (s.slotAddr p) = false →
    ∃ t, exec (.launchRecordSeal p x) s = .next t ∧ t.mem.phys.byte (s.slotAddr p + 127) = x ∧
      (∀ a, a ≠ s.slotAddr p + 127 → t.mem.phys.byte a = s.mem.phys.byte a) ∧ t.parts = s.parts ∧
      (let sealed := if x.getLsbD 7 then [(p.val, s.sched.steps, (List.range 128).map fun j => t.mem.phys.byte (s.slotAddr p + j))] else []
       t.front = { s.front with pendingLaunches := s.front.pendingLaunches ++ sealed })) ∧
  (∀ (s : State) (p : Fin 32) (stamp : Nat) (bs : List Byte), s.parts.length = 32 →
    s.front.pendingLaunches.find? (fun y => y.1 == p.val) = some (p.val, stamp, bs) →
    ((s.part p).flr = true → exec (.launchRecordCheck p) s = .next s) ∧
    ((s.part p).flr = false → (s.part p).ringRoom = true → (s.part p).held = [] → s.mem.poison = [] →
      let inTurn := decide (field bs 127 1 % 128 = (s.part p).e)
      let r := parseLRec bs
      let asid := s.partAsid p
      (inTurn = false ∨ (∃ n, s.checkRec p asid false bs = .refused n) →
        ∃ t, exec (.launchRecordCheck p) s = .next t ∧ (t.part p).sqtail = (s.part p).sqtail + 1 ∧
          (t.part p).reads = (s.part p).reads + 1 ∧ (t.part p).e = (if inTurn then ((s.part p).e + 1) % 128 else (s.part p).e) ∧
          t.front.launches = s.front.launches ∧ t.front.accSeq = s.front.accSeq ∧ t.front.irqs = s.front.irqs ∧
          (let q := s.part p
           let place := hostPa (q.sqbase + 32 * (q.sqtail % 2 ^ q.sqcfg))
           let last := q.winBase + 128 * (q.e % 64) + 127
           t.mem.phys.byte last = 0 ∧ (last < place ∨ place + 32 ≤ last → ∀ n, (if inTurn then s.checkRec p asid false bs = .refused n else n = 1) →
             ∀ j < 32, t.mem.phys.byte (place + j) =
               (leBytes 4 1 ++ leBytes 4 n ++ leBytes 4 0 ++ leBytes 4 0 ++ leBytes 8 q.reads ++ leBytes 8 s.clock.time).getD j 0))) ∧
      (∀ h, inTurn = true → s.checkRec p asid false bs = .good h none → r.isDen = false →
        s.front.intervals.length + r.used.length ≤ 512 → s.front.dens = [] →
        let count := if (s.part p).ids = 2 ^ 27 - 1 then 1 else (s.part p).ids + 1
        let id := p.val * 2 ^ 27 + count
        ∀ va s1, s.argPage asid id (s.copyArgs asid r.argp h.args stamp) = some (va, s1) →
        ∃ t l, exec (.launchRecordCheck p) s = .next t ∧ l ∈ t.front.launches ∧
          t.front.launches.length = s.front.launches.length + 1 ∧
          (∀ x ∈ s.front.launches, ∃ y ∈ t.front.launches, y = { x with burrows := y.burrows }) ∧ l.id = id ∧ l.part = p.val ∧
          l.asid = asid ∧ l.lrec = r ∧ l.hdr = h ∧ l.argp = va ∧ l.next = 0 ∧ l.total = r.gridx * r.gridy * r.gridz ∧
          l.seq = s.front.accSeq + 1 ∧ t.front.accSeq = s.front.accSeq + 1 ∧ l.cancelled = false ∧ l.killed = false ∧
          (t.part p).ids = count ∧ (t.part p).e = ((s.part p).e + 1) % 128 ∧ (t.part p).reads = (s.part p).reads + 1)))

/-- The core has room for a team of the item under quadrant offset b, R72, R298. -/
def Claim.room (s : State) (core b : Nat) (c : Cand) : Prop :=
  let here := (s.teams.map (·.2)).filter fun a => a.ref.core == core
  let groups := c.hdr.threads / 32
  (here.map fun a => a.hdr.accs).sum + c.hdr.accs ≤ 16 ∧ (here.map fun a => a.grps.length).sum + groups ≤ 64 ∧
    (here.map fun a => a.hdr.scratch).sum + c.hdr.scratch ≤ 448 * 1024 ∧
    ∀ q < 4, (here.map fun a => a.grps.countP fun g => (g.recno + a.b) % 4 == q).sum + (List.range groups).countP (fun n => (n + b) % 4 == q) ≤ 16

/-- A free slot matches an item, R106, R296, R298: enabled and empty, of the item's class, and, but for a reduce team, of its partition,
admitting its deadline class and the item itself, with a burrow that none of its resident teams holds; and its core has room. -/
def Claim.fits (s : State) (r : TeamRef) (c : Cand) : Prop :=
  let x := (s.front.binds.get 0 (slotKey r)).toNat
  let spare (bs : List Burrow) : Prop := ((s.teams.map (·.2)).countP fun a => a.item == c.item) < bs.length
  x.testBit 63 = true ∧ s.team? r = none ∧ x / 2 ^ 61 % 4 = c.scls ∧ (∃ b < 4, Claim.room s r.core b c) ∧
    (c.scls = 1 ∨ (x / 2 ^ 56 % 32 = c.part ∧ x.testBit (52 + c.dcls) = true ∧
      (x / 2 ^ 50 % 4 = 0 ∨ (x / 2 ^ 50 % 4 = 1 ∧ c.item = .launch (x % 2 ^ 32)) ∨ (x / 2 ^ 50 % 4 = 2 ∧ c.item = .den (x % 2 ^ 32)) ∨
        (x / 2 ^ 50 % 4 = 3 ∧ (∃ id, c.item = .launch id) ∧ c.feedq = x % 2 ^ 32 + 1)) ∧
      (∀ id, c.item = .launch id → ∃ l, s.launch? id = some l ∧ spare l.burrows) ∧ ∀ n, c.item = .den n → ∃ d, s.den? n = some d ∧ spare d.burrows))

/-- The first item goes before the second, R299: a reduce team before any other, else by deadline on the circle of 2^48, else by acceptance. -/
def Claim.goesBefore (c x : Cand) : Prop :=
  let before (d1 d2 : Nat) : Prop := 1 ≤ ((d2 : Int) - d1) % (2 : Int) ^ 48 ∧ ((d2 : Int) - d1) % (2 : Int) ^ 48 < (2 : Int) ^ 47
  x.from_ ≠ .reduce ∧ (c.from_ = .reduce ∨ before c.deadline x.deadline ∨ (¬ before x.deadline c.deadline ∧ c.seq < x.seq))

/-- R298, R299: what a die may dispatch, which free slots match it, and which it takes. An item is a due reduce team of class 1, a launch's next team
or one of its teams that waits to restart, or a den's triggered team or one that waits, with no hazard and no reset of its partition. Of those with a matching
slot the die takes one that goes before every other, and no other while a reduce team has a slot; none only when no item has one. -/
def Claim.DiesChoose : Prop :=
  (∀ (s : State) (r : TeamRef) (c : Cand), s.slotMatches r c = true ↔ Claim.fits s r c) ∧
  (∀ (s : State) (core b : Nat) (c : Cand), s.coreRoom core b c = true ↔ Claim.room s core b c) ∧
  (∀ (s : State) (c : Cand), c ∈ s.cands ↔
    (∃ x ∈ s.coll.live, x.reduceDue = true ∧ c = ⟨.reduce x.part x.bind.cid, .reduce, 1, x.part, 0, 0, 0, 0, .reduce⟩) ∨
    (∃ l ∈ s.front.launches, l.hazards = [] ∧ (s.part l.part).flr = false ∧ c.item = .launch l.id ∧ c.scls = l.lrec.scls ∧ c.part = l.part ∧
      c.dcls = l.lrec.dcls ∧ c.feedq = l.lrec.feedq ∧ c.deadline = l.lrec.deadline ∧ c.seq = l.seq ∧
      ((c.from_ = .fresh ∧ l.next < l.total ∧ c.hdr = l.hdr) ∨ ∃ w ∈ l.restarts, c.from_ = .restart w ∧ c.hdr = w.hdr)) ∨
    (∃ d ∈ s.front.dens, d.hazards = [] ∧ (s.part d.part).flr = false ∧ c.item = .den d.num ∧ c.scls = d.lrec.scls ∧ c.part = d.part ∧
      c.dcls = d.lrec.dcls ∧ c.feedq = d.lrec.feedq ∧
      ((∃ x ∈ d.ready, c.from_ = .trigger x ∧ c.hdr = d.hdr ∧ c.deadline = x.deadline ∧ c.seq = x.seq) ∨
        ∃ w ∈ d.restarts, c.from_ = .restart w ∧ c.hdr = w.hdr ∧ c.deadline = w.deadline ∧ c.seq = w.seq))) ∧
  ∀ (s : State) (die : Nat),
    let can (c : Cand) : Prop := c ∈ s.cands ∧ ∃ r : TeamRef, r.core / 96 = die ∧ r.slot < 16 ∧ Claim.fits s r c
    (s.choice die = none ↔ ∀ c, ¬ can c) ∧
    (∀ c, s.choice die = some c → can c ∧ (c.from_ ≠ .reduce → ∀ x, can x → x.from_ ≠ .reduce)) ∧
    ∀ c, can c → (∀ x, can x → x ≠ c → Claim.goesBefore c x) → s.choice die = some c

/-- The launch or den of an item, and the same after its team is dispatched: the next team counted, or the restart or the trigger taken from its list,
and marked late if the team is. -/
def Claim.item (s : State) (c : Cand) (late : Bool) : Option ((Launch × Launch) ⊕ (Den × Den)) :=
  match c.item, c.from_ with
  | .launch id, .fresh => (s.launch? id).map fun l => .inl (l, { l with next := l.next + 1, late := l.late || late })
  | .launch id, .restart w => (s.launch? id).map fun l => .inl (l, { l with restarts := l.restarts.erase w, late := l.late || late })
  | .den n, .trigger x => (s.den? n).map fun d => .inr (d, { d with ready := d.ready.erase x, late := d.late || late })
  | .den n, .restart w => (s.den? n).map fun d => .inr (d, { d with restarts := d.restarts.erase w, late := d.late || late })
  | _, _ => none

/-- The team that stands in its slot: its threads at ENTRY with zero registers, its scratch zero but for the records of a den's trigger (R72, R107,
R306, R333), with the values of its launch or den. A restarted team keeps its index and its %region; no team starts with a %succ. -/
def Claim.startedTeam (s : State) (r : TeamRef) (b : Nat) (c : Cand) (a : Team) : Prop :=
  a.ref = r ∧ a.b = b ∧ a.item = c.item ∧ a.hdr = c.hdr ∧ a.part = c.part ∧ a.deadline = c.deadline ∧ a.seq = c.seq ∧
    a.threads.map (·.tid) = List.range c.hdr.threads ∧
    (∀ th ∈ a.threads, th.pc = c.hdr.entry ∧ th.run = .runnable ∧ th.meet = 0 ∧ th.recno = th.tid / 32 ∧ th.pos = th.tid % 32 ∧
      (∀ n, th.getV n = 0) ∧ ∀ n, th.getK n = decide (n = 0)) ∧
    (∀ g ∈ a.grps, g.clause = none ∧ g.warn = 0 ∧ g.clear = true ∧ ∀ n, g.getS n = 0) ∧ (∀ k, a.tile k = Tile.zero) ∧
    a.succMask = 0 ∧ a.succ = none ∧ a.rgn = 0 ∧ a.cancel = 0 ∧ a.fault = none ∧ a.ending = none ∧
    (∀ l, c.item = .launch l.id → s.launch? l.id = some l →
      let i := match c.from_ with | .restart w => w.index | _ => l.next
      a.index = i ∧ a.launch = l.id ∧ a.asid = l.asid ∧ a.argp = l.argp ∧ a.fpcw = l.lrec.fpcw ∧ a.frep = l.lrec.frep ∧
        a.coord = [i % l.lrec.gridx, i / l.lrec.gridx % l.lrec.gridy, i / (l.lrec.gridx * l.lrec.gridy), l.lrec.gridx, l.lrec.gridy, l.lrec.gridz]) ∧
    (∀ d, c.item = .den d.num → s.den? d.num = some d →
      a.index = 0 ∧ a.launch = d.id ∧ a.asid = d.asid ∧ a.argp = d.argp ∧ a.fpcw = d.lrec.fpcw ∧ a.frep = d.lrec.frep ∧ a.coord = [0, 0, 0, 1, 1, 1]) ∧
    (∀ w, c.from_ = .restart w → a.khdr = w.khdr ∧ a.region = w.rgn) ∧ ((∀ w, c.from_ ≠ .restart w) → a.region = 0) ∧
    ((∀ x, c.from_ ≠ .trigger x) → ∀ y, a.scratch.byte y = 0) ∧
    ∀ x, c.from_ = .trigger x → x.records.length ≤ 256 →
      ∀ y, a.scratch.byte y = (leBytes 8 x.records.length ++ List.replicate 56 0 ++ x.records.flatten).getD y 0

/-- R298 to R300, R306, R333: TEAM_DISPATCH of a launch's next team, of a den's triggered team, and of either's team that restarts. The first late
dispatch of a launch or den writes one LATE record with its lateness in microseconds; no other writes one. The team then starts, if its ENTRY can be landed on; else fw3
has the fault of its landing. A due reduce team is placed with no record. -/
def Claim.DispatchesOfEveryItem : Prop :=
  (∀ (s : State) (r : TeamRef) (b : Fin 4) (c : Cand), r.core < 384 → r.slot < 16 → s.choice (r.core / 96) = some c →
    Claim.fits s r c → Claim.room s r.core b.val c → (∀ x ∈ s.teams, Claim.unwatched x.2) → c.part < 32 → s.parts.length = 32 →
    let late := (((s.clock.time : Int) - c.deadline) % (2 : Int) ^ 48).toNat
    let isLate := decide (late < 2 ^ 47)
    let q := s.part c.part
    let goes (asid launch : Nat) (wasLate : Bool) (s1 : State) : Prop :=
      (∃ a, s1.team? r = some a ∧ Claim.startedTeam s r b.val c a) ∧ (∀ k, k ≠ slotKey r → s1.teams.find k = s.teams.find k) ∧
      (isLate = false ∨ wasLate = true → s1.parts = s.parts ∧ s1.mem.phys = s.mem.phys ∧ s1.front.irqs = s.front.irqs) ∧
      (isLate = true → wasLate = false → q.flr = false → q.held = [] → q.ringRoom = true →
        (s1.part c.part).sqtail = q.sqtail + 1 ∧ s1.front.irqs = s.front.irqs ∧
        (let record := leBytes 4 2 ++ leBytes 4 (min (late / 1000) (2 ^ 32 - 1)) ++ leBytes 4 launch ++ leBytes 4 0 ++ leBytes 8 c.seq ++ leBytes 8 s.clock.time
         (∀ j < 32, s1.mem.phys.byte (Claim.statusPlace q + j) = record.getD j 0) ∧
          ∀ pa, pa < Claim.statusPlace q ∨ Claim.statusPlace q + 32 ≤ pa → s1.mem.phys.byte pa = s.mem.phys.byte pa)) ∧
      exec (.teamDispatch r b) s = .next (match s1.landing r.core asid c.hdr.entry with | some f => s1.failStart r f | none => s1)
    (∀ l l', Claim.item s c isLate = some (.inl (l, l')) → l.part = c.part → l.lrec.deadline = c.deadline → l.seq = c.seq → ∃ s1, goes l.asid l.id l.late s1 ∧ s1.launch? l.id = some l') ∧
    (∀ d d', Claim.item s c isLate = some (.inr (d, d')) → d.part = c.part → ∃ s1, goes d.asid d.id d.late s1 ∧ s1.den? d.num = some d')) ∧
  ∀ (s : State) (r : TeamRef) (b : Fin 4) (c : Cand) (x : Coll), r.core < 384 → r.slot < 16 → s.choice (r.core / 96) = some c →
    Claim.fits s r c → Claim.room s r.core b.val c → c.item = .reduce x.part x.bind.cid → s.coll? x.part x.bind.cid = some x →
    ∃ t a, exec (.teamDispatch r b) s = .next t ∧ t.team? r = some a ∧ a.item = c.item ∧ a.b = b.val ∧ a.asid = x.asid ∧ a.part = x.part ∧ a.ending = none ∧
      (∀ k, k ≠ slotKey r → t.teams.find k = s.teams.find k) ∧ t.coll? x.part x.bind.cid = some { x with reduceDue := false } ∧
      t.mem = s.mem ∧ t.front = s.front ∧ t.parts = s.parts ∧ t.eng = s.eng

/-- R298 to R302: TEAM_DISPATCH places the team of the die's choice in a slot that matches it, at its coordinates, its threads
runnable at ENTRY, and leaves every other slot as it is; LAUNCH_COMPLETE removes a launch whose count is zero with its
intervals, and writes DONE under CIRQ, or CANCELLED, to the ring, with the interrupt of CIRQ; neither does anything before its condition holds.
Model's choices: the slot and quadrant come with the step (log 14), the record goes to the place that hostPa gives of SQBASE (log 21), and
DETAIL of a DONE record, of which R292 says nothing, is 0 (log 54). -/
def Obligations.TeamsAreDispatchedAndLaunchesComplete : Prop := Claim.DiesChoose ∧ Claim.DispatchesOfEveryItem ∧
  (∀ (s : State) (r : TeamRef) (b : Fin 4) (c : Cand), r.core < 384 → r.slot < 16 → s.choice (dieOf r.core) = some c →
    (s.slotMatches r c = false ∨ s.coreRoom r.core b.val c = false → exec (.teamDispatch r b) s = .next s) ∧
    (∀ l, s.slotMatches r c = true → s.coreRoom r.core b.val c = true → c.item = .launch l.id → c.from_ = .fresh →
      s.launch? l.id = some l → s.mem.icache = [] → s.landing r.core l.asid c.hdr.entry = none →
      2 ^ 47 ≤ (s.clock.time % 2 ^ 48 + 2 ^ 48 - l.lrec.deadline % 2 ^ 48) % 2 ^ 48 →
      ∃ t a, exec (.teamDispatch r b) s = .next t ∧ t.team? r = some a ∧
        (∀ k, k ≠ slotKey r → t.teams.find k = s.teams.find k) ∧ t.launch? l.id = some { l with next := l.next + 1 } ∧
        a.index = l.next ∧ a.launch = l.id ∧ a.part = l.part ∧ a.asid = l.asid ∧ a.b = b.val ∧ a.hdr = c.hdr ∧ a.fpcw = l.lrec.fpcw ∧
        a.coord = [l.next % l.lrec.gridx, l.next / l.lrec.gridx % l.lrec.gridy, l.next / (l.lrec.gridx * l.lrec.gridy),
                   l.lrec.gridx, l.lrec.gridy, l.lrec.gridz] ∧
        a.argp = l.argp ∧ a.threads = (List.range c.hdr.threads).map (Thread.start s.sched.steps c.hdr.entry) ∧
        (∀ x, a.scratch.byte x = 0) ∧ a.cancel = 0 ∧ a.region = 0 ∧ a.ending = none)) ∧
  (∀ (s : State) (l : Launch), s.launch? l.id = some l →
    (s.launchCount l ≠ 0 → exec (.launchComplete l.id) s = .next s) ∧
    (s.launchCount l = 0 → s.fab.regions = [] → s.coll.live = [] → s.front.levels = [] → s.front.dens = [] → s.parts.length = 32 →
      ∃ t, exec (.launchComplete l.id) s = .next t ∧
        (∀ x ∈ t.front.launches, x.id ≠ l.id) ∧ (∀ e ∈ t.front.intervals, e.owner ≠ .launch l.id) ∧
        (∀ x ∈ s.front.launches, x.id ≠ l.id →
          { x with hazards := x.hazards.filter fun i => i != .launch l.id } ∈ t.front.launches) ∧
        (∀ p ∈ t.mem.argPages, p.owner ≠ l.id) ∧ (∀ u ∈ t.mem.phys.unplaced, u.launch ≠ l.id) ∧
        (l.lrec.cirq = true ∨ l.cancelled = true → l.killed = false → l.timedOut = false → l.part < 32 →
          let q := s.part l.part
          let place := hostPa (q.sqbase + 32 * (q.sqtail % 2 ^ q.sqcfg))
          let record := leBytes 4 (if l.cancelled then 4 else 3) ++ leBytes 4 (if l.cancelled then l.overBudget.toNat else 0)
            ++ leBytes 4 l.id ++ leBytes 4 0 ++ leBytes 8 l.seq ++ leBytes 8 s.clock.time
          q.flr = false → q.held = [] → q.ringRoom = true →
            (t.part l.part).sqtail = q.sqtail + 1 ∧ (∀ j < 32, t.mem.phys.byte (place + j) = record.getD j 0) ∧
            (l.lrec.cirq = true → (l.part, 0) ∈ t.front.irqs)) ∧
        ((l.lrec.cirq = false ∧ l.cancelled = false) ∨ l.killed = true ∨ l.timedOut = true → t.parts = s.parts))) ∧
  (∀ (s : State) (r : TeamRef) (a : Team), s.team? r = some a → a.ref = r → a.ending = none →
    (a.cancelBy = none ∨ (∃ w, a.cancelBy = some w ∧ s.clock.time < w) → exec (.cancelBudgetExpiry r) s = .next s) ∧
    (∀ w, a.cancelBy = some w → w ≤ s.clock.time → s.coll.live = [] →
      ∃ t b, exec (.cancelBudgetExpiry r) s = .next t ∧ t.team? r = some b ∧ b.ending = some .cancel ∧ b.fault = a.fault ∧
        ∀ g ∈ b.grps, g.clause = none ∧ g.waits = []))

/-- R295 to R297: the mailboxes and the bind records. A message enters the destination's queue for its source unless 16 wait
there, which SENDST says; one to Genmon enters the event log; the read of byte 63 of RECV answers it and takes the oldest;
the slot table takes a record that its checks allow, and launches and dens gain the burrows of the slots it lets them use,
or it only sets the slot-table error register.
That a message to Genmon is its log entry (log 12), that a read of an empty queue answers 0 (log 52), and that a slot's burrow is taken once
for a launch or den (log 26) are the model's choices. -/
def Obligations.MailboxesAndBindRecords : Prop :=
  (∀ (s : State) (src dest : Fin 8) (msg : BitVec 512), s.front.boxes.length = 8 → (∀ b ∈ s.front.boxes, b.queues.length = 8) →
    let queue (s : State) (d c : Nat) : List (BitVec 512) := nth [] (nth ⟨[], [], 0⟩ s.front.boxes d).queues c
    let st (s : State) (c : Nat) : Nat := (nth ⟨[], [], 0⟩ s.front.boxes c).sendst
    let full := decide (16 ≤ (queue s dest src).length)
    (∃ t, exec (.mailboxSend src (some dest) msg) s = .next t ∧ t = { s with front := { s.front with boxes := t.front.boxes } } ∧
      st t src = full.toNat ∧ (∀ c < 8, c ≠ src.val → st t c = st s c) ∧
      ∀ d < 8, ∀ c < 8, queue t d c = if d = dest.val ∧ c = src.val ∧ full = false then queue s d c ++ [msg] else queue s d c) ∧
    (∃ t e, exec (.mailboxSend src none msg) s = .next t ∧ t = { s with mgmt := { s.mgmt with log := t.mgmt.log } } ∧
      t.mgmt.log.getLast? = some e ∧ e.srcu = src.val + 2) ∧
    (∃ t, exec (.mailboxRecvPop dest src) s = .next t ∧
      t = { s with front := { s.front with
        boxes := t.front.boxes
        answers := s.front.answers ++ [BitVec.ofNat 64 (((queue s dest src).headD 0).toNat / 2 ^ 504)] } } ∧
      (∀ c < 8, st t c = st s c) ∧
      ∀ d < 8, ∀ c < 8, queue t d c = if d = dest.val ∧ c = src.val then (queue s d c).tail else queue s d c)) ∧
  (∀ (s : State) (r : TeamRef) (x : W64),
    (384 ≤ r.core ∨ 16 ≤ r.slot → exec (.bindRecordWrite r x) s = .next s) ∧
    (r.core < 384 → r.slot < 16 →
      ∃ t, exec (.bindRecordWrite r x) s = .next t ∧
        t = { s with front := { s.front with
          binds := t.front.binds, bindErr := t.front.bindErr, launches := t.front.launches, dens := t.front.dens } } ∧
        (let u : State := { s with front := { s.front with binds := t.front.binds } }
         s.bindOk r x = true → t.front.launches = s.front.launches.map (fun l => l.growBurrows u) ∧
          t.front.dens = s.front.dens.map fun d => if d.opened then d.growBurrows u else d) ∧
        (s.bindOk r x = true → t.front.bindErr = s.front.bindErr ∧ t.front.binds.get 0 (slotKey r) = x ∧
          ∀ k, k ≠ slotKey r → t.front.binds.get 0 k = s.front.binds.get 0 k) ∧
        (s.bindOk r x = false → t.front.binds = s.front.binds ∧ t.front.launches = s.front.launches ∧ t.front.dens = s.front.dens)) ∧
    (x.toNat / 2 ^ 32 % 2 ^ 18 ≠ 0 → s.bindOk r x = false))

/-! ## How groups and teams end -/

/-- R86, R322 to R325: a record whose threads have all exited retires once its flags are clear, and returns its blocks; one that
still has a thread does not. The last record's retirement frees the slot; where a successor is recorded, SUCCESSOR_HANDOVER
starts it in the same slot, with the registers, tiles and scratch that its mask names and zero in every other.
The successor's read bound and %region are the model's reading (log 46). -/
def Claim.RecordsRetireAndSuccessorsTakeOver : Prop :=
  (∀ (s : State) (r : TeamRef) (a : Team) (g : Grp), s.team? r = some a → a.grp? g.recno = some g → a.ending = none → g.retired = false →
    g.clause = none → (∀ p id, a.item ≠ .reduce p id) →
    ((∃ th ∈ a.threads, th.recno = g.recno ∧ th.run ≠ .exited) ∨ g.clear = false → exec (.groupRetire r g.recno) s = .next s) ∧
    ((∀ th ∈ a.threads, th.recno = g.recno → th.run = .exited) → g.clear = true → a.grants = [] → (∀ x ∈ a.grps, x.mq = []) →
      ((∃ x ∈ a.grps, x.recno ≠ g.recno ∧ x.retired = false) →
        ∃ t b, exec (.groupRetire r g.recno) s = .next t ∧ Claim.OnlyTeam s t r ∧ t.team? r = some b ∧ b.pool = a.pool + g.h ∧
          b.threads = a.threads ∧ b.grp? g.recno = some { g with retired := true, marks := [], h := 0 } ∧
          ∀ n, n ≠ g.recno → b.grp? n = a.grp? n) ∧
      ((∀ x ∈ a.grps, x.recno ≠ g.recno → x.retired = true) → s.outstanding r = false → a.succ = none → s.coll.live = [] →
        ∃ t, exec (.groupRetire r g.recno) s = .next t ∧ t.team? r = none ∧ t.eng = s.eng ∧ t.fab = s.fab))) ∧
  (∀ (s : State) (r : TeamRef) (a : Team) (x : SuccRec), s.team? r = some a → a.ref = r → a.succ = some x → a.ending = none →
    ((∃ g ∈ a.grps, g.retired = false) ∨ s.outstanding r = true ∨ a.cancel ≠ 0 ∨ s.succFits a x.hdr = false →
      exec (.successorHandover r) s = .next s) ∧
    ((∀ g ∈ a.grps, g.retired = true) → s.outstanding r = false → a.cancel = 0 → s.succFits a x.hdr = true →
      s.mem.phys.unplaced = [] → a.scratch.unplaced = [] → s.landing r.core a.asid x.hdr.entry = none →
      let lo := x.s.toNat % 2 ^ 32
      let hi := min (lo + x.s.toNat / 2 ^ 32) x.hdr.scratch
      ∃ t b, exec (.successorHandover r) s = .next t ∧ Claim.OnlyTeam s t r ∧ t.team? r = some b ∧
        b.hdr = x.hdr ∧ b.khdr = x.h ∧ b.succMask = x.m ∧ b.succ = none ∧ b.item = a.item ∧ b.index = a.index ∧ b.launch = a.launch ∧
        b.threads.map (·.tid) = List.range x.hdr.threads ∧
        (∀ th ∈ b.threads, th.pc = x.hdr.entry ∧ th.run = .runnable ∧ th.recno = th.tid / 32 ∧
          ∀ g old, b.grp? th.recno = some g → a.thread? th.tid = some old → ∀ n,
            th.getV n = if x.m.getLsbD (n / 32) = true ∧ n / 32 ≤ old.endH ∧ n / 32 ≤ g.h then old.getV n else 0) ∧
        (∀ g ∈ b.grps, g.clause = none ∧ g.clear = true ∧
          ∀ n, g.getS n = if x.m.getLsbD 4 = true then ((a.grp? g.recno).map (·.getS n)).getD 0 else 0) ∧
        (∀ i < 8, b.tile i = if x.m.getLsbD (5 + i) = true ∧ i < x.hdr.accs then a.tile i else Tile.zero) ∧
        (∀ y, b.scratch.byte y = if x.m.getLsbD 13 = true ∧ lo ≤ y ∧ y < hi then a.scratch.byte y else 0)))

/-- R331 to R333: a team whose region is open is taken at a pre-emption request; one that holds it gets its budget, and at its
end PREEMPT_OVERRUN. When every engine has acknowledged, a discarded team's slot is freed, and a pre-empted team of a launch
waits there to be restarted.
The steps of a discard are one event each, the model's reading (log 40). -/
def Claim.TeamsArePreemptedAndDiscarded : Prop :=
  ∀ (s : State) (r : TeamRef) (a : Team), s.team? r = some a → a.ref = r →
    (a.ending = none → a.pre = true →
      ∃ t b, exec (.preemptRequest r) s = .next t ∧ t.team? r = some b ∧ b.ending = some .preempt ∧ b.threads = a.threads ∧
        (∀ g ∈ b.grps, g.clause = none ∧ g.waits = []) ∧ ∀ k, k ≠ slotKey r → t.teams.find k = s.teams.find k) ∧
    (a.pre = false →
      ∃ t, exec (.preemptRequest r) s = .next t ∧ Claim.OnlyTeam s t r ∧
        t.team? r = some { a with preempt := some (a.preempt.getD (s.clock.time + 1000 * Claim.deferBudget s a)) }) ∧
    (a.ending = none → a.pre = false → ∀ w, a.preempt = some w →
      (s.clock.time < w → exec (.preemptBudgetExpiry r) s = .next s) ∧
      (w ≤ s.clock.time → a.fault = none → s.reportOf a.item = none → a.frep = true →
        ∃ t b f, exec (.preemptBudgetExpiry r) s = .next t ∧ t.team? r = some b ∧ b.ending = some .kill ∧
          b.fault = some f ∧ f.code = 0x18)) ∧
    (a.ending = none → exec (.discardAcknowledged r) s = .next s) ∧
    (∀ e, a.ending = some e →
      (∀ q ∈ s.guest.queues, ∀ p ∈ q.packets, p.tk.iss.team ≠ r) → (∀ c ∈ s.coll.live, ∀ x ∈ c.snaps, x.team ≠ r) →
      ∃ t, exec (.discardAcknowledged r) s = .next t ∧ t.team? r = none ∧ (∀ c ∈ t.eng.copies, c.iss.team ≠ r) ∧
        (∀ l ∈ t.eng.landings, l.iss.team ≠ r) ∧ (∀ q ∈ t.fab.reqs, ∀ i, q.iss = some i → i.team ≠ r) ∧
        ∀ l, a.item = .launch l.id → s.launch? l.id = some l →
          (t.launch? l.id).map (·.restarts) = some (l.restarts ++ if e = .preempt then [a.waiter] else []))

/-- Retirement, succession, preemption and discard. -/
def Obligations.RecordsAndTeamsEnd : Prop := Claim.RecordsRetireAndSuccessorsTakeOver ∧ Claim.TeamsArePreemptedAndDiscarded

/-! ## Host and firmware at memory -/

/-- R178, R188, R396, R415, R440: an access of the host, once its link's PHY is released, writes its bytes and no other; fw2's invalidation writes its table entries and
asks the guest to give up the shadow entries that they make stale; fw2's answer to a parked instruction lets its group issue it again, or raises XLATE.
Model's choices: that fw2's writes come in the step of their invalidation (log 9) and are inputs (log 15), that the host names no page (log 16), and
that a replay uses the registers as they stand (log 47). -/
def Claim.HostAndFirmwareReachMemory : Prop :=
  (∀ (s : State) (pa : Nat), exec (.hostCoherentAccess pa none) s = .next s) ∧
  (∀ (s : State) (pa : Nat) (bs : List Byte), s.mgmt.phy = false → exec (.hostCoherentAccess pa (some bs)) s = .next s) ∧
  (∀ (s : State) (pa : Nat) (bs : List Byte), s.mgmt.phy = true → (∀ l ∈ linesOf pa bs.length, s.mem.tags.get 0 l = 0) →
    physKind pa = .hbm ∨ physKind pa = .host → physKind (pa + (bs.length - 1)) = physKind pa → (∀ p < 32, s.poisoned (s.slotAddr p) = false) →
    ∃ t, exec (.hostCoherentAccess pa (some bs)) s = .next t ∧ (∀ j < bs.length, t.mem.phys.byte (pa + j) = bs.getD j 0) ∧
      (∀ a, a < pa ∨ pa + bs.length ≤ a → t.mem.phys.byte a = s.mem.phys.byte a) ∧ t.eng = s.eng ∧ t.parts = s.parts ∧ t.fab = s.fab) ∧
  (∀ (s : State) (asid a : Nat) (x : W64), physKind a = .hbm → a % 8 = 0 → s.mem.tags.get 0 (a / 128) = 0 →
    ∃ t, exec (.invalidation asid [(a, x)]) s = .next t ∧ t.entry a = x.toNat ∧
      (∀ b, b < a ∨ a + 8 ≤ b → t.mem.phys.byte b = s.mem.phys.byte b) ∧
      (let asked := if s.guest.present = true ∧ s.guest.fenced = false then
           [⟨s.clock.time + 2000, asid, s.guest.shadows.filter fun e => e.asid == asid && t.stale e && !s.guest.invals.any (·.ends.contains e)⟩] else []
       t.guest = { s.guest with invals := s.guest.invals ++ asked })) ∧
  (∀ (s : State) (n : Nat) (p : Parked) (i : Issuer) (a : Team) (g : Grp), s.mem.parked.find? (fun y => y.num == n) = some p →
    p.who = .instr i → s.team? i.team = some a → a.ref = i.team → a.grp? i.recno = some g → g.clause.isSome = true → a.ending = none →
    (∀ x ∈ s.teams, x.2.grps.any (fun y => !y.retired) = true) →
    (∃ t, exec (.replayResolved n [] true) s = .next t ∧ t.grp? i = some { g with park := none } ∧
      t.mem.parked = s.mem.parked.filter fun y => y.num != n) ∧
    (a.hdr.flags.testBit 0 = false → a.fault = none → s.reportOf a.item = none → a.frep = true →
      ∃ t b f, exec (.replayResolved n [] false) s = .next t ∧ t.team? i.team = some b ∧ b.fault = some f ∧ f.code = Code.xlate.num ∧
        b.ending = some .kill ∧ ∀ y ∈ t.mem.parked, y.num ≠ n))

/-! ## The fabric: class 0xA -/

/-- The request that FSEND or FATOM makes of its registers: target word, offset, length, source and body, with its checks of
R360, R362, R363. -/
def Claim.requestOf (v : View) : Instr → Option (Opnds × FabMods × Nat × Nat × Nat × Nat × Option FabBody × Prop)
  | .fsend o m =>
      let x := v.s64 (sIndex o.sa)
      let tw := v.s64 (sIndex o.sa + 1)
      let a := v.s64 (sIndex o.sb)
      some (o, m, tw, x % 2 ^ 32, x / 2 ^ 32, a, none,
        1 ≤ x / 2 ^ 32 ∧ x / 2 ^ 32 ≤ 65536 ∧ a % 4 = 0 ∧ x % 4 = 0 ∧ x / 2 ^ 32 % 4 = 0 ∧
          firstFail ((pieces a (x / 2 ^ 32)).map (v.s.checkPiece v.team.asid rightR anyFrame)) = .pass)
  | .fatom o m var =>
      let x := v.s64 (sIndex o.sa)
      let tw := v.s64 (sIndex o.sa + 1)
      let b := BitVec.ofNat 64 (Claim.scalar v o .u64 o.sb)
      some (o, m, tw, x, 8, 0, some (match var with | .add => .add b | .cas => .cas b (BitVec.ofNat 64 (Claim.scalar v o .u64 o.sc))),
        x < 2 ^ 32 ∧ x % 8 = 0)
  | _ => none

/-- A member that a request may go to: one of MASK, and before the first calendar commit the part itself alone (R339). -/
def Claim.reachable (s : State) (m : Nat) : Prop := s.fab.has m = true ∧ (s.fab.commits ≠ 0 ∨ m = s.fab.me)

/-- The target word of R361 has no Reserved bit set, and names such a member. -/
def Claim.targetGood (s : State) (tw : Nat) : Prop :=
  tw / 2 ^ 6 % 2 ^ 6 = 0 ∧ tw / 2 ^ 22 % 2 ^ 10 = 0 ∧ Claim.reachable s (tw % 64)

/-- R342, R360 to R363: FSEND and FATOM enter one request with the next number, addressed as their registers say, while the core
and the queues have room; memory, the engines and every other request stay as they were. One to a package that is no member
faults FAB_NOPEER. -/
def Claim.FabricRequestsEnter : Prop :=
  ∀ (s : State) (v : View) (i : Instr) (o : Opnds) (m : FabMods) (tw off len src : Nat) (body : Option FabBody) (ok : Prop),
    Claim.requestOf v i = some (o, m, tw, off, len, src, body, ok) → Claim.Issues s v i o → v.any o = true → ok →
    (Claim.targetGood s tw → v.grp.flags.length = 12 →
      (s.fab.reqs.filter fun q => q.iss.any (·.team.core == v.iss.team.core)).length < 256 →
      (∀ hop tc part, s.fab.room hop tc part = true) →
      ∃ t q, exec i s = .next t ∧ Claim.Entered s t v o ∧ t.eng = s.eng ∧ t.front = s.front ∧ t.fab.regions = s.fab.regions ∧
        t.fab.reqNo = s.fab.reqNo + 1 ∧ q ∈ t.fab.reqs ∧ q.num = s.fab.reqNo ∧ q.iss = some v.iss ∧ q.coll = none ∧
        q.part = v.team.part ∧ q.dest = tw % 64 ∧ q.region = tw / 2 ^ 12 % 2 ^ 10 ∧ q.key = BitVec.ofNat 32 (tw / 2 ^ 32) ∧
        q.tc = m.tc.val ∧ q.off = off ∧ q.len = len ∧ q.src = src ∧ q.body = body ∧ q.sentOnce = false ∧ q.retries = 0 ∧
        ∀ y ∈ s.fab.reqs, y.num ≠ s.fab.reqNo → y ∈ t.fab.reqs) ∧
    (tw / 2 ^ 6 % 2 ^ 6 = 0 → tw / 2 ^ 22 % 2 ^ 10 = 0 → ¬ Claim.reachable s (tw % 64) →
      exec i s = .next (s.raise v o { code := .fabNopeer, val := some (tw % 64) }))

/-- The value that FQRY reads, R368, and whether its region operand is the partition's. -/
def Claim.fqryValue (v : View) (o : Opnds) : FqryItem → Nat × Prop
  | .pod => (v.s.fab.mask.toNat, True)
  | .cal => (popcount 64 v.s.fab.mask.toNat + 2 ^ 8 * v.s.fab.calL + 2 ^ 16 * v.s.fab.commits, True)
  | .back => (if v.s.fab.has (Claim.scalar v o .u64 o.sa % 64) = true then
      ((v.s.fab.reqs.filter fun q => q.state == .queued && q.hop == Claim.scalar v o .u64 o.sa % 64 && q.part == v.team.part).map (·.len)).sum
        + ((v.s.fab.relays.filter fun r => r.2.dest == Claim.scalar v o .u64 o.sa % 64 && r.2.part == v.team.part).map fun r => bodySize r.2.body).sum
      else 0, True)
  | .rgn => let g := v.s.region (Claim.scalar v o .u64 o.sa)
      ((match g.state with | .free => 0 | .open_ => 1 | .closing => 2) + 2 ^ 16 * (g.flight % 2 ^ 32),
       Claim.scalar v o .u64 o.sa < 1024 ∧ Claim.scalar v o .u64 o.sa / 32 = v.team.part)
  | .arr => ((v.s.region (Claim.scalar v o .u64 o.sa)).arr.toNat, Claim.scalar v o .u64 o.sa < 1024 ∧ Claim.scalar v o .u64 o.sa / 32 = v.team.part)
  | .err => (v.team.fabErr + 2 ^ 32 * v.team.fabErrCode, True)
  | .lfsr => (v.s.fab.lfsr, True)

/-- R364 to R368: FREG opens a region and FREV closes one, which is free at once when nothing is in flight in it; FWAIT
captures its wait; FDRAIN awaits the requests to its destination, or completes at once, with the number of the team's covered
requests that ended other than OK; FQRY reads.
%trapv of ALIGN and FAB_REGION faults is the model's reading (log 24). -/
def Claim.RegionsDrainsAndQueries : Prop :=
  ∀ (s : State) (v : View) (o : Opnds) (m : FabMods), v.any o = true →
    let r := Claim.scalar v o .u64 o.sa
    (let base := v.s64 (sIndex o.sa)
     let y := v.s64 (sIndex o.sa + 1)
     let x := Claim.scalar v o .u64 o.sb
     let id := x % 1024
     Claim.Issues s v (.freg o m) o → x / 2 ^ 10 % 2 ^ 6 = 0 → x < 2 ^ 18 → id / 32 = v.team.part → (s.region id).state = .free →
      base % 4 = 0 → y % 4 = 0 → 0 < y % 2 ^ 32 → canonical base = true → canonical (base + y % 2 ^ 32 - 1) = true →
      ∃ t, exec (.freg o m) s = .next t ∧ t.mem = s.mem ∧
        t.region id = ⟨.open_, v.team.launch, v.team.asid, base, y % 2 ^ 32, BitVec.ofNat 32 (y / 2 ^ 32), x.testBit 16, x.testBit 17, 0, 0⟩ ∧
        (∀ k, k ≠ id → t.region k = s.region k) ∧ t.fab.reqs = s.fab.reqs) ∧
    (Claim.Issues s v (.frev o m) o → r < 1024 → r / 32 = v.team.part → (s.region r).state ≠ .free → (s.region r).launch = v.team.launch →
      ∃ t, exec (.frev o m) s = .next t ∧ t.mem = s.mem ∧
        t.region r = { s.region r with state := if (s.region r).flight = 0 then .free else .closing } ∧
        (∀ k, k ≠ r → t.region k = s.region k) ∧ t.fab.reqs = s.fab.reqs) ∧
    (∀ var, Claim.Issues s v (.fwait o m var) o → r < 1024 → r / 32 = v.team.part →
      ∃ t, exec (.fwait o m var) s = .next t ∧ Claim.AfterTerm s t v (.fwait o m var) o []
        (some (.wait (.fab o.dst (var == .arr) r (BitVec.ofNat 64 (if var = .arr then Claim.scalar v o .u64 o.sb else 0)) (Claim.scalar v o .u32 o.sc) 0)
          ((v.active o).map (·.tid))))) ∧
    (Claim.Issues s v (.fdrain o m) o → r = 64 ∨ (r < 64 ∧ s.fab.has r = true) → s.fab.drains = [] → v.grp.flags.length = 12 →
      let nums := (s.fab.reqs.filter fun q => q.part == v.team.part && q.state != .held &&
        (if r = 64 then s.fab.has q.dest else q.dest == r)).map (·.num)
      let ended := (v.team.badReqs.filter fun m => if r = 64 then s.fab.has m else m == r).length
      ∃ t, exec (.fdrain o m) s = .next t ∧ t.mem = s.mem ∧
        (nums ≠ [] → Claim.Entered s t v o ∧ t.fab = { s.fab with drains := [⟨⟨s.sched.nextCmd, v.iss, o.fl, o.dst⟩, nums, ended⟩] }) ∧
        (nums = [] → t.fab = s.fab ∧ (∃ g, t.grp? v.iss = some g ∧ (∀ f, g.flag f = v.grp.flag f) ∧ ∀ d, o.dst = .s d → g.getS d.val = min ended (2 ^ 32 - 1)))) ∧
    (∀ item, Claim.Issues s v (.fqry o m item) o → (Claim.fqryValue v o item).2 →
      ∃ t, exec (.fqry o m item) s = .next t ∧ Claim.After s t v (.fqry o m item) o (v.dstS o (Claim.fqryValue v o item).1))

/-- Class 0xA. -/
def Obligations.FabricInstructions : Prop := Claim.FabricRequestsEnter ∧ Claim.RegionsDrainsAndQueries

/-! ## Collectives and the guest: classes 0xB and 0xC -/

/-- `t` is `s` after a command that completed as it issued, with the status `x`: its flag is as before, and its result register
holds the status. -/
def Claim.Answered (s t : State) (v : View) (o : Opnds) (x : Nat) : Prop :=
  t.mem = s.mem ∧ ∃ g, t.grp? v.iss = some g ∧ (∀ f, g.flag f = v.grp.flag f) ∧ ∀ d, o.dst = .s d → g.getS d.val = BitVec.ofNat 64 x

/-- R378, R380, R388 to R390: CRANGE enters the range of a live collective in the range table; CFIRE fires the team's chunk
once; CJOIN waits for the collective's end; CDROP drops it and writes no register. A command that cannot be performed answers with its status.
%trapv of CRANGE's ALIGN is the model's reading (log 24). -/
def Obligations.CollectiveCommands : Prop :=
  ∀ (s : State) (v : View) (o : Opnds), v.any o = true → v.grp.flags.length = 12 →
    let cid := Claim.scalar v o .u32 o.sa
    let part := v.team.part
    let tk : Ticket := ⟨s.sched.nextCmd, v.iss, o.fl, o.dst⟩
    (let base := v.s64 (sIndex o.sb)
     let len := v.s64 (sIndex o.sb + 1)
     Claim.Issues s v (.crange o) o →
      (base % 128 ≠ 0 ∨ len % 128 ≠ 0 → exec (.crange o) s = .next (s.raise v o { code := .align })) ∧
      (base % 128 = 0 → len = 0 → ∃ t, exec (.crange o) s = .next t ∧ Claim.Answered s t v o 0 ∧ t.coll = s.coll) ∧
      (base % 128 = 0 → len % 128 = 0 → 0 < len → canonical base = true → canonical (base + len - 1) = true →
        (∀ a ∈ pageStarts base len, ∃ l, s.translate v.team.asid a {} = .ok l) →
        (s.coll? part cid = none → ∃ t, exec (.crange o) s = .next t ∧ Claim.Answered s t v o 3 ∧ t.coll = s.coll) ∧
        ((s.coll? part cid).isSome = true → 256 < s.coll.ranges.length + (s.runs v.team.asid base len).length →
          ∃ t, exec (.crange o) s = .next t ∧ Claim.Answered s t v o 4 ∧ t.coll = s.coll) ∧
        ((s.coll? part cid).isSome = true → s.coll.ranges.length + (s.runs v.team.asid base len).length ≤ 256 →
          ∃ t, exec (.crange o) s = .next t ∧ Claim.Answered s t v o 0 ∧ t.coll = { s.coll with
            ranges := s.coll.ranges ++ (s.runs v.team.asid base len).map fun r => ⟨r.1, r.2, part, cid, true⟩ }))) ∧
    (Claim.Issues s v (.cfire o) o →
      (s.collOf v.team = none → ∃ t, exec (.cfire o) s = .next t ∧ Claim.Answered s t v o 3 ∧ t.coll = s.coll) ∧
      (∀ c, s.collOf v.team = some c → c.bind.cid = cid → c.part = part → s.coll? part cid = some c →
        (c.bind.chunk v.team.coord = none → ∃ t, exec (.cfire o) s = .next t ∧ Claim.Answered s t v o 6 ∧ t.coll = s.coll) ∧
        (∀ k, c.bind.chunk v.team.coord = some k → k ∈ c.fired →
          ∃ t, exec (.cfire o) s = .next t ∧ Claim.Answered s t v o 5 ∧ t.coll = s.coll) ∧
        (∀ k, c.bind.chunk v.team.coord = some k → k ∉ c.fired →
          ∃ t, exec (.cfire o) s = .next t ∧ Claim.Entered s t v o ∧ t.fab = s.fab ∧
            t.coll? part cid = some { c with fired := c.fired ++ [k], snaps := c.snaps ++ [⟨k, v.iss.team, some tk, s.sched.steps⟩] }))) ∧
    (Claim.Issues s v (.cjoin o) o →
      (s.coll? part cid = none → ∃ t, exec (.cjoin o) s = .next t ∧ Claim.Answered s t v o 3 ∧ t.coll = s.coll) ∧
      (∀ c, s.coll? part cid = some c →
        let own := (s.collOf v.team).any fun x => x.bind.cid == cid
        (own = true → c.fired.length < c.bind.nchunk → ∃ t, exec (.cjoin o) s = .next t ∧ Claim.Answered s t v o 7 ∧ t.coll = s.coll) ∧
        (own = false ∨ c.bind.nchunk ≤ c.fired.length →
          ∃ t, exec (.cjoin o) s = .next t ∧ Claim.Entered s t v o ∧ t.fab = s.fab ∧
            t.coll? part cid = some { c with joins := c.joins ++ [tk] }))) ∧
    (Claim.Issues s v (.cdrop o) o →
      (s.coll? part cid = none → (∀ x ∈ s.teams, ∃ g ∈ x.2.grps, g.retired = false) →
        ∃ t, exec (.cdrop o) s = .next t ∧ Claim.Answered s t v { o with dst := .zero } 0 ∧ t.coll = s.coll ∧
          (t.grp? v.iss).map (·.s) = some v.grp.s ∧ (t.team? v.iss.team).map (·.threads) = some v.team.threads) ∧
      ∃ t, exec (.cdrop o) s = .next t ∧ t.coll? part cid = none ∧ ∀ e ∈ t.coll.ranges, e.part = part → e.cid = cid → s.coll? part cid = none)

/-- R398, R405 to R408: GSUB writes its packet, context and SEQ into the queue's next slot, GWAIT captures its wait, GCAN asks
the packets it covers to stop. A queue that is not the partition's, or a fenced port under GSUB or GCAN, faults GUEST_Q. -/
def Obligations.GuestCommands : Prop :=
  ∀ (s : State) (v : View) (o : Opnds), v.any o = true → v.grp.flags.length = 12 →
    let q := Claim.scalar v o .u32 o.sa
    let g := s.gq q
    let tk : Ticket := ⟨s.sched.nextCmd, v.iss, o.fl, o.dst⟩
    (q < 64 → g.enabled = true → g.part = v.team.part → s.guest.fenced = false → s.guest.queues.length = 64 →
      (∀ acq, Claim.Issues s v (.gsub o acq) o →
        let x := Claim.scalar v o .u32 o.sb
        let slot := g.sq + 64 * (g.sub % 2 ^ g.l)
        x % 64 = 0 → x + 64 ≤ v.team.hdr.scratch → g.sub - g.cmp ≠ 2 ^ g.l → s.mem.tags.get 0 (slot / 128) = 0 →
        ∃ t, exec (.gsub o acq) s = .next t ∧
          t.gq q = { g with sub := g.sub + 1, packets := g.packets ++ [⟨g.sub, tk, v.team.asid, none, []⟩] } ∧
          (∀ j < 64, t.mem.phys.byte (slot + j) = (s.scratchRead v.team x 56 ++ leBytes 4 (v.team.asid % 2 ^ 12 + 2 ^ 12 * v.team.part)
            ++ leBytes 4 ((g.sub + 1) % 2 ^ 32)).getD j 0) ∧
          (acq = false → ∀ a, a < slot ∨ slot + 64 ≤ a → t.mem.phys.byte a = s.mem.phys.byte a) ∧
          (∀ f, o.fl = some f → (t.grp? v.iss).map (·.flag f) = some (v.grp.flag f + 1)) ∧ t.coll = s.coll ∧ t.fab = s.fab) ∧
      (Claim.Issues s v (.gcan o) o →
        let hit (p : Packet) : Bool := seqReached (seqOf p.i) (Claim.scalar v o .u32 o.sb)
        let left := (g.packets.filter hit).map (·.i)
        (left = [] → ∃ t, exec (.gcan o) s = .next t ∧ Claim.Answered s t v o 0 ∧ t.guest = s.guest) ∧
        (left ≠ [] → ∃ t, exec (.gcan o) s = .next t ∧ Claim.Entered s t v o ∧
          t.guest.cancels = s.guest.cancels ++ [⟨tk, q, left, 0⟩] ∧
          (let stopped := g.packets.map fun p =>
             if hit p = true ∧ p.stop = none then { p with stop := some (s.clock.time + 50000) } else p
           t.gq q = { g with packets := stopped })))) ∧
    (q < 64 → g.enabled = true → g.part = v.team.part → Claim.Issues s v (.gwait o) o →
      ∃ t, exec (.gwait o) s = .next t ∧ Claim.AfterTerm s t v (.gwait o) o []
        (some (.wait (.guest o.dst q (Claim.scalar v o .u32 o.sb) (Claim.scalar v o .u32 o.sc) 0) ((v.active o).map (·.tid))))) ∧
    (64 ≤ q ∨ g.enabled = false ∨ g.part ≠ v.team.part →
      (∀ acq, Claim.Issues s v (.gsub o acq) o → exec (.gsub o acq) s = .next (s.raise v o { code := .guestQ, val := some q })) ∧
      (Claim.Issues s v (.gwait o) o → exec (.gwait o) s = .next (s.raise v o { code := .guestQ, val := some q })) ∧
      (Claim.Issues s v (.gcan o) o → exec (.gcan o) s = .next (s.raise v o { code := .guestQ, val := some q }))) ∧
    (∀ acq, s.guest.fenced = true → Claim.Issues s v (.gsub o acq) o →
      exec (.gsub o acq) s = .next (s.raise v o { code := .guestQ, val := some q }))

/-! ## System instructions and traps: class 0xD -/

/-- R413, R414: `t` is `s` after the group of `v` took a trap of code `c` and value `x`: its clause and temporaries are in the trap
record, %trapc holds the code, the position and TRAP's number `n`, %trapv the value, and its issue set is at HANDLER. -/
def Claim.Trapped (s t : State) (v : View) (c n : Nat) (x : W64) : Prop :=
  Claim.OnlyTeam s t v.iss.team ∧ ∃ b g, t.team? v.iss.team = some b ∧ b.grp? v.iss.recno = some g ∧ g.clause = none ∧
    g.trap = some ⟨{ v.cl with idle := false }, v.present.map fun th => (th.tid, th.c), c⟩ ∧
    g.trapc = BitVec.ofNat 32 (c + 2 ^ 8 * (v.cl.pos % 32) + 2 ^ 16 * n) ∧ g.trapv = x ∧ g.s = v.grp.s ∧ g.flags = v.grp.flags ∧
    ∀ th ∈ v.team.threads, b.thread? th.tid = some (if v.cl.issue.contains th.tid then
      { th with pc := v.team.hdr.handler, run := .runnable, age := s.sched.steps } else th)

/-- R409, R413 to R416, R424 to R426: TRAP, and BKPT with a handler, take their trap; BKPT without one, or in trap state, has no
effect; a trap without a handler goes to fw3 with its code, and under FREP kills its team. RESUME with the trapping clause's
threads captures its return, and any other RESUME is an illegal instruction.
%trapv of faults whose value the spec does not name is the model's reading (log 24). -/
def Obligations.TrapsAreTakenAndResumed : Prop :=
  ∀ (s : State) (v : View) (o : Opnds), Safety.ordered v.team = true →
    let n := Claim.scalar v o .u32 o.sa % 2 ^ 16
    (v.any o = true → v.team.hdr.handler ≠ 0 → v.grp.trap = none → v.team.msets = [] → (∀ th ∈ v.present, th.meet = 0) →
      s.landing v.iss.team.core v.team.asid v.team.hdr.handler = none →
      (Claim.Issues s v (.trap o) o → ∃ t, exec (.trap o) s = .next t ∧ Claim.Trapped s t v 0x13 n (BitVec.ofNat 64 v.pc)) ∧
      (Claim.Issues s v (.bkpt o) o → ∃ t, exec (.bkpt o) s = .next t ∧ Claim.Trapped s t v 0x14 0 (BitVec.ofNat 64 v.pc))) ∧
    (v.team.hdr.handler = 0 ∨ v.grp.trap.isSome = true →
      (Claim.Issues s v (.bkpt o) o → ∃ t, exec (.bkpt o) s = .next t ∧ Claim.After s t v (.bkpt o) o []) ∧
      (v.any o = true → Claim.Issues s v (.trap o) o → v.team.ref = v.iss.team → v.team.fault = none →
        s.reportOf v.team.item = none → v.team.frep = true →
        ∃ t b f, exec (.trap o) s = .next t ∧ t.team? v.iss.team = some b ∧ b.fault = some f ∧ f.code = 0x13 ∧ b.ending ≠ none)) ∧
    (∀ skip r, v.grp.trap = some r → (v.active o).length = v.present.length → v.cl.issue = r.clause.issue →
      Claim.Issues s v (.resume o skip) o →
      ∃ t, exec (.resume o skip) s = .next t ∧ Claim.AfterTerm s t v (.resume o skip) o [] (some (.resume skip))) ∧
    (∀ skip, (v.grp.trap = none ∨ (v.active o).length ≠ v.present.length ∨ ∃ r, v.grp.trap = some r ∧ v.cl.issue ≠ r.clause.issue) →
      Claim.Issues s v (.resume o skip) o → exec (.resume o skip) s = .next (s.raise v o { code := .illOp }))

/-- R427, R428: SWR writes a USER record and its interrupt, and answers 0, or answers 1 and writes nothing while the ring has no
room, records are held before it, or a function-level reset runs; a Reserved bit faults ILL_OPND. WARNC reads %warn and clears the bits of its mask.
Model's choices: that the record goes to the place that hostPa gives of SQBASE (log 21), and %trapv of the ILL_OPND (log 24). -/
def Obligations.StatusRecordsAndWarnings : Prop :=
  ∀ (s : State) (v : View) (o : Opnds), v.any o = true →
    (let x := Claim.scalar v o .u32 o.sb
     let p := v.team.part
     let q := s.part p
     Claim.Issues s v (.swr o) o →
      (x / 2 ^ 7 % 2 ^ 25 ≠ 0 ∨ (x.testBit 6 = true ∧ x % 64 < 8) → exec (.swr o) s = .next (s.raise v o { code := .illOpnd })) ∧
      (x < 2 ^ 7 → (x.testBit 6 = true → 8 ≤ x % 64) → q.ringRoom = false ∨ q.held ≠ [] ∨ q.flr = true →
        ∃ t, exec (.swr o) s = .next t ∧ Claim.After s t v (.swr o) o (v.dstS o 1)) ∧
      (x < 2 ^ 7 → (x.testBit 6 = true → 8 ≤ x % 64) → q.ringRoom = true → q.held = [] → q.flr = false → p < 32 → s.parts.length = 32 →
        ∃ t, exec (.swr o) s = .next t ∧ (t.part p).sqtail = q.sqtail + 1 ∧ (∀ k < 32, k ≠ p → t.part k = s.part k) ∧
          t.front.irqs = s.front.irqs ++ (if x.testBit 6 then [(p, x % 64)] else []) ∧
          (∀ d, o.dst = .s d → (t.grp? v.iss).map (·.getS d.val) = some 0) ∧
          (let a := hostPa (q.sqbase + 32 * (q.sqtail % 2 ^ q.sqcfg))
           (∀ j < 32, t.mem.phys.byte (a + j) = (leBytes 4 8 ++ leBytes 4 (x % 64) ++ leBytes 4 v.team.launch ++ leBytes 4 0
              ++ leBytes 8 (Claim.scalar v o .u64 o.sa) ++ leBytes 8 s.clock.time).getD j 0) ∧
           ∀ b, b < a ∨ a + 32 ≤ b → t.mem.phys.byte b = s.mem.phys.byte b))) ∧
    (Claim.Issues s v (.warnc o) o →
      ∃ t b g, exec (.warnc o) s = .next t ∧ Claim.OnlyTeam s t v.iss.team ∧ t.team? v.iss.team = some b ∧
        b.grp? v.iss.recno = some g ∧ g.warn = v.grp.warn &&& ~~~ BitVec.ofNat 32 (Claim.scalar v o .u32 o.sa) ∧
        (isSReg o.dst = true → b.threads = v.team.threads) ∧ g.flags = v.grp.flags ∧
        ∀ d, o.dst = .s d → g.getS d.val = BitVec.ofNat 64 v.grp.warn.toNat ∧ ∀ n, n ≠ d.val → g.getS n = v.grp.getS n)

/-- What an instruction that waits awaits, and whether it is met when it starts, with the result it then writes (R217, R241,
R312, R365, R407). -/
def Claim.waitOf (v : View) : Terminal → Option (Spec × List Nat × Option Nat × WaitKind)
  | .wait (.fab dst arr r c limit _) tids => some (dst, tids, if v.s.fabMet arr r c then some 0 else none,
      .fab dst arr r c limit v.s.clock.time)
  | .wait (.guest dst q target limit _) tids => some (dst, tids, if seqReached (v.s.gq q).cmp target then some 0 else none,
      .guest dst q target limit v.s.clock.time)
  | .wait (.pop dst q off once _) tids =>
      match v.s.feedq? q with
      | none => none
      | some fq =>
        if fq.orphans = [] ∧ fq.tail ≤ fq.claim then
          some (dst, tids, if once then some (2 ^ 64 - 1) else if v.team.cancel ≠ 0 then some (2 ^ 64 - 2) else none, .pop dst q off once none)
        else some (dst, tids, none, .pop dst q off once
          (some (if fq.orphans = [] then fq.claim else fq.orphans.foldl min (fq.orphans.headD 0))))
  | .waita dst pa gen n expect limit tids =>
      if v.s.poisoned pa then none
      else some (dst, tids, if leNat (v.s.physRead v.team.writer gen pa n) = expect then none else some 0,
        .monitor dst (pa / 128) (v.s.canArm (clusterOf v.iss.team.core) (pa / 128)) (physKind pa == .hbm) limit v.s.clock.time)
  | _ => none

/-- R29, R217, R312, R313, R365, R407: a wait starts with its clause's CLEND. One that is met at once writes its result, and its
threads are runnable at the following header; any other suspends them there, with the wait's record in their group. -/
def Claim.WaitsBeginAtClend : Prop :=
  ∀ (s : State) (v : View) (es : List ClendEntry) (T : Terminal) (dst : Spec) (tids : List Nat) (met : Option Nat) (k : WaitKind),
    Claim.Issues s v (.clend es) {} → Safety.ordered v.team = true → v.team.ref = v.iss.team →
    v.team.ending = none → v.team.msets = [] → (∀ th ∈ v.present, th.meet = 0) → (∀ g ∈ v.team.grps, g.mq = []) →
    v.cl.term = some T → Claim.waitOf v T = some (dst, tids, met, k) → tids ≠ [] →
    ∃ t b g, exec (.clend es) s = .next t ∧ t.mem = s.mem ∧ t.team? v.iss.team = some b ∧ b.grp? v.iss.recno = some g ∧ g.clause = none ∧
      (∀ x, met = some x → g.waits = v.grp.waits ∧ (∀ d, dst = .s d → g.getS d.val = BitVec.ofNat 64 x) ∧
        (isSReg dst = true → ∀ th ∈ v.present,
          b.thread? th.tid = some { th with pc := v.following, run := .runnable, age := s.sched.steps })) ∧
      (met = none → g.s = v.grp.s ∧ g.waits.find s.sched.steps = some ⟨tids, k, none⟩ ∧
        ∀ th ∈ v.present, b.thread? th.tid = some (if th.tid ∈ tids
          then { th with pc := v.following, run := .suspended (.wait s.sched.steps) }
          else { th with pc := v.following, run := .runnable, age := s.sched.steps }))

/-- R241: CPROM's wait, after its clause's CLEND. Before the promised time its threads are suspended; at or past it they go on if
the mask's chunks have arrived, and otherwise the trap of PROMISE_MISS is taken with the clause's context saved, or, without a
handler or in trap state, warning 3 is set and the wait goes on as CWAIT's.
The position that the trap saves, LEN - 1, and its threads are the model's reading (log 42). -/
def Claim.PromiseWaitsBeginAtClend : Prop :=
  ∀ (s : State) (v : View) (es : List ClendEntry) (trk x : Nat) (m : W64) (tids : List Nat),
    Claim.Issues s v (.clend es) {} → Safety.ordered v.team = true → v.team.ref = v.iss.team →
    v.team.ending = none → v.team.msets = [] → (∀ th ∈ v.present, th.meet = 0) → (∀ g ∈ v.team.grps, g.mq = []) →
    v.cl.term = some (.wait (.promise trk m x) tids) → tids ≠ [] → (∀ th ∈ v.present, th.recno = v.iss.recno) →
    let k := v.team.tracker trk
    let saved : TrapRec := ⟨{ v.cl with flown := v.grp.flown v.cl es, pos := v.cl.pos - 1, issue := tids, term := none, idle := false },
      (v.present.filter fun th => tids.contains th.tid).map fun th => (th.tid, th.c), 0x15⟩
    let handled := v.team.hdr.handler ≠ 0 ∧ v.grp.trap = none
    (handled → s.landing v.iss.team.core v.team.asid v.team.hdr.handler = none) →
    ∃ t b g, exec (.clend es) s = .next t ∧ Claim.OnlyTeam s t v.iss.team ∧ t.team? v.iss.team = some b ∧ b.grp? v.iss.recno = some g ∧
      g.clause = none ∧ g.s = v.grp.s ∧
      (∀ th ∈ v.present, th.tid ∉ tids → b.thread? th.tid = some { th with pc := v.following, run := .runnable, age := s.sched.steps }) ∧
      let stand (pc : Nat) (run : Run) (age : Option Nat) : Prop :=
        ∀ th ∈ v.present, th.tid ∈ tids → b.thread? th.tid = some { th with pc := pc, run := run, age := age.getD th.age }
      let sleeping := Run.suspended (.wait s.sched.steps)
      (s.clock.time < k.promise → stand v.following sleeping none ∧ g.trap = v.grp.trap ∧
        g.waits.find s.sched.steps = some ⟨tids, .promise trk m k.promise, some saved⟩) ∧
      (k.promise ≤ s.clock.time → k.covers m = true → stand v.following .runnable (some s.sched.steps) ∧ g.trap = v.grp.trap ∧
        g.waits.find s.sched.steps = none) ∧
      (k.promise ≤ s.clock.time → k.covers m = false → ¬ handled → stand v.following sleeping none ∧ g.trap = v.grp.trap ∧
        g.warn = v.grp.warn ||| 8 ∧ g.waits.find s.sched.steps = some ⟨tids, .chunks trk m, some saved⟩) ∧
      (k.promise ≤ s.clock.time → k.covers m = false → handled → stand v.team.hdr.handler .runnable (some s.sched.steps) ∧
        g.trap = some saved ∧ g.trapv = m ∧ g.trapc.toNat % 2 ^ 8 = 0x15 ∧ g.waits.find s.sched.steps = none)

/-- R416: the CLEND of a clause whose RESUME was captured puts the trapping clause back, at the trapped position, or past it for
TRAP, BKPT and RESUME.skip, with the temporaries of its threads as the trap record holds them. -/
def Claim.ResumeReturnsToTheTrappedClause : Prop :=
  ∀ (s : State) (v : View) (es : List ClendEntry) (skip : Bool) (r : TrapRec),
    Claim.Issues s v (.clend es) {} → Safety.ordered v.team = true → v.team.ending = none → v.team.msets = [] →
    (∀ g ∈ v.team.grps, g.mq = []) → v.cl.term = some (.resume skip) → v.grp.trap = some r →
    ∃ t b g, exec (.clend es) s = .next t ∧ Claim.OnlyTeam s t v.iss.team ∧ t.team? v.iss.team = some b ∧ b.grp? v.iss.recno = some g ∧
      g.trap = none ∧ g.s = v.grp.s ∧
      g.clause = some { r.clause with
        pos := if skip = true ∨ r.code = 0x13 ∨ r.code = 0x14 then r.clause.pos + 1 else r.clause.pos, term := none, resumed := true } ∧
      ∀ th ∈ v.team.threads, b.thread? th.tid = some (if r.clause.issue.contains th.tid then
        { th with pc := r.clause.head, c := ((r.temps.find? fun x => x.1 == th.tid).map (·.2)).getD [] } else th)

/-- Waits and RESUME at their clause's CLEND. -/
def Obligations.WaitsAndResumesActAtClend : Prop := Claim.WaitsBeginAtClend ∧ Claim.PromiseWaitsBeginAtClend ∧ Claim.ResumeReturnsToTheTrappedClause

/-! ## The fabric's own steps -/

/-- Every resident team has a record that has not retired, so that no step ends one. -/
def Claim.running (s : State) : Prop := ∀ x ∈ s.teams, x.2.grps.any (fun g => !g.retired) = true

/-- R346, R350, R357, R377: a timer that expires before a request's seventh retry makes it wait to be sent again, and one that does
not expire changes nothing; after the seventh the request ends with TIMEOUT. An acknowledgement ends a sent request: its result and its
flag go to its group. A POOLWAIT answer sets its timer to 2 microseconds. A data window sends what is queued to its peer, and keeps the packet
that left. A port-slot whose identity flit disagreed takes no answers.
One data window per port and slot, and 2 microseconds after POOLWAIT, are the model's reading (log 29, 30). -/
def Obligations.FabricRequestsAreSentRetriedAndAcknowledged : Prop :=
  (∀ (s : State) (q : FabReq) (k : Nat), s.fab.reqs.find? (fun y => y.num == q.num) = some q → q.state = .sent k →
    (s.clock.time < q.expires ∨ s.fab.frozen = true → exec (.fabricRetryTimer q.num) s = .next s) ∧
    (q.expires ≤ s.clock.time → s.fab.frozen = false → k < 7 →
      ∃ t, exec (.fabricRetryTimer q.num) s = .next t ∧ t = { s with fab := { s.fab with reqs := t.fab.reqs } } ∧
        t.fab.reqs.find? (fun y => y.num == q.num) = some { q with state := .waiting (k + 1) } ∧
        ∀ y ∈ s.fab.reqs, y.num ≠ q.num → y ∈ t.fab.reqs) ∧
    (∀ port : Fin 8, s.fab.up = true → (s.fslot, port.val) ∉ s.fab.badPorts →
      ∃ t, exec (.poolwaitAnswer ⟨port, q.num⟩) s = .next t ∧ t = { s with fab := { s.fab with reqs := t.fab.reqs } } ∧
        t.fab.reqs.find? (fun y => y.num == q.num) = some { q with state := .waiting k, expires := s.clock.time + 2000 }) ∧
    (∀ (i : Issuer) (a : Team) (g : Grp) (tk : Ticket) (f : Fin 12) (d : Fin 64), q.iss = some i → s.team? i.team = some a → a.grp? i.recno = some g →
      q.coll = none → q.tk = some tk → tk.iss = i → tk.fl = some f → tk.dst = .s d → s.fab.drains = [] → Claim.running s →
      g.flags.length = 12 →
      let ended (t : State) (code result : Nat) : Prop := (∀ y ∈ t.fab.reqs, y.num ≠ q.num) ∧ ∃ b g', t.team? i.team = some b ∧
        b.grp? i.recno = some g' ∧ g'.getS d.val = BitVec.ofNat 64 result ∧ g'.flag f = g.flag f - 1 ∧ b.threads = a.threads ∧
        b.fabErr = (if code = 0 then a.fabErr else min (a.fabErr + 1) (2 ^ 32 - 1)) ∧ b.fabErrCode = (if code = 0 then a.fabErrCode else code) ∧
        b.badReqs = (if code = 0 then a.badReqs else a.badReqs ++ [q.dest])
      (k = 7 → q.expires ≤ s.clock.time → s.fab.frozen = false →
        ∃ t, exec (.fabricRetryTimer q.num) s = .next t ∧ ended t 3 (if q.body = none then q.statusWord 3 else 0)) ∧
      (∀ (port : Fin 8) (code : Nat) (old : W64), s.fab.isMe q.dest = false → s.fab.up = true → (s.fslot, port.val) ∉ s.fab.badPorts → q.sentOnce = true → code ≤ 9 → code ≠ 1 → code ≠ 3 →
        ∃ t, exec (.fabricAck ⟨port, q.num⟩ code old) s = .next t ∧
          ended t code (if q.body = none then q.statusWord code else if code = 0 then old.toNat else 0)))) ∧
  (∀ (s : State) (port : Fin 8) (peer peerPort gen : Nat),
    let e := nth 0 s.fab.cal (8 * s.fslot + port.val)
    (s.fab.up = false ∨ e.testBit 15 = false ∨ (s.clock.time - s.fab.epoch) % 520 < 20 → exec (.fabricDataWindow port peer peerPort gen) s = .next s) ∧
    (s.fab.up = true → e.testBit 15 = true → 20 ≤ (s.clock.time - s.fab.epoch) % 520 → (s.fslot, port.val) ∉ s.fab.badPorts →
      s.fab.windows.get 0 port.val ≠ s.slotCount + 1 →
      (peer ≠ e % 64 ∨ peerPort ≠ e / 2 ^ 12 % 8 ∨ gen ≠ s.fab.commits →
        ∃ t, exec (.fabricDataWindow port peer peerPort gen) s = .next t ∧ t.mem = s.mem ∧ t.teams = s.teams ∧ t.fab.reqs = s.fab.reqs ∧
          t.fab.calMism = true ∧ t.fab.badPorts = s.fab.badPorts ++ [(s.fslot, port.val)] ∧ t.mgmt.fwIrqs = s.mgmt.fwIrqs ++ [4]) ∧
      (∀ q, peer = e % 64 → peerPort = e / 2 ^ 12 % 8 → gen = s.fab.commits → s.fab.relays = [] → s.fab.owed = [] →
        s.service peer = [q] → s.fab.reqs.find? (fun y => y.num == q.num) = some q → q.body.isSome = true → q.state = .queued → q.len ≤ 100000 →
        ∃ t, exec (.fabricDataWindow port peer peerPort gen) s = .next t ∧
          { q with state := .sent 0, sentOnce := true, retries := 0, expires := s.slotEnd + 2000 } ∈ t.fab.reqs ∧
          (∀ b, q.body = some b → t.fab.sent = s.fab.sent ++ [⟨s.fab.me, q.dest, q.num, q.part, q.tc, q.stream,
            s.fab.floor q.dest q.tc q.part, q.region, q.key, q.off, b⟩]) ∧
          t.fab.windows.get 0 port.val = s.slotCount + 1)))

/-- The region's checks of R349 that look at the request alone, with the status of the first that fails. -/
def Claim.refusal (r : Region) (p : FabPacket) : Option Nat :=
  if p.key ≠ r.key then some 4
  else if r.len < p.off + bodySize p.body then some 5
  else if (match p.body with | .send _ => r.w | _ => r.a) = false then some 6
  else none

/-- The word that a FATOM leaves where it finds `old`, R363. -/
def Claim.fatomNew (b : FabBody) (old : W64) : Option W64 :=
  match b with
  | .add x => some (old + x)
  | .cas c n => some (if old = c then n else old)
  | _ => none

/-- R345, R347, R349, R350, R354: a request that arrives is applied once, in its turn: one of a direct stream when every lower number
has been applied or lies below the floor; one ahead of its turn is held, one behind it or below a floor received before is dropped, and any of them brings its floor. Applied in a
region that admits it, an FSEND writes its words, the last to an address last, and an FATOM its new value, and it counts as an arrival; one
that the region refuses writes nothing and is answered with the check's status; one already in the duplicate filter is answered again. Relays are
held for their next hop, and relays, filter entries and skipped stream numbers go when their time has come. -/
def Obligations.FabricArrivalsAreAppliedOnce : Prop :=
  (∀ (s : State) (port : Fin 8) (p : FabPacket), s.fab.up = true → (s.fslot, port.val) ∉ s.fab.badPorts → s.fab.has p.src = true → p.src ≠ s.fab.me →
    p.dest = s.fab.me → Claim.running s → isData p.body = true → (s.fab.stream? p.src p.tc p.part).early = [] →
    let x := s.fab.stream? p.src p.tc p.part
    let floor := max x.floor p.floor
    let now (t : State) : Stream := t.fab.stream? p.src p.tc p.part
    let onlyStream (t : State) : Prop := t = { s with fab := { s.fab with streams := t.fab.streams } }
    (∀ e, s.fab.filter.find? (fun e => e.src == p.src && e.num == p.num) = some e →
      ∃ t, exec (.fabricRequestArrival ⟨port, p⟩) s = .next t ∧
        t = { s with fab := { s.fab with owed := s.fab.owed ++ [.ack p.src p.num e.code e.old none], streams := t.fab.streams } } ∧
        now t = { x with next := if s.fab.streamStalled p.src p.tc p.part = true then x.next else max x.next floor, floor := floor }) ∧
    (s.fab.filter = [] → s.fab.stalled = [] →
      (∀ n, p.stream = some n → n < max x.next x.floor → ∃ t, exec (.fabricRequestArrival ⟨port, p⟩) s = .next t ∧ onlyStream t ∧
        now t = { x with next := max x.next floor, floor := floor }) ∧
      (∀ n, p.stream = some n → x.next < n → floor < n → ∃ t, exec (.fabricRequestArrival ⟨port, p⟩) s = .next t ∧ onlyStream t ∧
        now t = { x with next := max x.next floor, floor := floor, early := [p] }) ∧
      (p.stream = none ∨ (∃ n, p.stream = some n ∧ x.floor ≤ n ∧ (n = x.next ∨ (x.next < n ∧ n ≤ floor))) → s.fab.strikes = [] →
        let r := s.region p.region
        let n := bodySize p.body / 4
        let word (i : Nat) : Nat := ((r.base + p.off) % 2 ^ 64 + 4 * i) % 2 ^ 64
        let answered (t : State) (code : Nat) (old : W64) (region : Option Nat) : Prop :=
          t.fab.filter = [⟨p.src, p.num, code, old, s.clock.time + 1100000⟩] ∧ t.fab.owed = s.fab.owed ++ [.ack p.src p.num code old region] ∧
            now t = { x with next := max (p.stream.elim x.next (· + 1)) floor, floor := floor }
        (r.state ≠ .open_ ∨ p.region / 32 ≠ p.part →
          ∃ t, exec (.fabricRequestArrival ⟨port, p⟩) s = .next t ∧ t.mem = s.mem ∧ t.fab.regions = s.fab.regions ∧ answered t 2 0 none) ∧
        (r.state = .open_ → p.region / 32 = p.part →
          (∀ code, Claim.refusal r p = some code → ∃ t, exec (.fabricRequestArrival ⟨port, p⟩) s = .next t ∧ t.mem = s.mem ∧
            answered t code 0 (some p.region) ∧ t.region p.region = { r with flight := r.flight + 1 }) ∧
          (∀ at_ : Nat → Leaf, Claim.refusal r p = none →
            (∀ i < n, canonical (word i) = true ∧ (at_ i).pa % 4 = 0 ∧ s.collHit (at_ i).pa 4 = false ∧ s.mem.tags.get 0 ((at_ i).pa / 128) = (at_ i).gen ∧
              ∀ need : Right, need.x = false → s.translate r.asid (word i) need = .ok (at_ i)) →
            (∀ d, p.body = .send d → d.length = 4 * n →
              ∃ t, exec (.fabricRequestArrival ⟨port, p⟩) s = .next t ∧ answered t 0 0 (some p.region) ∧
                t.region p.region = { r with flight := r.flight + 1, arr := r.arr + 1 } ∧
                (∀ i < n, (∀ k < n, i < k → (at_ k).pa ≠ (at_ i).pa) → ∀ j < 4, t.mem.phys.byte ((at_ i).pa + j) = d.getD (4 * i + j) 0) ∧
                ∀ b, (∀ i < n, b < (at_ i).pa ∨ (at_ i).pa + 4 ≤ b) → t.mem.phys.byte b = s.mem.phys.byte b) ∧
            (∀ new, s.mem.phys.unplaced = [] → (at_ 0).pa ≠ (at_ 1).pa → (∀ i < 2, physKind (at_ i).pa = .hbm ∧ (at_ i).gen ≠ 1 ∧ s.poisoned (at_ i).pa = false) →
              let bytes (t : State) (i : Nat) : List Byte := (List.range 4).map fun j => t.mem.phys.byte ((at_ i).pa + j)
              let old : W64 := BitVec.ofNat 64 (leNat (bytes s 0 ++ bytes s 1))
              Claim.fatomNew p.body old = some new →
              ∃ t, exec (.fabricRequestArrival ⟨port, p⟩) s = .next t ∧ answered t 0 old (some p.region) ∧
                t.region p.region = { r with flight := r.flight + 1, arr := r.arr + 1 } ∧ BitVec.ofNat 64 (leNat (bytes t 0 ++ bytes t 1)) = new ∧
                ∀ b, (∀ i < 2, b < (at_ i).pa ∨ (at_ i).pa + 4 ≤ b) → t.mem.phys.byte b = s.mem.phys.byte b)))))) ∧
  (∀ (s : State) (port : Fin 8) (p : FabPacket),
    (s.fab.up = true → (s.fslot, port.val) ∉ s.fab.badPorts → s.fab.has p.dest = true → p.dest ≠ s.fab.me → (s.fab.relays.map fun x => bodySize x.2.body).sum + bodySize p.body ≤ 2 ^ 22 →
      exec (.relayRecordArrival ⟨port, p⟩) s = .next { s with fab := { s.fab with relays := s.fab.relays ++ [(s.clock.time, p)] } }) ∧
    (s.fab.has p.dest = false ∨ (s.fslot, port.val) ∈ s.fab.badPorts → exec (.relayRecordArrival ⟨port, p⟩) s = .next s)) ∧
  (∀ (s : State) (n src : Nat),
    (∃ t, exec (.relayRecordExpiry n) s = .next t ∧ t = { s with fab := { s.fab with relays := t.fab.relays } } ∧
      ∀ x, x ∈ t.fab.relays ↔ x ∈ s.fab.relays ∧ (x.2.num = n → s.clock.time < x.1 + 550000)) ∧
    (∃ t, exec (.filterEntryExpiry src n) s = .next t ∧ t = { s with fab := { s.fab with filter := t.fab.filter } } ∧
      ∀ x, x ∈ t.fab.filter ↔ x ∈ s.fab.filter ∧ (x.src = src → x.num = n → s.clock.time < x.until_))) ∧
  (∀ (s : State) (port : Fin 8) (src tc part floor : Nat), s.fab.up = true → (s.fslot, port.val) ∉ s.fab.badPorts → s.fab.has src = true → src ≠ s.fab.me →
    s.fab.streamStalled src tc part = false → (s.fab.stream? src tc part).early = [] → Claim.running s →
    ∃ t, exec (.skipNoticeArrival ⟨port, src⟩ tc part floor) s = .next t ∧ t.mem = s.mem ∧
      (t.fab.stream? src tc part).next = max (s.fab.stream? src tc part).next (max (s.fab.stream? src tc part).floor floor))

/-- R12, R336, R337, R340, R341, R369, R370: staging takes only a valid calendar, and one that fails stages nothing and leaves no DARK waiting;
QUIESCE, DARK and RELOCK act in their turn and at their boundary; the staged calendar and mask take effect at NEPOCH as it then stands, and a
relock without one keeps the current calendar; either ends a drain; an offset beyond 5 ns leaves the pod; STATE's bits are cleared by a write
that sets no Reserved bit; TIME follows the pod until the first relock.
When RELOCK from `left` takes effect is the model's reading (log 29). -/
def Obligations.CalendarsChangeInTheirOrder : Prop :=
  ∀ s : State,
    (let ok := calValid s.fab.ncal s.fab.nmask s.fab.self && s.portsServe s.fab.ncal
     ∃ t, exec .calStage s = .next t ∧ t.mem = s.mem ∧ t.teams = s.teams ∧
      t.fab = { s.fab with staged := ok, calErr := s.fab.calErr || !ok, darkAt := if ok then s.fab.darkAt else none } ∧
      t.mgmt.fwIrqs = s.mgmt.fwIrqs ++ if ok then [] else [4]) ∧
    (let nums := (s.fab.reqs.filter fun q => q.state != .held).map (·.num)
     let st : PodState := if nums = [] ∧ (s.fab.state = .locked ∨ s.fab.state = .alone) then .quiesced else s.fab.state
     exec .calQuiesce s = .next { s with fab := { s.fab with draining := true, markers := nums, state := st } }) ∧
    (let f := if s.fab.staged = true then { s.fab with darkAt := some (s.fab.epoch + 520 * s.fab.calL * (s.fcyc + 1)) } else { s.fab with calErr := true }
     exec .calDark s = .next { s with fab := f }) ∧
    (∀ w, s.fab.darkAt = some w →
      (s.clock.time < w → exec .fabricDarkAtBoundary s = .next s) ∧
      (w ≤ s.clock.time → s.fab.reqs = [] → s.fab.owed = [] → Claim.running s →
        let kept := s.fab.relays.filter fun x => decide (x.2.dest < 64) && s.fab.nmask.getLsbD x.2.dest
        ∃ t, exec .fabricDarkAtBoundary s = .next t ∧ t.mem = s.mem ∧
          t.fab = { s.fab with state := .dark, darkAt := none, darkDone := true, mask := s.fab.nmask, relays := kept })) ∧
    (let at_ := if s.fab.darkDone = true then s.fab.nepoch else s.fab.epoch + 520 * s.fab.calL * (s.fcyc + 1)
     exec .calRelock s = .next (if s.fab.state = .dark ∨ s.fab.state = .left
       then { s with fab := { s.fab with state := .relocking, relockAt := some at_ } } else s)) ∧
    (∀ w, s.fab.relockAt = some w →
      let due := if s.fab.darkDone = true then s.fab.nepoch else w
      (s.clock.time < due ∨ s.fab.state ≠ .relocking → exec .relockAtNepoch s = .next s) ∧
      (due ≤ s.clock.time → s.fab.state = .relocking → s.fab.darkDone = false ∨ s.fab.staged = false → s.fab.reqs = [] →
        exec .relockAtNepoch s = .next { s with fab := { s.fab with
          relockAt := none, state := .locked, darkDone := false, draining := false, markers := [] } }) ∧
      (due ≤ s.clock.time → s.fab.state = .relocking → s.fab.darkDone = true → s.fab.staged = true → s.fab.reqs = [] →
        let single := popcount 64 s.fab.mask.toNat ≤ 1
        let f : Fab := { s.fab with
          relockAt := none, cal := s.fab.ncal, epoch := s.fab.nepoch, calL := calLength s.fab.mask, lfsr := 0xACE1 ^^^ (s.fab.self * 2 ^ 8),
          commits := s.fab.commits + 1, staged := false, darkDone := false, draining := false, markers := [], badPorts := [], windows := [],
          state := if single then .alone else .locked, mask := if single then 1 else s.fab.mask, inPod := !decide single }
        exec .relockAtNepoch s = .next { s with fab := f })) ∧
    (∀ x : W64,
      let f : Fab := { s.fab with
        calErr := s.fab.calErr && !x.getLsbD 8, calMism := s.fab.calMism && !x.getLsbD 9, offWarn := s.fab.offWarn && !x.getLsbD 10 }
      exec (.fabricStateClear x) s = .next (if 2 ^ 11 ≤ x.toNat then s else { s with fab := f })) ∧
    (∀ ps : Int,
      (ps.natAbs ≤ 2000 → exec (.fabricClockOffset ps) s = .next { s with fab := { s.fab with offset := ps } }) ∧
      (2000 < ps.natAbs → s.fab.state ≠ .alone →
        ∃ t, exec (.fabricClockOffset ps) s = .next t ∧ t.mem = s.mem ∧ t.teams = s.teams ∧ t.mgmt.fwIrqs = s.mgmt.fwIrqs ++ [4] ∧ t.fab.offset = ps ∧
          t.fab.offWarn = (s.fab.offWarn || decide (ps.natAbs ≤ 5000)) ∧ t.fab.state = (if ps.natAbs ≤ 5000 then s.fab.state else .left))) ∧
    (∀ x : W64,
      (s.clock.runs = false ∨ s.fab.inPod = true → exec (.timePodSync x) s = .next s) ∧
      (s.clock.runs = true → s.fab.inPod = false →
        let c := if s.clock.time ≤ x.toNat then { s.clock with time := x.toNat, lead := 0, half := 0 }
          else { s.clock with lead := s.clock.time - x.toNat, half := 0 }
        exec (.timePodSync x) s = .next { s with clock := c }))

/-! ## Steps of collectives and of the guest -/

/-- R365, R407: FWAIT_TIMEOUT and GWAIT_TIMEOUT end a wait whose limit has passed, with reason 2, and no other. -/
def Claim.FabricAndGuestWaitsTimeOut : Prop :=
  ∀ (s : State) (r : TeamRef) (a : Team) (g : Grp) (id : Nat) (d : Fin 64) (k : WaitKind) (limit t0 : Nat) (i : Instr) (tids : List Nat),
    s.team? r = some a → a.grps = [g] → Safety.ordered a = true → a.msets = [] → g.waits = [(id, ⟨tids, k, none⟩)] →
    ((∃ arr rg c, k = .fab (.s d) arr rg c limit t0 ∧ i = .fwaitTimeout r g.recno) ∨
      ∃ q x, k = .guest (.s d) q x limit t0 ∧ i = .gwaitTimeout r g.recno) →
    (limit = 0 ∨ s.clock.time < t0 + limit → ∃ t, exec i s = .next t ∧ t.team? r = some a ∧ t.mem = s.mem) ∧
    (limit ≠ 0 → t0 + limit ≤ s.clock.time → ∃ t, exec i s = .next t ∧ Claim.OnlyTeam s t r ∧ Claim.Woken s t r a g id d 2)

/-- The steps that end WAITA, FWAIT and GWAIT. -/
def Obligations.WaitsEndWithTheirReason : Prop := Claim.MonitorsEndWithTheirReason ∧ Claim.FabricAndGuestWaitsTimeOut

/-- A chunk packet of a member reaches this part outside any stream, and is no duplicate. -/
def Claim.arrives (s : State) (port : Fin 8) (p : FabPacket) : Prop :=
  s.fab.up = true ∧ (s.fslot, port.val) ∉ s.fab.badPorts ∧ s.fab.has p.src = true ∧ p.src ≠ s.fab.me ∧ p.dest = s.fab.me ∧ p.stream = none ∧ s.fab.filter = [] ∧ s.fab.stalled = [] ∧
    (s.fab.stream? p.src p.tc p.part).early = []

/-- R376, R377, R379, R380, R383, R386, R387: an arrival of a live collective is counted once, and a result that would touch another
collective's range is refused with RANGE; one of no collective waits in the pool while it has room and its TMO has not passed; a snapshot of a tile waits for the commands on the tile before it and is sent when it is taken; a collective that is complete, timed out or dropped leaves, with
the status 0, 2 or 1 for those who joined it.
That an arrival which the pool holds is acknowledged OK, and which requests a drop removes, are the model's reading (log 30, 31). -/
def Obligations.CollectivesAdvanceAndEnd : Prop :=
  (∀ (s : State) (port : Fin 8) (p : FabPacket) (x : Chunk), p.body = .chunk x → Claim.arrives s port p → Claim.running s →
    (∀ c, s.coll? p.part x.digest.cid = some c → x.digest = c.bind.digest → c.part = p.part → x.result = false → c.bind.memb.getLsbD p.src = true →
      (p.src, p.num) ∉ c.seen →
      ∃ t c', exec (.chunkArrival ⟨port, p⟩) s = .next t ∧ t.mem = s.mem ∧ t.coll? p.part x.digest.cid = some c' ∧
        c' = { c with seen := c.seen ++ [(p.src, p.num)], inbound := c.inbound ++ [(c.bind.rank p.src, x.k, x.data)],
                      counter := c.counter - 1, reduceDue := c.reduceDue || c.counter == 1 } ∧
        t.fab.owed = s.fab.owed ++ [.ack p.src p.num 0 0 none]) ∧
    (∀ c, s.coll? p.part x.digest.cid = some c → x.digest = c.bind.digest → x.result = true → c.bind.memb.getLsbD p.src = true → (p.src, p.num) ∉ c.seen →
      s.collBlocked c (c.bind.rbase + c.bind.offset (c.bind.rank p.src) x.k) x.data.length = true →
      ∃ t, exec (.chunkArrival ⟨port, p⟩) s = .next t ∧ t.mem = s.mem ∧ t.coll = s.coll ∧ t.fab.owed = s.fab.owed ++ [.ack p.src p.num 8 0 none]) ∧
    (s.coll? p.part x.digest.cid = none → x.sent + 1000 * x.tmo ≤ s.clock.time →
      ∃ t, exec (.chunkArrival ⟨port, p⟩) s = .next t ∧ t.mem = s.mem ∧ t.coll = s.coll ∧ t.fab.owed = s.fab.owed ++ [.ack p.src p.num 0 0 none]) ∧
    (s.coll? p.part x.digest.cid = none → s.clock.time < x.sent + 1000 * x.tmo →
      let used := ((s.coll.pool.filter fun u => u.part == p.part).map fun u => u.chunk.digest.cbytes + 64).sum
      (used + x.digest.cbytes + 64 ≤ 2 ^ 20 → ∃ t, exec (.chunkArrival ⟨port, p⟩) s = .next t ∧ t.mem = s.mem ∧
        t.coll = { s.coll with pool := s.coll.pool ++ [⟨p.src, p.num, p.part, x⟩] } ∧ t.fab.owed = s.fab.owed ++ [.ack p.src p.num 0 0 none]) ∧
      (2 ^ 20 < used + x.digest.cbytes + 64 → ∃ t, exec (.chunkArrival ⟨port, p⟩) s = .next t ∧ t.mem = s.mem ∧ t.coll = s.coll ∧
        t.fab.owed = s.fab.owed ++ [.poolwait p.src p.num]))) ∧
  (∀ (s : State) (port : Fin 8) (p : FabPacket) (cid : Nat), p.body = .drop cid → Claim.arrives s port p → Claim.running s →
    ∃ t, exec (.dropNoticeArrival ⟨port, p⟩) s = .next t ∧ t.coll? p.part cid = none ∧
      (s.coll? p.part cid = none → t.mem = s.mem ∧
        ∀ u, u ∈ t.coll.pool ↔ u ∈ s.coll.pool ∧ ¬(u.part = p.part ∧ u.src = p.src ∧ u.chunk.digest.cid = cid))) ∧
  (∀ (s : State) (src num : Nat),
    ∃ t, exec (.unmatchedArrivalExpiry src num) s = .next t ∧ t = { s with coll := { s.coll with pool := t.coll.pool } } ∧
      ∀ u, u ∈ t.coll.pool ↔ u ∈ s.coll.pool ∧ (u.src = src → u.num = num → s.clock.time < u.chunk.sent + 1000 * u.chunk.tmo)) ∧
  (∀ (s : State) (part cid : Nat) (c : Coll), s.coll? part cid = some c →
    (c.counter ≠ 0 ∨ c.second ≠ 0 ∨ c.reduceDone = false → exec (.collectiveComplete part cid) s = .next s) ∧
    (s.clock.time < c.deadline → exec (.collectiveTimeout part cid) s = .next s) ∧
    (∀ tk g d, c.joins = [tk] → tk.dst = .s d → s.grp? tk.iss = some g → Claim.running s → s.eng.landings = [] →
      let joined (t : State) (x : Nat) : Prop := t.coll? part cid = none ∧ (∀ e ∈ t.coll.ranges, ¬(e.part = part ∧ e.cid = cid)) ∧
        (t.grp? tk.iss).map (·.getS d.val) = some (BitVec.ofNat 64 x)
      (c.counter = 0 → c.second = 0 → c.reduceDone = true → s.teamsOf (.reduce part cid) = [] → c.snaps = [] → c.fired.length = c.bind.nchunk →
        s.fab.reqs = [] → s.mem.phys.unplaced = [] →
        ∃ t, exec (.collectiveComplete part cid) s = .next t ∧ joined t 0) ∧
      (c.deadline ≤ s.clock.time → s.fab.reqs = [] → c.snaps = [] → s.teamsOf (.reduce part cid) = [] → (∀ x ∈ s.teams, x.2.waitsOf
          (fun k => match k with | .monitor .. => true | _ => false) = []) →
        ∃ t, exec (.collectiveTimeout part cid) s = .next t ∧ joined t 2 ∧
          ∀ l ∈ s.front.launches, l.id = c.launch → ∃ l' ∈ t.front.launches, l'.id = l.id ∧ l'.timedOut = true ∧ l'.killed = l.killed)) ∧
    (∀ k x a tk, c.snaps.find? (fun y => y.k == k) = some x → s.team? x.team = some a → c.bind.srck = true → x.tk = some tk →
      s.tileBusy tk c.bind.tile = true → exec (.chunkSnapshotComplete part cid k) s = .next s) ∧
    (∀ k x a, c.snaps.find? (fun y => y.k == k) = some x → c.part = part → c.bind.cid = cid → s.team? x.team = some a →
      c.bind.srck = true → x.tk = none → s.mem.parked = [] → Claim.running s →
      ∃ t c', exec (.chunkSnapshotComplete part cid k) s = .next t ∧ t.coll? part cid = some c' ∧
        c'.snaps = c.snaps.filter (fun y => y != x) ∧ c'.outbound = c.outbound ++ [(x.k, rawImage (a.tile c.bind.tile))] ∧
        c'.counter = c.counter ∧ t.fab.reqNo = s.fab.reqNo + (c.bind.dests x.k).length))

/-- An outstanding packet of a guest queue under a context handle, R399. -/
def Claim.packetOf (s : State) (ctx : BitVec 32) (p : Packet) : Prop := ∃ g ∈ s.guest.queues, p ∈ g.packets ∧ ctx.toNat = p.asid + 2 ^ 12 * g.part

/-- A shadow entry holds the translation of an address in a context. -/
def Claim.shadows (e : Shadow) (asid va : Nat) : Bool := e.asid == asid && e.va == va / e.size * e.size

/-- R395, R396, R397: a translation request that a packet's context covers is answered: with the frame, its size, rights and CA, and a
shadow entry that replaces only the address's own, or with a FAULT; the translations that the guest releases go first. A request of a
context without a packet, or beyond 4096 entries, is violation 2; one that asks again after a FAULT is violation 5.
Model's choices (log 17): at which packet a FAULT is noted, and that one covers its own address only. -/
def Claim.Translates (s : State) (fences : Instr → Nat → Prop) : Prop :=
  ∀ (ctx : BitVec 32) (va : W64) (r w x : Bool) (release : List (Nat × Nat)),
    let asid := ctx.toNat % 2 ^ 12
    let kept := s.guest.shadows.filter fun e => !release.any fun y => Claim.shadows e y.1 y.2
    let room : Prop := kept.length < 4096 ∨ ∃ e ∈ kept, Claim.shadows e asid va.toNat = true
    let i : Instr := .guestTranslateRequest ⟨ctx, release⟩ va r w x
    let q : GuestReq := ⟨ctx, va.toNat, r, w, x⟩
    ((∀ p, ¬ Claim.packetOf s ctx p) ∨ ¬ room → fences i 2) ∧
    ((∃ p, Claim.packetOf s ctx p) → room →
      ((∃ p, Claim.packetOf s ctx p ∧ va.toNat ∈ p.faulted) → fences i 5) ∧
      ((∀ p, Claim.packetOf s ctx p → va.toNat ∉ p.faulted) →
        let walk := s.translate asid va.toNat ⟨r, w, x⟩
        let barred : Prop := ∃ l, walk = .ok l ∧ (physKind (l.pa / l.size * l.size) = .regs ∨ physKind (l.pa / l.size * l.size) = .guest)
        (∀ l, canonical va.toNat = true → walk = .ok l → ¬ barred → (kept.filter fun e => !Claim.shadows e asid va.toNat).length < 4096 →
          let frame := l.pa / l.size * l.size
          let entry : Shadow := ⟨asid, va.toNat / l.size * l.size, frame, l.size, l.key, l.r, l.w⟩
          let g : Guest := { s.guest with
            shadows := (kept.filter fun e => !Claim.shadows e asid va.toNat) ++ [entry]
            answers := s.guest.answers ++ [(q, .frame frame l.size l.r l.w l.x l.ca)] }
          exec i s = .next { s with guest := g }) ∧
        (∀ code, (code = 0x09 ∧ (canonical va.toNat = false ∨ walk = .bad ∨ (walk = .absent ∧ (s.ctx? asid).any (·.replay) = false))) ∨
            (code = 0x0A ∧ canonical va.toNat = true ∧ (walk = .refused ∨ barred)) →
          ∃ t, exec i s = .next t ∧ t.mem = s.mem ∧ t.teams = s.teams ∧ t.guest.shadows = kept ∧ t.guest.fenced = false ∧
            t.guest.answers = s.guest.answers ++ [(q, .fault code)] ∧ ∃ p, Claim.packetOf t ctx p ∧ va.toNat ∈ p.faulted)))

/-- An address that was answered FAULT to an uncompleted packet of the entry's context lies in n bytes at pa. -/
def Claim.retries (s : State) (e : Shadow) (pa n : Nat) : Prop :=
  ∃ g ∈ s.guest.queues, ∃ p ∈ g.packets, p.asid = e.asid ∧ ∃ a ∈ p.faulted, e.va + (pa - e.frame) ≤ a ∧ a < e.va + (pa - e.frame) + n

/-- R392 to R404, R401: the guest reaches memory only inside its shadow entries and its rings; a violation fences the port with its cause: an
access outside them 1, an unacknowledged invalidation 3, an unmet stop 4, a bad completion record or a retry after a FAULT 5, power 6,
the link 7. An acknowledged invalidation ends the entries it was sent for. A completion record that its queue expects completes the oldest packet; a fenced port takes none of these. A guest is admitted with a listed
key and a good signature, to a fenced port, once Genmon has reset it.
Model's choices: the reason a GWAIT ends with at a fence (log 32); what a retry covers, the entries an invalidation ends, deadlines that are met at their ns and
missed past it, the excess lasting between readings, the guest's reset before a link-up (log 17). Free values: the nonce, key 20, and the power that Genmon
reads at the guest's rail, key 29 (log 3). That SHA-256 and the LMS check are those of RFC 8554 is PRESUMED (log 12). -/
def Obligations.TheGuestIsServedOrFenced : Prop :=
  ∀ s : State, s.guest.queues.length = 64 →
    let fences (i : Instr) (cause : Nat) : Prop := ∃ t, exec i s = .next t ∧ t.guest.fenced = true ∧ t.guest.cause = cause ∧
      t.guest.shadows = [] ∧ t.guest.invals = [] ∧ (∀ q ∈ t.guest.queues, q.packets = []) ∧
      t.eng.landings = s.eng.landings.map fun l => if l.lost = [] then l else { l with writes := l.lost }
    (s.guest.fenced = true → (∀ pa w n, exec (.guestAccess pa w n) s = .next s) ∧
      (∀ ctx va r w x release, exec (.guestTranslateRequest ⟨ctx, release⟩ va r w x) s = .next s) ∧
      (∀ q slot v st c, exec (.guestCompletionRecord q slot v st c) s = .next s)) ∧
    (s.guest.fenced = false →
      (∀ pa n, 0 < n → s.shadowOf pa n false = none → s.ringOf pa n false = none → fences (.guestAccess pa none n) 1) ∧
      (∀ pa n q, 0 < n → s.shadowOf pa n false = none → s.ringOf pa n false = some q → (∀ l ∈ linesOf pa n, l ∉ s.mem.poison) →
        exec (.guestAccess pa none n) s = .next s) ∧
      (∀ pa n e, 0 < n → s.shadowOf pa n false = some e →
        (Claim.retries s e pa n → fences (.guestAccess pa none n) 5) ∧
        (¬ Claim.retries s e pa n → s.collHit pa n = false → (∀ l ∈ linesOf pa n, l ∉ s.mem.poison) → exec (.guestAccess pa none n) s = .next s) ∧
        (¬ Claim.retries s e pa n → s.collHit pa n = true → ∃ t, exec (.guestAccess pa none n) s = .next t ∧ t = { s with guest := t.guest } ∧
          t.guest.fenced = false ∧ t.guest.shadows = s.guest.shadows)) ∧
      (∀ pa bs n, bs ≠ [] → s.shadowOf pa bs.length true = none → s.ringOf pa bs.length true = none → fences (.guestAccess pa (some bs) n) 1) ∧
      (∀ pa bs n e, bs ≠ [] → s.shadowOf pa bs.length true = some e → Claim.retries s e pa bs.length → fences (.guestAccess pa (some bs) n) 5) ∧
      (∀ pa bs n e, bs ≠ [] → s.shadowOf pa bs.length true = some e → ¬ Claim.retries s e pa bs.length → s.collHit pa bs.length = false →
        (∀ l ∈ linesOf pa bs.length, s.mem.tags.get 0 l = s.keyGen e.key) →
        ∃ t, exec (.guestAccess pa (some bs) n) s = .next t ∧ t.guest = s.guest ∧ (∀ j < bs.length, t.mem.phys.byte (pa + j) = bs.getD j 0) ∧
          ∀ b, b < pa ∨ pa + bs.length ≤ b → t.mem.phys.byte b = s.mem.phys.byte b) ∧
      Claim.Translates s fences ∧
      ((∃ y ∈ s.guest.invals, y.due ≤ s.clock.time) → fences .guestInvalidationTimeout 3) ∧
      (∀ q, (∃ p ∈ (s.gq q).packets, ∃ w, p.stop = some w ∧ w ≤ s.clock.time) → fences (.guestStopTimeout q) 4) ∧
      (∀ q slot v st c, slot ≠ (s.gq q).cmp % 2 ^ (s.gq q).l ∨ c.toNat ≠ ((s.gq q).cmp + 1) % 2 ^ 32 ∨ (s.gq q).sub ≤ (s.gq q).cmp →
        fences (.guestCompletionRecord q slot v st c) 5) ∧
      (∀ w, s.guest.excessSince = some w → w + 1000000 ≤ s.mgmt.now → fences .guestPowerExcess 6) ∧
      (∀ w, s.guest.excessSince = some w → w + 1000000 ≤ s.mgmt.now → fences .guestRailOverAllowance 6) ∧
      (∃ t, exec .guestLinkDown s = .next t ∧ t.guest.fenced = true ∧ t.guest.cause = 7 ∧ t.guest.present = false)) ∧
    ((∀ w, s.guest.excessSince = some w → s.mgmt.now < w + 1000000) → exec .guestPowerExcess s = .next s) ∧
    ((∀ y ∈ s.guest.invals, s.clock.time < y.due) → exec .guestInvalidationTimeout s = .next s) ∧
    (∀ y rest, s.guest.invals = y :: rest → y.due < s.clock.time → s.guest.fenced = false → fences .guestInvalidationAck 3) ∧
    (s.guest.invals = [] → exec .guestInvalidationAck s = .next s) ∧
    (∀ y rest, s.guest.invals = y :: rest → s.clock.time ≤ y.due → ∃ t, exec .guestInvalidationAck s = .next t ∧ t = { s with guest := t.guest } ∧
      t.guest = { s.guest with invals := rest, shadows := s.guest.shadows.filter fun e => !(y.ends.contains e && s.stale e) }) ∧
    (∀ q st v p rest, s.guest.fenced = false → q < 64 → (s.gq q).packets = p :: rest → p.i = (s.gq q).cmp → (s.gq q).cmp < (s.gq q).sub →
      Claim.running s → s.guest.cancels = [] → (∀ x ∈ s.teams, x.2.waitsOf (fun k => match k with | .guest .. => true | .monitor .. => true | _ => false) = []) →
      ∃ t, exec (.guestCompletionRecord q ((s.gq q).cmp % 2 ^ (s.gq q).l) v st (BitVec.ofNat 32 (p.i + 1))) s = .next t ∧
        t.gq q = { s.gq q with packets := rest, cmp := p.i + 1 } ∧
        ∀ d g, p.tk.dst = .s d → s.grp? p.tk.iss = some g →
          (t.grp? p.tk.iss).map (·.getS d.val) = some (BitVec.ofNat 64 ((p.i + 1) % 2 ^ 32 * 2 ^ 32 + st.toNat))) ∧
    (∀ q (x : W64), q < 64 →
      let bad : Prop := x.toNat / 2 ^ 13 % 2 ^ 50 ≠ 0 ∨ x.toNat / 2 ^ 4 % 2 ^ 4 ≠ 0 ∨ 8 < x.toNat % 16 ∨ ((s.gq q).enabled = true ∧ (s.gq q).sub ≠ (s.gq q).cmp)
      (bad → exec (.qcfgWrite q x) s = .next s) ∧
      (¬ bad → ∃ t, exec (.qcfgWrite q x) s = .next t ∧ t.mem = s.mem ∧ t.teams = s.teams ∧
        t.gq q = { s.gq q with l := x.toNat % 16 + 4, part := x.toNat / 2 ^ 8 % 2 ^ 5, enabled := x.getLsbD 63 } ∧ ∀ k, k ≠ q → t.gq k = s.gq k)) ∧
    (exec .gctlDoorbellTest s = .next { s with guest := { s.guest with doorbells := s.guest.doorbells + 1 } }) ∧
    (let g : Guest :=
       if (s.choose [29]) ≤ s.mgmt.gpwr then { s.guest with excessSince := none }
       else if s.guest.excessSince.isSome = true then s.guest
       else { s.guest with excessSince := some s.mgmt.now, throttles := s.guest.throttles + 1 }
     (∀ w, s.guest.excessSince = some w → s.mgmt.now < w + 1000000) → exec .guestRailOverAllowance s = .next { s with guest := g }) ∧
    (∀ keys, keys.length ≤ 16 → ∃ t, exec (.guestKeyListChange keys) s = .next t ∧ t.mem = s.mem ∧ t.teams = s.teams ∧ t.mgmt.guestKeys = keys ∧
      nth 0 t.mgmt.meas 3 = if 3 < s.mgmt.meas.length
        then sha256 (digestBytes (nth 0 s.mgmt.meas 3) ++ digestBytes (sha256 (keys.flatMap digestBytes))) else 0) ∧
    (∀ keys, 16 < keys.length → exec (.guestKeyListChange keys) s = .next s) ∧
    (∀ key fw sig, s.mgmt.stage < 7 → exec (.guestLinkUp key fw sig) s = .next s) ∧
    (∀ key fw sig, 7 ≤ s.mgmt.stage → s.mgmt.off = false → (s.rail 10).good = true → s.mgmt.ucie.all (fun u => u.result == 1) = true →
      ∃ t, exec (.guestLinkUp key fw sig) s = .next t ∧ t.guest.present = true ∧ t.mgmt.guestDone = true ∧
        let good : Prop := s.guest.ready = true ∧ s.guest.fenced = true ∧ key.length = 56 ∧ sha256 key ∈ s.mgmt.guestKeys
        (¬ good → t.guest.fenced = true) ∧
        (good → t.guest.fenced = !lmsVerify key (digestBytes (sha256 (digestBytes fw ++ digestBytes (BitVec.ofNat 256 (s.choose [20]))))) sig))

/-! ## Machine checks, keys and resets -/

/-- R417, R418, R420: an uncorrectable error kills every launch of its context, poisons its line, and is in the log; one of firmware's
storage, and one that is corrected, is only logged. The scrub poisons a line of HBM it cannot correct. KEY_OWNER gives, keeps or releases a key id as its byte
says, and a byte with a Reserved bit, or one that takes another partition's id, changes nothing.
A release takes the key from the burrows of the teams under it. Model's choices: PC of a machine fault (log 22), the sites of an error (log 19), the registers
of a team whose burrow's key changes (log 26). -/
def Claim.ErrorsPoisonAndKeysHaveOwners : Prop :=
  ∀ s : State,
    (∀ site pa y asid a, (site = .context asid ∧ a = pa) ∨ site = .line a asid →
      ∃ t, exec (.uncorrectableError site pa y) s = .next t ∧
        (site = .line a asid → (a / 128) ∈ t.mem.poison) ∧
        ∀ l ∈ s.front.launches, l.asid = asid → s.reportOf (.launch l.id) = none → ∃ l' ∈ t.front.launches, l'.id = l.id ∧ l'.killed = true ∧ l'.next = l'.total ∧
          l'.restarts = [] ∧ l'.report.isSome = true) ∧
    (∀ pa y, ∃ t, exec (.uncorrectableError .firmware pa y) s = .next t ∧ t.mem = s.mem ∧ t.teams = s.teams ∧ t.front = s.front ∧
      t.mgmt.log.getLast?.map (fun e => (e.kind, e.sev, e.data)) = some (2, 3, [pa, y.toNat])) ∧
    (∀ pa y, ∃ t, exec (.uncorrectableError .corrected pa y) s = .next t ∧ t.mem = s.mem ∧ t.teams = s.teams ∧ t.front = s.front ∧
      t.mgmt.log.getLast?.map (fun e => (e.kind, e.sev, e.data)) = some (2, 0, [pa, y.toNat])) ∧
    (∀ pa c, exec (.patrolScrub pa c) s = .next (if c = false ∧ physKind pa = .hbm
      then { s with mem := { s.mem with poison := (s.mem.poison.filter fun l => l != pa / 128) ++ [pa / 128] } } else s)) ∧
    (∀ (k : Nat) (x : Byte),
      let old := s.mem.owners.get 0 k
      let taken : Prop := old.getLsbD 7 = true ∧ x.getLsbD 7 = true ∧ old.toNat % 32 ≠ x.toNat % 32
      (k = 0 ∨ 4096 ≤ k ∨ x.getLsbD 6 = true ∨ x.getLsbD 5 = true ∨ taken → exec (.keyOwnerWrite k x) s = .next s) ∧
      (0 < k → k < 4096 → x.getLsbD 6 = false → x.getLsbD 5 = false → ¬ taken → (s.mem.keys.map (·.1)).Nodup →
        ∃ t, exec (.keyOwnerWrite k x) s = .next t ∧ t = { s with mem := { s.mem with owners := t.mem.owners, keys := t.mem.keys }, teams := t.teams } ∧
          (x.getLsbD 7 = true → t.teams = s.teams) ∧ (∀ e ∈ s.teams, s.burrowKey e.2 ≠ k → e ∈ t.teams) ∧
          t.teams.map (fun e => (e.1, e.2.grps)) = s.teams.map (fun e => (e.1, e.2.grps)) ∧
          t.mem.owners.get 0 k = x ∧ (∀ j, j ≠ k → t.mem.owners.get 0 j = s.mem.owners.get 0 j) ∧
          ∀ j, t.mem.keys.find j = if j = k ∧ x.getLsbD 7 = false then none else s.mem.keys.find j))

/-- Accesses from outside, invalidation, soft errors and key owners. -/
def Obligations.MemoryFromOutsideAndErrors : Prop := Claim.HostAndFirmwareReachMemory ∧ Claim.ErrorsPoisonAndKeysHaveOwners

/-- R422, R429, R433, R437: a function-level reset ends every team and launch of its partition and disables its feed queues; it completes,
with the partition's registers as at reset, when nothing of the partition is left. A package reset leaves memory's bytes, their tags, poison and key
generations, and Genmon's flash, log and counts, reverts a trial that was tried and not confirmed, and leaves every other part of the state as State.reset
has it: no key is loaded and no argument page mapped.
Model's choices: what State.reset has where the spec states no value (log 8), the registers a function-level reset leaves alone (log 34), memory's bytes and tags
being kept (log 35), the guest key list being empty and the reverting of a trial (log 45), and whether it is a power-on, from which Genmon counts (log 3, key 30). -/
def Obligations.ResetsEndWhatTheyCover : Prop :=
  ∀ s : State,
    (∀ p : Fin 32, s.parts.length = 32 →
      ((s.part p).flr = true → exec (.functionLevelReset p) s = .next s) ∧
      ((s.part p).flr = false → ∃ t, exec (.functionLevelReset p) s = .next t ∧ (t.part p).flr = true ∧ (t.part p).held = [] ∧
        (∀ r a, s.team? r = some a → a.ref = r → a.part = p.val → ∃ b, t.team? r = some b ∧ b.ending = some .kill) ∧
        (∀ l ∈ s.front.launches, l.part = p.val → ∃ l' ∈ t.front.launches, l'.id = l.id ∧ l'.killed = true ∧ l'.next = l'.total) ∧
        (∀ q ∈ t.front.feedqs, q.part = p.val → q.enabled = false)) ∧
      ((s.part p).flr = false ∨ s.flrReady p = false → exec (.flrComplete p) s = .next s) ∧
      ((s.part p).flr = true → s.flrReady p = true → s.mem.poison = [] → ∃ t, exec (.flrComplete p) s = .next t ∧ t.mem = s.mem ∧ t.teams = s.teams ∧
        t.part p = { Part.reset p with pctl := (s.part p).pctl, slotsh := (s.part p).slotsh, hbmw := (s.part p).hbmw, fabsh := (s.part p).fabsh,
                                       defdef := (s.part p).defdef, winBase := (s.part p).winBase, tmodef := (s.part p).tmodef,
                                       frrings := (s.part p).frrings + 1 } ∧
        ∀ k < 32, k ≠ p.val → t.part k = s.part k)) ∧
    ∃ t, exec .powerOnReset s = .next t ∧
      t = { State.reset with
        sched := s.sched
        mem := { State.reset.mem with
          phys := ⟨s.mem.phys.cells, [], []⟩, tags := s.mem.tags, poison := s.mem.poison, nextGen := s.mem.nextGen, loaded := s.mem.loaded }
        mgmt := t.mgmt } ∧
      t.mem.keys = [] ∧ t.mem.owners = [] ∧ t.mem.ctxs = [] ∧ t.mem.argPages = [] ∧ t.mem.parked = [] ∧ t.mem.icache = [] ∧
      (∀ j : Nat, t.mgmt.targets[j]? = (s.mgmt.targets[j]?).map fun (x : Target) =>
        if x.trial = true ∧ x.tried = true then { x with preferB := x.prevB, trial := false, tried := false } else x) ∧
      t.mgmt = { State.reset.mgmt with
        now := if s.choose [30] % 2 = 1 then 0 else s.mgmt.now
        log := s.mgmt.log, targets := t.mgmt.targets, flash := s.mgmt.flash, quotes := s.mgmt.quotes, boots := s.mgmt.boots + 1 } ∧
      t.mgmt.stage = 1 ∧ t.mgmt.off = false ∧ t.mgmt.phy = false ∧ t.mgmt.guestKeys = [] ∧ ∀ n < 8, t.mgmt.released n = false

/-! ## Genmon -/

/-- The part has lost its rails but STBY: nothing runs and no team is left (R430, R434). -/
def Claim.down (t : State) : Prop :=
  t.mgmt.off = true ∧ t.teams = [] ∧ t.front.launches = [] ∧ t.eng = State.reset.eng ∧
    ∀ n, 0 < n → n < 11 → (t.rail n).enable = false ∧ (t.rail n).good = false

/-- Targets in mV of the rails, R434; of the guest's rail, as its capability block has it (R436). -/
def Claim.nominal (cap : Option Nat) (n mv : Nat) : Prop :=
  (n = 1 ∧ mv = 750) ∨ (n = 2 ∧ mv = 850) ∨ (3 ≤ n ∧ n ≤ 6 ∧ 650 ≤ mv ∧ mv ≤ 900) ∨ (n = 7 ∧ mv = 1050) ∨ (n = 8 ∧ mv = 400) ∨
    (n = 9 ∧ mv = 1200) ∨ (n = 10 ∧ cap = some mv)

/-- R433 to R436, R441: bring-up. Configuration requests complete only at READY; a rail is enabled in its turn, and BASE's power good starts
TIME; a rail that fails or is late takes the part down; training of HBM and of the socket, and the lock of the optical ports, start in
their stage and end with their result; the last stack to pass leaves all of HBM zero and ends stage 4.
Model's choices: the state kept across a loss of the rails (log 35), and that the start of a module's training resets the guest of a fenced port (log 17). -/
def Claim.BringUpGoesStageByStage : Prop :=
  ∀ s : State, s.mgmt.rails.length = 11 → s.mgmt.hbm.length = 8 → s.mgmt.ucie.length = 4 → s.mgmt.optics.length = 8 →
    (∃ t, exec .configurationRequest s = .next t ∧
      t = { s with mgmt := { s.mgmt with configAnswers := s.mgmt.configAnswers ++ [s.mgmt.stage == 9 && !s.mgmt.off] } }) ∧
    (∀ (n : Fin 11) (x : W64),
      let turn : Prop := (s.mgmt.stage = 3 ∧ n.val ≤ 9) ∨ (s.mgmt.stage = 7 ∧ n.val = 10 ∧ Config.guestFitted = true)
      let ok : Prop := x.toNat < 2 ^ 32 ∧ Claim.nominal s.mgmt.guestCap n.val (x.toNat % 2 ^ 16) ∧ s.mgmt.off = false ∧ s.mgmt.error = 0 ∧ turn ∧ (s.rail n).enable = false ∧
        (s.mgmt.rails.take n.val).all (·.good) = true
      (¬ ok → exec (.railEnable n x) s = .next s) ∧
      (ok → ∃ t, exec (.railEnable n x) s = .next t ∧ t.mem = s.mem ∧ t.teams = s.teams ∧ t.clock = s.clock ∧
        t.rail n = { s.rail n with set := x, enable := true, since := s.mgmt.now } ∧ ∀ k, k ≠ n.val → t.rail k = s.rail k)) ∧
    (∀ n : Fin 11,
      ((s.rail n).enable = false ∨ (s.rail n).good = true ∨ (s.rail n).fault = true ∨ s.mgmt.off = true ∨
        (s.rail n).since + 2000000 < s.mgmt.now → exec (.railPowerGood n) s = .next s) ∧
      ((s.rail n).enable = true → (s.rail n).good = false → (s.rail n).fault = false → s.mgmt.off = false →
        s.mgmt.now ≤ (s.rail n).since + 2000000 → ∃ t, exec (.railPowerGood n) s = .next t ∧ t.teams = s.teams ∧ (t.rail n).good = true ∧ (t.rail n).enable = true ∧
          t.clock.runs = (s.clock.runs || decide (n.val = 1)) ∧ t.clock.time = s.clock.time) ∧
      ((s.rail n).enable = true → (s.rail n).good = false → (s.rail n).since + 2000000 ≤ s.mgmt.now →
        ∃ t, exec (.railPowerGoodTimeout n) s = .next t ∧ Claim.down t) ∧
      (s.mgmt.now < (s.rail n).since + 2000000 → exec (.railPowerGoodTimeout n) s = .next s) ∧
      ((s.rail n).enable = true → ∃ t, exec (.railFault n) s = .next t ∧ Claim.down t ∧ (t.rail n).fault = true) ∧
      (∃ t, exec (.railFaultClear n) s = .next t ∧ t.mem = s.mem ∧ t.teams = s.teams ∧ t.rail n = { s.rail n with fault := false } ∧
        ∀ k, k ≠ n.val → t.rail k = s.rail k)) ∧
    (∀ x : Fin 8,
      let h (s : State) : Stack := nth ⟨false, 0, 0, 0⟩ s.mgmt.hbm x.val
      (s.mgmt.stage ≠ 4 ∨ s.mgmt.error ≠ 0 → exec (.hbmTrainStart x) s = .next s) ∧
      (s.mgmt.stage = 4 → s.mgmt.error = 0 → (h s).start = false →
        ∃ t, exec (.hbmTrainStart x) s = .next t ∧ t.mem = s.mem ∧ h t = ⟨true, 1, 0, 0⟩) ∧
      (∀ lanes, (h s).start = true → (h s).result = 0 → s.mgmt.error = 0 →
        ((h s).step ≠ 8 → exec (.hbmTrainComplete x true lanes) s = .next s) ∧
        ((h s).step = 8 → ∃ t, exec (.hbmTrainComplete x true lanes) s = .next t ∧ t.teams = s.teams ∧ h t = ⟨true, 8, 1, lanes.toNat⟩ ∧
          let last : Prop := s.mgmt.stage = 4 ∧ s.mgmt.off = false ∧ ∀ k < 8, k ≠ x.val → (nth ⟨false, 0, 0, 0⟩ s.mgmt.hbm k).result = 1
          (last → t.mgmt.stage = 5 ∧ t.mem.tags = [] ∧ t.mem.poison = [] ∧
            ∀ a, t.mem.phys.byte a = if physKind a = .hbm then 0 else s.mem.phys.byte a) ∧
          (¬ last → t.mem = s.mem ∧ t.mgmt.stage = s.mgmt.stage)) ∧
        ∃ t, exec (.hbmTrainComplete x false lanes) s = .next t ∧ t.mem = s.mem ∧ t.mgmt.error = 4 ∧ h t = ⟨true, (h s).step, 2, lanes.toNat⟩)) ∧
    (∀ x : Fin 4,
      let u (s : State) : Ucie := nth ⟨false, 0, 0, 0⟩ s.mgmt.ucie x.val
      (s.mgmt.stage < 7 → exec (.ucieTrainStart x) s = .next s) ∧
      (7 ≤ s.mgmt.stage → Config.guestFitted = true → ∃ t, exec (.ucieTrainStart x) s = .next t ∧ t.mem = s.mem ∧
        (u t).start = true ∧ (u t).result = 0 ∧ (u t).width = 0 ∧ t.guest = { s.guest with ready := s.guest.ready || s.guest.fenced }) ∧
      (∀ (width rate : Nat) (package protocol : Bool), (u s).start = true → (u s).result = 0 →
        let good : Prop := (width = 64 ∨ width = 32) ∧ rate = 32 ∧ package = true ∧ protocol = true
        ∃ t, exec (.ucieTrainComplete x width ⟨rate, package, protocol⟩) s = .next t ∧ (u t).width = (if width = 64 ∨ width = 32 then width else 0) ∧
          (good → (u t).result = 1 ∧ t.guest = s.guest) ∧ (¬ good → (u t).result = 2 ∧ t.guest.fenced = true))) ∧
    (∀ p : Fin 8,
      (let ok : Prop := 8 ≤ s.mgmt.stage ∧ (s.rail 9).good = true ∧ (s.optic p).laser = false
       (ok → ∃ t, exec (.opticalLaserEnable p) s = .next t ∧ t.mem = s.mem ∧ t.optic p = { s.optic p with laser := true, laserAt := s.mgmt.now }) ∧
       (¬ ok → exec (.opticalLaserEnable p) s = .next s)) ∧
      (let ok : Prop := (s.optic p).laser = true ∧ (s.optic p).laserAt + 1000000 ≤ s.mgmt.now
       (ok → ∃ t, exec (.opticalLockStart p) s = .next t ∧ t.mem = s.mem ∧
         t.optic p = { s.optic p with lock := true, out := false, lockAt := s.mgmt.now }) ∧
       (¬ ok → exec (.opticalLockStart p) s = .next s)) ∧
      (let ok : Prop := (s.optic p).lock = true ∧ (s.optic p).out = false ∧ s.mgmt.now ≤ (s.optic p).lockAt + 5000000
       (ok → ∃ t, exec (.opticalLockComplete p) s = .next t ∧ t.teams = s.teams ∧ t.optic p = { s.optic p with locked := 0xFFFFFFFF, all := true }) ∧
       (¬ ok → exec (.opticalLockComplete p) s = .next s)) ∧
      (∀ w : W32,
        let ok : Prop := (s.optic p).lock = true ∧ (s.optic p).all = false ∧ w ≠ 0xFFFFFFFF ∧ (s.optic p).lockAt + 5000000 ≤ s.mgmt.now
        (ok → ∃ t, exec (.opticalLockTimeout p w) s = .next t ∧ t.teams = s.teams ∧ t.optic p = { s.optic p with locked := w, out := true }) ∧
        (¬ ok → exec (.opticalLockTimeout p w) s = .next s)))

/-- R11, R14, R180, R430, R432: the limits. A die's clock takes a value from 1600 to 2100 MHz, its limits one to 2100; PCAP takes a cap up to
its ceiling that leaves the guest its share; a zone at its trip reading takes the part down; one at its throttle reading below that lowers
its die's clock, every die's, or HBM's bandwidth, or interrupts fw4; a cold part has no thermal limit.
How far a clock is lowered is a free value (log 14); that a limit is judged at the sample alone is the model's reading. -/
def Claim.ClocksAndLimits : Prop :=
  ∀ s : State, s.clock.dies.length = 4 →
    (∀ (d : Fin 4) (m : Nat) (i : Instr) (lo : Nat) (f : DieClock → DieClock) (g : Mgmt),
      (i = .coreClockSelect d m ∧ lo = 1600 ∧ (f = fun c => { c with mhz := m }) ∧ g = s.mgmt) ∨ (i = .currentLimit d m ∧ lo = 0 ∧ (f = fun c => { c with current := m }) ∧ g = s.mgmt) ∨
        (i = .powerCapLimit d m ∧ lo = 0 ∧ (f = fun c => { c with power := m }) ∧ g = { s.mgmt with capHeld := s.mgmt.pcap, pcapDue := none }) →
      (m < lo ∨ 2100 < m → exec i s = .next s) ∧
      (lo ≤ m → m ≤ 2100 → ∃ t, exec i s = .next t ∧ t = { s with clock := { s.clock with dies := t.clock.dies }, mgmt := g } ∧
        t.die d = f (s.die d) ∧ ∀ k < 4, k ≠ d.val → t.die k = s.die k)) ∧
    (∀ x : W64,
      let cap := x.toNat % 2 ^ 16
      let share := x.toNat / 2 ^ 16
      (Config.pceil < cap ∨ 250 < share ∨ cap < share → exec (.pcapWrite x) s = .next s) ∧
      (cap ≤ Config.pceil → share ≤ 250 → share ≤ cap → exec (.pcapWrite x) s =
        .next { s with mgmt := { s.mgmt with pcap := cap, gpwr := share, pcapDue := some (s.mgmt.now + 1000000) } })) ∧
    (∀ c on, (48 ≤ c → exec (.clusterFusionModeSet c on) s = .next s) ∧
      (c < 48 → ∃ t, exec (.clusterFusionModeSet c on) s = .next t ∧ t = { s with clock := { s.clock with fused := t.clock.fused } } ∧
        (c ∈ t.clock.fused ↔ on = true) ∧ ∀ k, k ≠ c → (k ∈ t.clock.fused ↔ k ∈ s.clock.fused))) ∧
    (∀ z n trip k x, (z, n, trip) ∈ [(0, 16, (960 : Int)), (16, 16, 960), (32, 16, 960), (48, 16, 960), (64, 16, 920), (80, 8, 840), (88, 8, 680)] →
      z ≤ k → k < z + n → trip ≤ x → s.mgmt.rails.length = 11 → ∃ t, exec (.thermalSample [(k, x)]) s = .next t ∧ Claim.down t) ∧
    (∀ k x, s.mgmt.temps = [] →
      let lowered (t : State) (d : Nat) : Prop := ∃ m, m < max 1 (s.die d).runs ∧ t.die d = { s.die d with thermal := m }
      let free (t : State) (d : Nat) : Prop := t.die d = { s.die d with thermal := 2100 }
      let sampled (P : State → Prop) : Prop := ∃ t, exec (.thermalSample [(k, x)]) s = .next t ∧ t.mem = s.mem ∧ t.teams = s.teams ∧
        t.mgmt.off = s.mgmt.off ∧ P t
      (k < 64 → 840 ≤ x → x < 960 → sampled fun t => t.mgmt.hbmHalved = false ∧ lowered t (k / 16) ∧ ∀ d < 4, d ≠ k / 16 → free t d) ∧
      (64 ≤ k → k < 80 → 800 ≤ x → x < 920 → sampled fun t => t.mgmt.hbmHalved = false ∧ ∀ d < 4, lowered t d) ∧
      (80 ≤ k → k < 88 → 760 ≤ x → x < 840 → sampled fun t => t.mgmt.hbmHalved = true ∧ ∀ d < 4, free t d) ∧
      (88 ≤ k → k < 96 → 600 ≤ x → x < 680 → sampled fun t => t.mgmt.fwIrqs = s.mgmt.fwIrqs ++ [4] ∧ ∀ d < 4, free t d)) ∧
    (s.mgmt.temps = [] → ∃ t, exec (.thermalSample []) s = .next t ∧ t.mem = s.mem ∧ t.teams = s.teams ∧ t.mgmt.hbmHalved = false ∧
      ∀ d < 4, t.die d = { s.die d with thermal := 2100 })

/-- Stages of bring-up, clocks and limits. -/
def Obligations.BringUpAndLimits : Prop := Claim.BringUpGoesStageByStage ∧ Claim.ClocksAndLimits

/-- Genmon takes a command of code `c`: it is up and not busy; in recovery only IMGWR runs. -/
def Claim.takes (s : State) (c : Nat) : Prop := s.mgmt.off = false ∧ s.mgmt.busy = false ∧ (s.recovery = false ∨ c = 6)

/-- A command ended with a result code: GMSTS holds it, CFGCNT went up by one, and nothing but Genmon's own state, the keys and `teams` changed. -/
def Claim.finished (s t : State) (code : Nat) : Prop :=
  t.mgmt.status = code ∧ t.mgmt.busy = false ∧ t.mgmt.cfgcnt = s.mgmt.cfgcnt + 1 ∧ t.front = s.front ∧ t.fab = s.fab ∧
    t.parts = s.parts ∧ t.mem.phys = s.mem.phys

/-- A command ended with a result code, and no team changed. -/
def Claim.ended (s t : State) (code : Nat) : Prop := Claim.finished s t code ∧ t.teams = s.teams

/-- A command changed the key that id k holds: the registers of no team but those whose burrow is under k changed (R106). -/
def Claim.rekeyed (s t : State) (k : Nat) : Prop :=
  Claim.finished s t 0 ∧ (∀ e ∈ s.teams, s.burrowKey e.2 ≠ k → e ∈ t.teams) ∧ (t.mem.keys.find k = s.mem.keys.find k → t.teams = s.teams)

/-- R442 to R444, R438: Genmon's commands. Each ends with its result code: QUOTE while an index is left, else 5; LOGRD and SENSRD with 0;
KEYLOAD and KEYERASE load and erase a key, and a key loaded again reads what was written under it; EXTEND extends MEAS8 to MEAS15 only; IMGCOMMIT starts a trial of a verified bank; CONFIRM ends the
trials in its time; IMGWR changes only a bank that its target does not run. A command while another runs is ignored. A key that changes leaves the registers of a team whose burrow is under it
unpredictable, and no other team's (log 26).
The model's reading (log 45): the result codes of a wrong key, of a value out of range, in recovery, of CONFIRM outside its time, which ends with DENIED, and of an
IMGWR for which the flash has no room. The unwrapping of a key is a free constant, and that EXTEND's and IMGCOMMIT's SHA-256 and LMS are those of RFC 8554 is
PRESUMED (log 12). -/
def Obligations.GenmonCommandsEndWithTheirResult : Prop :=
  ∀ s : State,
    (∀ i c, (i = .sensrd ∧ c = 3) ∨ (i = .confirm ∧ c = 8) ∨ (∃ n, i = .quote n ∧ c = 1) ∨ (∃ n, i = .logrd n ∧ c = 2) ∨ (∃ k, i = .keyerase k ∧ c = 5) →
      (s.mgmt.off = true → exec i s = .next s) ∧
      (s.mgmt.off = false → s.mgmt.busy = true → s.mgmt.cmd ≠ c → exec i s = .next { s with mgmt := { s.mgmt with ignored := true } })) ∧
    (∀ n, Claim.takes s 1 → ∃ t, exec (.quote n) s = .next t ∧ Claim.ended s t (if s.mgmt.quotes < 2 ^ 20 then 0 else 5) ∧
      t.mgmt.quotes = (if s.mgmt.quotes < 2 ^ 20 then s.mgmt.quotes + 1 else s.mgmt.quotes)) ∧
    (∀ n, Claim.takes s 2 → ∃ t, exec (.logrd n) s = .next t ∧ Claim.ended s t 0 ∧ t.mgmt.log = s.mgmt.log) ∧
    (Claim.takes s 3 → ∃ t, exec .sensrd s = .next t ∧ Claim.ended s t 0 ∧ t.mgmt.temps = s.mgmt.temps) ∧
    (∀ k pub w, Claim.takes s 4 → k < 2 ^ 16 →
      (4096 ≤ k → ∃ t, exec (.keyload k pub w) s = .next t ∧ Claim.ended s t 2 ∧ t.mem = s.mem) ∧
      (k < 4096 → k = 0 ∨ (s.mem.owners.get 0 k).getLsbD 7 = false → ∃ t, exec (.keyload k pub w) s = .next t ∧ Claim.ended s t 6 ∧ t.mem = s.mem) ∧
      (0 < k → k < 4096 → (s.mem.owners.get 0 k).getLsbD 7 = true → pub.length = 97 → w.length = 72 →
        (Config.unwrap pub w s.mgmt.boots = none → ∃ t, exec (.keyload k pub w) s = .next t ∧ Claim.ended s t 2 ∧ t.mem = s.mem) ∧
        (∀ key, Config.unwrap pub w s.mgmt.boots = some key → key.length = 64 →
          ∃ t gen, exec (.keyload k pub w) s = .next t ∧ Claim.rekeyed s t k ∧ t.mem.keys.find k = some gen ∧
            (∀ j, j ≠ k → t.mem.keys.find j = s.mem.keys.find j) ∧
            (∀ x, s.mem.loaded.find? (fun y => y.1 == key) = some x → gen = x.2 ∧ t.mem.loaded = s.mem.loaded) ∧
            (s.mem.loaded.find? (fun y => y.1 == key) = none → gen = s.mem.nextGen ∧ t.mem.nextGen = s.mem.nextGen + 1 ∧
              t.mem.loaded = s.mem.loaded ++ [(key, gen)])))) ∧
    (∀ k, Claim.takes s 5 → k < 4096 → (s.mem.keys.map (·.1)).Nodup →
      ∃ t, exec (.keyerase k) s = .next t ∧ Claim.rekeyed s t k ∧ t.mem.keys.find k = none ∧ ∀ j, j ≠ k → t.mem.keys.find j = s.mem.keys.find j) ∧
    (∀ x b off d, Claim.takes s 6 → s.recovery = false → x < 9 → s.mgmt.targets.length = 9 → off + d.length ≤ 2 ^ 22 → d.length ≤ 4086 →
      let runs : Prop := s.mgmt.released x = true ∧ (s.target x).usedB = b
      (runs → ∃ t, exec (.imgwr x b off d) s = .next t ∧ Claim.ended s t 6 ∧ t.mgmt.targets = s.mgmt.targets) ∧
      (¬ runs → s.mgmt.flashUsed + d.length ≤ 2 ^ 26 → ∃ t, exec (.imgwr x b off d) s = .next t ∧ Claim.ended s t 0 ∧
        (∀ j < d.length, t.flashByte x b (off + j) = d.getD j 0) ∧ (∀ a, a < off ∨ off + d.length ≤ a → t.flashByte x b a = s.flashByte x b a) ∧
        ∀ a, t.flashByte x (!b) a = s.flashByte x (!b) a)) ∧
    (∀ x b, Claim.takes s 7 → x < 9 → s.mgmt.targets.length = 9 →
      ((s.target x).trial = true → ∃ t, exec (.imgcommit x b) s = .next t ∧ Claim.ended s t 6) ∧
      ((s.target x).trial = false → ∃ t, exec (.imgcommit x b) s = .next t ∧
        Claim.ended s t (match s.verify x b with | .good => 0 | .badSig => 3 | .rollback => 4) ∧
        (s.verify x b = .good → t.target x = { s.target x with prevB := (s.target x).preferB, preferB := b, trial := true, tried := false }))) ∧
    (Claim.takes s 8 → ∃ t, exec .confirm s = .next t ∧ Claim.ended s t (if s.trialOpen = true then 0 else 6) ∧
      (s.trialOpen = true → s.mgmt.targets.length = 9 → ∀ x < 9, (t.target x).trial = false ∧
        let svn := s.flashField x (s.target x).preferB 8 4
        (t.target x).floor = if (s.target x).trial = true ∧ s.floorOf x < svn ∧ (s.target x).raises < 64 then svn else (s.target x).floor)) ∧
    (∀ n d, Claim.takes s 9 → n < 16 → s.mgmt.meas.length = 16 →
      (n < 8 → ∃ t, exec (.extend n d) s = .next t ∧ Claim.ended s t 2 ∧ t.mgmt.meas = s.mgmt.meas) ∧
      (8 ≤ n → ∃ t, exec (.extend n d) s = .next t ∧ Claim.ended s t 0 ∧
        nth 0 t.mgmt.meas n = sha256 (digestBytes (nth 0 s.mgmt.meas n) ++ digestBytes d) ∧
        ∀ k < 16, k ≠ n → nth 0 t.mgmt.meas k = nth 0 s.mgmt.meas k)) ∧
    (let due := s.mgmt.trialBoot && s.mgmt.stage == 9 && decide (s.mgmt.readyAt + 60000000000 ≤ s.mgmt.now)
     exec .trialConfirmTimeout s = .next (if due = true then { s with mgmt := { s.mgmt with targets := s.mgmt.targets.map Target.revert } } else s))

/-- R2, R341, R404, R432, R434, R305, R307, R173: the other registers. One that is read-only, or a value with a Reserved bit, changes nothing; any
other register takes its value, and nothing else changes. A feed queue's QBASE and CFG may be written in either order.
Model's choices: an NEPOCH that is misaligned or before EPOCH is refused (log 45); a feed queue is in the first context of its partition, from when there is one (log 15);
a 0 in the enable bit of RCTL disables an enabled rail, and those after it (log 56). -/
def Claim.OtherRegistersTakeTheirValues : Prop :=
  ∀ (s : State) (x : W64),
    exec (.registerWrite .readOnly x) s = .next s ∧
    (∀ r f, (r = .nmask ∧ f = { s.fab with nmask := x }) ∨ (r = .foxt ∧ f = { s.fab with foxt := x.toNat }) ∨
        (r = .fabSelf ∧ f = if x.toNat < 64 ∧ s.fab.state = .alone then { s.fab with self := x.toNat } else s.fab) ∨
        (r = .nepoch ∧ f = if s.fab.epoch ≤ x.toNat ∧ (x.toNat - s.fab.epoch) % 520 = 0 then { s.fab with nepoch := x.toNat } else s.fab) →
      exec (.registerWrite r x) s = .next { s with fab := f }) ∧
    (∀ q, q < 64 → s.guest.queues.length = 64 → x.toNat % 4096 = 0 → physKind x.toNat = .hbm →
      (∃ t, exec (.registerWrite (.qsq q) x) s = .next t ∧ t = { s with guest := { s.guest with queues := t.guest.queues } } ∧
        t.gq q = { s.gq q with sq := x.toNat }) ∧
      ∃ t, exec (.registerWrite (.qcq q) x) s = .next t ∧ t = { s with guest := { s.guest with queues := t.guest.queues } } ∧
        t.gq q = { s.gq q with cq := x.toNat }) ∧
    (∀ q, x.toNat % 4096 ≠ 0 → exec (.registerWrite (.qsq q) x) s = .next s ∧ exec (.registerWrite (.qcq q) x) s = .next s ∧
      exec (.registerWrite (.fqBase q) x) s = .next s) ∧
    (∀ (q : Nat) (r : PartReg) (f : FeedQ → FeedQ), q < 256 →
      (r = .fqBase q ∧ x.toNat % 4096 = 0 ∧ f = fun y => { y with base := x.toNat }) ∨
      (r = .fqCfg q ∧ x.toNat / 2 ^ 13 % 2 ^ 50 = 0 ∧ x.toNat / 2 ^ 5 % 2 ^ 3 = 0 ∧ 4 ≤ x.toNat % 32 ∧ x.toNat % 32 ≤ 16 ∧
        f = fun y => let p := x.toNat / 2 ^ 8 % 32; { y with part := p, l := x.toNat % 32, enabled := x.getLsbD 63, asid := s.partAsid p }) →
      ∃ t y, exec (.registerWrite r x) s = .next t ∧ t = { s with front := { s.front with feedqs := t.front.feedqs } } ∧
        t.feedq? q = some (f y) ∧ (∀ old, s.feedq? q = some old → y = old) ∧
        (s.feedq? q = none → y.num = q ∧ y.enabled = false ∧ y.base = 0 ∧ y.head = 0 ∧ y.claim = 0 ∧ y.tail = 0 ∧ y.rsv = 0 ∧ y.sleepers = []) ∧
        ∀ k, k ≠ q → t.feedq? k = s.feedq? k) ∧
    (∀ q, x.toNat / 2 ^ 13 % 2 ^ 50 ≠ 0 ∨ x.toNat / 2 ^ 5 % 2 ^ 3 ≠ 0 ∨ x.toNat % 32 < 4 ∨ 16 < x.toNat % 32 → exec (.registerWrite (.fqCfg q) x) s = .next s) ∧
    (1 < x.toNat ∨ x = 0 → exec (.registerWrite .gctl x) s = .next s) ∧
    (x = 1 → exec (.registerWrite .gctl x) s = .next { s with guest := { s.guest with doorbells := s.guest.doorbells + 1 } }) ∧
    (∀ k : Fin 11, s.mgmt.rails.length = 11 →
      (8 ≤ x.toNat → exec (.registerWrite (.rctl k) x) s = .next s) ∧
      (x.toNat < 8 → x.getLsbD 0 = (s.rail k).enable → ∃ t, exec (.registerWrite (.rctl k) x) s = .next t ∧
        t = { s with mgmt := { s.mgmt with rails := t.mgmt.rails } } ∧ (∀ n, n ≠ k.val → t.rail n = s.rail n) ∧
        t.rail k = { s.rail k with fault := (s.rail k).fault && !x.getLsbD 2 }) ∧
      (x.toNat = 1 → (s.rail k).enable = false → exec (.registerWrite (.rctl k) x) s = exec (.railEnable k (s.rail k).set) s) ∧
      (x.toNat = 0 → (s.rail k).enable = true → k.val ≠ 0 → ∃ t, exec (.registerWrite (.rctl k) x) s = .next t ∧
        (t.rail k).enable = false ∧ (k.val = 10 → t.mem = s.mem ∧ t.teams = s.teams ∧ ∀ n, n ≠ 10 → t.rail n = s.rail n) ∧
        (k.val ≠ 10 → t.mgmt.off = true ∧ ∀ n < 11, n ≠ 0 → (t.rail n).enable = false))) ∧
    (2 ^ 8 ≤ x.toNat → exec (.registerWrite .gmcmd x) s = .next s) ∧
    (x.toNat = 0 ∨ (9 < x.toNat ∧ x.toNat < 256) → s.mgmt.off = false → s.mgmt.busy = false →
      ∃ t, exec (.registerWrite .gmcmd x) s = .next t ∧ t.mem = s.mem ∧ t.mgmt.status = 2 ∧ t.mgmt.busy = false ∧ t.mgmt.cfgcnt = s.mgmt.cfgcnt + 1) ∧
    (∀ off, off % 8 = 0 → off < 4096 → ∃ t, exec (.registerWrite (.gmbuf off) x) s = .next t ∧ t = { s with mgmt := { s.mgmt with buf := t.mgmt.buf } } ∧
      t.bufNat off 8 = x.toNat ∧ ∀ a, a < off ∨ off + 8 ≤ a → t.mgmt.buf.get 0 a = s.mgmt.buf.get 0 a) ∧
    (∀ d, d < 2048 → x.toNat < 32 → (∀ y, s.den? d = some y → y.opened = false) →
      ∃ t, exec (.registerWrite (.denOwner d) x) s = .next t ∧ t.den? d = some (Den.blank d x.toNat) ∧ t.mem = s.mem ∧ ∀ k, k ≠ d → t.den? k = s.den? k) ∧
    (∀ asid root part key replay, asid < 4096 → part < 32 → key < 4096 → root % 2 ^ 18 = 0 → physKind root = .hbm → x.toNat < 2 →
      ∃ t, exec (.registerWrite (.context asid root part key replay) x) s = .next t ∧ t = { s with mem := { s.mem with ctxs := t.mem.ctxs }, front := { s.front with feedqs := t.front.feedqs } } ∧
        t.front.feedqs.map (fun q => { q with asid := 0 }) = s.front.feedqs.map (fun q => { q with asid := 0 }) ∧
        (∀ q ∈ s.front.feedqs, let stays := (t.ctx? q.asid).any (·.part == q.part)
          (if stays then q else { q with asid := t.partAsid q.part }) ∈ t.front.feedqs) ∧
        t.ctx? asid = (if x = 1 then some ⟨asid, root, part, key, replay⟩ else none) ∧ ∀ k, k ≠ asid → t.ctx? k = s.ctx? k)

/-- Registers of a partition, and the others. -/
def Obligations.RegistersTakeTheirLegalValues : Prop := Claim.PartitionRegistersTakeTheirLegalValues ∧ Claim.OtherRegistersTakeTheirValues

/-! ## The whole machine -/

/-- Fields of an instruction word, as its checks and its meaning read them: a CLEND's are those of its entries. -/
def Claim.fieldsOf : Instr → Option Opnds
  | .clend _ => some {}
  | i => (instrRaw i).map Raw.opnds

/-- R28, R30, R34, R52, R54, R95, R111, R263: the checks of orders 5 and 6 come before any effect. A register that the record's
blocks do not hold, a tile or a barrier that the team does not have, and a register in flight that the clause did not itself put in flight
each raise their fault, in this order;
then a flag at 255 holds the instruction at its position. A word acts only for a group that issues. -/
def Claim.FieldChecks : Prop :=
  ∀ (s : State) (i : Instr) (o : Opnds), Claim.fieldsOf i = some o →
    (s.view? = none → exec i s = .fault .noIssuer) ∧
    ∀ v, s.view? = some v →
      let held : Prop := ∀ n, Spec.v n ∈ named i o → n.val ≤ 32 * v.grp.h + 31
      let tiles : Prop := ∀ n ∈ tilesOf i, n < v.team.hdr.accs
      let bars : Prop := ∀ b, barOf i = some b → b < v.team.hdr.bars
      let flown : Prop := ∃ r f, (r, f) ∈ v.grp.flight ∧ r ∈ named i o ∧ ((∃ es, i = .clend es) → (∀ x ∈ v.cl.writers, x.1 ≠ r) ∧ (r, f.val) ∉ v.cl.flown)
      (¬ held → exec i s = .next (s.raise v o { code := .regBound })) ∧
      (∀ n, held → (tilesOf i).find? (fun n => decide (v.team.hdr.accs ≤ n)) = some n →
        exec i s = .next (s.raise v o { code := .accBound, val := some n })) ∧
      (held → tiles → ¬ bars → exec i s = .next (s.raise v o { code := .barBound })) ∧
      (held → tiles → bars → flown → exec i s = .next (s.raise v o { code := .flagMiss })) ∧
      (∀ f, held → tiles → bars → ¬ flown → o.fl = some f → v.grp.flag f = 255 → v.any o = true → exec i s = .next s)

/-! ## Faults of memory -/

/-- The access that an atomic, or the arming of WAITA, fails first, R213. -/
def Claim.atomicFault (s : State) (asid : Nat) (need : Right) (n a : Nat) : Option Code :=
  if canonical a = false then some .xlate
  else if a % n ≠ 0 then some .align
  else Claim.pieceFault s asid need [.hbm, .host] (a, n)

/-- What a check finds against one access: its fault, and whether the page alone is not present. A walk that meets a poisoned table is a
machine check (R417). -/
def Claim.found (s : State) (asid : Nat) (need : Right) (tid : Option Nat) (a : Nat) (c : Option Code) : Option (FaultInfo × Bool) :=
  match c, s.translate asid a need with
  | some c, w => some ({ code := c, val := some a, tid := tid }, decide (c = .xlate ∧ canonical a = true) && (match w with | .absent => true | _ => false))
  | none, .poisoned pa => some ({ code := .mchk, val := some pa, tid := tid, src := .machine }, false)
  | none, _ => none

/-- What the scratch accesses of a thread fail, R182: below 0 by its first byte, whose 64-bit two's complement %trapv takes (log 53),
else by a piece that ends beyond SCRATCH. -/
def Claim.scratchFaults (v : View) (size : Nat) (th : Thread) (off : Int) : List (FaultInfo × Bool) :=
  if off < 0 then [({ code := .scrBound, val := some (off % (2 : Int) ^ 64).toNat, tid := some th.tid }, false)]
  else ((piecesN size off.toNat size).filter fun p => v.team.hdr.scratch < p.1 + p.2).map fun p =>
    ({ code := .scrBound, val := some (p.1 % 2 ^ 64), tid := some th.tid }, false)

/-- An atomic's fields. -/
def Claim.atomicOf : Instr → Option Opnds
  | .aadd o _ | .amin o _ | .amax o _ | .aand o _ | .aor o _ | .axor o _ | .axch o _ | .acas o _ | .afadd o _ => some o
  | _ => none

/-- What the checks of a memory instruction find, by ascending %tid and then by ascending piece (R186, R213). -/
def Claim.memFaults (v : View) (i : Instr) : Option (Opnds × List (FaultInfo × Bool)) :=
  let virt (o : Opnds) (m : MemMods) (need : Right) : List (FaultInfo × Bool) :=
    (v.active o).flatMap fun th => (pieces (v.address o (some th)) (m.vec.count * Ty.bytes o.ty)).filterMap fun p =>
      Claim.found v.s v.team.asid need (some th.tid) p.1 (Claim.pieceFault v.s v.team.asid need anyFrame p)
  let scratch (o : Opnds) (m : MemMods) : List (FaultInfo × Bool) :=
    (v.active o).flatMap fun th => Claim.scratchFaults v (m.vec.count * Ty.bytes o.ty) th (v.offset o (some th))
  match i with
  | .ld o m => some (o, virt o m rightR)
  | .st o m => some (o, virt o m rightW)
  | .lds o m | .sts o m => some (o, scratch o m)
  | .ldc o m => some (o, (pieces (v.address o none) (m.vec.count * Ty.bytes o.ty)).filterMap fun p =>
      Claim.found v.s v.team.asid rightR none p.1 (Claim.pieceFault v.s v.team.asid rightR anyFrame p))
  | .waita w => some (w.ops, (Claim.found v.s v.team.asid rightR none (v.address w.ops none)
      (Claim.atomicFault v.s v.team.asid rightR (Ty.bytes w.ops.ty) (v.address w.ops none))).toList)
  | _ => (Claim.atomicOf i).map fun o => (o, (v.active o).filterMap fun th =>
      let a := v.address o (some th)
      Claim.found v.s v.team.asid { r := true, w := true } (some th.tid) a (Claim.atomicFault v.s v.team.asid { r := true, w := true } (Ty.bytes o.ty) a))

/-- R28, R183, R186, R188, R189, R213: where some check of LD, ST, LDS, STS, LDC, an atomic or WAITA fails, the first of the list is the
instruction's fault, and no access is performed; but where each is a page not present and the context has REPLAY, the group parks at the
instruction with an entry in its cluster's fault buffer, if one of its 64 is free. -/
def Claim.MemoryFaults : Prop :=
  ∀ (s : State) (v : View) (i : Instr) (o : Opnds) (f : FaultInfo) (absent : Bool) (xs : List (FaultInfo × Bool)),
    Claim.memFaults v i = some (o, (f, absent) :: xs) → Claim.Issues s v i o → v.any o = true →
    let parks : Prop := absent = true ∧ (∀ x ∈ xs, x.2 = true) ∧ ∃ c, s.ctx? v.team.asid = some c ∧ c.replay = true
    (¬ parks → exec i s = .next (s.raise v o f)) ∧
    (parks → v.team.msets = [] →
      let n := s.sched.nextCmd
      let cluster := v.iss.team.core / 8
      let entry : Parked := ⟨n, cluster, v.team.asid, f.val.getD 0, f.tid.or ((v.active o).head?.map (·.tid)), .instr v.iss⟩
      ∃ t b, exec i s = .next t ∧ t = { s with sched := { s.sched with nextCmd := n + 1 }, mem := t.mem, teams := t.teams } ∧
        t.mem = { s.mem with
          parked := if (s.mem.parked.filter (·.cluster == cluster)).length < 64 then s.mem.parked ++ [entry] else s.mem.parked } ∧
        (∀ k, k ≠ slotKey v.iss.team → t.teams.find k = s.teams.find k) ∧ t.team? v.iss.team = some b ∧
        b = { v.team with grps := b.grps } ∧ (∀ m, m ≠ v.iss.recno → b.grp? m = v.team.grp? m) ∧
        b.grp? v.iss.recno = some { v.grp with park := some n, clause := some { v.cl with idle := true } })

/-- A fault of an instruction that goes to HANDLER: a translation fault under XTRAP, where a handler stands and the group is not in trap
state already (R187, R409). -/
def Claim.toHandler (v : View) (c : Code) : Prop :=
  (c = .xlate ∨ c = .prot ∨ c = .collRange) ∧ v.team.hdr.flags.testBit 0 = true ∧ v.team.hdr.handler ≠ 0 ∧ v.grp.trap = none

/-- R187, R409 to R414: what a fault at an instruction leaves. Without a handler fw3 reports and kills, and the registers of the team are
as before. With one the group traps, and a record of ACTION 2 stands in the fault ring, if it has room, with no status record: that the
record is written, and no status record, is the model's reading (log 51). -/
def Claim.FaultsLeave : Prop :=
  ∀ (s : State) (v : View) (o : Opnds) (f : FaultInfo), s.view? = some v → v.any o = true → v.team.ref = v.iss.team →
    f.code ≠ .mchk → f.code ≠ .trap → f.code ≠ .bkpt → f.code ≠ .promiseMiss → f.src = .instr → f.trapCode = 0 →
    let t := s.raise v o f
    let p := v.team.part
    let q := s.part p
    let detail := f.code.num + 2 ^ 8 * (v.cl.pos % 32)
    ∃ tid, some tid = f.tid.or ((v.active o).head?.map (·.tid)) ∧
    (¬ Claim.toHandler v f.code → Claim.canReport s v.team →
      Claim.Reported s t v.team f.code.num 0 v.pc (f.val.getD v.pc) tid v.iss.recno detail ∧
      ∃ b, t.team? v.iss.team = some b ∧ b.threads = v.team.threads ∧ ∀ n g, v.team.grp? n = some g → ∃ g', b.grp? n = some g' ∧ g'.s = g.s) ∧
    (Claim.toHandler v f.code → p < 32 → s.parts.length = 32 → q.flr = false → (∀ x ∈ s.teams, Claim.unwatched x.2) →
      Safety.ordered v.team = true → v.team.msets = [] → (∀ th ∈ v.present, th.meet = 0) →
      let bytes := Claim.faultBytes s v.team f.code.num 0 2 v.pc (f.val.getD v.pc) tid v.iss.recno detail
      let room : Prop := q.frbase ≠ 0 ∧ q.frtail - q.frhead < 2 ^ (q.frcfg % 16 + 4)
      ∃ s1 : State, s1 = { s with mem := s1.mem, parts := s1.parts } ∧ (∀ k < 32, k ≠ p → s1.part k = s.part k) ∧
        (room → s1.part p = { q with frtail := q.frtail + 1 } ∧ (∀ j < 64, s1.mem.phys.byte (Claim.faultPlace q + j) = bytes.getD j 0) ∧
          ∀ pa, pa < Claim.faultPlace q ∨ Claim.faultPlace q + 64 ≤ pa → s1.mem.phys.byte pa = s.mem.phys.byte pa) ∧
        (¬ room → s1.part p = { q with frdrop := min (q.frdrop + 1) (2 ^ 64 - 1) } ∧ s1.mem = s.mem) ∧
        (s1.landing v.iss.team.core v.team.asid v.team.hdr.handler = none →
          Claim.Trapped s1 t v f.code.num 0 (BitVec.ofNat 64 (f.val.getD v.pc))))

/-- What an instruction checks before it acts: its fields, then the addresses of its accesses; and what a fault leaves. -/
def Obligations.ChecksPrecedeEffects : Prop := Claim.FieldChecks ∧ Claim.MemoryFaults ∧ Claim.FaultsLeave

/-- The state in which a step performs the head of its agenda: time has passed. -/
def Claim.begun (s : State) (rest : List Agendum) : State := { s.passTime with sched := { s.passTime.sched with agenda := rest } }

/-- Fields of the word of an instruction as its slot checks read them. -/
def Claim.slotFields (w : Slot) : Instr → Opnds
  | .clend _ => {}
  | _ => (Raw.ofSlot w).opnds

/-- The word at a position of a clause in execution writes a clause temporary, or holds an operand in a latch. -/
def Claim.writesTemp (s : State) (v : View) (p : Nat) (n : Fin 8) : Prop :=
  ∃ y j, s.wordAt v p = some y ∧ decode y = .ok j ∧ Spec.c n ∈ written j (Raw.ofSlot y).opnds
def Claim.holdsLatch (s : State) (v : View) (p : Nat) : Prop :=
  ∃ y, s.wordAt v p = some y ∧ isHeader y = false ∧ isClend y = false ∧ (Raw.ofSlot y).opnds.hold ≠ .none

/-- R21, R24, R27, R42, R43, R52 and log 1: A STEP RUNS THE DECODED INSTRUCTION. Where the quadrant is held by a group with a clause, the
word at the clause's position decodes and its clause allows it, the step is `exec` of it for that group, and then the waits that it
completed end. A word that does not decode, a transfer that cannot land, a temporary read that no earlier word of the clause writes,
and a latch read that neither of the two words before it fills raise their fault. A ready group's header is run at its chosen PC; a step
that the schedule names is run as it is, if its agent is the part, the host over a released link, or a firmware core that has been released (R433, R440). The word is the slot of the line that the clause has fetched, else of the line that
translation finds, when the cache lists no other, and the clause keeps that line.
Model's choices: the order in which slots and steps come (log 1), a transfer's landing checked before its word's fields (log 38), the line that a clause has
fetched serving the rest of it (log 50), and which steps are whose agent's (log 54). -/
def Obligations.AStepRunsTheDecodedInstruction : Prop :=
  (∀ (s : State) (core quad : Nat) (rest : List Agendum) (t : Team) (g : Grp) (v : View) (w : Slot) (s2 : State),
    s.sched.agenda = .issue core quad :: rest →
    let s1 := Claim.begun s rest
    let raises (c : Code) : Prop := step s = State.close (.next (s1.raise v (Raw.ofSlot w).opnds { code := c }))
    (s1.onQuad core quad).find? (·.2.holds) = some (t, g) → g.stall = none → View.of s1 ⟨t.ref, g.recno⟩ = some v →
    s1.slotOf v = .inl (w, s2) →
    (∀ f, s2.landingFirst v w = some f → step s = State.close (.next (s1.raise v (Raw.ofSlot w).opnds f))) ∧
    (s2.landingFirst v w = none →
      (∀ i, decode w = .ok i → s2.shapeOk v w = true → s2.clauseOk v i (Claim.slotFields w i) = true →
        step s = State.close (exec i { s2 with sched := { s2.sched with cur := some v.iss } })) ∧
      (decode w = .error .illOp → raises .illOp) ∧
      (decode w = .error .illOpnd → s2.shapeOk v w = true → raises .illOpnd) ∧
      (∀ i n, decode w = .ok i → isClend w = false → s2.shapeOk v w = true → Spec.c n ∈ sources i (Raw.ofSlot w).opnds →
        (∀ p, 1 ≤ p → p < v.cl.pos → ¬ Claim.writesTemp s2 v p n) → raises .illOpnd) ∧
      (∀ i n, decode w = .ok i → isClend w = false → s2.shapeOk v w = true → Spec.l n ∈ sources i (Raw.ofSlot w).opnds →
        (∀ p, v.cl.pos ≤ p + 2 → 1 ≤ p → p < v.cl.pos → p % 3 = n.val → ¬ Claim.holdsLatch s2 v p) → raises .illOpnd))) ∧
  (∀ (s : State) (core quad : Nat) (rest : List Agendum) (t : Team) (g : Grp) (pc : Nat) (w : Slot) (s2 : State) (h : Header),
    s.sched.agenda = .issue core quad :: rest →
    let s1 := Claim.begun s rest
    s1.onQuad core quad = [(t, g)] → g.clause = none → g.park = none → t.choosePC g.recno = some pc →
    s1.slotAt t.ref.core t.asid pc = .inl (w, s2) → isHeader w = true → decode w = .ok (.clauseHeader h) → s2.ready t g pc h = true →
    step s = State.close (exec (.clauseHeader h) { s2 with sched := { s2.sched with cur := some ⟨t.ref, g.recno⟩ } })) ∧
  (∀ (s : State) (i : Instr) (rest : List Agendum), s.sched.agenda = .event i :: rest → encode i = none →
    step s = State.close (if (Claim.begun s rest).canAct (agentOf i) = true then exec i (Claim.begun s rest) else .next (Claim.begun s rest))) ∧
  (∀ (s : State) (v : View),
    let va := v.pc / 64 * 64
    (∀ x, v.cl.lines.find va = some x → x.toNat / 2 ^ 480 / 2 ^ 15 % 2 ^ 17 = 0 →
      s.slotOf v = .inl (BitVec.ofNat 96 (x.toNat / 2 ^ (96 * (v.pc % 8))), s)) ∧
    (∀ (l : Leaf) (g : Grp) (c : Clause), v.cl.lines.find va = none → s.grp? v.iss = some g → g.clause = some c →
      canonical va = true → s.translate v.team.asid va rightX = .ok l → s.poisoned l.pa = false →
      (∀ e ∈ s.mem.icache, e.core = v.iss.team.core → e.asid = v.team.asid → e.va ≠ va) →
      let x := leNat (s.physRead ⟨none, none⟩ l.gen l.pa 64)
      lineParity x = true → x / 2 ^ 480 / 2 ^ 15 % 2 ^ 17 = 0 →
      ∃ s2, s.slotOf v = .inl (BitVec.ofNat 96 (x / 2 ^ (96 * (v.pc % 8))), s2) ∧
        s2 = { s with teams := s2.teams, mem := { s.mem with icache := s.mem.icache ++ [⟨v.iss.team.core, v.team.asid, va, leBytes 64 x⟩] } } ∧
        (∀ k, k ≠ slotKey v.iss.team → s2.teams.find k = s.teams.find k) ∧
        s2.grp? v.iss = some { g with clause := some { c with lines := c.lines.put va (BitVec.ofNat 512 x) } }))

/-- Reset has the invariant of every step: memory and scratch in canonical form, every table of registers whole, teams in order.
The values of State.reset that the spec does not state are the model's choices (log 8). -/
def Obligations.ResetMeetsTheInvariant : Prop := Safety.inv State.reset = true

/-- Every step keeps the invariant. -/
def Obligations.EveryStepKeepsTheInvariant : Prop :=
  ∀ s t : State, Safety.inv s = true → step s = .next t → Safety.inv t = true

/-- No step faults or refuses: what the spec calls a fault is a next state, with its record or its trap. -/
def Obligations.EveryStepGoesOn : Prop := ∀ s : State, Safety.inv s = true → Safety.goesOn s

/-- Decoding the word of a well-formed instruction gives it back, with every operand and modifier. -/
def Obligations.DecodingUndoesEncoding : Prop :=
  ∀ (i : Instr) (w : Slot), WellFormed.ok i = true → encode i = some w → decode w = .ok i

/-- Worked encodings of the spec (spec/02 and the class files) decode to what they stand for; an unallocated OP, a Reserved bit
and a bad register spec are refused by name. -/
def Obligations.WordsOfTheSpecDecode : Prop :=
  decode 0x0000000000000007F8000FE0#96 = .ok (.clauseHeader { len := 3 }) ∧
  decode 0x0000000000000007F8008BE0#96 = .ok (.clauseHeader { len := 2, wait := 1 }) ∧
  decode 0x0000000000000007F80003E0#96 = .error .illOp ∧
  decode 0x0000000000000000000107E1#96 = .ok (.clend [⟨.v 8, false, false⟩]) ∧
  decode 0x000040000000000000820140#96 = .ok (.ld { dst := .v 8, sa := .v 2, fl := some 0, imm := 64 } {}) ∧
  decode 0x0000000000F0000080424080#96 = .ok (.add { dst := .v 9, sa := .v 1, sb := .v 2 } {}) ∧
  decode 0x0000000000F84282420128C3#96 = .ok (.ffma { ty := .f32, dst := .v 4, sa := .v 8, sb := .v 9, sc := .v 10, pk := 1, hold := .sb } {}) ∧
  decode 0x0000800020F0000033000008#96 = .ok (.bar { sa := .imm, imm := 128 } 2) ∧
  decode 0x4567890001F0000000213C41#96 = .ok (.movi { ty := .b64, dst := .s 4, imm := 0x456789 } .mid) ∧
  decode 0x0000000012F0000000000189#96 = .ok (.fence {} .package .rel) ∧
  decode 0x0000020040100000220001C1#96 = .ok (.tcpy { sa := .s 8, fl := some 1, imm := 2 } { prom := true }) ∧
  decode 0x000000008810002566000205#96 = .ok (.mst { sa := .s 24, sb := .s 21, fl := some 1 } { rel := some .team, acc := 1 }) ∧
  decode 0x000000000030000022A18245#96 = .ok (.launch { dst := .s 6, sa := .s 10, fl := some 3 }) ∧
  decode 0x0000000040F00023A332CA81#96 = .ok (.fatom { ty := .u64, dst := .zero, sa := .s 12, sb := .s 14 } { direct := true } .add) ∧
  decode 0x0000510000200000332182C2#96 = .ok (.cjoin { dst := .s 6, sa := .imm, fl := some 2, imm := 0x51 }) ∧
  decode 0x0000000000F032E160A18301#96 = .ok (.gwait { dst := .s 6, sa := .s 2, sb := .s 5, sc := .zero }) ∧
  decode 0x0000000001F0000000000342#96 = .ok (.resume {} true) ∧
  decode 0x0000000000F0000000000013#96 = .error .illOp ∧
  decode 0x0000010000F0000080424080#96 = .error .illOp ∧
  decode 0x0000000000F0003FC0424080#96 = .error .illOpnd
end

