-- ==== Sys2Proof/Laws/Tab.lean ====
section
/-! SUPPORT. Laws of tables and lists: reading after writing, and the canonical form under each operation. -/
namespace Sys2Proof.Machine
variable {α : Type}

/-! ## Reading after writing -/

@[simp] theorem Tab.find_put_same (m : Tab α) (k : Nat) (v : α) : (m.put k v).find k = some v := by
  induction m with
  | nil => simp [Tab.put, Tab.find]
  | cons x r ih =>
    obtain ⟨j, u⟩ := x
    simp only [Tab.put]
    split_ifs with h h'
    · simp [Tab.find]
    · simp [Tab.find]
    · simp [Tab.find, h', ih]

theorem Tab.find_put_other (m : Tab α) {k i : Nat} (v : α) (h : i ≠ k) : (m.put k v).find i = m.find i := by
  induction m with
  | nil => simp [Tab.put, Tab.find, h.symm]
  | cons x r ih =>
    obtain ⟨j, u⟩ := x
    simp only [Tab.put]
    split_ifs with h1 h2
    · simp [Tab.find, h.symm]
    · subst h2; simp [Tab.find, h.symm]
    · simp [Tab.find, ih]

theorem Tab.get_eq_find (d : α) (m : Tab α) (k : Nat) : m.get d k = (m.find k).getD d := by
  induction m with
  | nil => rfl
  | cons x r ih =>
    obtain ⟨j, u⟩ := x
    simp only [Tab.get, Tab.find]
    split_ifs <;> simp [ih]

theorem Tab.find_filter_ne (m : Tab α) (k i : Nat) :
    Tab.find (m.filter fun x => x.1 != k) i = if i = k then none else m.find i := by
  induction m with
  | nil => simp [Tab.find]
  | cons x r ih =>
    obtain ⟨j, u⟩ := x
    by_cases hj : j = k
    · subst hj
      simp only [List.filter, bne_self_eq_false, ih, Tab.find]
      by_cases hi : i = j
      · simp [hi]
      · simp [hi, Ne.symm hi]
    · have : (j != k) = true := by simpa using hj
      simp only [List.filter, this, Tab.find, ih]
      by_cases hi : j = i
      · subst hi; simp [hj]
      · simp [hi]

@[simp] theorem Tab.get_set_same [DecidableEq α] (d : α) (m : Tab α) (k : Nat) (v : α) : (m.set d k v).get d k = v := by
  unfold Tab.set
  split_ifs with h
  · simp [Tab.get_eq_find, Tab.find_filter_ne, h]
  · simp [Tab.get_eq_find]

theorem Tab.get_set_other [DecidableEq α] (d : α) (m : Tab α) {k i : Nat} (v : α) (h : i ≠ k) :
    (m.set d k v).get d i = m.get d i := by
  unfold Tab.set
  split_ifs with hv
  · simp [Tab.get_eq_find, Tab.find_filter_ne, h]
  · simp [Tab.get_eq_find, Tab.find_put_other m v h]

/-! ## The canonical form -/

theorem Tab.okAbove_mono [DecidableEq α] {d : α} {lo hi : Nat} {m : Tab α} (h : Tab.okAbove d hi m = true) (le : lo ≤ hi) :
    Tab.okAbove d lo m = true := by
  cases m with
  | nil => rfl
  | cons x r =>
    obtain ⟨j, u⟩ := x
    simp only [Tab.okAbove, Bool.and_eq_true, decide_eq_true_eq] at h ⊢
    exact ⟨⟨le.trans h.1.1, h.1.2⟩, h.2⟩

theorem Tab.okAbove_put [DecidableEq α] {d : α} {lo k : Nat} {v : α} {m : Tab α} (h : Tab.okAbove d lo m = true)
    (le : lo ≤ k) (ne : v ≠ d) : Tab.okAbove d lo (m.put k v) = true := by
  induction m generalizing lo with
  | nil => simp [Tab.put, Tab.okAbove, le, ne]
  | cons x r ih =>
    obtain ⟨j, u⟩ := x
    simp only [Tab.okAbove, Bool.and_eq_true, decide_eq_true_eq] at h
    simp only [Tab.put]
    split_ifs with h1 h2
    · simp only [Tab.okAbove, Bool.and_eq_true, decide_eq_true_eq]
      exact ⟨⟨le, ne⟩, ⟨by omega, h.1.2⟩, h.2⟩
    · subst h2
      simp only [Tab.okAbove, Bool.and_eq_true, decide_eq_true_eq]
      exact ⟨⟨le, ne⟩, h.2⟩
    · simp only [Tab.okAbove, Bool.and_eq_true, decide_eq_true_eq]
      exact ⟨h.1, ih h.2 (by omega)⟩

theorem Tab.okAbove_filter [DecidableEq α] {d : α} {lo : Nat} {m : Tab α} (p : Nat × α → Bool)
    (h : Tab.okAbove d lo m = true) : Tab.okAbove d lo (m.filter p) = true := by
  induction m generalizing lo with
  | nil => rfl
  | cons x r ih =>
    obtain ⟨j, u⟩ := x
    simp only [Tab.okAbove, Bool.and_eq_true, decide_eq_true_eq] at h
    simp only [List.filter]
    split
    · simp only [Tab.okAbove, Bool.and_eq_true, decide_eq_true_eq]
      exact ⟨h.1, ih h.2⟩
    · exact Tab.okAbove_mono (ih h.2) (by omega)

/-- A write keeps the canonical form. -/
theorem Tab.set_wf [DecidableEq α] {d : α} {m : Tab α} (h : Tab.wf d m = true) (k : Nat) (v : α) :
    Tab.wf d (m.set d k v) = true := by
  unfold Tab.wf Tab.set at *
  split_ifs with hv
  · exact Tab.okAbove_filter _ h
  · exact Tab.okAbove_put h (Nat.zero_le k) hv

/-- Writes of a list of entries keep the canonical form. -/
theorem Tab.foldl_set_wf [DecidableEq α] {β : Type} {d : α} (xs : List β) (key : β → Nat) (val : β → α) {m : Tab α}
    (h : Tab.wf d m = true) : Tab.wf d (xs.foldl (fun m x => m.set d (key x) (val x)) m) = true := by
  induction xs generalizing m with
  | nil => exact h
  | cons x r ih => exact ih (Tab.set_wf h _ _)

/-! ## Lists -/

@[simp] theorem modNth_length (f : α → α) (l : List α) (n : Nat) : (modNth f l n).length = l.length := by
  induction l generalizing n with
  | nil => cases n <;> rfl
  | cons x r ih => cases n <;> simp [modNth, ih]

theorem nth_modNth_same (d : α) (f : α → α) {l : List α} {n : Nat} (h : n < l.length) :
    nth d (modNth f l n) n = f (nth d l n) := by
  induction l generalizing n with
  | nil => simp at h
  | cons x r ih =>
    cases n with
    | zero => rfl
    | succ n => simpa [modNth, nth] using ih (by simpa using h)

theorem nth_modNth_other (d : α) (f : α → α) (l : List α) {n k : Nat} (h : k ≠ n) :
    nth d (modNth f l n) k = nth d l k := by
  induction l generalizing n k with
  | nil => cases n <;> cases k <;> rfl
  | cons x r ih =>
    cases n <;> cases k <;> simp_all [modNth, nth]

end Sys2Proof.Machine
end

