-- ==== Sys2Proof/Laws/Memory.lean ====
section
/-! SUPPORT. Memory: every operation on a store keeps the canonical form; reading a byte after a write. -/
namespace Sys2Proof.Machine

theorem Memory.wf_iff (st : Store) : Memory.wf st = true ↔ Tab.wf (0 : Byte) st.cells = true := Iff.rfl

theorem Store.empty_wf : Memory.wf Store.empty = true := rfl

theorem Store.setBytes_wf {st : Store} (h : Memory.wf st = true) (a : Nat) (bs : List Byte) :
    Memory.wf (st.setBytes a bs) = true :=
  Tab.foldl_set_wf bs.zipIdx (fun x => a + x.2) (fun x => x.1) h

@[simp] theorem Store.remember_wf (st : Store) (now : Nat) (w : Writer) (us : List Unplaced) (a n : Nat) :
    Memory.wf (st.remember now w us a n) = Memory.wf st := rfl

/-- An ordinary write keeps the canonical form. -/
theorem State.storeWrite_wf (s : State) {st : Store} (h : Memory.wf st = true) (w : Writer) (a : Nat) (bs : List Byte) :
    Memory.wf (s.storeWrite st w a bs) = true :=
  Store.setBytes_wf (st := st.remember s.sched.steps w (st.unplaced.filter (s.comesAfter a bs.length)) a bs.length) h a bs

theorem Store.enterCells_wf (now : Nat) (p : Unplaced → Bool) (us kept : List Unplaced) {st : Store}
    (h : Memory.wf st = true) : Memory.wf (Store.enterCells now p us kept st) = true := by
  induction us generalizing st kept with
  | nil => exact h
  | cons u r ih =>
    unfold Store.enterCells
    split
    · exact ih _ (Tab.foldl_set_wf u.bytes (fun x => u.word + x.1) (·.2) h)
    · exact ih _ h

/-- Placing engine writes keeps the canonical form. -/
theorem Store.place_wf {st : Store} (h : Memory.wf st = true) (now : Nat) (sc : Scope) (p : Unplaced → Bool) :
    Memory.wf (st.place now sc p) = true := by
  cases sc
  · exact h
  · exact h
  · exact Store.enterCells_wf now p _ _ h
  · exact Store.enterCells_wf now p _ _ h

@[simp] theorem State.setPhys_phys (s : State) (st : Store) : (s.setPhys st).mem.phys = st := rfl

theorem State.retag_wf {s : State} (h : Memory.wf s.mem.phys = true) (g line : Nat) :
    Memory.wf (s.retag g line).mem.phys = true := by
  unfold State.retag
  split
  · exact h
  · exact Tab.foldl_set_wf _ (fun j => 128 * line + j) (fun j => Config.garbage s.sched.steps (128 * line + j)) h

@[simp] theorem State.wakeLine_mem (s : State) (line : Nat) : (s.wakeLine line).mem = s.mem := rfl

@[simp] theorem State.wakeLines_mem (s : State) (ls : List Nat) : (ls.foldl (fun s l => s.wakeLine l) s).mem = s.mem := by
  induction ls generalizing s with
  | nil => rfl
  | cons l r ih => simp [ih]

/-- A write to physical memory keeps the canonical form. -/
theorem State.physWrite_wf {s : State} (h : Memory.wf s.mem.phys = true) (w : Writer) (g pa : Nat) (bs : List Byte) :
    Memory.wf (s.physWrite w g pa bs).mem.phys = true := by
  unfold State.physWrite
  simp only [State.wakeLines_mem, State.setPhys_phys]
  apply State.storeWrite_wf
  split
  · exact State.retag_wf h g _
  · exact h

theorem State.placePhys_wf {s : State} (h : Memory.wf s.mem.phys = true) (sc : Scope) (p : Unplaced → Bool) :
    Memory.wf (s.placePhys sc p).mem.phys = true := by
  simp only [State.placePhys, State.wakeLines_mem, State.setPhys_phys]
  exact Store.place_wf h _ _ _

theorem State.enginePhys_wf {s : State} (h : Memory.wf s.mem.phys = true) (cmd : Nat) (chunk : Option Nat) (launch : Nat)
    (w : Writer) (g a : Nat) (bytes : List (Nat × Byte)) :
    Memory.wf (s.enginePhys cmd chunk launch w g a bytes).mem.phys = true := by
  simp only [State.enginePhys, State.setPhys_phys]
  split
  · exact State.retag_wf (s := s) h g _
  · exact h

/-! ## Reading after a write -/

theorem Store.setBytes_outside (st : Store) (a : Nat) (bs : List Byte) {x : Nat} (h : x < a ∨ a + bs.length ≤ x) :
    (st.setBytes a bs).byte x = st.byte x := by
  have key : ∀ (l : List (Byte × Nat)) (m : Tab Byte), (∀ y ∈ l, x ≠ a + y.2) →
      (l.foldl (fun m y => m.set 0 (a + y.2) y.1) m).get 0 x = m.get 0 x := by
    intro l
    induction l with
    | nil => intro m _; rfl
    | cons y r ih =>
      intro m hy
      rw [List.foldl_cons, ih _ fun z hz => hy z (List.mem_cons_of_mem _ hz)]
      exact Tab.get_set_other 0 m y.1 (hy y List.mem_cons_self)
  refine key _ _ fun y hy => ?_
  have := List.snd_lt_of_mem_zipIdx hy
  omega

/-- An ordinary write leaves every byte outside it. -/
theorem State.storeWrite_outside (s : State) (st : Store) (w : Writer) (a : Nat) (bs : List Byte) {x : Nat}
    (h : x < a ∨ a + bs.length ≤ x) : (s.storeWrite st w a bs).byte x = st.byte x :=
  Store.setBytes_outside (st.remember s.sched.steps w (st.unplaced.filter (s.comesAfter a bs.length)) a bs.length) a bs h

end Sys2Proof.Machine
end

