-- ==== Sys2Proof/Laws/State.lean ====
section
/-! SUPPORT. What each update of the state leaves of each field, and what a change of one team does to reading teams, groups and threads. -/
namespace Sys2Proof.Machine

/-! ## Updates of one team -/

section modTeam
variable (s : State) (r : TeamRef) (f : Team → Team)

theorem State.modTeam_eq : s.modTeam r f = { s with teams := (s.modTeam r f).teams } := by
  unfold State.modTeam; split <;> rfl
@[simp] theorem State.modTeam_sched : (s.modTeam r f).sched = s.sched := by rw [State.modTeam_eq]
@[simp] theorem State.modTeam_clock : (s.modTeam r f).clock = s.clock := by rw [State.modTeam_eq]
@[simp] theorem State.modTeam_mem : (s.modTeam r f).mem = s.mem := by rw [State.modTeam_eq]
@[simp] theorem State.modTeam_eng : (s.modTeam r f).eng = s.eng := by rw [State.modTeam_eq]
@[simp] theorem State.modTeam_front : (s.modTeam r f).front = s.front := by rw [State.modTeam_eq]
@[simp] theorem State.modTeam_parts : (s.modTeam r f).parts = s.parts := by rw [State.modTeam_eq]
@[simp] theorem State.modTeam_fab : (s.modTeam r f).fab = s.fab := by rw [State.modTeam_eq]
@[simp] theorem State.modTeam_coll : (s.modTeam r f).coll = s.coll := by rw [State.modTeam_eq]
@[simp] theorem State.modTeam_guest : (s.modTeam r f).guest = s.guest := by rw [State.modTeam_eq]
@[simp] theorem State.modTeam_mgmt : (s.modTeam r f).mgmt = s.mgmt := by rw [State.modTeam_eq]

/-- The changed team is read back changed. -/
@[simp] theorem State.team?_modTeam_same : (s.modTeam r f).team? r = (s.team? r).map f := by
  unfold State.modTeam
  cases h : s.team? r with
  | none => simpa using h
  | some t => exact Tab.find_put_same s.teams (slotKey r) (f t)

/-- Every other slot is as it was. -/
theorem State.modTeam_find_other {k : Nat} (h : k ≠ slotKey r) : (s.modTeam r f).teams.find k = s.teams.find k := by
  unfold State.modTeam
  split
  · exact Tab.find_put_other s.teams _ h
  · rfl
end modTeam

/-! ## Updates of one group record -/

section modGrp
variable (t : Team) (n : Nat) (f : Grp → Grp)

@[simp] theorem Team.modGrp_threads : (t.modGrp n f).threads = t.threads := rfl
@[simp] theorem Team.modGrp_thread? (tid : Nat) : (t.modGrp n f).thread? tid = t.thread? tid := rfl
@[simp] theorem Team.modGrp_ref : (t.modGrp n f).ref = t.ref := rfl
@[simp] theorem Team.modGrp_scratch : (t.modGrp n f).scratch = t.scratch := rfl
@[simp] theorem Team.modThreads_grps (p : Thread → Bool) (h : Thread → Thread) : (t.modThreads p h).grps = t.grps := rfl
@[simp] theorem Team.modThreads_grp? (p : Thread → Bool) (h : Thread → Thread) (k : Nat) :
    (t.modThreads p h).grp? k = t.grp? k := rfl
@[simp] theorem Team.modThreads_scratch (p : Thread → Bool) (h : Thread → Thread) : (t.modThreads p h).scratch = t.scratch := rfl

theorem find?_map_same {l : List Grp} (hf : ∀ g, (f g).recno = g.recno) :
    (l.map fun g => if g.recno = n then f g else g).find? (·.recno == n) = (l.find? (·.recno == n)).map f := by
  induction l with
  | nil => rfl
  | cons g r ih =>
    by_cases h : g.recno = n
    · simp [h, hf]
    · simp [h, ih]

theorem find?_map_other {l : List Grp} {k : Nat} (hf : ∀ g, (f g).recno = g.recno) (hk : k ≠ n) :
    (l.map fun g => if g.recno = n then f g else g).find? (·.recno == k) = l.find? (·.recno == k) := by
  induction l with
  | nil => rfl
  | cons g r ih =>
    by_cases h : g.recno = n
    · have : g.recno ≠ k := by omega
      simp [h, hf, ih, hk.symm]
    · by_cases h' : g.recno = k
      · subst h'; simp [h]
      · simp [h, h', ih]

/-- The changed record is read back changed. -/
theorem Team.grp?_modGrp_same (hf : ∀ g, (f g).recno = g.recno) : (t.modGrp n f).grp? n = (t.grp? n).map f :=
  find?_map_same n f hf

/-- Every other record is as it was. -/
theorem Team.grp?_modGrp_other {k : Nat} (hf : ∀ g, (f g).recno = g.recno) (hk : k ≠ n) : (t.modGrp n f).grp? k = t.grp? k :=
  find?_map_other n f hf hk
end modGrp

/-- A changed thread is read back changed, any other as it was. -/
theorem Team.thread?_modThread (t : Team) (a tid : Nat) (f : Thread → Thread) (hf : ∀ th, (f th).tid = th.tid) :
    (t.modThread a f).thread? tid = (t.thread? tid).map fun th => if tid = a then f th else th := by
  simp only [Team.thread?, Team.modThread, Team.modThreads, beq_iff_eq]
  induction t.threads with
  | nil => rfl
  | cons x r ih =>
    by_cases h : x.tid = a
    · by_cases h' : x.tid = tid
      · have : tid = a := by omega
        simp [h, hf, this]
      · have : a ≠ tid := by omega
        simpa [h, hf, this] using ih
    · by_cases h' : x.tid = tid
      · have : tid ≠ a := by omega
        simp [h', this]
      · simpa [h, h'] using ih

/-! ## Registers of a thread and of a group -/

@[simp] theorem Thread.getV_setV (th : Thread) (n : Nat) (x : W32) : (th.setV n x).getV n = x := Tab.get_set_same 0 th.v n x
@[simp] theorem Thread.getC_setC (th : Thread) (n : Nat) (x : W32) : (th.setC n x).getC n = x := Tab.get_set_same 0 th.c n x
@[simp] theorem Grp.getS_setS (g : Grp) (n : Nat) (x : W64) : (g.setS n x).getS n = x := Tab.get_set_same 0 g.s n x
theorem Thread.getV_setV_other (th : Thread) {n k : Nat} (x : W32) (h : k ≠ n) : (th.setV n x).getV k = th.getV k :=
  Tab.get_set_other 0 th.v x h
theorem Thread.getC_setC_other (th : Thread) {n k : Nat} (x : W32) (h : k ≠ n) : (th.setC n x).getC k = th.getC k :=
  Tab.get_set_other 0 th.c x h
theorem Grp.getS_setS_other (g : Grp) {n k : Nat} (x : W64) (h : k ≠ n) : (g.setS n x).getS k = g.getS k :=
  Tab.get_set_other 0 g.s x h
/-- k0 reads true whatever is written to it. -/
@[simp] theorem Thread.getK_zero (th : Thread) : th.getK 0 = true := rfl
theorem Thread.getK_setK (th : Thread) {n : Nat} (x : Bool) (h : n ≠ 0) : (th.setK n x).getK n = x := by
  simp [Thread.setK, Thread.getK, h]
theorem Thread.getK_setK_other (th : Thread) {n k : Nat} (x : Bool) (h : k ≠ n) : (th.setK n x).getK k = th.getK k := by
  unfold Thread.setK Thread.getK
  split_ifs <;> first | rfl | exact Tab.get_set_other false th.k x h

@[simp] theorem Thread.setV_tid (th : Thread) (n : Nat) (x : W32) : (th.setV n x).tid = th.tid := rfl
@[simp] theorem Thread.setC_tid (th : Thread) (n : Nat) (x : W32) : (th.setC n x).tid = th.tid := rfl
@[simp] theorem Thread.setK_tid (th : Thread) (n : Nat) (x : Bool) : (th.setK n x).tid = th.tid := by
  unfold Thread.setK; split <;> rfl
@[simp] theorem Grp.setS_recno (g : Grp) (n : Nat) (x : W64) : (g.setS n x).recno = g.recno := rfl

/-! ## Other updates -/

@[simp] theorem State.setPhys_teams (s : State) (st : Store) : (s.setPhys st).teams = s.teams := rfl
@[simp] theorem State.setPhys_clock (s : State) (st : Store) : (s.setPhys st).clock = s.clock := rfl
@[simp] theorem State.setPhys_parts (s : State) (st : Store) : (s.setPhys st).parts = s.parts := rfl
@[simp] theorem State.setPhys_guest (s : State) (st : Store) : (s.setPhys st).guest = s.guest := rfl
@[simp] theorem State.modPart_mem (s : State) (p : Nat) (f : Part → Part) : (s.modPart p f).mem = s.mem := rfl
@[simp] theorem State.modPart_teams (s : State) (p : Nat) (f : Part → Part) : (s.modPart p f).teams = s.teams := rfl
@[simp] theorem State.modPart_clock (s : State) (p : Nat) (f : Part → Part) : (s.modPart p f).clock = s.clock := rfl
@[simp] theorem State.modPart_guest (s : State) (p : Nat) (f : Part → Part) : (s.modPart p f).guest = s.guest := rfl
@[simp] theorem State.modPart_parts_length (s : State) (p : Nat) (f : Part → Part) :
    (s.modPart p f).parts.length = s.parts.length := by simp [State.modPart]
@[simp] theorem State.newCmd_num (s : State) : s.newCmd.1 = s.sched.nextCmd := rfl
@[simp] theorem State.newCmd_teams (s : State) : s.newCmd.2.teams = s.teams := rfl
@[simp] theorem State.newCmd_mem (s : State) : s.newCmd.2.mem = s.mem := rfl
@[simp] theorem State.newCmd_eng (s : State) : s.newCmd.2.eng = s.eng := rfl
@[simp] theorem State.irq_mem (s : State) (p n : Nat) : (s.irq p n).mem = s.mem := by unfold State.irq; split <;> rfl
@[simp] theorem State.irq_teams (s : State) (p n : Nat) : (s.irq p n).teams = s.teams := by unfold State.irq; split <;> rfl
@[simp] theorem State.irq_parts (s : State) (p n : Nat) : (s.irq p n).parts = s.parts := by unfold State.irq; split <;> rfl
@[simp] theorem State.modMgmt_mgmt (s : State) (f : Mgmt → Mgmt) : (s.modMgmt f).mgmt = f s.mgmt := rfl
@[simp] theorem State.modMgmt_sched (s : State) (f : Mgmt → Mgmt) : (s.modMgmt f).sched = s.sched := rfl
@[simp] theorem State.modMgmt_clock (s : State) (f : Mgmt → Mgmt) : (s.modMgmt f).clock = s.clock := rfl
@[simp] theorem State.modMgmt_mem (s : State) (f : Mgmt → Mgmt) : (s.modMgmt f).mem = s.mem := rfl
@[simp] theorem State.modMgmt_teams (s : State) (f : Mgmt → Mgmt) : (s.modMgmt f).teams = s.teams := rfl
@[simp] theorem State.modMgmt_eng (s : State) (f : Mgmt → Mgmt) : (s.modMgmt f).eng = s.eng := rfl
@[simp] theorem State.modMgmt_front (s : State) (f : Mgmt → Mgmt) : (s.modMgmt f).front = s.front := rfl
@[simp] theorem State.modMgmt_parts (s : State) (f : Mgmt → Mgmt) : (s.modMgmt f).parts = s.parts := rfl
@[simp] theorem State.modMgmt_fab (s : State) (f : Mgmt → Mgmt) : (s.modMgmt f).fab = s.fab := rfl
@[simp] theorem State.modMgmt_coll (s : State) (f : Mgmt → Mgmt) : (s.modMgmt f).coll = s.coll := rfl
@[simp] theorem State.modMgmt_guest (s : State) (f : Mgmt → Mgmt) : (s.modMgmt f).guest = s.guest := rfl
@[simp] theorem State.logEvent_sched (s : State) (a b c : Nat) (d : List Nat) : (s.logEvent a b c d).sched = s.sched := State.modMgmt_sched s _
@[simp] theorem State.logEvent_clock (s : State) (a b c : Nat) (d : List Nat) : (s.logEvent a b c d).clock = s.clock := State.modMgmt_clock s _
@[simp] theorem State.logEvent_mem (s : State) (a b c : Nat) (d : List Nat) : (s.logEvent a b c d).mem = s.mem := State.modMgmt_mem s _
@[simp] theorem State.logEvent_teams (s : State) (a b c : Nat) (d : List Nat) : (s.logEvent a b c d).teams = s.teams := State.modMgmt_teams s _
@[simp] theorem State.logEvent_eng (s : State) (a b c : Nat) (d : List Nat) : (s.logEvent a b c d).eng = s.eng := State.modMgmt_eng s _
@[simp] theorem State.logEvent_front (s : State) (a b c : Nat) (d : List Nat) : (s.logEvent a b c d).front = s.front := State.modMgmt_front s _
@[simp] theorem State.logEvent_parts (s : State) (a b c : Nat) (d : List Nat) : (s.logEvent a b c d).parts = s.parts := State.modMgmt_parts s _
@[simp] theorem State.logEvent_fab (s : State) (a b c : Nat) (d : List Nat) : (s.logEvent a b c d).fab = s.fab := State.modMgmt_fab s _
@[simp] theorem State.logEvent_coll (s : State) (a b c : Nat) (d : List Nat) : (s.logEvent a b c d).coll = s.coll := State.modMgmt_coll s _
@[simp] theorem State.logEvent_guest (s : State) (a b c : Nat) (d : List Nat) : (s.logEvent a b c d).guest = s.guest := State.modMgmt_guest s _
@[simp] theorem State.fwIrq_sched (s : State) (n : Nat) : (s.fwIrq n).sched = s.sched := State.modMgmt_sched s _
@[simp] theorem State.fwIrq_clock (s : State) (n : Nat) : (s.fwIrq n).clock = s.clock := State.modMgmt_clock s _
@[simp] theorem State.fwIrq_mem (s : State) (n : Nat) : (s.fwIrq n).mem = s.mem := State.modMgmt_mem s _
@[simp] theorem State.fwIrq_teams (s : State) (n : Nat) : (s.fwIrq n).teams = s.teams := State.modMgmt_teams s _
@[simp] theorem State.fwIrq_eng (s : State) (n : Nat) : (s.fwIrq n).eng = s.eng := State.modMgmt_eng s _
@[simp] theorem State.fwIrq_front (s : State) (n : Nat) : (s.fwIrq n).front = s.front := State.modMgmt_front s _
@[simp] theorem State.fwIrq_parts (s : State) (n : Nat) : (s.fwIrq n).parts = s.parts := State.modMgmt_parts s _
@[simp] theorem State.fwIrq_fab (s : State) (n : Nat) : (s.fwIrq n).fab = s.fab := State.modMgmt_fab s _
@[simp] theorem State.fwIrq_coll (s : State) (n : Nat) : (s.fwIrq n).coll = s.coll := State.modMgmt_coll s _
@[simp] theorem State.fwIrq_guest (s : State) (n : Nat) : (s.fwIrq n).guest = s.guest := State.modMgmt_guest s _

/-! ## The frame of an issue -/

/-- An instruction word whose issuer exists always answers a next state. -/
theorem issue_next {s : State} {v : View} (i : Instr) (o : Opnds) (body : View → Issued) (h : s.view? = some v) :
    issue i o s body = .next (v.finish i o (v.run i o body)) := by
  simp [issue, h]

/-- An instruction word stops only for want of an issuer. -/
theorem issue_cases (i : Instr) (o : Opnds) (s : State) (body : View → Issued) :
    (s.view? = none ∧ issue i o s body = .fault .noIssuer) ∨
      ∃ v, s.view? = some v ∧ issue i o s body = .next (v.finish i o (v.run i o body)) := by
  cases h : s.view? with
  | none => exact .inl ⟨rfl, by simp [issue, h]⟩
  | some v => exact .inr ⟨v, rfl, issue_next i o body h⟩

/-- The instruction's own entry runs when the checks of R52 pass and no flag is at its limit. -/
theorem View.run_body {v : View} {i : Instr} {o : Opnds} (body : View → Issued) (hb : boundCheck v.team v.grp i o = none)
    (hf : flightCheck v.grp v.cl i o = false) (hl : (o.fl.any (fun f => v.grp.flag f == 255) && v.any o) = false) :
    v.run i o body = body v := by
  simp [View.run, hb, hf, hl]

theorem View.of_spec {s : State} {i : Issuer} {v : View} (h : View.of s i = some v) :
    v.s = s ∧ v.iss = i ∧ s.team? i.team = some v.team ∧ v.team.grp? i.recno = some v.grp ∧ v.grp.clause = some v.cl := by
  unfold View.of at h
  split at h
  · cases h
  · split at h
    · cases h
    · split at h
      · cases h
      · cases h; simp_all

end Sys2Proof.Machine
end

