-- ==== Sys2Proof/Laws/Updates.lean ====
section
/-! SUPPORT. What the updates of one engine command, launch, den, queue, request, region, stream, die, rail, port, image target or group leave of each field of the state. -/
namespace Sys2Proof.Machine

variable (s : State)

@[simp] theorem State.modCopy_sched (n : Nat) (f : CopyCmd → CopyCmd) : (s.modCopy n f).sched = s.sched := rfl
@[simp] theorem State.modCopy_clock (n : Nat) (f : CopyCmd → CopyCmd) : (s.modCopy n f).clock = s.clock := rfl
@[simp] theorem State.modCopy_mem (n : Nat) (f : CopyCmd → CopyCmd) : (s.modCopy n f).mem = s.mem := rfl
@[simp] theorem State.modCopy_teams (n : Nat) (f : CopyCmd → CopyCmd) : (s.modCopy n f).teams = s.teams := rfl
@[simp] theorem State.modCopy_front (n : Nat) (f : CopyCmd → CopyCmd) : (s.modCopy n f).front = s.front := rfl
@[simp] theorem State.modCopy_parts (n : Nat) (f : CopyCmd → CopyCmd) : (s.modCopy n f).parts = s.parts := rfl
@[simp] theorem State.modCopy_fab (n : Nat) (f : CopyCmd → CopyCmd) : (s.modCopy n f).fab = s.fab := rfl
@[simp] theorem State.modCopy_coll (n : Nat) (f : CopyCmd → CopyCmd) : (s.modCopy n f).coll = s.coll := rfl
@[simp] theorem State.modCopy_guest (n : Nat) (f : CopyCmd → CopyCmd) : (s.modCopy n f).guest = s.guest := rfl
@[simp] theorem State.modCopy_mgmt (n : Nat) (f : CopyCmd → CopyCmd) : (s.modCopy n f).mgmt = s.mgmt := rfl

@[simp] theorem State.modMat_sched (n : Nat) (f : MatCmd → MatCmd) : (s.modMat n f).sched = s.sched := rfl
@[simp] theorem State.modMat_clock (n : Nat) (f : MatCmd → MatCmd) : (s.modMat n f).clock = s.clock := rfl
@[simp] theorem State.modMat_mem (n : Nat) (f : MatCmd → MatCmd) : (s.modMat n f).mem = s.mem := rfl
@[simp] theorem State.modMat_teams (n : Nat) (f : MatCmd → MatCmd) : (s.modMat n f).teams = s.teams := rfl
@[simp] theorem State.modMat_front (n : Nat) (f : MatCmd → MatCmd) : (s.modMat n f).front = s.front := rfl
@[simp] theorem State.modMat_parts (n : Nat) (f : MatCmd → MatCmd) : (s.modMat n f).parts = s.parts := rfl
@[simp] theorem State.modMat_fab (n : Nat) (f : MatCmd → MatCmd) : (s.modMat n f).fab = s.fab := rfl
@[simp] theorem State.modMat_coll (n : Nat) (f : MatCmd → MatCmd) : (s.modMat n f).coll = s.coll := rfl
@[simp] theorem State.modMat_guest (n : Nat) (f : MatCmd → MatCmd) : (s.modMat n f).guest = s.guest := rfl
@[simp] theorem State.modMat_mgmt (n : Nat) (f : MatCmd → MatCmd) : (s.modMat n f).mgmt = s.mgmt := rfl

@[simp] theorem State.modColl_sched (part cid : Nat) (f : Coll → Coll) : (s.modColl part cid f).sched = s.sched := rfl
@[simp] theorem State.modColl_clock (part cid : Nat) (f : Coll → Coll) : (s.modColl part cid f).clock = s.clock := rfl
@[simp] theorem State.modColl_mem (part cid : Nat) (f : Coll → Coll) : (s.modColl part cid f).mem = s.mem := rfl
@[simp] theorem State.modColl_teams (part cid : Nat) (f : Coll → Coll) : (s.modColl part cid f).teams = s.teams := rfl
@[simp] theorem State.modColl_eng (part cid : Nat) (f : Coll → Coll) : (s.modColl part cid f).eng = s.eng := rfl
@[simp] theorem State.modColl_front (part cid : Nat) (f : Coll → Coll) : (s.modColl part cid f).front = s.front := rfl
@[simp] theorem State.modColl_parts (part cid : Nat) (f : Coll → Coll) : (s.modColl part cid f).parts = s.parts := rfl
@[simp] theorem State.modColl_fab (part cid : Nat) (f : Coll → Coll) : (s.modColl part cid f).fab = s.fab := rfl
@[simp] theorem State.modColl_guest (part cid : Nat) (f : Coll → Coll) : (s.modColl part cid f).guest = s.guest := rfl
@[simp] theorem State.modColl_mgmt (part cid : Nat) (f : Coll → Coll) : (s.modColl part cid f).mgmt = s.mgmt := rfl

@[simp] theorem State.modLaunch_sched (id : Nat) (f : Launch → Launch) : (s.modLaunch id f).sched = s.sched := rfl
@[simp] theorem State.modLaunch_clock (id : Nat) (f : Launch → Launch) : (s.modLaunch id f).clock = s.clock := rfl
@[simp] theorem State.modLaunch_mem (id : Nat) (f : Launch → Launch) : (s.modLaunch id f).mem = s.mem := rfl
@[simp] theorem State.modLaunch_teams (id : Nat) (f : Launch → Launch) : (s.modLaunch id f).teams = s.teams := rfl
@[simp] theorem State.modLaunch_eng (id : Nat) (f : Launch → Launch) : (s.modLaunch id f).eng = s.eng := rfl
@[simp] theorem State.modLaunch_parts (id : Nat) (f : Launch → Launch) : (s.modLaunch id f).parts = s.parts := rfl
@[simp] theorem State.modLaunch_fab (id : Nat) (f : Launch → Launch) : (s.modLaunch id f).fab = s.fab := rfl
@[simp] theorem State.modLaunch_coll (id : Nat) (f : Launch → Launch) : (s.modLaunch id f).coll = s.coll := rfl
@[simp] theorem State.modLaunch_guest (id : Nat) (f : Launch → Launch) : (s.modLaunch id f).guest = s.guest := rfl
@[simp] theorem State.modLaunch_mgmt (id : Nat) (f : Launch → Launch) : (s.modLaunch id f).mgmt = s.mgmt := rfl

@[simp] theorem State.modDen_sched (n : Nat) (f : Den → Den) : (s.modDen n f).sched = s.sched := rfl
@[simp] theorem State.modDen_clock (n : Nat) (f : Den → Den) : (s.modDen n f).clock = s.clock := rfl
@[simp] theorem State.modDen_mem (n : Nat) (f : Den → Den) : (s.modDen n f).mem = s.mem := rfl
@[simp] theorem State.modDen_teams (n : Nat) (f : Den → Den) : (s.modDen n f).teams = s.teams := rfl
@[simp] theorem State.modDen_eng (n : Nat) (f : Den → Den) : (s.modDen n f).eng = s.eng := rfl
@[simp] theorem State.modDen_parts (n : Nat) (f : Den → Den) : (s.modDen n f).parts = s.parts := rfl
@[simp] theorem State.modDen_fab (n : Nat) (f : Den → Den) : (s.modDen n f).fab = s.fab := rfl
@[simp] theorem State.modDen_coll (n : Nat) (f : Den → Den) : (s.modDen n f).coll = s.coll := rfl
@[simp] theorem State.modDen_guest (n : Nat) (f : Den → Den) : (s.modDen n f).guest = s.guest := rfl
@[simp] theorem State.modDen_mgmt (n : Nat) (f : Den → Den) : (s.modDen n f).mgmt = s.mgmt := rfl

@[simp] theorem State.modFeedq_sched (n : Nat) (f : FeedQ → FeedQ) : (s.modFeedq n f).sched = s.sched := rfl
@[simp] theorem State.modFeedq_clock (n : Nat) (f : FeedQ → FeedQ) : (s.modFeedq n f).clock = s.clock := rfl
@[simp] theorem State.modFeedq_mem (n : Nat) (f : FeedQ → FeedQ) : (s.modFeedq n f).mem = s.mem := rfl
@[simp] theorem State.modFeedq_teams (n : Nat) (f : FeedQ → FeedQ) : (s.modFeedq n f).teams = s.teams := rfl
@[simp] theorem State.modFeedq_eng (n : Nat) (f : FeedQ → FeedQ) : (s.modFeedq n f).eng = s.eng := rfl
@[simp] theorem State.modFeedq_parts (n : Nat) (f : FeedQ → FeedQ) : (s.modFeedq n f).parts = s.parts := rfl
@[simp] theorem State.modFeedq_fab (n : Nat) (f : FeedQ → FeedQ) : (s.modFeedq n f).fab = s.fab := rfl
@[simp] theorem State.modFeedq_coll (n : Nat) (f : FeedQ → FeedQ) : (s.modFeedq n f).coll = s.coll := rfl
@[simp] theorem State.modFeedq_guest (n : Nat) (f : FeedQ → FeedQ) : (s.modFeedq n f).guest = s.guest := rfl
@[simp] theorem State.modFeedq_mgmt (n : Nat) (f : FeedQ → FeedQ) : (s.modFeedq n f).mgmt = s.mgmt := rfl

@[simp] theorem State.modBox_sched (n : Nat) (f : Mailbox → Mailbox) : (s.modBox n f).sched = s.sched := rfl
@[simp] theorem State.modBox_clock (n : Nat) (f : Mailbox → Mailbox) : (s.modBox n f).clock = s.clock := rfl
@[simp] theorem State.modBox_mem (n : Nat) (f : Mailbox → Mailbox) : (s.modBox n f).mem = s.mem := rfl
@[simp] theorem State.modBox_teams (n : Nat) (f : Mailbox → Mailbox) : (s.modBox n f).teams = s.teams := rfl
@[simp] theorem State.modBox_eng (n : Nat) (f : Mailbox → Mailbox) : (s.modBox n f).eng = s.eng := rfl
@[simp] theorem State.modBox_parts (n : Nat) (f : Mailbox → Mailbox) : (s.modBox n f).parts = s.parts := rfl
@[simp] theorem State.modBox_fab (n : Nat) (f : Mailbox → Mailbox) : (s.modBox n f).fab = s.fab := rfl
@[simp] theorem State.modBox_coll (n : Nat) (f : Mailbox → Mailbox) : (s.modBox n f).coll = s.coll := rfl
@[simp] theorem State.modBox_guest (n : Nat) (f : Mailbox → Mailbox) : (s.modBox n f).guest = s.guest := rfl
@[simp] theorem State.modBox_mgmt (n : Nat) (f : Mailbox → Mailbox) : (s.modBox n f).mgmt = s.mgmt := rfl

@[simp] theorem State.modReq_sched (n : Nat) (f : FabReq → FabReq) : (s.modReq n f).sched = s.sched := rfl
@[simp] theorem State.modReq_clock (n : Nat) (f : FabReq → FabReq) : (s.modReq n f).clock = s.clock := rfl
@[simp] theorem State.modReq_mem (n : Nat) (f : FabReq → FabReq) : (s.modReq n f).mem = s.mem := rfl
@[simp] theorem State.modReq_teams (n : Nat) (f : FabReq → FabReq) : (s.modReq n f).teams = s.teams := rfl
@[simp] theorem State.modReq_eng (n : Nat) (f : FabReq → FabReq) : (s.modReq n f).eng = s.eng := rfl
@[simp] theorem State.modReq_front (n : Nat) (f : FabReq → FabReq) : (s.modReq n f).front = s.front := rfl
@[simp] theorem State.modReq_parts (n : Nat) (f : FabReq → FabReq) : (s.modReq n f).parts = s.parts := rfl
@[simp] theorem State.modReq_coll (n : Nat) (f : FabReq → FabReq) : (s.modReq n f).coll = s.coll := rfl
@[simp] theorem State.modReq_guest (n : Nat) (f : FabReq → FabReq) : (s.modReq n f).guest = s.guest := rfl
@[simp] theorem State.modReq_mgmt (n : Nat) (f : FabReq → FabReq) : (s.modReq n f).mgmt = s.mgmt := rfl

@[simp] theorem State.putRegion_sched (n : Nat) (x : Region) : (s.putRegion n x).sched = s.sched := rfl
@[simp] theorem State.putRegion_clock (n : Nat) (x : Region) : (s.putRegion n x).clock = s.clock := rfl
@[simp] theorem State.putRegion_mem (n : Nat) (x : Region) : (s.putRegion n x).mem = s.mem := rfl
@[simp] theorem State.putRegion_teams (n : Nat) (x : Region) : (s.putRegion n x).teams = s.teams := rfl
@[simp] theorem State.putRegion_eng (n : Nat) (x : Region) : (s.putRegion n x).eng = s.eng := rfl
@[simp] theorem State.putRegion_front (n : Nat) (x : Region) : (s.putRegion n x).front = s.front := rfl
@[simp] theorem State.putRegion_parts (n : Nat) (x : Region) : (s.putRegion n x).parts = s.parts := rfl
@[simp] theorem State.putRegion_coll (n : Nat) (x : Region) : (s.putRegion n x).coll = s.coll := rfl
@[simp] theorem State.putRegion_guest (n : Nat) (x : Region) : (s.putRegion n x).guest = s.guest := rfl
@[simp] theorem State.putRegion_mgmt (n : Nat) (x : Region) : (s.putRegion n x).mgmt = s.mgmt := rfl

@[simp] theorem State.putStream_sched (x : Stream) : (s.putStream x).sched = s.sched := rfl
@[simp] theorem State.putStream_clock (x : Stream) : (s.putStream x).clock = s.clock := rfl
@[simp] theorem State.putStream_mem (x : Stream) : (s.putStream x).mem = s.mem := rfl
@[simp] theorem State.putStream_teams (x : Stream) : (s.putStream x).teams = s.teams := rfl
@[simp] theorem State.putStream_eng (x : Stream) : (s.putStream x).eng = s.eng := rfl
@[simp] theorem State.putStream_front (x : Stream) : (s.putStream x).front = s.front := rfl
@[simp] theorem State.putStream_parts (x : Stream) : (s.putStream x).parts = s.parts := rfl
@[simp] theorem State.putStream_coll (x : Stream) : (s.putStream x).coll = s.coll := rfl
@[simp] theorem State.putStream_guest (x : Stream) : (s.putStream x).guest = s.guest := rfl
@[simp] theorem State.putStream_mgmt (x : Stream) : (s.putStream x).mgmt = s.mgmt := rfl

@[simp] theorem State.modGq_sched (n : Nat) (f : GQueue → GQueue) : (s.modGq n f).sched = s.sched := rfl
@[simp] theorem State.modGq_clock (n : Nat) (f : GQueue → GQueue) : (s.modGq n f).clock = s.clock := rfl
@[simp] theorem State.modGq_mem (n : Nat) (f : GQueue → GQueue) : (s.modGq n f).mem = s.mem := rfl
@[simp] theorem State.modGq_teams (n : Nat) (f : GQueue → GQueue) : (s.modGq n f).teams = s.teams := rfl
@[simp] theorem State.modGq_eng (n : Nat) (f : GQueue → GQueue) : (s.modGq n f).eng = s.eng := rfl
@[simp] theorem State.modGq_front (n : Nat) (f : GQueue → GQueue) : (s.modGq n f).front = s.front := rfl
@[simp] theorem State.modGq_parts (n : Nat) (f : GQueue → GQueue) : (s.modGq n f).parts = s.parts := rfl
@[simp] theorem State.modGq_fab (n : Nat) (f : GQueue → GQueue) : (s.modGq n f).fab = s.fab := rfl
@[simp] theorem State.modGq_coll (n : Nat) (f : GQueue → GQueue) : (s.modGq n f).coll = s.coll := rfl
@[simp] theorem State.modGq_mgmt (n : Nat) (f : GQueue → GQueue) : (s.modGq n f).mgmt = s.mgmt := rfl

@[simp] theorem State.modDie_sched (n : Nat) (f : DieClock → DieClock) : (s.modDie n f).sched = s.sched := rfl
@[simp] theorem State.modDie_mem (n : Nat) (f : DieClock → DieClock) : (s.modDie n f).mem = s.mem := rfl
@[simp] theorem State.modDie_teams (n : Nat) (f : DieClock → DieClock) : (s.modDie n f).teams = s.teams := rfl
@[simp] theorem State.modDie_eng (n : Nat) (f : DieClock → DieClock) : (s.modDie n f).eng = s.eng := rfl
@[simp] theorem State.modDie_front (n : Nat) (f : DieClock → DieClock) : (s.modDie n f).front = s.front := rfl
@[simp] theorem State.modDie_parts (n : Nat) (f : DieClock → DieClock) : (s.modDie n f).parts = s.parts := rfl
@[simp] theorem State.modDie_fab (n : Nat) (f : DieClock → DieClock) : (s.modDie n f).fab = s.fab := rfl
@[simp] theorem State.modDie_coll (n : Nat) (f : DieClock → DieClock) : (s.modDie n f).coll = s.coll := rfl
@[simp] theorem State.modDie_guest (n : Nat) (f : DieClock → DieClock) : (s.modDie n f).guest = s.guest := rfl
@[simp] theorem State.modDie_mgmt (n : Nat) (f : DieClock → DieClock) : (s.modDie n f).mgmt = s.mgmt := rfl

@[simp] theorem State.modRail_sched (n : Nat) (f : Rail → Rail) : (s.modRail n f).sched = s.sched := rfl
@[simp] theorem State.modRail_clock (n : Nat) (f : Rail → Rail) : (s.modRail n f).clock = s.clock := rfl
@[simp] theorem State.modRail_mem (n : Nat) (f : Rail → Rail) : (s.modRail n f).mem = s.mem := rfl
@[simp] theorem State.modRail_teams (n : Nat) (f : Rail → Rail) : (s.modRail n f).teams = s.teams := rfl
@[simp] theorem State.modRail_eng (n : Nat) (f : Rail → Rail) : (s.modRail n f).eng = s.eng := rfl
@[simp] theorem State.modRail_front (n : Nat) (f : Rail → Rail) : (s.modRail n f).front = s.front := rfl
@[simp] theorem State.modRail_parts (n : Nat) (f : Rail → Rail) : (s.modRail n f).parts = s.parts := rfl
@[simp] theorem State.modRail_fab (n : Nat) (f : Rail → Rail) : (s.modRail n f).fab = s.fab := rfl
@[simp] theorem State.modRail_coll (n : Nat) (f : Rail → Rail) : (s.modRail n f).coll = s.coll := rfl
@[simp] theorem State.modRail_guest (n : Nat) (f : Rail → Rail) : (s.modRail n f).guest = s.guest := rfl

@[simp] theorem State.modOptic_sched (n : Nat) (f : Optic → Optic) : (s.modOptic n f).sched = s.sched := rfl
@[simp] theorem State.modOptic_clock (n : Nat) (f : Optic → Optic) : (s.modOptic n f).clock = s.clock := rfl
@[simp] theorem State.modOptic_mem (n : Nat) (f : Optic → Optic) : (s.modOptic n f).mem = s.mem := rfl
@[simp] theorem State.modOptic_teams (n : Nat) (f : Optic → Optic) : (s.modOptic n f).teams = s.teams := rfl
@[simp] theorem State.modOptic_eng (n : Nat) (f : Optic → Optic) : (s.modOptic n f).eng = s.eng := rfl
@[simp] theorem State.modOptic_front (n : Nat) (f : Optic → Optic) : (s.modOptic n f).front = s.front := rfl
@[simp] theorem State.modOptic_parts (n : Nat) (f : Optic → Optic) : (s.modOptic n f).parts = s.parts := rfl
@[simp] theorem State.modOptic_fab (n : Nat) (f : Optic → Optic) : (s.modOptic n f).fab = s.fab := rfl
@[simp] theorem State.modOptic_coll (n : Nat) (f : Optic → Optic) : (s.modOptic n f).coll = s.coll := rfl
@[simp] theorem State.modOptic_guest (n : Nat) (f : Optic → Optic) : (s.modOptic n f).guest = s.guest := rfl

@[simp] theorem State.modTarget_sched (n : Nat) (f : Target → Target) : (s.modTarget n f).sched = s.sched := rfl
@[simp] theorem State.modTarget_clock (n : Nat) (f : Target → Target) : (s.modTarget n f).clock = s.clock := rfl
@[simp] theorem State.modTarget_mem (n : Nat) (f : Target → Target) : (s.modTarget n f).mem = s.mem := rfl
@[simp] theorem State.modTarget_teams (n : Nat) (f : Target → Target) : (s.modTarget n f).teams = s.teams := rfl
@[simp] theorem State.modTarget_eng (n : Nat) (f : Target → Target) : (s.modTarget n f).eng = s.eng := rfl
@[simp] theorem State.modTarget_front (n : Nat) (f : Target → Target) : (s.modTarget n f).front = s.front := rfl
@[simp] theorem State.modTarget_parts (n : Nat) (f : Target → Target) : (s.modTarget n f).parts = s.parts := rfl
@[simp] theorem State.modTarget_fab (n : Nat) (f : Target → Target) : (s.modTarget n f).fab = s.fab := rfl
@[simp] theorem State.modTarget_coll (n : Nat) (f : Target → Target) : (s.modTarget n f).coll = s.coll := rfl
@[simp] theorem State.modTarget_guest (n : Nat) (f : Target → Target) : (s.modTarget n f).guest = s.guest := rfl

@[simp] theorem State.setStage_sched (n : Nat) : (s.setStage n).sched = s.sched := rfl
@[simp] theorem State.setStage_clock (n : Nat) : (s.setStage n).clock = s.clock := rfl
@[simp] theorem State.setStage_mem (n : Nat) : (s.setStage n).mem = s.mem := rfl
@[simp] theorem State.setStage_teams (n : Nat) : (s.setStage n).teams = s.teams := rfl
@[simp] theorem State.setStage_eng (n : Nat) : (s.setStage n).eng = s.eng := rfl
@[simp] theorem State.setStage_front (n : Nat) : (s.setStage n).front = s.front := rfl
@[simp] theorem State.setStage_parts (n : Nat) : (s.setStage n).parts = s.parts := rfl
@[simp] theorem State.setStage_fab (n : Nat) : (s.setStage n).fab = s.fab := rfl
@[simp] theorem State.setStage_coll (n : Nat) : (s.setStage n).coll = s.coll := rfl
@[simp] theorem State.setStage_guest (n : Nat) : (s.setStage n).guest = s.guest := rfl

@[simp] theorem State.modGrp_sched (i : Issuer) (f : Grp → Grp) : (s.modGrp i f).sched = s.sched := State.modTeam_sched s i.team _
@[simp] theorem State.modGrp_clock (i : Issuer) (f : Grp → Grp) : (s.modGrp i f).clock = s.clock := State.modTeam_clock s i.team _
@[simp] theorem State.modGrp_mem (i : Issuer) (f : Grp → Grp) : (s.modGrp i f).mem = s.mem := State.modTeam_mem s i.team _
@[simp] theorem State.modGrp_eng (i : Issuer) (f : Grp → Grp) : (s.modGrp i f).eng = s.eng := State.modTeam_eng s i.team _
@[simp] theorem State.modGrp_front (i : Issuer) (f : Grp → Grp) : (s.modGrp i f).front = s.front := State.modTeam_front s i.team _
@[simp] theorem State.modGrp_parts (i : Issuer) (f : Grp → Grp) : (s.modGrp i f).parts = s.parts := State.modTeam_parts s i.team _
@[simp] theorem State.modGrp_fab (i : Issuer) (f : Grp → Grp) : (s.modGrp i f).fab = s.fab := State.modTeam_fab s i.team _
@[simp] theorem State.modGrp_coll (i : Issuer) (f : Grp → Grp) : (s.modGrp i f).coll = s.coll := State.modTeam_coll s i.team _
@[simp] theorem State.modGrp_guest (i : Issuer) (f : Grp → Grp) : (s.modGrp i f).guest = s.guest := State.modTeam_guest s i.team _
@[simp] theorem State.modGrp_mgmt (i : Issuer) (f : Grp → Grp) : (s.modGrp i f).mgmt = s.mgmt := State.modTeam_mgmt s i.team _

/-! ## Time passes -/

/-- A step's number and its ns: nothing but the schedule, TIME and Genmon's count changes. -/
theorem State.tick_eq : s.tick = { s with
    sched := { s.sched with steps := s.sched.steps + 1, cur := none }, clock := s.tick.clock,
    mgmt := { s.mgmt with now := s.mgmt.now + Config.elapsed (s.sched.steps + 1) } } := rfl

/-- At half rate no ns is lost: what counts and what is left over make up what passed (R12). -/
theorem advance_exact (lead half e : Nat) :
    (lead = 0 → advance lead half e = (e, 0, 0)) ∧
    (0 < lead → e + half < 2 * lead → advance lead half e = ((e + half) / 2, lead - (e + half) / 2, (e + half) % 2)) ∧
    (0 < lead → 2 * lead ≤ e + half → advance lead half e = (e + half - lead, 0, 0)) := by
  refine ⟨fun h => by simp [advance, h], fun h g => ?_, fun h g => ?_⟩
  · simp [advance, Nat.pos_iff_ne_zero.mp h, Nat.not_le.mpr g]
  · simp [advance, Nat.pos_iff_ne_zero.mp h, g]

end Sys2Proof.Machine
end

