-- ==== Sys2Proof/Laws/Writes.lean ====
section
/-! SUPPORT. What register writes and the retirement of an instruction do to the issuing team. -/
namespace Sys2Proof.Machine

/-- What one write does to a thread's registers. -/
def Thread.wrote (th : Thread) : RegWrite → Thread
  | .v tid n x => if th.tid = tid then th.setV n x else th
  | .c tid n x => if th.tid = tid then th.setC n x else th
  | .k tid n x => if th.tid = tid then th.setK n x else th
  | .s _ _ => th

/-- What one write does to the scalar registers of record n. -/
def Grp.wrote (g : Grp) : RegWrite → Grp
  | .s n x => g.setS n x
  | _ => g

@[simp] theorem Thread.wrote_tid (th : Thread) (w : RegWrite) : (th.wrote w).tid = th.tid := by
  cases w <;> simp only [Thread.wrote] <;> (try split) <;> simp

@[simp] theorem Grp.wrote_recno (g : Grp) (w : RegWrite) : (g.wrote w).recno = g.recno := by cases w <;> rfl

theorem Team.applyWrite_threads (t : Team) (n : Nat) (w : RegWrite) :
    (t.applyWrite n w).threads = t.threads.map (·.wrote w) := by
  cases w <;> simp [Team.applyWrite, Team.modThread, Team.modThreads, Thread.wrote]

theorem Team.applyWrite_rest (t : Team) (n : Nat) (w : RegWrite) :
    t.applyWrite n w = { t with threads := (t.applyWrite n w).threads, grps := (t.applyWrite n w).grps } := by
  cases w <;> rfl

theorem Team.applyWrite_grp?_same (t : Team) (n : Nat) (w : RegWrite) :
    (t.applyWrite n w).grp? n = (t.grp? n).map (·.wrote w) := by
  cases w with
  | s m x => exact Team.grp?_modGrp_same t n (·.setS m x) fun _ => rfl
  | v tid m x => simp [Team.applyWrite, Team.modThread, Grp.wrote]
  | c tid m x => simp [Team.applyWrite, Team.modThread, Grp.wrote]
  | k tid m x => simp [Team.applyWrite, Team.modThread, Grp.wrote]

theorem Team.applyWrite_grp?_other (t : Team) {n k : Nat} (w : RegWrite) (h : k ≠ n) :
    (t.applyWrite n w).grp? k = t.grp? k := by
  cases w with
  | s m x => exact Team.grp?_modGrp_other t n (·.setS m x) (fun _ => rfl) h
  | v tid m x => simp [Team.applyWrite, Team.modThread]
  | c tid m x => simp [Team.applyWrite, Team.modThread]
  | k tid m x => simp [Team.applyWrite, Team.modThread]

/-- One write changes nothing of a thread but its registers, and the zero mark of a block written. -/
theorem Thread.wrote_rest (th : Thread) (w : RegWrite) :
    ∃ a l b c, th.wrote w = { th with v := a, live := l, c := b, k := c } := by
  cases w <;> simp only [Thread.wrote, Thread.setK, Thread.setV, Thread.setC] <;> (repeat' split) <;> exact ⟨_, _, _, _, rfl⟩

/-- One write clears the zero mark of the block it is in. -/
theorem Thread.wrote_live (th : Thread) (w : RegWrite) (k : Nat) :
    (th.wrote w).live.contains k = (th.live.contains k || Claim.inBlock th.tid k w) := by
  cases w with
  | v t n x =>
    by_cases ht : th.tid = t
    · subst ht
      simp only [Thread.wrote, if_true, Thread.setV, Claim.inBlock, beq_self_eq_true, Bool.true_and]
      by_cases hk : n / 32 = k
      · subst hk; split <;> simp_all
      · split <;> simp [hk, Ne.symm hk]
    · simp [Thread.wrote, ht, Claim.inBlock, Ne.symm ht]
  | c t n x => simp only [Thread.wrote, Claim.inBlock, Bool.or_false]; split <;> rfl
  | k t n x => simp only [Thread.wrote, Thread.setK, Claim.inBlock, Bool.or_false]; split_ifs <;> rfl
  | s n x => simp [Thread.wrote, Claim.inBlock]

def Thread.wroteAll (th : Thread) (ws : List RegWrite) : Thread := ws.foldl (·.wrote ·) th
def Grp.wroteAll (g : Grp) (ws : List RegWrite) : Grp := ws.foldl (·.wrote ·) g

@[simp] theorem Thread.wroteAll_tid (th : Thread) (ws : List RegWrite) : (th.wroteAll ws).tid = th.tid := by
  induction ws generalizing th with
  | nil => rfl
  | cons w r ih => simpa [Thread.wroteAll] using ih (th.wrote w)

@[simp] theorem Grp.wroteAll_recno (g : Grp) (ws : List RegWrite) : (g.wroteAll ws).recno = g.recno := by
  induction ws generalizing g with
  | nil => rfl
  | cons w r ih => simpa [Grp.wroteAll] using ih (g.wrote w)

theorem Team.applyWrites_threads (t : Team) (n : Nat) (ws : List RegWrite) :
    (t.applyWrites n ws).threads = t.threads.map (·.wroteAll ws) := by
  induction ws generalizing t with
  | nil => simp [Team.applyWrites, Thread.wroteAll]
  | cons w r ih =>
    have := ih (t.applyWrite n w)
    simpa [Team.applyWrites, Thread.wroteAll, Team.applyWrite_threads, Function.comp_def] using this

theorem Team.applyWrites_rest (t : Team) (n : Nat) (ws : List RegWrite) :
    ∃ ths gs, t.applyWrites n ws = { t with threads := ths, grps := gs } := by
  induction ws generalizing t with
  | nil => exact ⟨_, _, rfl⟩
  | cons w r ih =>
    obtain ⟨ths, gs, h⟩ := ih (t.applyWrite n w)
    refine ⟨ths, gs, ?_⟩
    show (t.applyWrite n w).applyWrites n r = _
    rw [h, Team.applyWrite_rest]

theorem Team.applyWrites_grp?_same (t : Team) (n : Nat) (ws : List RegWrite) :
    (t.applyWrites n ws).grp? n = (t.grp? n).map (·.wroteAll ws) := by
  induction ws generalizing t with
  | nil => simp [Team.applyWrites, Grp.wroteAll]
  | cons w r ih =>
    have h := ih (t.applyWrite n w)
    rw [Team.applyWrite_grp?_same, Option.map_map] at h
    exact h

theorem Team.applyWrites_grp?_other (t : Team) {n k : Nat} (ws : List RegWrite) (h : k ≠ n) :
    (t.applyWrites n ws).grp? k = t.grp? k := by
  induction ws generalizing t with
  | nil => rfl
  | cons w r ih => exact (ih (t.applyWrite n w)).trans (Team.applyWrite_grp?_other t w h)

/-- Only registers of a thread change, to the last value written. -/
theorem Thread.wroteAll_after (ws : List RegWrite) (th : Thread) : Claim.ThreadAfter ws th (th.wroteAll ws) := by
  induction ws generalizing th with
  | nil => exact ⟨rfl, fun _ => by simp [Thread.wroteAll], fun _ => rfl, fun _ => rfl, fun n => by
      show th.getK n = if n = 0 then true else th.getK n
      split_ifs with h <;> simp [h]⟩
  | cons w r ih =>
    obtain ⟨h1, hl, h2, h3, h4⟩ := ih (th.wrote w)
    rw [Thread.wrote_tid] at hl h2 h3 h4
    refine ⟨?_, fun n => (hl n).trans ?_, fun n => (h2 n).trans ?_, fun n => (h3 n).trans ?_, fun n => (h4 n).trans ?_⟩
    · show (th.wrote w).wroteAll r = _
      rw [h1]
      have e : (th.wroteAll (w :: r)) = (th.wrote w).wroteAll r := rfl
      rw [e, h1]
      obtain ⟨a, l, b, c, hw⟩ := Thread.wrote_rest th w
      rw [hw]
    · rw [Thread.wrote_live, List.any_cons, Bool.or_assoc]
    · show Claim.lastV r _ n _ = Claim.lastV r _ n _
      congr 1
      cases w with
      | v t m x =>
        by_cases ht : th.tid = t
        · by_cases hm : m = n
          · subst hm; simp [Thread.wrote, ht]
          · simp [Thread.wrote, ht, hm, Thread.getV_setV_other _ x (Ne.symm hm)]
        · simp [Thread.wrote, ht, Ne.symm ht]
      | c t m x => simp only [Thread.wrote]; split <;> rfl
      | k t m x => simp only [Thread.wrote, Thread.setK]; split_ifs <;> rfl
      | s m x => rfl
    · show Claim.lastC r _ n _ = Claim.lastC r _ n _
      congr 1
      cases w with
      | c t m x =>
        by_cases ht : th.tid = t
        · by_cases hm : m = n
          · subst hm; simp [Thread.wrote, ht]
          · simp [Thread.wrote, ht, hm, Thread.getC_setC_other _ x (Ne.symm hm)]
        · simp [Thread.wrote, ht, Ne.symm ht]
      | v t m x => simp only [Thread.wrote]; split <;> rfl
      | k t m x => simp only [Thread.wrote, Thread.setK]; split_ifs <;> rfl
      | s m x => rfl
    · by_cases hn : n = 0
      · simp [hn]
      · simp only [hn, if_false]
        show Claim.lastK r _ n _ = Claim.lastK r _ n _
        congr 1
        cases w with
        | k t m x =>
          by_cases ht : th.tid = t
          · by_cases hm : m = n
            · subst hm; simp [Thread.wrote, ht, Thread.getK_setK _ x hn]
            · simp [Thread.wrote, ht, hm, Thread.getK_setK_other _ x (Ne.symm hm)]
          · simp [Thread.wrote, ht, Ne.symm ht]
        | v t m x => simp only [Thread.wrote]; split <;> rfl
        | c t m x => simp only [Thread.wrote]; split <;> rfl
        | s m x => rfl

theorem Grp.wroteAll_after (ws : List RegWrite) (g : Grp) :
    g.wroteAll ws = { g with s := (g.wroteAll ws).s } ∧ ∀ n, (g.wroteAll ws).getS n = Claim.lastS ws n (g.getS n) := by
  induction ws generalizing g with
  | nil => exact ⟨rfl, fun _ => rfl⟩
  | cons w r ih =>
    obtain ⟨h1, h2⟩ := ih (g.wrote w)
    refine ⟨?_, fun n => (h2 n).trans ?_⟩
    · show (g.wrote w).wroteAll r = _
      rw [h1]
      cases w <;> rfl
    · show Claim.lastS r n _ = Claim.lastS r n _
      congr 1
      cases w with
      | s m x =>
        by_cases hm : m = n
        · subst hm; simp [Grp.wrote]
        · simp [Grp.wrote, hm, Grp.getS_setS_other _ x (Ne.symm hm)]
      | v t m x => rfl
      | c t m x => rfl
      | k t m x => rfl

theorem nth_eq_getD {α : Type} (d : α) (xs : List α) (n : Nat) : nth d xs n = xs.getD n d := by
  induction xs generalizing n with
  | nil => rfl
  | cons x r ih => cases n with
    | zero => rfl
    | succ n => simpa [nth] using ih n

theorem modNth_eq_map {α : Type} (d y : α) (xs : List α) (n : Nat) :
    modNth (fun _ => y) xs n = (List.range xs.length).map fun j => if j = n then y else xs.getD j d := by
  apply List.ext_getElem
  · simp
  · intro j h1 h2
    have hj : j < xs.length := by simpa using h2
    simp only [List.getElem_map, List.getElem_range, List.getD_eq_getElem?_getD, List.getElem?_eq_getElem hj, Option.getD_some]
    clear h2
    induction xs generalizing j n with
    | nil => simp at hj
    | cons x r ih =>
      cases n with
      | zero => cases j <;> simp [modNth]
      | succ n => cases j with
        | zero => simp [modNth]
        | succ j => simpa [modNth] using ih n j (by simpa [modNth] using h1) (by simpa using hj)

/-- A special register read by the model is the one R41 names. -/
theorem View.special_eq (v : View) (th : Option Thread) (r : Special) : v.special th r = Claim.special v th r := by
  cases r <;> cases th <;> simp [View.special, Claim.special, nth_eq_getD, clusterOf, dieOf, State.fslot, State.fcyc, State.slotCount]

/-- An operand read by the model is the one R38 to R44 name. -/
theorem View.read_eq_operand (v : View) (o : Opnds) (ty : Ty) (sp : Spec) (th : Option Thread) :
    v.read o ty th sp = Claim.operand v o ty sp th := by
  have hw : ty.wide = decide (ty.width = 64) := by cases ty <;> rfl
  cases sp with
  | sp r => simp [View.read, Claim.operand, View.special_eq]
  | imm => cases ty <;>
      simp [View.read, Claim.operand, Claim.immOperand, immValue, BitVec.signExtend, BitVec.toNat_ofInt] <;> omega
  | v n => cases th <;> simp [View.read, Claim.operand, pairOf, hw]
  | c n => cases th <;> simp [View.read, Claim.operand, pairOf, hw]
  | k n => cases th with
    | none => rfl
    | some x =>
      simp only [View.read, Claim.operand]
      by_cases h : n.val = 0
      · simp [h]
      · cases hk : x.getK n.val <;> simp [h]
  | l n => cases th <;> simp [View.read, Claim.operand, nth_eq_getD]
  | s n => rfl
  | zero => rfl

/-- The latches after an instruction are those of R43. -/
theorem View.hold_eq_latches (v : View) (i : Instr) (o : Opnds) : v.hold i o = Claim.latches v i o := by
  have keep : v.cl.latches = (List.range v.cl.latches.length).map fun j =>
      if j = v.cl.pos % 3 then v.cl.latches.getD j ⟨0, []⟩ else v.cl.latches.getD j ⟨0, []⟩ := by
    apply List.ext_getElem
    · simp
    · intro j h1 h2
      simp [List.getElem?_eq_getElem h1]
  unfold View.hold Claim.latches
  cases o.hold with
  | none => exact keep
  | sa | sb | sc => simp only [View.read_eq_operand, modNth_eq_map (⟨0, []⟩ : Latch)]

/-- The clause after an instruction is the one R28, R34 and R43 give. -/
theorem View.advance_eq (v : View) (i : Instr) (o : Opnds) (c : Clause) (term : Option Terminal)
    (h : c = { v.cl with term := term }) : v.advance i o c = Claim.clauseAfter v i o term := by
  subst h
  unfold View.advance Claim.clauseAfter
  rw [View.hold_eq_latches]
  cases o.fl <;> simp

/-- What retirement leaves of a record. -/
theorem Grp.onward_after {v : View} {g : Grp} {c : Clause} (h : g = { v.grp with s := g.s, clause := g.clause }) (i : Instr) (o : Opnds)
    (hc : g.clause.map (v.advance i o) = some c) :
    g.onward v i o = { v.grp with
      s := g.s, warn := if fallback i then v.grp.warn ||| 1 else v.grp.warn, flight := Claim.flight v i o, clause := some c } := by
  have hf : g.flight = v.grp.flight := by rw [h]
  have hg : g.flags = v.grp.flags := by rw [h]
  have hw : g.warn = v.grp.warn := by rw [h]
  have e : (if !v.any o && o.fl.any (fun f => g.flag f != 0) then (g.fly (written i o) o.fl).flight else g.flight) =
      Claim.flight v i o := by
    unfold Claim.flight
    cases o.fl with
    | none => simp [hf]
    | some f =>
      by_cases h1 : v.any o = false <;> by_cases h2 : nth 0 v.grp.flags f.val = 0 <;> simp [Grp.fly, Grp.flag, hf, hg, h1, h2]
  unfold Grp.onward
  rw [e, hc]
  rw [h]
  simp [Grp.setWarn]

/-- The state after writes and retirement, said once: `Claim.After`. -/
theorem retire_writes_after {s : State} {v : View} (h : s.view? = some v) (i : Instr) (o : Opnds) (ws : List RegWrite) :
    Claim.After s ((s.applyWrites v.iss ws).retire v i o) v i o ws := by
  obtain ⟨_, hv⟩ := Option.bind_eq_some_iff.mp h
  obtain ⟨hs, hi, ht, hg, hc⟩ := View.of_spec hv.2
  rw [← hi] at ht hg
  refine ⟨⟨?_, fun k hk => ?_⟩, ?_⟩
  · unfold State.retire State.modGrp State.applyWrites
    rw [State.modTeam_eq (s.modTeam _ _), State.modTeam_eq s]
  · unfold State.retire State.modGrp State.applyWrites
    rw [State.modTeam_find_other _ _ _ hk, State.modTeam_find_other _ _ _ hk]
  · refine ⟨_, by simp [State.retire, State.modGrp, State.applyWrites, ht]; rfl, ?_, ?_, ?_, ?_, ?_⟩
    · obtain ⟨ths, gs, h⟩ := Team.applyWrites_rest v.team v.iss.recno ws
      rw [h]; rfl
    · simp [Team.applyWrites_threads, Function.comp_def]
    · intro th hth
      refine ⟨th.wroteAll ws, ?_, Thread.wroteAll_after ws th⟩
      simp only [Team.modGrp_threads, Team.applyWrites_threads]
      exact List.mem_map_of_mem hth
    · intro n hn
      rw [Team.grp?_modGrp_other _ _ (fun g => g.onward v i o) (fun _ => rfl) hn, Team.applyWrites_grp?_other _ _ hn]
    · refine ⟨_, by rw [Team.grp?_modGrp_same _ _ (fun g => g.onward v i o) (fun _ => rfl),
        Team.applyWrites_grp?_same, hg]; rfl, ?_, ?_⟩
      · have e := (Grp.wroteAll_after ws v.grp).1
        have e2 : (v.grp.wroteAll ws).clause = some v.cl := by rw [e]; exact hc
        exact Grp.onward_after (g := v.grp.wroteAll ws) (by conv_lhs => rw [e]
                                                            rw [e2, hc]) i o (by rw [e2]; exact congrArg some (v.advance_eq i o _ _ rfl))
      · exact (Grp.wroteAll_after ws v.grp).2

/-- The state after writes, the capture of a terminal instruction and retirement. -/
theorem retire_capture_after {s : State} {v : View} (h : s.view? = some v) (i : Instr) (o : Opnds) (ws : List RegWrite)
    (T : Terminal) : Claim.AfterTerm s ((v.capture (s.applyWrites v.iss ws) T).retire v i o) v i o ws (some T) := by
  obtain ⟨_, hv⟩ := Option.bind_eq_some_iff.mp h
  obtain ⟨hs, hi, ht, hg, hc⟩ := View.of_spec hv.2
  rw [← hi] at ht hg
  let cap : Grp → Grp := fun g => { g with clause := g.clause.map fun c => { c with term := some T } }
  refine ⟨⟨?_, fun k hk => ?_⟩, ?_⟩
  · unfold State.retire View.capture State.modGrp State.applyWrites
    rw [State.modTeam_eq ((s.modTeam _ _).modTeam _ _), State.modTeam_eq (s.modTeam _ _), State.modTeam_eq s]
  · unfold State.retire View.capture State.modGrp State.applyWrites
    rw [State.modTeam_find_other _ _ _ hk, State.modTeam_find_other _ _ _ hk, State.modTeam_find_other _ _ _ hk]
  · refine ⟨_, by simp [State.retire, View.capture, State.modGrp, State.applyWrites, ht]; rfl, ?_, ?_, ?_, ?_, ?_⟩
    · obtain ⟨ths, gs, h⟩ := Team.applyWrites_rest v.team v.iss.recno ws
      rw [h]; rfl
    · simp [Team.applyWrites_threads, Function.comp_def]
    · intro th hth
      refine ⟨th.wroteAll ws, ?_, Thread.wroteAll_after ws th⟩
      simp only [Team.modGrp_threads, Team.applyWrites_threads]
      exact List.mem_map_of_mem hth
    · intro n hn
      rw [Team.grp?_modGrp_other _ _ (fun g => g.onward v i o) (fun _ => rfl) hn,
        Team.grp?_modGrp_other _ _ cap (fun _ => rfl) hn, Team.applyWrites_grp?_other _ _ hn]
    · refine ⟨_, by rw [Team.grp?_modGrp_same _ _ (fun g => g.onward v i o) (fun _ => rfl),
        Team.grp?_modGrp_same _ _ cap (fun _ => rfl), Team.applyWrites_grp?_same, hg]; rfl, ?_, ?_⟩
      · have e := (Grp.wroteAll_after ws v.grp).1
        have e2 : (v.grp.wroteAll ws).clause = some v.cl := by rw [e]; exact hc
        exact Grp.onward_after (g := cap (v.grp.wroteAll ws)) (by
          conv_lhs => rw [e]
          simp only [cap, e2, hc]) i o (by simp only [cap, e2]; exact congrArg some (v.advance_eq i o _ _ rfl))
      · exact (Grp.wroteAll_after ws v.grp).2

end Sys2Proof.Machine
end

