-- ==== Sys2Proof/Tests/Slice0.lean ====
section
/-! SUPPORT. Tests: well-formedness, decoding, single steps on small states, and a witness for each statement that has hypotheses. -/
namespace Sys2Proof.Tests
set_option Elab.async false
open Sys2Proof.Machine

/-! ## A small state -/

def issuer : Issuer := ⟨⟨0, 0⟩, 0⟩
/-- The code line of virtual 0x10000: a header, and two CLENDs. -/
def codeLine : List Byte :=
  lineOf (encodeHeader { len := 3 }).toNat (encodeClend []).toNat (encodeClend []).toNat
/-- Virtual 0x20000 is a readable and writable page at physical 0x180000, whose words count from 1. -/
def pages : List (Nat × List Byte) :=
  codeCells codeLine ++ [(0x160010, leBytes 8 0x18001B), (0x180000, leBytes 4 1 ++ leBytes 4 0xFFFFFFFE ++ leBytes 4 3)]
def khdr : KHdr := { KHdr.placed with handler := 0x10000 }
def clause0 : Clause := ⟨0x10000, { len := 3 }, 1, [0, 1, 2, 3], List.replicate 3 ⟨0, []⟩, [], [], none, false, false, []⟩
/-- Four threads of record 0; v1 holds 10 + %tid, v2 holds -1, v3 holds 2, v4 and v5 the address 0x20000 + 4 %tid, k1 the threads 1 and 2. -/
def thread0 (n : Nat) : Thread :=
  { Thread.start 0 0x10000 n with v := [(1, BitVec.ofNat 32 (10 + n)), (2, 0xFFFFFFFF), (3, 2), (4, BitVec.ofNat 32 (0x20000 + 4 * n))], k := [(1, n == 1 || n == 2)] }
def grp0 : Grp := { Grp.start 0 0 0 with s := [(1, 0x20000), (2, 7), (3, 0xFFFFFFFFFFFFFFFF)], clause := some clause0 }
def team0 (g : Grp) (ths : List Thread) : Team :=
  { Team.fresh 0 ⟨0, 0⟩ 0 (.launch 1) khdr with asid := 1, launch := 1, grps := [g], threads := ths }
def mem0 : Mem := { (State.reset.mem.plain pages) with ctxs := [⟨1, 0x100000, 0, 0, false⟩] }
/-- The state of a group at the first position of a clause, with one change to its record. -/
def grpState (f : Grp → Grp) : State :=
  { State.reset with
    mem := mem0, teams := [(0, team0 (f grp0) ((List.range 4).map thread0))],
    sched := { State.reset.sched with cur := some issuer, steps := 5 }, clock := { State.reset.clock with time := 1000 } }
def state0 : State := grpState id

/-! ## Reading results -/

def after (i : Instr) (s : State) : Option State := match exec i s with | .next t => some t | _ => none
def team (t : Option State) : Option Team := t.bind (·.team? ⟨0, 0⟩)
def grp (t : Option State) : Option Grp := t.bind (·.grp? issuer)
def vreg (t : Option State) (n : Nat) : Option (List Nat) := (team t).map fun a => a.threads.map fun th => (th.getV n).toNat
def kreg (t : Option State) (n : Nat) : Option (List Bool) := (team t).map fun a => a.threads.map (·.getK n)
def sreg (t : Option State) (n : Nat) : Option Nat := (grp t).map fun g => (g.getS n).toNat
def byte (t : Option State) (a : Nat) : Option Nat := t.map fun t => (t.mem.phys.byte a).toNat
def trapCode (t : Option State) : Option Nat := (team t).bind fun a => a.fault.map (·.code)
/-- Words of class 0x0, one for each instruction, written from its row of the class table and the fields of R36. -/
theorem test_decode_control : ∀ x ∈ ([
  (0x0000000000F2400000000000#96, .nop { neg := true, pk := 1 }),
  (0xFFFFF30000F0400000000001#96, .bra { pk := 1, imm := 0xfffff3 }),
  (0x00000C0001F0000023000802#96, .brc { ty := .u64, sa := .s 12, imm := 0xc } .nz),
  (0x0000000000F0000001000803#96, .bri { ty := .u64, sa := .v 4 }),
  (0x0000110000F00000002FC804#96, .call { ty := .u64, dst := .s 63, imm := 0x11 }),
  (0x0000000000F000002FC00805#96, .ret { ty := .u64, sa := .s 63 }),
  (0x0000000001F0000000000006#96, .meet {} .clr),
  (0x0000000000F2800000000007#96, .exit { neg := true, pk := 2 }),
  (0x00000000F0F0000000C00008#96, .bar { sa := .v 3 } 15),
  (0x0000070010F0000033000009#96, .bara { sa := .imm, imm := 0x7 } 1),
  (0x0000000000F000000000000A#96, .barw {} 0),
  (0x0000000002F0000000BDCC0B#96, .vote { ty := .s64, dst := .k 7, sa := .v 2 } .uni),
  (0x0000000000F00034BCA53C0C#96, .ballot { ty := .b64, dst := .s 20, sa := .k 2, sb := .sp .grp }),
  (0x0000000001F0344072B0380D#96, .shuf { ty := .b32, dst := .c 0, sa := .l 2, sb := .v 1, sc := .sp .lane } .xor),
  (0x0000000001F000207802780E#96, .push { ty := .b32, dst := .v 9, sa := .sp .time, sb := .s 1 } .lo),
  (0x0000000000F00032C082840F#96, .rank { ty := .s32, dst := .v 10, sa := .v 2, sb := .zero } .desc),
  (0x0000000000F0000001C00010#96, .regrp { sa := .v 7 }),
  (0x0000000001F0000022400811#96, .sleep { ty := .u64, sa := .s 9 } .abs),
  (0x0000000000F0000000000012#96, .yield {})] : List (Slot × Instr)), decode x.1 = .ok x.2 ∧ encode x.2 = some x.1 ∧ WellFormed.ok x.2 = true := by decide

/-- Words of class 0x1, one for each instruction, written from its row of the class table and the fields of R36. -/
theorem test_decode_registers : ∀ x ∈ ([
  (0x0000000000F00000341FD040#96, .mov { ty := .u16, dst := .v 127, sa := .sp .tid }),
  (0x0000FF0002F000000031F841#96, .movi { ty := .b32, dst := .c 7, imm := 0xff } .top),
  (0x3F80000000F03CC0B3006842#96, .sel { ty := .f32, dst := .v 1, sa := .imm, sb := .v 2, sc := .k 3, imm := 0x3f8000 }),
  (0x00001F0000F0003301603843#96, .rdl { ty := .b32, dst := .s 0, sa := .v 5, sb := .imm, imm := 0x1f } .idx),
  (0x0000000030F0000000000044#96, .rgive {} 3),
  (0x0000000010F0000000000045#96, .rclaim {} 1),
  (0x0000000000F0000000214046#96, .rstat { dst := .s 5 }),
  (0x0000000008F0000000FC6047#96, .kset { ty := .u8, dst := .k 1, sa := .v 3 } .nz),
  (0x0000000007F0000000208848#96, .srd { ty := .u64, dst := .s 2 } .dl)] : List (Slot × Instr)), decode x.1 = .ok x.2 ∧ encode x.2 = some x.1 ∧ WellFormed.ok x.2 = true := by decide

/-- Words of class 0x2, one for each instruction, written from its row of the class table and the fields of R36. -/
theorem test_decode_integer : ∀ x ∈ ([
  (0x0001230004F0003301008C80#96, .add { ty := .s64, dst := .v 2, sa := .v 4, sb := .imm, imm := 0x123 } { sat := true }),
  (0x0000000000F00000C0806081#96, .sub { ty := .u8, dst := .v 1, sa := .v 2, sb := .v 3 } {}),
  (0x0000000000F03C81C1814082#96, .addc { dst := .v 5, sa := .v 6, sb := .v 7, sc := .k 2 } {}),
  (0x0000000000F02120E0A04883#96, .subb { ty := .u64, dst := .s 1, sa := .s 2, sb := .s 3, sc := .s 4 } {}),
  (0x0000000000F00034A5657884#96, .mul { ty := .b32, dst := .s 21, sa := .s 21, sb := .sp .grp } {}),
  (0x0000000000F00000C0804485#96, .mulh { ty := .s32, dst := .v 1, sa := .v 2, sb := .v 3 } {}),
  (0x0000000000F02234E6220886#96, .mad { ty := .u64, dst := .s 8, sa := .s 24, sb := .sp .team, sc := .s 8 } {}),
  (0x0000000000F00100C0408C87#96, .madw { ty := .s64, dst := .v 2, sa := .v 1, sb := .v 3, sc := .v 4 } {}),
  (0x0000000000F00000C0805488#96, .min { ty := .s16, dst := .v 1, sa := .v 2, sb := .v 3 } {}),
  (0x0000000000F00000C0805089#96, .max { ty := .u16, dst := .v 1, sa := .v 2, sb := .v 3 } {}),
  (0x0000000004F000000080648A#96, .abs { ty := .s8, dst := .v 1, sa := .v 2 } { sat := true }),
  (0x0000000000F0000030B0448B#96, .neg { ty := .s32, dst := .c 1, sa := .c 2 } {}),
  (0x0000000000F000018100BC8C#96, .and { ty := .b64, dst := .v 2, sa := .v 4, sb := .v 6 } {}),
  (0x0000000000F00032F200788D#96, .or { ty := .b32, dst := .v 1, sa := .l 0, sb := .zero } {}),
  (0x0000000000F000004040408E#96, .xor { dst := .v 1, sa := .v 1, sb := .v 1 } {}),
  (0x0000000000F000000080788F#96, .not { ty := .b32, dst := .v 1, sa := .v 2 } {}),
  (0x0001230004F0003300804090#96, .shl { dst := .v 1, sa := .v 2, sb := .imm, imm := 0x123 } { sat := true }),
  (0x0000000000F00000C0804491#96, .shr { ty := .s32, dst := .v 1, sa := .v 2, sb := .v 3 } {}),
  (0x0000000000F00000C1008C92#96, .sar { ty := .s64, dst := .v 2, sa := .v 4, sb := .v 3 } {}),
  (0x0001230000F0003300807893#96, .rotl { ty := .b32, dst := .v 1, sa := .v 2, sb := .imm, imm := 0x123 } {}),
  (0x0001230000F0330000804494#96, .bfx { ty := .s32, dst := .v 1, sa := .v 2, sc := .imm, imm := 0x123 } {}),
  (0x0000000000F00100C0807895#96, .bfi { ty := .b32, dst := .v 1, sa := .v 2, sb := .v 3, sc := .v 4 } {}),
  (0x0000000000F000000100BC96#96, .popc { ty := .b64, dst := .v 2, sa := .v 4 } {}),
  (0x0000000000F0000000805097#96, .clz { ty := .u16, dst := .v 1, sa := .v 2 } {}),
  (0x0000000000F0000000807898#96, .brev { ty := .b32, dst := .v 1, sa := .v 2 } {}),
  (0x0000000080F0000101BCCC99#96, .cmp { ty := .s64, dst := .k 3, sa := .v 6, sb := .v 4 } { cond := 4 }),
  (0x0001230104F033006100889A#96, .lea { ty := .u64, dst := .v 2, sa := .s 4, sb := .v 1, sc := .imm, imm := 0x123 } { sat := true, ty2 := .s32 }),
  (0x0000000800F00040C080449B#96, .dot4 { ty := .s32, dst := .v 1, sa := .v 2, sb := .v 3, sc := .v 1 } { ty2 := .u8 }),
  (0x0000000000F00000C080449C#96, .div { ty := .s32, dst := .v 1, sa := .v 2, sb := .v 3 } {}),
  (0x0000000000F000018100889D#96, .rem { ty := .u64, dst := .v 2, sa := .v 4, sb := .v 6 } {}),
  (0x0001230000F03300C080789E#96, .prmb { ty := .b32, dst := .v 1, sa := .v 2, sb := .v 3, sc := .imm, imm := 0x123 } {})] : List (Slot × Instr)), decode x.1 = .ok x.2 ∧ encode x.2 = some x.1 ∧ WellFormed.ok x.2 = true := by decide

/-- Words of class 0x3, one for each instruction, written from its row of the class table and the fields of R36. -/
theorem test_decode_float : ∀ x ∈ ([
  (0x0000000003F000018100ACC0#96, .fadd { ty := .f64, dst := .v 2, sa := .v 4, sb := .v 6 } { rnd := .rd }),
  (0x0000000001F00000C08074C1#96, .fsub { ty := .bf16, dst := .v 1, sa := .v 2, sb := .v 3 } { rnd := .rz }),
  (0x0000000018F00000C08058C2#96, .fmul { ty := .f16x2, dst := .v 1, sa := .v 2, sb := .v 3 } { fz := .fza }),
  (0x0000000000F00282420128C3#96, .ffma { ty := .f32, dst := .v 4, sa := .v 8, sb := .v 9, sc := .v 10 } {}),
  (0x0000000000F00000C08068C4#96, .fmin { ty := .f32, dst := .v 1, sa := .v 2, sb := .v 3 } {}),
  (0x0000000008F00000C08070C5#96, .fmax { ty := .f16, dst := .v 1, sa := .v 2, sb := .v 3 } { fz := .fzn }),
  (0x00000000E0F00000C0BC68C6#96, .fcmp { ty := .f32, dst := .k 1, sa := .v 2, sb := .v 3 } { cond := 7 }),
  (0x0000000000F0000000806CC7#96, .fclass { ty := .f64, dst := .v 1, sa := .v 2 } {}),
  (0x0000000002F00000008068C8#96, .frnd { ty := .f32, dst := .v 1, sa := .v 2 } { rnd := .ru }),
  (0x0000000D00F00000040428C9#96, .cvt { ty := .f32, dst := .v 16, sa := .v 16 } { ty2 := .bf16 }),
  (0x0000000000F00040C0805CCA#96, .fdot2 { ty := .bf16x2, dst := .v 1, sa := .v 2, sb := .v 3, sc := .v 1 } {}),
  (0x0000000004F020C0008068CB#96, .qnt { ty := .f32, dst := .v 1, sa := .v 2, sc := .s 3 } { sat := true })] : List (Slot × Instr)), decode x.1 = .ok x.2 ∧ encode x.2 = some x.1 ∧ WellFormed.ok x.2 = true := by decide

/-- Words of class 0x4, one for each instruction, written from its row of the class table and the fields of R36. -/
theorem test_decode_special : ∀ x ∈ ([
  (0x0000000000F0000000806900#96, .rcp { ty := .f32, dst := .v 1, sa := .v 2 } {}),
  (0x0000000000F0000000806901#96, .rsq { ty := .f32, dst := .v 1, sa := .v 2 } {}),
  (0x0000000000F0000000806902#96, .sqrt { ty := .f32, dst := .v 1, sa := .v 2 } {}),
  (0x0000000000F0000000806903#96, .exp2 { ty := .f32, dst := .v 1, sa := .v 2 } {}),
  (0x0000000000F0000000806904#96, .log2 { ty := .f32, dst := .v 1, sa := .v 2 } {}),
  (0x0000000000F0000000806905#96, .sin { ty := .f32, dst := .v 1, sa := .v 2 } {}),
  (0x0000000000F0000000806906#96, .cos { ty := .f32, dst := .v 1, sa := .v 2 } {}),
  (0x0000000000F0000000806907#96, .tanh { ty := .f32, dst := .v 1, sa := .v 2 } {}),
  (0x0000000001F000018100AD08#96, .divf { ty := .f64, dst := .v 2, sa := .v 4, sb := .v 6 } { rnd := .rz })] : List (Slot × Instr)), decode x.1 = .ok x.2 ∧ encode x.2 = some x.1 ∧ WellFormed.ok x.2 = true := by decide

/-- Words of class 0x5, one for each instruction, written from its row of the class table and the fields of R36. -/
theorem test_decode_memory : ∀ x ∈ ([
  (0x000040000500000000820940#96, .ld { ty := .u64, dst := .v 8, sa := .v 2, fl := some 0, imm := 0x40 } { hint := .strm, vec := .two }),
  (0xFFFFFC0008F0000321003941#96, .st { ty := .b32, sa := .s 4, sb := .v 12, imm := 0xfffffc } { vec := .four }),
  (0x0000000000B0000000806542#96, .lds { ty := .s8, dst := .v 1, sa := .v 2, fl := some 11 } {}),
  (0x0000000000F0000106403D43#96, .sts { ty := .b64, sa := .v 25, sb := .v 4 } {}),
  (0x0000080000F0000032E20944#96, .ldc { ty := .u64, dst := .s 8, sa := .zero, imm := 0x8 } {}),
  (0x0000000003F0000030800145#96, .pfx { sa := .c 2 } { hint := .na }),
  (0x0000000000F00020E0800146#96, .iflush { sa := .s 2, sb := .s 3 })] : List (Slot × Instr)), decode x.1 = .ok x.2 ∧ encode x.2 = some x.1 ∧ WellFormed.ok x.2 = true := by decide

/-- Words of class 0x6, one for each instruction, written from its row of the class table and the fields of R36. -/
theorem test_decode_atomics : ∀ x ∈ ([
  (0x0000000006004021A1018180#96, .aadd { dst := .v 6, sa := .s 4, sb := .s 6, pk := 1, fl := some 0 } { scope := .package, ret := true }),
  (0x0000000006104000A1018D81#96, .amin { ty := .s64, dst := .v 6, sa := .s 4, sb := .v 2, pk := 1, fl := some 1 } { scope := .package, ret := true }),
  (0x0000000006204021A1018182#96, .amax { dst := .v 6, sa := .s 4, sb := .s 6, pk := 1, fl := some 2 } { scope := .package, ret := true }),
  (0x0000000006304021A101B983#96, .aand { ty := .b32, dst := .v 6, sa := .s 4, sb := .s 6, pk := 1, fl := some 3 } { scope := .package, ret := true }),
  (0x0000000006404000A101BD84#96, .aor { ty := .b64, dst := .v 6, sa := .s 4, sb := .v 2, pk := 1, fl := some 4 } { scope := .package, ret := true }),
  (0x0000000006504000A1018985#96, .axor { ty := .u64, dst := .v 6, sa := .s 4, sb := .v 2, pk := 1, fl := some 5 } { scope := .package, ret := true }),
  (0x0000000006604021A1018586#96, .axch { ty := .s32, dst := .v 6, sa := .s 4, sb := .s 6, pk := 1, fl := some 6 } { scope := .package, ret := true }),
  (0x0000000006704021A1019988#96, .afadd { ty := .f16x2, dst := .v 6, sa := .s 4, sb := .s 6, pk := 1, fl := some 7 } { scope := .package, ret := true }),
  (0x0000000003F0014100803987#96, .acas { ty := .b32, sa := .v 2, sb := .v 4, sc := .v 5 } { scope := .pod }),
  (0x0000000018F0000000000189#96, .fence {} .team .acqrel),
  (0x0000800000F020E2A120498A#96, .waita ⟨{ ty := .u64, dst := .s 1, sa := .s 4, sb := .s 10, sc := .s 3, imm := 0x80 }, false⟩)] : List (Slot × Instr)), decode x.1 = .ok x.2 ∧ encode x.2 = some x.1 ∧ WellFormed.ok x.2 = true := by decide

/-- Words of class 0x7, one for each instruction, written from its row of the class table and the fields of R36. -/
theorem test_decode_copies : ∀ x ∈ ([
  (0x000025010B200021008001C0#96, .acpy { sa := .v 2, sb := .s 4, fl := some 2, imm := 0x25 } { acq := some .package, rel := some .team, size := .n16 }),
  (0x0000020040100000220001C1#96, .tcpy { sa := .s 8, fl := some 1, imm := 0x2 } { prom := true }),
  (0x0000030000F0000032C001C2#96, .cwait { sa := .zero, imm := 0x3 } false),
  (0x0000000040F0000020BD01C3#96, .ctest { dst := .k 4, sa := .s 2 } true),
  (0x0000020000F00000250001C4#96, .cprom { sa := .s 20, imm := 0x2 } false),
  (0x0000810000F00000002141C5#96, .cstat { dst := .s 5, imm := 0x81 } false)] : List (Slot × Instr)), decode x.1 = .ok x.2 ∧ encode x.2 = some x.1 ∧ WellFormed.ok x.2 = true := by decide

/-- Words of class 0x8, one for each instruction, written from its row of the class table and the fields of R36. -/
theorem test_decode_matrices : ∀ x ∈ ([
  (0x00000F0000F0000033000200#96, .mgang { sa := .imm, imm := 0xf } {}),
  (0x00000002C200012322000201#96, .mma { sa := .s 8, sb := .s 12, sc := .v 4, fl := some 0 } { acq := some .cluster, shb := true, acc := 5 }),
  (0x0000000380F0000000000202#96, .mzero {} { acc := 7 }),
  (0x00FFC4008030000033001603#96, .mrnm { ty := .s16, sa := .imm, fl := some 3, imm := 0xffc4 } { acc := 1 }),
  (0x0000000003F0000020800204#96, .mld { sa := .s 2 } { acq := some .package }),
  (0x000000188810002566000205#96, .mst { sa := .s 24, sb := .s 21, fl := some 1 } { rel := some .team, acc := 1, ofmt := .i8, sat := true }),
  (0x0000000020F0000020800206#96, .mexp { sa := .s 2 } { rel := some .pod }),
  (0x0000060100F0000000000207#96, .mmov { imm := 0x6 } { acc := 2 })] : List (Slot × Instr)), decode x.1 = .ok x.2 ∧ encode x.2 = some x.1 ∧ WellFormed.ok x.2 = true := by decide

/-- Words of class 0x9, one for each instruction, written from its row of the class table and the fields of R36. -/
theorem test_decode_work : ∀ x ∈ ([
  (0x0020600000F0267326000240#96, .exits { sa := .s 24, sb := .imm, sc := .s 25, imm := 0x2060 }),
  (0x0000000040F0000000000241#96, .region {} .hold),
  (0x000040000040003320400242#96, .denput { sa := .s 1, sb := .imm, fl := some 4, imm := 0x40 }),
  (0x0000000040F00020E0A10243#96, .qpop { dst := .s 4, sa := .s 2, sb := .s 3 } .tryOnce),
  (0x0000000000500020E0A10244#96, .qpush { dst := .s 4, sa := .s 2, sb := .s 3, fl := some 5 }),
  (0x000000000030000022A18245#96, .launch { dst := .s 6, sa := .s 10, fl := some 3 }),
  (0x0000000080F0000032E10246#96, .cntw { dst := .s 4, sa := .zero } .phase),
  (0x00000000C0F0000021000247#96, .cancel { sa := .s 4 } .job)] : List (Slot × Instr)), decode x.1 = .ok x.2 ∧ encode x.2 = some x.1 ∧ WellFormed.ok x.2 = true := by decide

/-- Words of class 0xa, one for each instruction, written from its row of the class table and the fields of R36. -/
theorem test_decode_fabric : ∀ x ∈ ([
  (0x0000000103F00022A232C280#96, .fsend { dst := .zero, sa := .s 8, sb := .s 10 } { acq := some .package, tc := 2 }),
  (0x00000100206023E3A3207E81#96, .fatom { ty := .b64, dst := .s 1, sa := .s 12, sb := .s 14, sc := .s 15, fl := some 6, imm := 0x1 } { relPod := true } .cas),
  (0x0000010000F032C025650282#96, .fwait { dst := .s 20, sa := .s 21, sc := .zero, imm := 0x1 } {} .free),
  (0x000000000000000025258283#96, .fdrain { dst := .s 22, sa := .s 20, fl := some 0 } {}),
  (0x0000000000F00022A1000284#96, .freg { sa := .s 4, sb := .s 10 } {}),
  (0x0000000000F0000022800285#96, .frev { sa := .s 10 } {}),
  (0x0000060040F0000032E50286#96, .fqry { dst := .s 20, sa := .zero, imm := 0x6 } { direct := true } .lfsr)] : List (Slot × Instr)), decode x.1 = .ok x.2 ∧ encode x.2 = some x.1 ∧ WellFormed.ok x.2 = true := by decide

/-- Words of class 0xb, one for each instruction, written from its row of the class table and the fields of R36. -/
theorem test_decode_collectives : ∀ x ∈ ([
  (0x0000510000F00021B32102C0#96, .crange { dst := .s 4, sa := .imm, sb := .s 6, imm := 0x51 }),
  (0x000000000010000020A102C1#96, .cfire { dst := .s 4, sa := .s 2, fl := some 1 }),
  (0x0000000000F0000020B2C2C2#96, .cjoin { dst := .zero, sa := .s 2 }),
  (0x0000000000700000208002C3#96, .cdrop { sa := .s 2, fl := some 7 })] : List (Slot × Instr)), decode x.1 = .ok x.2 ∧ encode x.2 = some x.1 ∧ WellFormed.ok x.2 = true := by decide

/-- Words of class 0xc, one for each instruction, written from its row of the class table and the fields of R36. -/
theorem test_decode_guest : ∀ x ∈ ([
  (0x0000000003000020E0A10300#96, .gsub { dst := .s 4, sa := .s 2, sb := .s 3, fl := some 0 } true),
  (0x0000000000F032E160A18301#96, .gwait { dst := .s 6, sa := .s 2, sb := .s 5, sc := .zero }),
  (0x000009000080003320A18302#96, .gcan { dst := .s 6, sa := .s 2, sb := .imm, fl := some 8, imm := 0x9 })] : List (Slot × Instr)), decode x.1 = .ok x.2 ∧ encode x.2 = some x.1 ∧ WellFormed.ok x.2 = true := by decide

/-- Words of class 0xd, one for each instruction, written from its row of the class table and the fields of R36. -/
theorem test_decode_system : ∀ x ∈ ([
  (0x0000070000F0000033000340#96, .trap { sa := .imm, imm := 0x7 }),
  (0x0000000000F0800000000341#96, .bkpt { pk := 2 }),
  (0x0000000000F0000000000342#96, .resume {} false),
  (0x0000480000F000332120C343#96, .swr { dst := .s 3, sa := .s 4, sb := .imm, imm := 0x48 }),
  (0x0000010000F000003320C344#96, .warnc { dst := .s 3, sa := .imm, imm := 0x1 })] : List (Slot × Instr)), decode x.1 = .ok x.2 ∧ encode x.2 = some x.1 ∧ WellFormed.ok x.2 = true := by decide

/-! ## Well-formedness refuses an ill-formed term for each of its checks -/

theorem test_wf_header : WellFormed.ok (.clauseHeader { len := 0 }) = false ∧ WellFormed.ok (.clauseHeader { len := 25 }) = false := by decide
theorem test_wf_entries : WellFormed.ok (.clend (List.replicate 7 ⟨.v 1, false, false⟩)) = false ∧
    WellFormed.ok (.clend [⟨.v 1, false, true⟩]) = false ∧ WellFormed.ok (.clend [⟨.k 0, false, false⟩]) = false := by decide
theorem test_wf_word : WellFormed.ok (.add { dst := .k 1 } {}) = false ∧ WellFormed.ok (.add { fl := some 0 } {}) = false ∧
    WellFormed.ok (.cmp { dst := .s 1, sa := .v 1 } {}) = false ∧ WellFormed.ok (.mov { ty := .u64, dst := .v 1 }) = false := by decide
theorem test_wf_variant : WellFormed.ok (.fwait { dst := .zero, sa := .s 1, sc := .zero } {} .free) = false := by decide
theorem test_wf_record : WellFormed.ok (.groupRetire ⟨0, 0⟩ 32) = false ∧ WellFormed.ok (.groupRetire ⟨384, 0⟩ 0) = false := by decide
theorem test_wf_slot : WellFormed.ok (.preemptRequest ⟨0, 16⟩) = false ∧ WellFormed.ok (.sleepWake ⟨0, 0⟩ 1024) = false := by decide
theorem test_wf_numbers : WellFormed.ok (.monitorReclaim 48 0) = false ∧ WellFormed.ok (.denTimerExpiry 2048) = false ∧
    WellFormed.ok (.feedqReserveRead ⟨0, 256⟩) = false ∧ WellFormed.ok (.qcfgWrite 64 0) = false ∧
    WellFormed.ok (.guestCompletionRecord 0 4096 0 0 0) = false ∧ WellFormed.ok (.invalidation 4096 []) = false ∧
    WellFormed.ok (.keyOwnerWrite 4096 0) = false ∧ WellFormed.ok (.fabricDataWindow 0 64 0 0) = false ∧
    WellFormed.ok (.skipNoticeArrival ⟨0, 0⟩ 4 0 0) = false ∧ WellFormed.ok (.filterEntryExpiry 64 0) = false ∧
    WellFormed.ok (.collectiveComplete 32 0) = false := by decide

/-! ## Registers: the values are those of the rules named -/

def withV (xs : List (Nat × W32)) (f : Grp → Grp := id) : State :=
  { grpState f with teams := [(0, team0 (f grp0) ((List.range 4).map fun n => { thread0 n with v := xs }))] }
/-- Register n of thread 0 after an instruction. -/
def v0 (i : Instr) (s : State) (n : Nat) : Option Nat := (vreg (after i s) n).bind (·.head?)
def k0 (i : Instr) (s : State) (n : Nat) : Option Bool := (kreg (after i s) n).bind (·.head?)

/-- R132: 2^31 - 1 + 1 wraps, and with SAT stays. -/
theorem test_add_wraps : v0 (.add { ty := .s32, dst := .v 1, sa := .v 2, sb := .imm, imm := 1 } {}) (withV [(2, 0x7FFFFFFF)]) 1 = some 0x80000000 := by decide +kernel
theorem test_add_sat : v0 (.add { ty := .s32, dst := .v 1, sa := .v 2, sb := .imm, imm := 1 } { sat := true }) (withV [(2, 0x7FFFFFFF)]) 1 = some 0x7FFFFFFF := by decide +kernel
theorem test_add_predicated : vreg (after (.add { dst := .v 1, sa := .v 1, sb := .v 3, pk := 1 } {}) state0) 1 = some [10, 13, 14, 13] := by decide +kernel
theorem test_sub_borrow : v0 (.sub { ty := .u32, dst := .v 1, sa := .zero, sb := .v 2 } { sat := true }) (withV [(2, 1)]) 1 = some 0 := by decide +kernel
/-- The last link of the 96-bit sum of spec/06: 0xFFFFFFFF + 0 + 1 carries out. -/
theorem test_addc : let i : Instr := .addc { dst := .v 5, sa := .v 6, sb := .v 7, sc := .k 2 } {}
    let s := { grpState id with teams := [(0, team0 grp0 [{ thread0 0 with v := [(6, 0xFFFFFFFF)], k := [(2, true)] }])] }
    v0 i s 5 = some 0 ∧ k0 i s 2 = some true := by decide +kernel
theorem test_subb : let i : Instr := .subb { dst := .v 5, sa := .v 6, sb := .v 7, sc := .k 2 } {}
    v0 i (withV [(6, 1), (7, 2)]) 5 = some 0xFFFFFFFF ∧ k0 i (withV [(6, 1), (7, 2)]) 2 = some true := by decide +kernel
theorem test_mulh : v0 (.mulh { ty := .s32, dst := .v 1, sa := .v 2, sb := .v 3 } {}) (withV [(2, 0xFFFFFFFF), (3, 2)]) 1 = some 0xFFFFFFFF := by decide +kernel
theorem test_madw : vreg (after (.madw { ty := .s64, dst := .v 6, sa := .v 2, sb := .v 3, sc := .zero } {}) state0) 7 = some [0xFFFFFFFF, 0xFFFFFFFF, 0xFFFFFFFF, 0xFFFFFFFF] := by decide +kernel
/-- The example of R136. -/
theorem test_dot4 : v0 (.dot4 { ty := .s32, dst := .v 1, sa := .v 2, sb := .v 3, sc := .imm, imm := 10 } {}) (withV [(2, 0x80FF0102), (3, 0x7F020304)]) 1 = some 0xFFFFC093 := by decide +kernel
/-- The examples of R137. -/
theorem test_min : v0 (.min { ty := .u32, dst := .v 1, sa := .v 2, sb := .imm, imm := 1 } {}) (withV [(2, 0xFFFFFFFF)]) 1 = some 1 ∧
    v0 (.min { ty := .s32, dst := .v 1, sa := .v 2, sb := .imm, imm := 1 } {}) (withV [(2, 0xFFFFFFFF)]) 1 = some 0xFFFFFFFF := by decide +kernel
theorem test_abs : v0 (.abs { ty := .s32, dst := .v 1, sa := .v 2 } {}) (withV [(2, 0x80000000)]) 1 = some 0x80000000 ∧
    v0 (.abs { ty := .s32, dst := .v 1, sa := .v 2 } { sat := true }) (withV [(2, 0x80000000)]) 1 = some 0x7FFFFFFF := by decide +kernel
theorem test_neg : v0 (.neg { dst := .v 1, sa := .v 2 } { sat := true }) (withV [(2, 5)]) 1 = some 0 := by decide +kernel
theorem test_shl : v0 (.shl { dst := .v 1, sa := .v 2, sb := .imm, imm := 33 } {}) (withV [(2, 3)]) 1 = some 6 := by decide +kernel
theorem test_sar : v0 (.sar { ty := .s32, dst := .v 1, sa := .v 2, sb := .imm, imm := 40 } { sat := true }) (withV [(2, 0x80000000)]) 1 = some 0xFFFFFFFF := by decide +kernel
theorem test_bfx : v0 (.bfx { ty := .s32, dst := .v 1, sa := .v 2, sc := .imm, imm := 0x0404 } {}) (withV [(2, 0x80)]) 1 = some 0xFFFFFFF8 := by decide +kernel
theorem test_prmb : v0 (.prmb { ty := .b32, dst := .v 1, sa := .v 2, sb := .v 3, sc := .imm, imm := 0x7C12 } {}) (withV [(2, 0x33221100), (3, 0x77665584)]) 1 = some 0x77FF1122 := by decide +kernel
theorem test_cmp : kreg (after (.cmp { ty := .s32, dst := .k 3, sa := .v 1, sb := .imm, imm := 12 } { cond := 2 }) state0) 3 = some [true, true, false, false] := by decide +kernel
theorem test_div_by_zero : v0 (.div { ty := .s32, dst := .v 1, sa := .v 2, sb := .zero } {}) (withV [(2, 9)]) 1 = some 0xFFFFFFFF ∧
    v0 (.rem { ty := .s32, dst := .v 1, sa := .v 2, sb := .zero } {}) (withV [(2, 9)]) 1 = some 9 := by decide +kernel
theorem test_div_truncates : v0 (.div { ty := .s32, dst := .v 1, sa := .v 2, sb := .imm, imm := 2 } {}) (withV [(2, 0xFFFFFFF9)]) 1 = some 0xFFFFFFFD := by decide +kernel
theorem test_lea : vreg (after (.lea { ty := .u64, dst := .v 6, sa := .s 1, sb := .v 1, sc := .imm, imm := 2 } {}) state0) 6 = some [0x20028, 0x2002C, 0x20030, 0x20034] := by decide +kernel
/-- The statements of spec/05 that build 0x0123456789ABCDEF in s4, after the first. -/
theorem test_movi_mid : sreg (after (.movi { ty := .b64, dst := .s 4, imm := 0x456789 } .mid) (grpState fun g => g.setS 4 0xABCDEF)) 4 = some 0x456789ABCDEF := by decide +kernel
theorem test_movi_top : sreg (after (.movi { ty := .b64, dst := .s 4, imm := 0x0123 } .top) (grpState fun g => g.setS 4 0x456789ABCDEF)) 4 = some 0x0123456789ABCDEF := by decide +kernel
theorem test_rstat : sreg (after (.rstat { dst := .s 5 }) (grpState fun g => { g with h := 1 })) 5 = some (1 + 2 ^ 16 * 3) := by decide +kernel
theorem test_kset : kreg (after (.kset { dst := .k 2, sa := .k 1, sb := .k 0 } .andn) state0) 2 = some [false, false, false, false] := by decide +kernel
theorem test_srd : sreg (after (.srd { dst := .s 5 } .thr) state0) 5 = some 32 := by decide +kernel
/-- The example of spec/04: reads go by %tid, beyond the team they give SC. -/
theorem test_shuf : vreg (after (.shuf { ty := .b32, dst := .v 6, sa := .v 1, sb := .imm, sc := .zero, imm := 1 } .up) state0) 6 = some [0, 10, 11, 12] := by decide +kernel
theorem test_ballot : sreg (after (.ballot { ty := .b32, dst := .s 5, sa := .k 1, sb := .zero }) state0) 5 = some 6 := by decide +kernel
theorem test_vote : sreg (after (.vote { dst := .s 5, sa := .k 1 } .all) state0) 5 = some 0 ∧ sreg (after (.vote { dst := .s 5, sa := .k 1, pk := 1 } .all) state0) 5 = some 1 := by decide +kernel
theorem test_push : vreg (after (.push { ty := .b32, dst := .v 6, sa := .v 1, sb := .zero } .hi) state0) 6 = some [13, 0, 0, 0] := by decide +kernel
theorem test_rank : vreg (after (.rank { ty := .u32, dst := .v 6, sa := .v 1, sb := .zero } .desc) state0) 6 = some [3, 2, 1, 0] := by decide +kernel

/-! ## Floating point -/

/-- The table of R159: the sum is rounded once. -/
theorem test_fma : v0 (.ffma { ty := .f32, dst := .v 1, sa := .v 2, sb := .v 3, sc := .v 4 } {}) (withV [(2, 0x3F800001), (3, 0x3F800001), (4, 0xBF800002)]) 1 = some 0x28800000 := by decide +kernel
theorem test_fadd_ties : v0 (.fadd { ty := .f32, dst := .v 1, sa := .v 2, sb := .v 3 } {}) (withV [(2, 0x4B800000), (3, 0x3F800000)]) 1 = some 0x4B800000 ∧
    v0 (.fadd { ty := .f32, dst := .v 1, sa := .v 2, sb := .v 3 } { rnd := .ru }) (withV [(2, 0x4B800000), (3, 0x3F800000)]) 1 = some 0x4B800001 := by decide +kernel
theorem test_fmul_overflow : v0 (.fmul { ty := .f16, dst := .v 1, sa := .v 2, sb := .v 2 } {}) (withV [(2, 0x7BFF)]) 1 = some 0x7C00 ∧
    v0 (.fmul { ty := .f16, dst := .v 1, sa := .v 2, sb := .v 2 } { rnd := .rz }) (withV [(2, 0x7BFF)]) 1 = some 0x7BFF := by decide +kernel
theorem test_fadd_flush : v0 (.fadd { ty := .f32, dst := .v 1, sa := .v 2, sb := .zero } { fz := .fza }) (withV [(2, 0x80000001)]) 1 = some 0 := by decide +kernel
theorem test_fclass : v0 (.fclass { ty := .f32, dst := .v 1, sa := .v 2 } {}) (withV [(2, 0x80000000)]) 1 = some 8 := by decide +kernel
/-- The examples of R163. -/
theorem test_cvt : v0 (.cvt { ty := .f32, dst := .v 1, sa := .v 2 } { ty2 := .s32, rnd := .rz }) (withV [(2, 0xC06CCCCD)]) 1 = some 0xFFFFFFFD ∧
    v0 (.cvt { ty := .f32, dst := .v 1, sa := .v 2 } { ty2 := .u8, sat := true }) (withV [(2, 0x43964000)]) 1 = some 255 ∧
    v0 (.cvt { ty := .f32, dst := .v 1, sa := .v 2 } { ty2 := .u8 }) (withV [(2, 0x43964000)]) 1 = some 44 := by decide +kernel
/-- The table of QNT's worked run: -7.9375, 1.0, 0.09375 and 0.15625. -/
theorem test_qnt : let s := { grpState id with teams := [(0, team0 grp0 ([(0, 0xC0FE0000), (1, 0x3F800000), (2, 0x3DC00000), (3, 0x3E200000)].map fun x => { thread0 x.1 with v := [(2, x.2)] }))] }
    vreg (after (.qnt { ty := .f32, dst := .v 1, sa := .v 2, sc := .s 5 } {}) s) 1 = some [0x81, 16, 2, 2] := by decide +kernel
theorem test_sqrt : v0 (.sqrt { ty := .f32, dst := .v 1, sa := .v 2 } {}) (withV [(2, 0x40000000)]) 1 = some 0x3FB504F3 := by decide +kernel
theorem test_divf : v0 (.divf { ty := .f32, dst := .v 1, sa := .v 2, sb := .v 3 } {}) (withV [(2, 0x3F800000), (3, 0x40400000)]) 1 = some 0x3EAAAAAB := by decide +kernel
theorem test_rcp_exact : v0 (.rcp { ty := .f32, dst := .v 1, sa := .v 2 } {}) (withV [(2, 0x41000000)]) 1 = some 0x3E000000 := by decide +kernel

/-! ## Memory -/

theorem test_ld : vreg (after (.ld { dst := .v 6, sa := .v 4 } {}) state0) 6 = some [1, 0xFFFFFFFE, 3, 0] := by decide +kernel
theorem test_ld_extends : vreg (after (.ld { ty := .s16, dst := .v 6, sa := .s 1, imm := 4 } {}) state0) 6 = some [0xFFFFFFFE, 0xFFFFFFFE, 0xFFFFFFFE, 0xFFFFFFFE] := by decide +kernel
theorem test_st_little_endian : let t := after (.st { sa := .s 1, sb := .v 2, imm := 8 } {}) (withV [(2, 0x11223344)])
    byte t 0x180008 = some 0x44 ∧ byte t 0x18000B = some 0x11 ∧ byte t 0x18000C = some 0 := by decide +kernel
/-- Under XTRAP: XLATE at position 1, and the failing address. -/
theorem test_st_unmapped : (grp (after (.st { sa := .zero, sb := .v 2 } {}) state0)).map (fun g => (g.trapc, g.trapv)) = some (0x109, 0) := by decide +kernel
theorem test_st_read_only : (grp (after (.st { sa := .s 1, sb := .v 2, imm := 0xFF0000 } {}) state0)).map (fun g => (g.trapc, g.trapv)) = some (0x10A, 0x10000) := by decide +kernel
theorem test_sts_bound : trapCode (after (.sts { sa := .s 1, sb := .v 2 } {}) state0) = some 0x05 := by decide +kernel
/-- The example of R213: thread t reads 100 + t. -/
theorem test_aadd : let s := { grpState id with mem := { mem0 with phys := mem0.phys.setBytes 0x180000 (leBytes 4 100) }, teams := [(0, team0 grp0 ((List.range 4).map fun n => { thread0 n with v := [(4, 1)] }))] }
    let t := after (.aadd { dst := .v 6, sa := .s 1, sb := .v 4 } { ret := true }) s
    vreg t 6 = some [100, 101, 102, 103] ∧ byte t 0x180000 = some 104 := by decide +kernel
theorem test_acas : let t := after (.acas { dst := .v 6, sa := .s 1, sb := .imm, sc := .v 3, imm := 2, pk := 0 } { ret := true }) state0
    byte t 0x180000 = some 1 := by decide +kernel
theorem test_atomic_aligns : trapCode (after (.aadd { sa := .s 1, sb := .v 3, imm := 2 } {}) state0) = some 0x08 := by decide +kernel
theorem test_flagged_load : let t := after (.ld { dst := .v 6, sa := .v 4, fl := some 3 } {}) state0
    (grp t).map (·.flags) = some [0, 0, 0, 1, 0, 0, 0, 0, 0, 0, 0, 0] ∧ vreg t 6 = some [0, 0, 0, 0] ∧
      t.bind (fun t => vreg (after (.loadComplete 0) t) 6) = some [1, 0xFFFFFFFE, 3, 0] := by decide +kernel

/-! ## Control, faults and traps -/

theorem test_bra : (grp (after (.bra {}) state0)).bind (fun g => g.clause.bind (·.term)) = some (.go [(0, 0x10000), (1, 0x10000), (2, 0x10000), (3, 0x10000)]) := by decide +kernel
theorem test_bra_ill_line : trapCode (after (.bra { imm := 1 }) state0) = some 0x17 := by decide +kernel
theorem test_brc_counts : sreg (after (.brc { ty := .u64, sa := .s 2 } .dec) state0) 2 = some 6 := by decide +kernel
theorem test_call_links : sreg (after (.call { ty := .u64, dst := .s 9 }) state0) 9 = some 0x10004 := by decide +kernel
theorem test_reg_bound : trapCode (after (.add { dst := .v 32, sa := .v 1, sb := .v 1 } {}) state0) = some 0x03 := by decide +kernel
theorem test_flag_miss : trapCode (after (.add { dst := .v 6, sa := .v 1, sb := .v 1 } {}) (grpState fun g => { g with flags := 1 :: List.replicate 11 0, flight := [(.v 6, 0)] })) = some 0x07 := by decide +kernel
theorem test_flag_limit : (grp (after (.ld { dst := .v 6, sa := .v 4, fl := some 0 } {}) (grpState fun g => { g with flags := 255 :: List.replicate 11 0 }))).map
    (fun g => (g.flags.head?, g.clause.map (·.pos))) = some (some 255, some 1) := by decide +kernel
/-- R414: TRAP 7 at position 1. -/
theorem test_trap : (grp (after (.trap { sa := .imm, imm := 7 }) state0)).map (fun g => (g.trapc, g.trapv, g.clause.isNone, g.trap.isSome)) = some (0x70113, 0x10001, true, true) := by decide +kernel
theorem test_trap_threads : (team (after (.trap { sa := .imm, imm := 7 }) state0)).map (fun t => t.threads.map (·.pc)) = some [0x10000, 0x10000, 0x10000, 0x10000] := by decide +kernel
theorem test_resume_outside : trapCode (after (.resume {} false) state0) = some 0x01 := by decide +kernel
theorem test_warnc : let t := after (.warnc { dst := .s 5, sa := .imm, imm := 1 }) (grpState fun g => { g with warn := 3 })
    sreg t 5 = some 3 ∧ (grp t).map (·.warn) = some 2 := by decide +kernel
theorem test_exit : (team (after (.clend []) (grpState fun g => { g with clause := some { clause0 with pos := 3, term := some (.exit [0, 1]) } }))).map (fun t => t.threads.map (·.run)) =
    some [.exited, .exited, .runnable, .runnable] := by decide +kernel
/-- R82, R103: the last arrival compacts at once; threads 0 and 3 have key 0, thread 1 has key 11 and thread 2 has key 12. -/
theorem test_regrp_compacts : (team ((after (.regrp { sa := .v 1, pk := 1 }) (grpState fun g => { g with clause := some { clause0 with pos := 2 } })).bind fun s => (after (.clend []) s).map State.settleRegroups)).map
    (fun t => t.threads.map fun th => (th.pc, th.pos)) = some [(0x10004, 0), (0x10004, 2), (0x10004, 3), (0x10004, 1)] := by decide +kernel
theorem test_yield_keeps_age : (team ((after (.yield { pk := 1 }) (grpState fun g => { g with clause := some { clause0 with pos := 2 } })).bind (after (.clend [])))).map
    (fun t => t.threads.map (·.age)) = some [0, 5, 5, 0] := by decide +kernel

/-! ## Matrices -/

/-- The worked run of spec/11: block 0 adds 4800 * 2^-12 and 300 * 2^-52 to elements (0, 0) and (0, 1), block 1 adds 9600 * 2^-12. -/
def tile1 : Tile := (addBlock Tile.zero fun i => if i = 0 then termOf 0x3F400000 0x3A800000 1600 else if i = 1 then termOf 0x3F400000 0x26800000 100 else termOf 0x3F800000 0x3F800000 0).1
def tile2 : Tile × Bool := addBlock tile1 fun i => if i = 0 then termOf 0x3F400000 0x3A800000 3200 else if i = 1 then termOf 0x3F400000 0x26800000 0 else termOf 0x3F800000 0x3F800000 0
theorem test_tile_block0 : tile1 = ⟨-46, [(0, 0x4B0000000000), (1, 5)]⟩ := by decide +kernel
theorem test_tile_block1 : tile2 = (⟨-45, [(0, 0x708000000000), (1, 2)]⟩, true) := by decide +kernel
/-- Its MST columns. -/
theorem test_tile_mst : [Ofmt.f32, .bf16, .i8].map (fun f => readEl f false (-45) 0x708000000000) = [0x40610000, 0x4061, 0x04] ∧
    [Ofmt.f32, .bf16, .i8].map (fun f => readEl f false (-45) 2) = [0x29800000, 0x2980, 0] := by decide +kernel

/-! ## Steps -/

/-- The ADD of spec/02 issues from its line: v9 := v1 + v2 in every thread, and the clause moves on. -/
theorem test_step_add : (match step (State.reset.withFetchWord 96 0x0000000000F0000080424080) with
    | .next t => (t.grp? issuer).bind fun g => g.clause.map (·.pos) | _ => none) = some 2 := by decide +kernel
theorem test_step_header : (match step (State.reset.withFetchWord 96 0x0000000000000007F8000FE0) with
    | .next t => ((t.grp? issuer).bind (·.clause)).map fun c => (c.pos, c.issue.length) | _ => none) = some (1, 32) := by decide +kernel

/-! ## Witnesses: states and operands that meet the hypotheses of the statements -/

/-- The state meets the invariant, the word is well formed and issues with the fields `o`, and `p` holds of its view. -/
def issues (s : State) (i : Instr) (o : Opnds) (p : View → Bool := fun _ => true) : Bool :=
  Safety.inv s && WellFormed.ok i && match s.view? with
    | none => false
    | some v => (boundCheck v.team v.grp i o).isNone && !flightCheck v.grp v.cl i o &&
        !(o.fl.any (fun f => v.grp.flag f == 255) && v.any o) && Safety.ordered v.team && v.any o && p v

theorem issues_meets {s : State} {i : Instr} {o : Opnds} {p : View → Bool} (h : issues s i o p = true) :
    ∃ v, Claim.Issues s v i o ∧ Safety.ordered v.team = true ∧ v.any o = true ∧ p v = true := by
  unfold issues at h
  split at h
  · simp at h
  · rename_i v hv
    simp only [Bool.and_eq_true, Option.isNone_iff_eq_none, Bool.not_eq_true'] at h
    obtain ⟨_, ⟨⟨⟨⟨hb, hf⟩, hl⟩, ho⟩, ha⟩, hp⟩ := h
    exact ⟨v, ⟨hv, hb, hf, hl⟩, ho, ha, hp⟩

/-- Operands in even registers, so that every width is legal. -/
def w1 (ty : Ty) : Opnds := { ty, dst := .v 6, sa := .v 2 }
def w2 (ty : Ty) : Opnds := { w1 ty with sb := .v 4 }
def w3 (ty : Ty) : Opnds := { w2 ty with sc := .v 8 }

/-- One word of each instruction of classes 0x0 to 0x4 that only writes registers. -/
def moveWords : List Instr :=
  [.vote { dst := .k 2, sa := .k 1 } .all, .ballot { ty := .b32, dst := .v 6, sa := .k 1, sb := .zero }, .shuf (w3 .b32) .xor, .push (w2 .b32) .hi,
   .rank (w2 .u32) .desc, .mov (w1 .b64), .sel { w3 .b64 with sc := .k 1 }, .movi { ty := .b64, dst := .v 6, imm := 9 } .mid, .rdl { w1 .b32 with sb := .s 2 } .idx,
   .srd { ty := .u64, dst := .s 5 } .argp, .rstat { dst := .s 5 }, .kset { dst := .k 2, sa := .k 1, sb := .k 3 } .and]
def integerWords : List Instr :=
  [.add (w2 .s64) {}, .sub (w2 .s32) { sat := true }, .mul (w2 .s16) {}, .mulh (w2 .u32) {}, .mad (w3 .s32) {}, .madw (w3 .s64) {}, .min (w2 .s8) {},
   .max (w2 .u64) {}, .abs (w1 .s32) {}, .neg (w1 .s32) {}, .shl (w2 .u32) { sat := true }, .shr (w2 .u32) {}, .sar (w2 .s32) {}, .dot4 (w3 .s32) { ty2 := .s8 }]
def bitWords : List Instr :=
  [.and (w2 .b32) {}, .or (w2 .b64) {}, .xor (w2 .b32) {}, .not (w1 .b32) {}, .rotl (w2 .b32) {}, .popc (w1 .b32) {}, .clz (w1 .b64) {}, .brev (w1 .b32) {}]
def fieldWords : List Instr := [.bfx { w1 .s32 with sc := .v 8 } {}, .bfi (w3 .b32) {}, .prmb (w3 .b32) {}]
def carryWords : List Instr := [.addc { w2 .u32 with sc := .k 2 } {}, .subb { w2 .u64 with sc := .k 2 } {}]
def divisionWords : List Instr := [.lea { w3 .u64 with sb := .v 1 } { ty2 := .s32 }, .div (w2 .s32) {}, .rem (w2 .s64) {}]
/-- The packed types, element by element. -/
def packedWords : List Instr := [.fadd (w2 .f16x2) {}, .fsub (w2 .bf16x2) {}, .fmul (w2 .f16x2) {}, .ffma (w3 .bf16x2) {}, .frnd (w1 .f16x2) {}]
def floatWords : List Instr := [.fadd (w2 .f32) {}, .fsub (w2 .f64) {}, .fmul (w2 .f16) {}, .ffma (w3 .bf16) {}, .divf (w2 .f32) {}, .sqrt (w1 .f64) {}, .frnd (w1 .f32) {}]
def specialWords : List Instr :=
  [.rcp (w1 .f32) {}, .rsq (w1 .f16) {}, .exp2 (w1 .bf16) {}, .log2 (w1 .f32) {}, .sin (w1 .f32) {}, .cos (w1 .f32) {}, .tanh (w1 .f32) {}]
def otherWords : List Instr :=
  [.cmp { ty := .s32, dst := .k 2, sa := .v 1, sb := .v 2 } {}, .fcmp { ty := .f32, dst := .k 2, sa := .v 1, sb := .v 2 } {}, .fclass (w1 .f32) {},
   .fdot2 { w3 .f16x2 with dst := .v 6 } {}, .fmin (w2 .f32) {}, .fmax (w2 .f32) {}, .cvt (w1 .f32) { ty2 := .s64 }, .cvt (w1 .s32) { ty2 := .u8 },
   .qnt { ty := .f32, dst := .v 6, sa := .v 2, sc := .s 5 } {}]
/-- Every word of the list issues in `s`, with a destination that `keep` allows. -/
def allIssue (s : State) (keep : Spec → Bool) (is : List Instr) : Bool :=
  is.all fun i => match Claim.registerOnly i with | some (o, _) => keep o.dst && issues s i o | none => false

theorem witness_RegisterOnlyInstructions : allIssue state0 Claim.keepsBit (moveWords ++ integerWords ++ bitWords) = true ∧
    allIssue state0 Claim.keepsBit (fieldWords ++ carryWords ++ divisionWords ++ floatWords ++ specialWords ++ otherWords) = true := by decide +kernel
theorem witness_IntegerInstructions : (allIssue state0 Claim.keeps integerWords && state0.view?.any fun v => integerWords.all fun i => (Claim.exactInt v i).isSome) = true := by decide +kernel
theorem witness_CarryInstructions : allIssue state0 Claim.keeps carryWords = true := by decide +kernel
theorem witness_LogicInstructions : allIssue state0 Claim.keeps bitWords = true := by decide +kernel
theorem witness_FieldInstructions : allIssue state0 Claim.keeps fieldWords = true := by decide +kernel
theorem witness_Comparisons : allIssue state0 Claim.keepsBit [.cmp { ty := .s32, dst := .k 2, sa := .v 1, sb := .v 2 } { cond := 7 }, .cmp { ty := .s32, dst := .s 5, sa := .s 1, sb := .s 2 } {},
    .kset { dst := .k 7, sa := .k 1, sb := .k 3 } .and] = true := by decide +kernel
/-- A divisor of zero, and one that is not. -/
theorem witness_AddressAndDivision : allIssue state0 Claim.keeps divisionWords = true ∧
    issues (withV [(2, 9)]) (.div (w2 .s32) {}) (w2 .s32) (fun v => decide (Claim.val v (w2 .s32) (.v 4) ((v.active (w2 .s32)).head?) = 0)) = true ∧
    issues (withV [(2, 9), (4, 2)]) (.div (w2 .s32) {}) (w2 .s32) (fun v => decide (Claim.val v (w2 .s32) (.v 4) ((v.active (w2 .s32)).head?) ≠ 0)) = true := by decide +kernel
theorem witness_Moves : allIssue state0 Claim.keeps [.mov (w1 .b64), .sel { w3 .b64 with sc := .k 1 }, .movi { ty := .b64, dst := .v 6, imm := 9 } .lo, .movi { ty := .b64, dst := .v 6, imm := 9 } .mid,
    .movi { ty := .b64, dst := .v 6, imm := 9 } .top, .movi { ty := .b32, dst := .v 6, imm := 9 } .top, .rdl { w1 .b32 with sb := .s 2 } .idx, .rdl (w1 .b32) .first, .srd { ty := .u64, dst := .s 5 } .argp, .rstat { dst := .s 5 }] = true := by decide +kernel
theorem witness_CrossLane : allIssue state0 Claim.keepsBit (moveWords.take 5) = true ∧
    issues state0 (.push (w2 .b32) .lo) (w2 .b32) (fun v => v.present.length == 4 && !isSReg (w2 .b32).dst) = true := by decide +kernel
/-- Operands that are NaN, infinite and zero. -/
theorem witness_FloatArithmetic : allIssue state0 Claim.keeps (floatWords ++ packedWords) = true ∧
    issues (withV [(2, 0x7F800000), (4, 0xFF800000)]) (.fadd (w2 .f32) {}) (w2 .f32) (fun v => Fmt.isInf .f32 (Claim.raw v (w2 .f32) (.v 2) ((v.active (w2 .f32)).head?)) && Fmt.isInf .f32 (Claim.raw v (w2 .f32) (.v 4) ((v.active (w2 .f32)).head?))) = true ∧
    issues (withV [(2, 0x7FC00001)]) (.frnd (w1 .f32) {}) (w1 .f32) (fun v => Fmt.isNan .f32 (Claim.raw v (w1 .f32) (.v 2) ((v.active (w1 .f32)).head?))) = true := by decide +kernel
theorem witness_FloatMinimum : allIssue (withV [(2, 0x80000000), (4, 0)]) Claim.keeps [.fmin (w2 .f32) {}, .fmax (w2 .f64) {}, .fmax (w2 .bf16) {}, .fmin (w2 .f16x2) {}, .fdot2 { w3 .bf16x2 with dst := .v 6 } {}] = true := by decide +kernel
theorem witness_FloatComparison : allIssue state0 Claim.keepsBit [.fcmp { ty := .f32, dst := .k 2, sa := .v 1, sb := .v 2 } { cond := 7 }, .fclass (w1 .f64) {}] = true := by decide +kernel
def qnto : Opnds := { ty := .f32, dst := .v 6, sa := .v 2, sc := .s 5, pk := 2 }
/-- Only thread 3 has k2. -/
def onlyThread : State → State := fun s => { s with teams := s.teams.map fun x => (x.1, { x.2 with threads := x.2.threads.map fun th => { th with k := [(2, th.tid == 3)] } }) }
theorem witness_Conversions : allIssue state0 Claim.keeps [.cvt (w1 .s32) { ty2 := .u8 }, .cvt (w1 .u64) { ty2 := .bf16 }, .cvt (w1 .f64) { ty2 := .f32 }, .cvt (w2 .f32) { ty2 := .f16x2 },
      .cvt (w1 .f32) { ty2 := .s64, sat := true }] = true ∧
    issues (withV [(2, 0x7F800000)]) (.qnt { ty := .f32, dst := .v 6, sa := .v 2, sc := .s 5 } {}) { ty := .f32, dst := .v 6, sa := .v 2, sc := .s 5 }
      (fun v => (v.active {}).any fun th => Fmt.isInf .f32 (Claim.operand v {} .f32 (.v 2) (some th))) = true ∧
    issues (onlyThread (withV [(2, 0x3F800000)])) (.qnt qnto {}) qnto (fun v => match v.active qnto with
      | [th] => let a := Claim.fop v qnto {} qnto.sa (some th) 0
        !Fmt.isNan .f32 a && !Fmt.isInf .f32 a && a == 0x3F800000
      | _ => false) = true := by decide +kernel
theorem witness_SpecialFunctions : allIssue (withV [(2, 0x80000000)]) Claim.keeps specialWords = true := by decide +kernel

/-! ### Control -/

def atHeader : State := grpState fun g => g.setS 6 0x10000
/-- The word is captured for CLEND, and its targets are legal. -/
def captures (s : State) (i : Instr) : Bool :=
  match s.view? with
  | none => false
  | some v => match Claim.terminalOf v i with
    | none => false
    | some (o, _, _, ts) => issues s i o && ts.all fun x => (s.landing v.iss.team.core v.team.asid x).isNone
theorem witness_TerminalInstructions : [.bra {}, .brc { ty := .u64, sa := .s 2 } .dec, .brc { ty := .u64, sa := .s 2 } .nz, .bri { ty := .u64, sa := .s 6 }, .call { ty := .u64, dst := .s 9 },
    .ret { ty := .u64, sa := .s 6 }, .exit {}, .barw {} 1, .regrp { sa := .v 1 }, .sleep { sa := .s 2 } .rel, .sleep { ty := .u64, sa := .s 2 } .abs, .yield {}, .cwait { sa := .s 3 } false,
    .cprom { sa := .s 3 } false].all (captures atHeader) = true ∧ captures (grpState fun g => { g with h := 0 }) (.rclaim {} 3) = true := by decide +kernel
theorem witness_StraightInstructions : issues state0 (.nop {}) {} = true ∧
    issues (grpState id) (.brc { ty := .u64, sa := .s 7 } .nz) { ty := .u64, sa := .s 7 } (fun v => !Claim.brcTakes v { ty := .u64, sa := .s 7 } .nz) = true ∧
    issues state0 (.rgive {} 0) {} = true ∧ issues state0 (.rclaim {} 0) {} (fun v => decide (v.grp.h ≤ 3)) = true ∧
    issues state0 (.meet {} .set) {} = true ∧ issues state0 (.meet { pk := 1 } .clr) { pk := 1 } = true := by decide +kernel
/-- One thread arrives: as the last of two expected, and as the first of them; the barrier is the team's last. -/
def barState (arr : Nat) : State := { state0 with teams := [(0, { team0 grp0 ((List.range 4).map thread0) with bars := [⟨0, 0, none, []⟩, ⟨0, arr, some 2, []⟩], hdr := { khdr with bars := 2 } })] }
def one : Opnds := { sa := .imm, imm := 2, pk := 2 }
theorem witness_BarrierArrivals : ([0, 1].all fun arr => [true, false].all fun wait => issues (onlyThread (barState arr)) (if wait then .bar one 1 else .bara one 1) one (fun v =>
    (v.active one).map (fun th => (th.tid, decide (th.run ≠ .exited), th.pend.get none 1)) == [(3, true, none)] && decide (1 < v.team.bars.length) && v.team.msets.isEmpty &&
      decide ((nth ⟨0, 0, none, []⟩ v.team.bars 1).exp.getD 0 ≤ (nth ⟨0, 0, none, []⟩ v.team.bars 1).arr + 1 ↔ arr = 1))) = true := by decide +kernel
theorem witness_Rgive : issues (grpState fun g => { g with h := 2 }) (.rgive {} 1) {} (fun v => decide (1 ≤ v.grp.h) && v.team.grants.isEmpty && v.grp.flight.isEmpty) = true := by decide +kernel
def idle : State := grpState fun g => { g with clause := none }
/-- A group that is ready at its header, and one whose WAIT mask is not clear. -/
theorem witness_Header : (match idle.team? ⟨0, 0⟩ with
    | some a => match a.grp? 0 with
      | some g => a.choosePC 0 == some 0x10000 && idle.ready a g 0x10000 { len := 3 } && a.grps.all (·.mq.isEmpty) && Safety.ordered a &&
          !(idle.ready a { g with flags := [1] } 0x10000 { len := 3, wait := 1 })
      | none => false
    | none => false) = true := by decide +kernel
def atEnd (T : Option Terminal) : State := { state0 with teams := [(0, { team0 { grp0 with clause := some { clause0 with pos := 3, term := T } } ((List.range 4).map thread0) with pool := 3 })] }
/-- CLEND with each terminal instruction it may end. -/
theorem witness_Clend : [none, some (.go [(0, 0x10000), (2, 0x10000)]), some (.exit [1]), some (.bar 0 [0]), some (.sleep 9999 [0, 1]), some (.yield [2]), some (.wait (.claim 1) [0, 1, 2, 3]),
    some (.wait (.chunks 0 1) [3])].all (fun T => issues (atEnd T) (.clend []) {} fun v => v.team.ending.isNone && v.team.msets.isEmpty && v.present.all (·.meet == 0) &&
      v.team.grps.all (fun g => g.mq.isEmpty) && match v.cl.term with
        | some (.go ts) => decide ((ts.map (·.1)).Pairwise (· < ·))
        | some (.wait (.claim n) tids) => v.team.grants.isEmpty && decide (n ≤ v.team.pool) && tids == v.present.map (·.tid)
        | some (.wait (.chunks trk m) _) => !(v.team.tracker trk).covers m
        | _ => true) = true := by decide +kernel
/-- A sleeping thread before and at its wake time. -/
def asleep (w : Nat) : State := { state0 with teams := [(0, team0 grp0 ((List.range 4).map fun n => { thread0 n with run := if n = 2 then .suspended (.sleep w) else .runnable }))] }
theorem witness_SleepWake : ([1000, 1001].all fun w => Safety.inv (asleep w) && ((asleep w).team? ⟨0, 0⟩).any fun a => a.msets.isEmpty && Safety.ordered a &&
    a.threads.any fun th => th.run == .suspended (.sleep w) && th.meet == 0) = true := by decide +kernel
/-- A thread that wakes at the meeting point of a spent set, of one with a member still to come, and of one without. -/
def meeting (spent : Bool) (last : Run) : State := { state0 with teams := [(0, { team0 { grp0 with clause := none } ((List.range 4).map fun n =>
    if n = 2 then { thread0 n with run := .suspended (.sleep 1000), meet := 0x10000, mset := 1 } else if n = 3 then { thread0 n with run := last } else { thread0 n with run := .exited }) with
  msets := [⟨1, 0x10000, [2, 3], spent⟩] })] }
theorem witness_Meeting : ([(true, Run.runnable), (false, .runnable), (false, .exited)].all fun x => ((meeting x.1 x.2).team? ⟨0, 0⟩).any fun a => Safety.ordered a &&
    (a.threads.filter fun th => th.run == .suspended (.sleep 1000)).map (fun th => (th.tid, th.meet == th.pc, th.mset)) == [(2, true, 1)] && a.msets == [⟨1, 0x10000, [2, 3], x.1⟩] &&
      (a.threads.filter fun th => th.tid == 3).all fun u => u.run == x.2 && !a.parkedThread u) = true := by decide +kernel
/-- A marked group whose wait has reached its bound. -/
def marked : State := { (grpState fun g => { g with clause := none, marks := [⟨0x10000, 0⟩] }) with
  clock := { State.reset.clock with time := 244 }, teams := [(0, team0 { grp0 with clause := none, marks := [⟨0x10000, 0⟩] } ((List.range 4).map fun n => { thread0 n with run := .suspended (.regrp 0x10000) }))] }
theorem witness_RegrpWait : (Safety.inv marked && (marked.team? ⟨0, 0⟩).any fun a => a.ending.isNone && a.msets.isEmpty && a.grants.isEmpty && a.grps.all (·.mq.isEmpty) && Safety.ordered a &&
    (a.grp? 0).any fun g => g.marks.length == 1 && g.marks.any fun m => decide (512000 ≤ 2100 * (marked.clock.time - m.since))) = true := by decide +kernel

/-! ### Memory -/

def ldo : Opnds := { dst := .v 6, sa := .v 4 }
def ldso : Opnds := { dst := .v 6, sa := .zero, imm := 8 }
def ldco : Opnds := { dst := .s 5, sa := .s 1 }
def flagged (o : Opnds) : Opnds := { o with fl := some 11 }
/-- The header reserves flag 11, and the flag is not at its limit. -/
def flagState : State := grpState fun g => { g with clause := some { clause0 with hdr := { len := 3, seta := some 11 } } }
def loadPasses (v : View) (o : Opnds) : Bool :=
  v.checkVirt (v.active o) (fun th => v.address o (some th)) 4 rightR anyFrame == .pass && (v.poisonAt ((v.active o).flatMap fun th => pieces (v.address o (some th)) 4)).isNone
theorem witness_Loads : issues state0 (.ld ldo {}) ldo (fun v => loadPasses v ldo) = true ∧
    issues state0 (.lds ldso {}) ldso (fun v => v.checkScratch (v.active ldso) (fun th => v.offset ldso (some th)) 4 == .pass) = true ∧
    issues state0 (.ldc ldco {}) ldco (fun v => firstFail ((pieces (v.address ldco none) 4).map (v.s.checkPiece v.team.asid rightR anyFrame)) == .pass && (v.poisonAt (pieces (v.address ldco none) 4)).isNone) = true := by decide +kernel
theorem witness_FlaggedLoads : issues flagState (.ld (flagged ldo) {}) (flagged ldo) (fun v => loadPasses v (flagged ldo) && v.grp.flags.length == 12) = true ∧
    issues flagState (.lds (flagged ldso) {}) (flagged ldso) = true ∧ issues flagState (.ldc (flagged ldco) {}) (flagged ldco) = true := by decide +kernel
def landed (k : LandKind) : State := { (grpState fun g => { g with flags := List.replicate 11 0 ++ [1], flight := [(.v 6, 11)] }) with
  eng := ⟨[⟨3, issuer, some 11, k, [.v 0 6 7], [.v 0 6 255]⟩], [], [], []⟩ }
theorem witness_Landings : ([LandKind.load, .atomic].all fun k => Safety.inv (landed k) && (landed k).eng.landings.find? (fun x => x.num == 3 && x.kind == k) == some ⟨3, issuer, some 11, k, [.v 0 6 7], [.v 0 6 255]⟩ &&
    ((landed k).team? ⟨0, 0⟩).any fun a => a.grps.any (fun x => !x.retired) && Safety.ordered a && (a.grp? 0).any fun g => g.flags.length == 12) = true := by decide +kernel
theorem witness_PrefetchAndFlush : issues state0 (.pfx { sa := .v 4 } {}) { sa := .v 4 } = true ∧ issues state0 (.iflush { sa := .s 1, sb := .s 2 }) { sa := .s 1, sb := .s 2 } = true := by decide +kernel
def sto : Opnds := { sa := .v 4, sb := .v 2 }
/-- Four threads, and one whose store is one piece. -/
theorem witness_Stores : ([0, 2].all fun pk => issues (onlyThread state0) (.st { sto with pk } {}) { sto with pk } (fun v =>
      v.checkVirt (v.active { sto with pk }) (fun th => v.address { sto with pk } (some th)) 4 rightW anyFrame == .pass &&
      (pk != 2 || (v.active { sto with pk }).map (fun th => (pieces (v.address { sto with pk } (some th)) 4).length) == [1]) &&
      v.s.teams.all fun x => (x.2.waitsOf fun k => match k with | .monitor .. => true | _ => false).isEmpty) &&
    issues (onlyThread state0) (.sts { sa := .zero, sb := .v 2, imm := 0xFFFC, pk } {}) { sa := .zero, sb := .v 2, imm := 0xFFFC, pk } (fun v =>
      v.checkScratch (v.active { sa := .zero, pk }) (fun th => v.offset { sa := .zero, imm := 0xFFFC, pk } (some th)) 4 == .pass)) = true := by decide +kernel
def ato (dst : Spec) (fl : Option (Fin 12)) : Opnds := { dst, sa := .s 1, sb := .v 3, pk := 2, fl }
def atomicWords (o : Opnds) (m : AtomMods) : List Instr :=
  [.aadd o m, .amin { o with ty := .u32 } m, .amax o m, .aand { o with ty := .b32 } m, .aor { o with ty := .b32 } m, .axor { o with ty := .b32 } m, .axch { o with ty := .b32 } m,
   .acas { o with ty := .b32, sc := .v 2 } m, .afadd { o with ty := .f32 } m]
/-- Each atomic, without a result, with one at once, and with one under a flag. -/
theorem witness_Atomics : ([(ato (.v 0) none, ({} : AtomMods)), (ato (.v 6) none, { ret := true }), (ato (.v 6) (some 11), { ret := true })].all fun x => (atomicWords x.1 x.2).all fun i =>
    match (onlyThread flagState).view? with
    | none => false
    | some v => match v.active x.1 with
      | [th] => match Claim.atomicNew v th i with
        | some (o, _, _) => issues (onlyThread flagState) i o fun v => v.s.checkAtomic v.team.asid { r := true, w := true } (v.address o (some th)) 4 == .pass && (v.poisonAt [(v.address o (some th), 4)]).isNone
        | none => false
      | _ => false) = true := by decide +kernel
theorem witness_FencesAndMonitors : ([Scope.team, .cluster, .package, .pod].all fun sc => issues state0 (.fence {} sc .rel) {}) = true ∧
    ([Scope.package, .pod].all fun sc => [FenceKind.acq, .acqrel].all fun fk => issues state0 (.fence {} sc fk) {}) = true ∧
    (let o : Opnds := { dst := .s 5, sa := .s 1, sb := .zero, sc := .zero }
     issues state0 (.waita ⟨o, false⟩) o fun v => v.s.checkAtomic v.team.asid rightR (v.address o none) 4 == .pass) = true := by decide +kernel
/-- A group that waits, with its record alone in its team. -/
def waiting (k : WaitKind) (saved : Option TrapRec := none) : State := { state0 with
  teams := [(0, team0 { grp0 with clause := none, waits := [(3, ⟨[0, 1, 2, 3], k, saved⟩)] } ((List.range 4).map fun n => { thread0 n with run := .suspended (.wait 3) }))] }
def waits (s : State) (p : Team → Grp → Bool := fun _ _ => true) : Bool :=
  Safety.inv s && match s.team? ⟨0, 0⟩ with
    | some a => match a.grps with
      | [g] => Safety.ordered a && a.msets.isEmpty && a.ref == ⟨0, 0⟩ && g.waits.length == 1 && a.threads.all (fun th => th.run == .suspended (.wait 3) && th.meet == 0) && p a g
      | _ => false
    | none => false
/-- A limit that has just passed, a wait without a monitor for 2 us, and an armed one. -/
theorem witness_MonitorsEnd : waits (waiting (.monitor (.s 5) 9 true true 400 600)) = true ∧ (400 : Nat) ≠ 0 ∧ 600 + 400 ≤ (waiting (.monitor (.s 5) 9 true true 400 600)).clock.time ∧
    waits { waiting (.monitor (.s 5) 9 false true 0 600) with clock := { State.reset.clock with time := 2600 } } = true ∧ 600 + 2000 ≤ 2600 := by decide +kernel

/-! ### Copies and matrices -/

def acpyo : Opnds := { sa := .v 3, sb := .v 4, fl := some 11, imm := 16 }
/-- A block descriptor in s8 to s15: from 0x20000 to scratch 0, extents 8, 1 and 1. -/
def blockState (n flags : W64) : State := grpState fun g =>
  { g with s := g.s ++ [(8, 0x20000), (9, 0), (10, n), (15, flags)], clause := some { clause0 with hdr := { len := 3, seta := some 11 } } }
def tcpyo : Opnds := { sa := .s 8, fl := some 11 }
theorem witness_Copies : issues flagState (.acpy { acpyo with sa := .zero } {}) { acpyo with sa := .zero } (fun v => (v.active acpyo).all (fun th =>
      v.checkCopyAddr true rightW 4 (v.copyAddr acpyo true th .zero) == .pass && v.checkCopyAddr false rightR 4 (v.copyAddr acpyo false th (.v 4)) == .pass) &&
      v.grp.flags.length == 12 && v.team.trk.length == 16) = true ∧
    issues (blockState 0x0001000100000008 2) (.tcpy tcpyo {}) tcpyo (fun v => decide (v.s64 15 < 4) && cornerCheck false v.team.hdr.scratch (corners 0x20000 8 1 1 0 0).2 == .pass && cornerCheck true v.team.hdr.scratch (corners 0 8 1 1 0 0).2 == .pass) = true := by decide +kernel
theorem witness_Trackers : issues (blockState 8 3) (.tcpy tcpyo {}) tcpyo (fun v => decide (v.s64 15 < 4 ∧ v.s64 10 / 2 ^ 48 = 0)) = true ∧
    issues state0 (.ctest { dst := .k 2, sa := .s 3, imm := 15 } false) { dst := .k 2, sa := .s 3, imm := 15 } = true ∧
    ([0, 1].all fun m => let o : Opnds := { dst := .s 5, imm := BitVec.ofNat 24 (128 * m) }
      issues state0 (.cstat o false) o fun _ => cmodeOf o == m) = true ∧
    (let o : Opnds := { sa := .s 1, imm := 0x100 + 15 }
     issues state0 (.cstat o false) o fun v => decide (2 ≤ cmodeOf o) && v.team.trk.length == 16 && (v.team.tracker 15).pend.isEmpty) = true := by decide +kernel
/-- A copy of 8 bytes to scratch, or to the code page, which may not be written. -/
def copy0 (dscr : Bool) (dst : Nat) : CopyCmd := ⟨3, issuer, 0x1C1, some 11, ⟨0, [], ⟨none, none⟩⟩, none, dscr, false, some 0, .block 0x20000 dst 8 1 1 0 0 0 0, [0], [], [], false⟩
def copying (dscr : Bool) (dst : Nat) : State := { state0 with
  eng := ⟨[], [copy0 dscr dst], [], []⟩,
  teams := [(0, { team0 { grp0 with flags := List.replicate 11 0 ++ [1] } ((List.range 4).map thread0) with trk := ⟨true, 0, 1, [(0, 1)], 0, []⟩ :: List.replicate 15 Tracker.zero })] }
theorem witness_CopiesComplete : (Safety.inv (copying true 0) && ((copying true 0).liveCopy 3).any fun x => x.2.ref == x.1.iss.team && x.2.grps.any (fun g => !g.retired) &&
      (match (copying true 0).copyWords x.2 x.1 (x.1.shape.chunkWords (x.2.tracker 0) 0) with | .ok _ => true | _ => false) &&
      (match (copying true 0).copyWords x.2 x.1 x.1.shape.words with | .ok _ => true | _ => false)) = true ∧
    (Safety.inv (copying false 0x10000) && ((copying false 0x10000).liveCopy 3).any fun x => let fs := (copying false 0x10000).failingWords x.2 x.1
      !fs.isEmpty && fs.all fun f => match f with | .fail _ => true | _ => false) = true := by decide +kernel
/-- A copy of 8 bytes from 0x20000 to 0x20100, placed at PACKAGE. -/
def copy1 : CopyCmd := { copy0 false 0x20100 with rel := some .package }
theorem witness_CopiedBytes : let s := { copying false 0x20100 with eng := ⟨[], [copy1], [], []⟩ }
    let xs := (Claim.copied copy1.shape).map fun x => (x.1, s.mem.phys.byte (Claim.src s 1 x.2))
    (s.liveCopy 3).any (fun x => x.1 == copy1 && x.2.asid == 1 && (match s.copyWords x.2 x.1 x.1.shape.words with | .ok _ => true | _ => false)) = true ∧
    s.mem.phys.unplaced = [] ∧ s.mem.phys.past = [] ∧ Claim.apart s 1 xs ∧
    ((Claim.copied copy1.shape).all fun x => (s.stray (s.place1 1 x.2 rightR).2 (Claim.src s 1 x.2)).isNone &&
      (Claim.copied copy1.shape).all fun y => Claim.src s 1 x.2 / 4 != Claim.dest s 1 y.1 / 4) = true := by
  unfold Claim.apart
  decide +kernel
def saved0 : TrapRec := ⟨clause0, [], 0x11⟩
/-- Before the promised time, at it with the chunks done, and at it with a chunk undone, with a handler and without. -/
def promised (m : W64) (pr handler : Nat) : State := { waiting (.promise 0 m pr) (some saved0) with
  teams := (waiting (.promise 0 m pr) (some saved0)).teams.map fun x => (x.1, { x.2 with hdr := { khdr with handler } }) }
theorem witness_Promises : waits (promised 1 1001 0) = true ∧ waits (promised 0 1000 0) (fun a _ => (a.tracker 0).covers 0) = true ∧ waits (promised 1 1000 0) (fun a _ => !(a.tracker 0).covers 1 && a.hdr.handler == 0) = true ∧
    waits (promised 1 1000 0x10000) (fun a g => !(a.tracker 0).covers 1 && a.hdr.handler != 0 && g.trap.isNone && ((promised 1 1000 0x10000).landing 0 a.asid a.hdr.handler).isNone) = true := by decide +kernel
def matWords (m : MatMods) : List Instr := [.mzero { fl := some 11 } m, .mrnm { ty := .s16, sa := .s 2, fl := some 11 } m, .mld { sa := .s 1, fl := some 11 } m, .mexp { sa := .s 1, fl := some 11 } m,
  .mst { sa := .s 1, sb := .s 7, fl := some 11 } m, .mmov { fl := some 11, imm := 2 } m]
/-- s7 holds the row stride of MST, and s20 the gang; the format 0 is one block of trits. -/
def matState (gang : W32) : State := grpState fun g => { g with s := g.s ++ [(7, 256), (20, 1)], gang, clause := some { clause0 with hdr := { len := 3, seta := some 11 } } }
def mmao : Opnds := { sa := .s 30, sb := .s 40, sc := .v 7, fl := some 11 }
theorem witness_MatrixInstructions : ((matWords {}).all fun i => match (matState 0).view? with
      | none => false
      | some v => match Claim.matrixOf v i with
        | some (o, _, _, _, _) => issues (matState 0) i o fun v => v.grp.flags.length == 12 && rawCheck (v.scalar { ty := .u64 } .u64 (.s 1)) == .pass && mstCheck 0x20000 256 4 == .pass
        | none => false) = true ∧
    ([0, 1].all fun gang => issues (matState gang) (.mma mmao {}) mmao fun v => (v.active mmao).all (fun th => Claim.u32 v mmao (.v 7) (some th) == 0) && fmtValid 0 && mmaCheck (List.replicate 7 0) 0 == .pass) = true ∧
    ([.zero, .s 20].all fun sa => issues (matState 0) (.mgang { sa } {}) { sa } fun v => decide (v.scalar { sa } .u32 sa ≤ 2 ^ v.iss.recno)) = true := by decide +kernel
/-- An MST of a tile of zeros in i8 with a row stride of 0: it stores the 64 bytes from 0x20000. -/
def mstAt (rel : Option Scope) : MatCmd := ⟨3, issuer, some 11, .mst 0 .i8 false, 1, 0x20000, ⟨0, [], ⟨none, none⟩⟩, rel, [0], none, [.s 30, .s 40], none, false, List.replicate 7 0, [], false, [(issuer, some 11)], [(issuer, 3)]⟩
def rels : List (Option Scope) := [some .package, some .team, none]
def matting (c : MatCmd) : State := { state0 with eng := ⟨[], [], [c], []⟩ }
theorem witness_StoredTile : ∀ rel ∈ rels, ((matting (mstAt rel)).liveMat 3).any (fun x => x.1 == mstAt rel && x.2.grps.any fun g => !g.retired) = true ∧ (mstAt rel).words = [] ∧
    (matting (mstAt rel)).mem.phys.unplaced = [] := by decide +kernel
theorem stored_places : (List.range 64).all (fun j => Claim.dest (matting (mstAt none)) 1 (0x20000 + j) == 0x180000 + j &&
      (matting (mstAt none)).mem.tags.get 0 (Claim.dest (matting (mstAt none)) 1 (0x20000 + j) / 128) == ((matting (mstAt none)).place1 1 (0x20000 + j) rightW).2) = true := by decide +kernel
theorem mst_zero (rel : Option Scope) : ∀ x ∈ Claim.stored (mstAt rel) Tile.zero (fun _ => 0), 0x20000 ≤ x.1 ∧ x.1 < 0x20040 ∧ x.2 = 0 := by
  have one : Ofmt.bytes .i8 = 1 := rfl
  intro x hx
  simp only [Claim.stored, mstAt, List.mem_flatMap, List.mem_map, List.mem_range, one, Nat.lt_one_iff] at hx
  obtain ⟨i, hi, j, rfl, rfl⟩ := hx
  refine ⟨?_, ?_, rfl⟩
  · simp [wrap, sval]; omega
  · simp [wrap, sval]; omega
/-- Those bytes are the elements read out, and are apart: each stands at its own place under the key of its line. -/
theorem witness_StoredElements (i : Nat) : Claim.ReadsOut .i8 false Tile.zero.e (Tile.zero.els.get 0 i) 0 := by
  have el : Tile.zero.els.get 0 i = 0 := rfl
  have tag : Claim.tag 0 = 0 := by decide
  have mant : Claim.mant 0 = 0 := by decide
  simp only [Claim.ReadsOut, el, tag, mant]
  exact ⟨0, by simp [Claim.RoundsInt], by simp⟩
theorem witness_StoredApart (rel : Option Scope) : Claim.apart (matting (mstAt rel)) 1 (Claim.stored (mstAt rel) Tile.zero fun _ => 0) := by
  have at_ : (matting (mstAt rel)).place1 1 = (matting (mstAt none)).place1 1 := rfl
  have inRange : ∀ x ∈ Claim.stored (mstAt rel) Tile.zero (fun _ => 0), ∃ j < 64, x.1 = 0x20000 + j ∧ x.2 = 0 := fun x hx => by
    have := mst_zero rel x hx
    exact ⟨x.1 - 0x20000, by omega, by omega, this.2.2⟩
  have place := fun j (hj : j < 64) => List.all_eq_true.1 stored_places j (List.mem_range.2 hj)
  simp only [Bool.and_eq_true, beq_iff_eq, Claim.dest, ← at_] at place
  refine ⟨fun x hx y hy h => ?_, fun x hx _ => ?_⟩
  all_goals simp only [Claim.dest] at *
  · obtain ⟨i, hi, ex, zx⟩ := inRange x hx
    obtain ⟨j, hj, ey, zy⟩ := inRange y hy
    rw [ex, ey, (place i hi).1, (place j hj).1] at h
    exact Prod.ext (by omega) (zx.trans zy.symm)
  · obtain ⟨i, hi, ex, -⟩ := inRange x hx
    rw [ex]
    exact (place i hi).2
def mat0 (rec : Nat) (members : List Nat) (op : MatOp) (base : Nat) (fmt : Option W32) : MatCmd :=
  ⟨3 + rec, ⟨⟨0, 0⟩, rec⟩, some 11, op, 1, base, ⟨0, [], ⟨none, none⟩⟩, none, members, fmt, [.s 30, .s 40], none, false, List.replicate 7 0, [], false, [(⟨⟨0, 0⟩, rec⟩, some 11)], []⟩
def queued : State := grpState fun g => { g with mq := [mat0 0 [0] .mzero 0 none] }
/-- Two records whose heads are one MMA of their gang. -/
def ganged : State := { state0 with teams := [(0, { team0 grp0 ((List.range 4).map thread0) with
  grps := [{ grp0 with mq := [mat0 0 [0, 1] .mma 0 (some 0)] }, { grp0 with recno := 1, mq := [mat0 1 [0, 1] .mma 0 none] }] })] }
theorem witness_MatrixAccept : (Safety.inv queued && (queued.team? ⟨0, 0⟩).any fun a => a.ending.isNone && (a.grp? 0).any fun g => g.mq == [mat0 0 [0] .mzero 0 none]) = true ∧
    (Safety.inv ganged && (ganged.team? ⟨0, 0⟩).any fun a => a.ending.isNone && a.deadHeads.isEmpty && match a.gangHeads [0, 1] with
      | some (h :: r) => h.1 == 0 && r.length == 1 && headsAgree (h :: r) && h.2.fmt == some 0
      | _ => false) = true := by decide +kernel
/-- Operations that complete, and an MMA at non-canonical addresses. -/
theorem witness_MatrixComplete : ([mat0 0 [0] .mzero 0 none, mat0 0 [0] (.mmov 2) 0 none, mat0 0 [0] (.mrnm 3) 0 none, mat0 0 [0] .mma 0 none].all fun c => Safety.inv (matting c) && ((matting c).setOf c).isNone && ((matting c).liveMat 3).any fun x =>
      x.2.ref == x.1.iss.team && decide (x.1.acc < x.2.tiles.length) && ((matting c).matFails x.2 x.1).isEmpty && ((matting c).matPoison x.2 x.1).isNone && x.2.grps.any fun g => !g.retired) = true ∧
    ((matting { mat0 0 [0] .mma 0 (some 0) with descr := [2 ^ 60, 0, 2 ^ 60, 2 ^ 60, 0, 2 ^ 60, 0] }).liveMat 3).any (fun x => let fs := (matting x.1).matFails x.2 x.1
      !fs.isEmpty && fs.all fun f => match f with | .fail _ => true | _ => false) = true := by decide +kernel
def matTeam : Team := team0 grp0 ((List.range 4).map thread0)
theorem fails_nil {cs : List Check} (h : ∀ c ∈ cs, c = .pass) : failing cs = [] :=
  List.filter_eq_nil_iff.2 fun c hc => by rw [h c hc]; decide
theorem firstFail_pass {cs : List Check} (h : ∀ c ∈ cs, c = .pass) : firstFail cs = .pass := by
  induction cs with
  | nil => rfl
  | cons c r ih =>
    obtain rfl := h c (by simp)
    exact ih fun x hx => h x (by simp [hx])
/-- The words that the MST stores are sixteen, and each passes. -/
theorem witness_StoredPasses (rel : Option Scope) : (matting (mstAt rel)).matFails matTeam (mstAt rel) = [] := by
  have words : ∀ w ∈ (mstAt none).shape.words, w ∈ (List.range 16).map (0x20000 + 4 * ·) := by decide +kernel
  have same : (mstAt rel).shape = (mstAt none).shape := rfl
  have pass : ∀ w ∈ (List.range 16).map (0x20000 + 4 * ·), ((matting (mstAt none)).matChecks matTeam (mstAt none) w).all (· == .pass) = true := by decide +kernel
  have checks : ∀ w, (matting (mstAt rel)).matChecks matTeam (mstAt rel) w = (matting (mstAt none)).matChecks matTeam (mstAt none) w := fun _ => rfl
  change failing _ = []
  refine fails_nil fun c hc => ?_
  obtain ⟨w, hw, h⟩ := List.mem_flatMap.1 hc
  rw [checks] at h
  exact eq_of_beq (List.all_eq_true.1 (pass w (words w (same ▸ (List.mem_filter.1 hw).1))) c h)
/-- An MMA all of whose blocks pass fails nowhere. -/
theorem mma_passes {s : State} {t : Team} {c : MatCmd} {f : W32} (op : c.op = .mma) (fmt : c.fmt = some f)
    (h : ∀ b < fmtBlocks f, s.checkBlock t c f b = .pass) : s.matFails t c = [] := by
  unfold State.matFails
  rw [op, fmt]
  dsimp only
  split
  · rename_i b hb
    have p := List.find?_some hb
    rw [h b (List.mem_range.1 (List.mem_of_find?_eq_some hb))] at p
    cases p
  · rfl
theorem witness_StoredIsLive : ∀ rel ∈ rels, ((matting (mstAt rel)).liveMat 3).map (·.2) = some matTeam := by decide +kernel

/-! ### Work -/

def den0 : Den := { Den.blank 7 0 with opened := true }
def fq0 : FeedQ := ⟨4, 0, true, 4, 0x20000, 1, 0, 0, 0, 0, false, [], [], []⟩
def workState : State := { (grpState fun g => { g with s := g.s ++ [(6, 4), (8, 64)], clause := some { clause0 with hdr := { len := 3, seta := some 11 } } }) with
  front := { State.reset.front with dens := [den0], feedqs := [fq0] } }
def deno : Opnds := { sa := .s 2, sb := .s 8, fl := some 11 }
def fqo : Opnds := { dst := .s 5, sa := .s 6, sb := .s 8, fl := some 11 }
theorem witness_Work : issues workState (.denput deno) deno (fun v => v.grp.flags.length == 12 && v.scalar deno .u32 (.s 2) == 7 && (workState.den? 7).any (fun d => d.opened && d.part == v.team.part && d.records.length + d.reserved == 0) && v.scalar deno .u32 (.s 8) == 64 && decide (128 ≤ v.team.hdr.scratch)) = true ∧
    issues state0 (.denput { sa := .s 2, sb := .zero }) { sa := .s 2, sb := .zero } (fun v => (v.s.den? 7).isNone) = true ∧
    ([none, some 11].all fun fl => issues workState (.qpush { fqo with fl }) { fqo with fl } fun v => v.scalar fqo .u32 (.s 6) == 4 && v.s.feedq? 4 == some fq0 && fq0.part == v.team.part && v.scalar fqo .u32 (.s 8) == 64) = true ∧
    ([QpopMode.wait, .tryOnce].all fun m => issues workState (.qpop { fqo with fl := none } m) { fqo with fl := none }) = true ∧
    (let o : Opnds := { dst := .s 5, sa := .s 1, fl := some 11 }
     issues workState (.launch o) o fun v => v.s64 1 == 0x20000 && firstFail ((pieces 0x20000 128).map (v.s.checkPiece v.team.asid rightR anyFrame)) == .pass && (v.poisonAt (pieces 0x20000 128)).isNone) = true := by decide +kernel
def launch0 : Launch := ⟨1, 1, 0, 1, { LRec.blank with gridx := 2, gridy := 1, gridz := 1, deadline := 5, scls := 1, flags := 2 }, KHdr.placed, 0x70000, [], 0, 2, [], false, 0, false, false, false, 0, none, false, [], none⟩
/-- The issuing team's launch is listed; s6 names a launch of partition 1. -/
def launched : State := { (grpState fun g => { g with s := g.s ++ [(6, 0x8000001)] }) with front := { State.reset.front with launches := [launch0] } }
theorem witness_Counters : issues launched (.cntw { dst := .s 5, sa := .zero } .launch) { dst := .s 5, sa := .zero } (fun v => v.team.launch / 2 ^ 27 == v.team.part && (v.s.launch? v.team.launch).isSome) = true ∧
    issues launched (.cntw { dst := .s 5, sa := .s 2 } .phase) { dst := .s 5, sa := .s 2 } (fun v => (v.s.level? 0 .phase 7).isNone) = true ∧
    issues launched (.cancel { sa := .zero } .launch) { sa := .zero } (fun v => v.s.coll.live.isEmpty && v.s.front.levels.isEmpty && v.s.front.dens.isEmpty && (v.s.team? ⟨0, 0⟩).any fun a => a.item == .launch 1 && a.ending.isNone && !a.pre && a.grps.any fun g => !g.retired) = true ∧
    issues launched (.cntw { dst := .s 5, sa := .s 6 } .launch) { dst := .s 5, sa := .s 6 } (fun v => v.scalar { sa := .s 6 } .u32 (.s 6) / 2 ^ 27 != v.team.part) = true ∧
    issues launched (.cancel { sa := .s 6 } .launch) { sa := .s 6 } = true ∧ (0x40000001#64).toNat / 2 ^ 32 % 2 ^ 30 = 0 ∧ (2 ^ 61 : W64).toNat / 2 ^ 32 % 2 ^ 30 ≠ 0 := by decide +kernel
/-- A kernel header of one group, entered at 0x10000, at virtual 0x20100. -/
def khdrBytes (high : Nat := 0) : List Byte := leBytes 4 0x57524B31 ++ leBytes 2 1 ++ leBytes 2 4 ++ leBytes 8 (high + 0x10000) ++ leBytes 8 0 ++ leBytes 2 32 ++ leBytes 7 0 ++ leBytes 1 1 ++ leBytes 30 0 ++ leBytes 1 1 ++ leBytes 191 0
def memH : Mem := { mem0 with phys := mem0.phys.setBytes 0x180100 khdrBytes }
def exitso : Opnds := { sa := .s 1, sb := .zero, sc := .zero }
theorem witness_Successors : issues { (grpState fun g => g.setS 6 0x20100) with mem := memH } (.exits { exitso with sa := .s 6 }) { exitso with sa := .s 6 }
      (fun v => match v.exitsCheck 0x20100 0 0 with | .inr _ => true | _ => false) = true ∧
    issues (grpState fun g => g.setS 4 0x8000) (.exits { exitso with sb := .s 4 }) { exitso with sb := .s 4 } (fun v => decide (2 ^ 15 ≤ v.scalar exitso .u32 (.s 4))) = true ∧
    issues state0 (.region { sa := .s 2 } .set) { sa := .s 2 } (fun v => decide (v.team.cancel = 0) && v.team.preempt.isNone) = true ∧
    issues (grpState id) (.region {} .hold) {} = true := by decide +kernel

/-! ### The front end -/

def denTimer : State := { State.reset with clock := { State.reset.clock with time := 1000 }, front := { State.reset.front with dens := [{ den0 with records := [List.replicate 64 1], timer := some 1000 }] } }
def popWait (i : Nat) : State := { waiting (.pop (.s 5) 4 64 false (some i)) with
  mem := { mem0 with phys := mem0.phys.setBytes 0x18003C (leBytes 4 1) }, front := { State.reset.front with feedqs := [{ fq0 with claim := 2, tail := 2, rsv := 2 }] } }
/-- The slot of index 0 carries its SEQ 1, and that of index 1 does not carry 2. -/
theorem witness_DensAndPops : ((denTimer.den? 7).any fun d => !d.records.isEmpty && d.timer == some 1000) = true ∧
    ([0, 1].all fun i => waits (popWait i) fun a _ => match (popWait i).feedq? 4 with
      | none => false
      | some q => match (popWait i).translate q.asid (q.slot i) rightR with
        | .ok l => !(popWait i).poisoned l.pa && (field ((popWait i).physRead a.writer l.gen l.pa 64) 60 4 == i + 1) == (i == 0) && q.head == 0 && q.consumed.isEmpty
        | _ => false) = true := by decide +kernel
/-- A full and an empty queue, and TAIL at its bounds. -/
theorem witness_FeedQueue : ((popWait 0).feedq? 4).isSome = true ∧
    (let q : FeedQ := { fq0 with rsv := 16, tail := 3 }
     q.rsv - q.head = 2 ^ q.l ∧ (3#64).toNat ≤ q.tail ∧ q.tail < (16#64).toNat ∧ (16#64).toNat ≤ q.rsv ∧ (16#64).toNat - q.head ≤ 2 ^ q.l ∧ q.sleepers = [] ∧ q.rsv < (17#64).toNat) := by decide +kernel
theorem witness_Partition : [.sqbaseWrite 3 0x1000, .sqcfgWrite 3 4, .sqheadWrite 3 1, .sqdropRead 3, .frbaseWrite 3 0x1001, .frcfgWrite 3 8, .frheadWrite 3 0, .frdropRead 31, .pctlWrite 0 1, .defdefWrite 0 0, .fabshWrite 0 256,
    .hbmwWrite 0 255, .registerWrite (.slotsh 31) 0xFFFF].map (fun i => (Claim.partWrite State.reset i).map (·.2.1)) =
      [some true, some true, some false, some true, some false, some true, some true, some true, some true, some false, some false, some true, some true] ∧
    (State.reset.part 31).held = [] ∧ State.reset.parts.length = 32 := by decide +kernel
/-- A record of the header of `memH` with a grid of 2. -/
def lrecBytes (high : Nat := 0) : List Byte := leBytes 8 (high + 0x20100) ++ leBytes 4 2 ++ leBytes 2 1 ++ leBytes 2 1 ++ leBytes 112 0
/-- A record of zeros sealed in turn and one out of turn, and one of a partition under reset. -/
def sealed (bs : List Byte) (flr : Bool) : State := { State.reset with
  mgmt := { State.reset.mgmt with phy := true },
  mem := { memH with ctxs := [⟨1, 0x100000, 2, 0, false⟩] },
  front := { State.reset.front with pendingLaunches := [(2, 0, bs)] },
  parts := State.reset.parts.map fun q => { q with flr, sqbase := 0x1000, sqcfg := 4 } }
theorem witness_Seal : (sealed [] false).mgmt.phy = true ∧ (State.reset.part 31).flr = false ∧ State.reset.front.pendingLaunches = [] ∧ State.reset.mem.tags.get 0 ((State.reset.slotAddr 31 + 127) / 128) = 0 ∧
    ((sealed (List.replicate 128 0) true).part 2).flr = true ∧
    (let s := sealed (List.replicate 128 0) false
     s.front.pendingLaunches.find? (fun y => y.1 == 2) = some (2, 0, List.replicate 128 0) ∧ (s.part 2).ringRoom = true ∧ (s.part 2).held = [] ∧
      field (List.replicate 128 0) 127 1 % 128 = (s.part 2).e ∧ field (List.replicate 127 0 ++ [5]) 127 1 % 128 ≠ (s.part 2).e ∧
      (match s.checkRec 2 (s.partAsid 2) false (List.replicate 128 0) with | .refused _ => true | _ => false) = true ∧ s.mem.poison = []) ∧
    (let s := sealed lrecBytes false
     (match s.checkRec 2 (s.partAsid 2) false lrecBytes with
        | .good h none => h.entry == 0x10000
        | _ => false) = true ∧ (parseLRec lrecBytes).isDen = false ∧ s.front.intervals.length + (parseLRec lrecBytes).used.length ≤ 512 ∧
      s.front.dens = []) := by decide +kernel
/-- The same record and pages at 2^39 and above: the table's entry 0 is empty, and its entry 1 names them. -/
def sealedHigh : State := let s := sealed (lrecBytes (2 ^ 39)) false
  { s with mem := { s.mem with phys := ((mem0.phys.setBytes 0x180100 (khdrBytes (2 ^ 39))).setBytes 0x100000 (leBytes 8 0 ++ leBytes 8 0x140001)) } }
theorem witness_SealHigh : (let s := sealedHigh
      match s.checkRec 2 (s.partAsid 2) false (lrecBytes (2 ^ 39)) with | .good h none => h.entry == 2 ^ 39 + 0x10000 | _ => false) = true ∧ (parseLRec (lrecBytes (2 ^ 39))).isDen = false ∧ sealedHigh.front.dens = [] := by decide +kernel
theorem sealedHigh_entry : sealedHigh.entry (0x100000 + 8 * 0) = 0 := by decide +kernel
theorem get_absent (m : Tab Byte) (a : Nat) (h : ∀ x ∈ m, x.1 ≠ a) : m.get 0 a = 0 := by
  induction m with
  | nil => rfl
  | cons x r ih =>
    rw [Tab.get, if_neg (h x (by simp))]
    exact ih fun y hy => h y (by simp [hy])
/-- An address whose first table entry is empty is not mapped. -/
theorem absent_of_entry {s : State} {c : Ctx} {asid va : Nat} (ha : s.mem.argPages = []) (hc : s.ctx? asid = some c) (hp : s.mem.poison = [])
    {i : Nat} (hi : bits va 53 39 = i) (he : s.entry (c.root + 8 * i) = 0) : s.translate asid va {} = .absent := by
  simp [State.translate, ha, hc, State.walk, State.present, State.poisoned, hp, hi, he]
/-- Whatever address is chosen for the argument page, one of the two states has it free. -/
theorem witness_ArgumentPage (owner : Nat) (args : List Byte) :
    ((sealed lrecBytes false).argPage 1 owner args).isSome = true ∨ (sealedHigh.argPage 1 owner args).isSome = true := by
  by_cases h : bits (65536 * ((sealed lrecBytes false).choose [14, 1] % 2 ^ 37)) 53 39 = 0
  · right
    have h' : bits (65536 * (sealedHigh.choose [14, 1] % 2 ^ 37)) 53 39 = 0 := by
      rw [State.choose, show sealedHigh.sched = State.reset.sched from rfl]
      rwa [State.choose, show (sealed lrecBytes false).sched = State.reset.sched from rfl] at h
    have e := absent_of_entry (s := sealedHigh) (c := ⟨1, 0x100000, 2, 0, false⟩) (asid := 1) rfl rfl rfl h' sealedHigh_entry
    simp only [State.argPage, e, Option.isSome]
  · left
    have hi : bits (65536 * ((sealed lrecBytes false).choose [14, 1] % 2 ^ 37)) 53 39 < 2 ^ 15 := Nat.mod_lt _ (by decide)
    have cells : (sealed lrecBytes false).mem.phys.cells.all (fun x => decide (x.1 < 0x100008 ∨ 0x140000 ≤ x.1)) = true := by decide +kernel
    have z : ∀ a, 0x100008 ≤ a → a < 0x140000 → (sealed lrecBytes false).mem.phys.byte a = 0 := fun a lo up =>
      get_absent _ _ fun x hx hxa => by
        have := List.all_eq_true.1 cells x hx
        simp only [decide_eq_true_eq] at this
        omega
    generalize hv : bits (65536 * ((sealed lrecBytes false).choose [14, 1] % 2 ^ 37)) 53 39 = i at h hi
    have zero : ∀ j < 8, (sealed lrecBytes false).mem.phys.byte (0x100000 + 8 * i + j) = 0 := fun j hj => z _ (by omega) (by omega)
    have zero0 := zero 0 (by omega)
    rw [Nat.add_zero] at zero0
    have e := absent_of_entry (s := sealed lrecBytes false) (c := ⟨1, 0x100000, 2, 0, false⟩) (asid := 1) rfl rfl rfl hv
      (by simp [State.entry, List.range_succ, leNat, zero, zero0])
    simp only [State.argPage, e, Option.isSome]
def dispatching : State := { State.reset with mem := mem0, front := { State.reset.front with launches := [launch0] } }
/-- A launch dispatched whole, with no team left; a team whose budget ends now, and one without. -/
def emptied : State := { State.reset with front := { State.reset.front with launches := [{ launch0 with next := 2 }] } }
def ringed (l : Launch) : State := { emptied with
  parts := State.reset.parts.map fun q => { q with sqbase := 0x1000, sqcfg := 4 }, front := { State.reset.front with launches := [l] } }
def cancelled (w : Option Nat) : State := { state0 with teams := [(0, { team0 grp0 ((List.range 4).map thread0) with cancelBy := w })] }
theorem witness_Dispatch : ((dispatching.choice 0).any fun c => !dispatching.slotMatches ⟨0, 14⟩ c && dispatching.slotMatches ⟨0, 15⟩ c && dispatching.coreRoom 0 3 c && c.item == .launch 1 && c.from_ == .fresh) = true ∧
    dispatching.launch? 1 = some launch0 ∧ dispatching.mem.icache = [] ∧ dispatching.landing 0 1 KHdr.placed.entry = none ∧ 2 ^ 47 ≤ (dispatching.clock.time % 2 ^ 48 + 2 ^ 48 - launch0.lrec.deadline) % 2 ^ 48 := by decide +kernel
theorem witness_LaunchComplete : dispatching.launchCount launch0 ≠ 0 ∧ emptied.launchCount { launch0 with next := 2 } = 0 ∧ emptied.fab.regions = [] ∧ emptied.coll.live = [] ∧ emptied.front.levels = [] ∧ emptied.front.dens = [] ∧ emptied.parts.length = 32 ∧
    ([{ launch0 with next := 2 }, { launch0 with next := 2, cancelled := true }].all fun l => let s := ringed l
      s.launchCount l == 0 && (l.lrec.cirq || l.cancelled) && !l.killed && !l.timedOut && !(s.part 0).flr && (s.part 0).held.isEmpty && (s.part 0).ringRoom) = true ∧
    ([none, some 1001, some 1000].all fun w => ((cancelled w).team? ⟨0, 0⟩).any fun a => a.ref == ⟨0, 0⟩ && a.ending.isNone && a.cancelBy == w) = true := by decide +kernel
/-- A bind record that the checks allow, and one with a Reserved bit. -/
theorem witness_Mailboxes : State.reset.front.boxes.length = 8 ∧ (∀ b ∈ State.reset.front.boxes, b.queues.length = 8) ∧
    State.reset.bindOk ⟨383, 14⟩ 0x8010000000000000 = true ∧ State.reset.bindOk ⟨0, 0⟩ 0x8010000100000000 = false ∧ (0x8010000100000000 : W64).toNat / 2 ^ 32 % 2 ^ 18 ≠ 0 := by decide +kernel
/-- Two records, both at their end: one retires first, then the last; one that still runs does not. -/
def ended (second : Grp → Grp) (f : Team → Team := id) : State := { state0 with teams := [(0, f { team0 grp0 ((List.range 4).map fun n => { thread0 n with run := .exited }) with grps := [{ grp0 with clause := none, h := 2 }, second { grp0 with recno := 1, clause := none }] })] }
theorem witness_Retire : ((ended id).team? ⟨0, 0⟩).any (fun a => a.ending.isNone && a.grants.isEmpty && a.threads.all (·.run == .exited) && a.item == .launch 1 &&
      (a.grp? 0).any fun g => !g.retired && g.clause.isNone && g.clear && a.grps.any (fun x => x.recno != 0 && !x.retired) && a.grps.all (·.mq.isEmpty)) = true ∧
    (let s := ended fun g => { g with retired := true }
     (s.team? ⟨0, 0⟩).any fun a => a.grps.all (fun x => x.recno == 0 || x.retired) && !s.outstanding ⟨0, 0⟩ && a.succ.isNone && s.coll.live.isEmpty) = true ∧
    ((idle.team? ⟨0, 0⟩).any fun a => a.threads.any (·.run != .exited)) = true := by decide +kernel
def succ0 : SuccRec := ⟨0x20100, 0x2011, 0x4000000010, { KHdr.placed with threads := 64 }⟩
def handing : State := ended (fun g => { g with retired := true }) fun a => { a with succ := some succ0, grps := a.grps.map fun g => { g with retired := true } }
theorem witness_Successor : (handing.team? ⟨0, 0⟩).any (fun a => a.ref == ⟨0, 0⟩ && a.succ == some succ0 && a.ending.isNone && a.grps.all (·.retired) && !handing.outstanding ⟨0, 0⟩ && decide (a.cancel = 0) && handing.succFits a succ0.hdr &&
    handing.mem.phys.unplaced.isEmpty && a.scratch.unplaced.isEmpty && (handing.landing 0 a.asid succ0.hdr.entry).isNone) = true := by decide +kernel
def teamState (f : Team → Team) : State := { state0 with teams := [(0, f (team0 grp0 ((List.range 4).map thread0)))] }
theorem witness_Preempt : ((teamState fun a => { a with pre := true }).team? ⟨0, 0⟩).any (fun a => a.pre && a.ending.isNone && a.ref == ⟨0, 0⟩) = true ∧
    ([1000, 1001].all fun w => ((teamState fun a => { a with preempt := some w, frep := true }).team? ⟨0, 0⟩).any fun a => !a.pre && a.ending.isNone && a.fault.isNone && a.frep && (state0.reportOf a.item).isNone) = true ∧
    ([Ending.kill, .cancel, .preempt].all fun e => let s := { (teamState fun a => { a with ending := some e }) with front := launched.front }
      (s.team? ⟨0, 0⟩).any fun a => a.ending == some e && a.item == .launch 1 && (s.launch? 1).isSome && s.guest.queues.all (·.packets.isEmpty) && s.coll.live.isEmpty) = true := by decide +kernel

/-! ### Memory from outside, the fabric -/

def parking : State := { (teamState fun a => { a with frep := true, hdr := { khdr with flags := 0 } }) with mem := { mem0 with parked := [⟨3, 0, 1, 0x50000, some 0, .instr issuer⟩] } }
theorem witness_Host : State.reset.mgmt.phy = false ∧ (sealed [] false).mgmt.phy = true ∧ (∀ l ∈ linesOf 0x1000000000FC 8, State.reset.mem.tags.get 0 l = 0) ∧ physKind 0x1000000000FC = .host ∧ physKind (0x1000000000FC + 7) = .host ∧
    physKind 0x100008 = .hbm ∧ State.reset.mem.tags.get 0 (0x100008 / 128) = 0 ∧
    (parking.mem.parked.find? (fun y => y.num == 3)).any (fun p => p.who == .instr issuer) = true ∧
    (parking.team? ⟨0, 0⟩).any (fun a => a.ref == ⟨0, 0⟩ && a.ending.isNone && !a.hdr.flags.testBit 0 && a.fault.isNone && a.frep && (parking.reportOf a.item).isNone && (a.grp? 0).any (·.clause.isSome)) = true ∧
    (parking.teams.all fun x => x.2.grps.any fun g => !g.retired) = true := by decide +kernel
/-- s8 the length and offset, s9 the target word: package 2 of a pod of the packages 0 to 3; s10 names one that is no member. -/
def pod : State := { (grpState fun g => { g with s := g.s ++ [(6, 64), (8, 0x400000100), (9, 2), (12, 8), (13, 0x5000000002), (14, 0x400000000), (15, 9)], clause := some { clause0 with hdr := { len := 3, seta := some 11 } } }) with
  fab := { State.reset.fab with mask := 0xF, state := .locked, calL := 3, commits := 1 } }
def fso : Opnds := { dst := .s 5, sa := .s 8, sb := .s 1, fl := some 11 }
def fao : Opnds := { ty := .u64, dst := .s 5, sa := .s 12, sb := .s 2, fl := some 11 }
theorem witness_FabricRequests : issues pod (.fsend fso {}) fso (fun v => match Claim.requestOf v (.fsend fso {}) with
      | some (_, _, tw, off, len, src, _, _) => decide (tw = 2 ∧ off = 0x100 ∧ len = 4 ∧ src = 0x20000 ∧ v.grp.flags.length = 12 ∧ v.s.fab.reqs = []) && v.s.fab.has 2 && v.s.fab.commits != 0 && firstFail ((pieces src len).map (v.s.checkPiece v.team.asid rightR anyFrame)) == .pass
      | none => false) = true ∧
    ([FatomVar.add, .cas].all fun w => let o := { fao with sc := if w = .cas then .s 3 else .v 0, imm := if w = .cas then 1 else 0 }
      issues pod (.fatom o {} w) o fun v => decide (v.s64 12 = 8 ∧ v.s64 13 % 64 = 2)) = true ∧
    issues pod (.fsend { fso with sa := .s 14 } {}) { fso with sa := .s 14 } (fun v => decide (v.s64 15 = 9) && !v.s.fab.has 9) = true ∧
    issues { pod with fab := { pod.fab with commits := 0 } } (.fsend fso {}) fso (fun v => v.s64 9 == 2 && v.s.fab.commits == 0 && v.s.fab.me != 2) = true := by decide +kernel
theorem witness_RegionsAndDrains : issues (grpState fun g => { g with s := g.s ++ [(4, 0x40), (14, 0x20000), (15, 0x700001000), (6, 0x3001F)] }) (.freg { sa := .s 14, sb := .s 6 } {}) { sa := .s 14, sb := .s 6 }
      (fun v => decide (v.scalar {} .u64 (.s 6) / 2 ^ 10 % 2 ^ 6 = 0 ∧ v.scalar {} .u64 (.s 6) < 2 ^ 18 ∧ (v.s.region 31).state = .free ∧ v.s64 15 % 4 = 0) && canonical (0x20000 + 0xFFF)) = true ∧
    ([0, 1].all fun flight => let s := { grpState id with fab := { State.reset.fab with regions := [(7, ⟨.open_, 1, 1, 0x20000, 0x1000, 7, true, true, 0, flight⟩)] } }
      issues s (.frev { sa := .s 2 } {}) { sa := .s 2 } fun v => decide ((v.s.region 7).state ≠ .free ∧ (v.s.region 7).launch = v.team.launch)) = true ∧
    issues state0 (.fwait { dst := .s 5, sa := .s 2, sb := .s 2, sc := .zero } {} .arr) { dst := .s 5, sa := .s 2, sb := .s 2, sc := .zero } = true ∧
    issues pod (.fdrain { dst := .s 5, sa := .s 6, fl := some 11 } {}) { dst := .s 5, sa := .s 6, fl := some 11 } (fun v => decide (v.scalar {} .u64 (.s 6) = 64 ∧ v.s.fab.drains = [])) = true ∧
    ([(FqryItem.pod, 0), (.cal, 1), (.back, 2), (.rgn, 3), (.arr, 4), (.err, 5), (.lfsr, 6)].all fun x => let o : Opnds := { dst := .s 5, sa := .s 2, imm := BitVec.ofNat 24 x.2 }
      issues pod (.fqry o {} x.1) o fun v => decide (v.scalar o .u64 (.s 2) < 1024 ∧ v.scalar o .u64 (.s 2) / 32 = v.team.part)) = true := by decide +kernel
/-- With no request outstanding every queue has room. -/
theorem witness_FabricRoom : ∀ hop tc part, pod.fab.room hop tc part = true := by
  intro hop tc part
  have h : pod.fab.reqs = [] := rfl
  simp [Fab.room, h]

/-! ### Collectives, the guest, system instructions -/

def bind0 : Binding := ⟨7, 0, 0, false, 0, false, 0, 0, [0, 0, 0, 2, 1, 1], 128, 0x20000, 128, 128, 0x20000, 0xF, 1000⟩
def coll0 : Coll := ⟨0, 0, 1, 1, 0, bind0, 3, 0, [], [], [], [], [], 9, [], false, false, 5000⟩
/-- The issuing team's launch is bound to a live collective of two chunks; s6 is its CID; s14 and s15 a range. -/
def binding (len : W64) (f : Coll → Coll) (ranges : Nat) : State := { (grpState fun g => { g with s := g.s ++ [(6, 7), (14, 0x20000), (15, len)], clause := some { clause0 with hdr := { len := 3, seta := some 11 } } }) with
  coll := ⟨[f coll0], List.replicate ranges ⟨0, 128, 1, 3, true⟩, []⟩, front := { State.reset.front with launches := [{ launch0 with coll := some 7 }] } }
def crano : Opnds := { dst := .s 5, sa := .s 6, sb := .s 14, fl := some 11 }
def cfo : Opnds := { dst := .s 5, sa := .s 6, fl := some 11 }
theorem witness_Crange : ([(64, 0), (0, 0), (128, 0), (128, 256)].all fun x => issues (binding x.1 id x.2) (.crange crano) crano fun v => decide (v.s64 15 = x.1.toNat ∧ v.s64 14 = 0x20000) &&
      (v.s.coll? v.team.part 7).isSome && decide (v.s.coll.ranges.length + (v.s.runs v.team.asid 0x20000 128).length ≤ 256) == (x.2 == 0) &&
      (pageStarts 0x20000 128).all fun a => match v.s.translate v.team.asid a {} with | .ok _ => true | _ => false) = true ∧
    issues (binding 128 id 0) (.crange { crano with sa := .s 2 }) { crano with sa := .s 2 } = true ∧ issues (grpState fun g => { g with s := g.s ++ [(6, 8), (14, 0x20000), (15, 128)], clause := some { clause0 with hdr := { len := 3, seta := some 11 } } }) (.crange crano) crano (fun v => (v.s.coll? 0 8).isNone) = true := by decide +kernel
theorem witness_Cfire : ([[], [0]].all fun fired => issues (binding 0 (fun c => { c with fired }) 0) (.cfire cfo) cfo fun v => v.s.collOf v.team == v.s.coll? v.team.part 7 && (v.s.collOf v.team).any fun c => c.bind.cid == 7 && c.part == 0 && c.bind.chunk v.team.coord == some 0 && (c.fired.contains 0 == (fired == [0]))) = true ∧
    issues (binding 0 (fun c => { c with bind := { bind0 with box := [1, 0, 0, 1, 1, 1] } }) 0) (.cfire cfo) cfo (fun v => (v.s.collOf v.team).any fun c => (c.bind.chunk v.team.coord).isNone) = true ∧
    issues flagState (.cfire { cfo with sa := .s 2 }) { cfo with sa := .s 2 } (fun v => (v.s.collOf v.team).isNone) = true := by decide +kernel
theorem witness_CjoinCdrop : ([[], [0, 1]].all fun fired => issues (binding 0 (fun c => { c with fired }) 0) (.cjoin cfo) cfo fun v => (v.s.coll? 0 7).any fun c => decide (c.bind.nchunk = 2 ∧ c.fired.length = fired.length)) = true ∧
    issues flagState (.cjoin { cfo with sa := .s 2 }) { cfo with sa := .s 2 } (fun v => (v.s.coll? 0 7).isNone) = true ∧ issues (binding 0 id 0) (.cdrop { sa := .s 6, fl := some 11 }) { sa := .s 6, fl := some 11 } (fun v => (v.s.coll? 0 7).isSome) = true := by decide +kernel
/-- Queue 7 of the guest, with one packet, or none; the port fenced, or not. -/
def guested (packets : List Packet) (fenced enabled : Bool) : State := { (grpState fun g => { g with s := g.s ++ [(6, 64), (8, 1)], clause := some { clause0 with hdr := { len := 3, seta := some 11 } } }) with
  guest := { State.reset.guest with fenced, present := !fenced, queues := (List.range 64).map fun n => if n = 7 then ⟨0x200000, 0x201000, 4, 0, enabled, packets.length, 0, packets⟩ else ⟨0, 0, 4, 0, false, 0, 0, []⟩ } }
def packet0 : Packet := ⟨0, ⟨9, issuer, none, .s 5⟩, 1, none, []⟩
def gso : Opnds := { dst := .s 5, sa := .s 2, sb := .s 6, fl := some 11 }
def gwo : Opnds := { dst := .s 5, sa := .s 2, sb := .s 8, sc := .zero }
theorem witness_Guest : ([true, false].all fun acq => issues (guested [] false true) (.gsub gso acq) gso fun v => let g := v.s.gq 7
      g.enabled && g.part == v.team.part && !v.s.guest.fenced && v.s.guest.queues.length == 64 && decide (v.scalar gso .u32 (.s 6) = 64 ∧ g.sub - g.cmp ≠ 2 ^ g.l) && v.s.mem.tags.get 0 ((g.sq + 64 * (g.sub % 2 ^ g.l)) / 128) == 0) = true ∧
    ([[], [packet0]].all fun ps => issues (guested ps false true) (.gcan { gso with sb := .s 8 }) { gso with sb := .s 8 } fun v => ((v.s.gq 7).packets.filter fun p => seqReached (seqOf p.i) 1).length == ps.length) = true ∧
    issues (guested [] true true) (.gwait gwo) gwo = true ∧ issues (guested [] false false) (.gwait gwo) gwo (fun v => !(v.s.gq 7).enabled) = true ∧
    issues (guested [] false true) (.gsub { gso with sa := .s 6 } false) { gso with sa := .s 6 } (fun v => decide (64 ≤ v.scalar gso .u32 (.s 6))) = true ∧ issues (guested [] true true) (.gsub gso true) gso (fun v => v.s.guest.fenced) = true := by decide +kernel
/-- With the handler of `khdr`; without one; in trap state. -/
def noHandler : State := teamState fun a => { a with hdr := { khdr with handler := 0 }, frep := true }
def trapped : State := grpState fun g => { g with trap := some { saved0 with code := 0x13 } }
theorem witness_Traps : (let p (v : View) : Bool := v.team.hdr.handler != 0 && v.grp.trap.isNone && v.team.msets.isEmpty && v.present.all (·.meet == 0) && (v.s.landing 0 v.team.asid v.team.hdr.handler).isNone
      issues state0 (.trap { sa := .imm, imm := 0xFFFF }) { sa := .imm, imm := 0xFFFF } p && issues state0 (.bkpt {}) {} p) = true ∧
    issues noHandler (.bkpt {}) {} (fun v => v.team.hdr.handler == 0) = true ∧ issues trapped (.bkpt {}) {} (fun v => v.grp.trap.isSome) = true ∧
    issues noHandler (.trap { sa := .s 2 }) { sa := .s 2 } (fun v => v.team.ref == v.iss.team && v.team.fault.isNone && v.team.frep && (v.s.reportOf v.team.item).isNone) = true ∧
    ([true, false].all fun skip => issues trapped (.resume {} skip) {} fun v => (v.active {}).length == v.present.length && v.grp.trap.any fun r => v.cl.issue == r.clause.issue) = true ∧
    issues state0 (.resume {} false) {} (fun v => v.grp.trap.isNone) = true ∧ issues trapped (.resume { pk := 1 } true) { pk := 1 } (fun v => (v.active { pk := 1 }).length != v.present.length) = true := by decide +kernel
/-- MASK.VEC 72 of SWR, with a ring that has room and one of no entry left; a Reserved bit. -/
def ringing (tail : Nat) : State := { state0 with parts := State.reset.parts.map fun q => { q with sqbase := 0x1000, sqcfg := 4, sqtail := tail } }
def swro (imm : BitVec 24) : Opnds := { dst := .s 5, sa := .s 2, sb := .imm, imm }
theorem witness_StatusRecords : issues (ringing 0) (.swr (swro 0x48)) (swro 0x48) (fun v => let q := v.s.part v.team.part
      q.ringRoom && q.held.isEmpty && !q.flr && v.s.parts.length == 32 && v.scalar (swro 0x48) .u32 .imm == 0x48) = true ∧
    issues (ringing 16) (.swr (swro 0x3F)) (swro 0x3F) (fun v => !(v.s.part v.team.part).ringRoom) = true ∧
    ([0x80, 0x47].all fun x => issues (ringing 0) (.swr (swro x)) (swro x)) = true ∧ issues state0 (.warnc { dst := .s 5, sa := .imm, imm := 1 }) { dst := .s 5, sa := .imm, imm := 1 } = true := by decide +kernel

/-! ### Waits, the fabric's own steps -/

def endsWith (T : Terminal) : State := { atEnd (some T) with front := { State.reset.front with feedqs := [fq0, { fq0 with num := 5, tail := 1, rsv := 1 }] }, guest := (guested [] false true).guest }
/-- Each wait, met at once and not met. -/
theorem witness_WaitsBegin : ([(Terminal.wait (.fab (.s 5) true 0 0 0 0) [0, 1], some 0), (.wait (.fab (.v 6) false 0 1 9 0) [0, 1, 2, 3], some 0), (.wait (.fab (.s 5) true 0 1 9 0) [2], none),
      (.wait (.guest (.s 5) 7 0 0 0) [0], some 0), (.wait (.guest (.s 5) 7 1 0 0) [0], none), (.wait (.pop (.s 5) 4 64 true none) [1], some (2 ^ 64 - 1)), (.wait (.pop (.s 5) 4 64 false none) [1], none),
      (.wait (.pop (.s 5) 5 64 false none) [1], none), (.waita (.s 5) 0x180000 0 4 1 0 [3], none), (.waita (.s 5) 0x180000 0 4 2 0 [3], some 0)].all fun x =>
    issues (endsWith x.1) (.clend []) {} fun v => v.team.ref == v.iss.team && v.team.ending.isNone && v.team.msets.isEmpty && v.present.all (·.meet == 0) && v.team.grps.all (fun g => g.mq.isEmpty) &&
      v.cl.term == some x.1 && (Claim.waitOf v x.1).any fun w => !w.2.1.isEmpty && w.2.2.1 == x.2) = true := by decide +kernel
theorem witness_ResumeReturns : ([true, false].all fun skip => issues (grpState fun g => { g with trap := some { saved0 with code := 3 }, clause := some { clause0 with pos := 3, term := some (.resume skip) } }) (.clend []) {} fun v =>
    v.team.ending.isNone && v.team.msets.isEmpty && v.team.grps.all (fun g => g.mq.isEmpty) && v.cl.term == some (.resume skip) && v.grp.trap.isSome) = true := by decide +kernel
def reqTk : Ticket := ⟨9, issuer, some 11, .s 5⟩
def req0 (k : Nat) (st : ReqState) (body : Option FabBody) : FabReq := ⟨6, some issuer, none, 0, 2, 0, false, none, none, 0, st, true, k, 1000, 0, 0, 0, 8, 0x20000, body, ⟨0, [], ⟨none, none⟩⟩, some reqTk, none, false⟩
/-- The calendar gives port 3 in slot 2 to port 5 of package 2. -/
def fabState (q : List FabReq) (time : Nat) : State := { (grpState fun g => { g with flags := List.replicate 11 0 ++ [1] }) with
  clock := { State.reset.clock with time }, fab := { pod.fab with reqs := q, reqNo := 7, cal := (List.replicate 64 0).set 19 (0x8000 + 0x5000 + 2) } }
def sentState (k time : Nat) : State := fabState [req0 k (.sent k) none] time
theorem witness_Requests : ([(0, 999), (6, 1000), (7, 1000)].all fun x => Safety.inv (sentState x.1 x.2) && (sentState x.1 x.2).fab.reqs.find? (fun y => y.num == 6) == some (req0 x.1 (.sent x.1) none) && !(sentState x.1 x.2).fab.frozen &&
      (sentState x.1 x.2).fab.up && (sentState x.1 x.2).fab.drains.isEmpty && (sentState x.1 x.2).teams.all (fun x => x.2.grps.any fun g => !g.retired) && !(sentState x.1 x.2).fab.isMe 2 && (sentState x.1 x.2).fab.badPorts.isEmpty) = true ∧
    (∃ a g, (sentState 7 1000).team? ⟨0, 0⟩ = some a ∧ a.grp? 0 = some g ∧ g.flags.length = 12) := ⟨by decide +kernel, _, _, rfl, rfl, rfl⟩
/-- 20 ns into a slot, and 19 ns, of the window with package 2. -/
theorem witness_Windows : (let s := fabState [req0 0 .queued (some (.add 1))] 1060
      let e := nth 0 s.fab.cal (8 * s.fslot + 3)
      s.fab.up && e.testBit 15 && decide ((s.clock.time - s.fab.epoch) % 520 = 20 ∧ s.fab.badPorts = [] ∧ s.fab.windows.get 0 3 ≠ s.slotCount + 1 ∧ s.fab.commits = 1 ∧ s.fab.relays = [] ∧ s.fab.owed = [] ∧ (req0 0 .queued none).len ≤ 100000) &&
        e % 64 == 2 && e / 2 ^ 12 % 8 == 5 && s.service 2 == [req0 0 .queued (some (.add 1))]) = true ∧
    (1059 - (fabState [] 1059).fab.epoch) % 520 < 20 := by decide +kernel
def packet (body : FabBody) : FabPacket := ⟨3, 0, 11, 0, 0, none, 0, 7, 7, 0x100, body⟩
/-- Region 7 with key 7, at the writable page of `pages`. -/
def arriving : State := { fabState [] 1000 with fab := { (fabState [] 1000).fab with regions := [(7, ⟨.open_, 1, 1, 0x20000, 0x104, 7, true, true, 0, 0⟩)] } }
theorem witness_Arrivals : (let s := arriving
      let p := packet (.send [1, 2, 3, 4])
      s.fab.up && s.fab.badPorts.isEmpty && s.fab.has p.src && p.src != s.fab.me && p.dest == s.fab.me && s.teams.all (fun x => x.2.grps.any fun g => !g.retired) && s.fab.filter.isEmpty && s.fab.stalled.isEmpty && p.stream.isNone &&
        decide (p.region / 32 = p.part ∧ (s.region 7).state = .open_ ∧ p.key = (s.region 7).key ∧ p.off + 4 ≤ (s.region 7).len ∧ (s.region 7).w = true) && canonical ((s.region 7).base + p.off) &&
        match s.translate 1 0x20100 rightW with | .ok l => !s.collHit l.pa 4 && s.mem.tags.get 0 (l.pa / 128) == l.gen | _ => false) = true ∧
    (packet (.send [])).key ≠ (8 : W32) ∧ arriving.fab.has 2 = true ∧ 2 ≠ arriving.fab.me ∧ (arriving.fab.relays.map fun x => bodySize x.2.body).sum + bodySize (.send [1]) ≤ 2 ^ 22 ∧ arriving.fab.has 9 = false ∧
    arriving.fab.streamStalled 3 0 0 = false ∧ (arriving.fab.stream? 3 0 0).early = [] ∧
    (let e : Filtered := ⟨3, 11, 0, 0, 5⟩
     ([e].find? fun e => e.src == 3 && e.num == 11) = some e) := by decide +kernel
/-- A calendar to stage; DARK, and RELOCK with one member and with more, before and at their time. -/
def darkening (time : Nat) : State := { State.reset with clock := { State.reset.clock with time, runs := true }, fab := { pod.fab with darkAt := some 1560 } }
def relocking (mask : W64) (time : Nat) : State := { State.reset with
  clock := { State.reset.clock with time, runs := true }, fab := { pod.fab with mask, state := .relocking, relockAt := some 1560, darkDone := true } }
theorem witness_Calendars : ((darkening 1559).clock.time < 1560 ∧ (darkening 1560).fab.reqs = [] ∧ (darkening 1560).fab.owed = [] ∧ (darkening 1560).teams = [] ∧ (darkening 1560).fab.darkAt = some 1560) ∧
    (∀ m : W64, (relocking m 1560).fab.relockAt = some 1560 ∧ (relocking m 1560).fab.state = .relocking ∧ (relocking m 1560).fab.darkDone = true ∧ (relocking m 1560).fab.reqs = []) ∧
    (2000 : Int).natAbs ≤ 2000 ∧ 2000 < (-2001 : Int).natAbs ∧ (relocking 1 0).fab.state ≠ .alone ∧
    { State.reset.clock with runs := true }.runs = true ∧ State.reset.fab.inPod = false ∧ 2 ^ 11 ≤ (0x900 : W64).toNat ∧ (0x700 : W64).toNat < 2 ^ 11 :=
  ⟨by decide +kernel, fun _ => ⟨rfl, rfl, rfl, rfl⟩, by decide, by decide, by decide, rfl, rfl, by decide, by decide⟩
theorem witness_WaitTimeouts : ([0, 401, 400].all fun limit => waits (waiting (.fab (.s 5) true 0 1 limit 600)) && waits (waiting (.guest (.s 5) 7 1 limit 600))) = true ∧ (waiting (.claim 0)).clock.time < 600 + 401 ∧ 600 + 400 ≤ (waiting (.claim 0)).clock.time := by decide +kernel

/-! ### Collectives and the guest -/

def chunk0 : Chunk := ⟨coll0.bind.digest, 0, false, List.replicate 128 1, 0, 1⟩
def collecting (live : List Coll) (pool : List Unmatched) : State := { fabState [] 1000 with coll := ⟨live, [], pool⟩ }
def full : List Unmatched := List.replicate 2 ⟨3, 1, 0, { chunk0 with digest := { chunk0.digest with cbytes := 2 ^ 19 } }⟩
def stepping (s : State) : Bool := s.fab.up && s.fab.badPorts.isEmpty && s.fab.has 3 && s.fab.me == 0 && s.fab.filter.isEmpty && s.fab.stalled.isEmpty && s.teams.all fun x => x.2.grps.any fun g => !g.retired
theorem witness_CollectiveArrivals : (stepping (collecting [coll0] []) && decide (coll0.bind.memb.getLsbD 3 = true ∧ coll0.seen = []) && (collecting [coll0] []).coll? 0 7 == some coll0 && (collecting [] []).coll? 0 7 == none &&
      decide (chunk0.digest.cbytes + 64 ≤ 2 ^ 20) && decide (2 ^ 20 < ((full.filter fun u => u.part == 0).map fun u => u.chunk.digest.cbytes + 64).sum + chunk0.digest.cbytes + 64)) = true := by decide +kernel
/-- One that is complete and joined, one at its deadline, and one with a snapshot of a tile. -/
def finishing (f : Coll → Coll) (time : Nat) : State := { grpState id with clock := { State.reset.clock with time }, coll := ⟨[f { coll0 with joins := [reqTk], fired := [0, 1] }], [], []⟩ }
theorem witness_CollectiveEnds : (let s := finishing (fun c => { c with counter := 0, reduceDone := true }) 1000
      (s.coll? 0 7).any (fun c => c.counter == 0 && c.second == 0 && c.reduceDone && c.joins == [reqTk] && c.snaps.isEmpty && c.fired.length == c.bind.nchunk) && (s.teamsOf (.reduce 0 7)).isEmpty && s.fab.reqs.isEmpty && s.mem.phys.unplaced.isEmpty &&
        s.eng.landings.isEmpty && (s.grp? reqTk.iss).isSome && s.teams.all fun x => x.2.grps.any fun g => !g.retired) = true ∧
    ([4999, 5000].all fun time => ((finishing id time).coll? 0 7).any fun c => c.deadline == 5000 && c.snaps.isEmpty && c.counter != 0 && (finishing id time).fab.reqs.isEmpty && ((finishing id time).teamsOf (.reduce 0 7)).isEmpty &&
      (finishing id time).teams.all fun x => (x.2.waitsOf fun k => match k with | .monitor .. => true | _ => false).isEmpty) = true ∧
    (let s := finishing (fun c => { c with bind := { bind0 with srck := true }, snaps := [⟨1, ⟨0, 0⟩, none, 0⟩] }) 0
     (s.coll? 0 7).any fun c => c.snaps.find? (·.k == 1) == some ⟨1, ⟨0, 0⟩, none, 0⟩ && c.part == 0 && c.bind.srck && (s.team? ⟨0, 0⟩).isSome && s.mem.parked.isEmpty) = true := by decide +kernel
/-- A shadow entry, an invalidation that is due, a stop that is due, and excess power for 1 ms. -/
def served : State := { guested [{ packet0 with stop := some 1000 }] false true with
  guest := { (guested [{ packet0 with stop := some 1000 }] false true).guest with shadows := [⟨1, 0x20000, 0x180000, 65536, none, true, true⟩], invals := [⟨1000, 1, []⟩], excessSince := some 0 }, mgmt := { State.reset.mgmt with now := 1000000 } }
theorem witness_GuestSteps : (served.guest.queues.length == 64 && !served.guest.fenced && (served.shadowOf 0x180000 8 true).isSome && (served.shadowOf 0x190000 8 false).isNone && (served.shadowOf 0x190000 8 true).isNone && !served.collHit 0x180000 8 &&
      (linesOf 0x180000 8).all (fun l => served.mem.tags.get 0 l == 0) && !served.packetsOf 5 && served.guest.invals.any (fun y => decide (y.due ≤ served.clock.time)) && (served.gq 7).packets.any (fun p => p.stop == some 1000) &&
      (served.gq 7).cmp == 0 && (served.gq 7).sub == 1 && decide (0 + 1000000 ≤ served.mgmt.now) && served.guest.cancels.isEmpty && (guested [] true true).guest.fenced &&
      (served.ringOf 0x190000 8 false).isNone && (served.ringOf 0x190000 8 true).isNone && served.ringOf 0x200000 64 false == some 7 && (served.shadowOf 0x200000 64 false).isNone) = true := by decide +kernel
/-- Requests for the page of the packet's context, for an execution there, for an address that is not canonical, and for one that was answered FAULT; a late acknowledgement. -/
theorem witness_Translations : (served.packetsOf 1 && (served.guest.queues.any fun g => g.packets.any fun p => p.asid + 2 ^ 12 * g.part == 1) && decide (served.guest.shadows.length < 4096) && (match served.translate 1 0x20000 ⟨true, true, false⟩ with
      | .ok l => physKind (l.pa / l.size * l.size) == .hbm | _ => false) &&
      (match served.translate 1 0x20000 ⟨false, false, true⟩ with | .refused => true | _ => false) && !canonical (2 ^ 60)) = true ∧
    (guested [{ packet0 with faulted := [0x900000] }] false true).guest.queues.any (fun g => g.packets.any fun p => p.faulted.contains 0x900000) = true ∧
    ([(999, 1)].all fun y => decide (y.1 < served.clock.time)) = true := by decide +kernel
theorem witness_GuestRegisters : (0x8000000000000108 : W64).toNat / 2 ^ 13 % 2 ^ 50 = 0 ∧ (0x8000000000000108 : W64).toNat / 2 ^ 4 % 2 ^ 4 = 0 ∧ (0x8000000000000108 : W64).toNat % 16 = 8 ∧ (State.reset.gq 63).enabled = false ∧
    8 < (9 : W64).toNat % 16 ∧ State.reset.mgmt.stage < 7 ∧
    (let s := { State.reset with mgmt := { State.reset.mgmt with stage := 7, rails := List.replicate 11 ⟨0, true, true, false, 800, 0, 0⟩, ucie := List.replicate 4 ⟨true, 0, 1, 64⟩ } }
     7 ≤ s.mgmt.stage ∧ s.mgmt.off = false ∧ (s.rail 10).good = true ∧ s.mgmt.ucie.all (fun u => u.result == 1) = true) := by decide +kernel

/-! ### Errors, resets, Genmon -/

theorem witness_KeyOwners : (let s := { State.reset with mem := { State.reset.mem with owners := [(5, 0x83)] } }
      (s.mem.owners.get 0 5).getLsbD 7 = true ∧ (0x84 : Byte).getLsbD 7 = true ∧ (s.mem.owners.get 0 5).toNat % 32 ≠ (0x84 : Byte).toNat % 32 ∧ (0x40 : Byte).getLsbD 6 = true ∧ (0x83 : Byte).getLsbD 6 = false ∧ (s.mem.keys.map (·.1)).Nodup) ∧
    (launched.front.launches.any fun l => l.asid == 1 && (launched.reportOf (.launch l.id)).isNone) = true := by decide +kernel
def resetting : State := { State.reset with parts := State.reset.parts.map fun q => { q with flr := true } }
theorem witness_Resets : (State.reset.part 31).flr = false ∧ (resetting.part 31).flr = true ∧ resetting.flrReady 31 = true ∧ State.reset.parts.length = 32 ∧ (state0.team? ⟨0, 0⟩).any (fun a => a.ref == ⟨0, 0⟩ && a.part == 0) = true ∧
    ({ state0 with parts := resetting.parts }).flrReady 0 = false := by decide +kernel
def railed (stage good : Nat) (x : Rail) : State := { State.reset with mgmt := { State.reset.mgmt with
  stage, now := 2000000, rails := ((List.range 11).map fun n => ⟨0, n < good, n < good, false, 800, 0, 0⟩).set good x } }
theorem witness_BringUp : (State.reset.mgmt.rails.length = 11 ∧ State.reset.mgmt.hbm.length = 8 ∧ State.reset.mgmt.ucie.length = 4 ∧ State.reset.mgmt.optics.length = 8) ∧
    (let s := railed 3 4 ⟨0, false, false, false, 0, 0, 0⟩
     s.mgmt.off = false ∧ s.mgmt.error = 0 ∧ (s.rail 4).enable = false ∧ (s.mgmt.rails.take 4).all (·.good) = true ∧ s.mgmt.stage = 3 ∧ 650 ≤ 750 % 2 ^ 16 ∧ 750 % 2 ^ 16 ≤ 900) ∧
    (let s := railed 3 4 ⟨0, true, false, false, 0, 0, 0⟩
     (s.rail 4).enable = true ∧ (s.rail 4).good = false ∧ (s.rail 4).fault = false ∧ (s.rail 4).since + 2000000 ≤ s.mgmt.now ∧ s.mgmt.now ≤ (s.rail 4).since + 2000000 ∧ State.reset.mgmt.now < (State.reset.rail 4).since + 2000000) ∧
    (let s := { State.reset with mgmt := { State.reset.mgmt with stage := 4, now := 5000000, hbm := ⟨false, 0, 0, 0⟩ :: ⟨true, 1, 0, 0⟩ :: List.replicate 6 ⟨true, 8, 0, 0⟩, ucie := List.replicate 4 ⟨true, 1, 0, 0⟩, optics := ⟨true, true, 0, false, false, 0, 0⟩ :: List.replicate 7 ⟨false, false, 0, false, false, 0, 0⟩ } }
     s.mgmt.stage = 4 ∧ s.mgmt.error = 0 ∧ (nth ⟨false, 0, 0, 0⟩ s.mgmt.hbm 0).start = false ∧ (nth ⟨false, 0, 0, 0⟩ s.mgmt.hbm 7).start = true ∧ (nth ⟨false, 0, 0, 0⟩ s.mgmt.hbm 7).result = 0 ∧ (nth ⟨false, 0, 0, 0⟩ s.mgmt.hbm 7).step = 8 ∧ (nth ⟨false, 0, 0, 0⟩ s.mgmt.hbm 1).step ≠ 8 ∧
      (s.optic 0).laserAt + 1000000 ≤ s.mgmt.now ∧ s.mgmt.now ≤ (s.optic 0).lockAt + 5000000 ∧ (s.optic 0).lockAt + 5000000 ≤ s.mgmt.now ∧
      (nth ⟨false, 0, 0, 0⟩ s.mgmt.ucie 3).start = true ∧ (nth ⟨false, 0, 0, 0⟩ s.mgmt.ucie 3).result = 0 ∧ (s.optic 0).lock = true ∧ (s.optic 0).out = false ∧ (s.optic 0).all = false ∧ (s.optic 0).laser = true ∧ (s.optic 7).laser = false) ∧
    ((railed 8 10 ⟨0, true, true, false, 0, 0, 0⟩).rail 9).good = true ∧ (State.reset.rail 9).good = false ∧ (0xFFFFFFFE : W32) ≠ 0xFFFFFFFF := by decide +kernel
theorem witness_Limits : State.reset.clock.dies.length = 4 ∧ 1600 ≤ 1600 ∧ 2100 ≤ 2100 ∧ 2100 < 2101 ∧ (1599 : Nat) < 1600 ∧ (0x000A000A : W64).toNat % 2 ^ 16 = 10 ∧ (0x000A000A : W64).toNat / 2 ^ 16 = 10 ∧ 250 < (0x00FB0400 : W64).toNat / 2 ^ 16 ∧
    (0x000B000A : W64).toNat % 2 ^ 16 < (0x000B000A : W64).toNat / 2 ^ 16 ∧ (47 < 48) ∧ (48 ≤ 48) ∧ (0, 16, (960 : Int)) ∈ [(0, 16, (960 : Int)), (16, 16, 960)] ∧ State.reset.mgmt.temps = [] := by decide +kernel
/-- Genmon up and idle; an owned key id; bank B in use; a trial that ran. -/
theorem witness_Genmon : (∀ c, Claim.takes State.reset c) ∧ { State.reset.mgmt with busy := true, cmd := 9 }.busy = true ∧ State.reset.mgmt.quotes < 2 ^ 20 ∧ ¬ (2 ^ 20 < 2 ^ 20) ∧
    (State.reset.mem.owners.get 0 4095).getLsbD 7 = false ∧ (let s := { State.reset with mem := { State.reset.mem with owners := [(4095, 0x80)] } }; (s.mem.owners.get 0 4095).getLsbD 7 = true ∧ s.mem.keys = []) ∧
    State.reset.mgmt.targets.length = 9 ∧ (State.reset.target 8).usedB = false ∧ (State.reset.target 8).trial = false ∧ State.reset.recovery = false ∧ 0x3FF00A + 4086 ≤ 2 ^ 22 ∧ State.reset.mgmt.meas.length = 16 :=
  ⟨fun _ => ⟨by decide +kernel, by decide +kernel, Or.inl (by decide +kernel)⟩, rfl, by decide +kernel, by decide, by decide +kernel, by decide +kernel, by decide +kernel, by decide +kernel, by decide +kernel, by decide +kernel, by decide, by decide +kernel⟩
/-- A key unwraps, or does not: each case has its clause. -/
theorem witness_Keyload (pub w : List Byte) (n : Nat) : Config.unwrap pub w n = none ∨ ∃ key, Config.unwrap pub w n = some key := by
  cases h : Config.unwrap pub w n with
  | none => exact .inl rfl
  | some key => exact .inr ⟨key, rfl⟩
theorem witness_OtherRegisters : State.reset.guest.queues.length = 64 ∧ (0x1000 : W64).toNat % 4096 = 0 ∧ physKind 0x1000 = .hbm ∧ (0x1001 : W64).toNat % 4096 ≠ 0 ∧ 2 ^ 8 ≤ (0x100 : W64).toNat ∧ (9 < (0xFF : W64).toNat ∧ (0xFF : W64).toNat < 256) ∧
    4088 % 8 = 0 ∧ State.reset.mgmt.off = false ∧ State.reset.mgmt.busy = false ∧ State.reset.den? 2047 = none ∧ (31 : W64).toNat < 32 ∧ 0x40000 % 2 ^ 18 = 0 ∧ physKind 0x40000 = .hbm ∧ (1 : W64).toNat < 2 := by decide +kernel

/-! ### The whole machine -/

/-- A register beyond the record's blocks, a tile and a barrier that the team does not have, a register in flight, a flag at its limit. -/
theorem witness_Checks : State.reset.view? = none ∧ (state0.view?.any fun v =>
      (named (.mov { sa := .v 32 }) { sa := .v 32 }).any (fun r => r == .v 32) && v.grp.h == 0 &&
      ((tilesOf (.mzero {} { acc := 7 })).find? (fun n => decide ({ khdr with accs := 7 }.accs ≤ n)) == some 7) && barOf (.bar {} 15) == some 15 && v.team.hdr.bars == 16) = true ∧
    (grpState fun g => { g with flight := [(.v 6, 0)] }).view?.any (fun v => v.grp.flight.any fun x => (named (.mov { dst := .v 6 }) { dst := .v 6 }).contains x.1) = true ∧
    (grpState fun g => { g with flags := 255 :: List.replicate 11 0 }).view?.any (fun v => v.grp.flag 0 == 255 && v.any { fl := some 0 }) = true := by decide +kernel
def fetched (w : Slot) : State := Claim.begun (State.reset.withFetchWord 96 w.toNat) []
/-- The word issues for the group that holds the quadrant, and `p` holds of its view, the state after its fetch and what it decodes to. -/
def runs (w : Slot) (p : View → State → Except BadWord Instr → Bool) : Bool :=
  let s := fetched w
  (State.reset.withFetchWord 96 w.toNat).sched.agenda == [.issue 0 0] && match (s.onQuad 0 0).find? (·.2.holds) with
    | some (t, g) => g.stall.isNone && match View.of s ⟨t.ref, g.recno⟩ with
      | some v => match s.slotOf v with
        | .inl (x, s2) => x == w && !isClend w && p v s2 (decode w)
        | _ => false
      | none => false
    | none => false
/-- The ADD of spec/02, a word of no OP and one of a bad register spec. -/
theorem witness_Step : runs 0x0000000000F0000080424080#96 (fun v s2 d => (s2.landingFirst v 0x0000000000F0000080424080#96).isNone && s2.shapeOk v 0x0000000000F0000080424080#96 && match d with
      | .ok i => s2.clauseOk v i (Claim.slotFields 0x0000000000F0000080424080#96 i) | _ => false) = true ∧
    runs 0x0000000000F0000000000013#96 (fun v s2 d => (s2.landingFirst v 0x0000000000F0000000000013#96).isNone && match d with | .error .illOp => true | _ => false) = true ∧
    runs 0x0000000000F0003FC0424080#96 (fun v s2 d => (s2.landingFirst v 0x0000000000F0003FC0424080#96).isNone && s2.shapeOk v 0x0000000000F0003FC0424080#96 && match d with
      | .error .illOpnd => true | _ => false) = true := by decide +kernel
/-- A MOV from c0 and one from l2 as the first word of their clause, and a CALL, which no clause of 3 may end here, to an address of no code. -/
theorem witness_StepFaults : ([Spec.c 0, .l 2].all fun sp => match encode (.mov { dst := .v 6, sa := sp }) with
      | some w => runs w fun v s2 d => v.cl.pos == 1 && (s2.landingFirst v w).isNone && s2.shapeOk v w && match d with | .ok i => (sources i (Raw.ofSlot w).opnds).contains sp | _ => false
      | none => false) = true ∧
    (match encode (.bra { imm := 0x10000 }) with
      | some w => runs w fun v s2 _ => (s2.landingFirst v w).isSome
      | none => false) = true := by decide +kernel
theorem witness_StepHeader : (let s := fetched 0x0000000000000007F8000FE0#96
      match s.onQuad 0 0 with
      | [(t, g)] => g.clause.isNone && g.park.isNone && t.choosePC g.recno == some 0x10000 && t.grps.all (fun x => x.clause.isNone) && match s.slotAt t.ref.core t.asid 0x10000 with
        | .inl (w, s2) => s2.ready t g 0x10000 { len := 3 } && isHeader w && (s2.teams.find (slotKey t.ref)).any (fun u => u.ref == t.ref) && (match decode w with | .ok (.clauseHeader h) => h == { len := 3 } | _ => false)
        | _ => false
      | _ => false) = true ∧ encode .confirm = none := by decide +kernel
/-- A line that translation finds, and one that the clause keeps. -/
theorem witness_Line : (match (fetched 0).translate 1 0x10000 rightX with
      | .ok l => canonical 0x10000 && !(fetched 0).poisoned l.pa && (fetched 0).mem.icache.isEmpty && lineParity (leNat ((fetched 0).physRead ⟨none, none⟩ l.gen l.pa 64)) && bits (leNat ((fetched 0).physRead ⟨none, none⟩ l.gen l.pa 64) / 2 ^ 480) 31 15 == 0
      | _ => false) = true ∧
    (({ clause0 with lines := [(0x10000, 5)] } : Clause).lines.find 0x10000).any (fun x => x.toNat / 2 ^ 480 / 2 ^ 15 % 2 ^ 17 == 0) = true := by decide +kernel
theorem witness_Invariant : Safety.inv state0 = true ∧ (match step (State.reset.withFetchWord 96 0x0000000000F0000080424080) with | .next _ => true | _ => false) = true := by decide +kernel
theorem witness_Encoding : WellFormed.ok (.add { dst := .v 9, sa := .v 1, sb := .v 2 } {}) = true ∧ encode (.add { dst := .v 9, sa := .v 1, sb := .v 2 } {}) = some 0x0000000000F0000080424080#96 := by decide +kernel

/-! ### Several threads, absent threads, compaction -/

/-- Threads 0 and 1 in the issue set; s10 names thread 3, which is not in it. -/
def outsideState : State := grpState fun g => { g with s := g.s ++ [(10, 3)], clause := some { clause0 with issue := [0, 1] } }
theorem witness_AbsentThreads : ([Spec.v 2, .c 2].all fun sa =>
      (let o : Opnds := { w1 .b32 with sa, sb := .s 10 }
       issues outsideState (.rdl o .idx) o fun v => v.scalar o .u32 o.sb == 3 && decide (3 < v.team.hdr.threads) && v.present.all (·.tid != 3) && v.team.threads.any (·.tid == 3)) &&
      let o : Opnds := { w3 .b32 with sa, sb := .s 10, sc := .zero }
      issues outsideState (.shuf o .idx) o fun v => Claim.keeps o.dst && !isSReg o.dst && v.present.all (·.tid != 3)) = true ∧
    state0.view?.any (fun v => v.present.length == 4) = true := by decide +kernel
/-- A finite operand of each function, and a negative one of RSQ and LOG2. -/
theorem witness_SpecialBounds : ([0x40490FDB, 0xC0490FDB, 0x00C00000, 0x4B000001].all fun x => allIssue (withV [(2, x)]) Claim.keeps specialWords &&
    (withV [(2, x)]).view?.any fun v => let o := w1 .f32
      let a := Claim.fop v o {} o.sa ((v.active o).head?) 0
      a == x && !Fmt.isNan .f32 a && !Fmt.isInf .f32 a && Fmt.mag .f32 a != 0 && Fmt.neg .f32 a == (x == 0xC0490FDB)) = true := by decide +kernel
/-- All four threads arrive at the last barrier: two are expected, and thread 0 has arrived in this phase. -/
def severalBar : State := { state0 with teams := [(0, { team0 grp0 ((List.range 4).map fun n => { thread0 n with
  pend := if n = 0 then [(1, some 0)] else [], run := .runnable }) with bars := [⟨0, 0, none, []⟩, ⟨0, 1, some 2, []⟩], hdr := { khdr with bars := 2 }, grps := [grp0] })] }
theorem witness_SeveralArrivals : ([true, false].all fun wait => let o : Opnds := { sa := .imm, imm := 2 }
    issues severalBar (if wait then .bar o 1 else .bara o 1) o fun v => decide (1 < v.team.bars.length) && (v.active o).length == 4 && (v.active o).all (fun th => decide (th.run = .runnable)) &&
      let old := nth ⟨0, 0, none, []⟩ v.team.bars 1
      let fin := (v.active o).foldl (fun x th => Claim.barArrive v.team.hdr.threads (v.team.exitedMissing 1) x th.tid (Claim.u32 v o o.sa (some th))) (old, fun tid => (v.team.thread? tid).bind (·.pend.get none 1))
      fin.1 == ⟨2, 1, some 2, []⟩ && (List.range 4).map fin.2 == [some 1, some 0, some 1, some 2]) = true := by decide +kernel
/-- A group ready at a header that allows compaction, whose threads came there without REGRP. -/
theorem witness_RgpHeader : (match idle.team? ⟨0, 0⟩ with
    | some a => match a.grp? 0 with
      | some g => a.choosePC 0 == some 0x10000 && idle.ready a g 0x10000 { len := 3, rgp := true } && a.grps.all (·.mq.isEmpty) && Safety.ordered a && a.grps.length == 1
      | none => false
    | none => false) = true ∧ ((matState 0).team? ⟨0, 0⟩).any (fun a => (a.grps.map (·.recno)) == [0]) = true ∧
    (let a := { team0 { grp0 with clause := none, mq := [mat0 0 [0] .mzero 0 none] } ((List.range 4).map thread0) with grps := [{ grp0 with clause := none, mq := [mat0 0 [0] .mzero 0 none] }] }
     a.grps.all fun x => match x.mq.head? with | some c => decide (c.members.length ≤ 1) && c.members.all fun n => !(a.grp? n).any (·.retired) | none => true) = true := by decide +kernel
/-- Four threads on one word. -/
theorem witness_AtomicsOfThreads : ([(none, .v 6), (some 11, .v 6)].all fun x => let o : Opnds := { dst := x.2, sa := .s 1, sb := .v 3, fl := x.1 }
    issues flagState (.aadd o { ret := true }) o fun v => (v.active o).length == 4 && (v.active o).all (fun th => (v.address o (some th)) == 0x20000 && match Claim.atomicNew v th (.aadd o { ret := true }) with
        | some (p, m, _) => p == o && m.ret
        | none => false) &&
      v.s.checkAtomic v.team.asid { r := true, w := true } 0x20000 4 == .pass && (v.poisonAt [(0x20000, 4)]).isNone && v.s.mem.phys.unplaced.isEmpty &&
      (List.range 4).all (fun j => let l := v.s.place1 v.team.asid 0x20000 { r := true, w := true }
        (v.s.stray l.2 (l.1 + j)).isNone) && v.s.teams.all fun x => (x.2.waitsOf fun k => match k with | .monitor .. => true | _ => false).isEmpty) = true := by decide +kernel
/-- What the team and its cluster fence: writes that it has observed, unplaced and placed there, and one it has not. -/
def fencing : State := let s := grpState fun g => { g with seen := [(7, none)] }
  { s with mem := { s.mem with phys := { s.mem.phys with unplaced :=
      [⟨0x180004, [(0, 1)], 7, none, 1, ⟨none, none⟩, 0, none, 0⟩, ⟨0x180008, [(0, 1)], 7, none, 1, ⟨none, none⟩, 0, some .team, 0⟩, ⟨0x18000C, [(0, 1)], 8, none, 1, ⟨none, none⟩, 0, none, 0⟩] } } }
theorem witness_TeamFences : ([Scope.team, .cluster].all fun sc => [FenceKind.acq, .acqrel].all fun fk => issues fencing (.fence {} sc fk) {} fun v =>
    v.s.mem.phys.unplaced.map (fun u => (v.grp.seen.any fun x => u.cmd == x.1 && (x.2.isNone || u.chunk == x.2), u.placed)) == [(true, none), (true, some .team), (false, none)]) = true := by decide +kernel
/-- A wait whose limit comes before its 2 us, one whose limit comes later, and an armed one at a reclaim before and after its limit. -/
theorem witness_MonitorLimits : waits { waiting (.monitor (.s 5) 9 false true 1000 600) with clock := { State.reset.clock with time := 2600 } } = true ∧ (1000 : Nat) ≤ 2000 ∧
    waits { waiting (.monitor (.s 5) 9 true false 2001 600) with clock := { State.reset.clock with time := 2600 } } = true ∧ 2000 < 2001 ∧ 2600 < 600 + 2001 ∧
    waits (waiting (.monitor (.s 5) 9 true true 401 600)) = true ∧ (waiting (.claim 0)).clock.time < 600 + 401 := by decide +kernel

/-! ### What lands at the front end, and levels -/

def landState (fl : Option (Fin 12)) (k : LandKind) (f : State → State) : State := f { (grpState fun g => { g with flags := List.replicate 11 0 ++ [1] }) with
  eng := ⟨[⟨3, issuer, fl, k, [], []⟩], [], [], []⟩, front := { State.reset.front with dens := [{ den0 with lrec := { LRec.blank with gridy := 2, gridz := 5 } }], feedqs := [fq0] } }
def lands (s : State) : Bool := Safety.inv s && s.eng.landings.find? (fun x => x.num == 3) == s.eng.landings.head? && match s.team? ⟨0, 0⟩ with
  | some a => a.ref == ⟨0, 0⟩ && a.grps.any (fun x => !x.retired) && Safety.ordered a && (a.grp? 0).any fun g => g.flags.length == 12
  | none => false
def denLand (n : Nat) : State := landState (some 11) (.front (.denput 7 (List.replicate 64 1))) fun s => { s with front := { s.front with dens := s.front.dens.map fun d => { d with records := List.replicate n [] } } }
/-- A DENPUT that leaves its den short of its count, one that completes it, and one behind another of its group. -/
theorem witness_DenputLands : ([0, 1].all fun n => lands (denLand n) && ((denLand n).den? 7).any (fun d => d.num == 7 && d.opened && !d.cancelled && d.records.length == n && d.lrec.gridy == 2) &&
      (denLand n).eng.landings.all fun l => !(denLand n).denBehind l) = true ∧
    (let s := { denLand 0 with eng := ⟨[⟨3, issuer, some 11, .front (.denput 7 []), [], []⟩, ⟨2, issuer, some 11, .front (.denput 7 []), [], []⟩], [], [], []⟩ }
     lands s && s.eng.landings.head?.any s.denBehind) = true := by decide +kernel
def pushLand (rsv : Nat) : State := landState (some 11) (.front (.qpush 4 (List.replicate 60 1) (.s 5))) fun s => { s with front := { s.front with feedqs := [{ fq0 with rsv }] } }
/-- A QPUSH that finds a full queue, and one that finds room. -/
theorem witness_QpushLands : ([16, 2].all fun rsv => lands (pushLand rsv) && ((pushLand rsv).feedq? 4).any fun q => q.num == 4 && q.sleepers.isEmpty && (q.rsv - q.head == 2 ^ q.l) == (rsv == 16) &&
    match (pushLand rsv).translate q.asid (q.slot q.rsv) rightW with | .ok _ => true | _ => false) = true := by decide +kernel
/-- A LAUNCH of a record of zeros, and of one that the checks allow, with its seal's bit 7. -/
def launchLand (high : Bool) (bs : List Byte) : State := let s := landState (some 11) (.front (.launch bs (.s 5) 5)) id
  { s with sched := (sealed lrecBytes false).sched, mem := if high then sealedHigh.mem else (sealed lrecBytes false).mem }
def lrecSeal (high : Nat) : List Byte := (lrecBytes high).take 127 ++ [128]
theorem witness_LaunchLands : lands (launchLand false (List.replicate 128 0)) = true ∧
    ([(false, List.replicate 128 0, true), (false, lrecSeal 0, false), (true, lrecSeal (2 ^ 39), false)].all fun x => let s := launchLand x.1 x.2.1
      (s.front.pendingLaunches.find? (fun y => y.1 == 0)).isNone && !(s.part 0).flr && s.mem.poison.isEmpty && (match s.deviceRecord 0 with
        | some (some l, r) => l == ⟨3, issuer, some 11, .front (.launch x.2.1 (.s 5) 5), [], []⟩ && r.data == x.2.1 && r.part == 0 && r.asid == 1
        | _ => false) &&
      match s.checkRec 0 1 true x.2.1 with | .refused _ => x.2.2 | .good _ b => !x.2.2 && b.isNone) = true := by decide +kernel
theorem translate_mem {s t : State} (h : s.mem = t.mem) (hg : s.guest = t.guest) (asid va : Nat) (need : Right) : s.translate asid va need = t.translate asid va need := by
  have entry : s.entry = t.entry := funext fun pa => by unfold State.entry; rw [h]
  have leaf : s.leaf = t.leaf := by unfold State.leaf State.ownsKey State.keyGen; rw [h, hg]
  have present : s.present = t.present := by unfold State.present State.poisoned; rw [h, entry]
  unfold State.translate State.ctx? State.walk
  rw [h, leaf, present]
theorem argPage_mem {s t : State} (h : s.mem = t.mem) (hg : s.guest = t.guest) (hs : s.sched = t.sched) (asid owner : Nat) (args : List Byte) :
    (s.argPage asid owner args).isSome = (t.argPage asid owner args).isSome := by
  unfold State.argPage State.choose
  have tr : s.translate = t.translate := funext fun _ => funext fun _ => funext fun _ => translate_mem h hg _ _ _
  rw [tr, hs]
  dsimp only
  split <;> rfl
/-- One of the two records finds a page for its argument block, whatever the free choice. -/
theorem witness_LaunchIsAccepted : (∃ x, (launchLand false (lrecSeal 0)).accept 0 1 5 (some (.launch 1)) (parseLRec (lrecSeal 0)) { KHdr.placed with entry := 0x10000 } none = some x) ∨
    ∃ x, (launchLand true (lrecSeal (2 ^ 39))).accept 0 1 5 (some (.launch 1)) (parseLRec (lrecSeal (2 ^ 39))) { KHdr.placed with entry := 2 ^ 39 + 0x10000 } none = some x := by
  have ok : ∀ (s : State) (r : LRec) (h : KHdr), (∀ owner args, (s.argPage 1 owner args).isSome = true) → ∃ x, s.accept 0 1 5 (some (.launch 1)) r h none = some x := by
    intro s r h page
    unfold State.accept
    dsimp only
    split
    · rename_i e
      have := page (0 * 2 ^ 27 + if (s.part 0).ids = 2 ^ 27 - 1 then 1 else (s.part 0).ids + 1) (s.copyArgs 1 r.argp h.args 5)
      rw [e] at this
      cases this
    · exact ⟨_, rfl⟩
  by_cases h : ((sealed lrecBytes false).argPage 1 0 []).isSome = true
  · refine .inl (ok _ _ _ fun owner args => ?_)
    rw [argPage_mem (s := launchLand false (lrecSeal 0)) (t := sealed lrecBytes false) rfl rfl rfl]
    revert h
    unfold State.argPage
    dsimp only
    split <;> simp
  · have h' := (witness_ArgumentPage 0 []).resolve_left h
    refine .inr (ok _ _ _ fun owner args => ?_)
    rw [argPage_mem (s := launchLand true (lrecSeal (2 ^ 39))) (t := sealedHigh) rfl rfl rfl]
    revert h'
    unfold State.argPage
    dsimp only
    split <;> simp
def ctr0 (lv : Level) : LevelCtr := ⟨lv, 0, 7, true, false⟩
def lrecLv : LRec := { LRec.blank with graph := 7, phase := 7, job := 7, gridx := 1, gridy := 1, gridz := 1 }
def levelState (lv : Level) : State := { grpState id with front := { State.reset.front with levels := [ctr0 lv], launches := [{ launch0 with lrec := lrecLv, next := 0, total := 1 }], dens := [{ den0 with lrec := lrecLv, records := [[]] }] } }
theorem witness_Levels : ([Level.graph, .phase, .job].all fun lv => issues (levelState lv) (.cancel { sa := .s 2 } lv) { sa := .s 2 } (fun v => v.scalar { sa := .s 2 } .u32 (.s 2) == 7 && (v.s.level? v.team.part lv 7).isSome && v.s.coll.live.isEmpty && !v.team.pre && v.team.ending.isNone) &&
      issues state0 (.cancel { sa := .s 2 } lv) { sa := .s 2 } (fun v => (v.s.level? 0 lv 7).isNone) && ((levelState lv).level? 0 lv 7).isSome && lrecLv.names lv 7 &&
      let l : Launch := { launch0 with lrec := lrecLv, next := 1, total := 1 }
      let s : State := { State.reset with front := { State.reset.front with levels := [{ ctr0 lv with opened := false }], launches := [l] }, parts := State.reset.parts.map fun q => { q with sqbase := 0x1000, sqcfg := 4 } }
      s.launchCount l == 0 && s.coll.live.isEmpty && s.fab.regions.isEmpty && s.mem.phys.unplaced.isEmpty && !l.lrec.cirq && !l.cancelled && s.parts.length == 32 && !(s.part 0).flr && (s.part 0).held.isEmpty && (s.part 0).ringRoom) = true := by decide +kernel

/-! ### Promises at CLEND, arrivals, collectives, the guest -/

/-- A clause that captured CPROM: before the promised time, at it with the chunks done, and at it with one undone, with a handler and without. -/
def promEnd (m : W64) (promise handler : Nat) : State := { state0 with teams := [(0, { team0 { grp0 with clause := some { clause0 with pos := 3, term := some (.wait (.promise 0 m 0) [0, 1]) } } ((List.range 4).map thread0) with
  trk := { Tracker.zero with promise } :: List.replicate 15 Tracker.zero, hdr := { khdr with handler } })] }
theorem witness_PromiseWaitsBegin : ([((1 : W64), 1001, 0), (0, 1000, 0), (1, 1000, 0), (1, 1000, 0x10000)].all fun x => issues (promEnd x.1 x.2.1 x.2.2) (.clend []) {} fun v =>
    v.team.ref == v.iss.team && v.team.ending.isNone && v.team.msets.isEmpty && v.present.all (fun th => th.meet == 0 && th.recno == v.iss.recno) && v.team.grps.all (·.mq.isEmpty) &&
      v.cl.term == some (.wait (.promise 0 x.1 0) [0, 1]) && v.grp.trap.isNone && (v.team.tracker 0).covers x.1 == (x.1 == 0) && decide ((v.team.tracker 0).promise = x.2.1) &&
      (x.2.2 == 0 || (v.s.landing 0 v.team.asid v.team.hdr.handler).isNone)) = true := by decide +kernel
/-- `arriving`, its stream at number 4 with floor 6. -/
def streamed : State := { arriving with fab := { arriving.fab with streams := [⟨3, 0, 0, 4, 6, []⟩] } }
def at8 (i : Nat) : Leaf := match arriving.translate 1 (0x20100 + 4 * i) rightW with | .ok l => l | _ => ⟨0, 0, false, false, false, 0, 0, none⟩
/-- Requests of a stream behind their turn, ahead of it, in it, and let in by the floor; requests that the region refuses with each status;
an FSEND of two words and an FATOM on an HBM page. -/
theorem witness_RequestArrives : ([streamed, arriving].all fun s => s.fab.up && s.fab.badPorts.isEmpty && s.fab.has 3 && (s.teams.all fun x => x.2.grps.any fun g => !g.retired) && s.fab.filter.isEmpty && s.fab.stalled.isEmpty && s.fab.strikes.isEmpty &&
      (s.fab.stream? 3 0 0).early.isEmpty) = true ∧ (streamed.fab.stream? 3 0 0).next = 4 ∧ (streamed.fab.stream? 3 0 0).floor = 6 ∧ 3 < 4 ∧ (¬ 5 < 4 ∧ 5 < max 4 6) ∧ (arriving.fab.stream? 3 0 0).floor ≤ (arriving.fab.stream? 3 0 0).next ∧ (4 < 7 ∧ max 6 0 < 7) ∧ (4 < 5 ∧ 5 ≤ max 6 0) ∧
    ([({ packet (.send [1, 2, 3, 4]) with key := 8 }, some 4), ({ packet (.send [1, 2, 3, 4]) with off := 0x104 }, some 5), (packet (.send [1, 2, 3, 4]), none)].all fun x => Claim.refusal (arriving.region 7) x.1 == x.2 && x.1.src == 3 && x.1.dest == 0) = true ∧
    Claim.refusal { arriving.region 7 with a := false } (packet (.add 1)) = some 5 ∧ Claim.refusal { arriving.region 7 with a := false, len := 0x108 } (packet (.add 1)) = some 6 ∧
    Claim.refusal { arriving.region 7 with len := 0x108 } (packet (.send (List.replicate 8 1))) = none ∧ Claim.refusal { arriving.region 7 with len := 0x108 } (packet (.cas 1 2)) = none ∧
    ((List.range 2).all fun i => canonical (0x20100 + 4 * i) && (at8 i).pa % 4 == 0 && !arriving.collHit (at8 i).pa 4 && arriving.mem.tags.get 0 ((at8 i).pa / 128) == (at8 i).gen && physKind (at8 i).pa == .hbm && (at8 i).gen != 1 && !arriving.poisoned (at8 i).pa &&
      [true, false].all fun r => [true, false].all fun w => arriving.translate 1 (0x20100 + 4 * i) ⟨r, w, false⟩ == .ok (at8 i)) = true ∧ (at8 0).pa ≠ (at8 1).pa ∧ arriving.mem.phys.unplaced = [] ∧
    (Claim.fatomNew (.add 1) 5 = some 6 ∧ Claim.fatomNew (.cas 4 9) 5 = some 5) ∧ (arriving.region 9).state ≠ .open_ ∧ (arriving.region 7).state = .open_ := by decide +kernel
/-- Relocks with and without a staged calendar, from dark and from left. -/
theorem witness_Relocks : ([(true, true), (true, false), (false, true), (false, false)].all fun x => let s := { relocking 3 1560 with fab := { (relocking 3 1560).fab with darkDone := x.1, staged := x.2, nepoch := 1560 } }
    s.fab.relockAt == some 1560 && decide (s.fab.nepoch ≤ s.clock.time) && s.fab.state == .relocking && s.fab.reqs.isEmpty) = true ∧
    ([PodState.dark, .left, .locked].map fun st => decide (st = .dark ∨ st = .left)) = [true, true, false] ∧ calValid State.reset.fab.ncal State.reset.fab.nmask State.reset.fab.self = true ∧ calValid (List.replicate 64 0x8001) 1 0 = false := by decide +kernel
/-- A result that would touch another collective's range, and arrivals whose TMO has passed and has not; a snapshot behind an MZERO of its group. -/
def chunkOf (result : Bool) (tmo : Nat) : Chunk := ⟨coll0.bind.digest, 0, result, List.replicate 128 1, 0, tmo⟩
theorem witness_CollectiveRefusals : (let s := { collecting [coll0] [] with coll := ⟨[coll0], [⟨0x180000, 128, 1, 3, true⟩], []⟩ }
      let x := chunkOf true 2
      stepping s && (s.fab.stream? 3 0 0).early.isEmpty && s.coll? 0 7 == some coll0 && x.digest == coll0.bind.digest && coll0.bind.memb.getLsbD 3 && coll0.seen.isEmpty &&
        s.collBlocked coll0 (coll0.bind.rbase + coll0.bind.offset (coll0.bind.rank 3) x.k) x.data.length) = true ∧
    ([(1, true), (2, false)].all fun x => let c := chunkOf false x.1
      ((collecting [] []).coll? 0 c.digest.cid).isNone && decide (c.sent + 1000 * c.tmo ≤ (collecting [] []).clock.time) == x.2) = true ∧
    (let c := { coll0 with bind := { bind0 with srck := true, tile := 1 }, snaps := [⟨1, ⟨0, 0⟩, some reqTk, 0⟩] }
     let s := { finishing (fun _ => c) 0 with eng := ⟨[], [], [{ mat0 0 [0] .mzero 0 none with nums := [(issuer, 3)] }], []⟩ }
     c.snaps.find? (·.k == 1) == some ⟨1, ⟨0, 0⟩, some reqTk, 0⟩ && (s.team? ⟨0, 0⟩).isSome && s.tileBusy reqTk c.bind.tile) = true ∧
    issues flagState (.cdrop { sa := .s 2, fl := some 11 }) { sa := .s 2, fl := some 11 } (fun v => (v.s.coll? 0 7).isNone && v.s.teams.all fun x => x.2.grps.any fun g => !g.retired) = true := by decide +kernel
/-- An access that asks again after a FAULT, one to a collective's range, an invalidation acknowledged in time and one late, excess power before 1 ms. -/
theorem witness_GuestEdges : (let s := { guested [{ packet0 with faulted := [0x20010] }] false true with guest := { (guested [{ packet0 with faulted := [0x20010] }] false true).guest with shadows := [⟨1, 0x20000, 0x180000, 65536, none, true, true⟩] } }
      [true, false].all fun w => (s.shadowOf 0x180010 8 w).any (fun e => e.va + (0x180010 - e.frame) == 0x20010 && s.guest.queues.any fun g => g.packets.any fun p => p.asid == e.asid && p.faulted.contains 0x20010)) = true ∧
    (let s := { served with coll := ⟨[], [⟨0x180000, 128, 1, 3, true⟩], []⟩ }
     s.collHit 0x180000 8 && (s.shadowOf 0x180000 8 false).any fun e => s.guest.queues.all fun g => g.packets.all fun p => p.asid != e.asid || p.faulted.isEmpty) = true ∧
    (served.shadowOf 0x180000 8 true).any (fun e => (linesOf 0x180000 8).all fun l => served.mem.tags.get 0 l == served.keyGen e.key) = true ∧
    served.guest.invals = [⟨1000, 1, []⟩] ∧ served.clock.time ≤ 1000 ∧ (999 : Nat) < served.clock.time ∧ served.mgmt.now < 1 + 1000000 := by decide +kernel
/-- An address that no page maps, in a context without REPLAY; a page of the part's registers; 4096 entries. -/
theorem witness_TranslationFaults : (canonical 0x30000 && (match served.translate 1 0x30000 ⟨true, false, false⟩ with | .absent => true | _ => false) && !(served.ctx? 1).any (·.replay) && (served.ctx? 1).isSome) = true ∧
    ((List.replicate 4096 (⟨1, 0x40000, 0x180000, 65536, none, true, true⟩ : Shadow)).any fun e => Claim.shadows e 1 0x20000) = false ∧ ¬ (List.replicate 4096 (⟨1, 0x40000, 0x180000, 65536, none, true, true⟩ : Shadow)).length < 4096 := by
  refine ⟨by decide +kernel, ?_, by rw [List.length_replicate]; omega⟩
  rw [List.any_eq_false]
  intro x hx
  rw [List.eq_of_mem_replicate hx]
  decide

/-! ### Poison, the last stack, throttling, registers, agents -/

theorem witness_NoPoison : (matting (mstAt none)).mem.poison = [] ∧ resetting.mem.poison = [] ∧ (sealed [] false).mem.poison = [] ∧ (∀ p < 32, (sealed [] false).poisoned ((sealed [] false).slotAddr p) = false) ∧
    (match state0.team? ⟨0, 0⟩ with | some a => a.cancel == 0 && a.cancelBy.isNone && a.preempt.isNone | none => false) = true := by decide +kernel
theorem witness_LastStack : ([(1, true), (0, false)].all fun x => let s := { State.reset with mgmt := { State.reset.mgmt with stage := 4, hbm := (List.range 8).map fun k => (⟨true, 8, if k = 0 then x.1 else if k = 7 then 0 else 1, 0⟩ : Stack) } }
    let h := nth ⟨false, 0, 0, 0⟩ s.mgmt.hbm
    s.mgmt.stage == 4 && !s.mgmt.off && s.mgmt.error == 0 && s.mgmt.hbm.length == 8 && (h 7).start && (h 7).result == 0 && (h 7).step == 8 && ((List.range 7).all fun k => (h k).result == 1) == x.2) = true ∧
    State.reset.mgmt.temps = [] ∧ State.reset.clock.dies.length = 4 ∧ (63 < 64 ∧ (840 : Int) ≤ 840 ∧ (959 : Int) < 960) ∧ (64 ≤ 79 ∧ (800 : Int) ≤ 919) ∧ (80 ≤ 87 ∧ (760 : Int) ≤ 839) ∧ (88 ≤ 95 ∧ (600 : Int) ≤ 679) := by decide +kernel
/-- A queue that exists and one that does not, with legal values; a context for a queue of its partition, which had none. -/
theorem witness_FeedQueueRegisters : (workState.feedq? 4).isSome = true ∧ workState.feedq? 255 = none ∧ (0x1000 : W64).toNat % 4096 = 0 ∧
    (let x : W64 := 0x8000000000000310
     x.toNat / 2 ^ 13 % 2 ^ 50 = 0 ∧ x.toNat / 2 ^ 5 % 2 ^ 3 = 0 ∧ 4 ≤ x.toNat % 32 ∧ x.toNat % 32 ≤ 16) ∧ (0x8000000000000303 : W64).toNat % 32 < 4 ∧ State.reset.ctx? 4095 = none ∧
    (State.reset.feedq? 0).isNone = true := by decide +kernel
/-- CLEND of a register that its clause neither wrote nor put in flight, and of one that an earlier CLEND of the clause did. -/
theorem witness_FlownRegisters : ([([], true), ([(Spec.v 6, 0)], false)].all fun x => (grpState fun g => { g with flight := [(.v 6, 0)], clause := some { clause0 with flown := x.1 } }).view?.any fun v =>
    v.grp.flight.any (fun y => (named (.clend [⟨.v 6, false, false⟩]) {}).contains y.1 && v.cl.writers.all (fun w => w.1 != y.1) && !v.cl.flown.contains (y.1, y.2.val)) == x.2) = true := by decide +kernel
/-- A step of the part, one of the host before and after its link is up, and one of a firmware core before and after its release. -/
theorem witness_Agents : State.reset.canAct (agentOf (.groupRetire ⟨0, 0⟩ 0)) = true ∧ State.reset.canAct (agentOf (.sqheadWrite 0 0)) = false ∧ (sealed [] false).canAct (agentOf (.sqheadWrite 0 0)) = true ∧
    State.reset.canAct (agentOf (.preemptRequest ⟨0, 0⟩)) = false ∧
    { State.reset with mgmt := { State.reset.mgmt with cores := List.replicate 9 ⟨true, 0, [], []⟩ } }.canAct (agentOf (.preemptRequest ⟨0, 0⟩)) = true ∧ encode (.sqheadWrite 0 0) = none := by decide +kernel

/-! ### What EXIT completes, what a header waits for, regrouping -/

/-- Threads 0 and 1 exit; 2 and 3 wait at the last barrier, whose count is of every thread, and of which some have arrived. -/
def exitState (arr : Nat) : State := { state0 with teams := [(0, { team0 { grp0 with clause := some { clause0 with pos := 3, issue := [0, 1], term := some (.exit [0, 1]) } }
    ((List.range 4).map fun n => if n < 2 then thread0 n else { thread0 n with run := .suspended (.bar 1), pend := [(1, some 0)] }) with
  bars := [⟨0, 0, none, []⟩, ⟨0, arr, some 0, []⟩], hdr := { khdr with bars := 2, threads := 4 } })] }
theorem witness_ExitCompletes : ([2, 1].all fun arr => issues (exitState arr) (.clend []) {} fun v => v.cl.term == some (.exit [0, 1]) && v.team.ending.isNone && v.team.msets.isEmpty &&
    v.team.grps.all (·.mq.isEmpty) && v.present.all (·.run == .runnable) && decide (1 < v.team.bars.length) &&
    Claim.barFull v.team.hdr.threads (fun phase => v.team.threads.countP fun th => (th.run == .exited || [0, 1].contains th.tid) && (th.pend.get none 1).all fun p => decide (p < phase)) (nth ⟨0, 0, none, []⟩ v.team.bars 1) == (arr == 2) &&
    (v.team.threads.filter fun th => !v.cl.issue.contains th.tid).map (·.run) == [.suspended (.bar 1), .suspended (.bar 1)]) = true := by decide +kernel
/-- Two groups of one quadrant that are ready at a header. -/
def choosing (p y : Nat → Bool) : State := { state0 with teams := [(0, { team0 grp0 [] with
  threads := [0, 4].map fun n => { thread0 n with recno := n, age := n },
  grps := [0, 4].map fun n => { grp0 with recno := n, clause := none, passes := if p n then 64 else 0, youngest := y n } })] }
theorem witness_IssueSelection : (idle.team? ⟨0, 0⟩).any (fun a => (a.grp? 0).any fun g => g.flags.length == 12 && a.choosePC 0 == some 0x10000 && match idle.headAt a g with | .start h _ => h == { len := 3 } | _ => false) = true ∧
    ([(fun n => n == 4, fun _ => false, 4), (fun _ => false, fun n => n == 0, 4), (fun _ => false, fun _ => false, 0)].all fun (x : (Nat → Bool) × (Nat → Bool) × Nat) =>
      let s := choosing x.1 x.2.1
      let ready := s.readyOn (s.onQuad 0 0)
      ready.map (·.2.recno) == [0, 4] && (s.nextGroup 0 0 ready).any (·.2.recno == x.2.2)) = true ∧
    (let s := choosing (fun _ => false) fun _ => false
     ((s.onQuad 0 0).map fun y => (slotKey y.1.ref, y.2.recno)).Nodup ∧ ((s.onQuad 0 0).all fun x => (s.team? x.1.ref).any fun a => (a.grp? x.2.recno).isSome) = true) := by decide +kernel
/-- Two marked groups of one pool, their threads at the regroup point but for those that `away` names; and one that is not eligible, with a thread elsewhere. -/
def regrouping (away : Nat → Bool) (time : Nat) (h1 : Nat) : State := { state0 with clock := { State.reset.clock with time }, teams := [(0, { team0 grp0 [] with
  threads := (List.range 4).map fun n => { thread0 n with recno := n / 2, run := .suspended (.regrp 0x10000), key := 4 - n } |> fun th => if away n then { th with pc := 0x10004, run := .runnable } else th,
  grps := [{ grp0 with clause := none, marks := [⟨0x10000, 0⟩], warn := 1 }, { grp0 with recno := 1, clause := none, marks := [⟨0x10000, 0⟩], warn := 2, h := h1 }] })] }
def regroups (s : State) : Bool := (s.team? ⟨0, 0⟩).any fun a => a.ending.isNone && a.msets.isEmpty && a.grants.isEmpty && a.grps.all (·.mq.isEmpty) && Safety.ordered a &&
  (a.grps.map (·.recno)) == [0, 1] && a.ref == ⟨0, 0⟩ && a.grps.all (fun x => x.role == 0 && x.marks.all (·.head == 0x10000))
theorem witness_RegroupEnds : ([(243, false), (244, true)].all fun x => let s := regrouping (fun n => n == 3) x.1 0
      regroups s && (s.team? ⟨0, 0⟩).any fun a => a.poolOf 0x10000 0 == [0] && a.poolOf 0x10000 1 == [0] && decide (512000 ≤ 2100 * (s.clock.time - 0)) == x.2) = true ∧
    (let s := regrouping (fun _ => false) 0 0
     regroups s && (s.team? ⟨0, 0⟩).any fun a => a.poolOf 0x10000 0 == [0, 1] && a.poolOf 0x10000 1 == [0, 1] && a.threads.all fun th => th.pc == 0x10000 && th.run == .suspended (.regrp 0x10000)) = true ∧
    (let s := { regrouping (fun n => n == 3) 0 0 with teams := (regrouping (fun n => n == 3) 0 0).teams.map fun x => (x.1, { x.2 with grps := x.2.grps.map fun g => if g.recno = 1 then { g with marks := [] } else g }) }
     regroups s && (s.team? ⟨0, 0⟩).any fun a => (a.grps.map fun g => g.marks.length) == [1, 0] && a.threads.any fun th => th.run != .exited && th.pc != 0x10000) = true := by decide +kernel

/-! ### Stores, fences, what memory instructions check, and fault reports -/

def unwatched (a : Team) : Bool := (a.waitsOf fun k => match k with | .monitor .. => true | _ => false).isEmpty
/-- Stores of four threads and of one, with a hint, under the keys of their lines, where another team stands. -/
theorem witness_StoredLines : ([0, 2].all fun pk => let o := { sto with pk }
    let s := { onlyThread state0 with teams := (onlyThread state0).teams ++ [(1, { team0 grp0 [] with ref := ⟨0, 1⟩ })] }
    issues s (.st o { hint := .strm }) o fun v => v.checkVirt (v.active o) (fun th => v.address o (some th)) 4 rightW anyFrame == .pass &&
      (Claim.storePlaces v o 4).all (fun x => v.s.mem.tags.get 0 (x.1 / 128) == x.2.1) && (Claim.storePlaces v o 4).length == (if pk = 0 then 4 else 1) && unwatched v.team &&
      (v.s.teams.find 1).any fun y => unwatched y && slotKey y.ref != slotKey v.iss.team) = true := by decide +kernel
/-- Writes in memory and in scratch that the group has observed, two of them to one byte, and one that it has not over one of these. -/
def fencingMore : State := let s := grpState fun g => { g with seen := [(7, none), (9, some 2)] }
  let u (w x cmd : Nat) (chunk : Option Nat) : Unplaced := ⟨w, [(0, BitVec.ofNat 8 x)], cmd, chunk, 1, ⟨none, none⟩, 0, none, 0⟩
  { s with mem := { s.mem with phys := { s.mem.phys with unplaced := [u 0x180004 1 8 none, u 0x180004 2 7 none, u 0x180004 3 9 (some 2), u 0x18000C 4 9 (some 1)] } },
           teams := s.teams.map fun x => (x.1, { x.2 with scratch := { x.2.scratch with unplaced := [u 64 5 7 none] } }) }
theorem witness_PackageFences : ([Scope.package, .pod].all fun sc => [FenceKind.acq, .acqrel].all fun fk => issues fencingMore (.fence {} sc fk) {} fun v =>
    v.s.mem.phys.unplaced.map (Claim.observed v) == [false, true, true, false] && v.team.scratch.unplaced.map (Claim.observed v) == [true] && unwatched v.team) = true := by decide +kernel
theorem witness_AtomicSums : [Ty.f32, .f64, .f16x2, .bf16x2].all (fun ty => ty == .f32 || ty == .f64 || Claim.packed ty) = true ∧ (0x3F800000 < 2 ^ Ty.width .f32) := by decide +kernel
/-- The first fault that the checks of a word find has this code, and whether all they find is pages not present. -/
def finds (s : State) (code : Code) (absent : Bool) (i : Instr) : Bool := match s.view? with
  | none => false
  | some v => match Claim.memFaults v i with
    | some (o, (f, a) :: xs) => f.code == code && (a && xs.all (·.2)) == absent && issues s i o fun v => v.team.msets.isEmpty && v.team.ref == v.iss.team
    | _ => false
/-- The context of the issuing team with REPLAY. -/
def replays (s : State) : State := { s with mem := { s.mem with ctxs := [⟨1, 0x100000, 0, 0, true⟩] } }
/-- Unmapped, read-only, not canonical and misaligned addresses, and scratch beyond its end and before its start. -/
theorem witness_MemoryFaults : ([Instr.ld { dst := .v 6, sa := .zero } {}, .st { sa := .zero, sb := .v 2 } {}, .ldc { dst := .s 5, sa := .zero } {}, .aadd { sa := .zero, sb := .v 3 } {},
      .waita ⟨{ dst := .s 5, sa := .zero, sb := .zero, sc := .zero }, false⟩].all fun i => finds state0 .xlate true i && finds (replays state0) .xlate true i) = true ∧
    ([Instr.st { sa := .s 6, sb := .v 2 } {}, .axch { ty := .b32, sa := .s 6, sb := .v 3 } {}].all (finds atHeader .prot false)) = true ∧
    ([Instr.ld { dst := .v 6, sa := .s 3, imm := 0x800000 } {}, .afadd { ty := .f32, sa := .s 3, sb := .v 3, imm := 0x800000 } {}].all fun i => finds (grpState fun g => g.setS 3 0x1000000000000000) .xlate false i) = true ∧
    ([Instr.acas { ty := .b32, sa := .s 1, sb := .v 3, sc := .v 3, imm := 2 } {}, .waita ⟨{ dst := .s 5, sa := .s 1, sb := .zero, sc := .zero, imm := 2 }, false⟩].all (finds state0 .align false)) = true ∧
    ([Instr.lds { dst := .v 6, sa := .s 1 } {}, .sts { sa := .zero, sb := .v 2, imm := 0xFFFFFC } {}].all (finds state0 .scrBound false)) = true ∧
    (replays state0).ctx? 1 = some ⟨1, 0x100000, 0, 0, true⟩ := by decide +kernel
/-- Rings of a partition with room, the fault ring at 0x8000 of host memory and the status ring at 0x1000. -/
def withRings (s : State) : State := { s with parts := State.reset.parts.map fun q => { q with sqbase := 0x1000, sqcfg := 4, frbase := 0x8000, frcfg := 0 } }
def reports (s : State) (r : TeamRef) : Bool := (s.team? r).any fun a =>
  let q := s.part a.part
  a.ref == r && a.ending.isNone && a.fault.isNone && (s.reportOf a.item).isNone && s.coll.live.isEmpty && (a.frep || (s.front.levels.isEmpty && s.front.dens.isEmpty)) && decide (a.part < 32) &&
    s.parts.length == 32 && !q.flr && q.held.isEmpty && q.ringRoom && q.frbase != 0 && decide (q.frtail - q.frhead < 2 ^ (q.frcfg % 16 + 4)) &&
    decide (Claim.faultPlace q + 64 ≤ Claim.statusPlace q ∨ Claim.statusPlace q + 32 ≤ Claim.faultPlace q)
def canFault (frep : Bool) (handler : Nat) : State := withRings (teamState fun a => { a with frep, hdr := { khdr with handler } })
/-- A team without a handler, under FREP and without; and one with a handler, with room in the fault ring and without. -/
theorem witness_FaultsLeave : ([true, false].all fun frep => let s := canFault frep 0
      reports s ⟨0, 0⟩ && (s.view?.any fun v => v.any {} && v.team.ref == v.iss.team && v.team.hdr.handler == 0) && finds s .xlate true (.ld { dst := .v 6, sa := .zero } {})) = true ∧
    ([withRings state0, state0].all fun s => (s.view?.any fun v => v.any {} && v.team.ref == v.iss.team && v.team.hdr.flags.testBit 0 && v.team.hdr.handler != 0 && v.grp.trap.isNone && !(s.part v.team.part).flr &&
      decide (v.team.part < 32) && s.parts.length == 32 && s.teams.all (fun x => unwatched x.2) && Safety.ordered v.team && v.team.msets.isEmpty && v.present.all (·.meet == 0) &&
      (s.landing v.iss.team.core v.team.asid v.team.hdr.handler).isNone) && finds s .xlate true (.ld { dst := .v 6, sa := .zero } {})) = true ∧
    (let q := (withRings state0).part 0
     q.frbase ≠ 0 ∧ q.frtail - q.frhead < 2 ^ (q.frcfg % 16 + 4)) ∧ (state0.part 0).frbase = 0 := by decide +kernel

/-! ### Copies and matrix commands that complete or stop -/

/-- A copy of 8 bytes, from scratch 0x100 or 0x20000, to scratch 0 or 0x20100. -/
def moved (sscr dscr : Bool) (rel : Option Scope) : CopyCmd :=
  { copy0 dscr 0 with sscr, rel, trk := none, shape := .block (if sscr then 0x100 else 0x20000) (if dscr then 0 else 0x20100) 8 1 1 0 0 0 0, chunks := [] }
def moving (c : CopyCmd) : State := { copying false 0 with eng := ⟨[], [c], [], []⟩ }
theorem witness_CopiesBring : ([true, false].all fun sscr => [true, false].all fun dscr => [none, some .team, some .package].all fun rel =>
      let s := moving (moved sscr dscr rel)
      (s.liveCopy 3).any fun x => x.1 == moved sscr dscr rel && x.2.ref == x.1.iss.team && x.2.grps.any (fun g => !g.retired) && (match s.copyWords x.2 x.1 x.1.shape.words with | .ok _ => true | _ => false) &&
        s.mem.phys.unplaced.isEmpty && s.mem.phys.past.isEmpty && x.2.scratch.unplaced.isEmpty && x.2.scratch.past.isEmpty && (Claim.copied x.1.shape).all fun y =>
          (sscr || (s.stray (s.place1 x.2.asid y.2 rightR).2 (Claim.src s x.2.asid y.2)).isNone) && (Claim.copied x.1.shape).all fun z =>
            (!sscr || !dscr || y.2 / 4 != z.1 / 4) && (sscr || dscr || Claim.src s x.2.asid y.2 / 4 != Claim.dest s x.2.asid z.1 / 4)) = true ∧
    (∀ sscr : Bool, let s := moving (moved sscr false none)
      ∀ a ∈ s.teams, Claim.apart s 1 ((Claim.copied (moved sscr false none).shape).map fun x => (x.1, Claim.copySrc s a.2 (moved sscr false none) x.2))) := by
  unfold Claim.apart
  decide +kernel
/-- A command that has stopped; one to a page that may not be written and one to a page not present, with rings to report in; and the latter under REPLAY. -/
theorem witness_CopyFaults : (∀ c ∈ (moving { copy0 false 0 with failed := true }).eng.copies, c.num = 3 → c.failed = true) ∧
    ([(0x10000, false), (0x30000, true)].all fun x => let s := withRings (copying false x.1)
      reports s ⟨0, 0⟩ && (s.liveCopy 3).any fun y => y.1.words.isEmpty && y.2.ref == y.1.iss.team && !(s.failingWords y.2 y.1).isEmpty && !(s.ctx? y.2.asid).any (·.replay) &&
        (s.failingWords y.2 y.1).all (fun f => match f with | .fail f => f.code == .prot && !x.2 | .absent f => f.code == .xlate && x.2 | _ => false) &&
        (Claim.copied y.1.shape).any fun z => (Claim.pieceFault s y.2.asid rightW anyFrame (z.1, 1)).isSome) = true ∧
    (let s := replays (copying false 0x30000)
     (s.liveCopy 3).any fun y => y.2.ref == y.1.iss.team && !(s.failingWords y.2 y.1).isEmpty && (s.failingWords y.2 y.1).all (fun f => match f with | .absent _ => true | _ => false) && (s.ctx? y.2.asid).any (·.replay) &&
       s.mem.parked.isEmpty) = true := by decide +kernel
/-- An argument page of 64 KiB ends at 2^39, where no page is present: each byte of it is read plainly. -/
def argVa : Nat := 2 ^ 39 - 65536
def argued (c : MatCmd) : State := { matting c with mem := { mem0 with argPages := [⟨1, argVa, 0x180000, 1⟩] } }
theorem translate_argued (c : MatCmd) {a : Nat} (h : a / 65536 = 2 ^ 23 - 1) : (argued c).translate 1 a rightR = .ok ⟨0x180000 + a % 65536, 0, true, false, false, 0, 65536, none⟩ := by
  have e : (argued c).mem.argPages.find? (fun p => p.asid == 1 && p.va == a / 65536 * 65536) = some ⟨1, argVa, 0x180000, 1⟩ := by rw [h]; rfl
  simp only [State.translate, e]
  rfl
/-- No byte of the page, nor of the pages not present, is stray. -/
theorem stray_argued (c : MatCmd) {a : Nat} (h : a / 65536 = 2 ^ 23 - 1) : (argued c).stray ((argued c).place1 1 a rightR).2 (Claim.src (argued c) 1 a) = none := by
  have guest : physKind (0x180000 + a % 65536) ≠ .guest := by unfold physKind; split_ifs <;> first | decide | omega
  have tags : (argued c).mem.tags = [] := by rw [show (argued c).mem.tags = mem0.tags from rfl]; decide +kernel
  simp only [Claim.src, State.place1, translate_argued c h]
  rw [State.stray, tags, if_neg fun x => x.2.elim (by decide) fun y => y rfl, if_neg fun x => guest (by simpa using And.left (by simpa using x))]
theorem canonical_argued {a : Nat} (h : a / 65536 = 2 ^ 23 - 1) : canonical a = true := by
  have hb : a >>> 53 = 0 := by rw [Nat.shiftRight_eq_div_pow]; omega
  have lo : decide (a < 2 ^ 64) = true := decide_eq_true (by omega)
  simp only [canonical, bits, lo, hb]
  rfl
theorem checkPiece_argued (c : MatCmd) {p : Nat × Nat} (h : p.1 / 65536 = 2 ^ 23 - 1) : (argued c).checkPiece 1 rightR anyFrame p = .pass := by
  have fr : anyFrame.contains (physKind (0x180000 + p.1 % 65536)) = true := by
    have hbm : physKind (0x180000 + p.1 % 65536) = .hbm := by unfold physKind; split_ifs <;> first | rfl | omega
    rw [hbm]; rfl
  unfold State.checkPiece
  rw [translate_argued c h]
  simp only [canonical_argued h, fr]
  rfl
theorem poisoned_argued (c : MatCmd) (pa : Nat) : (argued c).poisoned pa = false := rfl
theorem pieceSize_le (p : Nat) {n : Nat} (h : n ≠ 0) : 1 ≤ pieceSize p n ∧ pieceSize p n ≤ n := by
  unfold pieceSize
  split_ifs <;> omega
theorem piecesN_in : ∀ (k p n : Nat), ∀ x ∈ piecesN k p n, p ≤ x.1 ∧ 1 ≤ x.2 ∧ x.1 + x.2 ≤ p + n
  | 0, _, _, x, h => by simp [piecesN] at h
  | k + 1, p, n, x, h => by
    unfold piecesN at h
    split at h
    · simp at h
    · rename_i hn
      have := pieceSize_le p hn
      rcases List.mem_cons.1 h with rfl | h
      · dsimp only; omega
      · have := piecesN_in k _ _ x h
        omega
/-- The pieces of a run in the page lie in it. -/
theorem pieces_argued {a n : Nat} (lo : argVa ≤ a) (hi : a + n ≤ 2 ^ 39) : ∀ x ∈ pieces a n, x.1 / 65536 = 2 ^ 23 - 1 := fun x hx => by
  obtain ⟨y, hy, rfl⟩ := List.mem_map.1 hx
  have := piecesN_in _ _ _ y hy
  unfold argVa at lo
  have : y.1 % 2 ^ 64 = y.1 := Nat.mod_eq_of_lt (by omega)
  dsimp only
  omega
def mld0 : MatCmd := mat0 0 [0] .mld argVa none
/-- The whole image of an MLD can be read, and no byte of it is stray or poisoned. -/
theorem witness_LoadedTile : (argued mld0).matFails matTeam mld0 = [] ∧ (argued mld0).matPoison matTeam mld0 = none ∧ ((argued mld0).liveMat 3).map (·.2) = some matTeam ∧
    (argued mld0).mem.phys.unplaced = [] ∧ (argued mld0).mem.phys.past = [] ∧
    ∀ j < 32776, (argued mld0).stray ((argued mld0).place1 1 ((argVa + j) % 2 ^ 64) rightR).2 (Claim.src (argued mld0) 1 ((argVa + j) % 2 ^ 64)) = none := by
  refine ⟨fails_nil fun k hk => ?_, ?_, by decide +kernel, rfl, rfl, fun j hj => stray_argued _ (by unfold argVa; omega)⟩
  · obtain ⟨p, hp, rfl⟩ := List.mem_map.1 hk
    exact checkPiece_argued _ (pieces_argued (le_refl _) (by decide) p hp)
  · change (argued mld0).runPoison matTeam ⟨argVa, 32776⟩ = none
    simp only [State.runPoison, poisoned_argued, Bool.false_eq_true, if_false]
    exact List.findSome?_eq_none_iff.2 fun _ _ => rfl
/-- An MMA of one block: with strides of 0 its rows and columns are few runs. -/
def mma0 : MatCmd := { mat0 0 [0] .mma 0 (some 0) with descr := [argVa, 0, argVa, argVa, 0, argVa, 0].map (BitVec.ofNat 64) }
theorem mma_runs : ∀ r ∈ mmaRuns mma0 0 0, r.a = argVa ∧ r.n ≤ 256 := by decide +kernel
/-- All that it reads can be read, and is what memory holds. -/
theorem witness_MmaPasses : ((argued mma0).liveMat 3).map (·.2) = some matTeam ∧ (argued mma0).matFails matTeam mma0 = [] ∧ (argued mma0).matPoison matTeam mma0 = none ∧ Claim.matSteady (argued mma0) matTeam mma0 := by
  have blocks : fmtBlocks 0 = 1 := by decide
  refine ⟨by decide +kernel, mma_passes rfl rfl fun b hb => ?_, ?_, rfl, rfl, fun x h => ?_, fun f b r hf hb hr j hj => ?_⟩
  · obtain rfl : b = 0 := by omega
    refine firstFail_pass fun c hc => ?_
    obtain ⟨r, hr, rfl⟩ := List.mem_map.1 hc
    have run := mma_runs r hr
    refine firstFail_pass fun c hc => ?_
    obtain ⟨p, hp, rfl⟩ := List.mem_map.1 hc
    exact checkPiece_argued _ (pieces_argued run.1.ge (by rw [run.1]; unfold argVa; omega) p hp)
  · unfold State.matPoison
    refine List.findSome?_eq_none_iff.2 fun r _ => ?_
    simp only [State.runPoison, poisoned_argued, Bool.false_eq_true, if_false]
    exact List.findSome?_eq_none_iff.2 fun _ _ => rfl
  · cases h
  · cases hf
    obtain rfl : b = 0 := by have : (0 : W32).toNat / 2 ^ 8 % 2 ^ 7 = 0 := by decide
                             omega
    have run := mma_runs r hr
    refine stray_argued _ ?_
    rw [run.1]
    unfold argVa
    omega
/-- An MMA whose second block of A lies on a page not present. -/
def mma1 : MatCmd := { mma0 with fmt := some 0x100, descr := [argVa + 65536 - 32, 0, argVa, argVa, 0, argVa, 0].map (BitVec.ofNat 64) }
theorem mma1_runs : ∀ b < 2, ∀ r ∈ mmaRuns mma1 0x100 b, (argVa ≤ r.a ∧ r.a + r.n ≤ 2 ^ 39) ∨ (r.a = 2 ^ 39 ∧ r.n = 32) := by decide +kernel
theorem mma1_stray : ∀ j < 32, (argued mma1).stray ((argued mma1).place1 1 ((2 ^ 39 + j) % 2 ^ 64) rightR).2 (Claim.src (argued mma1) 1 ((2 ^ 39 + j) % 2 ^ 64)) = none := by decide +kernel
theorem witness_MmaSteadyToItsFault : Claim.matSteady (withRings (argued mma1)) matTeam mma1 := by
  refine ⟨rfl, rfl, fun x h => ?_, fun f b r hf hb hr j hj => ?_⟩
  · cases h
  · cases hf
    have : (0x100 : W32).toNat / 2 ^ 8 % 2 ^ 7 = 1 := by decide
    change (argued mma1).stray ((argued mma1).place1 1 ((r.a + j) % 2 ^ 64) rightR).2 (Claim.src (argued mma1) 1 ((r.a + j) % 2 ^ 64)) = none
    rcases mma1_runs b (by omega) r hr with run | run
    · refine stray_argued _ ?_
      unfold argVa at run
      omega
    · rw [run.1]
      exact mma1_stray j (by omega)
/-- A tile with elements to realign; a command that has stopped; an MMA at a bad address, one that stops at its second block, and one under REPLAY. -/
def tiled : State := { (teamState fun a => { a with tiles := [Tile.zero, ⟨-46, [(0, 5), (4095, 2 ^ 48)]⟩] ++ List.replicate 6 Tile.zero }) with eng := ⟨[], [], [mat0 0 [0] (.mrnm 3) 0 none], []⟩ }
def mmaBad : MatCmd := { mma0 with descr := [2 ^ 60, argVa, argVa, argVa, 0, argVa, 0].map (BitVec.ofNat 64) }
def matFaults (s : State) (absent : Bool) : Bool := (s.liveMat 3).any fun x => x.2.ref == x.1.iss.team && s.mem.poison.isEmpty && !(s.matFails x.2 x.1).isEmpty &&
  (s.matFails x.2 x.1).all fun f => match f with | .fail _ => !absent | .absent _ => absent | _ => false
theorem witness_Realigned : ((tiled.team? ⟨0, 0⟩).any fun a => decide (((a.tile 1).els.map (·.1)).Nodup) && (tiled.liveMat 3).any fun x => (tiled.matFails x.2 x.1).isEmpty && (tiled.matPoison x.2 x.1).isNone) = true := by decide +kernel
theorem witness_MatrixStops : (∀ c ∈ (matting { mma0 with failed := true }).eng.mats, c.num = 3 → c.failed = true) ∧ (matFaults (withRings (argued mmaBad)) false && reports (withRings (argued mmaBad)) ⟨0, 0⟩) = true := by decide +kernel
theorem witness_MatrixFaults : (matFaults (withRings (argued mma1)) true && reports (withRings (argued mma1)) ⟨0, 0⟩ && !((withRings (argued mma1)).ctx? 1).any (·.replay) && decide (1 < matTeam.tiles.length)) = true := by decide +kernel
theorem witness_MatrixReplays : (let s := replays (argued mma1)
    matFaults s true && (s.ctx? 1).any (·.replay) && s.mem.parked.isEmpty) = true := by decide +kernel

/-! ### Cancels by a launch id, checks of records, dispatch -/

/-- Launch 1 with a resident team, in its region or not, a den declared under it with a resident team and a record, and a collective of which no chunk has fired. -/
def cancelling (pre : Bool) (live : List Coll) : State := { launched with
  teams := launched.teams.map (fun x => (x.1, { x.2 with pre })) ++ [(1, { team0 grp0 [] with ref := ⟨0, 1⟩, item := .den 7, pre })]
  front := { launched.front with dens := [{ den0 with id := 1, records := [[]] }] }, coll := ⟨live, [⟨0, 128, 0, 7, true⟩], []⟩ }
theorem witness_CancelById : ([true, false].all fun pre => [[], [coll0]].all fun live => let s := cancelling pre live
    issues s (.cancel { sa := .zero } .launch) { sa := .zero } (fun v => v.team.part == 0 && v.team.launch / 2 ^ 27 == 0) && (s.front.launches.any fun l => l.part == 0 && l.id == 1) && (s.front.dens.any fun d => d.part == 0 && d.opened && d.id == 1) &&
      ((s.coll.live.find? (·.launch == 1)).all fun c => decide (c.fired.length < c.bind.nchunk)) && ([(⟨0, 0⟩, Item.launch 1), (⟨0, 1⟩, .den 7)].all fun (x : TeamRef × Item) => (s.team? x.1).any fun a =>
        a.ref == x.1 && a.ending.isNone && a.item == x.2 && a.grps.any fun g => !g.retired)) = true := by decide +kernel
/-- The seal that is cleared and the place of the REFUSED record are apart. -/
theorem witness_RefusedRecord : (let q := (sealed (List.replicate 128 0) false).part 2
    q.winBase + 128 * (q.e % 64) + 127 < hostPa (q.sqbase + 32 * (q.sqtail % 2 ^ q.sqcfg)) ∨ hostPa (q.sqbase + 32 * (q.sqtail % 2 ^ q.sqcfg)) + 32 ≤ q.winBase + 128 * (q.e % 64) + 127) := by decide +kernel
def launchD : Launch := { launch0 with lrec := { launch0.lrec with scls := 0 }, burrows := [⟨3, 0, 0⟩] }
def denD : Den := { den0 with id := 9, seq := 4, asid := 1, hdr := KHdr.placed, burrows := [⟨3, 0, 0⟩] }
def waiter0 : Waiter := ⟨1, 0x20100, KHdr.placed, 3, 0, [], 5, 1, false⟩
/-- Slot 3 of core 0 takes launches and dens, and slot 15 reduce teams. -/
def dispatchOf (ls : List Launch) (ds : List Den) (cs : List Coll) (time : Nat) : State := withRings { State.reset with
  mem := mem0, clock := { State.reset.clock with time }, coll := ⟨cs, [], []⟩, front := { State.reset.front with launches := ls, dens := ds, binds := State.reset.front.binds.put 3 0x8010000000000000 } }
def itemOf (item : Item) (from_ : CandFrom) (scls deadline seq : Nat) (hdr : KHdr) : Cand := ⟨item, from_, scls, 0, 0, 0, deadline, seq, hdr⟩
/-- The die's choice is this item, which is in time or late, and the rings have room for its record. -/
def chosen (s : State) (c : Cand) (late : Bool) : Bool := s.choice 0 == some c && decide (decide ((((s.clock.time : Int) - c.deadline) % (2 : Int) ^ 48).toNat < 2 ^ 47) = late) && s.teams.all (fun x => unwatched x.2) && s.parts.length == 32 &&
  !(s.part 0).flr && (s.part 0).held.isEmpty && (s.part 0).ringRoom && (s.landing 0 1 c.hdr.entry).isNone
theorem witness_Dispatches : ([(0, false), (1000, true)].all fun x =>
      (chosen (dispatchOf [launchD] [] [] x.1) (itemOf (.launch 1) .fresh 0 5 1 KHdr.placed) x.2 && (match Claim.item (dispatchOf [launchD] [] [] x.1) (itemOf (.launch 1) .fresh 0 5 1 KHdr.placed) x.2 with
        | some (.inl (l, _)) => l == launchD && !l.late && l.lrec.deadline == 5 && l.seq == 1 | _ => false)) &&
      (let l := { launchD with next := 2, restarts := [waiter0] }
       chosen (dispatchOf [l] [] [] x.1) (itemOf (.launch 1) (.restart waiter0) 0 5 1 KHdr.placed) x.2) &&
      (let d := { denD with ready := [⟨5, 4, [List.replicate 64 1]⟩] }
       chosen (dispatchOf [] [d] [] x.1) (itemOf (.den 7) (.trigger ⟨5, 4, [List.replicate 64 1]⟩) 0 5 4 KHdr.placed) x.2 && (match Claim.item (dispatchOf [] [d] [] x.1) (itemOf (.den 7) (.trigger ⟨5, 4, [List.replicate 64 1]⟩) 0 5 4 KHdr.placed) x.2 with
        | some (.inr (y, _)) => y == d && !y.late && y.part == 0 | _ => false)) &&
      let d := { denD with restarts := [waiter0] }
      chosen (dispatchOf [] [d] [] x.1) (itemOf (.den 7) (.restart waiter0) 0 5 1 KHdr.placed) x.2) = true ∧
    (let c := { coll0 with reduceDue := true }
     (dispatchOf [launchD] [] [c] 0).choice 0 == some (itemOf (.reduce 0 7) .reduce 1 0 0 .reduce) && (dispatchOf [launchD] [] [c] 0).coll? 0 7 == some c) = true := by decide +kernel
theorem slot3 (ls : List Launch) (ds : List Den) (cs : List Coll) (time : Nat) : (dispatchOf ls ds cs time).front.binds.get 0 (slotKey ⟨0, 3⟩) = 0x8010000000000000 := by
  change (State.reset.front.binds.put 3 0x8010000000000000).get 0 3 = _
  decide +kernel
theorem room0 (ls : List Launch) (ds : List Den) (time : Nat) (item : Item) (f : CandFrom) (seq : Nat) : Claim.room (dispatchOf ls ds [] time) 0 0 (itemOf item f 0 5 seq KHdr.placed) :=
  ⟨(by decide : 0 + KHdr.placed.accs ≤ 16), (by decide : 0 + KHdr.placed.threads / 32 ≤ 64), (by decide : 0 + KHdr.placed.scratch ≤ 448 * 1024),
    (by decide : ∀ q < 4, 0 + (List.range (KHdr.placed.threads / 32)).countP (fun n => (n + 0) % 4 == q) ≤ 16)⟩
theorem fits_launch (l : Launch) (f : CandFrom) (time : Nat) (hi : l.id = 1) (hb : l.burrows = [⟨3, 0, 0⟩]) : Claim.fits (dispatchOf [l] [] [] time) ⟨0, 3⟩ (itemOf (.launch 1) f 0 5 1 KHdr.placed) := by
  unfold Claim.fits
  rw [slot3]
  refine ⟨by decide, rfl, (by decide : _ = 0), ⟨0, by decide, room0 _ _ _ _ _ _⟩, Or.inr ⟨(by decide : _ = 0), (by decide : Nat.testBit _ 52 = true), Or.inl (by decide), fun id h => ?_, fun n h => by cases h⟩⟩
  cases h
  exact ⟨l, by simp [State.launch?, dispatchOf, withRings, hi], by rw [hb]; exact Nat.zero_lt_one⟩
theorem fits_den (d : Den) (f : CandFrom) (time seq : Nat) (hn : d.num = 7) (hb : d.burrows = [⟨3, 0, 0⟩]) : Claim.fits (dispatchOf [] [d] [] time) ⟨0, 3⟩ (itemOf (.den 7) f 0 5 seq KHdr.placed) := by
  unfold Claim.fits
  rw [slot3]
  refine ⟨by decide, rfl, (by decide : _ = 0), ⟨0, by decide, room0 _ _ _ _ _ _⟩, Or.inr ⟨(by decide : _ = 0), (by decide : Nat.testBit _ 52 = true), Or.inl (by decide), (fun id h => by cases h), fun n h => ?_⟩⟩
  cases h
  exact ⟨d, by simp [State.den?, dispatchOf, withRings, hn], by rw [hb]; exact Nat.zero_lt_one⟩
/-- Each item that `witness_Dispatches` names fits its slot. -/
theorem witness_Fits : Claim.fits (dispatchOf [launchD] [] [] 0) ⟨0, 3⟩ (itemOf (.launch 1) .fresh 0 5 1 KHdr.placed) ∧
    Claim.fits (dispatchOf [{ launchD with next := 2, restarts := [waiter0] }] [] [] 0) ⟨0, 3⟩ (itemOf (.launch 1) (.restart waiter0) 0 5 1 KHdr.placed) ∧
    Claim.fits (dispatchOf [] [{ denD with ready := [⟨5, 4, [List.replicate 64 1]⟩] }] [] 0) ⟨0, 3⟩ (itemOf (.den 7) (.trigger ⟨5, 4, [List.replicate 64 1]⟩) 0 5 4 KHdr.placed) ∧
    Claim.fits (dispatchOf [] [{ denD with restarts := [waiter0] }] [] 0) ⟨0, 3⟩ (itemOf (.den 7) (.restart waiter0) 0 5 1 KHdr.placed) ∧
    Claim.fits (dispatchOf [launchD] [] [{ coll0 with reduceDue := true }] 0) ⟨0, 15⟩ (itemOf (.reduce 0 7) .reduce 1 0 0 .reduce) :=
  ⟨fits_launch _ _ _ rfl rfl, fits_launch _ _ _ rfl rfl, fits_den _ _ _ _ rfl rfl, fits_den _ _ _ _ rfl rfl,
    by decide +kernel, rfl, by decide +kernel, ⟨0, by decide, by unfold Claim.room; exact ⟨by decide +kernel, by decide +kernel, by decide +kernel, by decide +kernel⟩⟩, Or.inl rfl⟩

/-! ### Images, rails and the guest's control register -/

def running (n : Nat) : State := { State.reset with mgmt := { State.reset.mgmt with cores := modNth (fun c => { c with released := true }) State.reset.mgmt.cores n } }
/-- A target that runs its bank A, one that runs none, and room in flash. -/
theorem witness_Images : (running 3).mgmt.released 3 = true ∧ ((running 3).target 3).usedB = false ∧ State.reset.mgmt.released 3 = false ∧ State.reset.mgmt.flashUsed + 4086 ≤ 2 ^ 26 := by decide +kernel
/-- Writes of GCTL and RCTL with a Reserved bit, a doorbell, a rail that the write leaves as it is, one that it enables and one that it disables. -/
theorem witness_RailControl : (1 < (2 : W64).toNat ∧ (0 : W64) = 0) ∧ (railed 8 10 ⟨0, true, true, false, 0, 0, 0⟩).mgmt.rails.length = 11 ∧ (8 ≤ (8 : W64).toNat ∧ (7 : W64).toNat < 8 ∧ (1 : W64).toNat = 1 ∧ (0 : W64).toNat = 0) ∧
    ([true, false].all fun e => ((railed 8 10 ⟨0, e, e, true, 0, 0, 0⟩).rail 10).enable == e && (if e then (7 : W64) else 4).getLsbD 0 == e) = true ∧
    ((railed 8 10 ⟨0, true, true, false, 0, 0, 0⟩).rail 9).enable = true ∧ (9 : Fin 11).val ≠ 0 := by decide +kernel

end Sys2Proof.Tests
end

section
/-! The registers of the partitions, and those that firmware, the fabric and Genmon hold: each write changes its own register alone. -/
namespace Sys2Proof.Machine

/-! ## Tables held as lists under a number -/

section Keyed
variable {α : Type} (key : α → Nat)

theorem find?_without (l : List α) (n k : Nat) :
    (l.filter fun y => key y != n).find? (fun y => key y == k) = if k = n then none else l.find? fun y => key y == k := by
  rw [List.find?_filter]
  split_ifs with h
  · exact List.find?_eq_none.2 fun y _ => by simp [h]
  · congr 1
    funext y
    by_cases hk : key y = k <;> simp [hk, h]

theorem find?_replaced (l : List α) {n : Nat} {x : α} (hx : key x = n) (k : Nat) :
    (l.filter (fun y => key y != n) ++ [x]).find? (fun y => key y == k) = if k = n then some x else l.find? fun y => key y == k := by
  rw [List.find?_append, find?_without]
  by_cases h : k = n
  · simp [h, hx]
  · simp [h, hx, Ne.symm h]

end Keyed

/-! ## Registers of a partition -/

theorem State.part_modPart (s : State) {p : Nat} (f : Part → Part) (h : p < s.parts.length) (k : Nat) :
    (s.modPart p f).part k = if k = p then f (s.part k) else s.part k := by
  split_ifs with hk
  · subst hk; exact nth_modNth_same _ f h
  · exact nth_modNth_other _ f _ hk

/-- Without held records there is nothing to write when the status ring gains room. -/
theorem State.drainStatus_of_held_nil {s : State} {p : Nat} (h : (s.part p).held = []) (n : Nat) : s.drainStatus p n = s := by
  cases n with
  | zero => rfl
  | succ n => simp [State.drainStatus, h]

theorem State.drainStatus_modPart {s : State} {p : Nat} {f : Part → Part} (hp : p < s.parts.length) (h : (s.part p).held = [])
    (hf : ∀ q, (f q).held = q.held) (n : Nat) : (s.modPart p f).drainStatus p n = s.modPart p f :=
  State.drainStatus_of_held_nil (by simp [State.part_modPart s f hp, hf, h]) n

/-- A partition's register written under `f` if the write is accepted, and the answers of a read. -/
def State.partWritten (s : State) (p : Nat) (ok : Bool) (f : Part → Part) (xs : List W64) : State :=
  { s with parts := if ok then modNth f s.parts p else s.parts, front := { s.front with answers := s.front.answers ++ xs } }

/-- A write that is refused or else made writes under the opposite guard. -/
theorem ite_next_partWritten (s : State) (p : Nat) (f : Part → Part) {bad good : Prop} [Decidable bad] [Decidable good] (h : good ↔ ¬ bad) :
    (if bad then .next s else .next (s.modPart p f) : Host.Outcome State Fault Refusal) = .next (s.partWritten p (decide good) f []) := by
  by_cases hb : bad <;> simp [h, hb, State.partWritten, State.modPart]

/-- So does one after which held records would follow, while none is held. -/
theorem ite_next_drained {s : State} {p : Nat} {f : Part → Part} (hp : p < s.parts.length) (held : (s.part p).held = [])
    (hf : ∀ q, (f q).held = q.held) {bad good : Prop} [Decidable bad] [Decidable good] (h : good ↔ ¬ bad) :
    (if bad then .next s else .next ((s.modPart p f).drainStatus p 64) : Host.Outcome State Fault Refusal) =
      .next (s.partWritten p (decide good) f []) := by
  rw [State.drainStatus_modPart hp held hf]
  exact ite_next_partWritten s p f h

/-- Each register access of R293, R412 and R419 does what its row of `Claim.partWrite` says. -/
theorem exec_of_partWrite {s : State} {i : Instr} {p : Fin 32} {ok : Bool} {f : Part → Part} {xs : List W64}
    (h : Claim.partWrite s i = some (p, ok, f, xs)) (hp : p.val < s.parts.length) (held : (s.part p).held = []) :
    exec i s = .next (s.partWritten p ok f xs) := by
  unfold Claim.partWrite at h
  split at h
  case h_13 n x =>
    split at h
    · cases h
      exact ite_next_partWritten s n _ (by omega)
    · cases h
  case h_14 => cases h
  all_goals obtain ⟨rfl, rfl, rfl, rfl⟩ := h
  case h_1 | h_2 | h_3 =>
    refine ite_next_drained hp held ?_ ?_
    · exact fun _ => rfl
    · omega
  case h_4 | h_8 => rfl
  all_goals exact ite_next_partWritten s _ _ (by omega)

/-- R293, R412, R419. -/
theorem partitionRegistersTakeTheirLegalValues : Claim.PartitionRegistersTakeTheirLegalValues := by
  intro s i p ok f xs h len held
  have hp : p.val < s.parts.length := by omega
  refine ⟨_, exec_of_partWrite h hp held, rfl, ?_, fun k _ => ?_⟩
  · cases ok <;> simp [State.partWritten, len]
  · cases ok
    · simp [State.partWritten, State.part]
    · simp only [and_true]
      exact State.part_modPart s f hp k

/-! ## Fields of a written value -/

theorem bits_eq (x hi lo : Nat) : bits x hi lo = x / 2 ^ lo % 2 ^ (hi + 1 - lo) := by
  rw [bits, Nat.shiftRight_eq_div_pow]

/-! ## The fabric's registers and the guest's queues -/

/-- A write of a register of the fabric that is refused or else made. -/
theorem ite_next_fab (s : State) (g : Fab) {bad good : Prop} [Decidable bad] [Decidable good] (h : good ↔ ¬ bad) :
    (if bad then .next s else .next { s with fab := g } : Host.Outcome State Fault Refusal) =
      .next { s with fab := if good then g else s.fab } := by
  by_cases hb : bad <;> simp [h, hb]

theorem State.gq_modGq_same (s : State) {q : Nat} (f : GQueue → GQueue) (h : q < s.guest.queues.length) :
    (s.modGq q f).gq q = f (s.gq q) := nth_modNth_same _ f h

/-! ## Feed queues and dens -/

/-- A feed queue as firmware finds it before it writes CFG or QBASE. -/
def State.feedqOr (s : State) (q p : Nat) : FeedQ := (s.feedq? q).getD (FeedQ.blank q p)

theorem State.feedqOr_num (s : State) (q p : Nat) : (s.feedqOr q p).num = q := by
  unfold State.feedqOr
  cases h : s.feedq? q with
  | none => rfl
  | some y => simpa using List.find?_some h

/-- Queue q changed by `f`, and entered if it was not there. -/
def State.putFeedq (s : State) (q p : Nat) (f : FeedQ → FeedQ) : State :=
  { s with front := { s.front with feedqs := s.front.feedqs.filter (·.num != q) ++ [f (s.feedqOr q p)] } }

theorem State.feedq?_putFeedq (s : State) (q p : Nat) {f : FeedQ → FeedQ} (hf : ∀ y, (f y).num = y.num) (k : Nat) :
    (s.putFeedq q p f).feedq? k = if k = q then some (f (s.feedqOr q p)) else s.feedq? k :=
  find?_replaced FeedQ.num _ ((hf _).trans (s.feedqOr_num q p)) k

/-- What a write of CFG or QBASE makes of its queue, and of no other. -/
theorem State.putFeedq_spec (s : State) (q p : Nat) {f : FeedQ → FeedQ} (hf : ∀ y, (f y).num = y.num) :
    (s.putFeedq q p f).feedq? q = some (f (s.feedqOr q p)) ∧ (∀ old, s.feedq? q = some old → s.feedqOr q p = old) ∧
      (s.feedq? q = none → s.feedqOr q p = FeedQ.blank q p) ∧ ∀ k, k ≠ q → (s.putFeedq q p f).feedq? k = s.feedq? k := by
  refine ⟨by simp [feedq?_putFeedq s q p hf], fun old h => ?_, fun h => ?_, fun k h => by simp [feedq?_putFeedq s q p hf, h]⟩
  · simp [State.feedqOr, h]
  · simp [State.feedqOr, h]

/-- A feed queue with the fields of CFG. -/
def FeedQ.withCfg (s : State) (x : W64) (y : FeedQ) : FeedQ :=
  let p := x.toNat / 2 ^ 8 % 32
  { y with part := p, l := x.toNat % 32, enabled := x.getLsbD 63, asid := s.partAsid p }

theorem State.setFqCfg_eq (s : State) (q : Nat) (x : W64) :
    s.setFqCfg q x.toNat = s.putFeedq q (x.toNat / 2 ^ 8 % 32) (FeedQ.withCfg s x) := by
  have part : bits x.toNat 12 8 = x.toNat / 2 ^ 8 % 32 := bits_eq _ _ _
  rw [← part]
  unfold State.putFeedq FeedQ.withCfg
  rw [← part]
  rfl

/-! ## Rails -/

theorem State.rail_modRail (s : State) {n : Nat} (f : Rail → Rail) (h : n < s.mgmt.rails.length) (k : Nat) :
    (s.modRail n f).rail k = if k = n then f (s.rail k) else s.rail k := by
  split_ifs with hk
  · subst hk; exact nth_modNth_same _ f h
  · exact nth_modNth_other _ f _ hk

/-- Power-down disables every rail but STBY. -/
theorem State.rail_powerDown_enable (s : State) {n : Nat} (h : n < s.mgmt.rails.length) (h0 : n ≠ 0) : (s.powerDown.rail n).enable = false := by
  simp [State.rail, State.powerDown, nth_eq_getD, h, h0]

/-- RCTL's bit 2, the first to act. -/
def State.faultCleared (s : State) (n : Nat) (clear : Bool) : State :=
  if clear then s.modRail n fun r => { r with fault := false } else s

theorem State.faultCleared_eq (s : State) (n : Nat) (b : Bool) :
    s.faultCleared n b = { s with mgmt := { s.mgmt with rails := (s.faultCleared n b).mgmt.rails } } := by
  cases b <;> rfl

theorem State.rail_faultCleared (s : State) {n : Nat} (b : Bool) (h : n < s.mgmt.rails.length) (k : Nat) :
    (s.faultCleared n b).rail k = if k = n then { s.rail k with fault := (s.rail k).fault && !b } else s.rail k := by
  cases b
  · simp [State.faultCleared]
  · simp [State.faultCleared, State.rail_modRail s _ h]

/-- RCTL's bit 0, which acts on the state that bit 2 leaves. -/
def State.enableWritten (s : State) (n : Fin 11) (on : Bool) : State :=
  if on then (if (s.rail n).enable then s else after s (execRailEnable n (s.rail n).set s))
  else if !(s.rail n).enable ∨ n.val = 0 then s
  else if n.val = 10 then s.modRail n fun r => { r with enable := false, good := false, volts := 0, amps := 0 }
  else s.powerDown

theorem State.railCtl_eq (s : State) (n : Fin 11) (x : Nat) :
    s.railCtl n x = (s.faultCleared n (x.testBit 2)).enableWritten n (x.testBit 0) := rfl

theorem State.enableWritten_same {s : State} {n : Fin 11} {on : Bool} (h : on = (s.rail n).enable) : s.enableWritten n on = s := by
  subst h
  cases h : (s.rail n).enable <;> simp [State.enableWritten, h]

/-- A write of RCTL whose enable bit is as it stands clears the fault, if it says so, and does nothing else. -/
theorem State.railCtl_same {s : State} {n : Fin 11} {x : Nat} (len : n.val < s.mgmt.rails.length) (h : x.testBit 0 = (s.rail n).enable) :
    s.railCtl n x = s.faultCleared n (x.testBit 2) :=
  s.railCtl_eq n x ▸ State.enableWritten_same (by simp [State.rail_faultCleared s _ len, h])

/-- RAIL_ENABLE always goes on. -/
theorem execRailEnable_next (n : Fin 11) (x : W64) (s : State) : ∃ t, execRailEnable n x s = .next t := by
  unfold execRailEnable
  exact (ite_eq_or_eq _ _ _).elim (⟨_, ·⟩) (⟨_, ·⟩)

/-- A 1 for a rail that is not enabled is RAIL_ENABLE with the setting in RSET. -/
theorem State.railCtl_one {s : State} {n : Fin 11} (h : (s.rail n).enable = false) :
    .next (s.railCtl n 1) = execRailEnable n (s.rail n).set s := by
  have on : s.railCtl n 1 = if (s.rail n).enable then s else after s (execRailEnable n (s.rail n).set s) := rfl
  obtain ⟨t, ht⟩ := execRailEnable_next n (s.rail n).set s
  simp [on, h, ht, after]

theorem State.railCtl_zero {s : State} {n : Fin 11} (h : (s.rail n).enable = true) (h0 : n.val ≠ 0) :
    s.railCtl n 0 = if n.val = 10 then s.modRail n fun r => { r with enable := false, good := false, volts := 0, amps := 0 } else s.powerDown := by
  have off : s.railCtl n 0 = s.enableWritten n false := rfl
  simp [off, State.enableWritten, h, h0]

/-- A 0 for an enabled rail disables the guest's alone, and any other but STBY with all the rest (log 56). -/
theorem State.railCtl_zero_spec {s : State} {n : Fin 11} (len : s.mgmt.rails.length = 11) (h : (s.rail n).enable = true) (h0 : n.val ≠ 0) :
    ((s.railCtl n 0).rail n).enable = false ∧
      (n.val = 10 → (s.railCtl n 0).mem = s.mem ∧ (s.railCtl n 0).teams = s.teams ∧ ∀ k, k ≠ 10 → (s.railCtl n 0).rail k = s.rail k) ∧
      (n.val ≠ 10 → (s.railCtl n 0).mgmt.off = true ∧ ∀ k < 11, k ≠ 0 → ((s.railCtl n 0).rail k).enable = false) := by
  have hn : n.val < s.mgmt.rails.length := by omega
  rw [State.railCtl_zero h h0]
  split_ifs with guest
  · exact ⟨by simp [s.rail_modRail _ hn], fun _ => ⟨rfl, rfl, fun k hk => (s.rail_modRail _ hn k).trans (if_neg (guest.symm ▸ hk))⟩,
      fun other => absurd guest other⟩
  · exact ⟨s.rail_powerDown_enable hn h0, fun g => absurd g guest, fun _ => ⟨rfl, fun k hk hk0 => s.rail_powerDown_enable (by omega) hk0⟩⟩

/-! ## Genmon's registers -/

theorem leNat_leBytes (n x : Nat) : leNat (leBytes n x) = x % 256 ^ n := by
  induction n generalizing x with
  | zero => simp [leBytes, leNat, Nat.mod_one]
  | succ n ih => rw [leBytes, leNat, ih, BitVec.toNat_ofNat, pow_succ' 256, Nat.mod_mul]

@[simp] theorem leBytes_length (n x : Nat) : (leBytes n x).length = n := by
  induction n generalizing x with
  | zero => rfl
  | succ n ih => simp [leBytes, ih]

/-- The bytes written are read back. -/
theorem Store.setBytes_inside (st : Store) (a : Nat) (bs : List Byte) {j : Nat} (h : j < bs.length) :
    (st.setBytes a bs).byte (a + j) = bs[j] := by
  induction bs using List.reverseRecOn with
  | nil => simp at h
  | append_singleton bs b ih =>
    have last : (st.setBytes a (bs ++ [b])).cells = (st.setBytes a bs).cells.set 0 (a + bs.length) b := by
      simp [Store.setBytes, List.zipIdx_append]
    rw [List.length_append, List.length_singleton] at h
    rw [Store.byte, last]
    obtain hj | rfl : j < bs.length ∨ j = bs.length := by omega
    · rw [Tab.get_set_other 0 _ b (by omega), List.getElem_append_left hj]
      exact ih hj
    · simp

/-- GMBUF as a store, so that the laws of memory hold of it. -/
def Mgmt.bufStore (m : Mgmt) : Store := { Store.empty with cells := m.buf }

/-- A write that lies in GMBUF writes all its bytes. -/
theorem Mgmt.putBuf_store (m : Mgmt) {off : Nat} {bs : List Byte} (h : off + bs.length ≤ 4096) :
    (m.putBuf off bs).bufStore = m.bufStore.setBytes off bs := by
  refine congrArg (fun c => { Store.empty with cells := c }) (List.foldl_ext _ _ _ fun t x hx => if_pos ?_)
  have := List.snd_lt_of_mem_zipIdx hx
  omega

theorem State.bufNat_putBuf (s : State) {off n x : Nat} (h : off + n ≤ 4096) :
    (s.modMgmt fun m => m.putBuf off (leBytes n x)).bufNat off n = x % 256 ^ n := by
  have read : (s.modMgmt fun m => m.putBuf off (leBytes n x)).bufBytes off n = leBytes n x := by
    refine List.ext_getElem (by simp [State.bufBytes]) fun j _ hj => ?_
    have := Store.setBytes_inside s.mgmt.bufStore off _ hj
    rw [← Mgmt.putBuf_store _ (by simpa using h)] at this
    simpa [State.bufBytes, Store.byte, Mgmt.bufStore] using this
  rw [State.bufNat, read, leNat_leBytes]

theorem Mgmt.buf_putBuf_outside (m : Mgmt) {off a : Nat} {bs : List Byte} (h : off + bs.length ≤ 4096) (ha : a < off ∨ off + bs.length ≤ a) :
    (m.putBuf off bs).buf.get 0 a = m.buf.get 0 a := by
  have := Store.setBytes_outside m.bufStore off bs ha
  rwa [← Mgmt.putBuf_store _ h] at this

/-- A code that names no command ends at once with BADARG (log 45). -/
theorem State.gmcmd_unknown {s : State} {code : Nat} (h : code = 0 ∨ 9 < code) (off : s.mgmt.off = false) (busy : s.mgmt.busy = false) :
    s.gmcmd code = (s.startCmd code).endCmd 2 [] := by
  simp [State.gmcmd, off, busy, h]

/-! ## Contexts -/

/-- The contexts after a write of c: with it if the value is 1, without it if not. -/
def ctxsWritten (cs : List Ctx) (c : Ctx) (n : Nat) : List Ctx :=
  let rest := cs.filter (·.asid != c.asid)
  if n = 1 then rest ++ [c] else rest

theorem find?_ctxsWritten (cs : List Ctx) (c : Ctx) (n k : Nat) :
    (ctxsWritten cs c n).find? (·.asid == k) = if k = c.asid then (if n = 1 then some c else none) else cs.find? (·.asid == k) := by
  unfold ctxsWritten
  split_ifs with h hk hk
  · exact (find?_replaced Ctx.asid cs rfl k).trans (if_pos hk)
  · exact (find?_replaced Ctx.asid cs rfl k).trans (if_neg hk)
  · exact (find?_without Ctx.asid cs _ k).trans (if_pos hk)
  · exact (find?_without Ctx.asid cs _ k).trans (if_neg hk)

theorem State.ctx?_setCtxs (s : State) (cs : List Ctx) (k : Nat) : (s.setCtxs cs).ctx? k = cs.find? (·.asid == k) := rfl

/-- A feed queue's own registers stay as they are when its ASID changes. -/
theorem State.queueAsid_rest (s : State) (q : FeedQ) : { s.queueAsid q with asid := 0 } = { q with asid := 0 } := by
  unfold State.queueAsid
  split <;> rfl

theorem State.feedqs_setCtxs_rest (s : State) (cs : List Ctx) :
    (s.setCtxs cs).front.feedqs.map (fun q => { q with asid := 0 }) = s.front.feedqs.map fun q => { q with asid := 0 } :=
  List.map_map.trans (List.map_congr_left fun q _ => State.queueAsid_rest _ q)

/-! ## The statement -/

/-- R2, R341, R404, R432, R434, R305, R307, R173. -/
theorem otherRegistersTakeTheirValues : Claim.OtherRegistersTakeTheirValues := by
  intro s x
  refine ⟨rfl, ?fab, ?gq, ?misaligned, ?feedq, ?cfgBad, ?gctlBad, ?gctl, ?rctl, ?gmcmdBad, ?gmcmd, ?gmbuf, ?den, ?ctx⟩
  case fab =>
    rintro r f (⟨rfl, rfl⟩ | ⟨rfl, rfl⟩ | ⟨rfl, rfl⟩ | ⟨rfl, rfl⟩)
    · rfl
    · rfl
    · exact ite_next_fab s _ (by rw [not_or, not_le, not_not])
    · exact ite_next_fab s _ (by omega)
  case gq =>
    intro q hq len hx hbm
    have accepted : ¬ (x.toNat % 4096 ≠ 0 ∨ physKind x.toNat ≠ .hbm) := by simp [hx, hbm]
    exact ⟨⟨_, if_neg accepted, rfl, s.gq_modGq_same _ (by omega)⟩, _, if_neg accepted, rfl, s.gq_modGq_same _ (by omega)⟩
  case misaligned => exact fun q hx => ⟨if_pos (.inl hx), if_pos (.inl hx), if_pos (.inr hx)⟩
  case feedq =>
    rintro q r f hq (⟨rfl, hx, rfl⟩ | ⟨rfl, h1, h2, h3, h4, rfl⟩)
    · obtain ⟨now, old, new, rest⟩ := s.putFeedq_spec q 32 (f := fun y => { y with base := x.toNat }) fun _ => rfl
      exact ⟨_, _, if_neg (by omega), rfl, now, old, fun h => by rw [new h]; simp [FeedQ.blank], rest⟩
    · obtain ⟨now, old, new, rest⟩ := s.putFeedq_spec q (x.toNat / 2 ^ 8 % 32) (f := FeedQ.withCfg s x) fun _ => rfl
      rw [← s.setFqCfg_eq] at now rest
      exact ⟨_, _, if_neg (by simp only [bits_eq]; omega), rfl, now, old, fun h => by rw [new h]; simp [FeedQ.blank], rest⟩
  case cfgBad => exact fun q h => if_pos (by simp only [bits_eq]; omega)
  case gctlBad =>
    rintro (h | rfl)
    · exact if_pos h
    · rfl
  case gctl => rintro rfl; rfl
  case rctl =>
    intro k len
    have hk : k.val < s.mgmt.rails.length := by omega
    refine ⟨fun h => if_pos h, fun h same => ?_, fun h off => ?_, fun h on h0 => ?_⟩
    · refine ⟨_, if_neg (by omega), ?_⟩
      rw [State.railCtl_same hk same]
      refine ⟨s.faultCleared_eq k _, fun n hn => ?_, ?_⟩
      · simp [s.rail_faultCleared _ hk, hn]
      · rw [s.rail_faultCleared _ hk, if_pos rfl]
        rfl
    · obtain rfl : x = 1 := BitVec.eq_of_toNat_eq h
      exact State.railCtl_one off
    · obtain rfl : x = 0 := BitVec.eq_of_toNat_eq h
      exact ⟨_, rfl, State.railCtl_zero_spec len on h0⟩
  case gmcmdBad => exact fun h => if_pos h
  case gmcmd =>
    intro h off busy
    refine ⟨_, if_neg (by omega), ?_⟩
    rw [State.gmcmd_unknown (by omega) off busy]
    simp [State.startCmd, State.endCmd, busy, Mgmt.putBuf]
  case gmbuf =>
    intro off h8 h
    refine ⟨_, if_neg (by omega), rfl, ?_, fun a ha => ?_⟩
    · exact (s.bufNat_putBuf (by omega)).trans (Nat.mod_eq_of_lt x.isLt)
    · exact s.mgmt.buf_putBuf_outside (by simp; omega) (by simpa using ha)
  case den =>
    intro d hd hx closed
    have shut : (s.den? d).any (·.opened) = false := by
      cases h : s.den? d with
      | none => rfl
      | some y => exact closed y h
    have read := find?_replaced Den.num s.front.dens (x := Den.blank d x.toNat) (n := d) rfl
    refine ⟨_, if_neg (by simp [shut]; omega), (read d).trans (if_pos rfl), rfl, fun k hk => (read k).trans (if_neg hk)⟩
  case ctx =>
    intro asid root part key replay ha hp hk hr hbm hx
    refine ⟨s.setCtxs (ctxsWritten s.mem.ctxs ⟨asid, root, part, key, replay⟩ x.toNat), if_neg (by simp [hbm]; omega), rfl, ?_, fun q hq => ?_, ?_,
      fun k hk => ?_⟩
    · exact s.feedqs_setCtxs_rest _
    · exact List.mem_map_of_mem hq
    · rw [State.ctx?_setCtxs, find?_ctxsWritten, if_pos rfl]
      exact if_congr ⟨BitVec.eq_of_toNat_eq (y := 1), (· ▸ rfl)⟩ rfl rfl
    · rw [State.ctx?_setCtxs, find?_ctxsWritten, if_neg hk]
      rfl

/-- Settles O53: the registers of a partition by their table of rules, every other register by the equation of its write. -/
theorem registersTakeTheirLegalValues : Obligations.RegistersTakeTheirLegalValues :=
  ⟨partitionRegistersTakeTheirLegalValues, otherRegistersTakeTheirValues⟩

end Sys2Proof.Machine
end

section
/-! Instruction words: decoding undoes encoding, and the worked encodings of the spec. -/
namespace Sys2Proof

/-! ## The fields of a word (R36) -/

/-- The eleven fields that make a slot are read back from it. -/
theorem Raw.ofSlot_toSlot (r : Raw) : Raw.ofSlot r.toSlot = r := by
  have fields (x : BitVec (24 + 16 + 4 + 2 + 4 + 8 + 8 + 8 + 8 + 4 + 10)) : Raw.ofSlot x =
    ⟨x.extractLsb' 0 10, x.extractLsb' 10 4, x.extractLsb' 14 8, x.extractLsb' 22 8, x.extractLsb' 30 8, x.extractLsb' 38 8,
      x.extractLsb' 46 4, x.extractLsb' 50 2, x.extractLsb' 52 4, x.extractLsb' 56 16, x.extractLsb' 72 24⟩ := rfl
  unfold Raw.toSlot
  rw [fields]
  simp (disch := decide) only [BitVec.extractLsb'_append_eq_of_le, BitVec.extractLsb'_append_eq_of_add_le, BitVec.extractLsb'_eq_self, Nat.reduceSub]

theorem Ty.ofCode_code (t : Ty) : Ty.ofCode t.code = t := by cases t <;> rfl
theorem Ty.code_ofNat (t : Ty) : BitVec.ofNat 4 t.code.toNat = t.code := BitVec.ofNat_toNat ..

theorem Spec.ofByte_toByte (sp : Spec) : Spec.ofByte sp.toByte = some sp := by
  cases sp with
  | v n =>
    have : n.val % 256 = n.val := by omega
    simp [Spec.ofByte, Spec.toByte, this]
  | s n => revert n; decide
  | c n => revert n; decide
  | l n => revert n; decide
  | zero => rfl
  | imm => rfl
  | sp r => cases r <;> decide
  | k n => revert n; decide

theorem flagOf_flagBits (f : Option (Fin 12)) : flagOf (flagBits f) = f := by
  cases f with
  | none => rfl
  | some n => revert n; decide

theorem Hold.ofCode_codeNat (h : Hold) : Hold.ofCode (BitVec.ofNat 2 h.codeNat).toNat = h := by cases h <;> rfl

/-- The sign and the number of the predicate, packed into PR. -/
theorem predicate_bits (neg : Bool) (pk : Fin 8) :
    (BitVec.ofNat 4 (8 * neg.toNat + pk.val)).getLsbD 3 = neg ∧ Fin.ofNat 8 ((BitVec.ofNat 4 (8 * neg.toNat + pk.val)).toNat % 8) = pk := by
  revert neg pk; decide

/-- The operands of an instruction are read back from the fields they are written to. -/
theorem Opnds.raw_opnds (o : Opnds) (op : BitVec 10) (mod : BitVec 16) : (o.raw op mod).opnds = o := by
  obtain ⟨hn, hp⟩ := predicate_bits o.neg o.pk
  simp only [Raw.opnds, Opnds.raw, Ty.ofCode_code, Spec.ofByte_toByte, Option.getD_some, hn, hp, Hold.ofCode_codeNat, flagOf_flagBits]
theorem Opnds.raw_op (o : Opnds) (op : BitVec 10) (mod : BitVec 16) : (o.raw op mod).op = op := rfl
theorem Opnds.raw_imm (o : Opnds) (op : BitVec 10) (mod : BitVec 16) : (o.raw op mod).imm = o.imm := rfl
theorem Opnds.raw_mod (o : Opnds) (op : BitVec 10) (mod : BitVec 16) : (o.raw op mod).mod = mod := rfl

/-! ## The fields of MOD (R48, R49) -/

theorem modField_ofNat (x lo n : Nat) : modField (BitVec.ofNat 16 x) lo n = x % 2 ^ 16 / 2 ^ lo % 2 ^ n := by
  simp [modField, Nat.shiftRight_eq_div_pow]

theorem Fz.codeNat_spec (x : Fz) : x.codeNat < 4 ∧ Fz.ofCode x.codeNat = x := by cases x <;> decide
theorem Rnd.codeNat_spec (x : Rnd) : x.codeNat < 4 ∧ Rnd.ofCode x.codeNat = x := by cases x <;> decide
theorem Hint.codeNat_spec (x : Hint) : x.codeNat < 4 ∧ Hint.ofCode x.codeNat = x := by cases x <;> decide
theorem Vec.codeNat_spec (x : Vec) : x.codeNat < 4 ∧ Vec.ofCode x.codeNat = x := by cases x <;> decide
theorem Scope.codeNat_spec (x : Scope) : x.codeNat < 4 ∧ Scope.ofCode x.codeNat = x := by cases x <;> decide
theorem scopeOptNat_spec (x : Option Scope) : scopeOptNat x < 8 ∧ scopeOpt (scopeOptNat x) = x := by
  obtain _ | x := x
  · decide
  · cases x <;> decide
theorem CopySize.codeNat_spec (x : CopySize) : x.codeNat < 4 ∧ CopySize.ofCode x.codeNat = x := by cases x <;> decide
theorem Ofmt.codeNat_spec (x : Ofmt) : x.codeNat < 4 ∧ Ofmt.ofCode x.codeNat = x := by cases x <;> decide
theorem FenceKind.codeNat_spec (x : FenceKind) : x.codeNat < 4 ∧ FenceKind.ofCode x.codeNat = x := by cases x <;> decide
theorem Bool.toNat_beq_one (b : Bool) : (b.toNat == 1) = b := by cases b <;> rfl

theorem ArithMods.ofMod_toMod (m : ArithMods) : ArithMods.ofMod m.toMod = m := by
  obtain ⟨rnd, sat, fz, cond, ty2⟩ := m
  obtain ⟨hr, er⟩ := rnd.codeNat_spec
  obtain ⟨hf, ef⟩ := fz.codeNat_spec
  have hs := sat.toNat_lt
  have ht := ty2.code.isLt
  simp only [ArithMods.ofMod, ArithMods.toMod, modField_ofNat, ArithMods.mk.injEq]
  refine ⟨?_, ?_, ?_, ?_, ?_⟩
  · rw [show _ % _ = rnd.codeNat by omega, er]
  · rw [show _ % _ = sat.toNat by omega, Bool.toNat_beq_one]
  · rw [show _ % _ = fz.codeNat by omega, ef]
  · rw [show _ % _ = cond.val by omega, Fin.ofNat_eq_cast, Fin.cast_val_eq_self]
  · rw [show _ % _ = ty2.code.toNat by omega, Ty.code_ofNat, Ty.ofCode_code]

theorem MemMods.ofMod_toMod (m : MemMods) : MemMods.ofMod m.toMod = m := by
  obtain ⟨hint, vec⟩ := m
  obtain ⟨hh, eh⟩ := hint.codeNat_spec
  obtain ⟨hv, ev⟩ := vec.codeNat_spec
  simp only [MemMods.ofMod, MemMods.toMod, modField_ofNat, MemMods.mk.injEq]
  refine ⟨?_, ?_⟩
  · rw [show _ % _ = hint.codeNat by omega, eh]
  · rw [show _ % _ = vec.codeNat by omega, ev]

theorem AtomMods.ofMod_toMod (m : AtomMods) : AtomMods.ofMod m.toMod = m := by
  obtain ⟨scope, ret⟩ := m
  obtain ⟨hs, es⟩ := scope.codeNat_spec
  have hr := ret.toNat_lt
  simp only [AtomMods.ofMod, AtomMods.toMod, modField_ofNat, AtomMods.mk.injEq]
  refine ⟨?_, ?_⟩
  · rw [show _ % _ = scope.codeNat by omega, es]
  · rw [show _ % _ = ret.toNat by omega, Bool.toNat_beq_one]

theorem CopyMods.ofMod_toMod (m : CopyMods) : CopyMods.ofMod m.toMod = m := by
  obtain ⟨acq, rel, prom, size⟩ := m
  obtain ⟨ha, ea⟩ := scopeOptNat_spec acq
  obtain ⟨hr, er⟩ := scopeOptNat_spec rel
  obtain ⟨hs, es⟩ := size.codeNat_spec
  have hp := prom.toNat_lt
  simp only [CopyMods.ofMod, CopyMods.toMod, modField_ofNat, CopyMods.mk.injEq]
  refine ⟨?_, ?_, ?_, ?_⟩
  · rw [show _ % _ = scopeOptNat acq by omega, ea]
  · rw [show _ % _ = scopeOptNat rel by omega, er]
  · rw [show _ % _ = prom.toNat by omega, Bool.toNat_beq_one]
  · rw [show _ % _ = size.codeNat by omega, es]

theorem MatMods.ofMod_toMod (m : MatMods) : MatMods.ofMod m.toMod = m := by
  obtain ⟨acq, rel, shb, acc, ofmt, sat⟩ := m
  obtain ⟨ha, ea⟩ := scopeOptNat_spec acq
  obtain ⟨hr, er⟩ := scopeOptNat_spec rel
  obtain ⟨ho, eo⟩ := ofmt.codeNat_spec
  have hb := shb.toNat_lt
  have hs := sat.toNat_lt
  simp only [MatMods.ofMod, MatMods.toMod, modField_ofNat, MatMods.mk.injEq]
  refine ⟨?_, ?_, ?_, ?_, ?_, ?_⟩
  · rw [show _ % _ = scopeOptNat acq by omega, ea]
  · rw [show _ % _ = scopeOptNat rel by omega, er]
  · rw [show _ % _ = shb.toNat by omega, Bool.toNat_beq_one]
  · rw [show _ % _ = acc.val by omega, Fin.ofNat_eq_cast, Fin.cast_val_eq_self]
  · rw [show _ % _ = ofmt.codeNat by omega, eo]
  · rw [show _ % _ = sat.toNat by omega, Bool.toNat_beq_one]

theorem FabMods.ofMod_toMod (m : FabMods) : FabMods.ofMod m.toMod = m := by
  obtain ⟨acq, pod, direct, tc⟩ := m
  obtain ⟨ha, ea⟩ := scopeOptNat_spec acq
  have hd := direct.toNat_lt
  have hp : (if pod then 4 else 0) = 4 * pod.toNat := by cases pod <;> rfl
  have hb := pod.toNat_lt
  simp only [FabMods.ofMod, FabMods.toMod, modField_ofNat, FabMods.mk.injEq, hp]
  refine ⟨?_, ?_, ?_, ?_⟩
  · rw [show _ % _ = scopeOptNat acq by omega, ea]
  · rw [show _ % _ = 4 * pod.toNat by omega]
    cases pod <;> rfl
  · rw [show _ % _ = direct.toNat by omega, Bool.toNat_beq_one]
  · rw [show _ % _ = tc.val by omega, Fin.ofNat_eq_cast, Fin.cast_val_eq_self]

/-- A field of MOD that holds the only bits set. -/
theorem modField_shifted {x lo n : Nat} (h : 2 ^ lo * x < 2 ^ 16) (hx : x < 2 ^ n) : modField (BitVec.ofNat 16 (2 ^ lo * x)) lo n = x := by
  rw [modField_ofNat, Nat.mod_eq_of_lt h, Nat.mul_div_cancel_left _ (Nat.two_pow_pos lo), Nat.mod_eq_of_lt hx]

theorem modField_bid (b : Fin 16) : modField (BitVec.ofNat 16 (16 * b.val)) 4 4 = b.val := modField_shifted (lo := 4) (by omega) b.isLt
theorem modField_nblk (n : Fin 4) : modField (BitVec.ofNat 16 (16 * n.val)) 4 2 = n.val := modField_shifted (lo := 4) (by omega) n.isLt

/-! ## The common format -/

set_option maxRecDepth 10000 in
/-- An instruction is built back from its own fields. FATOM, FWAIT and FQRY have their variant in IMM (R360). -/
theorem build_instrRaw {i : Instr} {r : Raw} (hv : WellFormed.variant i = true) (h : instrRaw i = some r) : build r = some i := by
  cases i <;> cases h
  all_goals
    conv => lhs; whnf
    simp only [Opnds.raw_opnds, Opnds.raw_mod, ArithMods.ofMod_toMod, MemMods.ofMod_toMod, AtomMods.ofMod_toMod,
      CopyMods.ofMod_toMod, MatMods.ofMod_toMod, FabMods.ofMod_toMod, modField_bid, modField_nblk, Fin.ofNat_eq_cast, Fin.cast_val_eq_self]
  case brc m | meet m | vote m | shuf m | push m | rank m | sleep m | movi m | rdl m | kset m | srd m | gsub m | resume m => cases m <;> rfl
  case cwait m | ctest m | cprom m | cstat m | region m | qpop m | cntw m | cancel m => cases m <;> simp [modField, lvNat]
  case fence scope kind => cases scope <;> cases kind <;> simp [modField, Scope.codeNat, FenceKind.codeNat, Scope.ofCode, FenceKind.ofCode]
  case waita w =>
    obtain ⟨o, pod⟩ := w
    cases pod <;> rfl
  case fatom x | fwait x | fqry x =>
    have hx := of_decide_eq_true hv
    rw [Opnds.raw_imm, hx]
    cases x <;> rfl

/-! ## The framing words (R25, R32) -/

theorem toNat_extract_ofNat {x : Nat} (h : x < 2 ^ 96) (lo n : Nat) : ((BitVec.ofNat 96 x).extractLsb' lo n).toNat = x / 2 ^ lo % 2 ^ n := by
  rw [BitVec.extractLsb'_toNat, BitVec.toNat_ofNat, Nat.mod_eq_of_lt h, Nat.shiftRight_eq_div_pow]

theorem getLsbD_ofNat {x k : Nat} (h : x < 2 ^ 96) : (BitVec.ofNat 96 x).getLsbD k = (x / 2 ^ k % 2 == 1) := by
  rw [BitVec.getLsbD, BitVec.toNat_ofNat, Nat.mod_eq_of_lt h, Nat.testBit_eq_decide_div_mod_eq]
  rfl

theorem flagBits_legal (f : Option (Fin 12)) : flagFieldOk (flagBits f).toNat = true := by
  cases f with
  | none => rfl
  | some n => revert n; decide

theorem decode_encodeHeader {h : Header} (hw : WellFormed.header h = true) : decode (encodeHeader h) = .ok (.clauseHeader h) := by
  obtain ⟨h1, h24⟩ : 1 ≤ h.len.val ∧ h.len.val ≤ 24 := of_decide_eq_true hw
  have hl := h.len.isLt
  have ha := (flagBits h.seta).isLt
  have hb := (flagBits h.setb).isLt
  have hwt := h.wait.isLt
  have hr := h.rgp.toNat_lt
  have hy := h.yld.toNat_lt
  unfold encodeHeader
  generalize hx : _ + 2 ^ 36 * h.yld.toNat = x
  have small : x < 2 ^ 37 := by omega
  have fits : x < 2 ^ 96 := by omega
  have op : (Raw.ofSlot (BitVec.ofNat 96 x)).op = headerOp := BitVec.eq_of_toNat_eq ((toNat_extract_ofNat fits 0 10).trans (by
    show _ = 0x3E0
    omega))
  have wait : (BitVec.ofNat 96 x).extractLsb' 15 12 = h.wait := BitVec.eq_of_toNat_eq ((toNat_extract_ofNat fits 15 12).trans (by omega))
  have seta : (BitVec.ofNat 96 x).extractLsb' 27 4 = flagBits h.seta := BitVec.eq_of_toNat_eq ((toNat_extract_ofNat fits 27 4).trans (by omega))
  have setb : (BitVec.ofNat 96 x).extractLsb' 31 4 = flagBits h.setb := BitVec.eq_of_toNat_eq ((toNat_extract_ofNat fits 31 4).trans (by omega))
  have rest : (BitVec.ofNat 96 x).extractLsb' 37 59 = 0 := BitVec.eq_of_toNat_eq ((toNat_extract_ofNat fits 37 59).trans (by
    show _ = 0
    omega))
  have len : ((BitVec.ofNat 96 x).extractLsb' 10 5).toNat = h.len.val := (toNat_extract_ofNat fits 10 5).trans (by omega)
  have rgp : (BitVec.ofNat 96 x).getLsbD 35 = h.rgp := by
    rw [getLsbD_ofNat fits, show _ % 2 = h.rgp.toNat by omega, Bool.toNat_beq_one]
  have yld : (BitVec.ofNat 96 x).getLsbD 36 = h.yld := by
    rw [getLsbD_ofNat fits, show _ % 2 = h.yld.toNat by omega, Bool.toNat_beq_one]
  have good : ¬ ((0 : BitVec 59) ≠ 0 ∨ h.len.val = 0 ∨ 24 < h.len.val ∨ (!flagFieldOk (flagBits h.seta).toNat) = true ∨ (!flagFieldOk (flagBits h.setb).toNat) = true) := by
    simp only [flagBits_legal]
    simp
    omega
  unfold decode
  rw [if_pos op]
  simp only [decodeHeader, wait, seta, setb, rest, len, rgp, yld, if_neg good, flagOf_flagBits, Fin.ofNat_eq_cast, Fin.cast_val_eq_self]

/-- A digit of a number in base b, 0 above the highest. -/
theorem ofDigits_digit {b : Nat} (hb : 0 < b) {l : List Nat} (h : ∀ d ∈ l, d < b) (e : Nat) : Nat.ofDigits b l / b ^ e % b = l.getD e 0 := by
  induction l generalizing e with
  | nil => simp
  | cons d r ih =>
    have hd := h d List.mem_cons_self
    rw [Nat.ofDigits_cons]
    cases e with
    | zero => simp [Nat.mod_eq_of_lt hd]
    | succ e =>
      rw [pow_succ', ← Nat.div_div_eq_div_mul, Nat.add_mul_div_left _ _ hb, Nat.div_eq_of_lt hd, Nat.zero_add]
      exact ih (fun x hx => h x (List.mem_cons_of_mem d hx)) e

/-- The entries' registers, BIND bits and WIDE bits, as numbers (R32). -/
def entryRegsNat (es : List ClendEntry) : Nat := Nat.ofDigits (2 ^ 8) (es.map (·.reg.toByte.toNat))
def entryBindsNat (es : List ClendEntry) : Nat := Nat.ofDigits 2 (es.map (·.bind.toNat))
def entryWidesNat (es : List ClendEntry) : Nat := Nat.ofDigits 2 (es.map (·.wide.toNat))

theorem clendBits_eq (es : List ClendEntry) (e : Nat) :
    clendBits e es = 2 ^ (13 + 8 * e) * entryRegsNat es + 2 ^ (61 + e) * entryBindsNat es + 2 ^ (67 + e) * entryWidesNat es := by
  induction es generalizing e with
  | nil => rfl
  | cons x r ih =>
    simp only [clendBits, ih, entryRegsNat, entryBindsNat, entryWidesNat, List.map_cons, Nat.ofDigits_cons]
    ring

theorem clendFields_lt {es : List ClendEntry} (h : es.length ≤ 6) : entryRegsNat es < 2 ^ 48 ∧ entryBindsNat es < 2 ^ 6 ∧ entryWidesNat es < 2 ^ 6 := by
  refine ⟨?_, ?_, ?_⟩
  · refine (Nat.ofDigits_lt_base_pow_length (by decide) ?_).trans_le ?_
    · simp only [List.mem_map]
      rintro _ ⟨x, _, rfl⟩
      exact x.reg.toByte.isLt
    · rw [List.length_map, ← pow_mul]
      exact Nat.pow_le_pow_right (by decide) (by omega)
  · refine (Nat.ofDigits_lt_base_pow_length (by decide) ?_).trans_le (Nat.pow_le_pow_right (by decide) (by simpa using h))
    simp only [List.mem_map]
    rintro _ ⟨x, _, rfl⟩
    exact x.bind.toNat_lt
  · refine (Nat.ofDigits_lt_base_pow_length (by decide) ?_).trans_le (Nat.pow_le_pow_right (by decide) (by simpa using h))
    simp only [List.mem_map]
    rintro _ ⟨x, _, rfl⟩
    exact x.wide.toNat_lt

/-- The word of a CLEND of at most six entries, field by field. -/
structure ClendFields (w : Slot) (es : List ClendEntry) : Prop where
  op : (Raw.ofSlot w).op = clendOp
  cnt : (w.extractLsb' 10 3).toNat = es.length
  rest : w.extractLsb' 73 23 = 0
  reg (e : Nat) : e < 6 → w.extractLsb' (13 + 8 * e) 8 = BitVec.ofNat 8 ((es.map (·.reg.toByte.toNat)).getD e 0)
  bind (e : Nat) : e < 6 → w.getLsbD (61 + e) = ((es.map (·.bind.toNat)).getD e 0 == 1)
  wide (e : Nat) : e < 6 → w.getLsbD (67 + e) = ((es.map (·.wide.toNat)).getD e 0 == 1)

theorem encodeClend_fields {es : List ClendEntry} (h : es.length ≤ 6) : ClendFields (encodeClend es) es := by
  obtain ⟨hr, hb, hw⟩ := clendFields_lt h
  have digit (e : Nat) : entryRegsNat es / (2 ^ 8) ^ e % 2 ^ 8 = (es.map (·.reg.toByte.toNat)).getD e 0 :=
    ofDigits_digit (by decide) (by simp only [List.mem_map]; rintro _ ⟨x, _, rfl⟩; exact x.reg.toByte.isLt) e
  have bindBit (e : Nat) : entryBindsNat es / 2 ^ e % 2 = (es.map (·.bind.toNat)).getD e 0 :=
    ofDigits_digit (by decide) (by simp only [List.mem_map]; rintro _ ⟨x, _, rfl⟩; exact x.bind.toNat_lt) e
  have wideBit (e : Nat) : entryWidesNat es / 2 ^ e % 2 = (es.map (·.wide.toNat)).getD e 0 :=
    ofDigits_digit (by decide) (by simp only [List.mem_map]; rintro _ ⟨x, _, rfl⟩; exact x.wide.toNat_lt) e
  unfold encodeClend
  rw [clendBits_eq]
  generalize entryRegsNat es = regs, entryBindsNat es = binds, entryWidesNat es = wides at *
  generalize hx : 0x3E1 + 2 ^ 10 * es.length + _ = x
  have fits : x < 2 ^ 96 := by omega
  refine ⟨?_, ?_, ?_, fun e he => ?_, fun e he => ?_, fun e he => ?_⟩
  · refine BitVec.eq_of_toNat_eq ((toNat_extract_ofNat fits 0 10).trans ?_)
    show _ = 0x3E1
    omega
  · exact (toNat_extract_ofNat fits 10 3).trans (by omega)
  · refine BitVec.eq_of_toNat_eq ((toNat_extract_ofNat fits 73 23).trans ?_)
    show _ = 0
    omega
  · refine BitVec.eq_of_toNat_eq ((toNat_extract_ofNat fits _ 8).trans ?_)
    rw [BitVec.toNat_ofNat, ← digit, Nat.mod_mod]
    interval_cases e <;> omega
  · rw [getLsbD_ofNat fits, ← bindBit]
    congr 1
    interval_cases e <;> omega
  · rw [getLsbD_ofNat fits, ← wideBit]
    congr 1
    interval_cases e <;> omega

theorem decode_encodeClend {es : List ClendEntry} (hw : WellFormed.entries es = true) : decode (encodeClend es) = .ok (.clend es) := by
  obtain ⟨hl, hok⟩ : es.length ≤ 6 ∧ es.all ClendEntry.ok = true := by simpa [WellFormed.entries] using hw
  obtain ⟨op, cnt, rest, reg, bind, wide⟩ := encodeClend_fields hl
  generalize encodeClend es = w at *
  have entries : (List.range es.length).map (clendEntry w) = es.map some := by
    refine List.ext_getElem (by simp) fun e h1 h2 => ?_
    have he : e < es.length := by simpa using h1
    simp only [List.getElem_map, List.getElem_range, clendEntry, reg e (by omega), bind e (by omega), wide e (by omega)]
    simp [he, Spec.ofByte_toByte]
  have unused : ((List.range 6).filter (es.length ≤ ·)).all (clendUnused w) = true := by
    refine List.all_eq_true.2 fun e he => ?_
    obtain ⟨h6, hge⟩ : e < 6 ∧ es.length ≤ e := by simpa using he
    simp [clendUnused, reg e h6, bind e h6, wide e h6, hge]
  have noHeader : ¬ (Raw.ofSlot w).op = headerOp := by rw [op]; decide
  unfold decode
  rw [if_neg noHeader, if_pos op]
  simp only [decodeClend, cnt, rest, unused, entries]
  rw [if_neg (by simp; omega), if_pos (by simpa using hok)]
  simp

/-! ## Every word -/

/-- No row stands at an OP of the classes that R50 leaves unallocated, which hold the framing words. -/
theorem rowOf_unallocated {r : Raw} (h : 14 ≤ r.op.toNat / 64) : rowOf r = none := by
  unfold rowOf
  split
  case h_15 => rfl
  all_goals omega

theorem op_lt_of_wordCheck {r : Raw} (h : wordCheck r = none) : r.op.toNat < 0x380 := by
  by_contra hge
  simp [wordCheck, rowOf_unallocated (r := r) (by omega)] at h

theorem decode_toSlot {r : Raw} {i : Instr} (hc : wordCheck r = none) (hb : build r = some i) : decode r.toSlot = .ok i := by
  have hop := op_lt_of_wordCheck hc
  have noHeader : r.op ≠ headerOp := fun h => by rw [h] at hop; revert hop; decide
  have noClend : r.op ≠ clendOp := fun h => by rw [h] at hop; revert hop; decide
  simp [decode, Raw.ofSlot_toSlot, noHeader, noClend, hc, hb]

/-- A word of the common format carries its instruction. -/
theorem decode_instrRaw {i : Instr} {r : Raw} (hr : instrRaw i = some r) (hw : WellFormed.word i = true) (hv : WellFormed.variant i = true) :
    decode r.toSlot = .ok i := by
  refine decode_toSlot ?_ (build_instrRaw hv hr)
  simpa [WellFormed.word, hr] using hw

/-- Settles O59: the framing words field by field, any other word through its row. -/
theorem decodingUndoesEncoding : Obligations.DecodingUndoesEncoding := by
  intro i w ok enc
  unfold encode at enc
  split at enc
  next h =>
    cases enc
    exact decode_encodeHeader ok
  next es =>
    cases enc
    exact decode_encodeClend ok
  next noHeader noClend =>
    obtain ⟨r, hr, rfl⟩ := Option.map_eq_some_iff.1 enc
    unfold WellFormed.ok at ok
    split at ok
    next => exact absurd rfl (noHeader _)
    next => exact absurd rfl (noClend _)
    next =>
      simp only [hr, Option.isNone_some, Bool.false_or, Bool.and_eq_true] at ok
      obtain ⟨⟨word, variant⟩, numbers⟩ := ok
      exact decode_instrRaw hr word variant

/-- Settles O60: the decoder run on each word. -/
theorem wordsOfTheSpecDecode : Obligations.WordsOfTheSpecDecode := by
  unfold Obligations.WordsOfTheSpecDecode
  decide

end Sys2Proof
end

section
/-! Terminal instructions (R29, R89 to R105), and what the instructions that only write registers change. -/
namespace Sys2Proof.Machine

/-! ## One change of a team after another -/

@[simp] theorem Tab.put_put {α : Type} (m : Tab α) (k : Nat) (a b : α) : (m.put k a).put k b = m.put k b := by
  induction m with
  | nil => simp [Tab.put]
  | cons x r ih =>
    obtain ⟨j, u⟩ := x
    simp only [Tab.put]
    split_ifs with h1 h2
    · simp [Tab.put]
    · simp [Tab.put]
    · simp [Tab.put, h1, h2, ih]

theorem State.modTeam_modTeam (s : State) (r : TeamRef) (f g : Team → Team) : (s.modTeam r f).modTeam r g = s.modTeam r fun t => g (f t) := by
  cases h : s.team? r with
  | none => simp [State.modTeam, h]
  | some t =>
    have h' : (s.modTeam r f).team? r = some (f t) := by simp [h]
    conv_lhs => rw [State.modTeam, h']
    simp [State.modTeam, h]

theorem State.modTeam_modGrp (s : State) (i : Issuer) (f : Team → Team) (g : Grp → Grp) :
    (s.modTeam i.team f).modGrp i g = s.modTeam i.team fun t => (f t).modGrp i.recno g := s.modTeam_modTeam i.team f _

/-- No write, and then a capture. -/
theorem View.capture_applyWrites_nil (v : View) (s : State) (T : Terminal) : v.capture (s.applyWrites v.iss []) T = v.capture s T :=
  s.modTeam_modGrp v.iss _ _

/-! ## An instruction that issues -/

theorem State.view?_spec {s : State} {v : View} (h : s.view? = some v) :
    v.s = s ∧ s.sched.cur = some v.iss ∧ s.team? v.iss.team = some v.team ∧ v.team.grp? v.iss.recno = some v.grp ∧ v.grp.clause = some v.cl := by
  obtain ⟨i, hc, hv⟩ := Option.bind_eq_some_iff.mp h
  obtain ⟨hs, rfl, ht, hg, hcl⟩ := View.of_spec hv
  exact ⟨hs, hc, ht, hg, hcl⟩

/-- The instruction's own entry decides what an instruction that issues does. -/
theorem exec_of_issues {s : State} {v : View} {i : Instr} {o : Opnds} {body : View → Issued} (h : Claim.Issues s v i o)
    (he : exec i s = issue i o s body) : exec i s = .next (v.finish i o (body v)) := by
  obtain ⟨hv, hb, hf, hl⟩ := h
  rw [he, issue_next i o body hv, View.run_body body hb hf hl]

theorem issues_state {s : State} {v : View} {i : Instr} {o : Opnds} (h : Claim.Issues s v i o) : v.s = s := (State.view?_spec h.1).1

/-- Writes and a capture are the whole effect of an instruction whose entry is these. -/
theorem exec_captures {s : State} {v : View} {i : Instr} {o : Opnds} {body : View → Issued} {ws : List RegWrite} {T : Terminal}
    (h : Claim.Issues s v i o) (he : exec i s = issue i o s body) (hb : body v = .done (v.capture (v.s.applyWrites v.iss ws) T)) :
    ∃ t, exec i s = .next t ∧ Claim.AfterTerm s t v i o ws (some T) := by
  refine ⟨_, (exec_of_issues h he).trans (by rw [hb, issues_state h]), ?_⟩
  exact retire_capture_after h.1 i o ws T

theorem exec_captures_only {s : State} {v : View} {i : Instr} {o : Opnds} {body : View → Issued} {T : Terminal}
    (h : Claim.Issues s v i o) (he : exec i s = issue i o s body) (hb : body v = .done (v.capture v.s T)) :
    ∃ t, exec i s = .next t ∧ Claim.AfterTerm s t v i o [] (some T) :=
  exec_captures h he (by rw [hb, View.capture_applyWrites_nil])

/-! ## Transfers -/

theorem View.badLanding_none {v : View} {ts : List (Nat × Nat)} {each : Bool}
    (h : ∀ x ∈ ts.map (·.2), v.s.landing v.iss.team.core v.team.asid x = none) : v.badLanding ts each = none := by
  refine List.findSome?_eq_none_iff.2 fun x hx => ?_
  rw [h x.2 (List.mem_map_of_mem hx)]
  rfl

theorem View.transfer_done {v : View} {s : State} {ts : List (Nat × Nat)} {each : Bool}
    (h : ∀ x ∈ ts.map (·.2), v.s.landing v.iss.team.core v.team.asid x = none) : v.transfer s ts each = .done (v.capture s (.go ts)) := by
  unfold View.transfer
  rw [View.badLanding_none h]

theorem View.eachTo_eq (v : View) (o : Opnds) : v.eachTo o = (v.active o).map fun th => (th.tid, Claim.operand v o .u64 o.sa (some th)) := by
  simp only [View.eachTo, View.read_eq_operand]

theorem View.indirect_eq (v : View) (o : Opnds) :
    v.indirect o = v.transfer v.s ((v.active o).map fun th => (th.tid, Claim.operand v o .u64 o.sa (some th))) true := by
  rw [View.indirect, View.eachTo_eq]

theorem View.scalar_eq (v : View) (o : Opnds) (ty : Ty) (sp : Spec) : v.scalar o ty sp = Claim.scalar v o ty sp := v.read_eq_operand o ty sp none

theorem View.brcTakes_eq (v : View) (o : Opnds) (m : BrcMode) : v.brcTakes o m = (Claim.brcCount v o m, Claim.brcTakes v o m) := by
  unfold View.brcTakes
  rw [View.scalar_eq]
  cases m <;> rfl

theorem View.regrpKeys_eq (v : View) (o : Opnds) : v.regrpKeys o =
    if v.any o then v.present.map fun th => (th.tid, if th.active o then Claim.operand v o .u32 o.sa (some th) else 0) else [] := by
  simp only [View.regrpKeys, View.read_eq_operand]

theorem View.once_of_any {v : View} {o : Opnds} (h : v.any o = true) (k : Issued) : v.once o k = k := by simp [View.once, h]

/-- Settles O13: each entry is writes, a check of its targets and a capture. -/
theorem terminalInstructionsAreCapturedForClend : Obligations.TerminalInstructionsAreCapturedForClend := by
  intro s v i o ws T targets ht h legal
  rw [← issues_state h] at legal
  cases i
  case bra o => 
    cases ht
    exact exec_captures_only h rfl (View.transfer_done legal)
  case bri o | ret o =>
    cases ht
    exact exec_captures_only h rfl ((v.indirect_eq o).trans (View.transfer_done legal))
  case brc o m =>
    obtain ⟨taken, he⟩ := Option.ite_none_right_eq_some.1 ht
    cases he
    obtain ⟨any, takes⟩ := Bool.and_eq_true_iff.1 taken
    have body (t : State) : v.transfer t (v.allTo o (target v.pc o.imm)) false = .done (v.capture t (.go (v.allTo o (target v.pc o.imm)))) :=
      View.transfer_done legal
    cases m with
    | dec => exact exec_captures h rfl (by simp only [View.once_of_any any, View.brcTakes_eq, takes, if_true, body]; rfl)
    | nz | z => exact exec_captures_only h rfl (by simp only [View.once_of_any any, View.brcTakes_eq, takes, if_true, body]; rfl)
  case call o =>
    cases ht
    exact exec_captures h rfl (View.transfer_done legal)
  case exit o | barw o b | yield o | cwait o p | cprom o p =>
    cases ht
    exact exec_captures_only h rfl rfl
  case regrp o =>
    cases ht
    exact exec_captures_only h rfl (by rw [View.regrpKeys_eq])
  case sleep o m =>
    cases m
    all_goals
      obtain ⟨any, he⟩ := Option.ite_none_right_eq_some.1 ht
      cases he
      exact exec_captures_only h rfl (by simp only [View.once_of_any any, View.scalar_eq])
  case rclaim o n =>
    obtain ⟨fits, he⟩ := Option.ite_none_right_eq_some.1 ht
    cases he
    obtain ⟨any, room⟩ := Bool.and_eq_true_iff.1 fits
    obtain ⟨hb, hx, hn⟩ := of_decide_eq_true room
    exact exec_captures_only h rfl (by
      simp only [View.once_of_any any]
      rw [if_neg (by omega), if_neg hn])
  all_goals cases ht

/-! ## Writes that stay within a field -/

/-- Writes to the registers that a field names, of some threads. -/
def WritesWithin (ths : List Thread) (pair : Bool) (d : Spec) (ws : List RegWrite) : Prop :=
  ∀ w ∈ ws, Claim.byThread ths w = true ∧ Claim.inField pair d w = true

theorem regWrite_inField {wide : Bool} {tid x : Nat} {d : Spec} {w : RegWrite} (h : w ∈ regWrite wide tid x d) : Claim.inField wide d w = true := by
  cases d with
  | v n | c n =>
    cases wide
    · obtain rfl : w = _ := by simpa [regWrite] using h
      simp [Claim.inField]
    · obtain rfl | rfl : w = _ ∨ w = _ := by simpa [regWrite] using h
      · simp [Claim.inField]
      · simp [Claim.inField]
  | s n | k n =>
    obtain rfl : w = _ := by simpa [regWrite] using h
    simp [Claim.inField]
  | l n | zero | imm | sp r => simp [regWrite] at h

theorem regWrite_byThread {wide : Bool} {x : Nat} {d : Spec} {w : RegWrite} {ths : List Thread} {th : Thread} (hth : th ∈ ths)
    (h : w ∈ regWrite wide th.tid x d) : Claim.byThread ths w = true := by
  have own : ths.any (·.tid == th.tid) = true := List.any_eq_true.2 ⟨th, hth, beq_self_eq_true _⟩
  have some : (!ths.isEmpty) = true := by cases ths <;> simp_all
  cases d with
  | v n | c n =>
    cases wide
    · obtain rfl : w = _ := by simpa [regWrite] using h
      exact own
    · obtain rfl | rfl : w = _ ∨ w = _ := by simpa [regWrite] using h
      · exact own
      · exact own
  | s n =>
    obtain rfl : w = _ := by simpa [regWrite] using h
    exact some
  | k n =>
    obtain rfl : w = _ := by simpa [regWrite] using h
    exact own
  | l n | zero | imm | sp r => simp [regWrite] at h

/-- Each thread of a list writes its own registers. -/
theorem writesWithin_flatMap (ths : List Thread) (wide : Bool) (d : Spec) (x : Thread → Nat) :
    WritesWithin ths wide d (ths.flatMap fun th => regWrite wide th.tid (x th) d) := by
  intro w hw
  obtain ⟨th, hth, hw⟩ := List.mem_flatMap.1 hw
  exact ⟨regWrite_byThread hth hw, regWrite_inField hw⟩

theorem View.dst_within (v : View) (o : Opnds) (wide : Bool) (f : Option Thread → Nat) : WritesWithin (v.active o) wide o.dst (v.dst o wide f) := by
  unfold View.dst
  split
  next n hd =>
    intro w hw
    split at hw
    next any =>
      rw [List.mem_singleton] at hw
      subst hw
      exact ⟨any, by simp [hd, Claim.inField]⟩
    next => cases hw
  next => exact writesWithin_flatMap (v.active o) wide o.dst fun th => f (some th)

/-! ## Instructions whose whole effect is writes -/

/-- Registers written are the whole effect of an instruction whose entry writes them. -/
theorem exec_writes {s : State} {v : View} {i : Instr} {o : Opnds} {body : View → Issued} {ws : List RegWrite}
    (h : Claim.Issues s v i o) (he : exec i s = issue i o s body) (hb : body v = v.writes ws) :
    ∃ t, exec i s = .next t ∧ Claim.After s t v i o ws := by
  refine ⟨_, (exec_of_issues h he).trans (by rw [hb, View.writes, issues_state h]), ?_⟩
  exact retire_writes_after h.1 i o ws

/-- An instruction whose entry does nothing is one that writes nothing. -/
theorem exec_does_nothing {s : State} {v : View} {i : Instr} {o : Opnds} {body : View → Issued}
    (h : Claim.Issues s v i o) (he : exec i s = issue i o s body) (hb : body v = .done v.s) :
    ∃ t, exec i s = .next t ∧ Claim.After s t v i o [] := by
  obtain ⟨t, ht, after⟩ : ∃ t, Host.Outcome.next (v.finish i o (.done (v.s.applyWrites v.iss []))) = .next t ∧ Claim.After s t v i o [] :=
    ⟨_, rfl, issues_state h ▸ retire_writes_after h.1 i o []⟩
  refine ⟨t, ?_, after⟩
  rw [exec_of_issues h he, hb, ← ht]
  exact congrArg Host.Outcome.next (v.s.modTeam_modGrp v.iss _ _).symm

/-- What O1 says of an instruction. -/
def OnlyWrites (s : State) (v : View) (i : Instr) (o : Opnds) (pair : Bool) (sc : Option Spec) : Prop :=
  ∃ t ws, exec i s = .next t ∧ Claim.After s t v i o ws ∧
    ∀ w ∈ ws, Claim.byThread (Claim.receivers v o i) w = true ∧ (Claim.inField pair o.dst w || sc.any fun d => Claim.inField false d w) = true

theorem onlyWrites_within {s : State} {v : View} {i : Instr} {o : Opnds} {body : View → Issued} {ws : List RegWrite} {pair : Bool}
    (h : Claim.Issues s v i o) (he : exec i s = issue i o s body) (hb : body v = v.writes ws)
    (within : WritesWithin (Claim.receivers v o i) pair o.dst ws) : OnlyWrites s v i o pair none := by
  obtain ⟨t, ht, after⟩ := exec_writes h he hb
  exact ⟨t, ws, ht, after, fun w hw => ⟨(within w hw).1, by simp [(within w hw).2]⟩⟩

theorem onlyWrites_dst {s : State} {v : View} {i : Instr} {o : Opnds} {body : View → Issued} {pair : Bool} {f : Option Thread → Nat}
    (h : Claim.Issues s v i o) (he : exec i s = issue i o s body) (hb : body v = v.writes (v.dst o pair f))
    (active : Claim.receivers v o i = v.active o) : OnlyWrites s v i o pair none :=
  onlyWrites_within h he hb (active ▸ v.dst_within o pair f)

theorem onlyWrites_both {s : State} {v : View} {i : Instr} {o : Opnds} {body : View → Issued} {ws us : List RegWrite} {pair : Bool} {sc : Spec}
    (h : Claim.Issues s v i o) (he : exec i s = issue i o s body) (hb : body v = v.writes (ws ++ us))
    (first : WritesWithin (Claim.receivers v o i) pair o.dst ws) (second : WritesWithin (Claim.receivers v o i) false sc us) :
    OnlyWrites s v i o pair (some sc) := by
  obtain ⟨t, ht, after⟩ := exec_writes h he hb
  refine ⟨t, ws ++ us, ht, after, fun w hw => ?_⟩
  rcases List.mem_append.1 hw with hw | hw
  · exact ⟨(first w hw).1, by simp [(first w hw).2]⟩
  · exact ⟨(second w hw).1, by simp [(second w hw).2]⟩

theorem onlyWrites_nothing {s : State} {v : View} {i : Instr} {o : Opnds} {body : View → Issued} {pair : Bool} {sc : Option Spec}
    (h : Claim.Issues s v i o) (he : exec i s = issue i o s body) (hb : body v = .done v.s) : OnlyWrites s v i o pair sc := by
  obtain ⟨t, ht, after⟩ := exec_does_nothing h he hb
  exact ⟨t, [], ht, after, fun w hw => by cases hw⟩

/-- Each entry is one list of writes within its fields; QNT's where its SC is an s register, as its row demands (R164). -/
theorem onlyWrites_of_registerOnly {s : State} {v : View} {i : Instr} {o : Opnds} {pair : Bool} {sc : Option Spec}
    (hr : Claim.registerOnly i = some (o, pair, sc)) (h : Claim.Issues s v i o) (scale : ∀ m, i = .qnt o m → isSReg o.sc = true) :
    OnlyWrites s v i o pair sc := by
  cases i
  case shuf o m | rank o m =>
    cases hr
    exact onlyWrites_within h rfl rfl (writesWithin_flatMap _ _ _ _)
  case push o m =>
    cases hr
    refine onlyWrites_within h rfl rfl ?_
    intro w hw
    obtain ⟨r, hr, hw⟩ := List.mem_flatMap.1 hw
    split at hw
    · exact ⟨regWrite_byThread hr hw, regWrite_inField hw⟩
    · cases hw
  case rdl o m =>
    cases hr
    cases hv : v.rdl o m with
    | some x => exact onlyWrites_dst h rfl (by simp only [hv]; rfl) rfl
    | none => exact onlyWrites_nothing h rfl (by simp only [hv])
  case addc o m | subb o m =>
    cases hr
    exact onlyWrites_both h rfl rfl (v.dst_within o _ _) (v.dst_within { o with dst := o.sc } false _)
  case qnt o m =>
    cases hr
    cases any : v.any o with
    | false => exact onlyWrites_nothing h rfl (by simp [View.once, any])
    | true =>
      have scalar (x : Nat) : WritesWithin (v.active o) false o.sc (regWrite false 0 x o.sc) := by
        obtain ⟨n, hn⟩ : ∃ n, o.sc = .s n := by
          have := scale m rfl
          cases hs : o.sc <;> simp_all [isSReg]
        intro w hw
        refine ⟨?_, regWrite_inField hw⟩
        rw [hn, regWrite, List.mem_singleton] at hw
        subst hw
        exact any
      by_cases bad : (((v.active o).map fun th => (v.flush m).val .f32 (v.read o .f32 (some th) o.sa)).any
          fun y => match y with | .fin .. => false | _ => true) && !m.sat
      · exact onlyWrites_both h rfl (by rw [View.once_of_any any]; exact if_pos bad) (writesWithin_flatMap _ _ _ _) (scalar _)
      · exact onlyWrites_both h rfl (by rw [View.once_of_any any]; exact if_neg bad) (writesWithin_flatMap _ _ _ _) (scalar _)
  case vote o m | ballot o | mov o | movi o m | sel o | rstat o | kset o m | srd o m | add o m | sub o m | mul o m | mulh o m | mad o m | madw o m | min o m | max o m |
      abs o m | neg o m | and o m | or o m | xor o m | not o m | shl o m | shr o m | sar o m | rotl o m | bfx o m | bfi o m | popc o m | clz o m |
      brev o m | cmp o m | lea o m | dot4 o m | div o m | rem o m | prmb o m | fadd o m | fsub o m | fmul o m | ffma o m | fmin o m | fmax o m | fcmp o m |
      fclass o m | frnd o m | cvt o m | fdot2 o m | rcp o m | rsq o m | sqrt o m | exp2 o m | log2 o m | sin o m | cos o m | tanh o m | divf o m =>
    cases hr
    exact onlyWrites_dst h rfl rfl rfl
  all_goals cases hr

/-! ## QNT with a scale that is no s register -/

/-- Where every write is to threads of a list, another thread's registers stay. -/
theorem lastV_of_byThread {ths : List Thread} {ws : List RegWrite} {tid : Nat} (h : ∀ w ∈ ws, Claim.byThread ths w = true)
    (away : ∀ th ∈ ths, th.tid ≠ tid) (n : Nat) (x : W32) : Claim.lastV ws tid n x = x := by
  induction ws generalizing x with
  | nil => rfl
  | cons w r ih =>
    have rest := ih fun y hy => h y (List.mem_cons_of_mem w hy)
    have own := h w List.mem_cons_self
    cases w with
    | v t m y =>
      obtain ⟨th, hth, ht⟩ := List.any_eq_true.1 own
      have : t ≠ tid := fun e => away th hth ((beq_iff_eq.1 ht).trans e)
      exact (rest _).trans (if_neg fun e => this e.1)
    | c t m y | k t m y | s m y => exact rest x

/-- Two threads, of which k1 holds the second alone; v1 of each is no number. -/
def nanThread (n : Nat) : Thread := { Thread.start 0 0x10000 n with v := [(1, 0xFFFFFFFF)], k := if n = 1 then [(1, true)] else [] }
def nanClause : Clause := ⟨0x10000, { len := 2 }, 1, [0, 1], List.replicate 3 ⟨0, []⟩, [], [], none, false, false, []⟩
def nanGrp : Grp := { Grp.start 0 0 0 with clause := some nanClause }
def nanTeam : Team := { Team.fresh 0 ⟨0, 0⟩ 0 (.launch 1) KHdr.placed with grps := [nanGrp], threads := [nanThread 0, nanThread 1] }
def nanState : State := { State.reset with teams := [(0, nanTeam)], sched := { State.reset.sched with cur := some ⟨⟨0, 0⟩, 0⟩ } }
def nanView : View := ⟨nanState, ⟨⟨0, 0⟩, 0⟩, nanTeam, nanGrp, nanClause, [nanThread 0, nanThread 1]⟩

/-- QNT of v1 to v2 under k1, with v5 for its scale. -/
def vScale : Opnds := { ty := .f32, dst := .v 2, sa := .v 1, sc := .v 5, pk := 1 }

theorem nanState_issues : Claim.Issues nanState nanView (.qnt vScale {}) vScale := by
  refine ⟨rfl, ?_, ?_, ?_⟩ <;> decide

/-- v5 of each thread of the team after a step. -/
def v5After : Host.Outcome State Fault Refusal → Option (List (Nat × W32))
  | .next t => (t.team? ⟨0, 0⟩).map fun b => b.threads.map fun th => (th.tid, th.getV 5)
  | _ => none

/-- The scale is written to v5 of thread 0, which is not active. -/
theorem v5After_qnt : v5After (exec (.qnt vScale {}) nanState) = some [(0, 0x7FC00000), (1, 0)] := by decide +kernel

/-- Refutes O1: QNT writes its scale as thread 0's where SC is a v register, whether that thread is active or not. No word of the
part names one there (R164), and with an s register the statement holds: `onlyWrites_of_registerOnly`. -/
theorem not_registerOnlyInstructionsChangeOnlyTheirDestination : ¬ Obligations.RegisterOnlyInstructionsChangeOnlyTheirDestination := by
  intro h
  obtain ⟨t, ws, ht, after, within⟩ := h nanState nanView (.qnt vScale {}) vScale false (some vScale.sc) rfl nanState_issues
  obtain ⟨only, b, hb, frame, tids, threads, others, own⟩ := after
  obtain ⟨th, hth, rest, live, regs, temps, preds⟩ := threads (nanThread 0) (by decide)
  have kept : th.getV 5 = 0 := (regs 5).trans (lastV_of_byThread (fun w hw => (within w hw).1) (by decide) 5 _)
  have tid : th.tid = 0 := by rw [rest]; rfl
  have read : b.threads.map (fun th => (th.tid, th.getV 5)) = [(0, 0x7FC00000), (1, 0)] := by
    have := v5After_qnt
    rw [ht, v5After, show t.team? ⟨0, 0⟩ = some b from hb] at this
    exact Option.some.inj this
  have written : (th.tid, th.getV 5) ∈ [(0, 0x7FC00000#32), (1, 0)] := read ▸ List.mem_map_of_mem hth
  rw [tid, kept] at written
  exact absurd written (by decide)

end Sys2Proof.Machine
end

section
/-! Flagged loads, from their issue to their landing (R30, R34, R193). -/
namespace Sys2Proof.Machine

/-! ## Reading the issuing record after a change of it -/

theorem Team.modGrp_id (t : Team) (n : Nat) : (t.modGrp n fun g => g) = t := by simp [Team.modGrp]

theorem Team.modGrp_modGrp (t : Team) (n : Nat) (f g : Grp → Grp) (hf : ∀ x, (f x).recno = x.recno) :
    (t.modGrp n f).modGrp n g = t.modGrp n fun x => g (f x) := by
  simp only [Team.modGrp, List.map_map, Team.mk.injEq, true_and, and_true]
  refine List.map_congr_left fun x _ => ?_
  by_cases h : x.recno = n <;> simp [h, hf]

theorem State.modGrp_modGrp (s : State) (i : Issuer) (f g : Grp → Grp) (hf : ∀ x, (f x).recno = x.recno) :
    (s.modGrp i f).modGrp i g = s.modGrp i fun x => g (f x) := by
  unfold State.modGrp
  simp only [State.modTeam_modTeam, Team.modGrp_modGrp _ _ _ _ hf]

theorem State.modGrp_id (s : State) (i : Issuer) : (s.modGrp i fun g => g).team? i.team = s.team? i.team := by
  simp [State.modGrp, Team.modGrp_id]

/-! ## Accesses in flight, R30, R34 -/

theorem Grp.flag_incFlag_same {g : Grp} (len : g.flags.length = 12) (f : Fin 12) : (g.incFlag f).flag f = g.flag f + 1 :=
  nth_modNth_same 0 (· + 1) (by omega)

theorem Grp.flag_incFlag_other (g : Grp) {f k : Fin 12} (h : k ≠ f) : (g.incFlag f).flag k = g.flag k :=
  nth_modNth_other 0 (· + 1) g.flags (by simpa [Fin.ext_iff] using h)

/-- A record that a command with flag f has entered: the flag counts up and the registers that the command will write fly. -/
def Grp.entered (g : Grp) (rs : List Spec) (f : Fin 12) : Grp := (g.incFlag f).fly rs (some f)

/-- A record that may have warned. -/
def Grp.warnedIf (g : Grp) (b : Bool) (n : Nat) : Grp := if b then g.setWarn n else g

theorem Grp.warnedIf_rest (g : Grp) (b : Bool) (n : Nat) : g.warnedIf b n = { g with warn := (g.warnedIf b n).warn } := by cases b <;> rfl

theorem View.enter_flagged {v : View} {o : Opnds} {f : Fin 12} (fl : o.fl = some f) (i : Instr) (s : State) :
    v.enter i o s = s.modGrp v.iss (·.entered (written i o) f) := by simp only [View.enter, fl]; rfl

/-- A change of the issuing record, read back. -/
theorem State.modGrp_team? {s : State} {i : Issuer} {t : Team} (h : s.team? i.team = some t) (f : Grp → Grp) :
    (s.modGrp i f).team? i.team = some (t.modGrp i.recno f) := by simp [State.modGrp, h]

theorem View.warnIf_team? {v : View} {s : State} {t : Team} (h : s.team? v.iss.team = some t) (b : Bool) (n : Nat) :
    (v.warnIf b n s).team? v.iss.team = some (t.modGrp v.iss.recno (·.warnedIf b n)) := by
  cases b with
  | false => exact h.trans (congrArg some (t.modGrp_id v.iss.recno).symm)
  | true => exact State.modGrp_team? h (·.setWarn n)

/-- The record of a flagged access that has issued: its flag has counted up and its registers fly. -/
theorem Grp.onward_entered {v : View} {i : Instr} {o : Opnds} {f : Fin 12} (any : v.any o = true) (len : v.grp.flags.length = 12) (b : Bool) :
    let g := ((v.grp.entered (written i o) f).warnedIf b 1).onward v i o
    g.s = v.grp.s ∧ g.flag f = v.grp.flag f + 1 ∧ (∀ k, k ≠ f → g.flag k = v.grp.flag k) ∧ ∀ r ∈ written i o, (r, f) ∈ g.flight := by
  intro g
  have flags : g.flags = (v.grp.incFlag f).flags := by
    simp only [g, Grp.onward]; rw [Grp.warnedIf_rest]; rfl
  have flight : g.flight = v.grp.flight ++ (written i o).map fun r => (r, f) := by
    simp only [g, Grp.onward, any]; rw [Grp.warnedIf_rest]; rfl
  refine ⟨?_, ?_, fun k hk => ?_, fun r hr => ?_⟩
  · simp only [g, Grp.onward]; rw [Grp.warnedIf_rest]; rfl
  · exact (congrArg (nth 0 · f.val) flags).trans (Grp.flag_incFlag_same len f)
  · exact (congrArg (nth 0 · k.val) flags).trans (v.grp.flag_incFlag_other hk)
  · rw [flight]
    exact List.mem_append_right _ (List.mem_map_of_mem hr)

/-- What a flagged LD, LDS or LDC that issues leaves, whether it warns or not. -/
theorem View.deliver_flagged {s : State} {v : View} {i : Instr} {o : Opnds} {f : Fin 12} (h : Claim.Issues s v i o) (any : v.any o = true)
    (fl : o.fl = some f) (len : v.grp.flags.length = 12) (warns : Bool) (ws lost : List RegWrite) :
    let t := (v.warnIf warns 1 (v.deliver i o .load s ws lost)).retire v i o
    ∃ b g, t.mem = s.mem ∧ t.team? v.iss.team = some b ∧ b = { v.team with grps := b.grps } ∧
      b.grp? v.iss.recno = some g ∧ g.s = v.grp.s ∧ g.flag f = v.grp.flag f + 1 ∧ (∀ k, k ≠ f → g.flag k = v.grp.flag k) ∧
      (∀ r ∈ written i o, (r, f) ∈ g.flight) ∧
      t.eng.landings = s.eng.landings ++ [⟨s.sched.nextCmd, v.iss, some f, .load, ws, lost⟩] ∧ t.sched.nextCmd = s.sched.nextCmd + 1 := by
  obtain ⟨hs, -, ht, hg, hc⟩ := State.view?_spec h.1
  intro t
  have entered : (v.deliver i o .load s ws lost).team? v.iss.team = some (v.team.modGrp v.iss.recno (·.entered (written i o) f)) := by
    simp only [View.deliver, fl, View.enter_flagged fl]
    exact State.modGrp_team? (s := s.newCmd.2) ht _
  have keepsNo (g : Grp) : ((g.entered (written i o) f).warnedIf warns 1).recno = g.recno := by rw [Grp.warnedIf_rest]; rfl
  have team : t.team? v.iss.team = some (v.team.modGrp v.iss.recno fun g => ((g.entered (written i o) f).warnedIf warns 1).onward v i o) := by
    refine (State.modGrp_team? (View.warnIf_team? entered warns 1) _).trans ?_
    rw [Team.modGrp_modGrp _ _ (Grp.entered · (written i o) f) _ (fun _ => rfl), Team.modGrp_modGrp _ _ _ _ keepsNo]
  have rest : t.mem = s.mem ∧ t.eng.landings = s.eng.landings ++ [⟨s.sched.nextCmd, v.iss, some f, .load, ws, lost⟩] ∧ t.sched.nextCmd = s.sched.nextCmd + 1 := by
    cases warns <;> simp [t, State.retire, View.warnIf, State.setWarn, View.deliver, fl, View.enter] <;> rfl
  obtain ⟨mem, landings, cmd⟩ := rest
  obtain ⟨regs, same, others, flight⟩ := Grp.onward_entered (i := i) (f := f) any len warns
  refine ⟨_, _, mem, team, rfl, ?_, regs, same, others, flight, landings, cmd⟩
  rw [Team.grp?_modGrp_same _ _ (fun g => ((g.entered (written i o) f).warnedIf warns 1).onward v i o) keepsNo, hg]
  rfl

theorem flaggedLoadsGoInFlight : Claim.FlaggedLoadsGoInFlight := by
  intro s v i o n bytes ok f hl h hok any fl len
  have hs : v.s = s := issues_state h
  cases i
  case ld p m =>
    cases hl
    obtain ⟨check, poison⟩ := hok
    obtain ⟨b, g, mem, team, rest, grp, regs, same, others, flight, landings, cmd⟩ := View.deliver_flagged h any fl len _ _ _
    refine ⟨_, b, g, _, _, (exec_of_issues h rfl).trans ?_, mem, team, rest, grp, regs, same, others, flight, landings, fun _ => ?_, nofun, cmd⟩
    · dsimp only at poison ⊢
      rw [View.once_of_any any, check, poison, View.checked, hs]
      rfl
    · rfl
  case lds p m =>
    cases hl
    obtain ⟨b, g, mem, team, rest, grp, regs, same, others, flight, landings, cmd⟩ := View.deliver_flagged h any fl len false _ _
    refine ⟨_, b, g, _, _, (exec_of_issues h rfl).trans ?_, mem, team, rest, grp, regs, same, others, flight, landings, fun _ => ?_, nofun, cmd⟩
    · dsimp only
      rw [View.once_of_any any, hok, View.checked, hs]
      rfl
    · rw [hs]
  case ldc p m =>
    cases hl
    obtain ⟨check, poison⟩ := hok
    obtain ⟨b, g, mem, team, rest, grp, regs, same, others, flight, landings, cmd⟩ := View.deliver_flagged h any fl len false _ _
    refine ⟨_, b, g, _, _, (exec_of_issues h rfl).trans ?_, mem, team, rest, grp, regs, same, others, flight, landings, fun hd => ?_, fun m' th e hd => ?_, cmd⟩
    · dsimp only
      rw [View.once_of_any any, check, poison, View.checked, hs]
      rfl
    · simp only [hd]; rfl
    · simp only [hd]; rfl
  all_goals cases hl

/-! ## Landings, R34 -/

theorem Team.modGrp_retired (t : Team) (n : Nat) (f : Grp → Grp) (hf : ∀ g, (f g).retired = g.retired) :
    (t.modGrp n f).grps.map (·.retired) = t.grps.map (·.retired) := by
  simp only [Team.modGrp, List.map_map]
  refine List.map_congr_left fun g _ => ?_
  by_cases h : g.recno = n <;> simp [h, hf]

theorem Team.applyWrites_retired (t : Team) (n : Nat) (ws : List RegWrite) :
    (t.applyWrites n ws).grps.map (·.retired) = t.grps.map (·.retired) := by
  induction ws generalizing t with
  | nil => rfl
  | cons w r ih =>
    refine (ih (t.applyWrite n w)).trans ?_
    cases w with
    | s m x => exact t.modGrp_retired n _ fun _ => rfl
    | v tid m x | c tid m x | k tid m x => rfl

/-- A team with a record that has not retired goes on. -/
theorem State.tryEnd_goesOn {s : State} {r : TeamRef} {t : Team} (h : s.team? r = some t) (on : false ∈ t.grps.map (·.retired)) :
    s.tryEnd r = s := by
  obtain ⟨g, hg, live⟩ := List.mem_map.1 on
  have : t.grps.all (·.retired) = false := List.all_eq_false.2 ⟨g, hg, by simp [live]⟩
  simp [State.tryEnd, h, this]

theorem Team.thread?_of_mem {t : Team} (h : Safety.ordered t = true) {th : Thread} (hth : th ∈ t.threads) : t.thread? th.tid = some th := by
  have key : ∀ l : List Thread, (l.map (·.tid)).Pairwise (· < ·) → th ∈ l → l.find? (·.tid == th.tid) = some th := by
    intro l
    induction l with
    | nil => simp
    | cons x r ih =>
      intro hp hm
      rw [List.map_cons, List.pairwise_cons] at hp
      rcases List.mem_cons.1 hm with rfl | hm
      · simp
      · have : x.tid ≠ th.tid := Nat.ne_of_lt (hp.1 _ (List.mem_map_of_mem hm))
        simpa [this] using ih hp.2 hm
  exact key t.threads (of_decide_eq_true h) hth

theorem Team.applyWrites_thread? (t : Team) (n : Nat) (ws : List RegWrite) (tid : Nat) :
    (t.applyWrites n ws).thread? tid = (t.thread? tid).map (·.wroteAll ws) := by
  simp only [Team.thread?, Team.applyWrites_threads, List.find?_map, Function.comp_def, Thread.wroteAll_tid]

/-! ### Writes that a team's live threads take -/

/-- The write is one of thread tid's own registers. -/
def RegWrite.ofThread (tid : Nat) : RegWrite → Bool
  | .v t _ _ | .c t _ _ | .k t _ _ => t == tid
  | .s .. => false

/-- Only the writes to its own registers matter to a thread. -/
theorem Thread.wroteAll_filter (p : RegWrite → Bool) (ws : List RegWrite) (th : Thread) (h : ∀ w ∈ ws, w.ofThread th.tid = true → p w = true) :
    th.wroteAll (ws.filter p) = th.wroteAll ws := by
  induction ws generalizing th with
  | nil => rfl
  | cons w r ih =>
    have rest (u : Thread) (hu : u.tid = th.tid) : u.wroteAll (r.filter p) = u.wroteAll r :=
      ih u fun w' hw' => by rw [hu]; exact h w' (List.mem_cons_of_mem _ hw')
    by_cases hp : p w = true
    · rw [List.filter_cons_of_pos hp]
      exact rest (th.wrote w) (th.wrote_tid w)
    · rw [List.filter_cons_of_neg hp, rest th rfl]
      have away : w.ofThread th.tid = false := Bool.eq_false_iff.2 fun own => hp (h w List.mem_cons_self own)
      have same : th.wrote w = th := by
        cases w with
        | v t n x | c t n x | k t n x =>
          have : th.tid ≠ t := Ne.symm (by simpa [RegWrite.ofThread] using away)
          simp [Thread.wrote, this]
        | s n x => rfl
      exact (congrArg (Thread.wroteAll · r) same).symm

theorem Thread.wroteAll_none (ws : List RegWrite) (th : Thread) (h : ∀ w ∈ ws, w.ofThread th.tid = false) : th.wroteAll ws = th := by
  have := th.wroteAll_filter (fun _ => false) ws fun w hw own => by simp [h w hw] at own
  rw [← this, List.filter_eq_nil_iff.2 (by simp)]
  rfl

/-- The scalar registers take the writes to them, whatever becomes of the others. -/
theorem Claim.lastS_filter (p : RegWrite → Bool) (ws : List RegWrite) (n : Nat) (x : W64) (h : ∀ m y, p (.s m y) = true) :
    Claim.lastS (ws.filter p) n x = Claim.lastS ws n x := by
  induction ws generalizing x with
  | nil => rfl
  | cons w r ih =>
    by_cases hp : p w = true
    · rw [List.filter_cons_of_pos hp]
      exact ih _
    · rw [List.filter_cons_of_neg hp, ih]
      cases w with
      | s m y => exact absurd (h m y) hp
      | v t m y | c t m y | k t m y => rfl

/-- What a landing leaves of a thread of a team in order: its writes, or nothing where it has ended. -/
theorem Team.live_wroteAll {t : Team} (h : Safety.ordered t = true) {th : Thread} (hth : th ∈ t.threads) (ws : List RegWrite) :
    th.wroteAll (ws.filter t.live) = if th.run = .exited then th else th.wroteAll ws := by
  have own (w : RegWrite) (hw : w.ofThread th.tid = true) : t.live w = (th.run != .exited) := by
    cases w with
    | v tid n x | c tid n x | k tid n x =>
      obtain rfl : tid = th.tid := by simpa [RegWrite.ofThread] using hw
      simp [Team.live, Team.thread?_of_mem h hth]
    | s n x => cases hw
  split_ifs with ended
  · refine Thread.wroteAll_none _ th fun w hw => Bool.eq_false_iff.2 fun hown => ?_
    have := (List.mem_filter.1 hw).2
    rw [own w hown, ended] at this
    simp at this
  · exact th.wroteAll_filter _ ws fun w _ hown => by simpa [own w hown] using ended

/-! ### The flag of a landing -/

/-- A record as command num of flag f completes. -/
def Grp.completed (g : Grp) (now : Nat) (f : Fin 12) (num : Nat) : Grp :=
  ({ g with stall := if g.stall = some num then none else g.stall, done_ := g.done_ ++ [(f, num)] } : Grp).decFlag now f

theorem State.flagDown_some (s : State) (i : Issuer) (f : Fin 12) (num : Nat) :
    s.flagDown i (some f) num = s.modGrp i (·.completed s.sched.steps f num) := by
  unfold State.flagDown Grp.completed
  congr 1
  funext g
  by_cases h : g.stall = some num <;> simp [h]

theorem Grp.completed_rest (g : Grp) (now : Nat) (f : Fin 12) (num : Nat) :
    (g.completed now f num).recno = g.recno ∧ (g.completed now f num).retired = g.retired ∧ (g.completed now f num).s = g.s := ⟨rfl, rfl, rfl⟩

theorem Grp.flag_completed_same {g : Grp} (len : g.flags.length = 12) (now : Nat) (f : Fin 12) (num : Nat) :
    (g.completed now f num).flag f = g.flag f - 1 := nth_modNth_same (l := g.flags) 0 (· - 1) (by omega)

theorem Grp.flag_completed_other (g : Grp) (now : Nat) {f k : Fin 12} (h : k ≠ f) (num : Nat) : (g.completed now f num).flag k = g.flag k :=
  nth_modNth_other 0 (· - 1) g.flags (by simpa [Fin.ext_iff] using h)

/-- A register in flight under a flag that now reads clear has landed. -/
theorem Grp.flight_completed {g : Grp} (len : g.flags.length = 12) (now : Nat) {f : Fin 12} (num : Nat) (last : g.flag f ≤ 1) (r : Spec) :
    (r, f) ∉ (g.completed now f num).flight := by
  intro hr
  have reads : (g.completed now f num).flag f ≠ 0 := bne_iff_ne.1 (List.mem_filter.1 hr).2
  rw [Grp.flag_completed_same len] at reads
  omega

/-- The state as a landing leaves it, before its team's end is looked at. -/
def State.afterLanding (s : State) (l : Landing) (f : Fin 12) : State :=
  (({ s with eng := { s.eng with landings := s.eng.landings.filter fun x => x.num != l.num } } : State).modTeam l.iss.team
    fun t => t.applyWrites l.iss.recno (l.writes.filter t.live)).modGrp l.iss (·.completed s.sched.steps f l.num)

theorem State.afterLanding_team? {s : State} {l : Landing} {a : Team} (ha : s.team? l.iss.team = some a) (f : Fin 12) :
    (s.afterLanding l f).team? l.iss.team =
      some ((a.applyWrites l.iss.recno (l.writes.filter a.live)).modGrp l.iss.recno (·.completed s.sched.steps f l.num)) := by
  refine State.modGrp_team? ?_ _
  exact (State.team?_modTeam_same ..).trans (congrArg _ ha)

theorem State.landed_eq {s : State} {l : Landing} {a : Team} {f : Fin 12} {n : Nat} {kind : LandKind}
    (hl : s.eng.landings.find? (fun x => x.num == n && x.kind == kind) = some l) (hf : l.fl = some f) (hn : l.num = n)
    (ha : s.team? l.iss.team = some a) (on : a.grps.any (fun x => !x.retired) = true) : s.landed n kind = s.afterLanding l f := by
  subst hn
  unfold State.landed
  rw [hl]
  dsimp only
  rw [hf, State.flagDown_some, State.modTeam_sched]
  refine State.tryEnd_goesOn (s.afterLanding_team? ha f) ?_
  rw [Team.modGrp_retired _ _ _ fun g => (g.completed_rest _ f l.num).2.1, Team.applyWrites_retired]
  obtain ⟨x, hx, hon⟩ := List.any_eq_true.1 on
  exact List.mem_map.2 ⟨x, hx, by simpa using hon⟩

theorem landingsWriteTheirRegisters : Claim.LandingsWriteTheirRegisters := by
  intro s l a g f atomic hl hkind hf ha hg len on ordered
  have lands : exec (if atomic then .atomicComplete l.num else .loadComplete l.num) s = .next (s.landed l.num l.kind) := by
    rw [hkind]; cases atomic <;> rfl
  rw [← hkind] at hl
  have wrote : (a.applyWrites l.iss.recno (l.writes.filter a.live)).grp? l.iss.recno = some (g.wroteAll (l.writes.filter a.live)) := by
    rw [Team.applyWrites_grp?_same, hg]; rfl
  obtain ⟨rest, regs⟩ := Grp.wroteAll_after (l.writes.filter a.live) g
  have flags (k : Fin 12) : (g.wroteAll (l.writes.filter a.live)).flag k = g.flag k := by rw [rest]; rfl
  have len' : (g.wroteAll (l.writes.filter a.live)).flags.length = 12 := by rw [rest]; exact len
  refine ⟨_, _, (g.wroteAll (l.writes.filter a.live)).completed s.sched.steps f l.num,
    lands.trans (by rw [State.landed_eq hl hf rfl ha on]), ?_, s.afterLanding_team? ha f, ?_, fun th hth => ?_, fun n => ?_, ?_, fun k hk => ?_, fun r last => ?_, fun x hx => ?_⟩
  · simp [State.afterLanding]
  · exact (Team.grp?_modGrp_same _ _ (Grp.completed · s.sched.steps f l.num) fun _ => rfl).trans (congrArg _ wrote)
  · refine ⟨th.wroteAll (l.writes.filter a.live), ?_, ?_⟩
    · rw [Team.modGrp_thread?, Team.applyWrites_thread?, Team.thread?_of_mem ordered hth]; rfl
    · rw [Team.live_wroteAll ordered hth]
      split_ifs with ended
      · rfl
      · exact Thread.wroteAll_after l.writes th
  · exact (regs n).trans (Claim.lastS_filter a.live l.writes n _ fun _ _ => rfl)
  · rw [Grp.flag_completed_same len', flags]
  · rw [Grp.flag_completed_other _ _ hk, flags]
  · exact Grp.flight_completed len' _ _ (by rw [flags]; exact last) r
  · have : x ∈ s.eng.landings.filter fun x => x.num != l.num := by simpa [State.afterLanding] using hx
    simpa using (List.mem_filter.1 this).2

/-- Settles O20: a flagged load is entered with its landing, and the landing writes what it carries. -/
theorem flaggedLoadsGoInFlightAndLand : Obligations.FlaggedLoadsGoInFlightAndLand := ⟨flaggedLoadsGoInFlight, landingsWriteTheirRegisters⟩

end Sys2Proof.Machine
end

section
/-! CLEND ends its clause (R24, R29, R34, R79, R94). -/
namespace Sys2Proof.Machine

/-! ## Threads of a team after a change of some of them -/

theorem Team.thread?_modThreads (t : Team) (p : Thread → Bool) (f : Thread → Thread) (hf : ∀ th, (f th).tid = th.tid) (tid : Nat) :
    (t.modThreads p f).thread? tid = (t.thread? tid).map fun th => if p th then f th else th := by
  have own : (fun th : Thread => (if p th then f th else th).tid == tid) = fun th => th.tid == tid := by
    funext th
    split_ifs <;> simp [hf]
  simp only [Team.thread?, Team.modThreads, List.find?_map, Function.comp_def, own]

theorem Team.thread?_tid {t : Team} {tid : Nat} {th : Thread} (h : t.thread? tid = some th) : th.tid = tid := by
  simpa using List.find?_some h

theorem Team.thread?_modThreads_of_not {t : Team} {p : Thread → Bool} {f : Thread → Thread} (hf : ∀ th, (f th).tid = th.tid) {tid : Nat}
    {th : Thread} (h : t.thread? tid = some th) (hp : p th = false) : (t.modThreads p f).thread? tid = some th := by
  rw [Team.thread?_modThreads _ _ _ hf, h]; simp [hp]

theorem Team.thread?_modThreads_of {t : Team} {p : Thread → Bool} {f : Thread → Thread} (hf : ∀ th, (f th).tid = th.tid) {tid : Nat}
    {th : Thread} (h : t.thread? tid = some th) (hp : p th = true) : (t.modThreads p f).thread? tid = some (f th) := by
  rw [Team.thread?_modThreads _ _ _ hf, h]; simp [hp]

theorem Team.arrive1_tid (t : Team) (now h : Nat) (th : Thread) : (t.arrive1 now h th).tid = th.tid := by
  simp only [Team.arrive1]
  split_ifs <;> rfl

/-- A thread of no meeting set goes on where it comes. -/
theorem Team.arrive1_free (t : Team) (now h : Nat) {th : Thread} (free : th.meet = 0) :
    t.arrive1 now h th = { th with pc := h, run := .runnable, age := now } := by
  simp only [Team.arrive1, free]
  have : (decide (0 = h) && h != 0) = false := by cases h <;> rfl
  simp [this]

theorem Team.thread?_arrive {t : Team} {tid : Nat} {th : Thread} (hth : t.thread? tid = some th) (free : th.meet = 0) (now h : Nat) (tids : List Nat) :
    (t.arrive now h tids).thread? tid = some (if tid ∈ tids then { th with pc := h, run := .runnable, age := now } else th) := by
  have own := Team.thread?_tid hth
  split_ifs with came
  · rw [← t.arrive1_free now h free]
    exact Team.thread?_modThreads_of (t.arrive1_tid now h) hth (by simpa [own] using came)
  · exact Team.thread?_modThreads_of_not (t.arrive1_tid now h) hth (by simpa [own] using came)

theorem Team.thread?_suspend {t : Team} {tid : Nat} {th : Thread} (hth : t.thread? tid = some th) (h : Nat) (w : Susp) (tids : List Nat) :
    (t.suspend h w tids).thread? tid = some (if tid ∈ tids then { th with pc := h, run := .suspended w } else th) := by
  unfold Team.suspend
  rw [Team.thread?_modThreads _ _ (fun th => { th with pc := h, run := .suspended w }) fun _ => rfl, hth]
  simp [Team.thread?_tid hth]

/-- With no meeting set there is none to release. -/
theorem Team.settle_none {t : Team} (h : t.msets = []) (now : Nat) : t.settle now = t := by simp [Team.settle, h]

/-- Without meeting sets only the threads of p wake. -/
theorem Team.thread?_wakeThreads_of_not {t : Team} (none : t.msets = []) {p : Thread → Bool} {tid : Nat} {th : Thread} (hth : t.thread? tid = some th)
    (hp : p th = false) (now : Nat) : (t.wakeThreads now p).thread? tid = some th := by
  unfold Team.wakeThreads
  rw [Team.settle_none (t := t.modThreads _ _) none]
  exact Team.thread?_modThreads_of_not (fun th => t.arrive1_tid now th.pc th) hth hp

theorem Team.thread?_wakeThreads_of {t : Team} (none : t.msets = []) {p : Thread → Bool} {tid : Nat} {th : Thread} (hth : t.thread? tid = some th)
    (hp : p th = true) (free : th.meet = 0) (now : Nat) : (t.wakeThreads now p).thread? tid = some { th with run := .runnable, age := now } := by
  unfold Team.wakeThreads
  rw [Team.settle_none (t := t.modThreads _ _) none, Team.thread?_modThreads_of (fun th => t.arrive1_tid now th.pc th) hth hp, Team.arrive1_free _ _ _ free]

/-! ## What a team's control keeps: its end, its meeting sets, and of each record the clause, the registers in flight and the matrix commands -/

def Grp.control (g : Grp) : Nat × Option Clause × List (Spec × Fin 12) × List MatCmd := (g.recno, g.clause, g.flight, g.mq)

structure Team.SameControl (a b : Team) : Prop where
  ending : b.ending = a.ending
  msets : b.msets = a.msets
  grps : b.grps.map Grp.control = a.grps.map Grp.control

namespace Team.SameControl
variable {a b c : Team}

theorem refl (a : Team) : a.SameControl a := ⟨rfl, rfl, rfl⟩
theorem trans (h : a.SameControl b) (g : b.SameControl c) : a.SameControl c :=
  ⟨g.ending.trans h.ending, g.msets.trans h.msets, g.grps.trans h.grps⟩

theorem modGrp (t : Team) (n : Nat) (f : Grp → Grp) (hf : ∀ g, (f g).control = g.control) : t.SameControl (t.modGrp n f) := by
  refine ⟨rfl, rfl, ?_⟩
  simp only [Team.modGrp, List.map_map]
  refine List.map_congr_left fun g _ => ?_
  by_cases h : g.recno = n <;> simp [h, hf]

theorem wakeThreads {t : Team} (none : t.msets = []) (now : Nat) (p : Thread → Bool) : t.SameControl (t.wakeThreads now p) := by
  unfold Team.wakeThreads
  rw [Team.settle_none (t := t.modThreads _ _) none]
  exact ⟨rfl, rfl, rfl⟩

theorem endWait {t : Team} (none : t.msets = []) (now n id : Nat) : t.SameControl (t.endWait now n id) :=
  trans (modGrp t n (fun g => { g with waits := g.waits.del id }) fun _ => rfl) (wakeThreads (t := t.modGrp n _) none now _)

theorem grants (t : Team) (blocks : Nat) (claims : List (Nat × Nat)) : t.SameControl { t with pool := blocks, grants := claims } := ⟨rfl, rfl, rfl⟩
theorem barPhase {t : Team} (none : t.msets = []) (now : Nat) (bs : List Barrier) (p : Thread → Bool) :
    t.SameControl (({ t with bars := bs } : Team).wakeThreads now p) :=
  trans (b := { t with bars := bs }) ⟨rfl, rfl, rfl⟩ (wakeThreads (t := { t with bars := bs }) none now p)

theorem startWait (t : Team) (h n id : Nat) (k : WaitKind) (tids : List Nat) (saved : Option TrapRec) :
    t.SameControl (t.startWait h n id k tids saved) :=
  (modGrp t n (fun g => { g with waits := g.waits.put id ⟨tids, k, saved⟩ }) fun _ => rfl).trans ⟨rfl, rfl, rfl⟩

theorem grantN (k now : Nat) {t : Team} (none : t.msets = []) : t.SameControl (t.grantN k now) := by
  induction k generalizing t with
  | zero => exact refl t
  | succ k ih =>
    unfold Team.grantN
    split
    case h_1 => exact refl t
    case h_2 n id rest _ =>
      split
      case h_1 m _ _ =>
        split_ifs
        · have taken : t.SameControl (({ t with pool := t.pool - m, grants := rest } : Team).modGrp n fun g => { g with h := g.h + m }) :=
            (grants t _ rest).trans (modGrp _ n (fun g => { g with h := g.h + m }) fun _ => rfl)
          have waked := taken.trans (endWait (taken.msets.trans none) now n id)
          exact waked.trans (ih (waked.msets.trans none))
        · exact refl t
      case h_2 => exact (grants t t.pool rest).trans (ih (t := { t with grants := rest }) none)

theorem barSettleN (k now bid : Nat) {t : Team} (none : t.msets = []) : t.SameControl (t.barSettleN k now bid) := by
  induction k generalizing t with
  | zero => exact refl t
  | succ k ih =>
    unfold Team.barSettleN
    dsimp only
    split_ifs
    · exact (barPhase none now _ _).trans (ih ((barPhase none now _ _).msets.trans none))
    · exact refl t

/-- A record's clause and its registers in flight, read through a change that keeps control. -/
theorem grp? (h : a.SameControl b) {n : Nat} {g : Grp} (hg : a.grp? n = some g) :
    ∃ g', b.grp? n = some g' ∧ g'.clause = g.clause ∧ g'.flight = g.flight := by
  have find (t : Team) : (t.grp? n).map Grp.control = (t.grps.map Grp.control).find? (·.1 == n) := by
    simp only [Team.grp?, List.find?_map, Function.comp_def]; rfl
  have same : (b.grp? n).map Grp.control = some g.control := by rw [find, h.grps, ← find, hg]; rfl
  obtain ⟨g', hg', e⟩ := Option.map_eq_some_iff.1 same
  simp only [Grp.control, Prod.mk.injEq] at e
  obtain ⟨-, clause, flight, -⟩ := e
  exact ⟨g', hg', clause, flight⟩

theorem mq (h : a.SameControl b) (none : ∀ g ∈ a.grps, g.mq = []) : ∀ g ∈ b.grps, g.mq = [] := by
  intro g hg
  have : g.control ∈ a.grps.map Grp.control := h.grps ▸ List.mem_map_of_mem hg
  obtain ⟨x, hx, e⟩ := List.mem_map.1 this
  simp only [Grp.control, Prod.mk.injEq] at e
  obtain ⟨-, -, -, q⟩ := e
  exact q ▸ none x hx

end Team.SameControl

/-! ## Threads that no barrier holds -/

theorem Team.thread?_barSettleN (k now bid : Nat) {t : Team} (none : t.msets = []) {tid : Nat} {th : Thread} (hth : t.thread? tid = some th)
    (free : ∀ b, th.run ≠ .suspended (.bar b)) : (t.barSettleN k now bid).thread? tid = some th := by
  induction k generalizing t with
  | zero => exact hth
  | succ k ih =>
    unfold Team.barSettleN
    dsimp only
    split_ifs
    · refine ih ((SameControl.barPhase none now _ _).msets.trans none) ?_
      refine Team.thread?_wakeThreads_of_not ?_ ?_ ?_ now
      · exact none
      · exact hth
      · simp [free]
    · exact hth

theorem Team.SameControl.endThreads {t : Team} (none : t.msets = []) (now h : Nat) (tids : List Nat) : t.SameControl (t.endThreads now h tids) := by
  have fold (l : List Nat) (b : Team) (hb : t.SameControl b) : t.SameControl (l.foldl (fun t b => t.barSettle now b) b) := by
    induction l generalizing b with
    | nil => exact hb
    | cons x r ih => exact ih _ (hb.trans (.barSettleN 4 now x (hb.msets.trans none)))
  exact fold _ (t.modThreads _ _) ⟨rfl, rfl, rfl⟩

theorem Team.thread?_endThreads {t : Team} (none : t.msets = []) {tid : Nat} {th : Thread} (hth : t.thread? tid = some th)
    (now h : Nat) (tids : List Nat) (free : tid ∉ tids → ∀ b, th.run ≠ .suspended (.bar b)) :
    (t.endThreads now h tids).thread? tid = some (if tid ∈ tids then { th with run := .exited, endH := h } else th) := by
  have fold (l : List Nat) (b : Team) (u : Thread) (hm : b.msets = []) (hu : b.thread? tid = some u) (hf : ∀ b, u.run ≠ .suspended (.bar b)) :
      (l.foldl (fun t b => t.barSettle now b) b).thread? tid = some u := by
    induction l generalizing b with
    | nil => exact hu
    | cons x r ih => exact ih _ ((SameControl.barSettleN 4 now x hm).msets.trans hm) (Team.thread?_barSettleN 4 now x hm hu hf)
  refine fold _ _ _ none ?_ ?_
  · rw [Team.thread?_modThreads _ _ (fun th => { th with run := .exited, endH := h }) fun _ => rfl, hth]
    simp [Team.thread?_tid hth]
  · split_ifs
    · simp
    · exact free ‹_›

/-! ## Threads sent to targets of their own -/

theorem Team.thread?_go_not {t : Team} {tid : Nat} {th : Thread} (hth : t.thread? tid = some th) (free : th.meet = 0) (now : Nat)
    {ts : List (Nat × Nat)} (h : ∀ x ∈ ts, x.1 ≠ tid) :
    (ts.foldl (fun t x => t.arrive now x.2 [x.1]) t).thread? tid = some th := by
  induction ts generalizing t with
  | nil => exact hth
  | cons x r ih =>
    refine ih ?_ fun y hy => h y (List.mem_cons_of_mem _ hy)
    rw [Team.thread?_arrive hth free, if_neg (by simpa using (h x List.mem_cons_self).symm)]

theorem Team.thread?_go {t : Team} {tid : Nat} {th : Thread} (hth : t.thread? tid = some th) (free : th.meet = 0) (now : Nat)
    {ts : List (Nat × Nat)} (distinct : (ts.map (·.1)).Pairwise (· < ·)) {x : Nat × Nat} (hx : x ∈ ts) (own : x.1 = tid) :
    (ts.foldl (fun t x => t.arrive now x.2 [x.1]) t).thread? tid = some { th with pc := x.2, run := .runnable, age := now } := by
  induction ts generalizing t with
  | nil => cases hx
  | cons y r ih =>
    rw [List.map_cons, List.pairwise_cons] at distinct
    obtain ⟨first, rest⟩ := distinct
    rcases List.mem_cons.1 hx with rfl | hx
    · refine Team.thread?_go_not (t := t.arrive now x.2 [x.1]) (th := { th with pc := x.2, run := .runnable, age := now }) ?_ free now fun z hz => ?_
      · rw [Team.thread?_arrive hth free, if_pos (by simp [own])]
      · exact own ▸ (Nat.ne_of_lt (first z.1 (List.mem_map_of_mem hz))).symm
    · refine ih ?_ rest hx
      have : y.1 < tid := own ▸ first x.1 (List.mem_map_of_mem hx)
      rw [Team.thread?_arrive hth free, if_neg (by simp; omega)]

theorem Team.SameControl.go (t : Team) (now : Nat) (ts : List (Nat × Nat)) : t.SameControl (ts.foldl (fun t x => t.arrive now x.2 [x.1]) t) := by
  have fold (b : Team) (hb : t.SameControl b) : t.SameControl (ts.foldl (fun t x => t.arrive now x.2 [x.1]) b) := by
    induction ts generalizing b with
    | nil => exact hb
    | cons x r ih => exact ih _ (hb.trans ⟨rfl, rfl, rfl⟩)
  exact fold t (.refl t)

/-! ## The entries of CLEND, R34 -/

/-- What an entry puts in flight: its registers, under a flag that is set, unless an instruction of the clause wrote them under it. -/
def Grp.flies (g : Grp) (c : Clause) (e : ClendEntry) (r : Spec) (f : Fin 12) : Prop :=
  ClendEntry.flag e c.hdr = some f ∧ g.flag f ≠ 0 ∧ (r, f.val) ∉ c.writers ∧ r ∈ entryRegs e

theorem Grp.mem_flyEntries (g : Grp) (c : Clause) (es : List ClendEntry) (r : Spec) (f : Fin 12) :
    (r, f) ∈ (g.flyEntries c es).flight ↔ (r, f) ∈ g.flight ∨ ∃ e ∈ es, g.flies c e r f := by
  unfold Grp.flyEntries
  dsimp only
  generalize g.flight = fl
  induction es generalizing fl with
  | nil => simp
  | cons e rest ih =>
    rw [List.foldl_cons, ih]
    have one : (r, f) ∈ (match ClendEntry.flag e c.hdr with
        | some f => if g.flag f = 0 then fl
          else fl ++ ((entryRegs e).filter fun r => !fl.contains (r, f) && !c.writers.contains (r, f.val)).map fun r => (r, f)
        | none => fl) ↔ (r, f) ∈ fl ∨ g.flies c e r f := by
      unfold Grp.flies
      cases ClendEntry.flag e c.hdr with
      | none => simp
      | some f' =>
        by_cases clear : g.flag f' = 0
        · have : f' = f → g.flag f = 0 := fun e => e ▸ clear
          simp only [clear, if_true, Option.some.injEq]
          tauto
        · by_cases same : f' = f
          · subst same
            simp [clear]
            tauto
          · simp [clear, same]
    refine (or_congr one Iff.rfl).trans ?_
    rw [List.exists_mem_cons_iff]
    tauto

/-! ## The end of a clause, R24, R29 -/

/-- The view that CLEND's terminal instruction acts in, and the state. -/
def View.ended (v : View) (es : List ClendEntry) : View := { v with cl := { v.cl with flown := v.grp.flown v.cl es } }
def Grp.endedBy (g : Grp) (v : View) (es : List ClendEntry) : Grp :=
  { g.flyEntries (v.ended es).cl es with clause := none, youngest := v.cl.hdr.yld, endedAt := v.s.sched.steps, waited := [] }
def View.endedState (v : View) (es : List ClendEntry) : State := v.s.modGrp v.iss (·.endedBy v es)
def View.endedTeam (v : View) (es : List ClendEntry) : Team := v.team.modGrp v.iss.recno (·.endedBy v es)

@[simp] theorem View.endedState_sched (v : View) (es : List ClendEntry) : (v.endedState es).sched = v.s.sched := State.modGrp_sched ..
@[simp] theorem View.endedState_clock (v : View) (es : List ClendEntry) : (v.endedState es).clock = v.s.clock := State.modGrp_clock ..
@[simp] theorem View.endedState_mem (v : View) (es : List ClendEntry) : (v.endedState es).mem = v.s.mem := State.modGrp_mem ..

theorem View.endClause_eq (v : View) (es : List ClendEntry) :
    v.endClause es = (((v.ended es).terminal (v.endedState es)).modTeam v.iss.team fun t =>
      if t.ending.isSome then t else t.settle v.s.sched.steps).settleGangs v.iss.team := rfl

theorem Grp.endedBy_clause (g : Grp) (v : View) (es : List ClendEntry) : (g.endedBy v es).clause = none := rfl

theorem View.endedTeam_grp? {v : View} (hg : v.team.grp? v.iss.recno = some v.grp) (es : List ClendEntry) :
    (v.endedTeam es).grp? v.iss.recno = some (v.grp.endedBy v es) := by
  rw [View.endedTeam, Team.grp?_modGrp_same _ _ (fun g => g.endedBy v es) (fun _ => rfl), hg]; rfl

theorem View.endedTeam_mq {v : View} (none : ∀ g ∈ v.team.grps, g.mq = []) (es : List ClendEntry) : ∀ g ∈ (v.endedTeam es).grps, g.mq = [] := by
  intro g hg
  obtain ⟨x, hx, rfl⟩ := List.mem_map.1 hg
  split_ifs
  · exact none x hx
  · exact none x hx

/-- A team without matrix commands has no gang to fail. -/
theorem State.settleGangs_none {s : State} {r : TeamRef} {t : Team} (ht : s.team? r = some t) (none : ∀ g ∈ t.grps, g.mq = []) : s.settleGangs r = s := by
  have heads : t.deadHeads = [] := by
    refine List.filterMap_eq_nil_iff.2 fun g hg => ?_
    simp [Grp.gangHead, none g hg]
  simp [State.settleGangs, ht, heads, State.gangFault]

theorem exec_clend {s : State} {v : View} {es : List ClendEntry} (h : Claim.Issues s v (.clend es) {}) :
    exec (.clend es) s = .next (v.endClause es) := by
  obtain ⟨hv, bound, flight, flag⟩ := h
  show execClend es s = _
  rw [execClend, hv]
  dsimp only
  rw [View.run_body _ bound flight flag]

/-- What the end of a clause leaves, when its terminal instruction leaves a team that runs, with no meeting set and no matrix command. -/
theorem exec_clend_after {s s2 : State} {v : View} {es : List ClendEntry} {b : Team} (h : Claim.Issues s v (.clend es) {})
    (terminal : (v.ended es).terminal (v.endedState es) = s2) (hb : s2.team? v.iss.team = some b) (runs : b.ending = none) (msets : b.msets = [])
    (mq : ∀ g ∈ b.grps, g.mq = []) :
    ∃ t, exec (.clend es) s = .next t ∧ Claim.OnlyTeam s2 t v.iss.team ∧ t.team? v.iss.team = some b := by
  have settled : (s2.modTeam v.iss.team fun t => if t.ending.isSome then t else t.settle v.s.sched.steps).team? v.iss.team = some b := by
    rw [State.team?_modTeam_same, hb]
    simp [runs, Team.settle_none msets]
  refine ⟨_, exec_clend h, ?_, ?_⟩
  · rw [View.endClause_eq, terminal, State.settleGangs_none settled mq]
    exact ⟨State.modTeam_eq .., fun k hk => State.modTeam_find_other _ _ _ hk⟩
  · rw [View.endClause_eq, terminal, State.settleGangs_none settled mq, settled]

/-- As `exec_clend_after` for a terminal instruction that changes the team alone and keeps its control. -/
theorem exec_clend_team {s : State} {v : View} {es : List ClendEntry} {F : Team → Team} (h : Claim.Issues s v (.clend es) {})
    (runs : v.team.ending = none) (msets : v.team.msets = []) (mq : ∀ g ∈ v.team.grps, g.mq = [])
    (terminal : (v.ended es).terminal (v.endedState es) = (v.endedState es).modTeam v.iss.team F)
    (same : (v.endedTeam es).SameControl (F (v.endedTeam es))) :
    ∃ t, exec (.clend es) s = .next t ∧ Claim.OnlyTeam s t v.iss.team ∧ t.team? v.iss.team = some (F (v.endedTeam es)) := by
  obtain ⟨hs, -, ht, hg, -⟩ := State.view?_spec h.1
  have whole : (v.endedState es).modTeam v.iss.team F = s.modTeam v.iss.team fun t => F (t.modGrp v.iss.recno (·.endedBy v es)) := by
    rw [View.endedState, hs]
    exact s.modTeam_modTeam v.iss.team _ F
  have team : ((v.endedState es).modTeam v.iss.team F).team? v.iss.team = some (F (v.endedTeam es)) := by
    rw [whole, State.team?_modTeam_same, ht]; rfl
  obtain ⟨t, next, ⟨rest, others⟩, reads⟩ := exec_clend_after h terminal team (same.ending.trans runs) (same.msets.trans msets)
    (same.mq (View.endedTeam_mq mq es))
  refine ⟨t, next, ⟨?_, fun k hk => ?_⟩, reads⟩
  · rw [rest, whole, State.modTeam_eq]
  · rw [others k hk, whole, State.modTeam_find_other _ _ _ hk]

/-- Of the issuing record the end leaves no clause, and in flight what the entries put there. -/
theorem View.endedTeam_record {v : View} {es : List ClendEntry} {b : Team} (hg : v.team.grp? v.iss.recno = some v.grp)
    (same : (v.endedTeam es).SameControl b) :
    ∃ g, b.grp? v.iss.recno = some g ∧ g.clause = none ∧
      ∀ r f, (r, f) ∈ g.flight ↔ (r, f) ∈ v.grp.flight ∨ (v.grp.flag f ≠ 0 ∧ (r, f.val) ∉ v.cl.writers ∧
        ∃ e ∈ es, ClendEntry.flag e v.cl.hdr = some f ∧ r ∈ entryRegs e) := by
  obtain ⟨g, hb, clause, flight⟩ := same.grp? (View.endedTeam_grp? hg es)
  refine ⟨g, hb, clause, fun r f => ?_⟩
  rw [flight]
  refine (v.grp.mem_flyEntries (v.ended es).cl es r f).trans (or_congr Iff.rfl ⟨?_, ?_⟩)
  · rintro ⟨e, he, bound, set, unwritten, own⟩
    exact ⟨set, unwritten, e, he, bound, own⟩
  · rintro ⟨set, unwritten, e, he, bound, own⟩
    exact ⟨e, he, bound, set, unwritten, own⟩

/-! ### The threads present -/

theorem View.present_eq {s : State} {v : View} (h : s.view? = some v) : v.present = v.team.threads.filter fun th => v.cl.issue.contains th.tid := by
  obtain ⟨i, -, hv⟩ := Option.bind_eq_some_iff.mp h
  unfold View.of at hv
  split at hv
  · cases hv
  · split at hv
    · cases hv
    · split at hv
      · cases hv
      · cases hv; rfl

theorem View.present_spec {s : State} {v : View} (h : s.view? = some v) (ordered : Safety.ordered v.team = true) {th : Thread} (hth : th ∈ v.present) :
    v.team.thread? th.tid = some th ∧ th.tid ∈ v.cl.issue := by
  rw [View.present_eq h, List.mem_filter] at hth
  exact ⟨Team.thread?_of_mem ordered hth.1, by simpa using hth.2⟩

theorem Clause.mem_others {c : Clause} {tid : Nat} (h : tid ∈ c.issue) (tids : List Nat) : tid ∈ c.others tids ↔ tid ∉ tids := by
  simp [Clause.others, h]

/-- A present thread that the terminal instruction does not name goes on at the following header. -/
theorem Team.thread?_rest {t : Team} {c : Clause} {th : Thread} (hth : t.thread? th.tid = some th) (present : th.tid ∈ c.issue) (free : th.meet = 0)
    (now h : Nat) (tids : List Nat) : (t.arrive now h (c.others tids)).thread? th.tid =
      some (if th.tid ∈ tids then th else { th with pc := h, run := .runnable, age := now }) := by
  rw [Team.thread?_arrive hth free]
  simp only [Clause.mem_others present, ite_not]

/-! ## What each terminal instruction does to its team -/

/-- The threads of SLEEP or YIELD go on last, and every other keeps its age. -/
def View.yielded (v : View) (now : Nat) (tids : List Nat) (t : Team) : Team :=
  ((t.modThreads (fun th => (v.cl.others tids).contains th.tid) fun th => { t.arrive1 now v.following th with age := th.age }).arrive
    now v.following tids).modGrp v.iss.recno fun g => { g with youngest := true }

theorem Team.SameControl.thenGrp {a b : Team} (h : a.SameControl b) (n : Nat) (f : Grp → Grp) (hf : ∀ g, (f g).control = g.control) :
    a.SameControl (b.modGrp n f) := h.trans (.modGrp b n f hf)

theorem View.yielded_control (v : View) (now : Nat) (tids : List Nat) (t : Team) : t.SameControl (v.yielded now tids t) := by
  unfold View.yielded
  refine Team.SameControl.thenGrp ?_ _ _ ?_
  · exact ⟨rfl, rfl, rfl⟩
  · intro g; rfl

theorem View.thread?_yielded {v : View} {t : Team} {th : Thread} (hth : t.thread? th.tid = some th) (present : th.tid ∈ v.cl.issue)
    (free : th.meet = 0) (now : Nat) (tids : List Nat) :
    ∃ age, (v.yielded now tids t).thread? th.tid = some { th with pc := v.following, run := .runnable, age := age } := by
  let f (th : Thread) : Thread := { t.arrive1 now v.following th with age := th.age }
  have hf (th : Thread) : (f th).tid = th.tid := t.arrive1_tid now v.following th
  by_cases named : th.tid ∈ tids
  · have kept : (t.modThreads (fun th => (v.cl.others tids).contains th.tid) f).thread? th.tid = some th :=
      Team.thread?_modThreads_of_not hf hth (by simp [Clause.mem_others present, named])
    exact ⟨now, (Team.thread?_arrive kept free now v.following tids).trans (by rw [if_pos named])⟩
  · have moved : (t.modThreads (fun th => (v.cl.others tids).contains th.tid) f).thread? th.tid =
        some { th with pc := v.following, run := .runnable } := by
      rw [Team.thread?_modThreads_of hf hth (by simp [Clause.mem_others present, named])]
      simp only [f, Team.arrive1_free t now v.following free]
    exact ⟨th.age, (Team.thread?_arrive (th := { th with pc := v.following, run := .runnable }) moved free now v.following tids).trans (by rw [if_neg named])⟩

/-- YIELD, and a SLEEP that is over: with no thread named every one goes on. -/
def View.yields (v : View) (now : Nat) (tids : List Nat) (t : Team) : Team :=
  if tids.isEmpty then t.arrive now v.following (v.cl.others []) else v.yielded now tids t

theorem View.yields_control (v : View) (now : Nat) (tids : List Nat) (t : Team) : t.SameControl (v.yields now tids t) := by
  unfold View.yields
  split_ifs
  · exact ⟨rfl, rfl, rfl⟩
  · exact v.yielded_control now tids t

theorem View.thread?_yields {v : View} {t : Team} {th : Thread} (hth : t.thread? th.tid = some th) (present : th.tid ∈ v.cl.issue)
    (free : th.meet = 0) (now : Nat) (tids : List Nat) :
    ∃ age, (v.yields now tids t).thread? th.tid = some { th with pc := v.following, run := .runnable, age := age } := by
  unfold View.yields
  split_ifs
  · exact ⟨now, (Team.thread?_rest hth present free now v.following []).trans (by simp)⟩
  · exact View.thread?_yielded hth present free now tids

/-- YIELD's terminal instruction, or that of a SLEEP whose time has come. -/
theorem View.terminal_yields {v : View} {s : State} {tids : List Nat}
    (h : v.cl.term = some (.yield tids) ∨ ∃ wake ≤ s.clock.time, v.cl.term = some (.sleep wake tids)) :
    v.terminal s = s.modTeam v.iss.team (v.yields s.sched.steps tids) := by
  unfold View.yields
  rcases h with h | ⟨wake, due, h⟩
  all_goals
    cases tids
    · simp only [View.terminal, List.isEmpty_nil, if_true, *]
    · simp only [View.terminal, List.isEmpty_cons, State.modTeam_modGrp, *]; rfl

/-- A claim that comes first and fits is granted. -/
theorem Team.grant_one {t : Team} {n id m : Nat} {w : List Nat} {saved : Option TrapRec} (first : t.grants = [(n, id)])
    (claims : (t.grp? n).bind (·.waits.find id) = some ⟨w, .claim m, saved⟩) (room : m ≤ t.pool) (now : Nat) :
    t.grant now = (({ t with pool := t.pool - m, grants := [] } : Team).modGrp n fun g => { g with h := g.h + m }).endWait now n id := by
  unfold Team.grant
  rw [first]
  simp only [List.length_singleton, Team.grantN, first, claims, room, if_true]

theorem Team.pool_endWait {t : Team} (none : t.msets = []) (now n id : Nat) : (t.endWait now n id).pool = t.pool := by
  unfold Team.endWait Team.wakeThreads
  rw [Team.settle_none (t := (t.modGrp n _).modThreads _ _) none]
  rfl

/-- REGRP's threads wait at the header, each with its key, and the record marks its wait there. -/
def View.regrouped (v : View) (now : Nat) (keys : List (Nat × Nat)) (t : Team) : Team :=
  ((t.arrive now v.following (v.cl.others (keys.map (·.1)))).suspend v.following (.regrp v.following) (keys.map (·.1))).modThreads
    (fun th => (keys.map (·.1)).contains th.tid) fun th => { th with key := ((keys.find? (·.1 == th.tid)).map (·.2)).getD 0, keyed := true }

theorem View.regrouped_grp? (v : View) (now : Nat) (keys : List (Nat × Nat)) (t : Team) (n : Nat) : (v.regrouped now keys t).grp? n = t.grp? n := rfl

def Grp.marked (g : Grp) (h now : Nat) : Grp := if g.marks.any (·.head == h) then g else { g with marks := g.marks ++ [⟨h, now⟩] }

theorem Grp.marked_control (g : Grp) (h now : Nat) : (g.marked h now).control = g.control := by
  unfold Grp.marked; split_ifs <;> rfl

theorem Grp.marked_recno (g : Grp) (h now : Nat) : (g.marked h now).recno = g.recno := by
  unfold Grp.marked; split_ifs <;> rfl

theorem Grp.marked_head (g : Grp) (h now : Nat) : ∃ m ∈ (g.marked h now).marks, m.head = h := by
  unfold Grp.marked
  split_ifs with already
  · simpa using already
  · exact ⟨⟨h, now⟩, List.mem_append_right _ (List.mem_singleton_self _), rfl⟩

theorem View.thread?_regrouped {v : View} {t : Team} {th : Thread} (hth : t.thread? th.tid = some th) (present : th.tid ∈ v.cl.issue)
    (free : th.meet = 0) (now : Nat) (keys : List (Nat × Nat)) :
    (v.regrouped now keys t).thread? th.tid = some (match keys.find? (·.1 == th.tid) with
      | some x => { th with pc := v.following, run := .suspended (.regrp v.following), key := x.2, keyed := true }
      | none => { th with pc := v.following, run := .runnable, age := now }) := by
  have rested := Team.thread?_rest hth present free now v.following (keys.map (·.1))
  refine (Team.thread?_modThreads _ _ _ (by intro; rfl) _).trans ?_
  cases found : keys.find? (·.1 == th.tid) with
  | none =>
    have away : th.tid ∉ keys.map (·.1) := fun named => by
      obtain ⟨x, hx, own⟩ := List.mem_map.1 named
      exact List.find?_eq_none.1 found x hx (by simp [own])
    rw [if_neg away] at rested
    rw [Team.thread?_suspend (th := { th with pc := v.following, run := .runnable, age := now }) rested, if_neg away]
    simp only [Option.map_some, List.contains_iff_mem, away, if_false]
  | some x =>
    have named : th.tid ∈ keys.map (·.1) := by
      have own : x.1 = th.tid := by simpa using List.find?_some found
      exact own ▸ List.mem_map_of_mem (List.mem_of_find?_eq_some found)
    rw [if_pos named] at rested
    rw [Team.thread?_suspend rested, if_pos named]
    simp [named, found]

/-- A thread of the wait that ends goes on where it was to. -/
theorem Team.thread?_endWait {t : Team} (none : t.msets = []) {tid : Nat} {th : Thread} (hth : t.thread? tid = some th) {n id : Nat}
    (own : th.recno = n) (waits : th.run = .suspended (.wait id)) (free : th.meet = 0) (now : Nat) :
    (t.endWait now n id).thread? tid = some { th with run := .runnable, age := now } :=
  Team.thread?_wakeThreads_of (t := t.modGrp n fun g => { g with waits := g.waits.del id }) none hth (by simp [own, waits]) free now

/-- RCLAIM's wait: the claim joins the queue, and those that come first and fit are granted. -/
def View.queued (v : View) (now n : Nat) (tids : List Nat) (t : Team) : Team :=
  let t := (t.arrive now v.following (v.cl.others tids)).startWait v.following v.iss.recno now (.claim n) tids none
  { t with grants := t.grants ++ [(v.iss.recno, now)] }

def View.claims (v : View) (now n : Nat) (tids : List Nat) (t : Team) : Team := (v.queued now n tids t).grant now

theorem View.queued_control (v : View) (now n : Nat) (tids : List Nat) (t : Team) : t.SameControl (v.queued now n tids t) := by
  have waits : t.SameControl ((t.arrive now v.following (v.cl.others tids)).startWait v.following v.iss.recno now (.claim n) tids none) :=
    .trans (b := t.arrive now v.following (v.cl.others tids)) ⟨rfl, rfl, rfl⟩ (.startWait ..)
  exact waits.trans (.grants _ t.pool (t.grants ++ [(v.iss.recno, now)]))

theorem View.queued_grants (v : View) (now n : Nat) (tids : List Nat) (t : Team) : (v.queued now n tids t).grants = t.grants ++ [(v.iss.recno, now)] := rfl
theorem View.queued_pool (v : View) (now n : Nat) (tids : List Nat) (t : Team) : (v.queued now n tids t).pool = t.pool := rfl

theorem View.queued_grp? {v : View} {t : Team} {g : Grp} (hg : t.grp? v.iss.recno = some g) (now n : Nat) (tids : List Nat) :
    (v.queued now n tids t).grp? v.iss.recno = some { g with waits := g.waits.put now ⟨tids, .claim n, none⟩ } :=
  (Team.grp?_modGrp_same (t.arrive now v.following (v.cl.others tids)) v.iss.recno
    (fun g => { g with waits := g.waits.put now ⟨tids, .claim n, none⟩ }) fun _ => rfl).trans (congrArg _ hg)

theorem View.queued_thread? {v : View} {t : Team} {th : Thread} (hth : t.thread? th.tid = some th) (present : th.tid ∈ v.cl.issue)
    (free : th.meet = 0) {tids : List Nat} (named : th.tid ∈ tids) (now n : Nat) :
    (v.queued now n tids t).thread? th.tid = some { th with pc := v.following, run := .suspended (.wait now) } := by
  have rested := Team.thread?_rest hth present free now v.following tids
  rw [if_pos named] at rested
  refine (Team.thread?_suspend (t := (t.arrive now v.following (v.cl.others tids)).modGrp v.iss.recno _) rested v.following (.wait now) tids).trans ?_
  rw [if_pos named]

theorem View.claims_control {t : Team} (none : t.msets = []) (v : View) (now n : Nat) (tids : List Nat) : t.SameControl (v.claims now n tids t) :=
  (v.queued_control now n tids t).trans (.grantN _ now ((v.queued_control now n tids t).msets.trans none))

theorem Team.tids_modThreads (t : Team) (p : Thread → Bool) (f : Thread → Thread) (hf : ∀ th, (f th).tid = th.tid) :
    (t.modThreads p f).threads.map (·.tid) = t.threads.map (·.tid) := by
  simp only [Team.modThreads, List.map_map]
  refine List.map_congr_left fun th _ => ?_
  by_cases h : p th = true <;> simp [h, hf]

theorem Team.tids_endWait {t : Team} (none : t.msets = []) (now n id : Nat) : (t.endWait now n id).threads.map (·.tid) = t.threads.map (·.tid) := by
  unfold Team.endWait Team.wakeThreads
  rw [Team.settle_none (t := (t.modGrp n _).modThreads _ _) none]
  exact Team.tids_modThreads (t.modGrp n _) _ _ fun th => Team.arrive1_tid ..

theorem Team.tids_grantN (k now : Nat) {t : Team} (none : t.msets = []) : (t.grantN k now).threads.map (·.tid) = t.threads.map (·.tid) := by
  induction k generalizing t with
  | zero => rfl
  | succ k ih =>
    unfold Team.grantN
    split
    case h_1 => rfl
    case h_2 n id rest _ =>
      split
      case h_1 m _ _ =>
        split_ifs
        · have granted := (SameControl.grants t (t.pool - m) rest).thenGrp n (fun g => { g with h := g.h + m }) fun _ => rfl
          have noSets := granted.msets.trans none
          exact (ih ((SameControl.endWait noSets now n id).msets.trans noSets)).trans (Team.tids_endWait noSets now n id)
        · rfl
      case h_2 => exact ih (t := { t with grants := rest }) none

theorem Team.thread?_of_tids {a b : Team} (h : b.threads.map (·.tid) = a.threads.map (·.tid)) {tid : Nat} {th : Thread} (hth : a.thread? tid = some th) :
    ∃ th', b.thread? tid = some th' := by
  have listed : tid ∈ b.threads.map (·.tid) := by
    rw [h, ← Team.thread?_tid hth]
    exact List.mem_map_of_mem (List.mem_of_find?_eq_some hth)
  obtain ⟨x, hx, own⟩ := List.mem_map.1 listed
  exact Option.isSome_iff_exists.1 (List.find?_isSome.2 ⟨x, hx, by simp [own]⟩)

/-- RCLAIM ends no thread. -/
theorem View.claims_thread? {v : View} {t : Team} (none : t.msets = []) {th : Thread} (hth : t.thread? th.tid = some th)
    (now n : Nat) (tids : List Nat) : ∃ th', (v.claims now n tids t).thread? th.tid = some th' := by
  refine Team.thread?_of_tids ?_ hth
  refine (Team.tids_grantN _ now ((v.queued_control now n tids t).msets.trans none)).trans ?_
  refine (Team.tids_modThreads ((t.arrive now v.following (v.cl.others tids)).modGrp v.iss.recno _) _ _ ?_).trans ?_
  · intro th; rfl
  · exact Team.tids_modThreads t _ _ fun th => Team.arrive1_tid ..

/-- Where no claim waits before it and the blocks suffice, RCLAIM's threads go on with their blocks. -/
theorem View.claims_granted {v : View} {t : Team} {g : Grp} (none : t.msets = []) (first : t.grants = []) (hg : t.grp? v.iss.recno = some g)
    {n : Nat} (room : n ≤ t.pool) (now : Nat) (tids : List Nat) :
    (v.claims now n tids t).pool = t.pool - n ∧
      ∀ th, t.thread? th.tid = some th → th.tid ∈ v.cl.issue → th.tid ∈ tids → th.recno = v.iss.recno → th.meet = 0 →
        (v.claims now n tids t).thread? th.tid = some { th with pc := v.following, run := .runnable, age := now } := by
  have claims := Team.grant_one (t := v.queued now n tids t) (n := v.iss.recno) (id := now) (m := n) (w := tids) (saved := .none)
    (by rw [View.queued_grants, first]; rfl) (by rw [View.queued_grp? hg]; exact Tab.find_put_same ..) (by rwa [View.queued_pool]) now
  rw [View.queued_pool] at claims
  have granted := (Team.SameControl.grants (v.queued now n tids t) (t.pool - n) []).thenGrp v.iss.recno (fun g => { g with h := g.h + n }) fun _ => rfl
  have noSets := granted.msets.trans ((v.queued_control now n tids t).msets.trans none)
  unfold View.claims
  rw [claims]
  refine ⟨Team.pool_endWait noSets .., fun th hth present named own free => ?_⟩
  exact Team.thread?_endWait noSets (th := { th with pc := v.following, run := .suspended (.wait now) })
    (View.queued_thread? hth present free named now n) own rfl free now

/-- CWAIT's wait: what has arrived is observed, and otherwise its threads are suspended. -/
def View.awaitsChunks (v : View) (now trk : Nat) (m : W64) (tids : List Nat) (t : Team) : Team :=
  let t := t.arrive now v.following (v.cl.others tids)
  if (t.tracker trk).covers m then (t.observeChunks v.iss.recno trk m).arrive now v.following tids
  else t.startWait v.following v.iss.recno now (.chunks trk m) tids none

theorem Team.observeChunks_control {a b : Team} (h : a.SameControl b) (n trk : Nat) (m : W64) : a.SameControl (b.observeChunks n trk m) :=
  h.thenGrp n (fun g => { g with seen := g.seen ++ ((b.tracker trk).wrote.filter fun x => m.getLsbD x.1).map fun x => (x.2, some x.1) }) fun _ => rfl

theorem View.awaitsChunks_control (v : View) (now trk : Nat) (m : W64) (tids : List Nat) (t : Team) : t.SameControl (v.awaitsChunks now trk m tids t) := by
  have rest : t.SameControl (t.arrive now v.following (v.cl.others tids)) := ⟨rfl, rfl, rfl⟩
  unfold View.awaitsChunks
  dsimp only
  split_ifs
  · exact (Team.observeChunks_control rest v.iss.recno trk m).trans ⟨rfl, rfl, rfl⟩
  · exact rest.trans (.startWait ..)

theorem View.awaitsChunks_thread? {v : View} {t : Team} {th : Thread} (hth : t.thread? th.tid = some th) (present : th.tid ∈ v.cl.issue)
    (free : th.meet = 0) (now trk : Nat) (m : W64) (tids : List Nat) :
    (v.awaitsChunks now trk m tids t).thread? th.tid = some (
      if (t.tracker trk).covers m = false ∧ th.tid ∈ tids then { th with pc := v.following, run := .suspended (.wait now) }
      else { th with pc := v.following, run := .runnable, age := now }) := by
  have rested := Team.thread?_rest hth present free now v.following tids
  have tracker : (t.arrive now v.following (v.cl.others tids)).tracker trk = t.tracker trk := rfl
  unfold View.awaitsChunks
  dsimp only
  rw [tracker]
  cases (t.tracker trk).covers m with
  | true =>
    refine (Team.thread?_arrive (t := (t.arrive now v.following (v.cl.others tids)).observeChunks v.iss.recno trk m) rested ?_ now
      v.following tids).trans ?_
    · split_ifs <;> exact free
    · split_ifs <;> simp_all
  | false =>
    refine (Team.thread?_suspend (t := (t.arrive now v.following (v.cl.others tids)).modGrp v.iss.recno _) rested v.following (.wait now) tids).trans ?_
    split_ifs <;> simp_all

/-! ## CLEND ends its clause, by the terminal instruction that it captured -/

/-- Targets listed by rising %tid give each thread one. -/
theorem target_unique {ts : List (Nat × Nat)} (rising : (ts.map (·.1)).Pairwise (· < ·)) {x y : Nat × Nat} (hx : x ∈ ts) (hy : y ∈ ts)
    (own : x.1 = y.1) : x = y := by
  have distinct : (ts.map (·.1)).Nodup := rising.imp Nat.ne_of_lt
  exact List.inj_on_of_nodup_map distinct hx hy own

/-- A clause whose end is looked at: its team runs in order, with no meeting set and no matrix command. -/
structure Claim.Ending (s : State) (v : View) (es : List ClendEntry) : Prop where
  issues : Claim.Issues s v (.clend es) {}
  ordered : Safety.ordered v.team = true
  runs : v.team.ending = none
  msets : v.team.msets = []
  free : ∀ th ∈ v.present, th.meet = 0
  mq : ∀ g ∈ v.team.grps, g.mq = []

/-- The clause has ended, and its threads stand where its terminal instruction sends them. -/
def Claim.Ended (s : State) (v : View) (es : List ClendEntry) : Prop :=
  ∃ t b g, exec (.clend es) s = .next t ∧ Claim.OnlyTeam s t v.iss.team ∧ t.team? v.iss.team = some b ∧
    b.grp? v.iss.recno = some g ∧ g.clause = none ∧
    (∀ r f, (r, f) ∈ g.flight ↔ (r, f) ∈ v.grp.flight ∨ (v.grp.flag f ≠ 0 ∧ (r, f.val) ∉ v.cl.writers ∧
      ∃ e ∈ es, ClendEntry.flag e v.cl.hdr = some f ∧ r ∈ entryRegs e)) ∧
    ∀ th ∈ v.present, ∃ th', b.thread? th.tid = some th' ∧ Claim.afterClend v b th th'

section
variable {s : State} {v : View} {es : List ClendEntry} (end_ : Claim.Ending s v es)
include end_

theorem Claim.Ending.grp? : v.team.grp? v.iss.recno = some v.grp := by
  obtain ⟨-, -, -, hg, -⟩ := State.view?_spec end_.issues.1
  exact hg

theorem Claim.Ending.noSets : (v.endedTeam es).msets = [] := end_.msets

/-- It is enough to say what the terminal instruction does to the team, and where that leaves the threads. -/
theorem Claim.Ending.ended {F : Team → Team} (terminal : (v.ended es).terminal (v.endedState es) = (v.endedState es).modTeam v.iss.team F)
    (same : (v.endedTeam es).SameControl (F (v.endedTeam es)))
    (threads : ∀ th, (v.endedTeam es).thread? th.tid = some th → th.tid ∈ v.cl.issue → th.meet = 0 →
      ∃ th', (F (v.endedTeam es)).thread? th.tid = some th' ∧ Claim.afterClend v (F (v.endedTeam es)) th th') : Claim.Ended s v es := by
  obtain ⟨t, next, only, team⟩ := exec_clend_team end_.issues end_.runs end_.msets end_.mq terminal same
  obtain ⟨g, grp, clause, flight⟩ := View.endedTeam_record end_.grp? same
  refine ⟨t, _, g, next, only, team, grp, clause, flight, fun th hth => ?_⟩
  obtain ⟨own, present⟩ := View.present_spec end_.issues.1 end_.ordered hth
  exact threads th own present (end_.free th hth)

theorem Claim.Ending.ended_none (term : v.cl.term = none) : Claim.Ended s v es := by
  refine end_.ended (F := fun t => t.arrive v.s.sched.steps v.following (v.cl.others [])) ?_ ⟨rfl, rfl, rfl⟩ fun th own present free => ?_
  · simp only [View.terminal, show (v.ended es).cl.term = none from term, View.endedState_sched]; rfl
  · refine ⟨_, Team.thread?_rest own present free _ _ _, ?_⟩
    simp [Claim.afterClend, term]

theorem Claim.Ending.ended_go {ts : List (Nat × Nat)} (term : v.cl.term = some (.go ts)) (rising : (ts.map (·.1)).Pairwise (· < ·)) :
    Claim.Ended s v es := by
  have rest : (v.endedTeam es).SameControl ((v.endedTeam es).arrive v.s.sched.steps v.following (v.cl.others (ts.map (·.1)))) := ⟨rfl, rfl, rfl⟩
  refine end_.ended (F := fun t => ts.foldl (fun t x => t.arrive v.s.sched.steps x.2 [x.1]) (t.arrive v.s.sched.steps v.following
    (v.cl.others (ts.map (·.1))))) ?_ (rest.trans (.go _ _ ts)) fun th own present free => ?_
  · simp only [View.terminal, show (v.ended es).cl.term = _ from term, View.endedState_sched, State.modTeam_modTeam]; rfl
  · have rested := Team.thread?_rest own present free v.s.sched.steps v.following (ts.map (·.1))
    by_cases named : th.tid ∈ ts.map (·.1)
    · obtain ⟨x, hx, hown⟩ := List.mem_map.1 named
      rw [if_pos named] at rested
      refine ⟨_, Team.thread?_go rested free _ rising hx hown, ?_⟩
      simp only [Claim.afterClend, term]
      refine ⟨fun y hy e => ?_, fun away => absurd hown (away x hx)⟩
      rw [target_unique rising hx hy (hown.trans e.symm)]
    · rw [if_neg named] at rested
      refine ⟨_, Team.thread?_go_not rested free _ fun x hx hown => named (hown ▸ List.mem_map_of_mem hx), ?_⟩
      simp only [Claim.afterClend, term]
      exact ⟨fun y hy e => absurd (e ▸ List.mem_map_of_mem hy) named, fun _ => trivial⟩

theorem Claim.Ending.ended_exit {tids : List Nat} (term : v.cl.term = some (.exit tids)) : Claim.Ended s v es := by
  have rest : (v.endedTeam es).SameControl ((v.endedTeam es).arrive v.s.sched.steps v.following (v.cl.others tids)) := ⟨rfl, rfl, rfl⟩
  have noSets := rest.msets.trans end_.noSets
  refine end_.ended (F := fun t => (t.arrive v.s.sched.steps v.following (v.cl.others tids)).endThreads v.s.sched.steps v.grp.h tids)
    ?_ (rest.trans (.endThreads noSets _ _ _)) fun th own present free => ?_
  · simp only [View.terminal, show (v.ended es).cl.term = _ from term, View.endedState_sched, State.modTeam_modTeam]; rfl
  · have rested := Team.thread?_rest own present free v.s.sched.steps v.following tids
    refine ⟨_, Team.thread?_endThreads noSets rested _ _ tids fun away b => by simp [away], ?_⟩
    simp only [Claim.afterClend, term]
    split_ifs <;> rfl

theorem Claim.Ending.ended_bar {b : Nat} {tids : List Nat} (term : v.cl.term = some (.bar b tids)) : Claim.Ended s v es := by
  refine end_.ended (F := fun t => (t.arrive v.s.sched.steps v.following (v.cl.others (tids.filter (v.team.barPending b)))).suspend v.following
    (.bar b) (tids.filter (v.team.barPending b))) ?_ ⟨rfl, rfl, rfl⟩ fun th own present free => ?_
  · simp only [View.terminal, show (v.ended es).cl.term = _ from term, View.endedState_sched, State.modTeam_modTeam]; rfl
  · have rested := Team.thread?_rest own present free v.s.sched.steps v.following (tids.filter (v.team.barPending b))
    refine ⟨_, Team.thread?_suspend rested .., ?_⟩
    simp only [Claim.afterClend, term, List.mem_filter]
    split_ifs <;> rfl

theorem Claim.Ending.ended_regrp {keys : List (Nat × Nat)} (term : v.cl.term = some (.regrp keys)) : Claim.Ended s v es := by
  have moved : (v.endedTeam es).SameControl (v.regrouped v.s.sched.steps keys (v.endedTeam es)) := ⟨rfl, rfl, rfl⟩
  cases keys with
  | nil =>
    refine end_.ended (F := v.regrouped v.s.sched.steps []) ?_ moved fun th own present free => ?_
    · simp only [View.terminal, show (v.ended es).cl.term = _ from term, View.endedState_sched, State.modTeam_modTeam]; rfl
    · refine ⟨_, View.thread?_regrouped own present free _ _, ?_⟩
      simp only [Claim.afterClend, term, List.find?_nil]
  | cons key keys =>
    refine end_.ended (F := fun t => (v.regrouped v.s.sched.steps (key :: keys) t).modGrp v.iss.recno (·.marked v.following v.s.clock.time)) ?_
      (moved.thenGrp _ _ fun g => g.marked_control ..) fun th own present free => ?_
    · simp only [View.terminal, show (v.ended es).cl.term = _ from term, View.endedState_sched, State.modTeam_modTeam, State.modTeam_modGrp,
        State.modTeam_clock, View.endedState_clock]; rfl
    · have stands := View.thread?_regrouped own present free v.s.sched.steps (key :: keys)
      cases found : (key :: keys).find? (·.1 == th.tid) with
      | none =>
        rw [found] at stands
        refine ⟨_, stands, ?_⟩
        simp only [Claim.afterClend, term, found]
      | some x =>
        rw [found] at stands
        refine ⟨_, stands, ?_⟩
        simp only [Claim.afterClend, term, found, true_and]
        refine ⟨_, ?_, Grp.marked_head (v.grp.endedBy v es) v.following v.s.clock.time⟩
        refine (Team.grp?_modGrp_same _ _ (·.marked v.following v.s.clock.time) fun g => g.marked_recno ..).trans ?_
        rw [View.regrouped_grp?, View.endedTeam_grp? end_.grp? es]
        rfl

theorem Claim.Ending.ended_yield {tids : List Nat} (term : v.cl.term = some (.yield tids)) : Claim.Ended s v es := by
  refine end_.ended (F := v.yields v.s.sched.steps tids) ?_ (v.yields_control ..) fun th own present free => ?_
  · rw [View.terminal_yields (v := v.ended es) (tids := tids) (.inl term), View.endedState_sched]; rfl
  · obtain ⟨age, stands⟩ := View.thread?_yields own present free v.s.sched.steps tids
    refine ⟨_, stands, ?_⟩
    simp only [Claim.afterClend, term]

theorem Claim.Ending.ended_sleep {wake : Nat} {tids : List Nat} (term : v.cl.term = some (.sleep wake tids)) : Claim.Ended s v es := by
  by_cases due : wake ≤ v.s.clock.time
  · refine end_.ended (F := v.yields v.s.sched.steps tids) ?_ (v.yields_control ..) fun th own present free => ?_
    · rw [View.terminal_yields (v := v.ended es) (tids := tids) (.inr ⟨wake, by rwa [View.endedState_clock], term⟩), View.endedState_sched]; rfl
    · obtain ⟨age, stands⟩ := View.thread?_yields own present free v.s.sched.steps tids
      refine ⟨_, stands, ?_⟩
      simp only [Claim.afterClend, term, Nat.not_lt.2 due, and_false, if_false]
  · refine end_.ended (F := fun t => (t.arrive v.s.sched.steps v.following (v.cl.others tids)).suspend v.following (.sleep wake) tids) ?_
      ⟨rfl, rfl, rfl⟩ fun th own present free => ?_
    · simp only [View.terminal, show (v.ended es).cl.term = _ from term, View.endedState_sched, View.endedState_clock, due, if_false,
        State.modTeam_modTeam]; rfl
    · have rested := Team.thread?_rest own present free v.s.sched.steps v.following tids
      refine ⟨_, Team.thread?_suspend rested .., ?_⟩
      simp only [Claim.afterClend, term, Nat.not_le.1 due, and_true]
      split_ifs <;> rfl

/-- A wait that no thread is active for starts none. -/
theorem Claim.Ending.ended_wait_nil {k : WaitKind} (term : v.cl.term = some (.wait k [])) : Claim.Ended s v es := by
  refine end_.ended (F := fun t => t.arrive v.s.sched.steps v.following (v.cl.others [])) ?_ ⟨rfl, rfl, rfl⟩ fun th own present free => ?_
  · simp only [View.terminal, show (v.ended es).cl.term = _ from term, View.endedState_sched]; rfl
  · refine ⟨_, Team.thread?_rest own present free _ _ _, ?_⟩
    cases k <;> simp [Claim.afterClend, term]

theorem Claim.Ending.ended_claim {n tid : Nat} {tids : List Nat} (term : v.cl.term = some (.wait (.claim n) (tid :: tids))) : Claim.Ended s v es := by
  refine end_.ended (F := v.claims v.s.sched.steps n (tid :: tids)) ?_ (View.claims_control end_.noSets v _ n _) fun th own present free => ?_
  · simp only [View.terminal, show (v.ended es).cl.term = _ from term, View.startWait, State.modTeam_sched, View.endedState_sched,
      State.modTeam_modTeam]; rfl
  · by_cases fits : v.team.grants = [] ∧ n ≤ v.team.pool ∧ th.tid ∈ tid :: tids ∧ th.recno = v.iss.recno
    · obtain ⟨first, room, named, recno⟩ := fits
      obtain ⟨pool, threads⟩ := View.claims_granted (v := v) end_.noSets first (View.endedTeam_grp? end_.grp? es) room v.s.sched.steps (tid :: tids)
      refine ⟨_, threads th own present named recno free, ?_⟩
      simp only [Claim.afterClend, term, pool]
      exact fun _ _ _ _ _ => ⟨trivial, (Nat.sub_add_cancel room).symm⟩
    · obtain ⟨th', reads⟩ := View.claims_thread? (v := v) end_.noSets own v.s.sched.steps n (tid :: tids)
      refine ⟨th', reads, ?_⟩
      simp only [Claim.afterClend, term]
      exact fun first room named _ recno => absurd ⟨first, room, named, recno⟩ fits

theorem Claim.Ending.ended_chunks {trk tid : Nat} {m : W64} {tids : List Nat} (term : v.cl.term = some (.wait (.chunks trk m) (tid :: tids))) :
    Claim.Ended s v es := by
  refine end_.ended (F := v.awaitsChunks v.s.sched.steps trk m (tid :: tids)) ?_ (v.awaitsChunks_control ..) fun th own present free => ?_
  · simp only [View.terminal, show (v.ended es).cl.term = _ from term, View.startWait, State.modTeam_sched, View.endedState_sched,
      State.modTeam_modTeam]; rfl
  · refine ⟨_, View.awaitsChunks_thread? own present free .., ?_⟩
    simp only [Claim.afterClend, term]
    intro missing _
    have missing' : ((v.endedTeam es).tracker trk).covers m = false := missing
    simp only [missing', true_and]
    split_ifs <;> rfl
end

/-- Settles O17: by the terminal instruction that the clause captured. -/
theorem clendEndsTheClause : Obligations.ClendEndsTheClause := by
  intro s v es issues ordered runs msets free mq scope
  have end_ : Claim.Ending s v es := ⟨issues, ordered, runs, msets, free, mq⟩
  show Claim.Ended s v es
  cases term : v.cl.term with
  | none => exact end_.ended_none term
  | some T =>
    rw [term] at scope
    cases T with
    | go ts => exact end_.ended_go term scope
    | exit tids => exact end_.ended_exit term
    | bar b tids => exact end_.ended_bar term
    | regrp keys => exact end_.ended_regrp term
    | sleep wake tids => exact end_.ended_sleep term
    | yield tids => exact end_.ended_yield term
    | wait k tids =>
      cases tids with
      | nil => exact end_.ended_wait_nil term
      | cons tid tids =>
        cases k with
        | claim n => exact end_.ended_claim term
        | chunks trk m => exact end_.ended_chunks term
        | monitor | promise | pop | fab | guest => exact scope.elim
    | waita | resume => exact scope.elim

end Sys2Proof.Machine
end

section
/-! Waits and RESUME at CLEND: the table of a record's waits. -/
namespace Sys2Proof.Machine

/-! ## A record that lists two waits under one number -/

/-- A clause of one thread that ends with a CPROM that asks for no chunk. -/
def promClause : Clause := ⟨0x10000, { len := 2 }, 3, [0], List.replicate 3 ⟨0, []⟩, [], [], some (.wait (.promise 0 0 0) [0]), false, false, []⟩
/-- Two waits under the step's own number. -/
def promGrp : Grp := { Grp.start 0 0 0 with clause := some promClause, waits := [(0, ⟨[], .claim 0, none⟩), (0, ⟨[], .claim 1, none⟩)] }
def promTeam : Team := { Team.fresh 0 ⟨0, 0⟩ 0 (.launch 1) KHdr.placed with grps := [promGrp], threads := [Thread.start 0 0x10000 0] }
def promState : State := { State.reset with teams := [(0, promTeam)], sched := { State.reset.sched with cur := some ⟨⟨0, 0⟩, 0⟩ } }
def promView : View := ⟨promState, ⟨⟨0, 0⟩, 0⟩, promTeam, promGrp, promClause, [Thread.start 0 0x10000 0]⟩

theorem promState_issues : Claim.Issues promState promView (.clend []) {} := by
  refine ⟨rfl, ?_, ?_, ?_⟩ <;> decide

/-- What the record of the group holds under a number after a step. -/
def waitAfter (n : Nat) : Host.Outcome State Fault Refusal → Option Waiting
  | .next t => (t.grp? ⟨⟨0, 0⟩, 0⟩).bind (·.waits.find n)
  | _ => none

/-- The CPROM's wait ends, and the second of the two is still listed. -/
theorem waitAfter_clend : waitAfter 0 (exec (.clend []) promState) = some ⟨[], .claim 1, none⟩ := by decide +kernel

/-- Refutes O42 by its clause on CPROM: a wait is deleted where it first stands, and no hypothesis keeps the record's table from listing
a second one under the number of this step. -/
theorem not_waitsAndResumesActAtClend : ¬ Obligations.WaitsAndResumesActAtClend := by
  rintro ⟨-, promise, -⟩
  obtain ⟨t, b, g, ht, -, hb, hg, -, -, -, -, covered, -⟩ := promise promState promView [] 0 0 0 [0] promState_issues (by decide) rfl rfl rfl
    (by decide) (by decide) rfl (by decide) (by decide) (fun h => absurd rfl h.1)
  obtain ⟨-, -, ended⟩ := covered (by decide) (by decide)
  have listed := waitAfter_clend
  have grp : t.grp? ⟨⟨0, 0⟩, 0⟩ = some g := by
    show (t.team? ⟨0, 0⟩).bind (·.grp? 0) = some g
    rw [show t.team? ⟨0, 0⟩ = some b from hb]
    exact hg
  rw [ht, waitAfter, grp] at listed
  exact absurd (listed.symm.trans ended) (by decide)

end Sys2Proof.Machine
end

section
/-! What a fault leaves: a team that monitors the line of its fault ring. -/
namespace Sys2Proof.Machine

/-! ## A team that monitors the line of its partition's fault ring -/

/-- The rings of partition 0: its faults at 0x1000 of the host, its status records at 0x100000. -/
def ringPart : Part := { State.reset.part 0 with frbase := 0x1000, sqbase := 0x100000, sqcfg := 4 }
def watchClause : Clause := ⟨0x10000, { len := 2 }, 1, [0], List.replicate 3 ⟨0, []⟩, [], [], none, false, false, []⟩
/-- Thread 0 is in the clause; thread 1 waits, by WAITA, for a write to the line where the next fault record goes. -/
def watchGrp : Grp := { Grp.start 0 0 0 with
  clause := some watchClause, waits := [(7, ⟨[1], .monitor (.s 5) (hostPa 0x1000 / 128) true false 0 0, none⟩)] }
def watchTeam : Team := { Team.fresh 0 ⟨0, 0⟩ 0 (.launch 1) KHdr.placed with
  frep := true, grps := [watchGrp], threads := [Thread.start 0 0x10000 0, { Thread.start 0 0x10000 1 with run := .suspended (.wait 7) }] }
def watchState : State := { State.reset with
  teams := [(0, watchTeam)], parts := modNth (fun _ => ringPart) State.reset.parts 0, sched := { State.reset.sched with cur := some ⟨⟨0, 0⟩, 0⟩ } }
def watchView : View := ⟨watchState, ⟨⟨0, 0⟩, 0⟩, watchTeam, watchGrp, watchClause, [Thread.start 0 0x10000 0]⟩

theorem watchTeam_canReport : Claim.canReport watchState watchTeam := by
  refine ⟨rfl, rfl, rfl, rfl, rfl, .inl rfl, ?_, rfl, rfl, rfl, rfl, ?_, ?_, .inl ?_⟩ <;> decide

/-- The scalar registers of the group after the fault. -/
def scalarsAfter (s : State) : Option (Tab W64) := (s.grp? ⟨⟨0, 0⟩, 0⟩).map (·.s)

/-- The fault's own record wakes the waiting thread, and s5 takes WAITA's result. -/
theorem scalarsAfter_raise : scalarsAfter (watchState.raise watchView {} { code := .illOp }) = some [(5, 1)] := by decide +kernel

/-- Refutes O54 by its clause on what a fault leaves: fw3 writes its record to memory, and a group of the faulting team that monitors that
line by WAITA (R218) wakes and takes its result, so that the team's registers are not as before. No hypothesis rules such a wait out where
no handler takes the fault. -/
theorem not_checksPrecedeEffects : ¬ Obligations.ChecksPrecedeEffects := by
  rintro ⟨-, -, leaves⟩
  obtain ⟨tid, -, report, -⟩ := leaves watchState watchView {} { code := .illOp } rfl rfl rfl nofun nofun nofun nofun rfl rfl
  have unhandled : ¬ Claim.toHandler watchView .illOp := fun h => by simpa using h.1
  obtain ⟨-, b, hb, -, kept⟩ := report unhandled watchTeam_canReport
  obtain ⟨g, hg, regs⟩ := kept 0 watchGrp rfl
  have written := scalarsAfter_raise
  have reads : scalarsAfter (watchState.raise watchView {} { code := .illOp }) = some g.s := by
    show (((watchState.raise watchView {} { code := .illOp }).team? ⟨0, 0⟩).bind (·.grp? 0)).map (·.s) = some g.s
    rw [show (watchState.raise watchView {} { code := .illOp }).team? ⟨0, 0⟩ = some b from hb, Option.bind_some, show b.grp? 0 = some g from hg]
    rfl
  rw [reads, regs] at written
  exact absurd written (by decide)

end Sys2Proof.Machine
end

section
/-! A step runs the decoded instruction (R21, R24, R27, R42, R43, R52). -/
namespace Sys2Proof.Machine

/-! ## The passing of time leaves the schedule's agenda

Each function that time's passing may call leaves the schedule as it was; only its clock ticks. -/

theorem foldl_sched {α : Type} (l : List α) {f : State → α → State} (h : ∀ s x, (f s x).sched = s.sched) (s : State) :
    (l.foldl f s).sched = s.sched := by
  induction l generalizing s with
  | nil => rfl
  | cons x r ih => exact (ih (f s x)).trans (h s x)

/-! ### Memory and records -/

@[simp] theorem State.wakeLine_sched (s : State) (line : Nat) : (s.wakeLine line).sched = s.sched := rfl

theorem State.retag_sched (s : State) (g line : Nat) : (s.retag g line).sched = s.sched := by
  unfold State.retag; split_ifs <;> rfl

@[simp] theorem State.physWrite_sched (s : State) (w : Writer) (g pa : Nat) (bs : List Byte) : (s.physWrite w g pa bs).sched = s.sched := by
  unfold State.physWrite
  refine (foldl_sched _ (fun s l => s.wakeLine_sched l) _).trans ?_
  split_ifs
  · exact s.retag_sched g (pa / 128)
  · rfl

@[simp] theorem State.modPart_sched (s : State) (p : Nat) (f : Part → Part) : (s.modPart p f).sched = s.sched := rfl
@[simp] theorem State.hostWrite_sched (s : State) (h : Nat) (bs : List Byte) : (s.hostWrite h bs).sched = s.sched := State.physWrite_sched ..
@[simp] theorem State.irq_sched (s : State) (p n : Nat) : (s.irq p n).sched = s.sched := by unfold State.irq; split_ifs <;> rfl

@[simp] theorem State.putStatus_sched (s : State) (p : Nat) (r : Status) : (s.putStatus p r).sched = s.sched := by
  unfold State.putStatus
  cases r.vec with
  | none => simp
  | some n => simp

@[simp] theorem State.status_sched (s : State) (p type detail id seq launch : Nat) (vec : Option Nat) :
    (s.status p type detail id seq launch vec).sched = s.sched := by
  unfold State.status
  dsimp only
  split_ifs <;> simp

@[simp] theorem State.ringRecord_sched (s : State) (p : Nat) (r : FaultRec) : (s.ringRecord p r).1.sched = s.sched := by
  unfold State.ringRecord
  dsimp only
  split_ifs <;> simp

@[simp] theorem State.faultRecord_sched (s : State) (p seq : Nat) (r : FaultRec) : (s.faultRecord p seq r).1.sched = s.sched := by
  simp [State.faultRecord]

/-! ### Commands, requests and collectives -/

@[simp] theorem State.applyWrites_sched (s : State) (i : Issuer) (ws : List RegWrite) : (s.applyWrites i ws).sched = s.sched := State.modTeam_sched ..
@[simp] theorem State.flagDown_sched (s : State) (i : Issuer) (fl : Option (Fin 12)) (n : Nat) : (s.flagDown i fl n).sched = s.sched := State.modGrp_sched ..
@[simp] theorem State.complete_sched (s : State) (tk : Ticket) (x : Nat) : (s.complete tk x).sched = s.sched := by simp [State.complete]

@[simp] theorem State.settleDrains_sched (s : State) : s.settleDrains.sched = s.sched := by
  refine (foldl_sched _ ?_ _).trans rfl
  intro s d
  simp

@[simp] theorem State.reqGone_sched (s : State) (q : FabReq) (bad : Bool) : (s.reqGone q bad).sched = s.sched := by simp [State.reqGone]

@[simp] theorem State.dropReqs_sched (s : State) (p : FabReq → Bool) : (s.dropReqs p).sched = s.sched := by
  refine foldl_sched _ ?_ s
  intro s q
  exact s.reqGone_sched q false

@[simp] theorem State.beginDiscard_sched (s : State) (r : TeamRef) (why : Ending) : (s.beginDiscard r why).sched = s.sched := by
  unfold State.beginDiscard
  split
  · rfl
  · split_ifs <;> simp

@[simp] theorem State.submit_sched (s : State) (q : FabReq) : (s.submit q).sched = s.sched := rfl

@[simp] theorem State.dropColl_sched (s : State) (part cid status : Nat) (notify : Bool) : (s.dropColl part cid status notify).sched = s.sched := by
  unfold State.dropColl
  split
  · rfl
  · have snaps (s : State) (x : Snap) : (match x.tk with | some tk => s.complete tk 1 | none => s).sched = s.sched := by
      cases x.tk <;> simp
    have teams (l : List Team) (s : State) : (l.foldl (fun s t => s.beginDiscard t.ref .kill) s).sched = s.sched :=
      foldl_sched l (fun s t => s.beginDiscard_sched t.ref .kill) s
    have joins (l : List Ticket) (s : State) : (l.foldl (fun s tk => s.complete tk status) s).sched = s.sched :=
      foldl_sched l (fun s tk => s.complete_sched tk status) s
    dsimp only
    split_ifs
    · refine (foldl_sched _ ?_ _).trans ?_
      · intro s m
        exact s.submit_sched _
      · refine (teams _ _).trans ((foldl_sched _ snaps _).trans ?_)
        exact (joins _ _).trans (State.dropReqs_sched _ _)
    · refine (teams _ _).trans ((foldl_sched _ snaps _).trans ?_)
      exact (joins _ _).trans (State.dropReqs_sched _ _)

/-! ### The end of teams -/

@[simp] theorem State.settleWork_sched (s : State) : s.settleWork.sched = s.sched := by
  have levels : s.settleLevels.sched = s.sched := by
    refine foldl_sched _ ?_ s
    intro s c
    exact State.status_sched ..
  refine (foldl_sched _ ?_ s.settleLevels).trans levels
  intro s d
  rfl

@[simp] theorem State.tryEnd_sched (s : State) (r : TeamRef) : (s.tryEnd r).sched = s.sched := by
  have freed : (s.freeSlot r).sched = s.sched := State.settleWork_sched _
  unfold State.tryEnd
  cases s.team? r with
  | none => rfl
  | some t =>
    dsimp only
    cases s.unfired t with
    | none => split_ifs <;> simp only [freed]
    | some x =>
      have fired : (s.fire x.1 x.2 r none).sched = s.sched := rfl
      dsimp only
      split_ifs <;> simp only [freed, fired]

@[simp] theorem State.settleTeams_sched (s : State) : s.settleTeams.sched = s.sched := 
  foldl_sched _ (fun s (t : Team) => s.tryEnd_sched t.ref) s

@[simp] theorem State.timeoutColl_sched (s : State) (c : Coll) : (s.timeoutColl c).sched = s.sched := by simp [State.timeoutColl]

/-! ### The guest -/

@[simp] theorem State.countCancel_sched (s : State) (q i : Nat) (hit : Bool) : (s.countCancel q i hit).sched = s.sched :=
  foldl_sched _ (fun s (c : GCancel) => s.complete_sched c.tk c.count) _

@[simp] theorem State.wakeGuest_sched (s : State) (q : Nat) : (s.wakeGuest q).sched = s.sched := rfl

@[simp] theorem State.completePacket_sched (s : State) (q status : Nat) : (s.completePacket q status).sched = s.sched := by
  unfold State.completePacket
  split
  · rfl
  · simp

theorem State.loseN_sched (n : Nat) (s : State) (q : Nat) : (State.loseN n s q).sched = s.sched := by
  induction n generalizing s with
  | zero => rfl
  | succ n ih =>
    unfold State.loseN
    split
    · rfl
    · rw [ih, State.completePacket_sched, State.writeCompletion, State.physWrite_sched]

@[simp] theorem State.fence_sched (s : State) (cause : Nat) : (s.fence cause).sched = s.sched := by
  have port (s : State) (p : Nat) : (if s.guest.queues.any (·.part == p) then s.irq p 4 else s).sched = s.sched := by
    split_ifs <;> simp
  unfold State.fence
  split_ifs
  · rfl
  · dsimp only
    rw [State.settleTeams_sched, foldl_sched _ port]
    dsimp only
    rw [foldl_sched _ fun s q => State.loseN_sched _ s q]

@[simp] theorem State.expireWaits_sched (s : State) (time : Nat) : (s.expireWaits time).sched = s.sched := rfl

@[simp] theorem State.expireGuest_sched (s : State) : s.expireGuest.sched = s.sched := by
  unfold State.expireGuest
  split
  · simp
  · rfl

@[simp] theorem State.genmonTime_sched (s : State) : s.genmonTime.sched = s.sched := rfl
@[simp] theorem State.expirePool_sched (s : State) (p : Unmatched → Bool) : (s.expirePool p).sched = s.sched := rfl
@[simp] theorem State.expireRelays_sched (s : State) : s.expireRelays.sched = s.sched := rfl
@[simp] theorem State.expireColls_sched (s : State) : s.expireColls.sched = s.sched := foldl_sched _ (fun s c => s.timeoutColl_sched c) s

/-- Time passes: of the schedule only the step's number and the group that issues change. -/
theorem State.passTime_sched (s : State) : s.passTime.sched = { s.sched with steps := s.sched.steps + 1, cur := none } := by
  unfold State.passTime
  simp only [State.genmonTime_sched, State.expireWaits_sched, State.expireGuest_sched, State.expireRelays_sched, State.expirePool_sched,
    State.expireColls_sched]
  rfl

/-! ## A step performs the head of its agenda -/

theorem step_agenda {s : State} {a : Agendum} {rest : List Agendum} (h : s.sched.agenda = a :: rest) :
    step s = State.close (State.perform (Claim.begun s rest) a) := by
  have agenda : s.passTime.sched.agenda = a :: rest := by rw [State.passTime_sched]; exact h
  simp only [step, agenda, Claim.begun]

/-- An event of the schedule is run as it is, when its agent can act. -/
theorem perform_event {s : State} {i : Instr} (h : encode i = none) :
    s.perform (.event i) = if s.canAct (agentOf i) = true then exec i s else .next s := by
  simp only [State.perform, h, Option.isSome_none, Bool.false_or]
  cases s.canAct (agentOf i) <;> rfl

/-! ### The slot of a group that holds its quadrant -/

theorem issueQuad_holds {s : State} {core quad : Nat} {t : Team} {g : Grp} {v : View} (holds : (s.onQuad core quad).find? (·.2.holds) = some (t, g))
    (free : g.stall = none) (hv : View.of s ⟨t.ref, g.recno⟩ = some v) : s.issueQuad core quad = s.issueSlot v := by
  simp only [State.issueQuad, holds, State.issueOf, hv, free, Option.isSome_none, Bool.false_eq_true, if_false]

section slot
variable {s s2 : State} {v : View} {w : Slot} (slot : s.slotOf v = .inl (w, s2))
include slot

theorem issueSlot_landing {f : FaultInfo} (lands : s2.landingFirst v w = some f) : s.issueSlot v = .next (s.raise v (Raw.ofSlot w).opnds f) := by
  simp only [State.issueSlot, State.slotCheck, slot, lands]

theorem issueSlot_illOp (lands : s2.landingFirst v w = none) (bad : decode w = .error .illOp) :
    s.issueSlot v = .next (s.raise v (Raw.ofSlot w).opnds { code := .illOp }) := by
  simp only [State.issueSlot, State.slotCheck, slot, lands, bad]

theorem issueSlot_illOpnd (lands : s2.landingFirst v w = none) (bad : decode w = .error .illOpnd) (shape : s2.shapeOk v w = true) :
    s.issueSlot v = .next (s.raise v (Raw.ofSlot w).opnds { code := .illOpnd }) := by
  simp only [State.issueSlot, State.slotCheck, slot, lands, bad, shape, if_true]

theorem slotCheck_decoded {i : Instr} (lands : s2.landingFirst v w = none) (good : decode w = .ok i) :
    s.slotCheck v = if !s2.shapeOk v w then .fault { code := .illOp } (Claim.slotFields w i)
      else if !s2.clauseOk v i (Claim.slotFields w i) then .fault { code := .illOpnd } (Claim.slotFields w i) else .instr i s2 := by
  simp only [State.slotCheck, slot, lands, good]
  rfl

/-- A word that decodes and that its clause allows is run for its group. -/
theorem issueSlot_runs {i : Instr} (lands : s2.landingFirst v w = none) (good : decode w = .ok i) (shape : s2.shapeOk v w = true)
    (clause : s2.clauseOk v i (Claim.slotFields w i) = true) : s.issueSlot v = exec i { s2 with sched := { s2.sched with cur := some v.iss } } := by
  simp [State.issueSlot, slotCheck_decoded slot lands good, shape, clause, State.issueFor]

/-- A word that reads what its clause does not allow is refused. -/
theorem issueSlot_unread {i : Instr} (lands : s2.landingFirst v w = none) (good : decode w = .ok i) (shape : s2.shapeOk v w = true)
    {sp : Spec} (reads : sp ∈ sources i (Raw.ofSlot w).opnds) (unread : s2.mayRead v sp = false) :
    s.issueSlot v = .next (s.raise v (Raw.ofSlot w).opnds { code := .illOpnd }) := by
  have word : Claim.slotFields w i = (Raw.ofSlot w).opnds := by
    cases i
    case clend es => cases reads
    all_goals rfl
  have clause : s2.clauseOk v i (Raw.ofSlot w).opnds = false := by
    have : (sources i (Raw.ofSlot w).opnds).all (s2.mayRead v) = false := List.all_eq_false.2 ⟨sp, reads, by simp [unread]⟩
    simp only [State.clauseOk, this, Bool.and_false]
  simp [State.issueSlot, slotCheck_decoded slot lands good, shape, clause, word]
end slot

theorem wordWrites_iff {n : Fin 8} {w : Slot} : wordWrites n w = true ↔ ∃ j, decode w = .ok j ∧ Spec.c n ∈ written j (Raw.ofSlot w).opnds := by
  unfold wordWrites
  cases decode w with
  | error e => simp
  | ok i => simp

/-- A temporary that no earlier word of the clause writes is not read. -/
theorem mayRead_temp {s : State} {v : View} {n : Fin 8} (unwritten : ∀ p, 1 ≤ p → p < v.cl.pos → ¬ Claim.writesTemp s v p n) :
    s.mayRead v (.c n) = false := by
  refine Bool.eq_false_iff.2 fun reads => ?_
  obtain ⟨k, hk, word⟩ := List.any_eq_true.1 reads
  have range : k < v.cl.pos - 1 := List.mem_range.1 hk
  obtain ⟨y, hy, writes⟩ := (Option.any_eq_true _ _).1 word
  obtain ⟨j, decodes, written⟩ := wordWrites_iff.1 writes
  exact unwritten (k + 1) (by omega) (by omega) ⟨y, j, hy, decodes, written⟩

/-- A latch that neither of the two words before fills is not read. -/
theorem mayRead_latch {s : State} {v : View} {n : Fin 3}
    (unfilled : ∀ p, v.cl.pos ≤ p + 2 → 1 ≤ p → p < v.cl.pos → p % 3 = n.val → ¬ Claim.holdsLatch s v p) : s.mayRead v (.l n) = false := by
  refine Bool.eq_false_iff.2 fun reads => ?_
  obtain ⟨k, hk, found⟩ := List.any_eq_true.1 reads
  simp only [Bool.and_eq_true, decide_eq_true_eq, beq_iff_eq] at found
  obtain ⟨⟨below, latch⟩, word⟩ := found
  obtain ⟨y, hy, holds⟩ := (Option.any_eq_true _ _).1 word
  simp only [wordHolds, Bool.and_eq_true, Bool.not_eq_true', bne_iff_ne] at holds
  obtain ⟨⟨header, clend⟩, hold⟩ := holds
  have near : k = 1 ∨ k = 2 := by simpa using hk
  exact unfilled (v.cl.pos - k) (by omega) (by omega) (by omega) latch ⟨y, hy, header, clend, hold⟩

/-! ### The header of a group alone on its quadrant -/

theorem lowest_one (f : Team × Grp → Nat) (x : Team × Grp) : lowest f [x] = [x] := by simp [lowest]

/-- Of one group that is ready, that one starts. -/
theorem nextGroup_one (s : State) (core quad : Nat) (x : Team × Grp) : s.nextGroup core quad [x] = some x := by
  unfold State.nextGroup
  cases due : decide (64 ≤ x.2.passes) <;> cases young : x.2.youngest <;> simp [due, young, lowest_one, State.oneOf]

theorem issueQuad_header {s s2 : State} {core quad pc : Nat} {t : Team} {g : Grp} {w : Slot} {h : Header} (quadrant : s.onQuad core quad = [(t, g)])
    (idle : g.clause = none) (here : g.park = none) (chosen : t.choosePC g.recno = some pc)
    (slot : s.slotAt t.ref.core t.asid pc = .inl (w, s2)) (header : isHeader w = true) (decodes : decode w = .ok (.clauseHeader h))
    (ready : s2.ready t g pc h = true) :
    s.issueQuad core quad = exec (.clauseHeader h) { s2 with sched := { s2.sched with cur := some ⟨t.ref, g.recno⟩ } } := by
  have head : s.headAt t g = .start h s2 := by simp [State.headAt, chosen, slot, header, decodes, ready]
  have holds : [(t, g)].find? (fun x => x.2.holds) = none := by simp [Grp.holds, idle]
  have returns : [(t, g)].filter (fun x => s.returns x.1 x.2) = [] := by simp [State.returns, idle]
  have readies : s.readyOn [(t, g)] = [(t, g)] := by simp [State.readyOn, idle, here, head]
  have passes : s2.passOver [(t, g)] [(t, g)] ⟨t.ref, g.recno⟩ = s2 := by simp [State.passOver]
  simp only [State.issueQuad, quadrant, holds, returns, State.oneOf, readies, nextGroup_one, head, passes, ite_self, State.issueFor]

/-! ### The slot at a clause's position -/

theorem shiftRight_mod (x a b c : Nat) : (x >>> a >>> b) % c = x / 2 ^ a / 2 ^ b % c := by
  rw [Nat.shiftRight_eq_div_pow, Nat.shiftRight_eq_div_pow]

theorem lineReserved_false {x : Nat} (h : x / 2 ^ 480 / 2 ^ 15 % 2 ^ 17 = 0) : lineReserved x = false := by
  rw [← shiftRight_mod] at h
  exact bne_eq_false_iff_eq.2 h

theorem slotIn_good {x : Nat} (h : lineReserved x = false) (pc : Nat) (s : State) :
    slotIn x pc s = .inl (BitVec.ofNat 96 (x / 2 ^ (96 * (pc % 8))), s) := by
  rw [slotIn, h, lineSlot, Nat.shiftRight_eq_div_pow]
  rfl

theorem slotOf_kept {s : State} {v : View} {va : Nat} (line : v.pc / 64 * 64 = va) {x : BitVec 512} (kept : v.cl.lines.find va = some x)
    (good : lineReserved x.toNat = false) : s.slotOf v = .inl (BitVec.ofNat 96 (x.toNat / 2 ^ (96 * (v.pc % 8))), s) := by
  simp only [State.slotOf, line, kept, slotIn_good good]

/-- A line that translation finds, and of which the cache lists no other, is fetched as it stands. -/
theorem fetchLine_stands {s : State} {core asid va : Nat} {l : Leaf} (canon : canonical va = true) (found : s.translate asid va rightX = .ok l)
    (clean : s.poisoned l.pa = false) (other : ∀ e ∈ s.mem.icache, e.core = core → e.asid = asid → e.va ≠ va)
    (parity : lineParity (leNat (s.physRead ⟨none, none⟩ l.gen l.pa 64)) = true) :
    s.fetchLine core asid va = .line (leNat (s.physRead ⟨none, none⟩ l.gen l.pa 64)) { s with mem := { s.mem with
      icache := s.mem.icache ++ [⟨core, asid, va, leBytes 64 (leNat (s.physRead ⟨none, none⟩ l.gen l.pa 64))⟩] } } := by
  have lists (e : ILine) (he : e ∈ s.mem.icache) : (e.core == core && e.asid == asid && e.va == va) = false := by
    have := other e he
    simpa using this
  have none_ : s.mem.icache.find? (fun e => e.core == core && e.asid == asid && e.va == va) = none :=
    List.find?_eq_none.2 fun e he => by simp [lists e he]
  have all : s.mem.icache.filter (fun e => !(e.core == core && e.asid == asid && e.va == va)) = s.mem.icache :=
    List.filter_eq_self.2 fun e he => by simp [lists e he]
  simp only [State.fetchLine, canon, found, none_, clean, all, lineNat, parity, Option.any_none]
  rfl

/-- The clause keeps a line that it has fetched. -/
def Grp.keepsLine (g : Grp) (va x : Nat) : Grp := { g with clause := g.clause.map fun c => { c with lines := c.lines.put va (BitVec.ofNat 512 x) } }

theorem slotOf_fetched {s s1 : State} {v : View} {g : Grp} {c : Clause} {va x : Nat} (line : v.pc / 64 * 64 = va) (unkept : v.cl.lines.find va = none)
    (hg : s.grp? v.iss = some g) (hc : g.clause = some c) {mem : Mem} (only : s1 = { s with mem := mem })
    (fetched : s.fetchLine v.iss.team.core v.team.asid va = .line x s1) (good : lineReserved x = false) :
    ∃ s2, s.slotOf v = .inl (BitVec.ofNat 96 (x / 2 ^ (96 * (v.pc % 8))), s2) ∧ s2 = { s with teams := s2.teams, mem := mem } ∧
      (∀ k, k ≠ slotKey v.iss.team → s2.teams.find k = s.teams.find k) ∧
      s2.grp? v.iss = some { g with clause := some { c with lines := c.lines.put va (BitVec.ofNat 512 x) } } := by
  subst only
  obtain ⟨t, ht, hgt⟩ := Option.bind_eq_some_iff.1 hg
  refine ⟨({ s with mem := mem } : State).modGrp v.iss (·.keepsLine va x), ?_, State.modTeam_eq .., fun k hk => State.modTeam_find_other _ _ _ hk, ?_⟩
  · simp only [State.slotOf, line, unkept, fetched]
    exact slotIn_good good _ _
  · have team := State.modGrp_team? (s := { s with mem := mem }) ht (·.keepsLine va x)
    simp only [State.grp?, team, Option.bind_some]
    rw [Team.grp?_modGrp_same _ _ (·.keepsLine va x) (fun _ => rfl), hgt, Option.map_some, Grp.keepsLine, hc]
    rfl

/-- Settles O55: the step is the head of the agenda, once time has passed, and the slot's checks are taken case by case. -/
theorem aStepRunsTheDecodedInstruction : Obligations.AStepRunsTheDecodedInstruction := by
  refine ⟨?_, ?_, ?_, ?_⟩
  · intro s core quad rest t g v w s2 agenda s1 raises holds free hv slot
    have issues := issueQuad_holds holds free hv
    have stepped (o : Host.Outcome State Fault Refusal) (h : s1.issueSlot v = o) : step s = State.close o := by
      rw [step_agenda agenda]
      exact congrArg State.close (issues.trans h)
    refine ⟨fun f lands => stepped _ (issueSlot_landing slot lands), fun lands => ⟨fun i good shape clause => ?_, fun bad => ?_, fun bad shape => ?_,
      fun i n good _ shape reads unwritten => ?_, fun i n good _ shape reads unfilled => ?_⟩⟩
    · exact stepped _ (issueSlot_runs slot lands good shape clause)
    · exact stepped _ (issueSlot_illOp slot lands bad)
    · exact stepped _ (issueSlot_illOpnd slot lands bad shape)
    · exact stepped _ (issueSlot_unread slot lands good shape reads (mayRead_temp unwritten))
    · exact stepped _ (issueSlot_unread slot lands good shape reads (mayRead_latch unfilled))
  · intro s core quad rest t g pc w s2 h agenda s1 quadrant idle here chosen slot header decodes ready
    have run := issueQuad_header quadrant idle here chosen slot header decodes ready
    rw [step_agenda agenda]
    exact congrArg State.close run
  · intro s i rest agenda unencoded
    rw [step_agenda agenda, perform_event unencoded]
  · intro s v va
    have line : v.pc / 64 * 64 = va := rfl
    clear_value va
    refine ⟨fun x kept good => slotOf_kept line kept (lineReserved_false good), ?_⟩
    intro l g c unkept hg hc canon found clean other x parity good
    have fetched := fetchLine_stands canon found clean other parity
    exact slotOf_fetched line unkept hg hc rfl fetched (lineReserved_false good)

end Sys2Proof.Machine
end

section
/-! Headers: what one waits for, which ready group starts next, and what the start of its clause does. -/
namespace Sys2Proof.Machine

/-! ## What a header waits for, R27, R75, R264 -/

theorem nth_mem {α : Type} (d : α) {xs : List α} {n : Nat} (h : n < xs.length) : nth d xs n ∈ xs := by
  rw [nth_eq_getD, List.getD_eq_getElem _ _ h]
  exact List.getElem_mem h

theorem Grp.clear_iff {g : Grp} (len : g.flags.length = 12) : g.clear = true ↔ ∀ f : Fin 12, g.flag f = 0 := by
  unfold Grp.clear Grp.flag
  rw [List.all_eq_true]
  constructor
  · intro all f
    exact beq_iff_eq.1 (all _ (nth_mem 0 (by omega)))
  · intro all x hx
    obtain ⟨n, hn, rfl⟩ := List.getElem_of_mem hx
    have := all ⟨n, len ▸ hn⟩
    rw [nth_eq_getD, List.getD_eq_getElem _ _ hn] at this
    exact beq_iff_eq.2 this

theorem Grp.waitClear_iff (g : Grp) (w : BitVec 12) : g.waitClear w = true ↔ ∀ f : Fin 12, w.getLsbD f.val = true → g.flag f = 0 := by
  unfold Grp.waitClear Grp.flag
  rw [List.all_eq_true]
  constructor
  · intro all f named
    have clear := all f.val (List.mem_range.2 f.isLt)
    rw [named] at clear
    exact beq_iff_eq.1 clear
  · intro all n hn
    cases named : w.getLsbD n with
    | false => rfl
    | true => simpa using all ⟨n, List.mem_range.1 hn⟩ named

theorem matrixCount_eq (s : State) (core asid head len : Nat) :
    s.matrixCount core asid head len = (List.range len).countP fun p => (s.peek core asid (slotAddr head (p + 1))).any fun w =>
      decide (0x201 ≤ (Raw.ofSlot w).op.toNat ∧ (Raw.ofSlot w).op.toNat ≤ 0x207) := by
  rw [List.countP_eq_length_filter]
  rfl

theorem State.ready_iff {s : State} {a : Team} {g : Grp} {pc : Nat} {h : Header} (len : g.flags.length = 12) :
    s.ready a g pc h = true ↔ a.ending = none ∧ g.retired = false ∧ g.clause = none ∧ g.park = none ∧ g.stall = none ∧
      (∀ f : Fin 12, h.rgp = true ∨ h.wait.getLsbD f.val = true → g.flag f = 0) ∧ s.matrixNeed a.ref.core a.asid pc h.len.val + g.mq.length ≤ 8 := by
  have flags : (!h.rgp || g.clear) = true ∧ g.waitClear h.wait = true ↔
      ∀ f : Fin 12, h.rgp = true ∨ h.wait.getLsbD f.val = true → g.flag f = 0 := by
    rw [Grp.waitClear_iff]
    cases h.rgp with
    | false => simp
    | true =>
      simp only [Bool.not_true, Bool.false_or, Grp.clear_iff len, true_or, true_imp_iff]
      exact ⟨fun all => all.1, fun all => ⟨all, fun f _ => all f⟩⟩
  simp only [State.ready, Bool.and_eq_true, Option.isNone_iff_eq_none, Bool.not_eq_true', decide_eq_true_eq, ← flags, and_assoc]

/-! ### The chosen PC -/

theorem foldl_min_le_iff {α : Type} (f : α → Nat) (l : List α) (a n : Nat) :
    l.foldl (fun m x => min m (f x)) a ≤ n ↔ a ≤ n ∨ ∃ x ∈ l, f x ≤ n := by
  induction l generalizing a with
  | nil => simp
  | cons x r ih => rw [List.foldl_cons, ih, min_le_iff, List.exists_mem_cons_iff, or_assoc]

/-- The age of a PC is that of its oldest thread. -/
theorem ageAt_le_iff {ths : List Thread} {pc : Nat} (stands : ∃ th ∈ ths, th.pc = pc) (n : Nat) :
    ageAt ths pc ≤ n ↔ ∃ th ∈ ths, th.pc = pc ∧ th.age ≤ n := by
  obtain ⟨u, hu, here⟩ := stands
  obtain ⟨first, hfirst⟩ := Option.isSome_iff_exists.1 (List.find?_isSome.2 ⟨u, hu, beq_iff_eq.2 here⟩ : (ths.find? (·.pc == pc)).isSome)
  have mem : first ∈ ths := List.mem_of_find?_eq_some hfirst
  have stands : first.pc = pc := by simpa using List.find?_some hfirst
  simp only [ageAt, hfirst, Option.elim_some, foldl_min_le_iff, List.mem_filter, beq_iff_eq]
  constructor
  · rintro (le | ⟨x, ⟨hx, hpc⟩, le⟩)
    · exact ⟨first, mem, stands, le⟩
    · exact ⟨x, hx, hpc, le⟩
  · rintro ⟨x, hx, hpc, le⟩
    exact .inr ⟨x, ⟨hx, hpc⟩, le⟩

theorem ageAt_le {ths : List Thread} {th : Thread} (h : th ∈ ths) : ageAt ths th.pc ≤ th.age :=
  (ageAt_le_iff ⟨th, h, rfl⟩ th.age).2 ⟨th, h, rfl, le_rfl⟩

theorem exists_ageAt {ths : List Thread} {pc : Nat} (stands : ∃ th ∈ ths, th.pc = pc) : ∃ th ∈ ths, th.pc = pc ∧ th.age = ageAt ths pc := by
  obtain ⟨th, hth, here, le⟩ := (ageAt_le_iff stands _).1 le_rfl
  exact ⟨th, hth, here, le_antisymm le (here ▸ ageAt_le hth)⟩

/-- p comes before q: it is older, or of equal age and lower. -/
def pcBefore (ths : List Thread) (p q : Nat) : Prop := ageAt ths p < ageAt ths q ∨ (ageAt ths p = ageAt ths q ∧ p ≤ q)

/-- The fold of `Team.choosePC`, from a PC chosen so far. -/
def choosePCFrom (ths l : List Thread) (best : Option Nat) : Option Nat :=
  l.foldl (fun best th =>
    match best with
    | none => some th.pc
    | some p => if ageAt ths th.pc < ageAt ths p ∨ (ageAt ths th.pc = ageAt ths p ∧ th.pc < p) then some th.pc else best) best

theorem pcBefore.trans {ths : List Thread} {p q r : Nat} (h : pcBefore ths p q) (g : pcBefore ths q r) : pcBefore ths p r := by
  unfold pcBefore at *
  omega

theorem pcBefore.of_not {ths : List Thread} {p q : Nat} (h : ¬ (ageAt ths q < ageAt ths p ∨ (ageAt ths q = ageAt ths p ∧ q < p))) : pcBefore ths p q := by
  unfold pcBefore
  omega

theorem pcBefore.of_better {ths : List Thread} {p q : Nat} (h : ageAt ths q < ageAt ths p ∨ (ageAt ths q = ageAt ths p ∧ q < p)) : pcBefore ths q p := by
  unfold pcBefore
  omega

theorem choosePCFrom_some (ths l : List Thread) (p : Nat) :
    ∃ q, choosePCFrom ths l (some p) = some q ∧ (q = p ∨ ∃ th ∈ l, th.pc = q) ∧ pcBefore ths q p ∧ ∀ u ∈ l, pcBefore ths q u.pc := by
  induction l generalizing p with
  | nil => exact ⟨p, rfl, .inl rfl, .inr ⟨rfl, le_rfl⟩, by simp⟩
  | cons x r ih =>
    have head : choosePCFrom ths (x :: r) (some p) =
        choosePCFrom ths r (if ageAt ths x.pc < ageAt ths p ∨ (ageAt ths x.pc = ageAt ths p ∧ x.pc < p) then some x.pc else some p) := rfl
    rw [head]
    split_ifs with better
    · obtain ⟨q, hq, from_, before, rest⟩ := ih x.pc
      refine ⟨q, hq, .inr ?_, ?_, ?_⟩
      · rcases from_ with rfl | ⟨th, hth, here⟩
        · exact ⟨x, List.mem_cons_self, rfl⟩
        · exact ⟨th, List.mem_cons_of_mem _ hth, here⟩
      · exact before.trans (.of_better better)
      · exact List.forall_mem_cons.2 ⟨before, rest⟩
    · obtain ⟨q, hq, from_, before, rest⟩ := ih p
      refine ⟨q, hq, ?_, before, List.forall_mem_cons.2 ⟨?_, rest⟩⟩
      · exact from_.imp_right fun ⟨th, hth, here⟩ => ⟨th, List.mem_cons_of_mem _ hth, here⟩
      · exact before.trans (.of_not better)

/-- The threads that choose a record's PC: the runnable ones that wait for no regrouping. -/
def Team.choosers (a : Team) (n : Nat) : List Thread := (a.runnable n).filter fun th => !a.waitsAt n th.pc

theorem Team.mem_choosers {a : Team} {n : Nat} {th : Thread} : th ∈ a.choosers n ↔
    th ∈ a.threads ∧ th.recno = n ∧ th.run = .runnable ∧ (a.grp? n).any (fun g => g.marks.any (·.head == th.pc)) = false := by
  simp only [Team.choosers, Team.runnable, Team.waitsAt, List.mem_filter, Bool.and_eq_true, beq_iff_eq, Bool.not_eq_true', and_assoc]

theorem Team.choosePC_cases (a : Team) (n : Nat) : (a.choosers n = [] ∧ a.choosePC n = none) ∨
    ∃ p, a.choosePC n = some p ∧ (∃ th ∈ a.choosers n, th.pc = p) ∧ ∀ u ∈ a.choosers n, pcBefore (a.choosers n) p u.pc := by
  have fold : a.choosePC n = choosePCFrom (a.choosers n) (a.choosers n) none := rfl
  rw [fold]
  generalize all : a.choosers n = ths
  cases ths with
  | nil => exact .inl ⟨rfl, rfl⟩
  | cons x r =>
    obtain ⟨q, hq, from_, before, rest⟩ := choosePCFrom_some (x :: r) r x.pc
    refine .inr ⟨q, hq, ?_, List.forall_mem_cons.2 ⟨before, rest⟩⟩
    rcases from_ with rfl | ⟨th, hth, here⟩
    · exact ⟨x, List.mem_cons_self, rfl⟩
    · exact ⟨th, List.mem_cons_of_mem _ hth, here⟩

theorem Team.choosePC_eq_none {a : Team} {n : Nat} : a.choosePC n = none ↔ ∀ u, u ∉ a.choosers n := by
  rcases a.choosePC_cases n with ⟨empty, none_⟩ | ⟨p, some_, ⟨th, hth, -⟩, -⟩
  · simp [empty, none_]
  · simp only [some_, reduceCtorEq, false_iff, not_forall, not_not]
    exact ⟨th, hth⟩

/-- The chosen PC is the oldest, and of equal age the lowest. -/
theorem Team.choosePC_eq_some {a : Team} {n pc : Nat} : a.choosePC n = some pc ↔ (∃ th, th ∈ a.choosers n ∧ th.pc = pc) ∧
    ∀ u, u ∈ a.choosers n → ∃ th, th ∈ a.choosers n ∧ th.pc = pc ∧ (th.age < u.age ∨ (th.age = u.age ∧ pc ≤ u.pc)) := by
  constructor
  · intro chosen
    rcases a.choosePC_cases n with ⟨-, none_⟩ | ⟨p, some_, stands, before⟩
    · rw [none_] at chosen; cases chosen
    · obtain rfl : p = pc := Option.some.inj (some_.symm.trans chosen)
      refine ⟨stands, fun u hu => ?_⟩
      obtain ⟨th, hth, here, oldest⟩ := exists_ageAt stands
      have le := ageAt_le hu
      have first := before u hu
      unfold pcBefore at first
      exact ⟨th, hth, here, by omega⟩
  · rintro ⟨stands, oldest⟩
    rcases a.choosePC_cases n with ⟨empty, -⟩ | ⟨p, some_, stands', before⟩
    · obtain ⟨th, hth, -⟩ := stands
      rw [empty] at hth; cases hth
    · obtain ⟨u, hu, here, age⟩ := exists_ageAt stands
      obtain ⟨u', hu', here', age'⟩ := exists_ageAt stands'
      obtain ⟨th, hth, here2, less⟩ := oldest u' hu'
      have le := ageAt_le hth
      have first := before u hu
      unfold pcBefore at first
      rw [here] at first
      rw [here2] at le
      rw [some_]
      exact congrArg _ (by omega)

theorem headersWaitFor : Claim.HeadersWaitFor := by
  refine ⟨fun s a g pc h len => ?_, fun a n pc => ?_⟩
  · rw [State.ready_iff len, State.matrixNeed, matrixCount_eq]
  · simp only [← Team.mem_choosers]
    exact ⟨Team.choosePC_eq_some, Team.choosePC_eq_none⟩

/-! ## Which ready group starts next, R75 -/

theorem mem_lowest {f : Team × Grp → Nat} {xs : List (Team × Grp)} {x : Team × Grp} : x ∈ lowest f xs ↔ x ∈ xs ∧ ∀ y ∈ xs, f x ≤ f y := by
  simp [lowest]

theorem lowest_ne_nil (f : Team × Grp → Nat) {xs : List (Team × Grp)} (h : xs ≠ []) : lowest f xs ≠ [] := by
  obtain ⟨x, hx⟩ := Option.ne_none_iff_exists'.1 (mt List.argmin_eq_none.1 h : xs.argmin f ≠ none)
  exact List.ne_nil_of_mem (mem_lowest.2 ⟨List.argmin_mem hx, fun _ hy => List.le_of_mem_argmin hy hx⟩)

theorem oneOf_eq_none {s : State} {key : List Nat} {xs : List (Team × Grp)} : s.oneOf key xs = none ↔ xs = [] := by
  rcases xs with - | ⟨x, - | ⟨y, r⟩⟩ <;> simp [State.oneOf]

theorem oneOf_mem {s : State} {key : List Nat} {xs : List (Team × Grp)} {x : Team × Grp} (h : s.oneOf key xs = some x) : x ∈ xs := by
  rcases xs with - | ⟨y, - | ⟨z, r⟩⟩
  · cases h
  · obtain rfl := Option.some.inj h
    exact List.mem_cons_self
  · obtain rfl := Option.some.inj h
    exact nth_mem _ (Nat.mod_lt _ (by simp))

/-- The groups among which the lowest record starts: those passed over 64 times, else those ready first, the yielded last. -/
def State.firstReady (s : State) (ready : List (Team × Grp)) : List (Team × Grp) :=
  let due := ready.filter fun x => decide (64 ≤ x.2.passes)
  let old := ready.filter fun x => !x.2.youngest
  if due.isEmpty then lowest (fun x => s.readySince x.1 x.2) (if old.isEmpty then ready else old) else due

theorem nextGroup_eq (s : State) (core quad : Nat) (ready : List (Team × Grp)) :
    s.nextGroup core quad ready = s.oneOf [23, core, quad] (lowest (·.2.recno) (s.firstReady ready)) := rfl

theorem firstReady_due {s : State} {ready : List (Team × Grp)} (due : ∃ y ∈ ready, 64 ≤ y.2.passes) {x : Team × Grp} :
    x ∈ s.firstReady ready ↔ x ∈ ready ∧ 64 ≤ x.2.passes := by
  obtain ⟨y, hy, passed⟩ := due
  have some_ : (ready.filter fun x => decide (64 ≤ x.2.passes)).isEmpty = false := by
    rw [List.isEmpty_eq_false_iff_exists_mem]
    exact ⟨y, List.mem_filter.2 ⟨hy, decide_eq_true passed⟩⟩
  simp [State.firstReady, some_]

/-- Those that did not yield, if there are any. -/
def unyielded (ready : List (Team × Grp)) : List (Team × Grp) :=
  if (ready.filter fun x => !x.2.youngest).isEmpty then ready else ready.filter fun x => !x.2.youngest

theorem mem_unyielded {ready : List (Team × Grp)} {x : Team × Grp} :
    x ∈ unyielded ready ↔ x ∈ ready ∧ ((∃ y ∈ ready, y.2.youngest = false) → x.2.youngest = false) := by
  unfold unyielded
  split_ifs with none
  · have all : ∀ y ∈ ready, y.2.youngest = true := by simpa using none
    have never : ¬ ∃ y ∈ ready, y.2.youngest = false := fun ⟨y, hy, no⟩ => by simp [all y hy] at no
    simp [never]
  · have some_ : ∃ y ∈ ready, y.2.youngest = false := by simpa using none
    simp [some_]

theorem unyielded_ne_nil {ready : List (Team × Grp)} (h : ready ≠ []) : unyielded ready ≠ [] := by
  unfold unyielded
  split_ifs with none
  · exact h
  · simpa using none

theorem firstReady_of_none_due {s : State} {ready : List (Team × Grp)} (fresh : ∀ y ∈ ready, y.2.passes < 64) :
    s.firstReady ready = lowest (fun x => s.readySince x.1 x.2) (unyielded ready) := by
  have none : (ready.filter fun x => decide (64 ≤ x.2.passes)).isEmpty = true := by simpa using fresh
  simp [State.firstReady, none, unyielded]

theorem firstReady_mem {s : State} {ready : List (Team × Grp)} {x : Team × Grp} (h : x ∈ s.firstReady ready) : x ∈ ready := by
  by_cases due : ∃ y ∈ ready, 64 ≤ y.2.passes
  · exact ((firstReady_due due).1 h).1
  · rw [firstReady_of_none_due (by simpa using due)] at h
    exact (mem_unyielded.1 (mem_lowest.1 h).1).1

theorem firstReady_ne_nil {s : State} {ready : List (Team × Grp)} (h : ready ≠ []) : s.firstReady ready ≠ [] := by
  by_cases due : ∃ y ∈ ready, 64 ≤ y.2.passes
  · obtain ⟨y, hy, passed⟩ := due
    exact List.ne_nil_of_mem ((firstReady_due ⟨y, hy, passed⟩).2 ⟨hy, passed⟩)
  · rw [firstReady_of_none_due (by simpa using due)]
    exact lowest_ne_nil _ (unyielded_ne_nil h)

theorem nextGroup_eq_none {s : State} {core quad : Nat} {ready : List (Team × Grp)} : s.nextGroup core quad ready = none ↔ ready = [] := by
  rw [nextGroup_eq, oneOf_eq_none]
  constructor
  · intro none
    by_contra some_
    exact lowest_ne_nil _ (firstReady_ne_nil some_) none
  · rintro rfl
    rfl

theorem nextGroup_eq_some {s : State} {core quad : Nat} {ready : List (Team × Grp)} {x : Team × Grp} (h : s.nextGroup core quad ready = some x) :
    x ∈ s.firstReady ready ∧ ∀ y ∈ s.firstReady ready, x.2.recno ≤ y.2.recno := mem_lowest.1 (oneOf_mem h)

theorem nextGroup_due {s : State} {core quad : Nat} {ready : List (Team × Grp)} {x : Team × Grp} (h : s.nextGroup core quad ready = some x)
    (due : ∃ y ∈ ready, 64 ≤ y.2.passes) : 64 ≤ x.2.passes ∧ ∀ y ∈ ready, 64 ≤ y.2.passes → x.2.recno ≤ y.2.recno := by
  obtain ⟨first, low⟩ := nextGroup_eq_some h
  exact ⟨((firstReady_due due).1 first).2, fun y hy passed => low y ((firstReady_due due).2 ⟨hy, passed⟩)⟩

theorem nextGroup_first {s : State} {core quad : Nat} {ready : List (Team × Grp)} {x : Team × Grp} (h : s.nextGroup core quad ready = some x)
    (fresh : ∀ y ∈ ready, y.2.passes < 64) : ((∃ y ∈ ready, y.2.youngest = false) → x.2.youngest = false) ∧
      ∀ y ∈ ready, y.2.youngest = x.2.youngest → s.readySince x.1 x.2 < s.readySince y.1 y.2 ∨
        (s.readySince x.1 x.2 = s.readySince y.1 y.2 ∧ x.2.recno ≤ y.2.recno) := by
  obtain ⟨first, low⟩ := nextGroup_eq_some h
  rw [firstReady_of_none_due fresh] at first low
  obtain ⟨among, earliest⟩ := mem_lowest.1 first
  obtain ⟨mem, rank⟩ := mem_unyielded.1 among
  refine ⟨rank, fun y hy same => ?_⟩
  have peer : y ∈ unyielded ready := mem_unyielded.2 ⟨hy, fun some_ => same.trans (rank some_)⟩
  rcases Nat.lt_or_eq_of_le (earliest y peer) with less | equal
  · exact .inl less
  · exact .inr ⟨equal, low y (mem_lowest.2 ⟨peer, fun z hz => equal ▸ earliest z hz⟩)⟩

/-! ### Since when a clause is ready -/

theorem foldl_max_le_iff {α : Type} (f : α → Nat) (l : List α) (a n : Nat) :
    l.foldl (fun m x => max m (f x)) a ≤ n ↔ a ≤ n ∧ ∀ x ∈ l, f x ≤ n := by
  induction l generalizing a with
  | nil => simp
  | cons x r ih => rw [List.foldl_cons, ih, max_le_iff, List.forall_mem_cons, and_assoc]

theorem roomAt_le_iff (g : Grp) (need n : Nat) : g.roomAt need ≤ n ↔ (need ≠ 0 → g.freedAt.getD (8 - need - g.mq.length) 0 ≤ n) := by
  unfold Grp.roomAt
  rw [nth_eq_getD]
  split_ifs with none
  · simp [none]
  · simp [none]

theorem readySince_le_iff {s s1 : State} {a : Team} {g : Grp} {pc : Nat} {h : Header} (chosen : a.choosePC g.recno = some pc)
    (starts : s.headAt a g = .start h s1) (n : Nat) :
    s.readySince a g ≤ n ↔ (∃ th ∈ a.threads, th.recno = g.recno ∧ th.run = .runnable ∧ th.pc = pc ∧ th.age ≤ n) ∧
      g.waited.get 0 pc ≤ n ∧ g.endedAt ≤ n ∧ (∀ f < 12, h.rgp = true ∨ h.wait.getLsbD f = true → g.clearAt.getD f 0 ≤ n) ∧
      (s.matrixNeed a.ref.core a.asid pc h.len.val ≠ 0 →
        g.freedAt.getD (8 - s.matrixNeed a.ref.core a.asid pc h.len.val - g.mq.length) 0 ≤ n) := by
  obtain ⟨⟨u, hu, here⟩, -⟩ := Team.choosePC_eq_some.1 chosen
  have stands : ∃ th ∈ a.runnable g.recno, th.pc = pc := ⟨u, List.mem_of_mem_filter hu, here⟩
  have age : ageAt (a.runnable g.recno) pc ≤ n ↔ ∃ th ∈ a.threads, th.recno = g.recno ∧ th.run = .runnable ∧ th.pc = pc ∧ th.age ≤ n := by
    rw [ageAt_le_iff stands]
    simp only [Team.runnable, List.mem_filter, Bool.and_eq_true, beq_iff_eq, and_assoc]
  have since : s.readySince a g = ((List.range 12).filter fun f => h.rgp || h.wait.getLsbD f).foldl (fun m f => max m (nth 0 g.clearAt f))
      (max (max (max (ageAt (a.runnable g.recno) pc) (g.waited.get 0 pc)) g.endedAt) (g.roomAt (s.matrixNeed a.ref.core a.asid pc h.len.val))) := by
    simp only [State.readySince, starts, chosen, Option.getD_some]
  rw [since, foldl_max_le_iff, max_le_iff, max_le_iff, max_le_iff, age, roomAt_le_iff]
  simp only [List.mem_filter, List.mem_range, Bool.or_eq_true, nth_eq_getD, and_imp]
  tauto

/-! ### What a clause start counts as -/

theorem State.grp?_modGrp (s : State) (i j : Issuer) {f : Grp → Grp} (hf : ∀ g, (f g).recno = g.recno) :
    (s.modGrp j f).grp? i = if slotKey j.team = slotKey i.team ∧ j.recno = i.recno then (s.grp? i).map f else s.grp? i := by
  by_cases slot : slotKey j.team = slotKey i.team
  · have team : (s.modGrp j f).team? i.team = (s.team? i.team).map (·.modGrp j.recno f) := by
      have here := State.team?_modTeam_same s j.team (·.modGrp j.recno f)
      simp only [State.team?, slot] at here ⊢
      exact here
    simp only [State.grp?, team, slot, true_and]
    cases s.team? i.team with
    | none => simp
    | some t =>
      simp only [Option.map_some, Option.bind_some]
      split_ifs with rec
      · rw [← rec, Team.grp?_modGrp_same _ _ _ hf]
      · exact Team.grp?_modGrp_other _ _ _ hf (Ne.symm rec)
  · simp only [State.grp?, State.team?, State.modGrp, State.modTeam_find_other _ _ _ (Ne.symm slot), slot, false_and, if_false]

/-- A ready group as one more start passes it over. -/
def Grp.passed (ready : List (Team × Grp)) (x : Team × Grp) (g : Grp) : Grp :=
  { g with
    youngest := false
    passes := if ready.any (fun y => x.1.ref == y.1.ref && x.2.recno == y.2.recno) then g.passes + 1 else g.passes }

@[simp] theorem Grp.passed_recno (ready : List (Team × Grp)) (x : Team × Grp) (g : Grp) : (g.passed ready x).recno = g.recno := rfl

/-- What the start of i's clause does to one group of the quadrant. -/
def State.passOne (ready : List (Team × Grp)) (i : Issuer) (s : State) (x : Team × Grp) : State :=
  if x.1.ref = i.team ∧ x.2.recno = i.recno then s else s.modGrp ⟨x.1.ref, x.2.recno⟩ (Grp.passed ready x)

theorem passOver_eq (s : State) (all ready : List (Team × Grp)) (i : Issuer) : s.passOver all ready i = all.foldl (State.passOne ready i) s := rfl

theorem grp?_passOne (ready : List (Team × Grp)) (i : Issuer) (s : State) (x : Team × Grp) (k : Issuer) :
    (s.passOne ready i x).grp? k =
    if ¬ (x.1.ref = i.team ∧ x.2.recno = i.recno) ∧ slotKey x.1.ref = slotKey k.team ∧ x.2.recno = k.recno then
      (s.grp? k).map (Grp.passed ready x) else s.grp? k := by
  unfold State.passOne
  split_ifs with own other other
  · exact absurd own other.1
  · rfl
  · rw [State.grp?_modGrp _ _ _ (Grp.passed_recno ready x), if_pos other.2]
  · rw [State.grp?_modGrp _ _ _ (Grp.passed_recno ready x), if_neg fun here => other ⟨own, here⟩]

theorem grp?_passOver_of_not_mem {ready all : List (Team × Grp)} {i k : Issuer} (s : State)
    (absent : (slotKey k.team, k.recno) ∉ all.map fun y => (slotKey y.1.ref, y.2.recno)) : (s.passOver all ready i).grp? k = s.grp? k := by
  rw [passOver_eq]
  induction all generalizing s with
  | nil => rfl
  | cons x r ih =>
    rw [List.map_cons, List.mem_cons, not_or] at absent
    rw [List.foldl_cons, ih _ absent.2, grp?_passOne, if_neg]
    rintro ⟨-, slot, rec⟩
    exact absent.1 (by rw [slot, rec])

theorem grp?_passOver_of_mem {ready all : List (Team × Grp)} {i : Issuer} {x : Team × Grp} (s : State)
    (nodup : (all.map fun y => (slotKey y.1.ref, y.2.recno)).Nodup) (hx : x ∈ all) :
    (s.passOver all ready i).grp? ⟨x.1.ref, x.2.recno⟩ = (s.passOne ready i x).grp? ⟨x.1.ref, x.2.recno⟩ := by
  induction all generalizing s with
  | nil => cases hx
  | cons y r ih =>
    rw [List.map_cons, List.nodup_cons] at nodup
    have head : s.passOver (y :: r) ready i = (s.passOne ready i y).passOver r ready i := rfl
    rw [head]
    rcases List.mem_cons.1 hx with rfl | hx
    · exact grp?_passOver_of_not_mem _ nodup.1
    · have other : ¬ (slotKey y.1.ref = slotKey x.1.ref ∧ y.2.recno = x.2.recno) := fun ⟨slot, rec⟩ =>
        nodup.1 (List.mem_map.2 ⟨x, hx, by rw [slot, rec]⟩)
      rw [ih _ nodup.2 hx, grp?_passOne, grp?_passOne, grp?_passOne, if_neg (c := _ ∧ slotKey y.1.ref = _ ∧ _) fun h => other h.2]

theorem issueSelection : Claim.IssueSelection := by
  refine ⟨fun s core quad ready => ⟨nextGroup_eq_none, fun x next => ?_⟩, ?_, ?_⟩
  · exact ⟨firstReady_mem (nextGroup_eq_some next).1, nextGroup_due next, nextGroup_first next⟩
  · intro s s1 a g pc h chosen starts need n
    exact readySince_le_iff chosen starts n
  · intro s all ready i x a g nodup hx ha hg
    have record : s.grp? ⟨x.1.ref, x.2.recno⟩ = some g := by simp [State.grp?, ha, hg]
    have ranked : Grp.passed ready x g =
        { g with youngest := false, passes := g.passes + (ready.any fun y => y.1.ref == x.1.ref && y.2.recno == x.2.recno).toNat } := by
      have same : (ready.any fun y => x.1.ref == y.1.ref && x.2.recno == y.2.recno) = ready.any fun y => y.1.ref == x.1.ref && y.2.recno == x.2.recno := by
        congr 1
        funext y
        rw [Bool.beq_comm, Bool.beq_comm (a := x.2.recno)]
      unfold Grp.passed
      rw [same]
      cases ready.any fun y => y.1.ref == x.1.ref && y.2.recno == x.2.recno <;> rfl
    rw [grp?_passOver_of_mem s nodup hx, grp?_passOne, record, Option.map_some, ranked]
    by_cases own : x.1.ref = i.team ∧ x.2.recno = i.recno
    · simp [own]
    · simp only [own, not_false_eq_true, and_self, if_true, not_and_or.1 own]

/-! ## What a fetch changes -/

/-- t is s, but for what the cores' instruction caches hold. -/
def State.CacheOnly (s t : State) : Prop := ∃ lines, t = { s with mem := { s.mem with icache := lines } }

theorem State.CacheOnly.refl (s : State) : s.CacheOnly s := ⟨s.mem.icache, rfl⟩

theorem State.CacheOnly.trans {s t u : State} (h : s.CacheOnly t) (g : t.CacheOnly u) : s.CacheOnly u := by
  obtain ⟨_, rfl⟩ := h
  obtain ⟨lines, rfl⟩ := g
  exact ⟨lines, rfl⟩

theorem fetchLine_cacheOnly {s t : State} {core asid va x : Nat} (h : s.fetchLine core asid va = .line x t) : s.CacheOnly t := by
  unfold State.fetchLine at h
  dsimp only at h
  split_ifs at h
  split at h
  case h_1 | h_2 | h_3 | h_4 => cases h
  case h_5 l _ =>
    split_ifs at h
    · rw [← (Fetched.line.inj h).2]
      exact ⟨_, rfl⟩
    · rw [← (Fetched.line.inj h).2]
      exact ⟨_, rfl⟩

/-- One line of a clause is fetched, if it can be. -/
def fetchNext (core asid pc : Nat) (x : State × Tab (BitVec 512)) (k : Nat) : State × Tab (BitVec 512) :=
  match x.1.fetchLine core asid ((pc / 64 * 64 + 64 * k) % 2 ^ 64) with
  | .line l s => (s, x.2.put ((pc / 64 * 64 + 64 * k) % 2 ^ 64) (BitVec.ofNat 512 l))
  | .fault .. => x

theorem fetchNext_cacheOnly (core asid pc : Nat) (x : State × Tab (BitVec 512)) (k : Nat) : x.1.CacheOnly (fetchNext core asid pc x k).1 := by
  unfold fetchNext
  split
  case h_1 fetched => exact fetchLine_cacheOnly fetched
  case h_2 => exact .refl _

theorem fetchClause_eq (s : State) (core asid pc len : Nat) :
    s.fetchClause core asid pc len = (List.range ((pc % 8 + len) / 5 + 1)).foldl (fetchNext core asid pc) (s, []) := rfl

theorem foldl_fetchNext_cacheOnly (core asid pc : Nat) (ks : List Nat) (x : State × Tab (BitVec 512)) :
    x.1.CacheOnly (ks.foldl (fetchNext core asid pc) x).1 := by
  induction ks generalizing x with
  | nil => exact .refl _
  | cons k r ih => exact (fetchNext_cacheOnly core asid pc x k).trans (ih _)

theorem fetchClause_cacheOnly (s : State) (core asid pc len : Nat) : s.CacheOnly (s.fetchClause core asid pc len).1 := by
  rw [fetchClause_eq]
  exact foldl_fetchNext_cacheOnly core asid pc _ (s, [])

/-! ## A team whose gangs can all still be matched -/

theorem Team.deadHeads_eq_nil {t : Team} (live : ∀ g ∈ t.grps, ∀ c, g.gangHead = some c → ∀ n ∈ c.members, (t.grp? n).any (·.retired) = false) :
    t.deadHeads = [] := by
  refine List.filterMap_eq_nil_iff.2 fun g hg => ?_
  rw [Option.map_eq_none_iff, Option.filter_eq_none_iff]
  intro c head dead
  obtain ⟨n, hn, lost⟩ := List.any_eq_true.1 dead
  simp only [Bool.and_eq_true, Bool.or_eq_true, live g hg c head n hn, Bool.false_eq_true, false_or] at lost
  obtain ⟨-, retired, waits⟩ := lost
  obtain ⟨x, hx, names⟩ := (Option.any_eq_true _ _).1 waits
  obtain ⟨y, hy, hyx⟩ := Option.bind_eq_some_iff.1 hx
  have alive := live y (List.mem_of_find?_eq_some hy) x hyx g.recno (List.contains_iff_mem.1 names)
  rw [retired] at alive
  cases alive

/-- A command of one record is no gang. -/
theorem Team.deadHeads_of_single {t : Team} (single : ∀ g ∈ t.grps, ∀ c, g.mq.head? = some c → c.members.length ≤ 1) : t.deadHeads = [] := by
  refine Team.deadHeads_eq_nil fun g hg c head => ?_
  obtain ⟨first, waits⟩ := Option.filter_eq_some_iff.1 head
  have one := single g hg c first
  simp only [MatCmd.awaits, Bool.and_eq_true, decide_eq_true_eq] at waits
  omega

theorem State.settleGangs_of_deadHeads {s : State} {r : TeamRef} {t : Team} (ht : s.team? r = some t) (none : t.deadHeads = []) : s.settleGangs r = s := by
  simp [State.settleGangs, ht, none, State.gangFault]

theorem Team.retired_modGrp (t : Team) (n k : Nat) {f : Grp → Grp} (rec : ∀ g, (f g).recno = g.recno) (same : ∀ g, (f g).retired = g.retired) :
    ((t.modGrp n f).grp? k).any (·.retired) = (t.grp? k).any (·.retired) := by
  by_cases h : k = n
  · subst h
    rw [Team.grp?_modGrp_same _ _ _ rec, Option.any_map]
    simp only [same]
  · rw [Team.grp?_modGrp_other _ _ _ rec h]

/-! ## The start of a clause -/

/-- The threads of a record that are runnable at a PC. -/
def Team.standing (t : Team) (n pc : Nat) : List Thread := t.threads.filter fun th => th.recno == n && th.run == .runnable && th.pc == pc

theorem Team.runnable_at (t : Team) (n pc : Nat) : (t.runnable n).filter (·.pc == pc) = t.standing n pc := by
  rw [Team.runnable, Team.standing, List.filter_filter]
  exact List.filter_congr fun th _ => Bool.and_comm ..

/-- A thread as its clause starts. -/
def State.startThread (s : State) (th : Thread) : Thread := { th with c := s.freeTemps th.tid, key := 0, keyed := false }

/-- A record as its clause starts. -/
def State.startGrp (s : State) (pc : Nat) (h : Header) (lines : Tab (BitVec 512)) (tids : List Nat) (g : Grp) : Grp :=
  { g.observe h.wait with
    passes := 0, youngest := false, clause := some ⟨pc, h, 1, tids, s.freeLatches tids, lines, [], none, false, false, []⟩ }

theorem State.startClause_of_standing {t : Team} {n pc : Nat} (some_ : t.standing n pc ≠ []) (s : State) (h : Header) (lines : Tab (BitVec 512)) :
    s.startClause t n pc h lines =
      (t.modThreads (fun th => th.recno == n && th.run == .runnable && th.pc == pc) s.startThread).modGrp n
        (s.startGrp pc h lines ((t.standing n pc).map (·.tid))) := by
  have nonempty : (t.standing n pc).isEmpty = false := List.isEmpty_eq_false_iff.2 some_
  unfold State.startClause
  simp only [Team.runnable_at, nonempty]
  rfl

theorem State.startClause_of_none {t : Team} {n pc : Nat} (none : t.standing n pc = []) (s : State) (h : Header) (lines : Tab (BitVec 512)) :
    s.startClause t n pc h lines = t := by
  simp [State.startClause, Team.runnable_at, none]

theorem map_tid_filter (p : Thread → Bool) {f : Thread → Thread} (hp : ∀ th, p (f th) = p th) (hf : ∀ th, (f th).tid = th.tid) (l : List Thread) :
    ((l.map fun th => if p th then f th else th).filter p).map (·.tid) = (l.filter p).map (·.tid) := by
  induction l with
  | nil => rfl
  | cons x r ih =>
    by_cases h : p x = true
    · simp [h, hp, hf, ih]
    · simp [h, ih]

/-- Who stands at the PC is the same threads, before the start and after it. -/
theorem State.standing_startClause (s : State) (t : Team) (n pc : Nat) (h : Header) (lines : Tab (BitVec 512)) :
    ((s.startClause t n pc h lines).standing n pc).map (·.tid) = (t.standing n pc).map (·.tid) := by
  by_cases none : t.standing n pc = []
  · rw [State.startClause_of_none none]
  · rw [State.startClause_of_standing none]
    exact map_tid_filter (fun th => th.recno == n && th.run == .runnable && th.pc == pc) (f := s.startThread) (fun _ => rfl) (fun _ => rfl) t.threads

theorem exec_clauseHeader (h : Header) (s : State) : exec (.clauseHeader h) s = execClauseHeader h s := rfl

theorem State.startGrp_recno (s : State) (pc : Nat) (h : Header) (lines : Tab (BitVec 512)) (tids : List Nat) (g : Grp) :
    (s.startGrp pc h lines tids g).recno = g.recno := rfl
theorem State.startGrp_retired (s : State) (pc : Nat) (h : Header) (lines : Tab (BitVec 512)) (tids : List Nat) (g : Grp) :
    (s.startGrp pc h lines tids g).retired = g.retired := rfl
theorem State.startGrp_mq (s : State) (pc : Nat) (h : Header) (lines : Tab (BitVec 512)) (tids : List Nat) (g : Grp) :
    (s.startGrp pc h lines tids g).mq = g.mq := rfl

/-- A start leaves every queue as it was. -/
theorem State.startClause_mq {s : State} {t : Team} {n pc : Nat} {h : Header} {lines : Tab (BitVec 512)} {x : Grp}
    (hx : x ∈ (s.startClause t n pc h lines).grps) : ∃ y ∈ t.grps, x.mq = y.mq := by
  by_cases none : t.standing n pc = []
  · rw [State.startClause_of_none none] at hx
    exact ⟨x, hx, rfl⟩
  · rw [State.startClause_of_standing none] at hx
    obtain ⟨y, hy, rfl⟩ := List.mem_map.1 hx
    refine ⟨y, hy, ?_⟩
    split_ifs
    · exact State.startGrp_mq ..
    · rfl

theorem State.startClause_retired (s : State) (t : Team) (n pc : Nat) (h : Header) (lines : Tab (BitVec 512)) (k : Nat) :
    ((s.startClause t n pc h lines).grp? k).any (·.retired) = (t.grp? k).any (·.retired) := by
  by_cases none : t.standing n pc = []
  · rw [State.startClause_of_none none]
  · rw [State.startClause_of_standing none, Team.retired_modGrp _ _ _ (State.startGrp_recno s pc h lines _) (State.startGrp_retired s pc h lines _)]
    rfl

theorem State.startClause_grp? {s : State} {t : Team} {n pc : Nat} {g : Grp} (hg : t.grp? n = some g) (some_ : t.standing n pc ≠ [])
    (h : Header) (lines : Tab (BitVec 512)) :
    (s.startClause t n pc h lines).grp? n = some (s.startGrp pc h lines ((t.standing n pc).map (·.tid)) g) := by
  rw [State.startClause_of_standing some_, Team.grp?_modGrp_same _ _ _ (State.startGrp_recno s pc h lines _), Team.modThreads_grp?, hg, Option.map_some]

theorem State.startClause_thread? {s : State} {t : Team} {n pc tid : Nat} {th : Thread} (hth : t.thread? tid = some th) (h : Header) (lines : Tab (BitVec 512)) :
    (s.startClause t n pc h lines).thread? tid = some (if th.recno == n && th.run == .runnable && th.pc == pc then s.startThread th else th) := by
  by_cases none : t.standing n pc = []
  · have out := List.filter_eq_nil_iff.1 none th (List.mem_of_find?_eq_some hth)
    rw [State.startClause_of_none none, hth, if_neg out]
  · rw [State.startClause_of_standing none, Team.modGrp_thread?, Team.thread?_modThreads _ _ s.startThread fun _ => rfl, hth, Option.map_some]

/-- The team for which the header's clause starts: the part may have compacted the group. -/
def State.chosenFor (s : State) (h : Header) (a : Team) (n pc : Nat) : Team := if h.rgp then s.rgpChoice a n pc else a

/-- The team after the header. -/
def State.startedTeam (s : State) (h : Header) (a : Team) (n pc : Nat) : Team :=
  s.startClause (s.chosenFor h a n pc) n pc h
    (s.fetchClause (s.chosenFor h a n pc).ref.core (s.chosenFor h a n pc).asid pc h.len.val).2

section
variable {s : State} {k : Issuer} {a : Team} {g : Grp} {pc : Nat} {h : Header} (hcur : s.sched.cur = some k) (ha : s.team? k.team = some a)
  (hg : a.grp? k.recno = some g) (hpc : a.choosePC k.recno = some pc)
include hcur ha hg hpc

theorem exec_header_waits (unready : s.ready a g pc h = false) : exec (.clauseHeader h) s = .next s := by
  simp [exec_clauseHeader, execClauseHeader, hcur, ha, hg, hpc, unready]

theorem exec_header_ready (ready : s.ready a g pc h = true) : exec (.clauseHeader h) s =
    .next (((s.fetchClause (s.chosenFor h a k.recno pc).ref.core (s.chosenFor h a k.recno pc).asid pc h.len.val).1.modTeam k.team fun _ =>
      s.startedTeam h a k.recno pc).settleGangs k.team) := by
  rw [exec_clauseHeader]
  unfold execClauseHeader
  simp only [hcur, ha, hg, hpc, ready]
  rfl

/-- A ready group's header puts the started team into its slot, and may leave lines in the instruction cache. -/
theorem exec_header_starts (ready : s.ready a g pc h = true) (live : (s.startedTeam h a k.recno pc).deadHeads = []) :
    ∃ t, exec (.clauseHeader h) s = .next t ∧ t = { s with teams := t.teams, mem := { s.mem with icache := t.mem.icache } } ∧
      (∀ j, j ≠ slotKey k.team → t.teams.find j = s.teams.find j) ∧ t.team? k.team = some (s.startedTeam h a k.recno pc) := by
  rw [exec_header_ready hcur ha hg hpc ready]
  have cache := fetchClause_cacheOnly s (s.chosenFor h a k.recno pc).ref.core (s.chosenFor h a k.recno pc).asid pc h.len.val
  generalize (s.fetchClause (s.chosenFor h a k.recno pc).ref.core (s.chosenFor h a k.recno pc).asid pc h.len.val).1 = u at cache
  generalize s.startedTeam h a k.recno pc = b at live ⊢
  obtain ⟨lines, rfl⟩ := cache
  have here : (State.modTeam { s with mem := { s.mem with icache := lines } } k.team fun _ => b).team? k.team = some b :=
    (State.team?_modTeam_same ..).trans (congrArg (Option.map fun _ => b) ha)
  rw [State.settleGangs_of_deadHeads here live]
  refine ⟨_, rfl, ?_, fun j hj => State.modTeam_find_other _ _ _ hj, here⟩
  rw [State.modTeam_mem]
  exact State.modTeam_eq ..

omit hcur ha hg in
theorem Team.standing_of_choosePC : a.standing k.recno pc ≠ [] := by
  obtain ⟨⟨th, hth, here⟩, -⟩ := Team.choosePC_eq_some.1 hpc
  obtain ⟨mem, rec, run, -⟩ := Team.mem_choosers.1 hth
  exact List.ne_nil_of_mem (List.mem_filter.2 ⟨mem, by simp [rec, run, here]⟩)

end

theorem Team.mem_standing {t : Team} {n pc : Nat} {th : Thread} (hth : th ∈ t.threads) :
    (th.recno == n && th.run == .runnable && th.pc == pc) = true ↔ th ∈ t.standing n pc := by
  rw [Team.standing, List.mem_filter]
  exact ⟨fun h => ⟨hth, h⟩, And.right⟩

/-- Without RGP nobody moves: the team starts as it stands. -/
theorem startedTeam_plain {h : Header} (plain : h.rgp = false) (s : State) (a : Team) (n pc : Nat) :
    s.startedTeam h a n pc = s.startClause a n pc h (s.fetchClause a.ref.core a.asid pc h.len.val).2 := by
  simp [State.startedTeam, State.chosenFor, plain]

/-! ## The order in which a regrouping packs its threads, R82 -/

/-- u goes before th: a lower key, or the same and a lower %tid. -/
abbrev keyBefore (u th : Thread) : Prop := u.key < th.key ∨ (u.key = th.key ∧ u.tid < th.tid)

theorem keyBefore.trans {u v w : Thread} (h : keyBefore u v) (g : keyBefore v w) : keyBefore u w := by
  unfold keyBefore at *
  omega

theorem keyBefore.asymm {u v : Thread} (h : keyBefore u v) : ¬ keyBefore v u := by
  unfold keyBefore at *
  omega

theorem keyBefore.of_not {u v : Thread} (h : ¬ keyBefore u v) (other : u.tid ≠ v.tid) : keyBefore v u := by
  unfold keyBefore at *
  omega

theorem perm_insKey (th : Thread) (l : List Thread) : List.Perm (insKey th l) (th :: l) := by
  induction l with
  | nil => exact .refl _
  | cons x r ih =>
    unfold insKey
    split_ifs
    · exact .refl _
    · exact (ih.cons x).trans (.swap th x r)

theorem sorted_insKey {th : Thread} {l : List Thread} (sorted : l.Pairwise keyBefore) (new : ∀ x ∈ l, th.tid ≠ x.tid) :
    (insKey th l).Pairwise keyBefore := by
  induction l with
  | nil => exact List.pairwise_singleton ..
  | cons x r ih =>
    obtain ⟨first, rest⟩ := List.pairwise_cons.1 sorted
    obtain ⟨other, others⟩ := List.forall_mem_cons.1 new
    unfold insKey
    split_ifs with before
    · exact List.pairwise_cons.2 ⟨List.forall_mem_cons.2 ⟨before, fun y hy => keyBefore.trans before (first y hy)⟩, sorted⟩
    · refine List.pairwise_cons.2 ⟨fun y hy => ?_, ih rest others⟩
      rcases List.mem_cons.1 ((perm_insKey th r).mem_iff.1 hy) with rfl | hy
      · exact keyBefore.of_not before other
      · exact first y hy

theorem perm_foldr_insKey (l : List Thread) : List.Perm (l.foldr insKey []) l := by
  induction l with
  | nil => exact .refl _
  | cons x r ih => exact (perm_insKey x _).trans (ih.cons x)

theorem sorted_foldr_insKey {l : List Thread} (distinct : l.Pairwise fun x y => x.tid ≠ y.tid) : (l.foldr insKey []).Pairwise keyBefore := by
  induction l with
  | nil => exact .nil
  | cons x r ih =>
    obtain ⟨first, rest⟩ := List.pairwise_cons.1 distinct
    exact sorted_insKey (ih rest) fun y hy => first y ((perm_foldr_insKey r).mem_iff.1 hy)

/-- In an ordered list a thread stands behind as many as go before it. -/
theorem findIdx_eq_countP {l : List Thread} (sorted : l.Pairwise keyBefore) (distinct : l.Pairwise fun x y => x.tid ≠ y.tid) {th : Thread} (hth : th ∈ l) :
    l.findIdx (·.tid == th.tid) = l.countP fun u => decide (keyBefore u th) := by
  induction l with
  | nil => cases hth
  | cons x r ih =>
    obtain ⟨first, rest⟩ := List.pairwise_cons.1 sorted
    obtain ⟨other, others⟩ := List.pairwise_cons.1 distinct
    rw [List.findIdx_cons, List.countP_cons]
    rcases List.mem_cons.1 hth with rfl | hth
    · have none : (r.countP fun u => decide (keyBefore u th)) = 0 :=
        List.countP_eq_zero.2 fun u hu => by simpa using keyBefore.asymm (first u hu)
      rw [none]
      simp [keyBefore]
    · have before : decide (keyBefore x th) = true := decide_eq_true (first th hth)
      have differs : (x.tid == th.tid) = false := beq_false_of_ne (other th hth)
      rw [differs, ih rest others hth, if_pos before]
      rfl

/-- A mover's place is the number of movers that go before it. -/
theorem place_eq_rank {l : List Thread} (distinct : l.Pairwise fun x y => x.tid ≠ y.tid) {th : Thread} (hth : th ∈ l) :
    (l.foldr insKey []).findIdx (·.tid == th.tid) = l.countP fun u => decide (keyBefore u th) := by
  have perm := perm_foldr_insKey l
  have apart : (l.foldr insKey []).Pairwise fun x y => x.tid ≠ y.tid := (perm.pairwise_iff fun h => Ne.symm h).2 distinct
  rw [findIdx_eq_countP (sorted_foldr_insKey distinct) apart (perm.mem_iff.2 hth), perm.countP_eq]

theorem Team.tids_apart {t : Team} (ordered : Safety.ordered t = true) (p : Thread → Bool) : (t.threads.filter p).Pairwise fun x y => x.tid ≠ y.tid :=
  ((List.pairwise_map.1 (of_decide_eq_true ordered : (t.threads.map (·.tid)).Pairwise (· < ·))).imp fun h => Nat.ne_of_lt h).filter _

/-! ## What a regrouping leaves: every thread's record and lane once placed, and every record's clause and queue -/

def Thread.seat (th : Thread) : Nat × Nat × Nat := (th.tid, th.recno, th.pos)
def Grp.desk (g : Grp) : Nat × Option Clause × List MatCmd := (g.recno, g.clause, g.mq)

structure Team.SameSeats (a b : Team) : Prop where
  threads : b.threads.map Thread.seat = a.threads.map Thread.seat
  grps : b.grps.map Grp.desk = a.grps.map Grp.desk

namespace Team.SameSeats
variable {a b c : Team}

theorem refl (a : Team) : a.SameSeats a := ⟨rfl, rfl⟩
theorem trans (h : a.SameSeats b) (g : b.SameSeats c) : a.SameSeats c := ⟨g.threads.trans h.threads, g.grps.trans h.grps⟩

theorem modThreads (t : Team) (p : Thread → Bool) (f : Thread → Thread) (hf : ∀ th, (f th).seat = th.seat) : t.SameSeats (t.modThreads p f) := by
  refine ⟨?_, rfl⟩
  simp only [Team.modThreads, List.map_map]
  refine List.map_congr_left fun th _ => ?_
  by_cases h : p th = true <;> simp [h, hf]

theorem modGrp (t : Team) (n : Nat) (f : Grp → Grp) (hf : ∀ g, (f g).desk = g.desk) : t.SameSeats (t.modGrp n f) := by
  refine ⟨rfl, ?_⟩
  simp only [Team.modGrp, List.map_map]
  refine List.map_congr_left fun g _ => ?_
  by_cases h : g.recno = n <;> simp [h, hf]

theorem foldl {α : Type} {f : Team → α → Team} (hf : ∀ (t : Team) x, t.SameSeats (f t x)) (l : List α) (t : Team) : t.SameSeats (l.foldl f t) := by
  induction l generalizing t with
  | nil => exact refl t
  | cons x r ih => exact (hf t x).trans (ih _)

theorem sets (t : Team) (ms : List MSet) : t.SameSeats { t with msets := ms } := ⟨rfl, rfl⟩
theorem grants (t : Team) (blocks : Nat) (claims : List (Nat × Nat)) : t.SameSeats { t with pool := blocks, grants := claims } := ⟨rfl, rfl⟩

theorem release (t : Team) (now : Nat) (m : MSet) : t.SameSeats (t.release now m) :=
  (modThreads t (fun th => th.run == .held && th.mset == m.id && th.pc == m.head) (fun th => { th with run := .runnable, meet := 0, age := now })
    fun _ => rfl).trans (sets _ _)

theorem settle (t : Team) (now : Nat) : t.SameSeats (t.settle now) := by
  refine foldl (fun t m => ?_) t.msets t
  split_ifs
  · exact release t now m
  · exact refl t

theorem arrive1 (t : Team) (now h : Nat) (th : Thread) : (t.arrive1 now h th).seat = th.seat := by
  unfold Team.arrive1
  dsimp only
  split_ifs <;> rfl

theorem wakeThreads (t : Team) (now : Nat) (p : Thread → Bool) : t.SameSeats (t.wakeThreads now p) :=
  (modThreads t p (fun th => t.arrive1 now th.pc th) fun th => arrive1 t now th.pc th).trans (settle _ now)

theorem endWait (t : Team) (now n id : Nat) : t.SameSeats (t.endWait now n id) :=
  (modGrp t n (fun g => { g with waits := g.waits.del id }) fun _ => rfl).trans (wakeThreads _ now _)

theorem grantN (k now : Nat) (t : Team) : t.SameSeats (t.grantN k now) := by
  induction k generalizing t with
  | zero => exact refl t
  | succ k ih =>
    unfold Team.grantN
    split
    case h_1 => exact refl t
    case h_2 n id rest _ =>
      split
      case h_1 m _ _ =>
        split_ifs
        · exact (((grants t (t.pool - m) rest).trans (modGrp _ n (fun g => { g with h := g.h + m }) fun _ => rfl)).trans (endWait _ now n id)).trans (ih _)
        · exact refl t
      case h_2 => exact (grants t t.pool rest).trans (ih _)

theorem zeroBlocks (t : Team) (n lo hi : Nat) : t.SameSeats (t.zeroBlocks n lo hi) := by
  refine modThreads t _ _ ?_
  intro th
  rfl

theorem giveBlocks (t : Team) (now n m : Nat) : t.SameSeats (t.giveBlocks now n m) := by
  unfold Team.giveBlocks
  split
  case h_1 => exact refl t
  case h_2 g _ =>
    have shrunk := (zeroBlocks t n (g.h - m + 1) g.h).trans (modGrp _ n (fun g => { g with h := g.h - m }) fun _ => rfl)
    exact (shrunk.trans (grants _ _ _)).trans (grantN _ now _)

theorem retireRec (t : Team) (now n : Nat) : t.SameSeats (t.retireRec now n) := by
  unfold Team.retireRec
  split
  case h_1 => exact refl t
  case h_2 g _ => exact (modGrp t n (fun g => { g with retired := true, marks := [] }) fun _ => rfl).trans (giveBlocks _ now n g.h)

/-- A thread is read back in its seat. -/
theorem thread? (h : a.SameSeats b) (tid : Nat) : (b.thread? tid).map Thread.seat = (a.thread? tid).map Thread.seat := by
  have find (t : Team) : (t.thread? tid).map Thread.seat = (t.threads.map Thread.seat).find? (·.1 == tid) := by
    rw [List.find?_map]
    rfl
  rw [find, find, h.threads]

/-- A record is read back with its clause and its queue. -/
theorem grp? (h : a.SameSeats b) (n : Nat) : (b.grp? n).map Grp.desk = (a.grp? n).map Grp.desk := by
  have find (t : Team) : (t.grp? n).map Grp.desk = (t.grps.map Grp.desk).find? (·.1 == n) := by
    rw [List.find?_map]
    rfl
  rw [find, find, h.grps]

theorem mq (h : a.SameSeats b) {x : Grp} (hx : x ∈ b.grps) : ∃ y ∈ a.grps, x.mq = y.mq := by
  have mem : x.desk ∈ a.grps.map Grp.desk := h.grps ▸ List.mem_map_of_mem hx
  obtain ⟨y, hy, same⟩ := List.mem_map.1 mem
  exact ⟨y, hy, congrArg (·.2.2) same.symm⟩

end Team.SameSeats

/-! ## A compaction -/

/-- The threads that a compaction of these records moves. -/
def Team.movers (t : Team) (recs : List Nat) : List Thread := t.threads.filter fun th => recs.contains th.recno && th.run != .exited

/-- A mover in its new seat. -/
def Team.place (t : Team) (now h : Nat) (recs : List Nat) (th : Thread) : Thread :=
  let i := ((t.movers recs).foldr insKey []).findIdx (·.tid == th.tid)
  let th := { th with recno := nth 0 recs (i / 32), pos := i % 32 }
  if th.run = .suspended (.regrp h) then t.arrive1 now h th else th

theorem Team.place_seat (t : Team) (now h : Nat) (recs : List Nat) (th : Thread) : (t.place now h recs th).seat =
    (th.tid, nth 0 recs (((t.movers recs).foldr insKey []).findIdx (·.tid == th.tid) / 32),
      ((t.movers recs).foldr insKey []).findIdx (·.tid == th.tid) % 32) := by
  unfold Team.place
  dsimp only
  split_ifs
  · rw [SameSeats.arrive1]
    rfl
  · rfl

/-- The team with its movers in their new seats. -/
def Team.placed (t : Team) (now h : Nat) (recs : List Nat) : Team :=
  t.modThreads (fun th => recs.contains th.recno && th.run != .exited) (t.place now h recs)

theorem Team.compact_sameSeats (t : Team) (now h : Nat) (recs : List Nat) : (t.placed now h recs).SameSeats (t.compact now h recs) := by
  refine Team.SameSeats.trans ?_ (Team.SameSeats.settle _ now)
  refine Team.SameSeats.trans ?_ (Team.SameSeats.foldl (fun t n => Team.SameSeats.retireRec t now n) _ _)
  refine Team.SameSeats.foldl (fun t n => ?_) _ _
  exact Team.SameSeats.modGrp t n _ fun _ => rfl

/-! ## The choice at a header with RGP, R82 -/

/-- The records with which a group may be compacted: those of its pool that no thread reached by REGRP. -/
def Team.rgpPool (t : Team) (n pc : Nat) : List Nat :=
  (t.poolOf pc n).filter fun r => !t.threads.any fun th => th.recno == r && th.keyed && th.run != .exited

/-- The records that the part compacts at the header. -/
def State.rgpRecs (s : State) (t : Team) (n pc : Nat) : List Nat :=
  if (t.rgpPool n pc).contains n && s.choose [7, n] % 2 == 1 then
    (t.rgpPool n pc).filter fun r => r == n || s.choose [8, n, r] % 2 == 1
  else []

theorem Team.placed_nil (t : Team) (now h : Nat) : t.placed now h [] = t := by
  simp [Team.placed, Team.modThreads]

theorem State.rgpChoice_sameSeats (s : State) (t : Team) (n pc : Nat) :
    (t.placed s.sched.steps pc (s.rgpRecs t n pc)).SameSeats (s.rgpChoice t n pc) := by
  have choice : s.rgpChoice t n pc = if (t.rgpPool n pc).contains n && s.choose [7, n] % 2 == 1 then
      t.compact s.sched.steps pc ((t.rgpPool n pc).filter fun r => r == n || s.choose [8, n, r] % 2 == 1) else t := rfl
  rw [choice, State.rgpRecs]
  split_ifs
  · exact Team.compact_sameSeats t _ pc _
  · rw [Team.placed_nil]
    exact .refl t

theorem Team.mem_rgpPool {t : Team} {n pc r : Nat} (h : r ∈ t.rgpPool n pc) :
    r ∈ t.poolOf pc n ∧ ∀ th ∈ t.threads, th.recno = r → th.run ≠ .exited → th.keyed = false := by
  obtain ⟨pool, fresh⟩ := List.mem_filter.1 h
  refine ⟨pool, fun th hth rec live => ?_⟩
  rw [Bool.not_eq_true', List.any_eq_false] at fresh
  simpa [rec, live] using fresh th hth

theorem State.mem_rgpRecs {s : State} {t : Team} {n pc r : Nat} (h : r ∈ s.rgpRecs t n pc) : r ∈ t.rgpPool n pc := by
  unfold State.rgpRecs at h
  split_ifs at h
  · exact List.mem_of_mem_filter h
  · cases h

/-- A compaction is of the group's own record and others. -/
theorem State.rgpRecs_own (s : State) (t : Team) (n pc : Nat) : s.rgpRecs t n pc = [] ∨ n ∈ s.rgpRecs t n pc := by
  unfold State.rgpRecs
  split_ifs with chosen
  · obtain ⟨own, -⟩ := Bool.and_eq_true_iff.1 chosen
    exact .inr (List.mem_filter.2 ⟨List.contains_iff_mem.1 own, by simp⟩)
  · exact .inl rfl

theorem Team.poolOf_sublist (t : Team) (h n : Nat) : (t.poolOf h n).Sublist (t.grps.map (·.recno)) := by
  unfold Team.poolOf
  split
  · exact List.nil_sublist _
  · exact List.filter_sublist.map _

theorem State.rgpRecs_sorted {t : Team} (rising : (t.grps.map (·.recno)).Pairwise (· < ·)) (s : State) (n pc : Nat) :
    (s.rgpRecs t n pc).Pairwise (· < ·) := by
  have pool : (t.rgpPool n pc).Pairwise (· < ·) := rising.sublist (List.filter_sublist.trans (t.poolOf_sublist pc n))
  unfold State.rgpRecs
  split_ifs
  · exact pool.filter _
  · exact .nil

/-- Where a compaction seats a thread: a mover by its rank, any other where it was. -/
theorem Team.placed_seat {t : Team} (ordered : Safety.ordered t = true) (now h : Nat) (recs : List Nat) {th : Thread} (hth : th ∈ t.threads) :
    ((t.placed now h recs).thread? th.tid).map Thread.seat = some (th.tid,
      if th ∈ t.movers recs then (nth 0 recs ((t.movers recs).countP (fun u => decide (keyBefore u th)) / 32),
        (t.movers recs).countP (fun u => decide (keyBefore u th)) % 32)
      else (th.recno, th.pos)) := by
  have here := t.thread?_of_mem ordered hth
  have tid : ∀ x, (t.place now h recs x).tid = x.tid := fun x => congrArg (·.1) (t.place_seat now h recs x)
  by_cases moves : th ∈ t.movers recs
  · have chosen := (List.mem_filter.1 moves).2
    have apart : (t.movers recs).Pairwise fun x y => x.tid ≠ y.tid := Team.tids_apart ordered _
    rw [Team.placed, Team.thread?_modThreads_of tid here chosen, Option.map_some, Team.place_seat, if_pos moves, place_eq_rank apart moves]
  · have stays : (recs.contains th.recno && th.run != .exited) = false := by
      rw [← Bool.not_eq_true]
      exact fun chosen => moves (List.mem_filter.2 ⟨hth, chosen⟩)
    rw [Team.placed, Team.thread?_modThreads_of_not tid here stays, Option.map_some, if_neg moves]
    rfl

theorem State.startClause_seat {s : State} {t : Team} {n pc tid : Nat} {h : Header} {lines : Tab (BitVec 512)} :
    ((s.startClause t n pc h lines).thread? tid).map Thread.seat = (t.thread? tid).map Thread.seat := by
  by_cases none : t.standing n pc = []
  · rw [State.startClause_of_none none]
  · rw [State.startClause_of_standing none]
    rw [Team.modGrp_thread?]
    exact (Team.SameSeats.modThreads t (fun th => th.recno == n && th.run == .runnable && th.pc == pc) s.startThread fun _ => rfl).thread? tid

section
variable {s : State} {a : Team} {n pc : Nat} {h : Header}

/-! ### A header without RGP -/

theorem startedTeam_plain_live (plain : h.rgp = false)
    (live : ∀ x ∈ a.grps, ∀ c, x.mq.head? = some c → ∀ m ∈ c.members, (a.grp? m).any (·.retired) = false) :
    (s.startedTeam h a n pc).deadHeads = [] := by
  rw [startedTeam_plain plain]
  refine Team.deadHeads_eq_nil fun x hx c head m hm => ?_
  obtain ⟨y, hy, same⟩ := State.startClause_mq hx
  obtain ⟨first, -⟩ := Option.filter_eq_some_iff.1 head
  rw [State.startClause_retired]
  exact live y hy c (same ▸ first) m hm

/-! ### A header with RGP -/

theorem startedTeam_rgp (rgp : h.rgp = true) : ∃ lines, s.startedTeam h a n pc = s.startClause (s.rgpChoice a n pc) n pc h lines := by
  simp only [State.startedTeam, State.chosenFor, rgp, if_true]
  exact ⟨_, rfl⟩

theorem startedTeam_rgp_live (rgp : h.rgp = true) (single : ∀ x ∈ a.grps, ∀ c, x.mq.head? = some c → c.members.length ≤ 1) :
    (s.startedTeam h a n pc).deadHeads = [] := by
  obtain ⟨lines, start⟩ := startedTeam_rgp (s := s) (a := a) (n := n) (pc := pc) rgp
  rw [start]
  refine Team.deadHeads_of_single fun x hx c head => ?_
  obtain ⟨y, hy, same⟩ := State.startClause_mq hx
  obtain ⟨z, hz, same'⟩ := (s.rgpChoice_sameSeats a n pc).mq hy
  exact single z hz c (same' ▸ same ▸ head)

theorem startedTeam_rgp_seat (rgp : h.rgp = true) (ordered : Safety.ordered a = true) {th : Thread} (hth : th ∈ a.threads) :
    (((s.startedTeam h a n pc).thread? th.tid).map fun th' => (th'.recno, th'.pos)) = some
      (if th ∈ a.movers (s.rgpRecs a n pc) then
        (nth 0 (s.rgpRecs a n pc) ((a.movers (s.rgpRecs a n pc)).countP (fun u => decide (keyBefore u th)) / 32),
          (a.movers (s.rgpRecs a n pc)).countP (fun u => decide (keyBefore u th)) % 32)
      else (th.recno, th.pos)) := by
  obtain ⟨lines, start⟩ := startedTeam_rgp (s := s) (a := a) (n := n) (pc := pc) rgp
  have seat := Team.placed_seat ordered s.sched.steps pc (s.rgpRecs a n pc) hth
  rw [← (s.rgpChoice_sameSeats a n pc).thread?, ← State.startClause_seat (s := s) (n := n) (pc := pc) (h := h) (lines := lines), ← start] at seat
  have moved := congrArg (Option.map Prod.snd) seat
  rw [Option.map_map] at moved
  exact moved

/-- The record as a header with RGP leaves it: without a clause if no thread stands there, else in the clause of those. -/
theorem startedTeam_rgp_grp? (rgp : h.rgp = true) {g : Grp} (hg : a.grp? n = some g) (free : g.clause = none) :
    ∃ g', (s.startedTeam h a n pc).grp? n = some g' ∧ ((s.startedTeam h a n pc).standing n pc = [] → g'.clause = none) ∧
      ((s.startedTeam h a n pc).standing n pc ≠ [] → ∃ latches lines,
        g'.clause = some ⟨pc, h, 1, ((s.startedTeam h a n pc).standing n pc).map (·.tid), latches, lines, [], none, false, false, []⟩) := by
  obtain ⟨lines, start⟩ := startedTeam_rgp (s := s) (a := a) (n := n) (pc := pc) rgp
  have desk := (s.rgpChoice_sameSeats a n pc).grp? n
  rw [Team.placed, Team.modThreads_grp?, hg, Option.map_some] at desk
  obtain ⟨g1, hg1, same⟩ := Option.map_eq_some_iff.1 desk
  have free1 : g1.clause = none := (congrArg (·.2.1) same).trans free
  have standing := s.standing_startClause (s.rgpChoice a n pc) n pc h lines
  rw [start, standing]
  by_cases empty : (s.rgpChoice a n pc).standing n pc = []
  · rw [State.startClause_of_none empty]
    exact ⟨g1, hg1, fun _ => free1, fun some_ => absurd empty some_⟩
  · have stays : (s.startClause (s.rgpChoice a n pc) n pc h lines).standing n pc ≠ [] := fun none => by
      rw [none, List.map_nil, eq_comm, List.map_eq_nil_iff] at standing
      exact empty standing
    exact ⟨_, State.startClause_grp? hg1 empty h lines, fun none => absurd none stays, fun _ => ⟨_, _, rfl⟩⟩

end

theorem State.ready_clause {s : State} {a : Team} {g : Grp} {pc : Nat} {h : Header} (ready : s.ready a g pc h = true) : g.clause = none := by
  simp only [State.ready, Bool.and_eq_true, Option.isNone_iff_eq_none, and_assoc] at ready
  obtain ⟨-, -, free, -⟩ := ready
  exact free

theorem headerStartsItsClause : Claim.HeaderStartsItsClause := by
  intro s k a g pc h hcur ha hg hpc
  refine ⟨exec_header_waits hcur ha hg hpc, ?_, ?_⟩
  · intro ready rgp single ordered rising
    obtain ⟨t, run, same, others, team⟩ := exec_header_starts hcur ha hg hpc ready (startedTeam_rgp_live rgp single)
    obtain ⟨g', hg', idle, busy⟩ := startedTeam_rgp_grp? (s := s) (pc := pc) rgp hg (State.ready_clause ready)
    refine ⟨t, _, g', s.rgpRecs a k.recno pc, run, same, others, team, hg', s.rgpRecs_own a k.recno pc, s.rgpRecs_sorted rising k.recno pc,
      fun n hn => Team.mem_rgpPool (State.mem_rgpRecs hn), ?_, idle, busy⟩
    intro movers th hth rank
    exact startedTeam_rgp_seat rgp ordered hth
  · intro ready plain live ordered set
    obtain ⟨t, run, same, others, team⟩ := exec_header_starts hcur ha hg hpc ready (startedTeam_plain_live plain live)
    have stands : a.standing k.recno pc ≠ [] := Team.standing_of_choosePC hpc
    have record := State.startClause_grp? (s := s) hg stands h (s.fetchClause a.ref.core a.asid pc h.len.val).2
    rw [startedTeam_plain plain] at team
    have who : set = a.standing k.recno pc := a.runnable_at k.recno pc
    rw [who]
    refine ⟨t, _, _, _, _, run, same, others, team, record, rfl, rfl, rfl, rfl, rfl, rfl, fun th hth => ⟨s.freeTemps th.tid, ?_⟩⟩
    rw [State.startClause_thread? (a.thread?_of_mem ordered hth)]
    simp only [Team.mem_standing hth]
    rfl

/-- Settles O16: the header's step for a ready group is the start of its clause, after the compaction that the part chose; what makes a
group ready and which starts next are read off the fold and the filters that choose them. -/
theorem headerStartsAClauseWhenTheGroupIsReady : Obligations.HeaderStartsAClauseWhenTheGroupIsReady :=
  ⟨headerStartsItsClause, headersWaitFor, issueSelection⟩

end Sys2Proof.Machine
end

section
/-! Launch records, spec/13: the checks of R290 field by field, the window's seal, and what fw0 does with a record. -/
namespace Sys2Proof.Machine

/-! ## Fields of a record, R4 -/

theorem leNat_eq_zero (bs : List Byte) : leNat bs = 0 ↔ ∀ b ∈ bs, b = 0 := by
  induction bs with
  | nil => simp [leNat]
  | cons b r ih =>
    have zero : b.toNat = 0 ↔ b = 0 := ⟨fun h => BitVec.eq_of_toNat_eq h, fun h => h ▸ rfl⟩
    simp only [leNat, Nat.add_eq_zero_iff, Nat.mul_eq_zero, zero, List.forall_mem_cons, ← ih]
    simp

theorem zeroBytes_iff (bs : List Byte) (off n : Nat) : zeroBytes bs off n = true ↔ field bs off n = 0 := by
  simp only [zeroBytes, field, leNat_eq_zero, List.all_eq_true, beq_iff_eq]

theorem leNat_lt (bs : List Byte) : leNat bs < 256 ^ bs.length := by
  induction bs with
  | nil => simp [leNat]
  | cons b r ih =>
    have := b.isLt
    simp only [leNat, List.length_cons, pow_succ]
    omega

theorem field_lt (bs : List Byte) (off n : Nat) : field bs off n < 256 ^ n := by
  refine (leNat_lt _).trans_le (Nat.pow_le_pow_right (by omega) ?_)
  exact List.length_take_le n _

/-- The claims' reading of a field is the model's. -/
theorem fld_eq_field : Claim.fld = field := rfl

/-! ## Firmware's reads -/

theorem pieceSize_bounds {p left : Nat} (h : left ≠ 0) : 1 ≤ pieceSize p left ∧ pieceSize p left ≤ left := by
  unfold pieceSize
  split_ifs <;> omega

/-- The pieces of an access cover its bytes. -/
theorem sum_piecesN {fuel left : Nat} (h : left ≤ fuel) (p : Nat) : ((piecesN fuel p left).map (·.2)).sum = left := by
  induction fuel generalizing p left with
  | zero => simp [piecesN]; omega
  | succ k ih =>
    by_cases h0 : left = 0
    · simp [piecesN, h0]
    · have ⟨low, high⟩ := pieceSize_bounds (p := p) h0
      simp only [piecesN, if_neg h0, List.map_cons, List.sum_cons]
      rw [ih (by omega)]
      omega

theorem bytesAt_length (s : State) (asid a n : Nat) : (Claim.bytesAt s asid a n).length = n := by
  have piece : (fun p : Nat × Nat => (s.virtRead ⟨none, none⟩ asid p.1 p.2 rightR).length) = (·.2) := by
    funext p
    simp [State.virtRead, State.physRead]
  rw [Claim.bytesAt, List.length_flatMap, piece, pieces, List.map_map]
  exact sum_piecesN le_rfl a

/-- A traversal whose parts are each there under a condition is there under all of them. -/
theorem mapM_ite {α β : Type} {f : α → Option β} {g : α → β} {P : α → Prop} [DecidablePred P] (h : ∀ x, f x = if P x then some (g x) else none)
    (l : List α) : l.mapM f = if ∀ x ∈ l, P x then some (l.map g) else none := by
  induction l with
  | nil => simp
  | cons x r ih =>
    rw [List.mapM_cons, h, ih]
    by_cases hx : P x
    · by_cases hr : ∀ y ∈ r, P y
      · simp [hx, if_pos hr]
      · simp [hx, if_neg hr]
    · simp [hx]

/-- Firmware can read a piece. -/
def State.pieceReadable (s : State) (asid : Nat) (p : Nat × Nat) : Prop :=
  canonical p.1 = true ∧ ∃ l, s.translate asid p.1 rightR = .ok l ∧ s.poisoned l.pa = false

open Classical in
theorem fwRead_eq (s : State) (asid va n : Nat) :
    s.fwRead asid va n = if Claim.readable s asid va n then some (Claim.bytesAt s asid va n) else none := by
  unfold State.fwRead
  rw [mapM_ite (P := s.pieceReadable asid) (g := fun p => s.virtRead ⟨none, none⟩ asid p.1 p.2 rightR)]
  · unfold Claim.readable State.pieceReadable Claim.bytesAt
    split_ifs <;> simp [List.flatMap]
  · intro p
    unfold State.pieceReadable State.virtRead State.place1
    cases s.translate asid p.1 rightR <;> simp

/-! ## Kernel headers, R64, R65 -/

/-- The header that 256 well-formed bytes hold. -/
def hdrOf (bs : List Byte) : KHdr where
  flags := Claim.fld bs 6 2
  entry := Claim.fld bs 8 8
  handler := Claim.fld bs 0x10 8
  threads := Claim.fld bs 0x18 2
  bars := Claim.fld bs 0x1A 1
  accs := Claim.fld bs 0x1B 1
  scratch := Claim.fld bs 0x1C 4
  xpool := Claim.fld bs 0x20 1
  roles := (List.range (Claim.fld bs 0x21 1)).map fun i => (Claim.fld bs (0x40 + 4 * i) 1, Claim.fld bs (0x41 + 4 * i) 1)
  args := Claim.fld bs 0x22 2
  defer := Claim.fld bs 0x24 4
  smask := Claim.fld bs 0x28 4

open Classical in
theorem parseHdr_eq {bs : List Byte} (len : bs.length = 256) : parseHdr bs = if Claim.headerBytesOk bs then some (hdrOf bs) else none := by
  unfold parseHdr
  refine if_congr ?_ rfl rfl
  have roles (i : Nat) : (zeroBytes bs (0x42 + 4 * i) 2 && decide (field bs (0x40 + 4 * i) 1 ≤ 32 ∧ field bs (0x41 + 4 * i) 1 ≤ 3)
      && (decide (i < field bs 0x21 1) || zeroBytes bs (0x40 + 4 * i) 4)) = true ↔
      field bs (0x40 + 4 * i) 1 ≤ 32 ∧ field bs (0x41 + 4 * i) 1 ≤ 3 ∧ field bs (0x42 + 4 * i) 2 = 0 ∧
        (field bs 0x21 1 ≤ i → field bs (0x40 + 4 * i) 4 = 0) := by
    simp only [Bool.and_eq_true, Bool.or_eq_true, decide_eq_true_eq, zeroBytes_iff, ← not_lt, imp_iff_not_or, not_not]
    tauto
  simp only [Claim.headerBytesOk, fld_eq_field, List.map_map, Function.comp_def, List.all_eq_true, List.mem_range, roles, zeroBytes_iff, len]
  tauto

theorem targetIn_iff (x a : Nat) : targetIn x a = true ↔ a / 8 % 8 = 0 ∧ a % 8 < 5 ∧ x.testBit (480 + a % 8) = true ∧
    isHeader (BitVec.ofNat 96 (x / 2 ^ (96 * (a % 8)))) = true := by
  have place : a / 2 ^ 3 % 2 ^ (5 + 1 - 3) = a / 8 % 8 := rfl
  simp only [targetIn, lineTgt, lineWord, lineSlot, bits_eq, place, Bool.and_eq_true, decide_eq_true_eq, beq_iff_eq, Nat.testBit_shiftRight]
  rw [Nat.shiftRight_eq_div_pow x (96 * (a % 8))]
  tauto

theorem headerAt_iff (s : State) (asid a : Nat) : s.headerAt asid a = true ↔ Claim.marked s asid a := by
  unfold State.headerAt Claim.marked
  cases s.translate asid (a / 64 * 64) {} with
  | ok l =>
    simp only [Bool.and_eq_true, Bool.or_eq_true, Bool.not_eq_true', targetIn_iff, Walk.ok.injEq, exists_eq_left', lineNat]
    tauto
  | _ => simp

open Classical in
theorem readHdr_eq (s : State) (asid h : Nat) :
    s.readHdr asid h = if Claim.headerGood s asid h then some (hdrOf (Claim.bytesAt s asid h 256)) else none := by
  unfold State.readHdr
  rw [fwRead_eq]
  by_cases place : h % 256 = 0 ∧ canonical h = true
  · rw [if_neg (by simp [place])]
    by_cases read : Claim.readable s asid h 256
    · rw [if_pos read]
      dsimp only
      rw [parseHdr_eq (bytesAt_length s asid h 256)]
      by_cases ok : Claim.headerBytesOk (Claim.bytesAt s asid h 256)
      · rw [if_pos ok]
        refine if_congr ?_ rfl rfl
        simp [Claim.headerGood, headerAt_iff, hdrOf, place, read, ok]
      · simp [Claim.headerGood, ok]
    · simp [Claim.headerGood, read]
  · rw [if_pos (by simpa [imp_iff_not_or, not_or] using place), if_neg fun good => place ⟨good.1, good.2.1⟩]

/-! ## The checks of a record, R290 -/

/-- Order 2 of R290: every field of the record as R288, R289 and R305 have it. -/
theorem recOk_iff (s : State) (part : Nat) (device : Bool) (bs : List Byte) :
    Claim.recordFieldsOk s part device bs ↔ s.recOk part bs (parseLRec bs) = true ∧ (device = true → (field bs 0x7F 1).testBit 7 = true) := by
  have ranges : (parseLRec bs).ranges.all (fun x => x.2.2 != 0 || x.2.1 == 0) = true ↔
      ∀ i < 4, field bs (0x40 + 8 * i) 8 % 4 = 0 → field bs (0x60 + 4 * i) 4 = 0 := by
    simp [parseLRec, imp_iff_not_or]
  have reserved : (List.range 4).all (fun i => bits (field bs (0x40 + 8 * i) 8) 15 2 == 0) = true ↔
      ∀ i < 4, field bs (0x40 + 8 * i) 8 / 4 % 2 ^ 14 = 0 := by
    simp [bits_eq]
  have grid (a b : Bool) : (if (parseLRec bs).isDen = true then a else b) = true ↔
      if (field bs 0x3C 2).testBit 5 = true then a = true else b = true := by
    rw [LRec.isDen]
    cases h : (parseLRec bs).flags.testBit 5 <;> simp_all [parseLRec]
  have den : (s.den? (parseLRec bs).gridx).any (fun d => d.part == part && !d.opened) = true ↔
      ∃ d, s.den? (field bs 0x08 4) = some d ∧ d.part = part ∧ d.opened = false := by
    simp [parseLRec, Option.any_eq_true]
  have limit := field_lt bs 0x38 4
  have window : (parseLRec bs).fpcw.toNat = field bs 0x38 4 := by
    rw [parseLRec, BitVec.toNat_ofNat]
    exact Nat.mod_eq_of_lt limit
  simp only [Claim.recordFieldsOk, State.recOk, fld_eq_field, Bool.and_eq_true, zeroBytes_iff, decide_eq_true_eq, ranges, reserved, grid, den, window]
  simp only [parseLRec, forall₂_and, and_assoc, Nat.reducePow]
  exact Iff.rfl

/-- The level ids that a record may name, each with the counters the package has of its level. -/
def levelIds (bs : List Byte) : List (Level × Nat × Nat) := [(.graph, field bs 0x20 2, 4096), (.phase, field bs 0x22 2, 1024), (.job, field bs 0x24 2, 256)]

theorem any_levels (bs : List Byte) (f : Level → Nat → Bool) :
    (parseLRec bs).levels.any (fun x => f x.1 x.2.1) = true ↔ ∃ x ∈ levelIds bs, x.2.1 ≠ 0 ∧ f x.1 x.2.1 = true := by
  simp [LRec.levels, levelIds, parseLRec, List.any_filter]

theorem levelRoom_of_mem {bs : List Byte} {x : Level × Nat × Nat} (h : x ∈ levelIds bs) : levelRoom x.1 = x.2.2 := by
  simp only [levelIds, List.mem_cons, List.not_mem_nil, or_false] at h
  obtain rfl | rfl | rfl := h <;> rfl

theorem used_length (bs : List Byte) : (parseLRec bs).used.length =
    (List.range 4).countP fun i => decide (field bs (0x40 + 8 * i) 8 % 4 ≠ 0 ∧ field bs (0x60 + 4 * i) 4 ≠ 0) := by
  rw [LRec.used, List.length_map, ← List.countP_eq_length_filter, parseLRec, List.countP_map]
  congr 1
  funext i
  simp [Bool.decide_and, beq_eq_decide, bne]

open Classical in
/-- What a list of checks comes to: the reason of the first that fails, and `good` where none does. -/
noncomputable def Checked.first (good : Checked) : List (Nat × Prop) → Checked
  | [] => good
  | (k, bad) :: r => if bad then .refused k else Checked.first good r

theorem Checked.first_of_bad {bad : Prop} (h : bad) (good : Checked) (k : Nat) (r : List (Nat × Prop)) : Checked.first good ((k, bad) :: r) = .refused k :=
  if_pos h

theorem Checked.first_of_not {bad : Prop} (h : ¬ bad) (good : Checked) (k : Nat) (r : List (Nat × Prop)) :
    Checked.first good ((k, bad) :: r) = Checked.first good r :=
  if_neg h

theorem Checked.first_ite {bad c : Prop} [Decidable c] (h : c ↔ bad) {good x : Checked} {r : List (Nat × Prop)} (rest : x = Checked.first good r) (k : Nat) :
    (if c then .refused k else x) = Checked.first good ((k, bad) :: r) := by
  by_cases hb : bad
  · rw [if_pos (h.2 hb), Checked.first_of_bad hb]
  · rw [if_neg fun hc => hb (h.1 hc), Checked.first_of_not hb, rest]

theorem Checked.first_refused (h : KHdr) (b : Option Binding) (l : List (Nat × Prop)) (n : Nat) :
    Checked.first (.good h b) l = .refused n ↔ Claim.firstReason l n := by
  induction l with
  | nil => simp [Checked.first, Claim.firstReason]
  | cons x r ih =>
    obtain ⟨k, bad⟩ := x
    by_cases hb : bad <;> simp [Checked.first, Claim.firstReason, hb, ih, eq_comm]

theorem Checked.first_good {good : Checked} {h : KHdr} {b : Option Binding} {l : List (Nat × Prop)} (run : Checked.first good l = .good h b) :
    good = .good h b ∧ ∀ x ∈ l, ¬ x.2 := by
  induction l with
  | nil => exact ⟨run, nofun⟩
  | cons x r ih =>
    obtain ⟨k, bad⟩ := x
    by_cases hb : bad
    · rw [Checked.first_of_bad hb] at run
      cases run
    · rw [Checked.first_of_not hb] at run
      obtain ⟨rfl, none⟩ := ih run
      exact ⟨rfl, List.forall_mem_cons.2 ⟨hb, none⟩⟩

/-- The binding of a record that names one. -/
def State.recBind (s : State) (part asid : Nat) (r : LRec) : Option Binding := if r.collb = 0 then none else s.checkBinding part asid r

/-- The header that a record names, as its bytes stand. -/
def State.recHdr (s : State) (asid : Nat) (r : LRec) : KHdr := hdrOf (Claim.bytesAt s asid r.khdr 256)

/-- The claim's list in terms of the record and the header as the model reads them. -/
theorem recordFaults_eq (s : State) (part asid : Nat) (device : Bool) (bs : List Byte) :
    Claim.recordFaults s part asid device bs =
      let r := parseLRec bs
      let k := s.recHdr asid r
      [(2, ¬ Claim.recordFieldsOk s part device bs),
       (3, ¬ Claim.headerGood s asid r.khdr),
       (2, r.isDen = true ∧ k.scratch < 64 * (r.gridy + 1)),
       (4, ¬ Claim.readable s asid r.argp k.args),
       (5, r.feedq ≠ 0 ∧ ¬ ∃ q, s.feedq? (r.feedq - 1) = some q ∧ q.part = part),
       (6, r.collb ≠ 0 ∧ s.checkBinding part asid r = none),
       (7, ∃ x ∈ levelIds bs, x.2.1 ≠ 0 ∧ ∃ c, s.level? part x.1 x.2.1 = some c ∧ c.cancelled = true),
       (8, ∃ x ∈ levelIds bs, x.2.1 ≠ 0 ∧ s.level? part x.1 x.2.1 = none ∧ x.2.2 ≤ s.front.levels.countP (·.level == x.1)),
       (9, device = true ∧ 512 < s.front.intervals.length + r.used.length)] := by
  dsimp only
  rw [used_length]
  rfl

/-- The checks of a record are those that the claim lists, in its order. -/
theorem checkRec_eq (s : State) (part asid : Nat) (device : Bool) (bs : List Byte) : s.checkRec part asid device bs =
    Checked.first (.good (s.recHdr asid (parseLRec bs)) (s.recBind part asid (parseLRec bs))) (Claim.recordFaults s part asid device bs) := by
  rw [recordFaults_eq]
  unfold State.checkRec
  have order2 : (!s.recOk part bs (parseLRec bs) || (device && !(field bs 127 1).testBit 7)) = true ↔ ¬ Claim.recordFieldsOk s part device bs := by
    rw [recOk_iff]
    cases device
    · simp
    · simp [← not_and_or, ← Bool.not_eq_true]
  generalize hr : parseLRec bs = r
  dsimp only
  rw [hr] at order2
  refine Checked.first_ite order2 ?_ 2
  rw [readHdr_eq]
  by_cases hdr : Claim.headerGood s asid r.khdr
  · rw [Checked.first_of_not (not_not.2 hdr), if_pos hdr, ← State.recHdr]
    generalize s.recHdr asid r = k
    dsimp only
    refine Checked.first_ite (by simp) ?_ 2
    rw [fwRead_eq]
    by_cases args : Claim.readable s asid r.argp k.args
    · rw [Checked.first_of_not (not_not.2 args), if_pos args]
      dsimp only
      refine Checked.first_ite (by rw [Bool.not_eq_true', ← Bool.not_eq_true]; simp [Option.any_eq_true]) ?_ 5
      refine Checked.first_ite ?_ ?_ 6
      · by_cases named : r.collb = 0 <;> simp [named]
      refine Checked.first_ite ?_ ?_ 7
      · rw [← hr, any_levels bs fun lv id => (s.level? part lv id).any (·.cancelled)]
        simp [Option.any_eq_true]
      refine Checked.first_ite ?_ ?_ 8
      · rw [← hr, any_levels bs fun lv id => (s.level? part lv id).isNone && decide (levelRoom lv ≤ (s.front.levels.filter (·.level == lv)).length)]
        refine exists_congr fun x => and_congr_right fun named => ?_
        rw [Bool.and_eq_true, Option.isNone_iff_eq_none, decide_eq_true_eq, levelRoom_of_mem named, List.countP_eq_length_filter]
      · exact Checked.first_ite (r := []) Iff.rfl rfl 9
    · rw [Checked.first_of_bad args, if_neg args]
  · rw [Checked.first_of_bad hdr, if_neg hdr]

theorem recordsAreChecked : Claim.RecordsAreChecked := by
  intro s part asid device bs
  refine ⟨fun n => ?_, fun k b good => ?_⟩
  · rw [checkRec_eq, Checked.first_refused]
  · rw [checkRec_eq] at good
    obtain ⟨same, passed⟩ := Checked.first_good good
    obtain ⟨rfl, rfl⟩ := Checked.good.inj same
    have bound : ¬ ((parseLRec bs).collb ≠ 0 ∧ s.checkBinding part asid (parseLRec bs) = none) :=
      passed (6, _) (by rw [recordFaults_eq]; simp)
    refine ⟨rfl, rfl, rfl, rfl, rfl, rfl, rfl, rfl, rfl, rfl, rfl, rfl, ?_⟩
    show s.recBind part asid (parseLRec bs) = none ↔ (parseLRec bs).collb = 0
    unfold State.recBind
    split_ifs with unnamed
    · simp [unnamed]
    · simp only [unnamed, iff_false]
      exact fun none => bound ⟨unnamed, none⟩

/-! ## Writes of physical memory -/

theorem State.wakeLines_eq (s : State) (ls : List Nat) :
    ls.foldl (fun s l => s.wakeLine l) s = { s with teams := (ls.foldl (fun s l => s.wakeLine l) s).teams } := by
  induction ls generalizing s with
  | nil => rfl
  | cons l r ih => exact ih (s.wakeLine l)

theorem State.retag_eq (s : State) (g line : Nat) : s.retag g line =
    { s with mem := { s.mem with tags := (s.retag g line).mem.tags, phys := { s.mem.phys with cells := (s.retag g line).mem.phys.cells } } } := by
  unfold State.retag
  split_ifs <;> rfl

/-- A line written under the generation that it holds is left as it is; another is lost, and no line beside it. -/
theorem State.retag_byte (s : State) {g line x : Nat} (h : s.mem.tags.get 0 line = g ∨ x / 128 ≠ line) :
    (s.retag g line).mem.phys.byte x = s.mem.phys.byte x := by
  unfold State.retag
  split_ifs with tagged
  · rfl
  · have cells (js : List Nat) (m : Tab Byte) (hjs : ∀ j ∈ js, j < 128) :
        (js.foldl (fun (m : Tab Byte) j => m.set 0 (128 * line + j) (Config.garbage s.sched.steps (128 * line + j))) m).get 0 x = m.get 0 x := by
      induction js generalizing m with
      | nil => rfl
      | cons j r ih =>
        have hj := hjs j List.mem_cons_self
        have other := h.resolve_left tagged
        exact (ih _ fun k hk => hjs k (List.mem_cons_of_mem _ hk)).trans (Tab.get_set_other 0 m _ (by omega))
    exact cells _ _ fun j hj => List.mem_range.1 hj

theorem State.physWrite_eq (s : State) (w : Writer) (g pa : Nat) (bs : List Byte) : s.physWrite w g pa bs =
    { s with mem := { s.mem with tags := (s.physWrite w g pa bs).mem.tags, phys := (s.physWrite w g pa bs).mem.phys },
             teams := (s.physWrite w g pa bs).teams } := by
  unfold State.physWrite
  dsimp only
  rw [State.wakeLines_eq]
  split_ifs
  · rw [State.retag_eq]; rfl
  · rfl

@[simp] theorem State.physWrite_front (s : State) (w : Writer) (g pa : Nat) (bs : List Byte) : (s.physWrite w g pa bs).front = s.front := by
  rw [State.physWrite_eq]
@[simp] theorem State.physWrite_parts (s : State) (w : Writer) (g pa : Nat) (bs : List Byte) : (s.physWrite w g pa bs).parts = s.parts := by
  rw [State.physWrite_eq]
@[simp] theorem State.physWrite_poison (s : State) (w : Writer) (g pa : Nat) (bs : List Byte) :
    (s.physWrite w g pa bs).mem.poison = s.mem.poison := by
  rw [State.physWrite_eq]
@[simp] theorem State.physWrite_part (s : State) (w : Writer) (g pa : Nat) (bs : List Byte) (p : Nat) : (s.physWrite w g pa bs).part p = s.part p := by
  rw [State.physWrite_eq]; rfl

/-- The bytes of a write are those it names. -/
theorem State.physWrite_inside (s : State) (w : Writer) (g pa : Nat) (bs : List Byte) {j : Nat} (h : j < bs.length) :
    (s.physWrite w g pa bs).mem.phys.byte (pa + j) = bs[j] := by
  unfold State.physWrite
  simp only [State.wakeLines_mem, State.setPhys_phys]
  exact Store.setBytes_inside _ pa bs h

/-- Every other byte is left as it is, but in a line of HBM that was written under another generation. -/
theorem State.physWrite_outside (s : State) (w : Writer) {g pa x : Nat} {bs : List Byte} (h : x < pa ∨ pa + bs.length ≤ x)
    (line : physKind pa = .hbm → s.mem.tags.get 0 (pa / 128) = g ∨ x / 128 ≠ pa / 128) :
    (s.physWrite w g pa bs).mem.phys.byte x = s.mem.phys.byte x := by
  unfold State.physWrite
  simp only [State.wakeLines_mem, State.setPhys_phys]
  rw [State.storeWrite_outside _ _ w pa bs h]
  split_ifs with hbm
  · exact s.retag_byte (line hbm)
  · rfl

/-! ## The window, R286 -/

/-- The watched slot's record is read when byte 127 has its seal. -/
theorem State.watch_eq {s : State} {p : Nat} (running : (s.part p).flr = false) (free : (s.front.pendingLaunches.any fun y => y.1 == p) = false)
    (sound : s.poisoned (s.slotAddr p) = false) :
    s.watch p = { s with front := { s.front with pendingLaunches := s.front.pendingLaunches ++
      if (s.mem.phys.byte (s.slotAddr p + 127)).getLsbD 7 then [(p, s.sched.steps, (List.range 128).map fun j => s.mem.phys.byte (s.slotAddr p + j))]
      else [] } } := by
  unfold State.watch
  dsimp only
  rw [running, free, sound, Bool.false_or, Bool.false_or, if_neg Bool.false_ne_true]
  cases (s.mem.phys.byte (s.slotAddr p + 127)).getLsbD 7
  · exact (congrArg (fun l => { s with front := { s.front with pendingLaunches := l } }) (List.append_nil _)).symm
  · rfl

theorem launchRecordSeal (s : State) (p : Fin 32) (x : Byte) (phy : s.mgmt.phy = true) (running : (s.part p).flr = false)
    (free : s.front.pendingLaunches.any (fun y => y.1 == p.val) = false) (plain : s.mem.tags.get 0 ((s.slotAddr p + 127) / 128) = 0)
    (sound : s.poisoned (s.slotAddr p) = false) :
    ∃ t, exec (.launchRecordSeal p x) s = .next t ∧ t.mem.phys.byte (s.slotAddr p + 127) = x ∧
      (∀ a, a ≠ s.slotAddr p + 127 → t.mem.phys.byte a = s.mem.phys.byte a) ∧ t.parts = s.parts ∧
      (let sealed := if x.getLsbD 7 then [(p.val, s.sched.steps, (List.range 128).map fun j => t.mem.phys.byte (s.slotAddr p + j))] else []
       t.front = { s.front with pendingLaunches := s.front.pendingLaunches ++ sealed }) := by
  have stored := s.physWrite_inside ⟨none, none⟩ 0 (s.slotAddr p + 127) [x] (j := 0) (by simp)
  have kept (a : Nat) (ha : a ≠ s.slotAddr p + 127) :
      (s.physWrite ⟨none, none⟩ 0 (s.slotAddr p + 127) [x]).mem.phys.byte a = s.mem.phys.byte a :=
    s.physWrite_outside _ (by simp only [List.length_singleton]; omega) fun _ => .inl plain
  have slot : (s.physWrite ⟨none, none⟩ 0 (s.slotAddr p + 127) [x]).slotAddr p = s.slotAddr p := by simp [State.slotAddr]
  refine ⟨_, if_neg (by simp [phy]), ?_⟩
  rw [State.watch_eq (by simpa using running) (by simpa using free) (by simpa [State.poisoned, slot] using sound)]
  refine ⟨stored, kept, State.physWrite_parts .., ?_⟩
  simp only [slot, State.physWrite_front, State.physWrite_sched]
  rw [show (s.physWrite ⟨none, none⟩ 0 (s.slotAddr p + 127) [x]).mem.phys.byte (s.slotAddr p + 127) = x from stored]

/-! ## No line is poisoned -/

section sound
variable {s : State} (sound : s.mem.poison = [])
include sound

theorem State.poisoned_of_sound (a : Nat) : s.poisoned a = false := by simp [State.poisoned, sound]

theorem State.present_of_sound (a : Nat) {k : Nat → Walk} (pa : Nat) (h : ∀ e, k e ≠ .poisoned pa) : s.present a k ≠ .poisoned pa := by
  unfold State.present
  rw [State.poisoned_of_sound sound, if_neg Bool.false_ne_true]
  dsimp only
  split_ifs
  · nofun
  · exact h _

omit sound in
theorem State.leaf_ne_poisoned (c : Ctx) (e va sh : Nat) (need : Right) (pa : Nat) : s.leaf c e va sh need ≠ .poisoned pa := by
  unfold State.leaf
  dsimp only
  split_ifs <;> nofun

theorem State.translate_of_sound (asid va : Nat) (need : Right) (pa : Nat) : s.translate asid va need ≠ .poisoned pa := by
  have walk (c : Ctx) : s.walk c va need ≠ .poisoned pa := by
    refine State.present_of_sound sound _ pa fun e0 => ?_
    split_ifs
    · nofun
    refine State.present_of_sound sound _ pa fun e1 => ?_
    split_ifs
    · exact State.leaf_ne_poisoned c e1 va 30 need pa
    · nofun
    refine State.present_of_sound sound _ pa fun e2 => ?_
    split_ifs
    · exact State.leaf_ne_poisoned c e2 va 21 need pa
    · nofun
    refine State.present_of_sound sound _ pa fun e3 => ?_
    split_ifs
    · nofun
    · exact State.leaf_ne_poisoned c e3 va 16 need pa
  unfold State.translate
  split
  · split_ifs <;> nofun
  · split
    · exact walk _
    · nofun

theorem State.fwPoison_of_sound (asid va n : Nat) : s.fwPoison asid va n = none := by
  refine List.findSome?_eq_none_iff.2 fun p _ => ?_
  split_ifs
  · rfl
  · have found := State.translate_of_sound sound asid p.1 rightR
    cases h : s.translate asid p.1 rightR with
    | ok l => simp [State.poisoned_of_sound sound]
    | poisoned pa => exact absurd h (found pa)
    | _ => rfl

theorem State.hdrPoison_of_sound (asid h : Nat) : s.hdrPoison asid h = none := by
  have line (target : Nat) : (match s.translate asid (target / 64 * 64) {} with
      | .ok l => if canonical target && (l.r || l.x) && s.poisoned l.pa then some l.pa else none
      | .poisoned pa => some pa
      | _ => none) = none := by
    have found := State.translate_of_sound sound asid (target / 64 * 64) {}
    cases h : s.translate asid (target / 64 * 64) {} with
    | ok l => simp [State.poisoned_of_sound sound]
    | poisoned pa => exact absurd h (found pa)
    | _ => rfl
  unfold State.hdrPoison
  rw [State.fwPoison_of_sound sound]
  cases (s.fwRead asid h 256).bind parseHdr with
  | none => rfl
  | some k =>
    refine (congrArg (fun o => Option.orElse o _) (line k.entry)).trans ?_
    show (if k.handler = 0 then none else _) = none
    split_ifs
    · rfl
    · exact line k.handler

/-- A record that is refused then consumes no poisoned line, R417. -/
theorem State.recMchk_of_sound (asid : Nat) (r : LRec) (reason : Nat) : s.recMchk asid r reason = s := by
  have none_ : s.recPoison asid r reason = none := by
    unfold State.recPoison
    split
    · exact State.hdrPoison_of_sound sound _ _
    · exact State.fwPoison_of_sound sound _ _ _
    · rw [State.fwPoison_of_sound sound, ite_self]
    · rfl
  rw [State.recMchk, none_]

/-- The monitor looks at the next slot, and changes nothing but the records that it has read. -/
theorem State.watch_of_sound (p : Nat) : ∃ l, s.watch p = { s with front := { s.front with pendingLaunches := l } } := by
  unfold State.watch
  dsimp only
  rw [State.poisoned_of_sound sound, if_neg Bool.false_ne_true]
  split_ifs
  · exact ⟨s.front.pendingLaunches, rfl⟩
  · exact ⟨_, rfl⟩

end sound

/-! ## A slot is released, R289 -/

@[simp] theorem State.modPart_front (s : State) (p : Nat) (f : Part → Part) : (s.modPart p f).front = s.front := rfl

@[simp] theorem State.releaseSlot_front (s : State) (p slot : Nat) :
    (s.releaseSlot p slot).front = { s.front with pendingLaunches := s.front.pendingLaunches.filter (·.1 != p) } :=
  State.physWrite_front ..
@[simp] theorem State.releaseSlot_parts (s : State) (p slot : Nat) : (s.releaseSlot p slot).parts = s.parts := State.physWrite_parts ..
@[simp] theorem State.releaseSlot_part (s : State) (p slot k : Nat) : (s.releaseSlot p slot).part k = s.part k := State.physWrite_part ..
@[simp] theorem State.releaseSlot_poison (s : State) (p slot : Nat) : (s.releaseSlot p slot).mem.poison = s.mem.poison := State.physWrite_poison ..

theorem State.releaseSlot_last (s : State) (p slot : Nat) : (s.releaseSlot p slot).mem.phys.byte ((s.part p).winBase + 128 * slot + 127) = 0 :=
  State.physWrite_inside _ ⟨none, none⟩ 0 _ [0] (j := 0) (by simp)

theorem physKind_eq_hbm {a : Nat} (h : physKind a = .hbm) : a < 0x6000000000 := by
  unfold physKind at h
  split_ifs at h with low
  exact low

/-- Host memory but for that byte is left as it is. -/
theorem State.releaseSlot_host (s : State) (p slot : Nat) {x : Nat} (host : 0x100000000000 ≤ x) (other : x ≠ (s.part p).winBase + 128 * slot + 127) :
    (s.releaseSlot p slot).mem.phys.byte x = s.mem.phys.byte x := by
  refine State.physWrite_outside _ _ (g := 0) (bs := [0]) ?_ fun hbm => .inr ?_
  · show x < (s.part p).winBase + 128 * slot + 127 ∨ (s.part p).winBase + 128 * slot + 127 + 1 ≤ x
    omega
  · have low : (s.part p).winBase + 128 * slot + 127 < 0x6000000000 := physKind_eq_hbm hbm
    show x / 128 ≠ ((s.part p).winBase + 128 * slot + 127) / 128
    omega

@[simp] theorem State.hostWrite_front (s : State) (h : Nat) (bs : List Byte) : (s.hostWrite h bs).front = s.front := State.physWrite_front ..
@[simp] theorem State.hostWrite_parts (s : State) (h : Nat) (bs : List Byte) : (s.hostWrite h bs).parts = s.parts := State.physWrite_parts ..
@[simp] theorem State.hostWrite_part (s : State) (h : Nat) (bs : List Byte) (k : Nat) : (s.hostWrite h bs).part k = s.part k := State.physWrite_part ..
@[simp] theorem State.hostWrite_poison (s : State) (h : Nat) (bs : List Byte) : (s.hostWrite h bs).mem.poison = s.mem.poison := State.physWrite_poison ..

/-! ## A record is refused, R290, R292 -/

/-- The status record of a refusal. -/
def State.refusal (s : State) (p reason : Nat) : Status := ⟨1, reason, 0, (s.part p).reads, s.clock.time, 0, none⟩

theorem Status.bytes_length (r : Status) : r.bytes.length = 32 := by simp [Status.bytes]

/-- Where the next status record of a partition goes, R292. -/
def Part.place (q : Part) : Nat := q.sqbase + 32 * (q.sqtail % q.ringSize)

section refuse
variable {s : State} {p : Nat} (hp : p < s.parts.length) (running : (s.part p).flr = false) (held : (s.part p).held = [])
  (room : (s.part p).ringRoom = true) (slot n : Nat)
include running held room

/-- The record goes to the ring, the slot is released, and the record counts as read. -/
theorem State.refuseHost_eq : s.refuseHost p slot n =
    ((((s.hostWrite (s.part p).place (s.refusal p n).bytes).modPart p fun q => { q with sqtail := q.sqtail + 1 }).releaseSlot p slot).modPart p
      fun q => { q with reads := q.reads + 1 }) := by
  unfold State.refuseHost State.status
  simp only [running, held, room, List.isEmpty_nil, Bool.and_self, if_true, Bool.false_eq_true, if_false]
  rfl

theorem State.refuseHost_front : (s.refuseHost p slot n).front = { s.front with pendingLaunches := s.front.pendingLaunches.filter (·.1 != p) } := by
  rw [State.refuseHost_eq running held room]
  simp

theorem State.refuseHost_poison : (s.refuseHost p slot n).mem.poison = s.mem.poison := by
  rw [State.refuseHost_eq running held room]
  simp

include hp in
theorem State.refuseHost_part : (s.refuseHost p slot n).part p = { s.part p with sqtail := (s.part p).sqtail + 1, reads := (s.part p).reads + 1 } := by
  rw [State.refuseHost_eq running held room, State.part_modPart _ _ (by simpa using hp), if_pos rfl, State.releaseSlot_part,
    State.part_modPart _ _ (by simpa using hp), if_pos rfl, State.hostWrite_part]

include hp in
theorem State.refuseHost_last : (s.refuseHost p slot n).mem.phys.byte ((s.part p).winBase + 128 * slot + 127) = 0 := by
  rw [State.refuseHost_eq running held room]
  have last := State.releaseSlot_last ((s.hostWrite (s.part p).place (s.refusal p n).bytes).modPart p fun q => { q with sqtail := q.sqtail + 1 }) p slot
  rwa [State.part_modPart _ _ (by simpa using hp), if_pos rfl, State.hostWrite_part] at last

include hp in
theorem State.refuseHost_record (apart : (s.part p).winBase + 128 * slot + 127 < hostPa (s.part p).place ∨
      hostPa (s.part p).place + 32 ≤ (s.part p).winBase + 128 * slot + 127) {j : Nat} (hj : j < 32) :
    (s.refuseHost p slot n).mem.phys.byte (hostPa (s.part p).place + j) = (s.refusal p n).bytes.getD j 0 := by
  have len := (s.refusal p n).bytes_length
  rw [State.refuseHost_eq running held room, State.modPart_mem, State.releaseSlot_host, State.modPart_mem, State.hostWrite,
    State.physWrite_inside _ _ _ _ _ (by omega), List.getD_eq_getElem _ _ (by omega)]
  · unfold hostPa
    omega
  · rw [State.part_modPart _ _ (by simpa using hp), if_pos rfl, State.hostWrite_part]
    show _ ≠ (s.part p).winBase + 128 * slot + 127
    omega

end refuse

/-- The partition's window goes on to the next record. -/
def State.windowOn (s : State) (p : Nat) : State := s.modPart p fun q => { q with e := (q.e + 1) % 128 }

theorem State.windowOn_part {s : State} {p : Nat} (hp : p < s.parts.length) :
    (s.windowOn p).part p = { s.part p with e := ((s.part p).e + 1) % 128 } := by
  rw [State.windowOn, State.part_modPart s _ hp, if_pos rfl]

/-- What is left when the record of a partition is refused for a reason, and the window stands at e. -/
def State.Refuses (s t : State) (p e n : Nat) : Prop :=
  (t.part p).sqtail = (s.part p).sqtail + 1 ∧ (t.part p).reads = (s.part p).reads + 1 ∧ (t.part p).e = e ∧
    t.front.launches = s.front.launches ∧ t.front.accSeq = s.front.accSeq ∧ t.front.irqs = s.front.irqs ∧
    (let q := s.part p
     let place := hostPa (q.sqbase + 32 * (q.sqtail % 2 ^ q.sqcfg))
     let last := q.winBase + 128 * (q.e % 64) + 127
     t.mem.phys.byte last = 0 ∧ (last < place ∨ place + 32 ≤ last → ∀ j < 32, t.mem.phys.byte (place + j) =
       (leBytes 4 1 ++ leBytes 4 n ++ leBytes 4 0 ++ leBytes 4 0 ++ leBytes 8 q.reads ++ leBytes 8 s.clock.time).getD j 0))

section check
variable {s : State} {p : Nat} (hp : p < s.parts.length) (running : (s.part p).flr = false) (held : (s.part p).held = [])
  (room : (s.part p).ringRoom = true)
include hp running held room

theorem refuseHost_refuses (n : Nat) : State.Refuses s (s.refuseHost p ((s.part p).e % 64) n) p (s.part p).e n := by
  unfold State.Refuses
  rw [State.refuseHost_part hp running held room, State.refuseHost_front running held room]
  exact ⟨rfl, rfl, rfl, rfl, rfl, rfl, State.refuseHost_last hp running held room _ n,
    fun apart j hj => State.refuseHost_record hp running held room _ n apart hj⟩

/-- So too where the window has gone on. -/
theorem windowOn_refuseHost_refuses (n : Nat) :
    State.Refuses s ((s.windowOn p).refuseHost p ((s.part p).e % 64) n) p (((s.part p).e + 1) % 128) n := by
  have ahead := State.windowOn_part hp
  have hp' : p < (s.windowOn p).parts.length := by simpa [State.windowOn] using hp
  have running' : ((s.windowOn p).part p).flr = false := by rw [ahead]; exact running
  have held' : ((s.windowOn p).part p).held = [] := by rw [ahead]; exact held
  have room' : ((s.windowOn p).part p).ringRoom = true := by rw [ahead]; exact room
  have last := State.refuseHost_last hp' running' held' room' ((s.part p).e % 64) n
  have record := @State.refuseHost_record _ _ hp' running' held' room' ((s.part p).e % 64) n
  rw [ahead] at last
  unfold State.refusal at record
  rw [ahead] at record
  unfold State.Refuses
  rw [State.refuseHost_part hp' running' held' room', State.refuseHost_front running' held' room', ahead]
  exact ⟨rfl, rfl, rfl, rfl, rfl, rfl, last, fun apart j hj => record apart hj⟩

omit hp running held room in
theorem State.Refuses.withPending {t : State} {e n : Nat} (h : State.Refuses s t p e n) (l : List (Nat × Nat × List Byte)) :
    State.Refuses s { t with front := { t.front with pendingLaunches := l } } p e n := h

end check

/-- fw0 takes the partition's record, R287. -/
theorem exec_launchRecordCheck {s t : State} {p : Fin 32} {stamp : Nat} {bs : List Byte}
    (pending : s.front.pendingLaunches.find? (fun y => y.1 == p.val) = some (p.val, stamp, bs)) (running : (s.part p).flr = false)
    (held : (s.part p).held = []) (room : (s.part p).ringRoom = true) (run : s.checkHost p stamp bs = some t) :
    exec (.launchRecordCheck p) s = .next t := by
  show execLaunchRecordCheck p s = _
  unfold execLaunchRecordCheck
  rw [pending]
  simp [running, held, room, run]

/-- A record out of turn, or one that breaks a check, is refused, R290. -/
theorem launchRecord_refused {s : State} {p : Fin 32} {stamp : Nat} {bs : List Byte} (hp : p.val < s.parts.length)
    (pending : s.front.pendingLaunches.find? (fun y => y.1 == p.val) = some (p.val, stamp, bs)) (running : (s.part p).flr = false)
    (held : (s.part p).held = []) (room : (s.part p).ringRoom = true) (sound : s.mem.poison = []) {n : Nat}
    (bad : if field bs 127 1 % 128 = (s.part p).e then s.checkRec p (s.partAsid p) false bs = .refused n else n = 1) :
    ∃ t, exec (.launchRecordCheck p) s = .next t ∧
      State.Refuses s t p (if field bs 127 1 % 128 = (s.part p).e then ((s.part p).e + 1) % 128 else (s.part p).e) n := by
  split_ifs at bad ⊢ with inTurn
  · have ahead := State.windowOn_part hp
    have sound' : ((s.windowOn p).refuseHost p ((s.part p).e % 64) n).mem.poison = [] := by
      rw [State.refuseHost_poison (by rw [ahead]; exact running) (by rw [ahead]; exact held) (by rw [ahead]; exact room)]
      exact sound
    have run : s.checkHost p stamp bs = some ((((s.windowOn p).refuseHost p ((s.part p).e % 64) n).recMchk (s.partAsid p) (parseLRec bs) n).watch p) := by
      unfold State.checkHost
      simp only [inTurn, bad]
      simp [State.windowOn]
    rw [State.recMchk_of_sound sound'] at run
    obtain ⟨l, watched⟩ := State.watch_of_sound sound' p
    rw [watched] at run
    exact ⟨_, exec_launchRecordCheck pending running held room run, (windowOn_refuseHost_refuses hp running held room n).withPending l⟩
  · subst bad
    have sound' : (s.refuseHost p ((s.part p).e % 64) 1).mem.poison = [] := by
      rw [State.refuseHost_poison running held room]
      exact sound
    obtain ⟨l, watched⟩ := State.watch_of_sound sound' p
    have run : s.checkHost p stamp bs = some ((s.refuseHost p ((s.part p).e % 64) 1).watch p) := if_pos inTurn
    rw [watched] at run
    exact ⟨_, exec_launchRecordCheck pending running held room run, (refuseHost_refuses hp running held room 1).withPending l⟩

/-! ## A record is accepted, R291, R294, R303 -/

/-- What a partition counts of its window and its launches. -/
def Part.window (q : Part) : Nat × Nat × Nat := (q.e, q.reads, q.ids)

theorem Part.window_eq_iff {q : Part} {e reads ids : Nat} : q.window = (e, reads, ids) ↔ q.e = e ∧ q.reads = reads ∧ q.ids = ids := by
  simp only [Part.window, Prod.mk.injEq]

/-- What status records leave as it is. -/
structure State.SameWork (s t : State) : Prop where
  launches : t.front.launches = s.front.launches
  accSeq : t.front.accSeq = s.front.accSeq
  dens : t.front.dens = s.front.dens
  poison : t.mem.poison = s.mem.poison
  count : t.parts.length = s.parts.length
  window : ∀ k, (t.part k).window = (s.part k).window

namespace State.SameWork
variable {s t u : State}

theorem refl (s : State) : s.SameWork s := ⟨rfl, rfl, rfl, rfl, rfl, fun _ => rfl⟩

theorem trans (h : s.SameWork t) (g : t.SameWork u) : s.SameWork u :=
  ⟨g.launches.trans h.launches, g.accSeq.trans h.accSeq, g.dens.trans h.dens, g.poison.trans h.poison, g.count.trans h.count,
    fun k => (g.window k).trans (h.window k)⟩

theorem foldl {α : Type} {f : State → α → State} (hf : ∀ (s : State) x, s.SameWork (f s x)) (l : List α) (s : State) : s.SameWork (l.foldl f s) := by
  induction l generalizing s with
  | nil => exact refl s
  | cons x r ih => exact (hf s x).trans (ih (f s x))

theorem modPart (s : State) (p : Nat) {f : Part → Part} (hf : ∀ q, (f q).window = q.window) : s.SameWork (s.modPart p f) := by
  refine ⟨rfl, rfl, rfl, rfl, s.modPart_parts_length p f, fun k => ?_⟩
  by_cases hk : k = p
  · subst hk
    by_cases hp : k < s.parts.length
    · rw [State.part_modPart s f hp, if_pos rfl, hf]
    · simp only [State.part, State.modPart, nth_eq_getD]
      rw [List.getD_eq_default _ _ (by simpa using hp), List.getD_eq_default _ _ (by simpa using hp)]
  · exact congrArg _ (nth_modNth_other _ f _ hk)

theorem hostWrite (s : State) (h : Nat) (bs : List Byte) : s.SameWork (s.hostWrite h bs) := by
  constructor <;> simp

theorem irq (s : State) (p vec : Nat) : s.SameWork (s.irq p vec) := by
  unfold State.irq
  split_ifs
  · exact refl s
  · exact ⟨rfl, rfl, rfl, rfl, rfl, fun _ => rfl⟩

theorem putStatus (s : State) (p : Nat) (r : Status) : s.SameWork (s.putStatus p r) := by
  have written := (hostWrite s (s.part p).place r.bytes).trans (modPart _ p (f := fun q => { q with sqtail := q.sqtail + 1 }) fun _ => rfl)
  unfold State.putStatus
  cases r.vec with
  | none => exact written
  | some n => exact written.trans (irq _ p n)

theorem status (s : State) (p type detail id seq launch : Nat) (vec : Option Nat) : s.SameWork (s.status p type detail id seq launch vec) := by
  unfold State.status
  dsimp only
  split_ifs
  · exact refl s
  · exact putStatus s p _
  · exact modPart s p fun _ => rfl
  · exact modPart s p fun _ => rfl

theorem nameLevel (s : State) (part : Nat) (x : Level × Nat × Bool) : s.SameWork (s.nameLevel part x) := ⟨rfl, rfl, rfl, rfl, rfl, fun _ => rfl⟩

theorem settleLevels (s : State) : s.SameWork s.settleLevels := by
  refine foldl (fun s c => ?_) _ s
  exact State.SameWork.trans (t := { s with front := { s.front with levels := s.front.levels.filter (· != c) } })
    ⟨rfl, rfl, rfl, rfl, rfl, fun _ => rfl⟩ (status ..)

/-- Level counters that reach zero report; with no den there is nothing else to settle. -/
theorem settleWork (dens : s.front.dens = []) : s.SameWork s.settleWork := by
  have levels := settleLevels s
  have none_ : s.settleWork = s.settleLevels := by
    unfold State.settleWork State.settleDens
    rw [levels.dens, dens]
    rfl
  rwa [none_]

end State.SameWork

/-- A launch as it is accepted. -/
def Launch.fresh (id seq part asid : Nat) (r : LRec) (h : KHdr) (argp : Nat) (hazards : List Item) (sealedAt : Nat) : Launch :=
  { id, seq, part, asid, lrec := r, hdr := h, argp, hazards, next := 0, total := r.gridx * r.gridy * r.gridz, restarts := [],
    cancelled := false, cancelBits := 0, overBudget := false, killed := false, late := false, sealedAt, report := none,
    timedOut := false, burrows := [], coll := none }

/-- The argument page is new memory: the front end and the partitions are as they were. -/
theorem State.argPage_same {s s1 : State} {asid owner va : Nat} {args : List Byte} (page : s.argPage asid owner args = some (va, s1)) :
    s1.front = s.front ∧ s1.parts = s.parts ∧ (s.mem.poison = [] → s1.mem.poison = []) := by
  unfold State.argPage at page
  dsimp only at page
  split at page
  · obtain ⟨-, rfl⟩ := Prod.mk.inj (Option.some.inj page)
    exact ⟨rfl, rfl, fun sound => by simp [sound]⟩
  · cases page

/-- A record enters its launch, of the partition's count, over the state that has its argument page. -/
def State.enter (s1 : State) (part asid stamp va count : Nat) (r : LRec) (h : KHdr) : State :=
  let s2 := s1.modPart part fun q => { q with ids := count }
  let id := part * 2 ^ 27 + count
  let s3 : State := { s2 with front := { s2.front with
    accSeq := s1.front.accSeq + 1, intervals := s2.front.intervals ++ r.used.map fun x => ⟨asid, x.1, x.2.1, x.2.2, .launch id⟩ } }
  let s4 := r.levels.foldl (fun s x => s.nameLevel part x) s3
  let l := Launch.fresh id (s1.front.accSeq + 1) part asid r h va (s2.hazardsOf asid r none) stamp
  { s4 with front := { s4.front with launches := s4.front.launches ++ [l] } }

/-- An accepted record that opens no den and names no collective enters its launch; burrows grow and counters settle. -/
theorem State.accept_eq {s s1 : State} {part asid stamp va count : Nat} {r : LRec} {h : KHdr} (plain : r.isDen = false)
    (next : count = if (s.part part).ids = 2 ^ 27 - 1 then 1 else (s.part part).ids + 1)
    (page : s.argPage asid (part * 2 ^ 27 + count) (s.copyArgs asid r.argp h.args stamp) = some (va, s1)) :
    s.accept part asid stamp none r h none =
      some (part * 2 ^ 27 + count, (s1.enter part asid stamp va count r h).growBurrows.settleWork) := by
  unfold State.accept
  simp only [← next, page, plain, Bool.false_eq_true, if_false]
  rfl

/-- Entering changes the launches, the acceptance count and the partition's launch count alone of what status records leave. -/
theorem State.enter_work (s1 : State) (part asid stamp va count : Nat) (r : LRec) (h : KHdr) :
    let s2 := s1.modPart part fun q => { q with ids := count }
    let l := Launch.fresh (part * 2 ^ 27 + count) (s1.front.accSeq + 1) part asid r h va (s2.hazardsOf asid r none) stamp
    { s2 with front := { s2.front with accSeq := s1.front.accSeq + 1, launches := s1.front.launches ++ [l] } }.SameWork
      (s1.enter part asid stamp va count r h) := by
  intro s2 l
  have named := State.SameWork.foldl (fun s x => State.SameWork.nameLevel s part x) r.levels { s2 with front := { s2.front with
    accSeq := s1.front.accSeq + 1
    intervals := s2.front.intervals ++ r.used.map fun x => ⟨asid, x.1, x.2.1, x.2.2, .launch (part * 2 ^ 27 + count)⟩ } }
  exact ⟨congrArg (· ++ _) named.launches, named.accSeq, named.dens, named.poison, named.count, named.window⟩

theorem State.accept_spec {s s1 : State} {part asid stamp va count : Nat} {r : LRec} {h : KHdr} (hp : part < s.parts.length)
    (sound : s.mem.poison = []) (dens : s.front.dens = []) (plain : r.isDen = false)
    (next : count = if (s.part part).ids = 2 ^ 27 - 1 then 1 else (s.part part).ids + 1)
    (page : s.argPage asid (part * 2 ^ 27 + count) (s.copyArgs asid r.argp h.args stamp) = some (va, s1)) :
    ∃ (v u : State) (hz : List Item), s.accept part asid stamp none r h none = some (part * 2 ^ 27 + count, v) ∧
      v.front.launches = (s.front.launches ++
        [Launch.fresh (part * 2 ^ 27 + count) (s.front.accSeq + 1) part asid r h va hz stamp]).map (·.growBurrows u) ∧
      v.front.accSeq = s.front.accSeq + 1 ∧ v.parts.length = s.parts.length ∧
      (v.part part).window = ((s.part part).e, (s.part part).reads, count) ∧ v.mem.poison = [] := by
  obtain ⟨front, parts, sound1⟩ := State.argPage_same page
  have work := s1.enter_work part asid stamp va count r h
  rw [front] at work
  have grown : (s1.enter part asid stamp va count r h).growBurrows.front.dens = [] := by
    have none_ : (s1.enter part asid stamp va count r h).front.dens = [] := work.dens.trans ((congrArg Front.dens front).trans dens)
    show List.map _ (s1.enter part asid stamp va count r h).front.dens = []
    rw [none_, List.map_nil]
  have settled := State.SameWork.settleWork grown
  have launched := settled.launches.trans (congrArg (List.map fun x : Launch => x.growBurrows (s1.enter part asid stamp va count r h)) work.launches)
  refine ⟨_, _, _, State.accept_eq plain next page, launched, ?_, ?_, ?_, ?_⟩
  · exact settled.accSeq.trans work.accSeq
  · exact settled.count.trans (work.count.trans (by rw [State.modPart_parts_length, parts]))
  · refine (settled.window part).trans ((work.window part).trans ?_)
    show ((s1.modPart part _).part part).window = _
    rw [State.part_modPart _ _ (parts ▸ hp), if_pos rfl, State.part, parts]
    rfl
  · exact settled.poison.trans (work.poison.trans (sound1 sound))

/-- A record in turn that passes its checks makes a launch, once fw0 has room for its ranges and its argument page, R291. -/
theorem launchRecord_accepted {s s1 : State} {p : Fin 32} {stamp va count : Nat} {bs : List Byte} {h : KHdr} (hp : p.val < s.parts.length)
    (pending : s.front.pendingLaunches.find? (fun y => y.1 == p.val) = some (p.val, stamp, bs)) (running : (s.part p).flr = false)
    (held : (s.part p).held = []) (room : (s.part p).ringRoom = true) (sound : s.mem.poison = [])
    (inTurn : field bs 127 1 % 128 = (s.part p).e) (good : s.checkRec p (s.partAsid p) false bs = .good h none)
    (plain : (parseLRec bs).isDen = false) (fits : s.front.intervals.length + (parseLRec bs).used.length ≤ 512) (dens : s.front.dens = [])
    (next : count = if (s.part p).ids = 2 ^ 27 - 1 then 1 else (s.part p).ids + 1)
    (page : s.argPage (s.partAsid p) (p.val * 2 ^ 27 + count) (s.copyArgs (s.partAsid p) (parseLRec bs).argp h.args stamp) = some (va, s1)) :
    ∃ (t u : State) (hz : List Item), exec (.launchRecordCheck p) s = .next t ∧
      t.front.launches = (s.front.launches ++
        [Launch.fresh (p.val * 2 ^ 27 + count) (s.front.accSeq + 1) p (s.partAsid p) (parseLRec bs) h va hz stamp]).map (·.growBurrows u) ∧
      t.front.accSeq = s.front.accSeq + 1 ∧ (t.part p).window = (((s.part p).e + 1) % 128, (s.part p).reads + 1, count) := by
  obtain ⟨v, u, hz, accepted, launches, accSeq, len, window, sound'⟩ := State.accept_spec hp sound dens plain next page
  rw [← len] at hp
  have run : s.checkHost p stamp bs = some
      ((((v.windowOn p).releaseSlot p ((s.part p).e % 64)).modPart p fun q => { q with reads := q.reads + 1 }).watch p) := by
    unfold State.checkHost
    simp only [inTurn, good, accepted]
    simp [State.windowOn, not_lt.2 fits]
  obtain ⟨l, watched⟩ := State.watch_of_sound
    (s := ((v.windowOn p).releaseSlot p ((s.part p).e % 64)).modPart p fun q => { q with reads := q.reads + 1 })
    (by simpa [State.windowOn] using sound') p
  rw [watched] at run
  refine ⟨_, u, hz, exec_launchRecordCheck pending running held room run, ?_, ?_, ?_⟩
  · simpa [State.windowOn] using launches
  · simpa [State.windowOn] using accSeq
  · show ((((v.windowOn p).releaseSlot p ((s.part p).e % 64)).modPart p _).part p).window = _
    rw [State.part_modPart _ _ (by simpa [State.windowOn] using hp), if_pos rfl, State.releaseSlot_part, State.windowOn_part hp]
    obtain ⟨e, reads, ids⟩ := Part.window_eq_iff.1 window
    exact Part.window_eq_iff.2 ⟨by rw [e], by rw [reads], ids⟩

/-- Settles O33: the list of checks is the model's own, read field by field; a seal and a refusal are writes whose other bytes stand; of an
acceptance, what follows the launch's entry grows burrows and reports level counters. -/
theorem launchRecordsAreSealedCheckedAndAccepted : Obligations.LaunchRecordsAreSealedCheckedAndAccepted := by
  refine ⟨recordsAreChecked, launchRecordSeal, fun s p stamp bs len pending => ?_⟩
  have hp : p.val < s.parts.length := len.symm ▸ p.isLt
  refine ⟨fun reset => ?_, fun running room held sound => ⟨fun bad => ?_, ?_⟩⟩
  · show execLaunchRecordCheck p s = _
    unfold execLaunchRecordCheck
    rw [pending]
    simp [reset]
  · obtain ⟨n, reason⟩ : ∃ n, if field bs 127 1 % 128 = (s.part p).e then s.checkRec p (s.partAsid p) false bs = .refused n else n = 1 := by
      split_ifs with inTurn
      · exact bad.resolve_left (by simp [inTurn])
      · exact ⟨1, rfl⟩
    obtain ⟨t, run, sqtail, reads, e, launches, accSeq, irqs, last, record⟩ := launchRecord_refused hp pending running held room sound reason
    refine ⟨t, run, sqtail, reads, by simpa only [decide_eq_true_eq] using e, launches, accSeq, irqs, last, fun apart m given j hj => ?_⟩
    have same : m = n := by
      simp only [decide_eq_true_eq] at given
      split_ifs at given reason
      · exact Checked.refused.inj (given.symm.trans reason)
      · exact given.trans reason.symm
    exact same ▸ record apart j hj
  · intro h inTurn good plain fits dens count id va s1 page
    obtain ⟨t, u, hz, run, launches, accSeq, window⟩ := launchRecord_accepted hp pending running held room sound
      (of_decide_eq_true inTurn) good plain fits dens rfl page
    obtain ⟨e, reads, ids⟩ := Part.window_eq_iff.1 window
    have listed (x : Launch) (hx : x ∈ s.front.launches ++ [Launch.fresh id (s.front.accSeq + 1) p (s.partAsid p) (parseLRec bs) h va hz stamp]) :
        x.growBurrows u ∈ t.front.launches := by
      rw [launches]
      exact List.mem_map_of_mem hx
    exact ⟨t, _, run, listed _ (List.mem_append_right _ List.mem_cons_self), by simp [launches],
      fun x hx => ⟨_, listed x (List.mem_append_left _ hx), rfl⟩, rfl, rfl, rfl, rfl, rfl, rfl, rfl, rfl, rfl, accSeq, rfl, rfl, ids, e, reads⟩

end Sys2Proof.Machine
end


section
/-! Values that threads give one another: VOTE, BALLOT, SHUF, PUSH and RANK (R98 to R102). -/
namespace Sys2Proof.Machine

/-! ## A thread's own writes among those of an instruction -/

theorem regWrite_ofThread {wide : Bool} {tid x : Nat} {d : Spec} (perThread : isSReg d = false) {w : RegWrite} (hw : w ∈ regWrite wide tid x d)
    (k : Nat) : w.ofThread k = (tid == k) := by
  unfold regWrite at hw
  split at hw
  · split_ifs at hw <;> simp only [List.mem_cons, List.not_mem_nil, or_false] at hw
    · obtain rfl | rfl := hw <;> rfl
    · subst hw; rfl
  · split_ifs at hw <;> simp only [List.mem_cons, List.not_mem_nil, or_false] at hw
    · obtain rfl | rfl := hw <;> rfl
    · subst hw; rfl
  · obtain rfl := List.mem_singleton.1 hw; rfl
  · cases perThread
  · cases hw

/-- Writes that each name the registers of the thread that makes them leave each thread its own. -/
theorem filter_ofThread_flatMap {ths : List Thread} (distinct : ths.Pairwise fun a b => a.tid ≠ b.tid) {ws : Thread → List RegWrite}
    (own : ∀ u, ∀ w ∈ ws u, ∀ k, w.ofThread k = (u.tid == k)) {th : Thread} (hth : th ∈ ths) :
    (ths.flatMap ws).filter (·.ofThread th.tid) = ws th := by
  have kept {u : Thread} (h : u.tid = th.tid) : (ws u).filter (·.ofThread th.tid) = ws u :=
    List.filter_eq_self.2 fun w hw => by simp [own u w hw, h]
  have dropped {u : Thread} (h : u.tid ≠ th.tid) : (ws u).filter (·.ofThread th.tid) = [] :=
    List.filter_eq_nil_iff.2 fun w hw => by simp [own u w hw, h]
  induction ths with
  | nil => cases hth
  | cons u rest ih =>
    obtain ⟨apart, distinct⟩ := List.pairwise_cons.1 distinct
    rw [List.flatMap_cons, List.filter_append]
    rcases List.mem_cons.1 hth with rfl | hrest
    · have others : (rest.flatMap ws).filter (·.ofThread th.tid) = [] := by
        rw [List.filter_flatMap]
        exact List.flatMap_eq_nil_iff.2 fun u hu => dropped (apart u hu).symm
      rw [kept rfl, others, List.append_nil]
    · rw [dropped (apart th hrest), ih distinct hrest, List.nil_append]

theorem Thread.wroteAll_flatMap {ths : List Thread} (distinct : ths.Pairwise fun a b => a.tid ≠ b.tid) {ws : Thread → List RegWrite}
    (own : ∀ u, ∀ w ∈ ws u, ∀ k, w.ofThread k = (u.tid == k)) {th : Thread} (hth : th ∈ ths) :
    th.wroteAll (ths.flatMap ws) = th.wroteAll (ws th) := by
  rw [← filter_ofThread_flatMap distinct own hth]
  exact (th.wroteAll_filter _ _ fun _ _ h => h).symm

/-! ## A register reads what was written to it -/

/-- A register holds less than this, or a pair. -/
def fieldCap (wide : Bool) : Nat := if wide then 2 ^ 64 else 2 ^ 32

theorem fieldCap_pos (wide : Bool) : 0 < fieldCap wide := by cases wide <;> decide

/-- A field of a thread holds a number whole: a register or pair, or a predicate but k0. -/
def FieldHolds (wide : Bool) : Spec → Nat → Prop
  | .v _, x | .c _, x => x < fieldCap wide
  | .k n, x => n.val ≠ 0 ∧ x ≤ 1
  | _, _ => False

theorem pairOf_halves {wide : Bool} {x n : Nat} (h : x < fieldCap wide) {f : Nat → W32} (low : f n = BitVec.ofNat 32 x)
    (high : wide = true → f (n + 1) = BitVec.ofNat 32 (x / 2 ^ 32)) : pairOf wide f n = x := by
  cases wide with
  | false => simpa [pairOf, low, fieldCap] using h
  | true =>
    simp only [fieldCap, if_true] at h
    simp only [pairOf, if_true, low, high, BitVec.toNat_ofNat]
    omega

theorem reg_of_wrote {b : Team} {th : Thread} {wide : Bool} {d : Spec} {x : Nat} (holds : FieldHolds wide d x)
    (hth : b.thread? th.tid = some (th.wroteAll (regWrite wide th.tid x d))) : Claim.reg b th.tid wide d = some x := by
  cases d with
  | v n =>
    simp only [Claim.reg, hth, Option.map_some, Option.some.injEq]
    refine pairOf_halves holds ?_ fun pair => ?_
    · cases wide <;> simp [regWrite, Thread.wroteAll, Thread.wrote, Thread.getV_setV_other]
    · simp [pair, regWrite, Thread.wroteAll, Thread.wrote]
  | c n =>
    simp only [Claim.reg, hth, Option.map_some, Option.some.injEq]
    refine pairOf_halves holds ?_ fun pair => ?_
    · cases wide <;> simp [regWrite, Thread.wroteAll, Thread.wrote, Thread.getC_setC_other]
    · simp [pair, regWrite, Thread.wroteAll, Thread.wrote]
  | k n =>
    obtain ⟨n0, hx⟩ := holds
    obtain rfl | rfl : x = 0 ∨ x = 1 := by omega
    · simp [Claim.reg, hth, regWrite, Thread.wroteAll, Thread.wrote, Thread.getK_setK _ _ n0]
    · simp [Claim.reg, hth, regWrite, Thread.wroteAll, Thread.wrote, Thread.getK_setK _ _ n0]
  | s | zero | imm | sp | l => exact holds.elim

/-- The team and the record after an instruction that writes registers. -/
theorem exec_writes_team {s : State} {v : View} {i : Instr} {o : Opnds} {body : View → Issued} {ws : List RegWrite}
    (h : Claim.Issues s v i o) (he : exec i s = issue i o s body) (hb : body v = v.writes ws) :
    ∃ t b, exec i s = .next t ∧ t.team? v.iss.team = some b ∧
      (∀ tid, b.thread? tid = (v.team.thread? tid).map (·.wroteAll ws)) ∧
      b.grp? v.iss.recno = some ((v.grp.wroteAll ws).onward v i o) := by
  obtain ⟨hs, _, ht, hg, _⟩ := State.view?_spec h.1
  refine ⟨(v.s.applyWrites v.iss ws).retire v i o, (v.team.applyWrites v.iss.recno ws).modGrp v.iss.recno (·.onward v i o),
    (exec_of_issues h he).trans (congrArg (fun x => Host.Outcome.next (v.finish i o x)) hb), ?_, fun tid => ?_, ?_⟩
  · refine State.modGrp_team? ?_ _
    rw [hs, State.applyWrites, State.team?_modTeam_same, ht]; rfl
  · rw [Team.modGrp_thread?, Team.applyWrites_thread?]
  · rw [Team.grp?_modGrp_same _ _ (fun g => g.onward v i o) fun _ => rfl, Team.applyWrites_grp?_same, hg]; rfl

/-! ## Results of active threads -/

theorem View.present_apart {s : State} {v : View} (h : s.view? = some v) (ordered : Safety.ordered v.team = true) :
    v.present.Pairwise fun a b => a.tid ≠ b.tid := View.present_eq h ▸ Team.tids_apart ordered _

theorem View.active_apart {s : State} {v : View} (h : s.view? = some v) (ordered : Safety.ordered v.team = true) (o : Opnds) :
    (v.active o).Pairwise fun a b => a.tid ≠ b.tid := (View.present_apart h ordered).filter _

theorem View.active_thread? {s : State} {v : View} (h : s.view? = some v) (ordered : Safety.ordered v.team = true) {o : Opnds} {th : Thread}
    (hth : th ∈ v.active o) : v.team.thread? th.tid = some th := (View.present_spec h ordered (List.mem_filter.1 hth).1).1

/-- Of a destination that is no scalar register the writes are each active thread's. -/
theorem View.dst_perThread {v : View} {o : Opnds} (perThread : isSReg o.dst = false) (wide : Bool) (f : Option Thread → Nat) :
    v.dst o wide f = (v.active o).flatMap fun th => regWrite wide th.tid (f (some th)) o.dst := by
  unfold View.dst
  split
  next hd => simp [hd, isSReg] at perThread
  next => rfl

theorem onward_getS (g : Grp) (v : View) (i : Instr) (o : Opnds) (n : Nat) : (g.onward v i o).getS n = g.getS n := rfl

/-- An instruction whose entry writes a result to its destination gives it there. -/
theorem gives_of_dst {s : State} {v : View} {i : Instr} {o : Opnds} {body : View → Issued} {wide : Bool} {f : Option Thread → Nat}
    (h : Claim.Issues s v i o) (he : exec i s = issue i o s body) (hb : body v = v.writes (v.dst o wide f)) (ordered : Safety.ordered v.team = true)
    (holds : ∀ th ∈ v.active o, isSReg o.dst = false → FieldHolds wide o.dst (f (some th))) : Claim.Gives s v i o o.dst wide f := by
  obtain ⟨t, b, run, team, threads, grp⟩ := exec_writes_team h he hb
  refine ⟨t, b, run, team, fun th hth perThread => ?_, fun n scalar any => ?_⟩
  · refine reg_of_wrote (holds th hth perThread) ?_
    rw [threads, View.active_thread? h.1 ordered hth, View.dst_perThread perThread, Option.map_some,
      Thread.wroteAll_flatMap (View.active_apart h.1 ordered o) (fun u _ hw k => regWrite_ofThread perThread hw k) hth]
  · have : v.dst o wide f = [.s n.val (BitVec.ofNat 64 (f none))] := by simp [View.dst, scalar, any]
    rw [grp, this]
    simp [onward_getS, Grp.wroteAll, Grp.wrote]

/-- So does one whose entry writes a result for each active thread. -/
theorem gives_of_each {s : State} {v : View} {i : Instr} {o : Opnds} {body : View → Issued} {wide : Bool} {x : Thread → Nat}
    (h : Claim.Issues s v i o) (he : exec i s = issue i o s body) (ordered : Safety.ordered v.team = true) (perThread : isSReg o.dst = false)
    (hb : body v = v.writes ((v.active o).flatMap fun th => regWrite wide th.tid (x th) o.dst))
    (holds : ∀ th ∈ v.active o, FieldHolds wide o.dst (x th)) : Claim.Gives s v i o o.dst wide fun th => th.elim 0 x :=
  gives_of_dst h he (hb.trans (by rw [View.dst_perThread perThread]; rfl)) ordered fun th hth _ => holds th hth

/-! ## What a read operand can be -/

theorem wide_eq (ty : Ty) : ty.wide = decide (ty.width = 64) := by cases ty <;> rfl

theorem two_pow_width_le (ty : Ty) : 2 ^ ty.width ≤ fieldCap ty.wide := by cases ty <;> decide

theorem immValue_lt (ty : Ty) (imm : BitVec 24) : immValue ty imm < fieldCap ty.wide := by
  have := imm.isLt
  cases ty with
  | s32 | s64 => exact BitVec.isLt _
  | u64 | b64 | f64 => show _ < 2 ^ 64; simp only [immValue]; omega
  | _ => show _ < 2 ^ 32; simp only [immValue]; omega

theorem View.read_lt (v : View) (o : Opnds) (ty : Ty) (th : Option Thread) (sp : Spec) : v.read o ty th sp < fieldCap ty.wide := by
  have narrow (x : Nat) : x % 2 ^ ty.width < fieldCap ty.wide :=
    (Nat.mod_lt _ (Nat.two_pow_pos _)).trans_le (two_pow_width_le ty)
  have pos := fieldCap_pos ty.wide
  cases sp with
  | v n | c n | l n => cases th with
    | none => exact pos
    | some x => exact narrow _
  | k n => cases th with
    | none => exact pos
    | some x =>
      have one : 1 < fieldCap ty.wide := by cases ty.wide <;> decide
      exact (x.getK n.val).toNat_le.trans_lt one
  | s n | sp r => exact narrow _
  | zero => exact pos
  | imm => exact immValue_lt ty o.imm

theorem raw_lt (v : View) (o : Opnds) (sp : Spec) (th : Option Thread) : Claim.raw v o sp th < fieldCap o.ty.wide :=
  (v.read_eq_operand o o.ty sp th).symm.trans_lt (v.read_lt o o.ty th sp)

theorem pairOf_lt (wide : Bool) (f : Nat → W32) (n : Nat) : pairOf wide f n < fieldCap wide := by
  have := (f n).isLt
  have := (f (n + 1)).isLt
  unfold pairOf fieldCap
  split_ifs <;> omega

/-- A register or pair holds what is below its width. -/
theorem fieldHolds_of_keeps {d : Spec} {wide : Bool} {x : Nat} (keeps : Claim.keeps d = true) (perThread : isSReg d = false)
    (hx : x < fieldCap wide) : FieldHolds wide d x := by
  cases d with
  | v n | c n => exact hx
  | s n => cases perThread
  | k | zero | imm | sp | l => cases keeps

theorem fieldHolds_bit {d : Spec} {x : Nat} (keeps : Claim.keepsBit d = true) (perThread : isSReg d = false) (hx : x ≤ 1) : FieldHolds false d x := by
  cases d with
  | k n => exact ⟨by simpa [Claim.keepsBit] using keeps, hx⟩
  | v | c => exact hx.trans_lt (show 1 < 2 ^ 32 by decide)
  | s => cases perThread
  | zero | imm | sp | l => cases keeps


/-! ## VOTE and BALLOT, R98, R99 -/

theorem View.vote_iff (v : View) (o : Opnds) (m : VoteMode) : (v.vote o m).toNat = 1 ↔ match m with
    | .all => ∀ th ∈ v.active o, Claim.u32 v o o.sa (some th) ≠ 0
    | .any => ∃ th ∈ v.active o, Claim.u32 v o o.sa (some th) ≠ 0
    | .uni => ∀ a ∈ v.active o, ∀ b ∈ v.active o, Claim.raw v o o.sa (some a) = Claim.raw v o o.sa (some b) := by
  rw [Bool.toNat_eq_one]
  cases m with
  | all => simp [View.vote, View.read_eq_operand, Claim.u32]
  | any => simp [View.vote, View.read_eq_operand, Claim.u32]
  | uni =>
    simp only [View.vote, View.read_eq_operand, Claim.raw]
    cases v.active o with
    | nil => simp
    | cons x xs =>
      simp only [List.map_cons, List.all_map, List.all_eq_true, Function.comp_apply, beq_iff_eq]
      constructor
      · intro h a ha b hb
        have like (u : Thread) (hu : u ∈ x :: xs) : Claim.operand v o o.ty o.sa (some u) = Claim.operand v o o.ty o.sa (some x) :=
          (List.mem_cons.1 hu).elim (fun e => by rw [e]) (h u)
        rw [like a ha, like b hb]
      · exact fun h u hu => h u (List.mem_cons_of_mem _ hu) x List.mem_cons_self

/-- A sum of the powers of two that a test admits is the mask of the test. -/
theorem mask_spec (p : Nat → Bool) (w : Nat) :
    (List.range w).foldl (fun m i => if p i then m + 2 ^ i else m) 0 < 2 ^ w ∧
      ∀ j, ((List.range w).foldl (fun m i => if p i then m + 2 ^ i else m) 0).testBit j = (decide (j < w) && p j) := by
  induction w with
  | zero => simp
  | succ w ih =>
    obtain ⟨lt, bit⟩ := ih
    rw [List.range_succ, List.foldl_concat]
    generalize (List.range w).foldl (fun m i => if p i then m + 2 ^ i else m) 0 = m at lt bit
    have lt' : (if p w then m + 2 ^ w else m) < 2 ^ (w + 1) := by rw [pow_succ]; split_ifs <;> omega
    refine ⟨lt', fun j => ?_⟩
    rcases lt_trichotomy j w with h | rfl | h
    · have : (if p w then m + 2 ^ w else m).testBit j = m.testBit j := by
        split_ifs
        · rw [Nat.add_comm, Nat.testBit_two_pow_add_gt h]
        · rfl
      simp [this, bit, h, Nat.lt_succ_of_lt h]
    · have off : m.testBit j = false := Nat.testBit_lt_two_pow lt
      have : (if p j then m + 2 ^ j else m).testBit j = p j := by
        split_ifs with hp
        · rw [Nat.add_comm, Nat.testBit_two_pow_add_eq, off, hp]; rfl
        · rw [off]; exact (Bool.eq_false_iff.2 hp).symm
      simp [this]
    · rw [Nat.testBit_lt_two_pow (lt'.trans_le (Nat.pow_le_pow_right (by decide) h))]
      simp [show ¬ j < w + 1 by omega]

theorem View.ballot_spec (v : View) (o : Opnds) (w base : Nat) : v.ballot o w base < 2 ^ w ∧
    ∀ j, (v.ballot o w base).testBit j = true ↔ j < w ∧ ∃ th ∈ v.active o, th.tid = base + j ∧ Claim.u32 v o o.sa (some th) ≠ 0 := by
  obtain ⟨lt, bit⟩ := mask_spec (fun i => (v.active o).any fun th => th.tid == base + i && v.read o .u32 (some th) o.sa != 0) w
  refine ⟨lt, fun j => ?_⟩
  rw [View.ballot, bit]
  simp [View.read_eq_operand, Claim.u32]

/-! ## SHUF, R100 -/

theorem View.crossRead_present {s : State} {v : View} (h : s.view? = some v) (ordered : Safety.ordered v.team = true) (o : Opnds) {u : Thread}
    (hu : u ∈ v.present) : v.crossRead o u.tid = some (Claim.raw v o o.sa (some u)) := by
  have found : v.present.find? (·.tid == u.tid) = some u := by
    have sorted : (v.present.map (·.tid)).Pairwise (· < ·) := by
      rw [View.present_eq h]
      exact (of_decide_eq_true ordered).sublist (List.filter_sublist.map _)
    exact Team.thread?_of_mem (t := { v.team with threads := v.present }) (decide_eq_true sorted) hu
  simp only [View.crossRead, found, View.read_eq_operand, Claim.raw]

theorem Team.crossV_eq (v : View) (o : Opnds) (th : Thread) (n : Nat) : v.team.crossV o.ty.wide th n = Claim.outside v o th n := by
  have held : (((v.team.grp? th.recno).map (·.h)).getD 0) = (v.team.grp? th.recno).elim 0 (·.h) := by
    cases v.team.grp? th.recno <;> rfl
  have block (h : Nat) : n ≤ 32 * h + 31 ↔ n / 32 ≤ h := by omega
  simp only [Team.crossV, Claim.outside, held, block, pairOf, wide_eq, decide_eq_true_eq]

theorem View.crossRead_absent {v : View} (ordered : Safety.ordered v.team = true) {o : Opnds} {u : Thread} (hu : u ∈ v.team.threads)
    (absent : Claim.absent v u.tid) : (∀ n, o.sa = .v n → v.crossRead o u.tid = some (Claim.outside v o u n.val)) ∧
      ((∀ n, o.sa ≠ .v n) → v.crossRead o u.tid = none) := by
  have missing : v.present.find? (·.tid == u.tid) = none := List.find?_eq_none.2 fun x hx => by simpa using absent x hx
  constructor
  · intro n hn
    simp only [View.crossRead, missing, hn, Team.thread?_of_mem ordered hu, Team.crossV_eq]
  · intro other
    unfold View.crossRead
    rw [missing]
    dsimp only
    split
    next n _ hn _ => exact absurd hn (other n)
    next => rfl

theorem View.crossRead_lt {v : View} {o : Opnds} {j x : Nat} (h : v.crossRead o j = some x) : x < fieldCap o.ty.wide := by
  unfold View.crossRead at h
  split at h
  · cases h; exact View.read_lt ..
  · split at h
    · cases h
      unfold Team.crossV
      dsimp only
      split_ifs
      · exact pairOf_lt ..
      · exact fieldCap_pos _
      · exact pairOf_lt ..
      · exact fieldCap_pos _
    · cases h

/-- What SHUF gives a thread that asks for thread j. -/
def View.shuffled (v : View) (o : Opnds) (th : Thread) (j : Int) : Nat :=
  if j < 0 ∨ (v.team.hdr.threads : Int) ≤ j then Claim.raw v o o.sc (some th) else (v.crossRead o j.toNat).getD (Claim.raw v o o.sc (some th))

theorem View.shuf_eq (v : View) (o : Opnds) (m : ShufMode) (th : Thread) : v.shuf o m th = v.shuffled o th
    (match m with
      | .idx => (Claim.u32 v o o.sb (some th) : Int)
      | .xor => (th.tid ^^^ Claim.u32 v o o.sb (some th) : Nat)
      | .up => (th.tid : Int) - Claim.u32 v o o.sb (some th)
      | .down => (th.tid : Int) + Claim.u32 v o o.sb (some th)) := by
  simp only [View.shuf, View.shuffled, View.read_eq_operand, Claim.raw, Claim.u32]
  cases m <;> rfl

theorem View.shuffled_lt (v : View) (o : Opnds) (th : Thread) (j : Int) : v.shuffled o th j < fieldCap o.ty.wide := by
  unfold View.shuffled
  split_ifs with out
  · exact raw_lt ..
  · cases hx : v.crossRead o j.toNat with
    | none => exact raw_lt ..
    | some x => exact View.crossRead_lt hx

theorem View.shuffled_spec {s : State} {v : View} (h : s.view? = some v) (ordered : Safety.ordered v.team = true) (o : Opnds) (th : Thread) (j : Int) :
    (j < 0 ∨ (v.team.hdr.threads : Int) ≤ j → v.shuffled o th j = Claim.raw v o o.sc (some th)) ∧
    (0 ≤ j → j < v.team.hdr.threads → ∀ u ∈ v.present, (u.tid : Int) = j → v.shuffled o th j = Claim.raw v o o.sa (some u)) ∧
    (0 ≤ j → j < v.team.hdr.threads → Claim.absent v j.toNat → ∀ u ∈ v.team.threads, (u.tid : Int) = j →
      (∀ n, o.sa = .v n → v.shuffled o th j = Claim.outside v o u n.val) ∧
      ((∀ n, o.sa ≠ .v n) → v.shuffled o th j = Claim.raw v o o.sc (some th))) := by
  have inside (low : 0 ≤ j) (high : j < v.team.hdr.threads) :
      v.shuffled o th j = (v.crossRead o j.toNat).getD (Claim.raw v o o.sc (some th)) := if_neg (by omega)
  refine ⟨fun out => if_pos out, fun low high u hu own => ?_, fun low high absent u hu own => ?_⟩
  · obtain rfl := own
    rw [inside low high, Int.toNat_natCast, View.crossRead_present h ordered o hu, Option.getD_some]
  · obtain rfl := own
    rw [Int.toNat_natCast] at absent
    obtain ⟨register, other⟩ := View.crossRead_absent ordered hu absent (o := o)
    rw [inside low high, Int.toNat_natCast]
    exact ⟨fun n hn => by rw [register n hn, Option.getD_some], fun hn => by rw [other hn, Option.getD_none]⟩

/-! ## PUSH, R101 -/

/-- The threads that send to a receiver, by rising %tid. -/
def View.senders (v : View) (o : Opnds) (r : Thread) : List Thread := (v.active o).filter fun th => v.read o .u32 (some th) o.sb == r.tid

theorem View.mem_senders {v : View} {o : Opnds} {r th : Thread} :
    th ∈ v.senders o r ↔ th ∈ v.active o ∧ Claim.u32 v o o.sb (some th) = r.tid := by
  simp [View.senders, View.read_eq_operand, Claim.u32]

theorem View.senders_sorted {s : State} {v : View} (h : s.view? = some v) (ordered : Safety.ordered v.team = true) (o : Opnds) (r : Thread) :
    (v.senders o r).Pairwise fun a b => a.tid < b.tid := by
  have : v.team.threads.Pairwise fun a b => a.tid < b.tid := List.pairwise_map.1 (of_decide_eq_true ordered)
  rw [View.senders, View.active, View.present_eq h]
  exact ((this.filter _).filter _).filter _

theorem getLast?_of_greatest {l : List Thread} (sorted : l.Pairwise fun a b => a.tid < b.tid) {th : Thread} (hth : th ∈ l)
    (greatest : ∀ u ∈ l, u.tid ≤ th.tid) : l.getLast? = some th := by
  obtain ⟨before, behind, rfl⟩ := List.append_of_mem hth
  have : behind = [] := List.eq_nil_iff_forall_not_mem.2 fun u hu => by
    have lt := (List.pairwise_cons.1 (List.pairwise_append.1 sorted).2.1).1 u hu
    have := greatest u (by simp [hu])
    omega
  simp [this]

theorem head?_of_least {l : List Thread} (sorted : l.Pairwise fun a b => a.tid < b.tid) {th : Thread} (hth : th ∈ l)
    (least : ∀ u ∈ l, th.tid ≤ u.tid) : l.head? = some th := by
  obtain ⟨before, behind, rfl⟩ := List.append_of_mem hth
  have : before = [] := List.eq_nil_iff_forall_not_mem.2 fun u hu => by
    have lt := (List.pairwise_append.1 sorted).2.2 u hu th List.mem_cons_self
    have := least u (by simp [hu])
    omega
  simp [this]

/-- The sender that wins is the one that R101 names. -/
theorem View.sender_of_wins {s : State} {v : View} (h : s.view? = some v) (ordered : Safety.ordered v.team = true) {o : Opnds} {r th : Thread}
    (hth : th ∈ v.senders o r) {m : PushMode} (wins : ∀ u ∈ v.senders o r, match m with | .hi => u.tid ≤ th.tid | .lo => th.tid ≤ u.tid) :
    v.sender o m r = some th := by
  cases m with
  | hi => exact getLast?_of_greatest (View.senders_sorted h ordered o r) hth wins
  | lo => exact head?_of_least (View.senders_sorted h ordered o r) hth wins

theorem View.sender_of_none {v : View} {o : Opnds} {r : Thread} (none : v.senders o r = []) (m : PushMode) : v.sender o m r = Option.none := by
  cases m with
  | hi => exact congrArg List.getLast? none
  | lo => exact congrArg List.head? none

/-- What PUSH writes at a receiver. -/
def View.pushed (v : View) (o : Opnds) (m : PushMode) (r : Thread) : List RegWrite :=
  match v.sender o m r with
  | some th => regWrite o.ty.wide r.tid (v.read o o.ty (some th) o.sa) o.dst
  | none => []

theorem View.pushed_ofThread {v : View} {o : Opnds} (perThread : isSReg o.dst = false) (m : PushMode) (r : Thread) (w : RegWrite)
    (hw : w ∈ v.pushed o m r) (k : Nat) : w.ofThread k = (r.tid == k) := by
  unfold View.pushed at hw
  split at hw
  · exact regWrite_ofThread perThread hw k
  · cases hw

/-! ## RANK, R102 -/

/-- The order of RANK's mode. -/
def rankBefore (m : RankMode) (a b : Int) : Bool := match m with | .desc => decide (b < a) | .asc => decide (a < b)

theorem View.rank_eq (v : View) (o : Opnds) (m : RankMode) (th : Thread) :
    let key (u : Thread) : Int := rankKey o.ty (Claim.raw v o o.sa (some u))
    v.rank o m th = (Claim.u32 v o o.sb (some th) + (v.active o).countP fun u => decide (u.tid ≠ th.tid) &&
      (rankBefore m (key u) (key th) || (decide (key u = key th) && decide (u.tid < th.tid)))) % 2 ^ 32 := by
  have apart (u : Thread) : (u.tid != th.tid) = decide (u.tid ≠ th.tid) := by
    rw [Bool.eq_iff_iff]; simp
  simp only [View.rank, View.read_eq_operand, Claim.u32, Claim.raw, List.countP_eq_length_filter, apart]
  cases m <;> rfl

/-- Settles O8: each result is written to its destination, whose registers the active threads, or for PUSH the receivers, hold alone. -/
theorem crossLaneInstructionsExchangeValues : Obligations.CrossLaneInstructionsExchangeValues := by
  intro s v o ordered bitDst
  refine ⟨fun m h => ?_, fun dst h => ?_, fun m dst perThread h => ?_, fun m dst perThread h => ?_, fun m perThread dst h => ?_⟩
  · have le : (v.vote o m).toNat ≤ 1 := Bool.toNat_le _
    exact ⟨_, gives_of_dst h rfl rfl ordered fun _ _ perThread => fieldHolds_bit bitDst perThread le, le, v.vote_iff o m⟩
  · obtain ⟨lt, bit⟩ := v.ballot_spec o o.ty.width (v.scalar o .u32 o.sb)
    refine ⟨_, gives_of_dst h rfl rfl ordered fun _ _ perThread => fieldHolds_of_keeps dst perThread
      (lt.trans_le (two_pow_width_le o.ty)), View.scalar_eq v o .u32 o.sb ▸ bit⟩
  · refine ⟨_, gives_of_each (x := v.shuf o m) h rfl ordered perThread rfl fun th _ =>
      fieldHolds_of_keeps dst perThread (v.shuf_eq o m th ▸ v.shuffled_lt o th _), fun th => ?_⟩
    simp only [Option.elim_some, View.shuf_eq]
    exact View.shuffled_spec h.1 ordered o th _
  · obtain ⟨t, b, run, team, threads, -⟩ := exec_writes_team h rfl (ws := v.present.flatMap (v.pushed o m)) rfl
    have after (r : Thread) (hr : r ∈ v.present) : b.thread? r.tid = some (r.wroteAll (v.pushed o m r)) := by
      rw [threads, (View.present_spec h.1 ordered hr).1, Option.map_some,
        Thread.wroteAll_flatMap (View.present_apart h.1 ordered) (View.pushed_ofThread perThread m) hr]
    refine ⟨t, b, run, team, fun r hr => ⟨fun none => ?_, fun th hth => ?_⟩⟩
    · have unsent : v.senders o r = [] := List.eq_nil_iff_forall_not_mem.2 fun u hu => none ⟨u, View.mem_senders.1 hu⟩
      have same : b.thread? r.tid = v.team.thread? r.tid := by
        rw [after r hr, View.pushed, View.sender_of_none unsent, (View.present_spec h.1 ordered hr).1]; rfl
      cases o.dst <;> simp only [Claim.reg, same]
    · have won := View.sender_of_wins h.1 ordered (View.mem_senders.2 hth.1) (m := m) fun u hu => hth.2 u (View.mem_senders.1 hu)
      refine reg_of_wrote (fieldHolds_of_keeps dst perThread (raw_lt ..)) ((after r hr).trans ?_)
      simp only [View.pushed, won, View.read_eq_operand, Claim.raw]
  · refine ⟨_, gives_of_each (x := v.rank o m) h rfl ordered perThread rfl fun th _ =>
      fieldHolds_of_keeps dst perThread (Nat.mod_lt _ (Nat.two_pow_pos 32)), fun th _ => v.rank_eq o m th⟩

end Sys2Proof.Machine
end

section
/-! Instructions that let their clause go on: NOP, BRC not taken, MEET, RGIVE and RCLAIM of no block; and RGIVE of blocks (R80, R88, R90, R93, R112, R122, R123). -/
namespace Sys2Proof.Machine

/-! ## An instruction whose own effect is a change of its team -/

/-- The team after an instruction that changes its team and retires. -/
theorem exec_changes_team {s : State} {v : View} {i : Instr} {o : Opnds} {body : View → Issued} {f : Team → Team} (h : Claim.Issues s v i o)
    (he : exec i s = issue i o s body) (hb : body v = .done (v.s.modTeam v.iss.team f)) :
    ∃ t, exec i s = .next t ∧ Claim.OnlyTeam s t v.iss.team ∧
      t.team? v.iss.team = some ((f v.team).modGrp v.iss.recno (·.onward v i o)) := by
  obtain ⟨hs, -, ht, -, -⟩ := State.view?_spec h.1
  refine ⟨_, (exec_of_issues h he).trans (by rw [hb]), ?_, ?_⟩
  · show Claim.OnlyTeam s ((v.s.modTeam v.iss.team f).modGrp v.iss _) _
    rw [State.modTeam_modGrp, hs]
    exact ⟨State.modTeam_eq .., fun k hk => State.modTeam_find_other _ _ _ hk⟩
  · exact State.modGrp_team? (by rw [State.team?_modTeam_same, hs, ht]; rfl) _

/-! ## MEET, R80, R93 -/

/-- A new meeting set of active threads. -/
def View.meetsAt (v : View) (o : Opnds) (t : Team) : Team :=
  let tids := (v.active o).map (·.tid)
  let x := target v.pc o.imm
  { t.modThreads (fun th => tids.contains th.tid) fun th => { th with meet := x, mset := t.msets.length + 1 } with
    msets := t.msets ++ [⟨t.msets.length + 1, x, tids, v.noHeader x⟩] }

/-- Active threads that meet no more. -/
def View.meetsNot (v : View) (o : Opnds) (t : Team) : Team :=
  t.modThreads (fun th => ((v.active o).map (·.tid)).contains th.tid) fun th => { th with meet := 0 }

theorem View.active_contains (v : View) (o : Opnds) (th : Thread) :
    ((v.active o).map (·.tid)).contains th.tid = (v.active o).any (·.tid == th.tid) := by
  rw [Bool.eq_iff_iff, List.contains_iff_mem, List.mem_map, List.any_eq_true]
  simp

theorem exec_meet_set {s : State} {v : View} {o : Opnds} (h : Claim.Issues s v (.meet o .set) o) (any : v.any o = true) :
    ∃ t, exec (.meet o .set) s = .next t ∧ Claim.OnlyTeam s t v.iss.team ∧
      t.team? v.iss.team = some ((v.meetsAt o v.team).modGrp v.iss.recno (·.onward v (.meet o .set) o)) :=
  exec_changes_team h rfl (by rw [View.once_of_any any]; rfl)

theorem exec_meet_clr {s : State} {v : View} {o : Opnds} (h : Claim.Issues s v (.meet o .clr) o) (any : v.any o = true) :
    ∃ t, exec (.meet o .clr) s = .next t ∧ Claim.OnlyTeam s t v.iss.team ∧
      t.team? v.iss.team = some ((v.meetsNot o v.team).modGrp v.iss.recno (·.onward v (.meet o .clr) o)) :=
  exec_changes_team h rfl (by rw [View.once_of_any any]; rfl)

theorem View.meetsAt_thread? {v : View} (ordered : Safety.ordered v.team = true) (o : Opnds) {th : Thread} (hth : th ∈ v.team.threads) :
    (v.meetsAt o v.team).thread? th.tid = some (if (v.active o).any (·.tid == th.tid) then
      { th with meet := target v.pc o.imm, mset := v.team.msets.length + 1 } else th) := by
  refine (Team.thread?_modThreads v.team _ (fun th => { th with meet := target v.pc o.imm, mset := v.team.msets.length + 1 }) (fun _ => rfl) _).trans ?_
  rw [Team.thread?_of_mem ordered hth, Option.map_some, View.active_contains]

theorem View.meetsNot_thread? {v : View} (ordered : Safety.ordered v.team = true) (o : Opnds) {th : Thread} (hth : th ∈ v.team.threads) :
    (v.meetsNot o v.team).thread? th.tid = some (if (v.active o).any (·.tid == th.tid) then { th with meet := 0 } else th) := by
  refine (Team.thread?_modThreads v.team _ (fun th => { th with meet := 0 }) (fun _ => rfl) _).trans ?_
  rw [Team.thread?_of_mem ordered hth, Option.map_some, View.active_contains]

/-- R88, R90, R93, R122, R123. -/
theorem straightInstructionsLetTheClauseGoOn : Claim.StraightInstructionsLetTheClauseGoOn := by
  intro s v o
  refine ⟨fun h => exec_does_nothing h rfl rfl, fun m any skips h => ?_, fun h => ?_, fun room h => ?_, fun m any ordered h => ?_⟩
  · cases m with
    | dec => exact exec_writes h rfl (by simp only [View.once_of_any any, View.brcTakes_eq, skips, Bool.false_eq_true, if_false]; rfl)
    | nz | z => exact exec_does_nothing h rfl (by simp only [View.once_of_any any, View.brcTakes_eq, skips, Bool.false_eq_true, if_false])
  · exact exec_does_nothing h rfl (by simp [View.once])
  · exact exec_does_nothing h rfl (by simp [View.once, room])
  · cases m with
    | set =>
      obtain ⟨t, run, only, team⟩ := exec_meet_set h any
      refine ⟨t, _, run, only, team, rfl, fun th hth => ⟨?_, ?_⟩⟩
      · exact View.meetsAt_thread? ordered o hth
      · rw [← issues_state h]; rfl
    | clr =>
      obtain ⟨t, run, only, team⟩ := exec_meet_clr h any
      exact ⟨t, _, run, only, team, rfl, fun th hth => ⟨View.meetsNot_thread? ordered o hth, rfl⟩⟩

/-! ## RGIVE, R112, R122 -/

theorem Tab.get_filter {α : Type} (d : α) (m : Tab α) (p : Nat → Bool) (k : Nat) :
    Tab.get d (m.filter fun x => p x.1) k = if p k then m.get d k else d := by
  induction m with
  | nil => simp [Tab.get]
  | cons x r ih =>
    obtain ⟨j, u⟩ := x
    by_cases hj : p j = true
    · rw [List.filter_cons_of_pos (by exact hj)]
      by_cases same : j = k
      · subst same; simp [Tab.get, hj]
      · simp [Tab.get, same, ih]
    · rw [List.filter_cons_of_neg (by exact hj), ih]
      by_cases same : j = k
      · subst same; simp [hj]
      · simp [Tab.get, same]

/-- A thread whose blocks lo .. hi are zero-marked. -/
def Thread.zeroed (th : Thread) (lo hi : Nat) : Thread :=
  { th with v := th.v.filter fun x => !decide (32 * lo ≤ x.1 ∧ x.1 < 32 * (hi + 1)), live := th.live.filter fun b => !decide (lo ≤ b ∧ b ≤ hi) }

theorem Thread.getV_zeroed (th : Thread) (lo hi k : Nat) :
    (th.zeroed lo hi).getV k = if 32 * lo ≤ k ∧ k < 32 * (hi + 1) then 0 else th.getV k := by
  refine (Tab.get_filter 0 th.v (fun k => !decide (32 * lo ≤ k ∧ k < 32 * (hi + 1))) k).trans ?_
  split_ifs <;> simp_all [Thread.getV]

theorem Team.grant_of_nil {t : Team} (none : t.grants = []) (now : Nat) : t.grant now = t := by simp [Team.grant, none, Team.grantN]

/-- A record's top blocks go to the pool, which no waiting claim takes. -/
theorem Team.giveBlocks_eq {t : Team} {n : Nat} {g : Grp} (hg : t.grp? n = some g) (none : t.grants = []) (now m : Nat) :
    t.giveBlocks now n m = { (t.modThreads (fun th => th.recno == n && th.run != .exited) (·.zeroed (g.h - m + 1) g.h)).modGrp n
      (fun g => { g with h := g.h - m }) with pool := t.pool + m } := by
  unfold Team.giveBlocks
  rw [hg]
  refine (Team.grant_of_nil ?_ now).trans rfl
  exact none

theorem rgiveReturnsBlocksToThePool : Claim.RgiveReturnsBlocksToThePool := by
  intro s v o n h any some_ held landed none
  obtain ⟨-, -, -, hg, -⟩ := State.view?_spec h.1
  obtain ⟨t, run, only, team⟩ := exec_changes_team h (i := .rgive o n) (f := fun t => t.giveBlocks v.s.sched.steps v.iss.recno n.val) rfl (by
    rw [View.once_of_any any]
    refine (if_neg (by omega)).trans ((if_neg fun flies => ?_).trans (if_neg some_))
    obtain ⟨x, hx, within⟩ := List.any_eq_true.1 flies.2
    split at within
    next k hk =>
      have := landed x hx k hk
      have := of_decide_eq_true within
      omega
    next => cases within)
  rw [Team.giveBlocks_eq hg none] at team
  refine ⟨t, _, { v.grp with h := v.grp.h - n.val }.onward v (.rgive o n) o, run, only, team, rfl, ?_, rfl, fun th hth own on k low high => ?_⟩
  · rw [Team.grp?_modGrp_same _ _ (fun g => g.onward v (.rgive o n) o) fun _ => rfl]
    exact congrArg (Option.map _) ((Team.grp?_modGrp_same _ _ (fun g => { g with h := g.h - n.val }) fun _ => rfl).trans (congrArg _ hg))
  · obtain ⟨u, hu, rfl⟩ := List.mem_map.1 hth
    split_ifs with given
    · rw [Thread.getV_zeroed, if_pos (by omega)]
    · rw [if_neg given] at own on
      simp [own, on] at given

/-- Settles O15: of no block nothing is written; MEET changes the meeting points of its active threads alone, and RGIVE zero-marks the blocks it returns. -/
theorem straightInstructionsAndRgive : Obligations.StraightInstructionsAndRgive := ⟨straightInstructionsLetTheClauseGoOn, rgiveReturnsBlocksToThePool⟩

end Sys2Proof.Machine
end

section
/-! Barriers: one arrival after the other, what EXIT completes, and the threads that wake (R86, R95, R96). -/
namespace Sys2Proof.Machine

/-! ## Threads of a team that wake -/

theorem Team.spent_of_none {t : Team} (none : t.msets = []) (n : Nat) : t.spent n = true := by simp [Team.spent, none]

/-- A thread that no meeting set holds wakes where it stands. -/
theorem Team.arrive1_freed {t : Team} {th : Thread} (free : th.meet = 0 ∨ t.msets = []) (now : Nat) :
    t.arrive1 now th.pc th = Claim.freed now th := by
  unfold Team.arrive1 Claim.freed
  rcases free with free | none
  · split_ifs <;> simp_all
  · dsimp only
    rw [t.spent_of_none none]
    by_cases here : th.meet = th.pc
    · by_cases zero : th.pc = 0 <;> simp [here, zero]
    · simp [here]

/-- What each release keeps, letting go of whatever sets can keeps. -/
theorem Team.settle_induction {P : Team → Prop} {now : Nat} (release : ∀ (t : Team) (m : MSet), P t → P (t.release now m)) {t : Team} (h : P t) :
    P (t.settle now) := by
  unfold Team.settle
  generalize t.msets = l
  induction l generalizing t with
  | nil => exact h
  | cons m rest ih =>
    rw [List.foldl_cons]
    split_ifs
    · exact ih (release t m h)
    · exact ih h

/-- Release lets go only of threads that a meeting set holds. -/
theorem Team.thread?_settle {t : Team} {tid : Nat} {th : Thread} (hth : t.thread? tid = some th) (on : th.run ≠ .held ∨ t.msets = []) (now : Nat) :
    (t.settle now).thread? tid = some th := by
  rcases on with on | none
  · exact Team.settle_induction (P := fun a => a.thread? tid = some th) (fun _ _ h =>
      Team.thread?_modThreads_of_not (f := fun th => { th with run := .runnable, meet := 0, age := now }) (fun _ => rfl) h (by simp [on])) hth
  · rw [Team.settle_none none]; exact hth

theorem Team.thread?_wakeThreads {t : Team} {p : Thread → Bool} {tid : Nat} {th : Thread} (hth : t.thread? tid = some th)
    (on : th.run ≠ .held ∨ t.msets = []) (free : p th = true → th.meet = 0 ∨ t.msets = []) (now : Nat) :
    (t.wakeThreads now p).thread? tid = some (if p th then Claim.freed now th else th) := by
  refine Team.thread?_settle ?_ ?_ now
  · rw [Team.thread?_modThreads _ _ _ fun th => t.arrive1_tid now th.pc th, hth, Option.map_some]
    by_cases hp : p th = true
    · rw [if_pos hp, if_pos hp, Team.arrive1_freed (free hp)]
    · rw [if_neg hp, if_neg hp]
  · split_ifs
    · exact .inl nofun
    · exact on

/-- What a team's change leaves as it was but its threads and meeting sets. -/
def Team.SameRest (a b : Team) : Prop := b = { a with threads := b.threads, msets := b.msets }

theorem Team.settle_rest (t : Team) (now : Nat) : t.SameRest (t.settle now) :=
  Team.settle_induction (P := t.SameRest) (fun a m h => by unfold Team.SameRest Team.release at *; rw [h]; rfl) rfl

theorem Team.wakeThreads_rest (t : Team) (now : Nat) (p : Thread → Bool) : t.SameRest (t.wakeThreads now p) :=
  (Team.settle_rest (t.modThreads p _) now).trans rfl

/-! ## What a barrier counts of a team's threads -/

/-- Who a thread is, whether it has ended, and its pending phases. -/
def Thread.arrival (th : Thread) : Nat × Bool × Tab (Option Nat) := (th.tid, th.run == .exited, th.pend)

theorem map_arrival_modThreads {t : Team} {p : Thread → Bool} {f : Thread → Thread} (h : ∀ th, p th = true → (f th).arrival = th.arrival) :
    (t.modThreads p f).threads.map Thread.arrival = t.threads.map Thread.arrival := by
  simp only [Team.modThreads, List.map_map]
  refine List.map_congr_left fun th _ => ?_
  simp only [Function.comp_apply]
  split_ifs with hp
  · exact h th hp
  · rfl

theorem map_arrival_settle (t : Team) (now : Nat) : (t.settle now).threads.map Thread.arrival = t.threads.map Thread.arrival := by
  refine Team.settle_induction (P := fun a => a.threads.map Thread.arrival = t.threads.map Thread.arrival) (fun a m h => ?_) rfl
  refine (map_arrival_modThreads (t := a) fun th held => ?_).trans h
  simp only [Bool.and_eq_true, beq_iff_eq] at held
  simp [Thread.arrival, held.1.1]

theorem map_arrival_wakeThreads {t : Team} {p : Thread → Bool} (live : ∀ th, p th = true → th.run ≠ .exited) (now : Nat) :
    (t.wakeThreads now p).threads.map Thread.arrival = t.threads.map Thread.arrival := by
  refine (map_arrival_settle _ now).trans (map_arrival_modThreads fun th hp => ?_)
  have ran : (th.run == .exited) = false := beq_eq_false_iff_ne.2 (live th hp)
  unfold Team.arrive1
  dsimp only
  split_ifs <;> simp [Thread.arrival, ran]

theorem Team.exitedMissing_eq (t : Team) (k phase : Nat) : t.exitedMissing k phase =
    (t.threads.map Thread.arrival).countP fun x => x.2.1 && !(x.2.2.get none k).any fun p => decide (phase ≤ p) := by
  rw [List.countP_map, List.countP_eq_length_filter]; rfl

theorem exitedMissing_of_arrival {a b : Team} (h : b.threads.map Thread.arrival = a.threads.map Thread.arrival) :
    b.exitedMissing = a.exitedMissing := by
  funext k phase
  rw [Team.exitedMissing_eq, Team.exitedMissing_eq, h]

theorem ids_of_arrival {a b : Team} (h : b.threads.map Thread.arrival = a.threads.map Thread.arrival) :
    b.threads.map (·.tid) = a.threads.map (·.tid) := by
  have firsts := congrArg (List.map Prod.fst) h
  rwa [List.map_map, List.map_map] at firsts

/-- The pending phase of a thread at a barrier. -/
def Team.pend (t : Team) (k tid : Nat) : Option Nat := (t.thread? tid).bind (·.pend.get none k)

theorem Team.pend_eq (t : Team) (k tid : Nat) :
    t.pend k tid = ((t.threads.map Thread.arrival).find? (·.1 == tid)).bind fun x => x.2.2.get none k := by
  rw [List.find?_map, Option.bind_map]; rfl

theorem pend_of_arrival {a b : Team} (h : b.threads.map Thread.arrival = a.threads.map Thread.arrival) : b.pend = a.pend := by
  funext k tid
  rw [Team.pend_eq, Team.pend_eq, h]

/-! ## Completion of phases, R96 -/

def Team.bar (t : Team) (k : Nat) : Barrier := nth ⟨0, 0, none, []⟩ t.bars k

/-- A barrier of which one phase is complete. -/
def Barrier.next (b : Barrier) : Barrier := ⟨b.phase + 1, b.carry.length, b.carry.head?.map (·.2), []⟩

theorem barNext_eq (threads : Nat) (missing : Nat → Nat) (b : Barrier) :
    Claim.barNext threads missing b = if Claim.barFull threads missing b then b.next else b := rfl

/-- The phase completes, and who waited for it wakes. -/
def Team.barStep (t : Team) (now k : Nat) : Team :=
  ({ t with bars := modNth Barrier.next t.bars k } : Team).wakeThreads now fun th =>
    th.run == .suspended (.bar k) && (th.pend.get none k).any fun p => decide (p ≤ (t.bar k).phase)

theorem Team.barSettleN_succ (n : Nat) (t : Team) (now k : Nat) : t.barSettleN (n + 1) now k =
    if Claim.barFull t.hdr.threads (t.exitedMissing k) (t.bar k) then (t.barStep now k).barSettleN n now k else t := rfl

/-- What becomes of a thread that waits at a barrier whose phases from `old` to `new` completed. -/
def Thread.passed (now k old new : Nat) (th : Thread) : Thread :=
  if old < new ∧ (th.pend.get none k).any (fun p => decide (p < new)) = true then Claim.freed now th else th

/-- Between `a` and `b` only barrier k moved, by arrivals of the threads of `arrived`: those that waited for a phase now complete
are awake, and no other thread changed that is neither held nor one of `arrived`. -/
structure Team.BarMoved (now k : Nat) (arrived : List Nat) (a b : Team) : Prop where
  rest : b = { a with threads := b.threads, bars := b.bars, msets := b.msets }
  length : b.bars.length = a.bars.length
  others : ∀ j, j ≠ k → b.bar j = a.bar j
  phase : (a.bar k).phase ≤ (b.bar k).phase
  missing : b.exitedMissing = a.exitedMissing
  ids : b.threads.map (·.tid) = a.threads.map (·.tid)
  msets : a.msets = [] → b.msets = []
  pend : ∀ tid, tid ∉ arrived → b.pend k tid = a.pend k tid
  waits : ∀ tid th, tid ∉ arrived → a.thread? tid = some th → th.run = .suspended (.bar k) → th.meet = 0 ∨ a.msets = [] →
    b.thread? tid = some (th.passed now k (a.bar k).phase (b.bar k).phase)
  keeps : ∀ tid th, tid ∉ arrived → a.thread? tid = some th → th.run ≠ .held ∨ a.msets = [] → th.run ≠ .suspended (.bar k) → b.thread? tid = some th

namespace Team.BarMoved
variable {now k : Nat} {l m : List Nat} {a b c : Team}

theorem refl (now k : Nat) (a : Team) : a.BarMoved now k [] a where
  rest := rfl
  length := rfl
  others _ _ := rfl
  phase := le_rfl
  missing := rfl
  ids := rfl
  msets h := h
  pend _ _ := rfl
  waits tid th _ hth _ _ := by simp [Thread.passed, hth]
  keeps _ _ _ hth _ _ := hth

theorem trans (h : a.BarMoved now k l b) (g : b.BarMoved now k m c) : a.BarMoved now k (l ++ m) c where
  rest := by rw [g.rest, h.rest]
  length := g.length.trans h.length
  others j hj := (g.others j hj).trans (h.others j hj)
  phase := h.phase.trans g.phase
  missing := g.missing.trans h.missing
  ids := g.ids.trans h.ids
  msets none := g.msets (h.msets none)
  pend tid away := by
    rw [List.mem_append, not_or] at away
    exact (g.pend tid away.2).trans (h.pend tid away.1)
  waits tid th away hth wait free := by
    rw [List.mem_append, not_or] at away
    have first := h.waits tid th away.1 hth wait free
    have le1 := h.phase
    have le2 := g.phase
    by_cases woke : (a.bar k).phase < (b.bar k).phase ∧ (th.pend.get none k).any (fun p => decide (p < (b.bar k).phase)) = true
    · rw [Thread.passed, if_pos woke] at first
      rw [g.keeps tid _ away.2 first (.inl nofun) nofun, Thread.passed, if_pos]
      refine ⟨by omega, ?_⟩
      obtain ⟨p, hp, lt⟩ := (Option.any_eq_true _ _).1 woke.2
      exact (Option.any_eq_true _ _).2 ⟨p, hp, decide_eq_true ((of_decide_eq_true lt).trans_le le2)⟩
    · rw [Thread.passed, if_neg woke] at first
      rw [g.waits tid th away.2 first wait (free.imp_right h.msets)]
      unfold Thread.passed
      congr 1
      refine if_congr ⟨fun e => ⟨by omega, e.2⟩, fun e => ⟨?_, e.2⟩⟩ rfl rfl
      by_contra stays
      have : (b.bar k).phase = (c.bar k).phase := by omega
      exact woke ⟨by omega, this ▸ e.2⟩
  keeps tid th away hth on free := by
    rw [List.mem_append, not_or] at away
    exact g.keeps tid th away.2 (h.keeps tid th away.1 hth on free) (on.imp_right h.msets) free

end Team.BarMoved

theorem Team.bar_barStep {t : Team} {k : Nat} (h : k < t.bars.length) (now : Nat) : (t.barStep now k).bar k = (t.bar k).next := by
  have : (t.barStep now k).bars = modNth Barrier.next t.bars k := by rw [Team.barStep, Team.wakeThreads_rest _ now _]
  rw [Team.bar, this]
  exact nth_modNth_same _ _ h

theorem Team.barStep_moved {t : Team} {k : Nat} (h : k < t.bars.length) (now : Nat) : t.BarMoved now k [] (t.barStep now k) := by
  have rest := Team.wakeThreads_rest ({ t with bars := modNth Barrier.next t.bars k } : Team) now fun th =>
    th.run == .suspended (.bar k) && (th.pend.get none k).any fun p => decide (p ≤ (t.bar k).phase)
  have bars : (t.barStep now k).bars = modNth Barrier.next t.bars k := by rw [Team.barStep, rest]
  have same : (t.barStep now k).threads.map Thread.arrival = t.threads.map Thread.arrival := by
    refine map_arrival_wakeThreads (t := { t with bars := modNth Barrier.next t.bars k }) (fun th wakes => ?_) now
    simp only [Bool.and_eq_true, beq_iff_eq] at wakes
    rw [wakes.1]; exact nofun
  refine ⟨?_, ?_, fun j hj => ?_, ?_, exitedMissing_of_arrival same, ids_of_arrival same, fun none => ?_, fun tid _ => ?_, fun tid th _ hth wait free => ?_,
    fun tid th _ hth on free => ?_⟩
  · rw [bars]; exact rest
  · rw [bars, modNth_length]
  · rw [Team.bar, bars]; exact nth_modNth_other _ _ _ hj
  · rw [Team.bar_barStep h]; exact Nat.le_succ _
  · exact (Team.SameControl.wakeThreads (t := { t with bars := modNth Barrier.next t.bars k }) none now _).msets.trans none
  · rw [pend_of_arrival same]
  · rw [Team.bar_barStep h]
    refine (Team.thread?_wakeThreads (t := { t with bars := modNth Barrier.next t.bars k }) hth (.inl (by rw [wait]; exact nofun)) (fun _ => free) now).trans ?_
    simp [Thread.passed, Barrier.next, wait]
  · refine (Team.thread?_wakeThreads (t := { t with bars := modNth Barrier.next t.bars k }) hth on (fun p => ?_) now).trans ?_
    · simp [free] at p
    · simp [free]

/-- Settling a barrier completes its phases while they are full. -/
theorem Team.barSettleN_spec (n now k : Nat) {t : Team} (h : k < t.bars.length) : t.BarMoved now k [] (t.barSettleN n now k) ∧
    (t.barSettleN n now k).bar k = (Claim.barNext t.hdr.threads (t.exitedMissing k))^[n] (t.bar k) := by
  induction n generalizing t with
  | zero => exact ⟨.refl now k t, rfl⟩
  | succ n ih =>
    rw [Team.barSettleN_succ]
    have step := Team.barStep_moved h now
    obtain ⟨moved, bar⟩ := ih (t := t.barStep now k) (by rw [step.length]; exact h)
    have hdr : (t.barStep now k).hdr = t.hdr := by rw [step.rest]
    rw [hdr, step.missing, Team.bar_barStep h] at bar
    rw [Function.iterate_succ_apply, barNext_eq]
    split_ifs with full
    · exact ⟨step.trans moved, bar⟩
    · refine ⟨.refl now k t, ?_⟩
      have stays : Claim.barNext t.hdr.threads (t.exitedMissing k) (t.bar k) = t.bar k := if_neg full
      exact (Function.iterate_fixed stays n).symm

/-- After two phases no arrival is left that was carried. -/
theorem barNext_iterate (threads : Nat) (missing : Nat → Nat) (b : Barrier) :
    (Claim.barNext threads missing)^[4] b = Claim.barNext threads missing (Claim.barNext threads missing b) := by
  have idle (p n : Nat) : Claim.barNext threads missing ⟨p, n, none, []⟩ = ⟨p, n, none, []⟩ := rfl
  simp only [Function.iterate_succ_apply, Function.iterate_zero, id_eq]
  by_cases first : Claim.barFull threads missing b = true
  · have one : Claim.barNext threads missing b = b.next := if_pos first
    rw [one]
    by_cases second : Claim.barFull threads missing b.next = true
    · have two : Claim.barNext threads missing b.next = b.next.next := if_pos second
      rw [two, Barrier.next, Barrier.next]
      exact (congrArg _ (idle _ _)).trans (idle _ _)
    · have two : Claim.barNext threads missing b.next = b.next := if_neg second
      rw [two, two, two]
  · have one : Claim.barNext threads missing b = b := if_neg first
    rw [one, one, one, one]

theorem Team.barSettle_spec (now k : Nat) {t : Team} (h : k < t.bars.length) : t.BarMoved now k [] (t.barSettle now k) ∧
    (t.barSettle now k).bar k = Claim.barNext t.hdr.threads (t.exitedMissing k) (Claim.barNext t.hdr.threads (t.exitedMissing k) (t.bar k)) := by
  have := Team.barSettleN_spec 4 now k h
  rwa [barNext_iterate] at this

/-! ## One arrival, R95 -/

/-- Arrival in phase p: it counts towards the current phase or is carried. -/
def Barrier.enter (b : Barrier) (p tid count : Nat) : Barrier :=
  if p = b.phase then { b with exp := some (b.exp.getD count), arr := b.arr + 1 } else { b with carry := b.carry ++ [(tid, count)] }

/-- The phase in which a thread arrives, whose pending phase is `pend`. -/
def Barrier.phaseOf (b : Barrier) (pend : Option Nat) : Nat := if pend = some b.phase then b.phase + 1 else b.phase

/-- The barrier and the thread's pending phase after an arrival, before completion. -/
def Team.barEnter (t : Team) (k tid count p : Nat) : Team :=
  ({ t with bars := modNth (·.enter p tid count) t.bars k } : Team).modThread tid fun th => { th with pend := th.pend.set none k (some p) }

theorem Team.barArrive_eq {t : Team} {tid : Nat} {th : Thread} (hth : t.thread? tid = some th) (now k count : Nat) :
    t.barArrive now k tid count = (t.barEnter k tid count ((t.bar k).phaseOf (t.pend k tid))).barSettle now k := by
  have pend : t.pend k tid = th.pend.get none k := by simp [Team.pend, hth]
  unfold Team.barArrive
  rw [hth, pend]
  rfl

theorem Barrier.enter_phase (b : Barrier) (p tid count : Nat) : (b.enter p tid count).phase = b.phase := by
  unfold Barrier.enter; split_ifs <;> rfl

section
variable {t : Team} {k tid : Nat} {th : Thread} (hth : t.thread? tid = some th) (h : k < t.bars.length) (count p : Nat)

theorem Team.thread?_barEnter (j : Nat) : (t.barEnter k tid count p).thread? j =
    (t.thread? j).map fun th => if j = tid then { th with pend := th.pend.set none k (some p) } else th :=
  Team.thread?_modThread { t with bars := modNth (·.enter p tid count) t.bars k } tid j (fun th => { th with pend := th.pend.set none k (some p) }) fun _ => rfl

include hth in
theorem Team.pend_barEnter (j : Nat) : (t.barEnter k tid count p).pend k j = if j = tid then some p else t.pend k j := by
  unfold Team.pend
  rw [Team.thread?_barEnter]
  split_ifs with same
  · subst same; simp [hth]
  · cases t.thread? j <;> rfl

include h in
theorem Team.bar_barEnter : (t.barEnter k tid count p).bar k = (t.bar k).enter p tid count := nth_modNth_same _ _ h

include hth h in
theorem Team.barEnter_moved (ordered : Safety.ordered t = true) (live : th.run ≠ .exited) (now : Nat) :
    t.BarMoved now k [tid] (t.barEnter k tid count p) where
  rest := rfl
  length := modNth_length ..
  others j hj := nth_modNth_other _ _ _ hj
  phase := by rw [Team.bar_barEnter h, Barrier.enter_phase]
  missing := by
    funext j phase
    rw [Team.exitedMissing, Team.exitedMissing, ← List.countP_eq_length_filter, ← List.countP_eq_length_filter]
    refine (List.countP_map ..).trans (List.countP_congr fun u hu => ?_)
    dsimp only [Function.comp_apply]
    by_cases same : u.tid = tid
    · have : u = th := by
        have own := Team.thread?_of_mem ordered hu
        rw [same, hth] at own
        exact (Option.some.inj own).symm
      have ran : (th.run == .exited) = false := beq_eq_false_iff_ne.2 live
      rw [this]
      split_ifs <;> simp [ran]
    · simp [same]
  ids := by
    simp only [Team.barEnter, Team.modThread, Team.modThreads, List.map_map]
    refine List.map_congr_left fun u _ => ?_
    simp only [Function.comp_apply]
    split_ifs <;> rfl
  msets h := h
  pend j away := by rw [Team.pend_barEnter hth, if_neg (by simpa using away)]
  waits j u away hu wait free := by
    rw [Team.thread?_barEnter, hu, Option.map_some, if_neg (by simpa using away), Team.bar_barEnter h, Barrier.enter_phase]
    simp [Thread.passed]
  keeps j u away hu _ _ := by rw [Team.thread?_barEnter, hu, Option.map_some, if_neg (by simpa using away)]

end

/-- One arrival moves only its barrier, to what the claim's arrival makes of it. -/
theorem Team.barArrive_spec {t : Team} {k tid : Nat} {th : Thread} (hth : t.thread? tid = some th) (h : k < t.bars.length)
    (ordered : Safety.ordered t = true) (live : th.run ≠ .exited) (now count : Nat) :
    t.BarMoved now k [tid] (t.barArrive now k tid count) ∧
    ((t.barArrive now k tid count).bar k, (t.barArrive now k tid count).pend k) =
      Claim.barArrive t.hdr.threads (t.exitedMissing k) (t.bar k, t.pend k) tid count := by
  rw [Team.barArrive_eq hth]
  have entered := Team.barEnter_moved hth h count ((t.bar k).phaseOf (t.pend k tid)) ordered live now
  obtain ⟨settled, bar⟩ := Team.barSettle_spec now k (t := t.barEnter k tid count _) (by rw [entered.length]; exact h)
  refine ⟨entered.trans settled, ?_⟩
  rw [Team.bar_barEnter h, entered.missing] at bar
  refine Prod.ext bar (funext fun j => (settled.pend j List.not_mem_nil).trans ((Team.pend_barEnter hth count _ j)))

/-- The arrivals of several threads, one after the other. -/
theorem Team.barArrive_fold (count : Thread → Nat) (now : Nat) {k : Nat} (l : List Thread) (apart : l.Pairwise fun x y => x.tid ≠ y.tid) {t : Team}
    (h : k < t.bars.length) (ordered : Safety.ordered t = true) (runs : ∀ th ∈ l, t.thread? th.tid = some th ∧ th.run = .runnable) :
    let b := l.foldl (fun t th => t.barArrive now k th.tid (count th)) t
    t.BarMoved now k (l.map (·.tid)) b ∧ (b.bar k, b.pend k) =
      l.foldl (fun x th => Claim.barArrive t.hdr.threads (t.exitedMissing k) x th.tid (count th)) (t.bar k, t.pend k) := by
  induction l generalizing t with
  | nil => exact ⟨.refl now k t, rfl⟩
  | cons th l ih =>
    obtain ⟨away, apart⟩ := List.pairwise_cons.1 apart
    obtain ⟨hth, run⟩ := runs th List.mem_cons_self
    obtain ⟨moved, one⟩ := Team.barArrive_spec hth h ordered (by rw [run]; exact nofun) now (count th)
    have hdr : (t.barArrive now k th.tid (count th)).hdr = t.hdr := by rw [moved.rest]
    obtain ⟨rest, fin⟩ := ih apart (t := t.barArrive now k th.tid (count th)) (by rw [moved.length]; exact h)
      (by rw [Safety.ordered, moved.ids]; exact ordered) fun u hu => by
        obtain ⟨own, ran⟩ := runs u (List.mem_cons_of_mem _ hu)
        refine ⟨moved.keeps u.tid u ?_ own ?_ ?_, ran⟩
        · simpa using (away u hu).symm
        · exact .inl (by rw [ran]; exact nofun)
        · rw [ran]; exact nofun
    refine ⟨moved.trans rest, fin.trans ?_⟩
    rw [one, hdr, moved.missing, List.foldl_cons]

/-! ## BAR and BARA -/

/-- The record once the clause's terminal instruction is captured. -/
def Grp.captures (g : Grp) (T : Terminal) : Grp := { g with clause := g.clause.map fun c => { c with term := some T } }

/-- The active threads arrive, each with its count. -/
def View.arrived (v : View) (o : Opnds) (bid : Nat) (t : Team) : Team :=
  (v.active o).foldl (fun t th => t.barArrive v.s.sched.steps bid th.tid (Claim.u32 v o o.sa (some th))) t

theorem View.barriers_eq (v : View) (o : Opnds) (bid : Nat) : v.barriers o bid = v.s.modTeam v.iss.team (v.arrived o bid) := by
  simp only [View.barriers, View.read_eq_operand]; rfl

/-- The arrivals are the whole effect of BARA; BAR also captures its wait. -/
theorem exec_arrives {s : State} {v : View} {o : Opnds} {bid : Fin 16} {wait : Bool}
    (h : Claim.Issues s v (if wait then .bar o bid else .bara o bid) o) (grps : (v.arrived o bid v.team).grps = v.team.grps) :
    ∃ t b g, exec (if wait then .bar o bid else .bara o bid) s = .next t ∧ Claim.OnlyTeam s t v.iss.team ∧ t.team? v.iss.team = some b ∧
      b.grp? v.iss.recno = some g ∧
      g.clause.bind (·.term) = (if wait then some (.bar bid.val ((v.active o).map (·.tid))) else v.cl.term) ∧
      b.bars = (v.arrived o bid v.team).bars ∧ b.threads = (v.arrived o bid v.team).threads := by
  obtain ⟨-, -, -, hg, hcl⟩ := State.view?_spec h.1
  have own : (v.arrived o bid v.team).grp? v.iss.recno = some v.grp := by rw [Team.grp?, grps]; exact hg
  cases wait with
  | true =>
    obtain ⟨t, run, only, team⟩ := exec_changes_team (i := .bar o bid)
      (f := fun t => (v.arrived o bid t).modGrp v.iss.recno (·.captures (.bar bid.val ((v.active o).map (·.tid))))) h rfl (by
        rw [← State.modTeam_modGrp, ← View.barriers_eq]; rfl)
    refine ⟨t, _, (v.grp.captures (.bar bid.val ((v.active o).map (·.tid)))).onward v (.bar o bid) o, run, only, team, ?_, ?_, rfl, rfl⟩
    · rw [Team.grp?_modGrp_same _ _ (·.onward v (.bar o bid) o) fun _ => rfl, Team.grp?_modGrp_same _ _ (·.captures _) fun _ => rfl, own]
      rfl
    · simp [Grp.onward, Grp.captures, hcl, View.advance]
  | false =>
    obtain ⟨t, run, only, team⟩ := exec_changes_team (i := .bara o bid) (f := v.arrived o bid) h rfl (by rw [← View.barriers_eq])
    refine ⟨t, _, v.grp.onward v (.bara o bid) o, run, only, team, ?_, ?_, rfl, rfl⟩
    · rw [Team.grp?_modGrp_same _ _ (·.onward v (.bara o bid) o) fun _ => rfl, own, Option.map_some]
    · simp [Grp.onward, hcl, View.advance]

/-- R95, R96. -/
theorem barrierArrivalsInOrder : Claim.BarrierArrivalsInOrder := by
  intro s v o bid wait
  dsimp only
  intro h ordered inside runs
  obtain ⟨hs, -, -, -, -⟩ := State.view?_spec h.1
  obtain ⟨moved, fin⟩ := Team.barArrive_fold (fun th => Claim.u32 v o o.sa (some th)) v.s.sched.steps (v.active o) (View.active_apart h.1 ordered o)
    inside ordered fun th hth => ⟨View.active_thread? h.1 ordered hth, runs th hth⟩
  change v.team.BarMoved _ _ _ (v.arrived o bid v.team) at moved
  change ((v.arrived o bid v.team).bar bid, (v.arrived o bid v.team).pend bid) = _ at fin
  obtain ⟨t, b, g, run, only, team, grp, term, bars, threads⟩ := exec_arrives h (by rw [moved.rest])
  have bar (k : Nat) : nth ⟨0, 0, none, []⟩ b.bars k = (v.arrived o bid v.team).bar k := by rw [bars, Team.bar]
  have thread (tid : Nat) : b.thread? tid = (v.arrived o bid v.team).thread? tid := by rw [Team.thread?, threads, Team.thread?]
  refine ⟨t, b, g, run, only, team, grp, term, ?_, fun k other => ?_, fun th hth => ?_, fun th hth wait free => ?_⟩
  · rw [bar]; exact congrArg Prod.fst fin
  · rw [bar]; exact moved.others k other
  · rw [thread]; exact congrFun (congrArg Prod.snd fin) th.tid
  · have away : th.tid ∉ (v.active o).map (·.tid) := fun named => by
      obtain ⟨u, hu, same⟩ := List.mem_map.1 named
      have : u = th := by
        have := View.active_thread? h.1 ordered hu
        rw [same, Team.thread?_of_mem ordered hth] at this
        exact (Option.some.inj this).symm
      rw [← this, runs u hu] at wait
      exact nomatch wait
    rw [thread, moved.waits th.tid th away (Team.thread?_of_mem ordered hth) wait (.inl free)]
    have fin1 := congrArg Prod.fst fin
    dsimp only at fin1
    rw [Thread.passed, fin1, ← hs]
    simp [Claim.freed, free]
    rfl

theorem barFull_some (threads : Nat) (missing : Nat → Nat) (phase arr e : Nat) (carry : List (Nat × Nat)) :
    Claim.barFull threads missing ⟨phase, arr, some e, carry⟩ = true ↔ if e = 0 then arr + missing phase = threads else e ≤ arr := by
  cases e with
  | zero => simp [Claim.barFull]
  | succ e => simp [Claim.barFull]

/-- What the first arrival of a thread in the current phase makes of a barrier with no arrival carried. -/
theorem barArrive_first {threads : Nat} {missing : Nat → Nat} {b : Barrier} {pend : Nat → Option Nat} {tid : Nat} (count : Nat)
    (first : pend tid ≠ some b.phase) (none : b.carry = []) : Claim.barArrive threads missing (b, pend) tid count =
      (if Claim.barFull threads missing ⟨b.phase, b.arr + 1, some (b.exp.getD count), []⟩ then ⟨b.phase + 1, 0, .none, []⟩
        else ⟨b.phase, b.arr + 1, some (b.exp.getD count), []⟩, fun t => if t = tid then some b.phase else pend t) := by
  have next : Claim.barNext threads missing ⟨b.phase + 1, 0, .none, []⟩ = ⟨b.phase + 1, 0, .none, []⟩ := rfl
  unfold Claim.barArrive
  simp only [if_neg first, if_true, none]
  by_cases full : Claim.barFull threads missing ⟨b.phase, b.arr + 1, some (b.exp.getD count), []⟩ = true
  · simp only [barNext_eq threads missing ⟨b.phase, b.arr + 1, some (b.exp.getD count), []⟩, full, if_true]
    exact congrArg (·, _) next
  · simp only [barNext_eq threads missing ⟨b.phase, b.arr + 1, some (b.exp.getD count), []⟩, full, Bool.false_eq_true, if_false]

/-- R95, R96. -/
theorem barrierArrivalCompletesItsPhase : Claim.BarrierArrivalCompletesItsPhase := by
  intro s v o bid th wait
  dsimp only
  intro h only1 ordered inside live first carry none
  have own : v.team.thread? th.tid = some th := View.active_thread? h.1 ordered (o := o) (by rw [only1]; exact List.mem_singleton.2 rfl)
  have arrived : v.arrived o bid v.team = v.team.barArrive v.s.sched.steps bid th.tid (Claim.u32 v o o.sa (some th)) := by
    rw [View.arrived, only1]; rfl
  obtain ⟨moved, fin⟩ := Team.barArrive_spec own inside ordered live v.s.sched.steps (Claim.u32 v o o.sa (some th))
  rw [← arrived, barArrive_first (b := v.team.bar bid) _ (by rw [Team.pend, own]; exact first) carry] at fin
  rw [← arrived] at moved
  obtain ⟨t, b, g, run, only, team, grp, term, bars, threads⟩ := exec_arrives h (by rw [moved.rest])
  have bar (k : Nat) : nth ⟨0, 0, .none, []⟩ b.bars k = (v.arrived o bid v.team).bar k := by rw [bars, Team.bar]
  have thread (tid : Nat) : b.thread? tid = (v.arrived o bid v.team).thread? tid := by rw [Team.thread?, threads, Team.thread?]
  have fin1 := congrArg Prod.fst fin
  have fin2 := congrFun (congrArg Prod.snd fin) th.tid
  dsimp only at fin1 fin2
  have full (e : Nat) : Claim.barFull v.team.hdr.threads (v.team.exitedMissing bid) ⟨(v.team.bar bid).phase, (v.team.bar bid).arr + 1, some e, []⟩ = true ↔ _ :=
    barFull_some ..
  refine ⟨t, b, g, run, only, team, grp, by rw [term, only1]; rfl, ?_, fun met => ?_, fun open_ => ?_, fun k other => ?_⟩
  · rw [Team.pend, ← thread, if_pos rfl] at fin2
    obtain ⟨u, hu, hp⟩ := Option.bind_eq_some_iff.1 fin2
    rw [hu]; exact congrArg some hp
  · rw [bar, fin1]
    exact if_pos ((full _).2 met)
  · rw [bar, fin1]
    exact if_neg (mt (full _).1 open_)
  · rw [bar]; exact moved.others k other

/-! ## EXIT, R86, R96 -/

/-- Between `a` and `b`, of which no meeting set holds a thread, the barriers of `l` were settled. -/
structure Team.BarsSettled (now : Nat) (l : List Nat) (a b : Team) : Prop where
  hdr : b.hdr = a.hdr
  length : b.bars.length = a.bars.length
  missing : b.exitedMissing = a.exitedMissing
  msets : b.msets = []
  settled : ∀ k ∈ l, b.bar k = Claim.barNext a.hdr.threads (a.exitedMissing k) (Claim.barNext a.hdr.threads (a.exitedMissing k) (a.bar k))
  others : ∀ k, k ∉ l → b.bar k = a.bar k
  waits : ∀ tid th k, k ∈ l → a.thread? tid = some th → th.run = .suspended (.bar k) →
    b.thread? tid = some (th.passed now k (a.bar k).phase (b.bar k).phase)
  keeps : ∀ tid th, a.thread? tid = some th → (∀ k ∈ l, th.run ≠ .suspended (.bar k)) → b.thread? tid = some th

theorem Thread.passed_run {th : Thread} {k j : Nat} (wait : th.run = .suspended (.bar k)) (other : j ≠ k) (now old new : Nat) :
    (th.passed now k old new).run ≠ .suspended (.bar j) := by
  unfold Thread.passed
  split_ifs
  · exact nofun
  · rw [wait]; exact fun h => other (by cases h; rfl)

theorem Team.barSettle_all (now : Nat) {l : List Nat} (apart : l.Nodup) {t : Team} (inside : ∀ k ∈ l, k < t.bars.length) (none : t.msets = []) :
    Team.BarsSettled now l t (l.foldl (fun t b => t.barSettle now b) t) := by
  induction l generalizing t with
  | nil => exact ⟨rfl, rfl, rfl, none, fun _ h => (nomatch h), fun _ _ => rfl, fun _ _ _ h => (nomatch h), fun _ _ hth _ => hth⟩
  | cons k l ih =>
    obtain ⟨new, apart⟩ := List.nodup_cons.1 apart
    obtain ⟨moved, bar⟩ := Team.barSettle_spec now k (inside k List.mem_cons_self)
    have hdr : (t.barSettle now k).hdr = t.hdr := by rw [moved.rest]
    have rest := ih apart (t := t.barSettle now k) (fun j hj => moved.length ▸ inside j (List.mem_cons_of_mem _ hj)) (moved.msets none)
    have apart (j : Nat) (hj : j ∈ l) : j ≠ k := fun e => new (e ▸ hj)
    refine ⟨rest.hdr.trans hdr, rest.length.trans moved.length, rest.missing.trans moved.missing, rest.msets, fun j hj => ?_, fun j hj => ?_,
      fun tid th j hj hth wait => ?_, fun tid th hth free => ?_⟩
    · rcases List.mem_cons.1 hj with rfl | hj
      · exact (rest.others j new).trans bar
      · rw [List.foldl_cons, rest.settled j hj, moved.missing, hdr, moved.others j (apart j hj)]
    · rw [List.mem_cons, not_or] at hj
      exact (rest.others j hj.2).trans (moved.others j hj.1)
    · rcases List.mem_cons.1 hj with rfl | hj
      · have woke := moved.waits tid th List.not_mem_nil hth wait (.inr none)
        rw [List.foldl_cons, rest.others j new]
        exact rest.keeps tid _ woke fun i hi => Thread.passed_run wait (apart i hi) _ _ _
      · have same := moved.keeps tid th List.not_mem_nil hth (.inr none) (by rw [wait]; exact fun h => apart j hj (by cases h; rfl))
        rw [List.foldl_cons, rest.waits tid th j hj same wait, moved.others j (apart j hj)]
    · have same := moved.keeps tid th List.not_mem_nil hth (.inr none) (free k List.mem_cons_self)
      exact rest.keeps tid th same fun j hj => free j (List.mem_cons_of_mem _ hj)

/-- A thread where it goes when its clause ends by EXIT, if it is one of those that end or one of the others present. -/
def View.exits (v : View) (es : List ClendEntry) (tids : List Nat) : Team :=
  ((v.endedTeam es).arrive v.s.sched.steps v.following (v.cl.others tids)).modThreads (fun th => tids.contains th.tid)
    fun th => { th with run := .exited, endH := v.grp.h }

theorem Team.arrive1_run {t : Team} (none : t.msets = []) (now h : Nat) (th : Thread) : (t.arrive1 now h th).run = .runnable := by
  unfold Team.arrive1
  dsimp only
  rw [t.spent_of_none none]
  split_ifs
  · rfl
  · contradiction
  · rfl

theorem Team.arrive1_pend (t : Team) (now h : Nat) (th : Thread) : (t.arrive1 now h th).pend = th.pend := by
  unfold Team.arrive1
  dsimp only
  split_ifs <;> rfl

/-- What a barrier counts as missing once the clause's threads have ended. -/
theorem View.exits_missing {s : State} {v : View} (h : s.view? = some v) (es : List ClendEntry) (tids : List Nat) (none : v.team.msets = [])
    (runs : ∀ th ∈ v.present, th.run = .runnable) (k phase : Nat) :
    (v.exits es tids).exitedMissing k phase = v.team.threads.countP fun th =>
      (th.run == .exited || tids.contains th.tid) && (th.pend.get .none k).all fun p => decide (p < phase) := by
  rw [Team.exitedMissing, ← List.countP_eq_length_filter]
  refine (List.countP_map ..).trans ((List.countP_map ..).trans (List.countP_congr fun th hth => ?_))
  dsimp only [Function.comp_apply]
  have later (q : Option Nat) : (!q.any fun p => decide (phase ≤ p)) = q.all fun p => decide (p < phase) := by
    cases q with
    | none => rfl
    | some p =>
      simp only [Option.any_some, Option.all_some, ← decide_not]
      exact decide_eq_decide.2 not_le
  rw [later]
  by_cases ends : th.tid ∈ tids
  · have away : th.tid ∉ v.cl.others tids := fun o => by simp [Clause.others, ends] at o
    simp [ends, away]
  · by_cases other : th.tid ∈ v.cl.others tids
    · have ran : th.run = .runnable := runs th (by
        rw [View.present_eq h, List.mem_filter]
        exact ⟨hth, by simpa using (List.mem_filter.1 other).1⟩)
      simp [ends, other, Team.arrive1_tid, Team.arrive1_pend, Team.arrive1_run (t := v.endedTeam es) none, ran]
    · simp [ends, other]

/-- R86, R96. -/
theorem exitCompletesBarrierPhases : Claim.ExitCompletesBarrierPhases := by
  intro s v es tids h ordered term running none mq runs
  obtain ⟨rfl, -, -, -, -⟩ := State.view?_spec h.1
  have done : Team.BarsSettled v.s.sched.steps (List.range v.team.bars.length) (v.exits es tids) _ :=
    Team.barSettle_all v.s.sched.steps List.nodup_range (fun k hk => List.mem_range.1 hk) none
  have same : (v.endedTeam es).SameControl ((v.endedTeam es).arrive v.s.sched.steps v.following (v.cl.others tids)) := ⟨rfl, rfl, rfl⟩
  obtain ⟨t, run, only, team⟩ := exec_clend_team (F := fun t => (t.arrive v.s.sched.steps v.following (v.cl.others tids)).endThreads v.s.sched.steps
    v.grp.h tids) h running none mq (by
      simp only [View.terminal, show (v.ended es).cl.term = _ from term, View.endedState_sched, State.modTeam_modTeam]; rfl)
    (same.trans (.endThreads (same.msets.trans none) _ _ _))
  have missing (k : Nat) := funext (View.exits_missing h.1 es tids none runs k)
  have hdr : (v.exits es tids).hdr = v.team.hdr := rfl
  have bar (k : Nat) : (v.exits es tids).bar k = v.team.bar k := rfl
  have settled (k : Nat) (hk : k < v.team.bars.length) := done.settled k (List.mem_range.2 hk)
  simp only [missing, hdr, bar] at settled
  refine ⟨t, _, run, only, team, done.length, settled, fun th hth away rest => ?_⟩
  have stands : (v.exits es tids).thread? th.tid = some th := by
    refine Team.thread?_modThreads_of_not (p := fun th => tids.contains th.tid) (f := fun th => { th with run := .exited, endH := v.grp.h })
      (fun _ => rfl) (t := (v.endedTeam es).arrive v.s.sched.steps v.following (v.cl.others tids)) ?_ (by simpa using rest)
    refine Team.thread?_modThreads_of_not (t := v.endedTeam es) (fun th => Team.arrive1_tid ..) (Team.thread?_of_mem ordered hth) ?_
    simpa [Clause.others] using fun present => absurd present away
  have kept := done.keeps th.tid th stands
  cases hr : th.run with
  | suspended w =>
    cases w with
    | bar k =>
      by_cases inside : k < v.team.bars.length
      · have woke := done.waits th.tid th k (List.mem_range.2 inside) stands hr
        rw [settled k inside, bar] at woke
        refine woke.trans ?_
        simp only [Thread.passed, inside, true_and]
        rfl
      · refine (kept fun j hj wait => ?_).trans ?_
        · rw [hr] at wait
          cases wait
          exact inside (List.mem_range.1 hj)
        · simp [inside]
    | _ => exact kept (by simp [hr])
  | _ => exact kept (by simp [hr])

/-- Settles O14: each arrival moves its own barrier alone, by the claim's own count, and completing a phase wakes those that waited for it. -/
theorem barrierArrivalsCompletePhases : Obligations.BarrierArrivalsCompletePhases :=
  ⟨barrierArrivalCompletesItsPhase, barrierArrivalsInOrder, exitCompletesBarrierPhases⟩

end Sys2Proof.Machine
end

section
/-! A successor takes over from a team whose engine writes a past value still tells of (R211, R324). -/
namespace Sys2Proof.Machine

/-! ## A team that hands over after an engine write of its was overwritten -/

/-- An engine write of the team at slot 0 of core 0, unplaced when the value that it had come over was overwritten for everyone. -/
def leftPast : Past :=
  let writer : Writer := ⟨some ⟨0, 0⟩, some 0⟩
  ⟨0x200000, 0, 1, writer, [], [⟨0x200000, [], 0, none, 1, writer, 0, none, 0⟩]⟩
/-- Address space 1 is one executable page at 0; the line of its code fails its parity, so that a target there is taken. -/
def leftMem : Mem := { State.reset.mem with
  phys := ⟨[(0x100000, 0x01), (0x100002, 0x11), (0x110000, 0x2B), (0x10000, 1)], [], [leftPast]⟩
  ctxs := [⟨1, 0x100000, 0, 0, false⟩] }
def leftSucc : SuccRec := ⟨0x20100, 0, 0, { KHdr.placed with scratch := 0 }⟩
/-- Its one record has retired, and a successor is recorded that keeps its writes to itself. -/
def leftTeam : Team := { Team.fresh 0 ⟨0, 0⟩ 0 (.launch 1) KHdr.placed with
  asid := 1, launch := 1, grps := [{ Grp.start 0 0 0 with retired := true }], threads := [], succ := some leftSucc }
def leftState : State := { State.reset with mem := leftMem, teams := [(0, leftTeam)] }

theorem leftState_succFits : leftState.succFits leftTeam leftSucc.hdr = true := by decide +kernel

theorem leftState_lands : leftState.landing 0 1 leftSucc.hdr.entry = none := by decide +kernel

/-- How many placements below PACKAGE each past value tells of, after a step. -/
def placingsAfter : Host.Outcome State Fault Refusal → Option (List Nat)
  | .next t => some (t.mem.phys.past.map (·.early.length))
  | _ => none

/-- The hand-over places the team's engine writes, and the past value takes the placement of the one above it. -/
theorem placingsAfter_handover : placingsAfter (exec (.successorHandover ⟨0, 0⟩) leftState) = some [1] := by decide +kernel

/-- Refutes O36 by its clause on the successor: the hand-over places the team's engine writes (R324), and also where none is left unplaced
the past values that one of them was overwritten with take that placement (R211), so that memory is not as before. -/
theorem not_recordsAndTeamsEnd : ¬ Obligations.RecordsAndTeamsEnd := by
  rintro ⟨⟨-, takesOver⟩, -⟩
  obtain ⟨-, starts⟩ := takesOver leftState ⟨0, 0⟩ leftTeam leftSucc rfl rfl rfl rfl
  obtain ⟨t, -, run, only, -⟩ := starts (by decide) (by decide) rfl leftState_succFits rfl rfl leftState_lands
  have mem : t.mem = leftState.mem := by rw [only.1]
  have placed := placingsAfter_handover
  rw [run, placingsAfter, mem] at placed
  exact absurd placed (by decide)

end Sys2Proof.Machine
end

section
/-! Waits that end: a sleep at its time, a regroup at its bound or its last arrival (R79 to R85, R104). -/
namespace Sys2Proof.Machine

/-! ## Records and threads of a team -/

theorem Team.grp?_of_mem {t : Team} (rising : (t.grps.map (·.recno)).Pairwise (· < ·)) {g : Grp} (hg : g ∈ t.grps) : t.grp? g.recno = some g := by
  have distinct : (t.grps.map (·.recno)).Nodup := rising.imp Nat.ne_of_lt
  obtain ⟨x, hx⟩ : ∃ x, t.grp? g.recno = some x := Option.isSome_iff_exists.1 (List.find?_isSome.2 ⟨g, hg, by simp⟩)
  have same : x.recno = g.recno := by simpa using List.find?_some hx
  rw [hx, List.inj_on_of_nodup_map distinct (List.mem_of_find?_eq_some hx) hg same]

theorem Team.grp?_recno {t : Team} {n : Nat} {g : Grp} (h : t.grp? n = some g) : g.recno = n := by simpa using List.find?_some h

theorem Team.modThreads_of_none {t : Team} {p : Thread → Bool} (none : ∀ th ∈ t.threads, p th = false) (f : Thread → Thread) : t.modThreads p f = t := by
  have same : t.threads.map (fun th => if p th then f th else th) = t.threads :=
    (List.map_congr_left fun th hth => by rw [none th hth]; rfl).trans (List.map_id _)
  rw [Team.modThreads, same]

/-- One change made to several records. -/
theorem Team.modGrps_spec {f : Grp → Grp} (hf : ∀ g, (f g).recno = g.recno) {l : List Nat} (distinct : l.Nodup) (t : Team) :
    let b := l.foldl (fun t n => t.modGrp n f) t
    b = { t with grps := b.grps } ∧ (∀ n, n ∉ l → b.grp? n = t.grp? n) ∧ ∀ n ∈ l, b.grp? n = (t.grp? n).map f := by
  induction l generalizing t with
  | nil => exact ⟨rfl, fun _ _ => rfl, fun _ h => nomatch h⟩
  | cons k l ih =>
    obtain ⟨new, distinct⟩ := List.nodup_cons.1 distinct
    obtain ⟨rest, others, own⟩ := ih distinct (t.modGrp k f)
    refine ⟨rest, fun n away => ?_, fun n hn => ?_⟩
    · rw [List.mem_cons, not_or] at away
      exact (others n away.2).trans (Team.grp?_modGrp_other t k f hf away.1)
    · rcases List.mem_cons.1 hn with rfl | hn
      · exact (others n new).trans (Team.grp?_modGrp_same t n f hf)
      · have apart : n ≠ k := fun e => new (e ▸ hn)
        rw [List.foldl_cons, own n hn, Team.grp?_modGrp_other t k f hf apart]

/-! ## A record that retires with no thread -/

/-- A record that has retired and returned its blocks. -/
def Grp.gone (g : Grp) : Grp := { g with retired := true, marks := [], h := 0 }

theorem Team.retireRec_spec {t : Team} {n : Nat} {g : Grp} (hg : t.grp? n = some g) (none : t.grants = [])
    (empty : ∀ th ∈ t.threads, th.recno = n → th.run = .exited) (now : Nat) :
    let b := t.retireRec now n
    b = { t with grps := b.grps, pool := t.pool + g.h } ∧ (∀ k, k ≠ n → b.grp? k = t.grp? k) ∧ b.grp? n = some g.gone := by
  have retired : (t.modGrp n fun g => { g with retired := true, marks := [] }).grp? n = some { g with retired := true, marks := [] } :=
    (Team.grp?_modGrp_same t n (fun g => { g with retired := true, marks := [] }) fun _ => rfl).trans (congrArg _ hg)
  have eq : t.retireRec now n = (t.modGrp n fun g => { g with retired := true, marks := [] }).giveBlocks now n g.h := by
    rw [Team.retireRec, hg]
  have idle : (t.modGrp n fun g => { g with retired := true, marks := [] }).modThreads (fun th => th.recno == n && th.run != .exited)
      (·.zeroed (g.h - g.h + 1) g.h) = t.modGrp n fun g => { g with retired := true, marks := [] } :=
    Team.modThreads_of_none (fun th hth => by
      by_cases own : th.recno = n
      · simp [empty th hth own]
      · simp [own]) _
  rw [Team.giveBlocks_eq retired none now g.h] at eq
  rw [idle] at eq
  refine ⟨by rw [eq]; rfl, fun k other => ?_, ?_⟩
  · rw [eq]
    refine (Team.grp?_modGrp_other _ n (fun x => { x with h := x.h - g.h }) (fun _ => rfl) other).trans ?_
    exact Team.grp?_modGrp_other t n (fun g => { g with retired := true, marks := [] }) (fun _ => rfl) other
  · rw [eq]
    refine (Team.grp?_modGrp_same _ n (fun x => { x with h := x.h - g.h }) fun _ => rfl).trans ?_
    rw [retired, Option.map_some, Grp.gone, Nat.sub_self]

/-- Several records retire that no live thread is left in. -/
theorem Team.retireRecs_spec (now : Nat) {l : List Nat} (distinct : l.Nodup) {t : Team} (none : t.grants = [])
    (empty : ∀ th ∈ t.threads, th.recno ∈ l → th.run = .exited) (held : ∀ n ∈ l, ∃ g, t.grp? n = some g) :
    let b := l.foldl (fun t n => t.retireRec now n) t
    b = { t with grps := b.grps, pool := t.pool + (l.map fun n => (t.grp? n).elim 0 (·.h)).sum } ∧ (∀ n, n ∉ l → b.grp? n = t.grp? n) ∧
      ∀ n ∈ l, b.grp? n = (t.grp? n).map Grp.gone := by
  induction l generalizing t with
  | nil => exact ⟨rfl, fun _ _ => rfl, fun _ h => nomatch h⟩
  | cons k l ih =>
    obtain ⟨new, distinct⟩ := List.nodup_cons.1 distinct
    obtain ⟨g, hg⟩ := held k List.mem_cons_self
    obtain ⟨first, others, own⟩ := Team.retireRec_spec hg none (fun th hth e => empty th hth (e ▸ List.mem_cons_self)) now
    have apart (n : Nat) (hn : n ∈ l) : n ≠ k := fun e => new (e ▸ hn)
    obtain ⟨rest, kept, gone⟩ := ih distinct (t := t.retireRec now k) (by rw [first]; exact none)
      (by rw [first]; exact fun th hth hn => empty th hth (List.mem_cons_of_mem _ hn))
      fun n hn => by rw [others n (apart n hn)]; exact held n (List.mem_cons_of_mem _ hn)
    have blocks : l.map (fun n => ((t.retireRec now k).grp? n).elim 0 (·.h)) = l.map fun n => (t.grp? n).elim 0 (·.h) :=
      List.map_congr_left fun n hn => by rw [others n (apart n hn)]
    have pool : (t.retireRec now k).pool = t.pool + g.h := by rw [first]
    refine ⟨?_, fun n away => ?_, fun n hn => ?_⟩
    · rw [List.foldl_cons, rest, blocks, pool, List.map_cons, List.sum_cons, hg, Option.elim_some, Nat.add_assoc, first]
    · rw [List.mem_cons, not_or] at away
      exact (kept n away.2).trans (others n away.1)
    · rcases List.mem_cons.1 hn with rfl | hn
      · rw [List.foldl_cons, kept n new, own, hg]; rfl
      · rw [List.foldl_cons, gone n hn, others n (apart n hn)]

/-! ## A compaction, R82, R83 -/

/-- The OR of %warn of these records. -/
def Team.orWarn (t : Team) (recs : List Nat) : W32 := (t.grps.filter fun g => recs.contains g.recno).foldl (fun w g => w ||| g.warn) 0

/-- The bounds that a record gains with the threads it gains. -/
def Team.brought (t : Team) (recs : List Nat) (n : Nat) : List (Scope × Nat) :=
  (t.grps.filter fun g => g.recno != n && ((((t.movers recs).foldr insKey []).zipIdx.filter fun x => nth 0 recs (x.2 / 32) == n)).any
    (·.1.recno == g.recno)).flatMap (·.bounds)

/-- A record that holds threads after a compaction at h: its wait there is over. -/
def Grp.taking (g : Grp) (now h : Nat) (warn : W32) (brought : Nat → List (Scope × Nat)) : Grp :=
  { g with warn := warn, marks := g.marks.filter (·.head != h), bounds := g.bounds ++ brought g.recno,
           waited := if g.marks.any (·.head == h) then g.waited.put h now else g.waited }

/-- How many records the movers fill. -/
def Team.filled (t : Team) (recs : List Nat) : Nat := (((t.movers recs).foldr insKey []).length + 31) / 32

theorem Team.filled_eq (t : Team) (recs : List Nat) : t.filled recs = ((t.movers recs).length + 31) / 32 := by
  rw [Team.filled, (perm_foldr_insKey _).length_eq]

theorem Team.compact_eq (t : Team) (now h : Nat) (recs : List Nat) : t.compact now h recs =
    ((recs.drop (t.filled recs)).foldl (fun t n => t.retireRec now n)
      ((recs.take (t.filled recs)).foldl (fun b n => b.modGrp n (·.taking now h (t.orWarn recs) (t.brought recs))) (t.placed now h recs))).settle now := rfl

theorem getLsbD_foldl_or (l : List Grp) (w : W32) (k : Nat) :
    (l.foldl (fun w g => w ||| g.warn) w).getLsbD k = (w.getLsbD k || l.any fun g => g.warn.getLsbD k) := by
  induction l generalizing w with
  | nil => simp
  | cons g l ih => rw [List.foldl_cons, ih, BitVec.getLsbD_or, List.any_cons, Bool.or_assoc]

theorem Team.orWarn_bit {t : Team} (rising : (t.grps.map (·.recno)).Pairwise (· < ·)) (recs : List Nat) (k : Nat) :
    (t.orWarn recs).getLsbD k = recs.any fun m => (t.grp? m).any (·.warn.getLsbD k) := by
  have zero : (0 : W32).getLsbD k = false := by simp
  rw [Team.orWarn, getLsbD_foldl_or, zero, Bool.false_or, Bool.eq_iff_iff]
  simp only [List.any_eq_true, List.mem_filter, List.contains_iff_mem, Option.any_eq_true]
  constructor
  · rintro ⟨g, ⟨hg, own⟩, bit⟩
    exact ⟨g.recno, own, g, Team.grp?_of_mem rising hg, bit⟩
  · rintro ⟨m, own, g, hg, bit⟩
    exact ⟨g, ⟨List.mem_of_find?_eq_some hg, (Team.grp?_recno hg).symm ▸ own⟩, bit⟩

theorem mem_poolOf {t : Team} {h k n : Nat} (hn : n ∈ t.poolOf h k) : ∃ g ∈ t.grps, g.recno = n ∧ t.eligible h g = true := by
  unfold Team.poolOf at hn
  split at hn
  · cases hn
  · obtain ⟨g, hg, rfl⟩ := List.mem_map.1 hn
    obtain ⟨mem, fits⟩ := List.mem_filter.1 hg
    simp only [Bool.and_eq_true] at fits
    exact ⟨g, mem, rfl, fits.1.1⟩

theorem Team.eligible_live {t : Team} {h : Nat} {g : Grp} (ok : t.eligible h g = true) {th : Thread} (hth : th ∈ t.threads) (own : th.recno = g.recno)
    (live : th.run ≠ .exited) : th.pc = h := by
  simp only [Team.eligible, Bool.and_eq_true] at ok
  have all := List.all_eq_true.1 ok.2 th (List.mem_filter.2 ⟨hth, by simp [own, live]⟩)
  simp only [Bool.and_eq_true, beq_iff_eq] at all
  exact all.1

theorem Team.mem_movers {t : Team} {recs : List Nat} {th : Thread} : th ∈ t.movers recs ↔ th ∈ t.threads ∧ th.recno ∈ recs ∧ th.run ≠ .exited := by
  simp [Team.movers]

/-- Where a compaction puts a mover, whose wait at h is over. -/
theorem Team.place_eq {t : Team} (ordered : Safety.ordered t = true) (none : t.msets = []) {now h : Nat} {recs : List Nat} {th : Thread}
    (moves : th ∈ t.movers recs) (stands : th.pc = h) : t.place now h recs th =
      { (if th.run = .suspended (.regrp h) then Claim.freed now th else th) with
        recno := nth 0 recs ((t.movers recs).countP (fun u => decide (keyBefore u th)) / 32)
        pos := (t.movers recs).countP (fun u => decide (keyBefore u th)) % 32 } := by
  unfold Team.place
  rw [place_eq_rank (l := t.movers recs) (Team.tids_apart ordered _) moves]
  dsimp only
  split_ifs
  · subst stands
    exact Team.arrive1_freed (.inr none) now
  · rfl

theorem Team.placed_thread? {t : Team} (ordered : Safety.ordered t = true) (none : t.msets = []) {now h : Nat} {recs : List Nat}
    (stand : ∀ th ∈ t.movers recs, th.pc = h) {th : Thread} (hth : th ∈ t.threads) : (t.placed now h recs).thread? th.tid = some
      (if th ∈ t.movers recs then { (if th.run = .suspended (.regrp h) then Claim.freed now th else th) with
        recno := nth 0 recs ((t.movers recs).countP (fun u => decide (keyBefore u th)) / 32)
        pos := (t.movers recs).countP (fun u => decide (keyBefore u th)) % 32 } else th) := by
  have tid : ∀ x, (t.place now h recs x).tid = x.tid := fun x => congrArg (·.1) (t.place_seat now h recs x)
  rw [Team.placed, Team.thread?_modThreads _ _ _ tid, Team.thread?_of_mem ordered hth, Option.map_some]
  by_cases moves : th ∈ t.movers recs
  · rw [if_pos (List.mem_filter.1 moves).2, if_pos moves, Team.place_eq ordered none moves (stand th moves)]
  · rw [if_neg moves, if_neg fun chosen => moves (List.mem_filter.2 ⟨hth, chosen⟩)]

/-- No live thread is left in a record that the movers do not fill. -/
theorem Team.placed_empty {t : Team} (ordered : Safety.ordered t = true) {now h : Nat} {recs : List Nat} (distinct : recs.Nodup)
    {th : Thread} (hth : th ∈ (t.placed now h recs).threads) (left : th.recno ∈ recs.drop (t.filled recs)) : th.run = .exited := by
  obtain ⟨u, hu, rfl⟩ := List.mem_map.1 hth
  by_cases chosen : (recs.contains u.recno && u.run != .exited) = true
  · exfalso
    have moves : u ∈ t.movers recs := List.mem_filter.2 ⟨hu, chosen⟩
    rw [if_pos chosen] at left
    have seat := t.place_seat now h recs u
    simp only [Thread.seat, Prod.mk.injEq] at seat
    rw [seat.2.1, place_eq_rank (l := t.movers recs) (Team.tids_apart ordered _) moves] at left
    have rank : (t.movers recs).countP (fun x => decide (keyBefore x u)) < (t.movers recs).length :=
      List.countP_lt_length_iff.2 ⟨u, moves, by simp [keyBefore]⟩
    have filled := t.filled_eq recs
    have room : t.filled recs < recs.length := by
      by_contra full
      rw [List.drop_eq_nil_of_le (by omega)] at left
      cases left
    have early : nth 0 recs ((t.movers recs).countP (fun x => decide (keyBefore x u)) / 32) ∈ recs.take (t.filled recs) := by
      rw [nth_eq_getD, List.getD_eq_getElem _ _ (by omega), List.mem_take_iff_getElem]
      exact ⟨_, by omega, rfl⟩
    exact List.disjoint_take_drop distinct le_rfl early left
  · rw [if_neg chosen] at left ⊢
    simpa [List.mem_of_mem_drop left] using chosen

/-- A mark that the record waits for no more. -/
def Grp.unmark (g : Grp) (now h : Nat) : Grp := { g with marks := g.marks.filter (·.head != h), waited := g.waited.put h now }

/-- Only the team's threads, its records and its pool of blocks may differ. -/
def Team.SameBelow (a b : Team) : Prop := b = { a with threads := b.threads, grps := b.grps, pool := b.pool }

theorem Team.SameBelow.trans {a b c : Team} (h : a.SameBelow b) (g : b.SameBelow c) : a.SameBelow c := by
  unfold Team.SameBelow at *
  rw [g, h]

theorem Team.wakeThreads_eq {t : Team} (none : t.msets = []) (now : Nat) (p : Thread → Bool) :
    t.wakeThreads now p = t.modThreads p fun th => t.arrive1 now th.pc th := by
  unfold Team.wakeThreads
  exact Team.settle_none (t := t.modThreads p _) none now

section
variable {a : Team} {now h n : Nat} (ordered : Safety.ordered a = true) (rising : (a.grps.map (·.recno)).Pairwise (· < ·)) (sets : a.msets = [])
  (grants : a.grants = [])
include ordered rising sets grants

/-- A pool's compaction is what the claim says of one. -/
theorem Team.compact_compacted : Claim.Compacted now a (a.compact now h (a.poolOf h n)) (a.poolOf h n) h := by
  generalize hpool : a.poolOf h n = pool
  have distinct : pool.Nodup := hpool ▸ (rising.imp Nat.ne_of_lt).sublist (a.poolOf_sublist h n)
  have held (k : Nat) (hk : k ∈ pool) : ∃ g, a.grp? k = some g := by
    obtain ⟨g, hg, rfl, -⟩ := mem_poolOf (hpool ▸ hk)
    exact ⟨g, Team.grp?_of_mem rising hg⟩
  have stand (th : Thread) (moves : th ∈ a.movers pool) : th.pc = h := by
    obtain ⟨hth, own, live⟩ := Team.mem_movers.1 moves
    obtain ⟨g, -, rec, ok⟩ := mem_poolOf (hpool ▸ own)
    exact Team.eligible_live ok hth rec.symm live
  have taken := Team.modGrps_spec (f := (·.taking now h (a.orWarn pool) (a.brought pool))) (fun _ => rfl) (distinct.sublist (List.take_sublist (a.filled pool) pool))
    (a.placed now h pool)
  generalize hb1 : (pool.take (a.filled pool)).foldl (fun b n => b.modGrp n (·.taking now h (a.orWarn pool) (a.brought pool))) (a.placed now h pool) = b1 at taken
  obtain ⟨rest1, others1, own1⟩ := taken
  have apart (k : Nat) (hk : k ∈ pool.drop (a.filled pool)) : k ∉ pool.take (a.filled pool) := fun ht => List.disjoint_take_drop distinct le_rfl ht hk
  have same1 (k : Nat) (hk : k ∉ pool.take (a.filled pool)) : b1.grp? k = a.grp? k := others1 k hk
  obtain ⟨rest2, others2, own2⟩ := Team.retireRecs_spec now (distinct.sublist (List.drop_sublist (a.filled pool) pool)) (t := b1) (by rw [rest1]; exact grants)
    (by rw [rest1]; exact fun th hth left => Team.placed_empty ordered distinct hth left)
    fun k hk => by rw [same1 k (apart k hk)]; exact held k (List.mem_of_mem_drop hk)
  have eq : a.compact now h pool = (pool.drop (a.filled pool)).foldl (fun t n => t.retireRec now n) b1 := by
    rw [Team.compact_eq, hb1]
    exact Team.settle_none (by rw [rest2, rest1]; exact sets) now
  rw [← eq] at rest2 others2 own2
  have blocks : (pool.drop (a.filled pool)).map (fun k => (b1.grp? k).elim 0 (·.h)) = (pool.drop (a.filled pool)).map fun k => (a.grp? k).elim 0 (·.h) :=
    List.map_congr_left fun k hk => by rw [same1 k (apart k hk)]
  have blocks2 : (a.compact now h pool).pool = a.pool + ((pool.drop (a.filled pool)).map fun k => (a.grp? k).elim 0 (·.h)).sum := by
    rw [rest2, ← blocks, rest1]; rfl
  have threads : (a.compact now h pool).threads = (a.placed now h pool).threads := by rw [rest2, rest1]
  have rest : a.SameBelow (a.compact now h pool) :=
    (show a.SameBelow b1 by rw [Team.SameBelow, rest1]; rfl).trans (show b1.SameBelow (a.compact now h pool) by rw [Team.SameBelow, rest2])
  have filled : ((a.threads.filter fun th => pool.contains th.recno && th.run != .exited).length + 31) / 32 = a.filled pool := (a.filled_eq pool).symm
  unfold Claim.Compacted
  dsimp only
  rw [filled, ← blocks2]
  refine ⟨rest, fun th hth => ?_, fun k away => ?_, fun k hk x hx => ?_⟩
  · rw [Team.thread?, threads]
    exact Team.placed_thread? ordered sets (now := now) stand hth
  · rw [others2 k fun hk => away (List.mem_of_mem_drop hk), same1 k fun hk => away (List.mem_of_mem_take hk)]
  · by_cases stays : k ∈ pool.take (a.filled pool)
    · have left : k ∉ pool.drop (a.filled pool) := fun hd => apart k hd stays
      refine ⟨x.taking now h (a.orWarn pool) (a.brought pool), ?_, fun gone => absurd stays gone, fun _ => ⟨rfl, ?_, fun j _ => ?_⟩⟩
      · rw [others2 k left, own1 k stays]
        exact congrArg _ hx
      · exact List.take_left
      · exact Team.orWarn_bit rising pool j
    · have leaves : k ∈ pool.drop (a.filled pool) := (List.mem_append.1 ((List.take_append_drop (a.filled pool) pool).symm ▸ hk)).resolve_left stays
      refine ⟨x.gone, ?_, fun _ => rfl, fun taken => absurd taken stays⟩
      rw [own2 k leaves, same1 k stays, hx]
      rfl

/-- The end of a mark's wait is what the claim says of one. -/
theorem Team.endMark_ends {g : Grp} (hg : a.grp? g.recno = some g) (waits : g.marks.any (·.head == h) = true) :
    Claim.RegroupEnds now a (a.endMark now g.recno h) g h := by
  have waitsAt : a.waitsAt g.recno h = true := by rw [Team.waitsAt, hg]; exact waits
  have eq : a.endMark now g.recno h = if (a.poolOf h g.recno).contains g.recno then a.compact now h (a.poolOf h g.recno) else
      (a.modGrp g.recno (·.unmark now h)).wakeThreads now
        fun th => th.recno == g.recno && th.run == .suspended (.regrp h) := by
    unfold Team.endMark
    rw [waitsAt]
    rfl
  refine ⟨fun pooled => ?_, fun apart => ?_⟩
  · rw [eq, if_pos (List.contains_iff_mem.2 pooled)]
    exact Team.compact_compacted ordered rising sets grants
  · rw [eq, if_neg fun c => apart (List.contains_iff_mem.1 c)]
    rw [Team.wakeThreads_eq (by exact sets)]
    refine ⟨rfl, fun n other => ?_, ⟨g.unmark now h, ?_, rfl⟩, fun th hth => ?_⟩
    · exact Team.grp?_modGrp_other a g.recno (·.unmark now h) (fun _ => rfl) other
    · exact (Team.grp?_modGrp_same a g.recno ((·.unmark now h)) fun _ => rfl).trans
        (congrArg _ hg)
    · rw [← Team.wakeThreads_eq (by exact sets), Team.thread?_wakeThreads (t := a.modGrp g.recno (·.unmark now h)) (Team.thread?_of_mem ordered hth)
        (.inr sets) (fun _ => .inr sets)]
      simp

end
/-- A change of one team is the whole change. -/
theorem State.modTeam_onlyTeam (s : State) (r : TeamRef) (f : Team → Team) : Claim.OnlyTeam s (s.modTeam r f) r :=
  ⟨State.modTeam_eq .., fun _ hk => State.modTeam_find_other _ _ _ hk⟩

theorem State.modTeam_team? {s : State} {r : TeamRef} {a : Team} (ha : s.team? r = some a) (f : Team → Team) :
    (s.modTeam r f).team? r = some (f a) := by rw [State.team?_modTeam_same, ha]; rfl

/-! ## SLEEP_WAKE, R104 -/

/-- A thread sleeps whose time has come. -/
def Thread.sleeps (now tid : Nat) (th : Thread) : Bool :=
  th.tid == tid && match th.run with | .suspended (.sleep w) => decide (w ≤ now) | _ => false

theorem exec_sleepWake {s : State} {r : TeamRef} {a : Team} (ha : s.team? r = some a) (tid : Nat) :
    ∃ t, exec (.sleepWake r tid) s = .next t ∧ Claim.OnlyTeam s t r ∧
      t.team? r = some (a.wakeThreads s.sched.steps (Thread.sleeps s.clock.time tid)) :=
  ⟨_, rfl, State.modTeam_onlyTeam .., State.modTeam_team? ha _⟩

theorem Thread.sleeps_own {th : Thread} {w : Nat} (asleep : th.run = .suspended (.sleep w)) (now : Nat) :
    th.sleeps now th.tid = decide (w ≤ now) := by simp [Thread.sleeps, asleep]

theorem Thread.sleeps_other {u : Thread} {tid : Nat} (apart : u.tid ≠ tid) (now : Nat) : u.sleeps now tid = false := by simp [Thread.sleeps, apart]

theorem sleepWake_free {s : State} {r : TeamRef} {a : Team} {th : Thread} {w : Nat} (ha : s.team? r = some a) (ordered : Safety.ordered a = true)
    (hth : th ∈ a.threads) (asleep : th.run = .suspended (.sleep w)) (none : a.msets = []) :
    ∃ t b, exec (.sleepWake r th.tid) s = .next t ∧ Claim.OnlyTeam s t r ∧ t.team? r = some b ∧ b = { a with threads := b.threads } ∧
      b.thread? th.tid = some (if w ≤ s.clock.time then Claim.freed s.sched.steps th else th) ∧
      ∀ u ∈ a.threads, u.tid ≠ th.tid → b.thread? u.tid = some u := by
  obtain ⟨t, run, only, team⟩ := exec_sleepWake ha th.tid
  refine ⟨t, _, run, only, team, ?_, ?_, fun u hu apart => ?_⟩
  · rw [Team.wakeThreads_eq none]; rfl
  · rw [Team.thread?_wakeThreads (Team.thread?_of_mem ordered hth) (.inr none) (fun _ => .inr none), Thread.sleeps_own asleep]
    simp only [decide_eq_true_eq]
  · exact Team.thread?_wakeThreads_of_not none (Team.thread?_of_mem ordered hu) (Thread.sleeps_other apart _) _

/-! ## SLEEP_WAKE at a meeting point, R79, R80 -/

/-- A thread that stands met in this set. -/
def MSet.met (m : MSet) (th : Thread) : Bool := th.run == .held && th.mset == m.id && th.pc == m.head

theorem Team.settle_one {t : Team} {m : MSet} (sets : t.msets = [m]) (now : Nat) :
    t.settle now = if !m.spent && t.threads.any m.met && m.members.all (t.memberDone m) then t.release now m else t := by
  rw [Team.settle, sets]; rfl

/-- A member let go. -/
def Thread.freeAt (now : Nat) (th : Thread) : Thread := { th with run := .runnable, meet := 0, age := now }

theorem Team.thread?_release (t : Team) (now : Nat) (m : MSet) (tid : Nat) :
    (t.release now m).thread? tid = (t.thread? tid).map fun th => if m.met th then th.freeAt now else th :=
  Team.thread?_modThreads t m.met (Thread.freeAt now) (fun _ => rfl) tid

/-- The team at which a sleeping thread arrives, before any set is released. -/
def Team.awoken (a : Team) (time now tid : Nat) : Team := a.modThreads (Thread.sleeps time tid) fun th => a.arrive1 now th.pc th

section
variable {a : Team} {th : Thread} {m : MSet} {w time : Nat} (ordered : Safety.ordered a = true) (hth : th ∈ a.threads)
  (asleep : th.run = .suspended (.sleep w)) (due : w ≤ time) (meets : th.meet = th.pc) (point : th.pc ≠ 0) (sets : a.msets = [m])
  (own : m.id = th.mset) (now : Nat)

include meets point sets own in
/-- At the meeting point of its set a thread is held, unless the set is spent. -/
theorem Team.arrive1_meets : a.arrive1 now th.pc th = if m.spent then th.freeAt now else { th with run := .held, age := now } := by
  have spent : a.spent th.mset = m.spent := by simp [Team.spent, sets, own]
  unfold Team.arrive1
  simp [meets, point, spent, Thread.freeAt]

include ordered hth asleep due meets point sets own in
theorem Team.awoken_thread?_own : (a.awoken time now th.tid).thread? th.tid =
    some (if m.spent then th.freeAt now else { th with run := .held, age := now }) := by
  rw [Team.awoken, Team.thread?_modThreads_of (fun u => a.arrive1_tid now u.pc u) (Team.thread?_of_mem ordered hth)
    (by rw [Thread.sleeps_own asleep]; exact decide_eq_true due), Team.arrive1_meets meets point sets own]

theorem Team.awoken_thread?_other {tid k : Nat} (apart : k ≠ tid) : (a.awoken time now tid).thread? k = a.thread? k := by
  rw [Team.awoken, Team.thread?_modThreads _ _ _ fun u => a.arrive1_tid now u.pc u]
  cases hu : a.thread? k with
  | none => rfl
  | some u => rw [Option.map_some, if_neg (by rw [Thread.sleeps_other (Team.thread?_tid hu ▸ apart)]; exact nofun)]

theorem Team.memberDone_awoken_other {tid k : Nat} (apart : k ≠ tid) : (a.awoken time now tid).memberDone m k = a.memberDone m k := by
  unfold Team.memberDone
  rw [Team.awoken_thread?_other now apart]
  rfl

theorem Team.memberDone_of_away {u : Thread} (hu : a.thread? u.tid = some u)
    (away : u.run = .exited ∨ u.run.isSuspended = true ∨ (u.run = .held ∧ (u.pc ≠ m.head ∨ u.mset = m.id))) : a.memberDone m u.tid = true := by
  unfold Team.memberDone
  rw [hu]
  cases hr : u.run with
  | exited | suspended _ => simp [hr]
  | held => simpa [hr, Run.isSuspended] using away
  | runnable => simp [hr, Run.isSuspended] at away

theorem Team.memberDone_of_runnable {u : Thread} (hu : a.thread? u.tid = some u) (runs : u.run = .runnable) (free : a.parkedThread u = false) :
    a.memberDone m u.tid = false := by
  unfold Team.memberDone
  rw [hu]
  simp [runs, free]

end

theorem sleepWake_meets {s : State} {r : TeamRef} {a : Team} {th : Thread} {w : Nat} {m : MSet} (ha : s.team? r = some a) (ordered : Safety.ordered a = true)
    (hth : th ∈ a.threads) (asleep : th.run = .suspended (.sleep w)) (due : w ≤ s.clock.time) (meets : th.meet = th.pc) (point : th.pc ≠ 0)
    (sets : a.msets = [m]) (own : m.id = th.mset) (here : m.head = th.pc) :
    let other (u : Thread) : Prop := u ∈ a.threads ∧ u.tid ≠ th.tid
    let away (u : Thread) : Prop := u.run = .exited ∨ u.run.isSuspended = true ∨ (u.run = .held ∧ (u.pc ≠ m.head ∨ u.mset = m.id))
    let met (u : Thread) : Prop := u.run = .held ∧ u.mset = m.id ∧ u.pc = m.head
    ∃ t b, exec (.sleepWake r th.tid) s = .next t ∧ Claim.OnlyTeam s t r ∧ t.team? r = some b ∧
      b = { a with threads := b.threads, msets := b.msets } ∧
      (m.spent = true → b.thread? th.tid = some (th.freeAt s.sched.steps) ∧ b.msets = [m] ∧ ∀ u, other u → b.thread? u.tid = some u) ∧
      (m.spent = false → (∃ u, other u ∧ u.tid ∈ m.members ∧ u.run = .runnable ∧ a.parkedThread u = false) →
        b.thread? th.tid = some { th with run := .held, age := s.sched.steps } ∧ b.msets = [m] ∧
        ∀ u, other u → b.thread? u.tid = some u) ∧
      (m.spent = false → (∀ u, other u → u.tid ∈ m.members → away u) →
        b.thread? th.tid = some (th.freeAt s.sched.steps) ∧ b.msets = [{ m with spent := true }] ∧
        ∀ u, other u → (met u → b.thread? u.tid = some (u.freeAt s.sched.steps)) ∧ (¬ met u → b.thread? u.tid = some u)) := by
  intro other away met
  obtain ⟨t, run, only, team⟩ := exec_sleepWake ha th.tid
  have eq : a.wakeThreads s.sched.steps (Thread.sleeps s.clock.time th.tid) = (a.awoken s.clock.time s.sched.steps th.tid).settle s.sched.steps := rfl
  rw [eq] at team
  have sets1 : (a.awoken s.clock.time s.sched.steps th.tid).msets = [m] := sets
  have met_iff (u : Thread) : m.met u = true ↔ met u := by simp [MSet.met, met, and_assoc]
  have mine := Team.awoken_thread?_own ordered hth asleep due meets point sets own s.sched.steps
  have others (u : Thread) (hu : other u) : (a.awoken s.clock.time s.sched.steps th.tid).thread? u.tid = some u :=
    (Team.awoken_thread?_other _ hu.2).trans (Team.thread?_of_mem ordered hu.1)
  refine ⟨t, _, run, only, team, Team.settle_rest _ _, fun spent => ?_, fun open_ ⟨u, hu, member, runs, free⟩ => ?_, fun open_ gone => ?_⟩
  · rw [Team.settle_one sets1, spent]
    rw [spent] at mine
    exact ⟨mine, sets1, others⟩
  · have waits : m.members.all ((a.awoken s.clock.time s.sched.steps th.tid).memberDone m) = false :=
      List.all_eq_false.2 ⟨u.tid, member, by
        rw [Team.memberDone_awoken_other _ hu.2, Team.memberDone_of_runnable (Team.thread?_of_mem ordered hu.1) runs free]; exact nofun⟩
    rw [Team.settle_one sets1, waits, Bool.and_false]
    rw [open_] at mine
    exact ⟨mine, sets1, others⟩
  · rw [open_] at mine
    have held : (a.awoken s.clock.time s.sched.steps th.tid).threads.any m.met = true :=
      List.any_eq_true.2 ⟨_, List.mem_of_find?_eq_some mine, by simp [MSet.met, own, here]⟩
    have done : m.members.all ((a.awoken s.clock.time s.sched.steps th.tid).memberDone m) = true := List.all_eq_true.2 fun k member => by
      by_cases self : k = th.tid
      · subst self
        exact Team.memberDone_of_away (u := { th with run := .held, age := s.sched.steps }) mine (.inr (.inr ⟨rfl, .inr own.symm⟩))
      · rw [Team.memberDone_awoken_other _ self]
        cases hu : a.thread? k with
        | none => simp [Team.memberDone, hu]
        | some u =>
          have tid := Team.thread?_tid hu
          rw [← tid] at hu member self ⊢
          exact Team.memberDone_of_away hu (gone u ⟨List.mem_of_find?_eq_some hu, self⟩ member)
    rw [Team.settle_one sets1, held, done, open_]
    refine ⟨?_, ?_, fun u hu => ⟨fun stands => ?_, fun stays => ?_⟩⟩
    · refine (Team.thread?_release ..).trans ?_
      rw [mine, Option.map_some]
      simp [MSet.met, own, here, Thread.freeAt]
    · exact (congrArg (List.map _) sets1).trans (by simp)
    · refine (Team.thread?_release ..).trans ?_
      rw [others u hu, Option.map_some, if_pos ((met_iff u).2 stands)]
    · refine (Team.thread?_release ..).trans ?_
      rw [others u hu, Option.map_some, if_neg (mt (met_iff u).1 stays)]

/-! ## The end of a mark's wait leaves no matrix command and no mark behind -/

/-- The end of a wait keeps the records, but for where they stand. -/
theorem Team.endMark_sameSeats (t : Team) (now n h : Nat) : ∃ u : Team, u.grps = t.grps ∧ u.SameSeats (t.endMark now n h) := by
  unfold Team.endMark
  dsimp only
  split_ifs
  · exact ⟨t, rfl, .refl t⟩
  · exact ⟨t.placed now h (t.poolOf h n), rfl, Team.compact_sameSeats ..⟩
  · exact ⟨t, rfl, (Team.SameSeats.modGrp t n (·.unmark now h) fun _ => rfl).trans (.wakeThreads _ _ _)⟩

theorem Team.endMark_mq {t : Team} (none : ∀ g ∈ t.grps, g.mq = []) (now n h : Nat) : ∀ g ∈ (t.endMark now n h).grps, g.mq = [] := by
  obtain ⟨u, grps, same⟩ := Team.endMark_sameSeats t now n h
  intro g hg
  obtain ⟨y, hy, mq⟩ := same.mq hg
  rw [mq, none y (grps ▸ hy)]

/-! ## REGRP_WAIT_TIMEOUT, R85 -/

theorem regrpWaitTimeout {s : State} {r : TeamRef} {a : Team} {g : Grp} {m : Mark} (regroups : Claim.regroups s r a) (hg : a.grp? g.recno = some g)
    (mark : g.marks = [m]) :
    ∃ t b, exec (.regrpWaitTimeout r g.recno) s = .next t ∧ Claim.OnlyTeam s t r ∧ t.team? r = some b ∧
      (2100 * (s.clock.time - m.since) < 512000 → b = a) ∧
      (512000 ≤ 2100 * (s.clock.time - m.since) → Claim.RegroupEnds s.sched.steps a b g m.head) := by
  obtain ⟨ha, running, sets, grants, mq, ordered, rising⟩ := regroups
  obtain ⟨F, hF⟩ : ∃ F : Team → Team, exec (.regrpWaitTimeout r g.recno) s = .next ((s.modTeam r F).settleGangs r) ∧
      F a = if 512000 ≤ 2100 * (s.clock.time - m.since) then a.endMark s.sched.steps g.recno m.head else a := by
    refine ⟨_, rfl, ?_⟩
    dsimp only
    rw [running, hg]
    simp only [Option.isSome_none, Bool.false_eq_true, if_false, Option.elim_some, mark, List.filter_cons, List.filter_nil, decide_eq_true_eq]
    split_ifs <;> rfl
  obtain ⟨run, ends⟩ := hF
  have quiet : ∀ x ∈ (F a).grps, x.mq = [] := by
    rw [ends]
    split_ifs
    · exact Team.endMark_mq mq _ _ _
    · exact mq
  have team := State.modTeam_team? ha F
  rw [State.settleGangs_none team quiet] at run
  refine ⟨_, _, run, State.modTeam_onlyTeam .., team, fun early => ?_, fun late => ?_⟩
  · rw [ends, if_neg (by omega)]
  · rw [ends, if_pos late]
    exact Team.endMark_ends ordered rising sets grants hg (by simp [mark])

/-! ## The waits that end by arrival, R85 -/

theorem foldl_of_fixed {α β : Type} {f : β → α → β} {b : β} {l : List α} (fixed : ∀ x ∈ l, f b x = b) : l.foldl f b = b := by
  induction l with
  | nil => rfl
  | cons x l ih => rw [List.foldl_cons, fixed x List.mem_cons_self, ih fun y hy => fixed y (List.mem_cons_of_mem _ hy)]

/-- The end of one mark's wait, if every thread of the role has arrived. -/
def Team.markStep (now : Nat) (t : Team) (x : Grp × Mark) : Team := if t.allArrived x.2.head x.1.role then t.endMark now x.1.recno x.2.head else t

/-- The marks of a team with their records. -/
def Team.marked (t : Team) : List (Grp × Mark) := t.grps.flatMap fun g => g.marks.map fun m => (g, m)

theorem Team.settleMarks_eq (t : Team) (now : Nat) : t.settleMarks now = t.marked.foldl (Team.markStep now) t := by
  unfold Team.settleMarks Team.marked
  rw [List.foldl_flatMap]
  refine List.foldl_ext _ _ _ fun b g _ => ?_
  rw [List.foldl_map]
  rfl

theorem Team.mem_marked {t : Team} {x : Grp × Mark} : x ∈ t.marked ↔ x.1 ∈ t.grps ∧ x.2 ∈ x.1.marks := by
  obtain ⟨g, m⟩ := x
  simp only [Team.marked, List.mem_flatMap, List.mem_map, Prod.mk.injEq]
  constructor
  · rintro ⟨_, hg, _, hm, rfl, rfl⟩
    exact ⟨hg, hm⟩
  · rintro ⟨hg, hm⟩
    exact ⟨g, hg, m, hm, rfl, rfl⟩

theorem Team.settleMarks_of_waiting {t : Team} (waiting : ∀ g ∈ t.grps, ∀ m ∈ g.marks, t.allArrived m.head g.role = false) (now : Nat) :
    t.settleMarks now = t := by
  rw [Team.settleMarks_eq]
  refine foldl_of_fixed fun x hx => ?_
  obtain ⟨hg, hm⟩ := Team.mem_marked.1 hx
  rw [Team.markStep, waiting x.1 hg x.2 hm]
  rfl

/-- A team of whose records none is marked. -/
def Team.Unmarked (t : Team) : Prop := ∀ g ∈ t.grps, g.marks = []

theorem Team.Unmarked.settleMarks {t : Team} (h : t.Unmarked) (now : Nat) : t.settleMarks now = t :=
  Team.settleMarks_of_waiting (fun g hg m hm => by rw [h g hg] at hm; cases hm) now

theorem Team.Unmarked.markStep {t : Team} (h : t.Unmarked) (now : Nat) (x : Grp × Mark) : Team.markStep now t x = t := by
  have waits : t.waitsAt x.1.recno x.2.head = false := by
    unfold Team.waitsAt
    cases hg : t.grp? x.1.recno with
    | none => rfl
    | some g => simp [h g (List.mem_of_find?_eq_some hg)]
  unfold Team.markStep Team.endMark
  rw [waits]
  exact ite_self t

/-! ### The threads of a role that have arrived -/

theorem Team.inClause_eq_false {a : Team} {th : Thread} :
    a.inClause th = false ↔ ∀ g, a.grp? th.recno = some g → ∀ c, g.clause = some c → th.tid ∉ c.issue := by
  simp [Team.inClause, Option.any_eq_false]

theorem Claim.atPoint_iff {a : Team} {h : Nat} {th : Thread} : Claim.atPoint a h th ↔
    (th.pc == h && (th.run == .suspended (.regrp h) || (th.run == .runnable && !a.inClause th))) = true := by
  simp only [Claim.atPoint, Bool.and_eq_true, Bool.or_eq_true, beq_iff_eq, Bool.not_eq_true', Team.inClause_eq_false]

theorem Team.allArrived_eq_false {a : Team} {h role : Nat} {th : Thread} (hth : th ∈ a.threads) (live : th.run ≠ .exited)
    (away : ¬ Claim.atPoint a h th) (member : ∃ x ∈ a.grps, x.recno = th.recno ∧ x.role = role) : a.allArrived h role = false := by
  obtain ⟨x, hx, rec, same⟩ := member
  have listed : a.grps.any (fun g => g.recno == th.recno && g.role == role) = true := List.any_eq_true.2 ⟨x, hx, by simp [rec, same]⟩
  refine List.all_eq_false.2 ⟨th, hth, ?_⟩
  rw [Claim.atPoint_iff, Bool.not_eq_true] at away
  rw [listed, away]
  simp [live]

theorem Team.allArrived_eq_true {a : Team} {h : Nat} (here : ∀ th ∈ a.threads, th.run ≠ .exited → Claim.atPoint a h th) (role : Nat) :
    a.allArrived h role = true := by
  refine List.all_eq_true.2 fun th hth => ?_
  by_cases live : th.run = .exited
  · simp [live]
  · rw [Claim.atPoint_iff.1 (here th hth live), Bool.or_true]

/-! ### The records of a pool -/

theorem Team.poolOf_eq {a : Team} {h : Nat} {g x : Grp} (rising : (a.grps.map (·.recno)).Pairwise (· < ·)) (hg : a.grp? g.recno = some g)
    (hx : x ∈ a.grps) (pooled : x.recno ∈ a.poolOf h g.recno) : a.poolOf h x.recno = a.poolOf h g.recno := by
  have own := Team.grp?_of_mem rising hx
  have same : x.role = g.role ∧ x.h = g.h := by
    unfold Team.poolOf at pooled
    rw [hg] at pooled
    obtain ⟨y, hy, rec⟩ := List.mem_map.1 pooled
    obtain ⟨hy, fits⟩ := List.mem_filter.1 hy
    have : y = x := by
      have := Team.grp?_of_mem rising hy
      rw [rec, own] at this
      exact (Option.some.inj this).symm
    simp only [this, Bool.and_eq_true, beq_iff_eq] at fits
    exact ⟨fits.1.2, fits.2⟩
  unfold Team.poolOf
  rw [own, hg]
  dsimp only
  rw [same.1, same.2]

/-! ### What the end of the first wait leaves -/

/-- The end of a wait keeps the numbers of the records. -/
theorem Team.endMark_recnos (t : Team) (now n h : Nat) : (t.endMark now n h).grps.map (·.recno) = t.grps.map (·.recno) := by
  obtain ⟨u, grps, same⟩ := Team.endMark_sameSeats t now n h
  have numbers := congrArg (List.map Prod.fst) same.grps
  rw [List.map_map, List.map_map, grps] at numbers
  exact numbers

section
variable {s : State} {r : TeamRef} {a : Team} {g : Grp} {h : Nat} (regroups : Claim.regroups s r a) (hg : a.grp? g.recno = some g)
  (marks : ∀ x ∈ a.grps, x.role = g.role ∧ (∀ m ∈ x.marks, m.head = h ∧
    (x.recno = g.recno ∨ (x.recno ∈ a.poolOf h g.recno ∧ g.recno ∈ a.poolOf h g.recno))))
include regroups hg marks

/-- The end of any marked record's wait is the end of the group's. -/
theorem Team.endMark_regroupEnds {x : Grp} {m : Mark} (hx : x ∈ a.grps) (hm : m ∈ x.marks) (now : Nat) :
    Claim.RegroupEnds now a (a.endMark now x.recno h) g h := by
  obtain ⟨-, -, sets, grants, -, ordered, rising⟩ := regroups
  have own := Team.grp?_of_mem rising hx
  obtain ⟨head, place⟩ := (marks x hx).2 m hm
  have ends := Team.endMark_ends (now := now) (h := h) ordered rising sets grants own (List.any_eq_true.2 ⟨m, hm, by simp [head]⟩)
  rcases place with same | ⟨pooled, both⟩
  · have : x = g := by
      rw [same, hg] at own
      exact (Option.some.inj own).symm
    rw [this] at ends ⊢
    exact ends
  · have pool := Team.poolOf_eq rising hg hx pooled
    have compacted := ends.1 (by rw [pool]; exact pooled)
    rw [pool] at compacted
    exact ⟨fun _ => compacted, fun apart => absurd both apart⟩

/-- Where a wait has ended no record is marked. -/
theorem Team.unmarked_of_regroupEnds {b : Team} {now : Nat} (ends : Claim.RegroupEnds now a b g h)
    (recnos : b.grps.map (·.recno) = a.grps.map (·.recno)) : b.Unmarked := by
  obtain ⟨-, -, -, -, -, -, rising⟩ := regroups
  have cleared (x : Grp) (hx : x ∈ a.grps) : x.marks.filter (·.head != h) = [] :=
    List.filter_eq_nil_iff.2 fun m hm => by simp [((marks x hx).2 m hm).1]
  have kept (x : Grp) (hx : x ∈ a.grps) (other : x.recno ≠ g.recno) (apart : x.recno ∉ a.poolOf h g.recno ∨ g.recno ∉ a.poolOf h g.recno) :
      x.marks = [] := List.eq_nil_iff_forall_not_mem.2 fun m hm => by
    rcases ((marks x hx).2 m hm).2 with same | ⟨one, two⟩
    · exact other same
    · exact apart.elim (· one) (· two)
  intro y hy
  have reads := Team.grp?_of_mem (recnos ▸ rising) hy
  by_cases pooled : g.recno ∈ a.poolOf h g.recno
  · obtain ⟨-, -, others, own⟩ := ends.1 pooled
    by_cases inside : y.recno ∈ a.poolOf h g.recno
    · obtain ⟨x, hx, rec, -⟩ := mem_poolOf inside
      obtain ⟨z, hz, left, stays⟩ := own y.recno inside x (rec ▸ Team.grp?_of_mem rising hx)
      rw [reads, Option.some.injEq] at hz
      subst hz
      by_cases taken : y.recno ∈ (a.poolOf h g.recno).take (((a.threads.filter fun th =>
          (a.poolOf h g.recno).contains th.recno && th.run != .exited).length + 31) / 32)
      · rw [(stays taken).1]; exact cleared x hx
      · rw [left taken]
    · rw [others y.recno inside] at reads
      exact kept y (List.mem_of_find?_eq_some reads) (fun e => inside (e ▸ pooled)) (.inl inside)
  · obtain ⟨-, others, ⟨z, hz, eq⟩, -⟩ := ends.2 pooled
    by_cases same : y.recno = g.recno
    · rw [same, hz, Option.some.injEq] at reads
      subst reads
      rw [eq]
      exact cleared g (List.mem_of_find?_eq_some hg)
    · rw [others y.recno same] at reads
      exact kept y (List.mem_of_find?_eq_some reads) same (.inr pooled)

/-- All have arrived: the marks' waits end, once. -/
theorem Team.settleMarks_of_arrived (some_ : g.marks ≠ []) (here : ∀ th ∈ a.threads, th.run ≠ .exited → Claim.atPoint a h th) (now : Nat) :
    Claim.RegroupEnds now a (a.settleMarks now) g h ∧ (a.settleMarks now).Unmarked := by
  obtain ⟨m, hm⟩ := List.exists_mem_of_ne_nil _ some_
  have listed : (g, m) ∈ a.marked := Team.mem_marked.2 ⟨List.mem_of_find?_eq_some hg, hm⟩
  rw [Team.settleMarks_eq]
  generalize hl : a.marked = l at listed
  cases l with
  | nil => cases listed
  | cons x l =>
    obtain ⟨hx, hxm⟩ := Team.mem_marked.1 (hl ▸ List.mem_cons_self : x ∈ a.marked)
    have head : x.2.head = h := ((marks x.1 hx).2 x.2 hxm).1
    have first : Team.markStep now a x = a.endMark now x.1.recno h := by
      rw [Team.markStep, head, Team.allArrived_eq_true here, if_pos rfl]
    have ends := Team.endMark_regroupEnds regroups hg marks hx hxm now
    have clear := Team.unmarked_of_regroupEnds regroups hg marks ends (Team.endMark_recnos a now x.1.recno h)
    rw [List.foldl_cons, first, foldl_of_fixed fun y _ => clear.markStep now y]
    exact ⟨ends, clear⟩

end

/-! ### The teams of the state, one after the other -/

theorem Tab.mem_put {α : Type} {m : Tab α} {k : Nat} {v : α} {x : Nat × α} (h : x ∈ m.put k v) : x = (k, v) ∨ x ∈ m := by
  induction m with
  | nil => exact .inl (List.mem_singleton.1 h)
  | cons y r ih =>
    obtain ⟨j, u⟩ := y
    unfold Tab.put at h
    split_ifs at h with before same
    · rcases List.mem_cons.1 h with rfl | h
      · exact .inl rfl
      · exact .inr h
    · rcases List.mem_cons.1 h with rfl | h
      · exact .inl rfl
      · exact .inr (List.mem_cons_of_mem _ h)
    · rcases List.mem_cons.1 h with rfl | h
      · exact .inr List.mem_cons_self
      · exact (ih h).imp_right (List.mem_cons_of_mem _)

theorem Tab.mem_of_find {α : Type} {m : Tab α} {k : Nat} {v : α} (h : m.find k = some v) : (k, v) ∈ m := by
  induction m with
  | nil => cases h
  | cons y r ih =>
    obtain ⟨j, u⟩ := y
    unfold Tab.find at h
    split_ifs at h with same
    · cases h
      rw [same]
      exact List.mem_cons_self
    · exact List.mem_cons_of_mem _ (ih h)

/-- No record of any team holds a matrix command. -/
def State.Quiet (s : State) : Prop := ∀ x ∈ s.teams, ∀ y ∈ x.2.grps, y.mq = []

theorem Team.settleMarks_mq {t : Team} (none : ∀ g ∈ t.grps, g.mq = []) (now : Nat) : ∀ g ∈ (t.settleMarks now).grps, g.mq = [] := by
  rw [Team.settleMarks_eq]
  generalize t.marked = l
  induction l generalizing t with
  | nil => exact none
  | cons x l ih =>
    refine ih ?_
    unfold Team.markStep
    split_ifs
    · exact Team.endMark_mq none _ _ _
    · exact none

theorem State.Quiet.modTeam {s : State} (quiet : s.Quiet) (r : TeamRef) {f : Team → Team} (hf : ∀ t, (∀ g ∈ t.grps, g.mq = []) → ∀ g ∈ (f t).grps, g.mq = []) :
    (s.modTeam r f).Quiet := by
  unfold State.modTeam
  cases ht : s.team? r with
  | none => exact quiet
  | some t =>
    intro x hx
    rcases Tab.mem_put hx with rfl | hx
    · exact hf t (quiet _ (Tab.mem_of_find ht))
    · exact quiet x hx

theorem State.Quiet.settleGangs {s : State} (quiet : s.Quiet) (r : TeamRef) : s.settleGangs r = s := by
  cases ht : s.team? r with
  | none => simp [State.settleGangs, ht]
  | some t => exact State.settleGangs_none ht (quiet _ (Tab.mem_of_find ht))

/-- The waits of one listed team that end by arrival. -/
def State.settleTeam (s : State) (t : Team) : State :=
  if t.ending.isSome || t.grps.all (·.marks.isEmpty) then s else (s.modTeam t.ref (·.settleMarks s.sched.steps)).settleGangs t.ref

theorem State.settleRegroups_eq (s : State) : s.settleRegroups = s.teamList.foldl State.settleTeam s := rfl

theorem State.Quiet.settleTeam {s : State} (quiet : s.Quiet) (t : Team) : (s.settleTeam t).Quiet ∧ (s.settleTeam t).sched = s.sched := by
  unfold State.settleTeam
  split_ifs
  · exact ⟨quiet, rfl⟩
  · have after := quiet.modTeam t.ref (f := (·.settleMarks s.sched.steps)) fun t none => Team.settleMarks_mq none _
    rw [after.settleGangs]
    exact ⟨after, State.modTeam_sched ..⟩

/-- A listed team whose waits are looked at. -/
theorem State.settleTeam_team? {s : State} (quiet : s.Quiet) (t : Team) {r : TeamRef} {c : Team} (hc : s.team? r = some c) :
    (s.settleTeam t).team? r = some c ∨ (s.settleTeam t).team? r = some (c.settleMarks s.sched.steps) := by
  unfold State.settleTeam
  split_ifs
  · exact .inl hc
  · have after := quiet.modTeam t.ref (f := (·.settleMarks s.sched.steps)) fun t none => Team.settleMarks_mq none _
    rw [after.settleGangs]
    by_cases same : slotKey r = slotKey t.ref
    · right
      have here : s.team? t.ref = some c := by rw [State.team?, ← same]; exact hc
      have := State.modTeam_team? here (·.settleMarks s.sched.steps)
      rw [State.team?, same]
      exact this
    · exact .inl ((State.modTeam_find_other s t.ref _ same).trans hc)

theorem State.settleTeam_own {s : State} (quiet : s.Quiet) {c a : Team} (hc : s.team? a.ref = some c) (running : a.ending = none)
    (marked : a.grps.all (·.marks.isEmpty) = false) : (s.settleTeam a).team? a.ref = some (c.settleMarks s.sched.steps) := by
  have after := quiet.modTeam a.ref (f := (·.settleMarks s.sched.steps)) fun t none => Team.settleMarks_mq none _
  unfold State.settleTeam
  rw [running, marked, if_neg (by simp), after.settleGangs]
  exact State.modTeam_team? hc _

/-- Every team stays in its slot. -/
theorem State.settleTeams_stay (l : List Team) {s : State} (quiet : s.Quiet) {r : TeamRef} {c : Team} (hc : s.team? r = some c) :
    ∃ b, (l.foldl State.settleTeam s).team? r = some b := by
  induction l generalizing s c with
  | nil => exact ⟨c, hc⟩
  | cons t l ih => exact (State.settleTeam_team? quiet t hc).elim (ih (quiet.settleTeam t).1) (ih (quiet.settleTeam t).1)

/-- The team has settled its marks once all listed teams have. -/
theorem State.settleTeams_team? {a c : Team} {now : Nat} (running : a.ending = none) (marked : a.grps.all (·.marks.isEmpty) = false)
    (first : a.settleMarks now = c) (again : c.settleMarks now = c) (l : List Team) {s : State} (quiet : s.Quiet) (steps : s.sched.steps = now)
    (hs : (s.team? a.ref = some a ∧ a ∈ l) ∨ s.team? a.ref = some c) : (l.foldl State.settleTeam s).team? a.ref = some c := by
  induction l generalizing s with
  | nil => exact hs.elim (fun h => nomatch h.2) id
  | cons t l ih =>
    obtain ⟨quiet1, sched1⟩ := quiet.settleTeam t
    refine ih quiet1 (sched1 ▸ steps) ?_
    rcases hs with ⟨ha, listed⟩ | hc
    · rcases List.mem_cons.1 listed with rfl | later
      · right
        rw [State.settleTeam_own quiet ha running marked, steps, first]
      · rcases State.settleTeam_team? quiet t ha with stays | settled
        · exact .inl ⟨stays, later⟩
        · right
          rw [settled, steps, first]
    · right
      rcases State.settleTeam_team? quiet t hc with stays | settled
      · exact stays
      · rw [settled, steps, again]

theorem settleRegroups_ends {s : State} {r : TeamRef} {a : Team} {g : Grp} {h : Nat} (regroups : Claim.regroups s r a) (slot : a.ref = r) (quiet : s.Quiet)
    (hg : a.grp? g.recno = some g) (some_ : g.marks ≠ []) (marks : ∀ x ∈ a.grps, x.role = g.role ∧ (∀ m ∈ x.marks, m.head = h ∧
      (x.recno = g.recno ∨ (x.recno ∈ a.poolOf h g.recno ∧ g.recno ∈ a.poolOf h g.recno)))) :
    ∃ b, s.settleRegroups.team? r = some b ∧
      ((∃ th ∈ a.threads, th.run ≠ .exited ∧ ¬ Claim.atPoint a h th ∧ ∃ x ∈ a.grps, x.recno = th.recno) → b = a) ∧
      ((∀ th ∈ a.threads, th.run ≠ .exited → Claim.atPoint a h th) → Claim.RegroupEnds s.sched.steps a b g h) := by
  subst slot
  have ⟨ha, running, _, _, _, _, _⟩ := regroups
  have marked : a.grps.all (·.marks.isEmpty) = false := List.all_eq_false.2 ⟨g, List.mem_of_find?_eq_some hg, by simpa using some_⟩
  have listed : a ∈ s.teamList := List.mem_map.2 ⟨_, Tab.mem_of_find ha, rfl⟩
  have settles {c : Team} (first : a.settleMarks s.sched.steps = c) (again : c.settleMarks s.sched.steps = c) : s.settleRegroups.team? a.ref = some c :=
    State.settleTeams_team? running marked first again s.teamList quiet rfl (.inl ⟨ha, listed⟩)
  by_cases all : ∀ th ∈ a.threads, th.run ≠ .exited → Claim.atPoint a h th
  · obtain ⟨ends, clear⟩ := Team.settleMarks_of_arrived regroups hg marks some_ all s.sched.steps
    exact ⟨_, settles rfl (clear.settleMarks _), fun ⟨th, hth, live, away, _⟩ => absurd (all th hth live) away, fun _ => ends⟩
  · by_cases waits : ∃ th ∈ a.threads, th.run ≠ .exited ∧ ¬ Claim.atPoint a h th ∧ ∃ x ∈ a.grps, x.recno = th.recno
    · obtain ⟨th, hth, live, away, x, hx, rec⟩ := waits
      have waiting : a.settleMarks s.sched.steps = a := Team.settleMarks_of_waiting (fun y hy m hm => by
        rw [((marks y hy).2 m hm).1, (marks y hy).1]
        exact Team.allArrived_eq_false hth live away ⟨x, hx, rec, (marks x hx).1⟩) _
      exact ⟨a, settles waiting waiting, fun _ => rfl, fun h => absurd h all⟩
    · obtain ⟨b, hb⟩ := State.settleTeams_stay s.teamList quiet ha
      exact ⟨b, hb, fun h => absurd h waits, fun h => absurd h all⟩

/-- Settles O18: a compaction written out seat by seat, and of the marks that all end at once the first ends every other. -/
theorem sleepAndRegroupWaitsEnd : Obligations.SleepAndRegroupWaitsEnd :=
  ⟨fun _ _ _ _ _ ha ordered hth asleep none => sleepWake_free ha ordered hth asleep none,
    fun _ _ _ _ _ _ ha ordered hth asleep due meets point sets own here => sleepWake_meets ha ordered hth asleep due meets point sets own here,
    fun _ _ _ _ _ regroups hg mark => regrpWaitTimeout regroups hg mark,
    fun _ _ _ _ _ regroups slot quiet hg some_ marks => settleRegroups_ends regroups slot quiet hg some_ marks⟩

end Sys2Proof.Machine
end

section
/-! The front end chooses, dispatches and completes (R298 to R306, R331, R382). -/
namespace Sys2Proof.Machine

/-! ## Room, and the slots that match, R106, R296, R298 -/

theorem State.coreRoom_iff (s : State) (core b : Nat) (c : Cand) : s.coreRoom core b c = true ↔ Claim.room s core b c := by
  unfold State.coreRoom Claim.room
  dsimp only
  rw [Bool.and_eq_true, decide_eq_true_iff, List.all_eq_true]
  simp only [List.mem_range, decide_eq_true_iff, List.countP_eq_length_filter, and_assoc]
  rfl

theorem State.room_iff (s : State) (core : Nat) (c : Cand) :
    ((List.range 4).any fun b => s.coreRoom core b c) = true ↔ ∃ b < 4, Claim.room s core b c := by
  simp only [List.any_eq_true, List.mem_range, State.coreRoom_iff]

theorem bindAdmits_iff (x : W64) (item : Item) (feedq : Nat) : bindAdmits x item feedq = true ↔
    x.toNat / 2 ^ 50 % 4 = 0 ∨ (x.toNat / 2 ^ 50 % 4 = 1 ∧ item = .launch (x.toNat % 2 ^ 32)) ∨
      (x.toNat / 2 ^ 50 % 4 = 2 ∧ item = .den (x.toNat % 2 ^ 32)) ∨
      (x.toNat / 2 ^ 50 % 4 = 3 ∧ (∃ id, item = .launch id) ∧ feedq = x.toNat % 2 ^ 32 + 1) := by
  have kind : bits x.toNat 51 50 = x.toNat / 2 ^ 50 % 4 := bits_eq ..
  have small : x.toNat / 2 ^ 50 % 4 < 4 := Nat.mod_lt _ (by decide)
  unfold bindAdmits
  rw [kind]
  generalize x.toNat / 2 ^ 50 % 4 = k at small
  interval_cases k <;> cases item <;> simp

theorem State.freeBurrow_iff (s : State) (c : Cand) : s.freeBurrow c = true ↔
    (∀ id, c.item = .launch id → ∃ l, s.launch? id = some l ∧ ((s.teams.map (·.2)).countP fun a => a.item == c.item) < l.burrows.length) ∧
      ∀ n, c.item = .den n → ∃ d, s.den? n = some d ∧ ((s.teams.map (·.2)).countP fun a => a.item == c.item) < d.burrows.length := by
  have count : (s.teamsOf c.item).length = (s.teams.map (·.2)).countP fun a => a.item == c.item := (List.countP_eq_length_filter ..).symm
  unfold State.freeBurrow
  rw [count]
  cases c.item <;> simp [Option.any_eq_true]

theorem State.slotMatches_iff (s : State) (r : TeamRef) (c : Cand) : s.slotMatches r c = true ↔ Claim.fits s r c := by
  have cls : bits (s.front.binds.get 0 (slotKey r)).toNat 62 61 = (s.front.binds.get 0 (slotKey r)).toNat / 2 ^ 61 % 4 := bits_eq ..
  have part : bits (s.front.binds.get 0 (slotKey r)).toNat 60 56 = (s.front.binds.get 0 (slotKey r)).toNat / 2 ^ 56 % 32 := bits_eq ..
  unfold State.slotMatches Claim.fits
  dsimp only
  rw [cls, part]
  simp only [Bool.and_eq_true, Bool.or_eq_true, beq_iff_eq, Option.isNone_iff_eq_none, State.room_iff, bindAdmits_iff, State.freeBurrow_iff,
    BitVec.getLsbD, and_assoc]
  tauto

/-! ## The items, R298, R299 -/

theorem State.mem_cands (s : State) (c : Cand) : c ∈ s.cands ↔
    (∃ x ∈ s.coll.live, x.reduceDue = true ∧ c = ⟨.reduce x.part x.bind.cid, .reduce, 1, x.part, 0, 0, 0, 0, .reduce⟩) ∨
    (∃ l ∈ s.front.launches, l.hazards = [] ∧ (s.part l.part).flr = false ∧ c.item = .launch l.id ∧ c.scls = l.lrec.scls ∧ c.part = l.part ∧
      c.dcls = l.lrec.dcls ∧ c.feedq = l.lrec.feedq ∧ c.deadline = l.lrec.deadline ∧ c.seq = l.seq ∧
      ((c.from_ = .fresh ∧ l.next < l.total ∧ c.hdr = l.hdr) ∨ ∃ w ∈ l.restarts, c.from_ = .restart w ∧ c.hdr = w.hdr)) ∨
    (∃ d ∈ s.front.dens, d.hazards = [] ∧ (s.part d.part).flr = false ∧ c.item = .den d.num ∧ c.scls = d.lrec.scls ∧ c.part = d.part ∧
      c.dcls = d.lrec.dcls ∧ c.feedq = d.lrec.feedq ∧
      ((∃ x ∈ d.ready, c.from_ = .trigger x ∧ c.hdr = d.hdr ∧ c.deadline = x.deadline ∧ c.seq = x.seq) ∨
        ∃ w ∈ d.restarts, c.from_ = .restart w ∧ c.hdr = w.hdr ∧ c.deadline = w.deadline ∧ c.seq = w.seq)) := by
  have open_ (hz : List Item) (flr : Bool) (xs : List Cand) : c ∈ (if !hz.isEmpty || flr then [] else xs) ↔ hz = [] ∧ flr = false ∧ c ∈ xs := by
    cases hz <;> cases flr <;> simp
  unfold State.cands
  simp only [List.mem_append, List.mem_map, List.mem_filter, List.mem_flatMap, open_, and_assoc, or_assoc]
  refine or_congr ⟨?_, ?_⟩ (or_congr (exists_congr fun l => and_congr_right fun _ => and_congr_right fun _ => and_congr_right fun _ => ?_)
    (exists_congr fun d => and_congr_right fun _ => and_congr_right fun _ => and_congr_right fun _ => ?_))
  · rintro ⟨x, hx, due, rfl⟩
    exact ⟨x, hx, due, rfl⟩
  · rintro ⟨x, hx, due, rfl⟩
    exact ⟨x, hx, due, rfl⟩
  · obtain ⟨item, from_, scls, part, dcls, feedq, deadline, seq, hdr⟩ := c
    constructor
    · rintro (⟨w, hw, eq⟩ | fresh)
      · cases eq
        exact ⟨rfl, rfl, rfl, rfl, rfl, rfl, rfl, .inr ⟨w, hw, rfl, rfl⟩⟩
      · split_ifs at fresh with more
        · cases List.mem_singleton.1 fresh
          exact ⟨rfl, rfl, rfl, rfl, rfl, rfl, rfl, .inl ⟨rfl, more, rfl⟩⟩
        · cases fresh
    · rintro ⟨rfl, rfl, rfl, rfl, rfl, rfl, rfl, ⟨rfl, more, rfl⟩ | ⟨w, hw, rfl, rfl⟩⟩
      · rw [if_pos more]
        exact .inr (List.mem_singleton.2 rfl)
      · exact .inl ⟨w, hw, rfl⟩
  · obtain ⟨item, from_, scls, part, dcls, feedq, deadline, seq, hdr⟩ := c
    constructor
    · rintro (⟨w, hw, eq⟩ | ⟨x, hx, eq⟩)
      · cases eq
        exact ⟨rfl, rfl, rfl, rfl, rfl, .inr ⟨w, hw, rfl, rfl, rfl, rfl⟩⟩
      · cases eq
        exact ⟨rfl, rfl, rfl, rfl, rfl, .inl ⟨x, hx, rfl, rfl, rfl, rfl⟩⟩
    · rintro ⟨rfl, rfl, rfl, rfl, rfl, ⟨x, hx, rfl, rfl, rfl, rfl⟩ | ⟨w, hw, rfl, rfl, rfl, rfl⟩⟩
      · exact .inr ⟨x, hx, rfl⟩
      · exact .inl ⟨w, hw, rfl⟩

/-! ## The choice, R299 -/

theorem precedes_iff (d1 d2 : Nat) :
    precedes d1 d2 = true ↔ 1 ≤ ((d2 : Int) - d1) % (2 : Int) ^ 48 ∧ ((d2 : Int) - d1) % (2 : Int) ^ 48 < (2 : Int) ^ 47 := by
  unfold precedes
  dsimp only
  rw [decide_eq_true_iff]
  omega

theorem precedes_asymm {d1 d2 : Nat} (h : precedes d1 d2 = true) : precedes d2 d1 = false := by
  rw [← Bool.not_eq_true, precedes_iff]
  rw [precedes_iff] at h
  omega

theorem Cand.before_of_reduce {c b : Cand} (hc : c.from_ = .reduce) (hb : b.from_ ≠ .reduce) : c.before b = true := by
  unfold Cand.before
  cases h : b.from_ <;> simp_all

theorem Cand.not_before_reduce {c b : Cand} (hb : b.from_ = .reduce) : c.before b = false := by
  unfold Cand.before
  cases c.from_ <;> simp [hb]

theorem Cand.before_eq {c b : Cand} (hc : c.from_ ≠ .reduce) (hb : b.from_ ≠ .reduce) :
    c.before b = (precedes c.deadline b.deadline || (!precedes b.deadline c.deadline && decide (c.seq < b.seq))) := by
  unfold Cand.before
  cases h : c.from_ <;> cases h' : b.from_ <;> simp_all

theorem goesBefore_iff {c x : Cand} : Claim.goesBefore c x ↔ x.from_ ≠ .reduce ∧ (c.from_ = .reduce ∨ precedes c.deadline x.deadline = true ∨
    (precedes x.deadline c.deadline = false ∧ c.seq < x.seq)) := by
  simp only [Claim.goesBefore, ← precedes_iff, Bool.not_eq_true]

/-- What goes before another stands against it, whichever comes first. -/
theorem Cand.before_of_goesBefore {c x : Cand} (h : Claim.goesBefore c x) : c.before x = true ∧ x.before c = false := by
  obtain ⟨hx, order⟩ := goesBefore_iff.1 h
  by_cases hc : c.from_ = .reduce
  · exact ⟨Cand.before_of_reduce hc hx, Cand.not_before_reduce hc⟩
  · rw [Cand.before_eq hc hx, Cand.before_eq hx hc]
    rcases order with reduce | first | ⟨level, earlier⟩
    · exact absurd reduce hc
    · simp [first, precedes_asymm first]
    · simp [level, earlier, Nat.le_of_lt earlier]

/-- The better of the best so far and the next item. -/
def Cand.better (best : Option Cand) (c : Cand) : Option Cand :=
  match best with | none => some c | some b => if c.before b then some c else some b

theorem Cand.foldl_better (l : List Cand) (b : Cand) : ∃ d, l.foldl Cand.better (some b) = some d ∧ (d = b ∨ d ∈ l) ∧
    (d.from_ ≠ .reduce → b.from_ ≠ .reduce ∧ ∀ x ∈ l, x.from_ ≠ .reduce) := by
  induction l generalizing b with
  | nil => exact ⟨b, rfl, .inl rfl, fun h => ⟨h, fun _ hx => nomatch hx⟩⟩
  | cons c l ih =>
    by_cases first : c.before b = true
    · obtain ⟨d, run, mem, reduce⟩ := ih c
      refine ⟨d, by rw [List.foldl_cons, Cand.better, if_pos first, run], .inr (List.mem_cons.2 mem), fun h => ?_⟩
      obtain ⟨hc, hl⟩ := reduce h
      refine ⟨fun hb => ?_, List.forall_mem_cons.2 ⟨hc, hl⟩⟩
      rw [Cand.not_before_reduce hb] at first
      cases first
    · obtain ⟨d, run, mem, reduce⟩ := ih b
      refine ⟨d, by rw [List.foldl_cons, Cand.better, if_neg first, run], mem.imp_right (List.mem_cons_of_mem _), fun h => ?_⟩
      obtain ⟨hb, hl⟩ := reduce h
      exact ⟨hb, List.forall_mem_cons.2 ⟨fun hc => first (Cand.before_of_reduce hc hb), hl⟩⟩

/-- An item that goes before every other is the fold's result. -/
theorem Cand.foldl_better_best {c : Cand} {l : List Cand} (best : ∀ x ∈ l, x ≠ c → Claim.goesBefore c x) {o : Option Cand}
    (start : o = none ∨ ∃ b, o = some b ∧ (b = c ∨ Claim.goesBefore c b)) (here : c ∈ l ∨ o = some c) : l.foldl Cand.better o = some c := by
  induction l generalizing o with
  | nil => exact here.elim (fun h => nomatch h) id
  | cons x l ih =>
    have rest : ∀ y ∈ l, y ≠ c → Claim.goesBefore c y := fun y hy => best y (List.mem_cons_of_mem _ hy)
    rw [List.foldl_cons]
    by_cases own : x = c
    · subst own
      have takes : Cand.better o x = some x := by
        rcases start with rfl | ⟨b, rfl, rfl | before⟩
        · rfl
        · unfold Cand.better
          dsimp only
          split_ifs <;> rfl
        · exact if_pos (Cand.before_of_goesBefore before).1
      exact ih rest (.inr ⟨x, takes, .inl rfl⟩) (.inr takes)
    · have hx := best x List.mem_cons_self own
      rcases start with rfl | ⟨b, rfl, same | before⟩
      · exact ih rest (.inr ⟨x, rfl, .inr hx⟩) (.inl ((List.mem_cons.1 (here.resolve_right nofun)).resolve_left (Ne.symm own)))
      · subst same
        have keeps : Cand.better (some b) x = some b := if_neg (by rw [(Cand.before_of_goesBefore hx).2]; exact nofun)
        rw [keeps]
        exact ih rest (.inr ⟨b, rfl, .inl rfl⟩) (.inr rfl)
      · have later : c ∈ l := by
          rcases here with listed | eq
          · exact (List.mem_cons.1 listed).resolve_left (Ne.symm own)
          · cases eq
            exact absurd ((Cand.before_of_goesBefore before).1.symm.trans (Cand.before_of_goesBefore before).2) nofun
        refine ih rest ?_ (.inl later)
        unfold Cand.better
        dsimp only
        split_ifs
        · exact .inr ⟨x, rfl, .inr hx⟩
        · exact .inr ⟨b, rfl, .inr before⟩

/-- The items that have a matching slot of the die. -/
def State.choosable (s : State) (die : Nat) : List Cand :=
  let slots := (List.range 96).flatMap fun c => (List.range 16).map fun n => (⟨96 * die + c, n⟩ : TeamRef)
  s.cands.filter fun c => slots.any fun r => s.slotMatches r c

theorem State.choice_eq (s : State) (die : Nat) : s.choice die = (s.choosable die).foldl Cand.better none := rfl

theorem State.mem_choosable {s : State} {die : Nat} {c : Cand} :
    c ∈ s.choosable die ↔ c ∈ s.cands ∧ ∃ r : TeamRef, r.core / 96 = die ∧ r.slot < 16 ∧ Claim.fits s r c := by
  simp only [State.choosable, List.mem_filter, List.any_eq_true, List.mem_flatMap, List.mem_range, List.mem_map, State.slotMatches_iff]
  refine and_congr_right fun _ => ⟨?_, ?_⟩
  · rintro ⟨_, ⟨k, hk, n, hn, rfl⟩, fits⟩
    exact ⟨_, show (96 * die + k) / 96 = die by omega, hn, fits⟩
  · rintro ⟨r, core, slot, fits⟩
    have own : (⟨96 * die + r.core % 96, r.slot⟩ : TeamRef) = r := by
      rw [show 96 * die + r.core % 96 = r.core by omega]
    exact ⟨_, ⟨r.core % 96, Nat.mod_lt _ (by decide), r.slot, slot, own⟩, fits⟩

theorem diesChoose : Claim.DiesChoose := by
  refine ⟨State.slotMatches_iff, State.coreRoom_iff, State.mem_cands, fun s die => ?_⟩
  simp only [← State.mem_choosable, State.choice_eq]
  refine ⟨⟨fun none c hc => ?_, fun none => ?_⟩, fun c chosen => ?_, fun c hc best => ?_⟩
  · cases hl : s.choosable die with
    | nil => rw [hl] at hc; cases hc
    | cons x l =>
      obtain ⟨d, run, -, -⟩ := Cand.foldl_better l x
      rw [hl] at none
      exact absurd (none.symm.trans run) nofun
  · rw [List.eq_nil_iff_forall_not_mem.2 none]; rfl
  · cases hl : s.choosable die with
    | nil => rw [hl] at chosen; cases chosen
    | cons x l =>
      obtain ⟨d, run, mem, reduce⟩ := Cand.foldl_better l x
      rw [hl] at chosen
      cases (show some c = some d from chosen.symm.trans run)
      exact ⟨List.mem_cons.2 mem, fun h => List.forall_mem_cons.2 (reduce h)⟩
  · exact Cand.foldl_better_best (fun x hx other => best x hx other) (.inl rfl) (.inl hc)

/-! ## The team that starts, R72, R107, R306, R333 -/

theorem leBytes_zero (n : Nat) : leBytes n 0 = List.replicate n 0 := by
  induction n with
  | zero => rfl
  | succ n ih => rw [leBytes, Nat.zero_div, ih]; rfl

theorem leBytes_add (a b x : Nat) : leBytes (a + b) x = leBytes a x ++ leBytes b (x / 256 ^ a) := by
  induction a generalizing x with
  | zero => simp [leBytes]
  | succ a ih => rw [Nat.succ_add, leBytes, ih, leBytes, List.cons_append, Nat.div_div_eq_div_mul, Nat.pow_succ']

theorem denScratch_byte {records : List (List Byte)} (few : records.length ≤ 256) (y : Nat) :
    (denScratch records).byte y = (leBytes 8 records.length ++ List.replicate 56 0 ++ records.flatten).getD y 0 := by
  have head : leBytes 64 records.length = leBytes 8 records.length ++ List.replicate 56 0 := by
    rw [leBytes_add 8 56, Nat.div_eq_of_lt (by omega), leBytes_zero]
  rw [denScratch, head]
  generalize leBytes 8 records.length ++ List.replicate 56 0 ++ records.flatten = bs
  by_cases inside : y < bs.length
  · have := Store.setBytes_inside .empty 0 bs inside
    rw [Nat.zero_add] at this
    rw [this, List.getD_eq_getElem _ _ inside]
  · rw [Store.setBytes_outside .empty 0 bs (.inr (by omega)), List.getD_eq_default _ _ (by omega)]
    rfl

/-- A team as it starts but for the values of its item. -/
theorem startThreads_spec {now : Nat} {k : KHdr} : (startThreads now k).map (·.tid) = List.range k.threads ∧
    ∀ th ∈ startThreads now k, th.pc = k.entry ∧ th.run = .runnable ∧ th.meet = 0 ∧ th.recno = th.tid / 32 ∧ th.pos = th.tid % 32 ∧
      (∀ n, th.getV n = 0) ∧ ∀ n, th.getK n = decide (n = 0) := by
  refine ⟨?_, fun th hth => ?_⟩
  · rw [startThreads, List.map_map]
    exact List.map_id _
  · obtain ⟨n, -, rfl⟩ := List.mem_map.1 hth
    refine ⟨rfl, rfl, rfl, rfl, rfl, fun _ => rfl, fun n => ?_⟩
    by_cases first : n = 0 <;> simp [Thread.getK, Thread.start, Tab.get, first]

theorem startGrps_spec {k : KHdr} {g : Grp} (hg : g ∈ startGrps k) :
    g.clause = none ∧ g.warn = 0 ∧ g.clear = true ∧ g.waits = [] ∧ ∀ n, g.getS n = 0 := by
  obtain ⟨x, -, rfl⟩ := List.mem_map.1 hg
  exact ⟨rfl, rfl, rfl, rfl, fun _ => rfl⟩

theorem freshTile (k : Nat) : nth Tile.zero (List.replicate 8 Tile.zero) k = Tile.zero := by
  rw [nth_eq_getD, List.getD_eq_getElem?_getD, List.getElem?_replicate]
  split_ifs <;> rfl

theorem Launch.startedTeam {s : State} {r : TeamRef} {b : Nat} {c : Cand} {l : Launch} (item : c.item = .launch l.id) (found : s.launch? l.id = some l)
    (part : l.part = c.part) (deadline : l.lrec.deadline = c.deadline) (seq : l.seq = c.seq) (from_ : ∀ x, c.from_ ≠ .trigger x) (now pkg : Nat) :
    Claim.startedTeam s r b c { l.team now r b c with pkg := pkg } := by
  refine ⟨rfl, rfl, item.symm, rfl, part, deadline, seq, startThreads_spec.1, startThreads_spec.2, fun g hg => ?_, freshTile, rfl, rfl, rfl, rfl, rfl, rfl,
    fun l' own found' => ?_, fun d other => ?_, fun w hw => ?_, fun hw => ?_, fun _ _ => rfl, fun x hx => absurd hx (from_ x)⟩
  · obtain ⟨clause, warn, clear, -, regs⟩ := startGrps_spec hg
    exact ⟨clause, warn, clear, regs⟩
  · have same : l' = l := by
      rw [← Item.launch.inj (item.symm.trans own), found] at found'
      exact (Option.some.inj found').symm
    subst same
    unfold Launch.team
    cases c.from_ <;> exact ⟨rfl, rfl, rfl, rfl, rfl, rfl, rfl⟩
  · exact absurd (item.symm.trans other) nofun
  · unfold Launch.team
    rw [hw]
    exact ⟨rfl, rfl⟩
  · unfold Launch.team
    cases hf : c.from_ with
    | restart w => exact absurd hf (hw w)
    | _ => rfl

theorem Den.startedTeam {s : State} {r : TeamRef} {b : Nat} {c : Cand} {d : Den} (item : c.item = .den d.num) (found : s.den? d.num = some d)
    (part : d.part = c.part) (from_ : (∃ x, c.from_ = .trigger x) ∨ ∃ w, c.from_ = .restart w) (now pkg : Nat) :
    Claim.startedTeam s r b c { d.team now r b c with pkg := pkg } := by
  refine ⟨rfl, rfl, item.symm, rfl, part, rfl, rfl, startThreads_spec.1, startThreads_spec.2, fun g hg => ?_, freshTile, rfl, rfl, rfl, rfl, rfl, rfl,
    fun l other => ?_, fun d' own found' => ?_, fun w hw => ?_, fun hw => ?_, fun hx y => ?_, fun x hx few y => ?_⟩
  · obtain ⟨clause, warn, clear, -, regs⟩ := startGrps_spec hg
    exact ⟨clause, warn, clear, regs⟩
  · exact absurd (item.symm.trans other) nofun
  · have same : d' = d := by
      rw [← Item.den.inj (item.symm.trans own), found] at found'
      exact (Option.some.inj found').symm
    subst same
    exact ⟨rfl, rfl, rfl, rfl, rfl, rfl, rfl⟩
  · unfold Den.team
    rw [hw]
    exact ⟨rfl, rfl⟩
  · unfold Den.team
    cases hf : c.from_ with
    | restart w => exact absurd hf (hw w)
    | _ => rfl
  · obtain ⟨x, hf⟩ | ⟨w, hf⟩ := from_
    · exact absurd hf (hx x)
    · unfold Den.team
      rw [hf]
      rfl
  · unfold Den.team
    rw [hx]
    exact denScratch_byte few y

/-- A team as it starts waits for nothing. -/
theorem Team.unwatched_of_waits {t : Team} (none : ∀ g ∈ t.grps, g.waits = []) : Claim.unwatched t := by
  refine List.flatMap_eq_nil_iff.2 fun g hg => ?_
  rw [none g hg]
  rfl

/-! ## A status record, R292, R293 -/

theorem Team.waitsOf_of_none {t : Team} {p q : WaitKind → Bool} (none : t.waitsOf p = []) (sub : ∀ k, q k = true → p k = true) : t.waitsOf q = [] := by
  refine List.flatMap_eq_nil_iff.2 fun g hg => ?_
  have idle := List.flatMap_eq_nil_iff.1 none g hg
  rw [List.map_eq_nil_iff, List.filter_eq_nil_iff] at idle ⊢
  exact fun x hx hit => idle x hx (sub _ hit)

theorem Team.wakeLine_of_unwatched {t : Team} (h : Claim.unwatched t) (now line : Nat) : t.wakeLine now line = t := by
  unfold Team.wakeLine
  rw [Team.waitsOf_of_none h fun k hit => by cases k <;> simp_all]
  rfl

/-- No team of the state waits for a write to memory. -/
def State.Unwatched (s : State) : Prop := ∀ x ∈ s.teams, Claim.unwatched x.2

theorem State.Unwatched.wakeLine {s : State} (h : s.Unwatched) (line : Nat) : s.wakeLine line = s := by
  have same : s.teams.map (fun kv => (kv.1, kv.2.wakeLine s.sched.steps line)) = s.teams :=
    (List.map_congr_left fun kv hkv => by rw [Team.wakeLine_of_unwatched (h kv hkv)]; rfl).trans (List.map_id _)
  rw [State.wakeLine, same]

theorem State.Unwatched.wakeLines {s : State} (h : s.Unwatched) (ls : List Nat) : ls.foldl (fun s l => s.wakeLine l) s = s :=
  foldl_of_fixed fun l _ => h.wakeLine l

theorem physKind_hostPa (h : Nat) : physKind (hostPa h) ≠ .hbm := fun hbm => by
  have := physKind_eq_hbm hbm
  unfold hostPa at this
  omega

theorem State.hostWrite_teams {s : State} (h : s.Unwatched) (a : Nat) (bs : List Byte) : (s.hostWrite a bs).teams = s.teams := by
  unfold State.hostWrite State.physWrite
  dsimp only
  rw [if_neg (physKind_hostPa a)]
  have idle : (s.setPhys (s.storeWrite s.mem.phys ⟨none, none⟩ (hostPa a) bs)).Unwatched := h
  exact (congrArg State.teams (idle.wakeLines _)).trans rfl

/-- What a status record leaves of its state before its interrupt, if it has one. -/
def State.written (s : State) (p : Nat) (r : Status) : State :=
  (s.hostWrite (s.part p).place r.bytes).modPart p fun q => { q with sqtail := q.sqtail + 1 }

theorem State.putStatus_eq (s : State) (p : Nat) (r : Status) : s.putStatus p r = r.vec.elim (s.written p r) ((s.written p r).irq p) := by
  unfold State.putStatus
  cases r.vec <;> rfl

theorem State.putStatus_mem (s : State) (p : Nat) (r : Status) : (s.putStatus p r).mem = (s.hostWrite (s.part p).place r.bytes).mem := by
  rw [State.putStatus_eq]
  cases r.vec with
  | none => rfl
  | some n => exact State.irq_mem ..

theorem State.putStatus_parts (s : State) (p : Nat) (r : Status) :
    (s.putStatus p r).parts = modNth (fun q => { q with sqtail := q.sqtail + 1 }) s.parts p := by
  have written : (s.written p r).parts = modNth (fun q => { q with sqtail := q.sqtail + 1 }) s.parts p := by
    rw [State.written, State.modPart, State.hostWrite_parts]
  rw [State.putStatus_eq]
  cases r.vec with
  | none => exact written
  | some n => exact (State.irq_parts ..).trans written

theorem State.putStatus_part (s : State) {p : Nat} (hp : p < s.parts.length) (r : Status) :
    (s.putStatus p r).part p = { s.part p with sqtail := (s.part p).sqtail + 1 } := by
  rw [State.part, State.putStatus_parts]
  exact nth_modNth_same _ _ hp

theorem State.written_front (s : State) (p : Nat) (r : Status) : (s.written p r).front = s.front := State.hostWrite_front ..

theorem State.written_part (s : State) {p : Nat} (hp : p < s.parts.length) (r : Status) :
    (s.written p r).part p = { s.part p with sqtail := (s.part p).sqtail + 1 } := by
  rw [State.part, State.written, State.modPart, State.hostWrite_parts]
  exact nth_modNth_same _ _ hp

/-- The record's interrupt is the only one. -/
theorem State.putStatus_irqs (s : State) {p : Nat} (hp : p < s.parts.length) (running : (s.part p).flr = false) (r : Status) :
    (s.putStatus p r).front.irqs = s.front.irqs ++ r.vec.elim [] fun n => [(p, n)] := by
  have open_ : ((s.written p r).part p).flr = false := by rw [State.written_part s hp]; exact running
  rw [State.putStatus_eq]
  cases r.vec with
  | none => rw [Option.elim_none, Option.elim_none, State.written_front, List.append_nil]
  | some n =>
    rw [Option.elim_some, Option.elim_some, State.irq, open_, if_neg Bool.false_ne_true]
    exact congrArg (·.irqs ++ [(p, n)]) (State.written_front s p r)

theorem State.putStatus_teams {s : State} (h : s.Unwatched) (p : Nat) (r : Status) : (s.putStatus p r).teams = s.teams := by
  have written : (s.written p r).teams = s.teams := State.hostWrite_teams h ..
  rw [State.putStatus_eq]
  cases r.vec with
  | none => exact written
  | some n => exact (State.irq_teams ..).trans written

theorem State.putStatus_inside (s : State) (p : Nat) (r : Status) {j : Nat} (hj : j < 32) :
    (s.putStatus p r).mem.phys.byte (Claim.statusPlace (s.part p) + j) = r.bytes.getD j 0 := by
  rw [State.putStatus_mem, List.getD_eq_getElem _ _ (by rw [Status.bytes_length]; exact hj)]
  exact State.physWrite_inside ..

theorem State.putStatus_outside (s : State) (p : Nat) (r : Status) {pa : Nat}
    (away : pa < Claim.statusPlace (s.part p) ∨ Claim.statusPlace (s.part p) + 32 ≤ pa) : (s.putStatus p r).mem.phys.byte pa = s.mem.phys.byte pa := by
  rw [State.putStatus_mem]
  exact State.physWrite_outside s _ (by rw [Status.bytes_length]; exact away) fun hbm => absurd hbm (physKind_hostPa _)

/-- In a ring with room a status record is written at once. -/
theorem State.status_eq {s : State} {p : Nat} (running : (s.part p).flr = false) (held : (s.part p).held = []) (room : (s.part p).ringRoom = true)
    (type detail id seq launch : Nat) (vec : Option Nat) :
    s.status p type detail id seq launch vec = s.putStatus p ⟨type, detail, id, seq, s.clock.time, launch, vec⟩ := by
  unfold State.status
  simp [running, held, room]

theorem State.status_teams {s : State} (h : s.Unwatched) (p type detail id seq launch : Nat) (vec : Option Nat) :
    (s.status p type detail id seq launch vec).teams = s.teams := by
  unfold State.status
  dsimp only
  split_ifs
  · rfl
  · exact State.putStatus_teams h ..
  · rfl
  · rfl

/-! ## A launch or den whose team is dispatched, R300 -/

theorem State.launch?_id {s : State} {id : Nat} {l : Launch} (h : s.launch? id = some l) : l.id = id := by simpa using List.find?_some h
theorem State.den?_num {s : State} {n : Nat} {d : Den} (h : s.den? n = some d) : d.num = n := by simpa using List.find?_some h

theorem State.launch?_modLaunch (s : State) (id : Nat) {f : Launch → Launch} (hf : ∀ l, (f l).id = l.id) :
    (s.modLaunch id f).launch? id = (s.launch? id).map f := by
  unfold State.launch? State.modLaunch
  dsimp only
  induction s.front.launches with
  | nil => rfl
  | cons l r ih =>
    by_cases own : l.id = id
    · simp [own, hf]
    · simp [own, ih]

theorem State.den?_modDen (s : State) (n : Nat) {f : Den → Den} (hf : ∀ d, (f d).num = d.num) :
    (s.modDen n f).den? n = (s.den? n).map f := by
  unfold State.den? State.modDen
  dsimp only
  induction s.front.dens with
  | nil => rfl
  | cons d r ih =>
    by_cases own : d.num = n
    · simp [own, hf]
    · simp [own, ih]

/-- By how much the deadline of a team is past, on the circle of 2^48. -/
def State.lateBy (s : State) (deadline : Nat) : Nat := (s.clock.time % 2 ^ 48 + 2 ^ 48 - deadline % 2 ^ 48) % 2 ^ 48

theorem State.lateBy_eq (s : State) (deadline : Nat) : s.lateBy deadline = (((s.clock.time : Int) - deadline) % (2 : Int) ^ 48).toNat := by
  unfold State.lateBy
  omega

/-- Time, rings, interrupts and memory are the same. -/
structure State.SameRing (s v : State) : Prop where
  clock : v.clock = s.clock
  parts : v.parts = s.parts
  irqs : v.front.irqs = s.front.irqs
  phys : v.mem.phys = s.mem.phys

/-- A LATE record of a team falls due. -/
def State.lateStatus (s : State) (t : Team) : State :=
  s.status t.part 2 (min (s.lateBy t.deadline / 1000) (2 ^ 32 - 1)) t.launch t.seq t.launch none

theorem State.lateRecord_launch (s : State) {t : Team} {id : Nat} (item : t.item = .launch id) : s.lateRecord t =
    if 2 ^ 47 ≤ s.lateBy t.deadline then s else if (s.launch? id).any (·.late) then s else
      (s.modLaunch id fun l => { l with late := true }).lateStatus t := by
  unfold State.lateRecord
  rw [item]
  rfl

theorem State.lateRecord_den (s : State) {t : Team} {n : Nat} (item : t.item = .den n) : s.lateRecord t =
    if 2 ^ 47 ≤ s.lateBy t.deadline then s else if (s.den? n).any (·.late) then s else
      (s.modDen n fun d => { d with late := true }).lateStatus t := by
  unfold State.lateRecord
  rw [item]
  rfl

/-- `s1` is `s` after team `t` was placed whose launch or den was late before, or not. -/
structure State.Started (s : State) (t : Team) (was : Bool) (s1 : State) : Prop where
  teams : s1.teams = s.teams.put (slotKey t.ref) t
  silent : 2 ^ 47 ≤ s.lateBy t.deadline ∨ was = true → s1.parts = s.parts ∧ s1.mem.phys = s.mem.phys ∧ s1.front.irqs = s.front.irqs
  record : s.lateBy t.deadline < 2 ^ 47 → was = false → t.part < s.parts.length → (s.part t.part).flr = false → (s.part t.part).held = [] →
    (s.part t.part).ringRoom = true →
    (s1.part t.part).sqtail = (s.part t.part).sqtail + 1 ∧ s1.front.irqs = s.front.irqs ∧
      (∀ j < 32, s1.mem.phys.byte (Claim.statusPlace (s.part t.part) + j) =
        (leBytes 4 2 ++ leBytes 4 (min (s.lateBy t.deadline / 1000) (2 ^ 32 - 1)) ++ leBytes 4 t.launch ++ leBytes 4 0 ++ leBytes 8 t.seq ++
          leBytes 8 s.clock.time).getD j 0) ∧
      ∀ pa, pa < Claim.statusPlace (s.part t.part) ∨ Claim.statusPlace (s.part t.part) + 32 ≤ pa → s1.mem.phys.byte pa = s.mem.phys.byte pa

theorem State.SameRing.started_silent {s v : State} (same : s.SameRing v) {t : Team} {was : Bool} (teams : v.teams = s.teams.put (slotKey t.ref) t)
    (quiet : 2 ^ 47 ≤ s.lateBy t.deadline ∨ was = true) : s.Started t was v := by
  refine ⟨teams, fun _ => ⟨same.parts, same.phys, same.irqs⟩, fun late first => ?_⟩
  rcases quiet with early | again
  · omega
  · exact absurd (first.symm.trans again) nofun

theorem State.SameRing.started_record {s v : State} (same : s.SameRing v) {t : Team} (teams : v.teams = s.teams.put (slotKey t.ref) t)
    (idle : v.Unwatched) (late : s.lateBy t.deadline < 2 ^ 47) : s.Started t false (v.lateStatus t) := by
  have time : v.lateBy t.deadline = s.lateBy t.deadline := by unfold State.lateBy; rw [same.clock]
  have part : v.part t.part = s.part t.part := by unfold State.part; rw [same.parts]
  refine ⟨(State.status_teams idle ..).trans teams, fun quiet => ?_, fun _ _ inside running held room => ?_⟩
  · exact absurd quiet (by simp only [Bool.false_eq_true, or_false]; omega)
  · rw [State.lateStatus, State.status_eq (part ▸ running) (part ▸ held) (part ▸ room), time]
    refine ⟨?_, ?_, fun j hj => ?_, fun pa away => ?_⟩
    · rw [State.putStatus_part v (by rw [same.parts]; exact inside), part]
    · rw [State.putStatus_irqs v (by rw [same.parts]; exact inside) (part ▸ running), same.irqs]
      exact List.append_nil _
    · rw [← part, State.putStatus_inside _ _ _ hj, same.clock]
      rfl
    · rw [State.putStatus_outside v _ _ (part ▸ away), same.phys]

/-! ## A placed team, R298, R299 -/

/-- The team stands in its slot, and its core holds no line of another launch. -/
def State.seatTeam (s : State) (t : Team) : State := (s.putTeam t).startLaunch t.ref.core t.launch

theorem State.seatTeam_spec (s : State) (t : Team) : (s.seatTeam t).teams = s.teams.put (slotKey t.ref) t ∧ (s.seatTeam t).front = s.front ∧
    (s.seatTeam t).parts = s.parts ∧ (s.seatTeam t).clock = s.clock ∧ (s.seatTeam t).mem.phys = s.mem.phys := by
  unfold State.seatTeam State.startLaunch
  split_ifs <;> exact ⟨rfl, rfl, rfl, rfl, rfl⟩

theorem State.startTeam_eq (s : State) (t : Team) : s.startTeam t =
    let t := { t with pkg := s.fab.me }
    let s1 := (s.seatTeam t).lateRecord t
    match s1.landing t.ref.core t.asid t.hdr.entry with | some f => s1.failStart t.ref f | none => s1 := rfl

theorem State.Unwatched.put {s v : State} {t : Team} (idle : s.Unwatched) (own : Claim.unwatched t) (teams : v.teams = s.teams.put (slotKey t.ref) t) :
    v.Unwatched := by
  intro x hx
  rw [teams] at hx
  rcases Tab.mem_put hx with rfl | hx
  · exact own
  · exact idle x hx

section
variable {s : State} {t : Team} (idle : s.Unwatched) (own : Claim.unwatched t)
include idle own

/-- What placing a launch's team leaves. -/
theorem State.started_launch {l : Launch} {f : Launch → Launch} (same : ∀ x, (f x).id = x.id ∧ (f x).late = x.late) (found : s.launch? l.id = some l)
    (item : t.item = .launch l.id) :
    let s1 := ((s.modLaunch l.id f).seatTeam t).lateRecord t
    s.Started t l.late s1 ∧ s1.launch? l.id = some { f l with late := l.late || decide (s.lateBy t.deadline < 2 ^ 47) } := by
  obtain ⟨teams, front, parts, clock, phys⟩ := (s.modLaunch l.id f).seatTeam_spec t
  have ring : s.SameRing ((s.modLaunch l.id f).seatTeam t) := ⟨clock, parts, by rw [front]; rfl, phys⟩
  have read : ((s.modLaunch l.id f).seatTeam t).launch? l.id = some (f l) := by
    rw [State.launch?, front]
    exact (State.launch?_modLaunch s l.id fun x => (same x).1).trans (congrArg _ found)
  have time : ((s.modLaunch l.id f).seatTeam t).lateBy t.deadline = s.lateBy t.deadline := by unfold State.lateBy; rw [clock]; rfl
  have late : (f l).late = l.late := (same l).2
  dsimp only
  rw [State.lateRecord_launch _ item, time, read, Option.any_some, late]
  by_cases early : 2 ^ 47 ≤ s.lateBy t.deadline
  · rw [if_pos early]
    refine ⟨ring.started_silent teams (.inl early), read.trans ?_⟩
    rw [decide_eq_false (by omega), Bool.or_false, ← late]
  · rw [if_neg early]
    cases was : l.late with
    | true =>
      rw [if_pos rfl]
      refine ⟨ring.started_silent teams (.inr rfl), read.trans ?_⟩
      rw [Bool.true_or, ← was, ← late]
    | false =>
      rw [if_neg Bool.false_ne_true]
      have marked : s.SameRing (((s.modLaunch l.id f).seatTeam t).modLaunch l.id fun l => { l with late := true }) := ⟨clock, parts, ring.irqs, phys⟩
      refine ⟨marked.started_record teams (idle.put own teams) (by omega), ?_⟩
      rw [State.launch?, State.lateStatus, (State.SameWork.status ..).launches]
      refine (State.launch?_modLaunch ((s.modLaunch l.id f).seatTeam t) l.id (f := fun l => { l with late := true }) fun _ => rfl).trans ?_
      rw [read, Option.map_some, decide_eq_true (by omega), Bool.or_true]

/-- What placing a den's team leaves. -/
theorem State.started_den {d : Den} {f : Den → Den} (same : ∀ x, (f x).num = x.num ∧ (f x).late = x.late) (found : s.den? d.num = some d)
    (item : t.item = .den d.num) :
    let s1 := ((s.modDen d.num f).seatTeam t).lateRecord t
    s.Started t d.late s1 ∧ s1.den? d.num = some { f d with late := d.late || decide (s.lateBy t.deadline < 2 ^ 47) } := by
  obtain ⟨teams, front, parts, clock, phys⟩ := (s.modDen d.num f).seatTeam_spec t
  have ring : s.SameRing ((s.modDen d.num f).seatTeam t) := ⟨clock, parts, by rw [front]; rfl, phys⟩
  have read : ((s.modDen d.num f).seatTeam t).den? d.num = some (f d) := by
    rw [State.den?, front]
    exact (State.den?_modDen s d.num fun x => (same x).1).trans (congrArg _ found)
  have time : ((s.modDen d.num f).seatTeam t).lateBy t.deadline = s.lateBy t.deadline := by unfold State.lateBy; rw [clock]; rfl
  have late : (f d).late = d.late := (same d).2
  dsimp only
  rw [State.lateRecord_den _ item, time, read, Option.any_some, late]
  by_cases early : 2 ^ 47 ≤ s.lateBy t.deadline
  · rw [if_pos early]
    refine ⟨ring.started_silent teams (.inl early), read.trans ?_⟩
    rw [decide_eq_false (by omega), Bool.or_false, ← late]
  · rw [if_neg early]
    cases was : d.late with
    | true =>
      rw [if_pos rfl]
      refine ⟨ring.started_silent teams (.inr rfl), read.trans ?_⟩
      rw [Bool.true_or, ← was, ← late]
    | false =>
      rw [if_neg Bool.false_ne_true]
      have marked : s.SameRing (((s.modDen d.num f).seatTeam t).modDen d.num fun d => { d with late := true }) := ⟨clock, parts, ring.irqs, phys⟩
      refine ⟨marked.started_record teams (idle.put own teams) (by omega), ?_⟩
      rw [State.den?, State.lateStatus, (State.SameWork.status ..).dens]
      refine (State.den?_modDen ((s.modDen d.num f).seatTeam t) d.num (f := fun d => { d with late := true }) fun _ => rfl).trans ?_
      rw [read, Option.map_some, decide_eq_true (by omega), Bool.or_true]

end

/-- What the claim says of the slots, the ring and memory once a team is placed. -/
theorem State.Started.claim {s s1 : State} {t : Team} {was : Bool} (h : s.Started t was s1) {r : TeamRef} {part deadline launch seq : Nat} (ref : t.ref = r)
    (hpart : t.part = part) (hdl : t.deadline = deadline) (hlaunch : t.launch = launch) (hseq : t.seq = seq) (inside : part < s.parts.length) :
    let late := (((s.clock.time : Int) - deadline) % (2 : Int) ^ 48).toNat
    let isLate := decide (late < 2 ^ 47)
    let q := s.part part
    s1.team? r = some t ∧ (∀ k, k ≠ slotKey r → s1.teams.find k = s.teams.find k) ∧
      (isLate = false ∨ was = true → s1.parts = s.parts ∧ s1.mem.phys = s.mem.phys ∧ s1.front.irqs = s.front.irqs) ∧
      (isLate = true → was = false → q.flr = false → q.held = [] → q.ringRoom = true →
        (s1.part part).sqtail = q.sqtail + 1 ∧ s1.front.irqs = s.front.irqs ∧
        (let record := leBytes 4 2 ++ leBytes 4 (min (late / 1000) (2 ^ 32 - 1)) ++ leBytes 4 launch ++ leBytes 4 0 ++ leBytes 8 seq ++ leBytes 8 s.clock.time
         (∀ j < 32, s1.mem.phys.byte (Claim.statusPlace q + j) = record.getD j 0) ∧
          ∀ pa, pa < Claim.statusPlace q ∨ Claim.statusPlace q + 32 ≤ pa → s1.mem.phys.byte pa = s.mem.phys.byte pa)) := by
  subst ref hpart hdl hlaunch hseq
  simp only [← State.lateBy_eq]
  refine ⟨?_, fun k other => ?_, fun quiet => h.silent (quiet.imp_left fun e => ?_), fun late first => h.record (of_decide_eq_true late) first inside⟩
  · rw [State.team?, h.teams]
    exact Tab.find_put_same ..
  · rw [h.teams]
    exact Tab.find_put_other _ _ other
  · exact Nat.le_of_not_lt (of_decide_eq_false e)

/-! ## TEAM_DISPATCH -/

/-- The die's choice is dispatched to a slot that matches it. -/
theorem exec_teamDispatch {s : State} {r : TeamRef} {b : Fin 4} {c : Cand} (core : r.core < 384) (slot : r.slot < 16)
    (chosen : s.choice (r.core / 96) = some c) (fits : s.slotMatches r c = true) (room : s.coreRoom r.core b.val c = true) :
    (∀ l, c.item = .launch l.id → s.launch? l.id = some l →
      exec (.teamDispatch r b) s = .next ((s.took c).startTeam (l.team s.sched.steps r b.val c))) ∧
    (∀ d, c.item = .den d.num → s.den? d.num = some d →
      exec (.teamDispatch r b) s = .next ((s.took c).startTeam (d.team s.sched.steps r b.val c))) ∧
    ∀ x, c.item = .reduce x.part x.bind.cid → s.coll? x.part x.bind.cid = some x →
      exec (.teamDispatch r b) s = .next ((s.took c).putTeam (x.team r b.val)) := by
  have run : exec (.teamDispatch r b) s = execTeamDispatch r b s := rfl
  have inside : ¬ (384 ≤ r.core ∨ 16 ≤ r.slot) := by omega
  unfold execTeamDispatch at run
  rw [if_neg inside, show s.choice (dieOf r.core) = some c from chosen] at run
  simp only [fits, room, Bool.not_true, Bool.or_self, Bool.false_eq_true, if_false] at run
  refine ⟨fun l item found => ?_, fun d item found => ?_, fun x item found => ?_⟩
  · simpa only [item, found] using run
  · simpa only [item, found] using run
  · simpa only [item, found] using run

/-- The launch's record after one of its teams is taken. -/
def Launch.took (l : Launch) (c : Cand) : Launch :=
  match c.from_ with | .restart w => { l with restarts := l.restarts.erase w } | _ => { l with next := l.next + 1 }

def Den.took (d : Den) (c : Cand) : Den :=
  match c.from_ with
  | .restart w => { d with restarts := d.restarts.erase w }
  | .trigger x => { d with ready := d.ready.erase x }
  | _ => d

theorem State.took_launch {s : State} {c : Cand} {id : Nat} (item : c.item = .launch id) : s.took c = s.modLaunch id (·.took c) := by
  unfold State.took Launch.took
  rw [item]
  cases c.from_ <;> rfl

theorem State.took_den {s : State} {c : Cand} {n : Nat} (item : c.item = .den n) (from_ : (∃ x, c.from_ = .trigger x) ∨ ∃ w, c.from_ = .restart w) :
    s.took c = s.modDen n (·.took c) := by
  unfold State.took Den.took
  rw [item]
  obtain ⟨x, hf⟩ | ⟨w, hf⟩ := from_ <;> rw [hf]

theorem Launch.took_same (c : Cand) (l : Launch) : (l.took c).id = l.id ∧ (l.took c).late = l.late := by
  unfold Launch.took; cases c.from_ <;> exact ⟨rfl, rfl⟩

theorem Den.took_same (c : Cand) (d : Den) : (d.took c).num = d.num ∧ (d.took c).late = d.late := by
  unfold Den.took; cases c.from_ <;> exact ⟨rfl, rfl⟩

/-- The claim's launch after a dispatch. -/
theorem Claim.item_launch {s : State} {c : Cand} {late : Bool} {l l' : Launch} (h : Claim.item s c late = some (.inl (l, l'))) :
    c.item = .launch l.id ∧ s.launch? l.id = some l ∧ (∀ x, c.from_ ≠ .trigger x) ∧ { l.took c with late := l.late || late } = l' := by
  unfold Claim.item at h
  split at h
  case h_1 id item fresh =>
    obtain ⟨x, found, eq⟩ := Option.map_eq_some_iff.1 h
    cases eq
    cases State.launch?_id found
    exact ⟨item, found, by rw [fresh]; exact nofun, by rw [Launch.took, fresh]⟩
  case h_2 id w item restart =>
    obtain ⟨x, found, eq⟩ := Option.map_eq_some_iff.1 h
    cases eq
    cases State.launch?_id found
    exact ⟨item, found, by rw [restart]; exact nofun, by rw [Launch.took, restart]⟩
  case h_3 => simp at h
  case h_4 => simp at h
  case h_5 => cases h

theorem Claim.item_den {s : State} {c : Cand} {late : Bool} {d d' : Den} (h : Claim.item s c late = some (.inr (d, d'))) :
    c.item = .den d.num ∧ s.den? d.num = some d ∧ ((∃ x, c.from_ = .trigger x) ∨ ∃ w, c.from_ = .restart w) ∧
      { d.took c with late := d.late || late } = d' := by
  unfold Claim.item at h
  split at h
  case h_1 => simp at h
  case h_2 => simp at h
  case h_3 n x item trigger =>
    obtain ⟨y, found, eq⟩ := Option.map_eq_some_iff.1 h
    cases eq
    cases State.den?_num found
    exact ⟨item, found, .inl ⟨x, trigger⟩, by rw [Den.took, trigger]⟩
  case h_4 n w item restart =>
    obtain ⟨y, found, eq⟩ := Option.map_eq_some_iff.1 h
    cases eq
    cases State.den?_num found
    exact ⟨item, found, .inr ⟨w, restart⟩, by rw [Den.took, restart]⟩
  case h_5 => cases h

theorem Launch.team_unwatched (l : Launch) (now : Nat) (r : TeamRef) (b : Nat) (c : Cand) (pkg : Nat) :
    Claim.unwatched { l.team now r b c with pkg := pkg } := by
  refine Team.unwatched_of_waits fun g hg => ?_
  obtain ⟨-, -, -, waits, -⟩ := startGrps_spec (k := c.hdr) hg
  exact waits

theorem Den.team_unwatched (d : Den) (now : Nat) (r : TeamRef) (b : Nat) (c : Cand) (pkg : Nat) :
    Claim.unwatched { d.team now r b c with pkg := pkg } := by
  refine Team.unwatched_of_waits fun g hg => ?_
  obtain ⟨-, -, -, waits, -⟩ := startGrps_spec (k := c.hdr) hg
  exact waits

theorem State.coll?_modColl (s : State) (part cid : Nat) {f : Coll → Coll} (hf : ∀ c, (f c).part = c.part ∧ (f c).bind.cid = c.bind.cid) :
    (s.modColl part cid f).coll? part cid = (s.coll? part cid).map f := by
  unfold State.coll? State.modColl
  dsimp only
  induction s.coll.live with
  | nil => rfl
  | cons c r ih =>
    by_cases own : c.part = part ∧ c.bind.cid = cid
    · simp [own, hf]
    · rw [List.map_cons, if_neg own, List.find?_cons, List.find?_cons]
      have other : (c.part == part && c.bind.cid == cid) = false := by simpa using own
      rw [other]
      exact ih

/-- R298, R300, R306, R333, R382. -/
theorem dispatchesOfEveryItem : Claim.DispatchesOfEveryItem := by
  refine ⟨fun s r b c core slot chosen fits room idle part count => ?_, fun s r b c x core slot chosen fits room item found => ?_⟩
  · obtain ⟨launches, dens, -⟩ := exec_teamDispatch core slot chosen ((State.slotMatches_iff s r c).2 fits) ((State.coreRoom_iff s r.core b.val c).2 room)
    intro late isLate q goes
    have inside : c.part < s.parts.length := by rw [count]; exact part
    refine ⟨fun l l' after own deadline seq => ?_, fun d d' after own => ?_⟩
    · obtain ⟨item, found, from_, eq⟩ := Claim.item_launch after
      let t : Team := { l.team s.sched.steps r b.val c with pkg := s.fab.me }
      obtain ⟨started, read⟩ := State.started_launch (t := t) idle (l.team_unwatched ..) (Launch.took_same c) found rfl
      obtain ⟨team, others, silent, record⟩ := started.claim (r := r) rfl own deadline (launch := l.id) rfl seq inside
      refine ⟨_, ⟨⟨t, team, l.startedTeam item found own deadline seq from_ _ _⟩, others, silent, record, ?_⟩, ?_⟩
      · rw [launches l item found, State.took_launch item, State.startTeam_eq]
        rfl
      · rw [read, ← eq, State.lateBy_eq, show t.deadline = c.deadline from deadline]
    · obtain ⟨item, found, from_, eq⟩ := Claim.item_den after
      let t : Team := { d.team s.sched.steps r b.val c with pkg := s.fab.me }
      obtain ⟨started, read⟩ := State.started_den (t := t) idle (d.team_unwatched ..) (Den.took_same c) found rfl
      obtain ⟨team, others, silent, record⟩ := started.claim (r := r) rfl own (deadline := c.deadline) rfl (launch := d.id) rfl (seq := c.seq) rfl inside
      refine ⟨_, ⟨⟨t, team, d.startedTeam item found own from_ _ _⟩, others, silent, record, ?_⟩, ?_⟩
      · rw [dens d item found, State.took_den item from_, State.startTeam_eq]
        rfl
      · rw [read, ← eq, State.lateBy_eq]
        rfl
  · obtain ⟨-, -, colls⟩ := exec_teamDispatch core slot chosen ((State.slotMatches_iff s r c).2 fits) ((State.coreRoom_iff s r.core b.val c).2 room)
    have took : s.took c = s.modColl x.part x.bind.cid fun c => { c with reduceDue := false } := by
      unfold State.took
      rw [item]
    refine ⟨_, x.team r b.val, colls x item found, Tab.find_put_same .., item.symm, rfl, rfl, rfl, rfl, fun k other => ?_, ?_, ?_⟩
    · rw [took]
      exact Tab.find_put_other _ _ other
    · rw [took]
      refine (State.coll?_modColl s x.part x.bind.cid (f := fun c => { c with reduceDue := false }) fun _ => ⟨rfl, rfl⟩).trans ?_
      rw [found]
      rfl
    · rw [took]
      exact ⟨rfl, rfl, rfl, rfl⟩

/-! ## A launch's next team that is not late, R298, R299 -/

/-- With no line held, a target lands by what translation, memory and poison say. -/
theorem State.landing_congr {s v : State} {asid : Nat} (walks : ∀ va, v.translate asid va rightX = s.translate asid va rightX)
    (poison : ∀ a, v.poisoned a = s.poisoned a) (reads : ∀ g pa, v.physRead ⟨none, none⟩ g pa 64 = s.physRead ⟨none, none⟩ g pa 64)
    (hs : s.mem.icache = []) (hv : v.mem.icache = []) (core target : Nat) : v.landing core asid target = s.landing core asid target := by
  unfold State.landing State.fetchLine
  rw [walks]
  cases s.translate asid (target / 64 * 64) rightX with
  | ok l =>
    simp only [poison, reads, hs, hv, List.find?_nil, Option.any_none, Bool.false_eq_true, if_false]
    split_ifs <;> rfl
  | _ => rfl

theorem State.seatTeam_mem (s : State) (t : Team) : ∃ m i, (s.seatTeam t).mem = { s.mem with started := m, icache := i } ∧ (s.mem.icache = [] → i = []) ∧
    s.seatTeam t = { s with teams := s.teams.put (slotKey t.ref) t, mem := { s.mem with started := m, icache := i } } := by
  unfold State.seatTeam State.startLaunch
  split_ifs
  · exact ⟨_, _, rfl, id, rfl⟩
  · exact ⟨_, _, rfl, fun none => by rw [show (s.putTeam t).mem.icache = [] from none]; rfl, rfl⟩

theorem State.landing_seatTeam {s : State} (none : s.mem.icache = []) (id : Nat) (f : Launch → Launch) (t : Team) (core asid target : Nat) :
    ((s.modLaunch id f).seatTeam t).landing core asid target = s.landing core asid target := by
  obtain ⟨m, i, -, empty, eq⟩ := (s.modLaunch id f).seatTeam_mem t
  rw [eq]
  have held : i = [] := empty none
  refine State.landing_congr ?_ ?_ ?_ none held core target
  · exact fun _ => rfl
  · exact fun _ => rfl
  · exact fun _ _ => rfl

/-- Where no LATE record falls due and ENTRY can be landed on, the team stands in its slot. -/
theorem State.startTeam_silent {u : State} {t : Team}
    (silent : (u.seatTeam { t with pkg := u.fab.me }).lateRecord { t with pkg := u.fab.me } = u.seatTeam { t with pkg := u.fab.me })
    (lands : (u.seatTeam { t with pkg := u.fab.me }).landing t.ref.core t.asid t.hdr.entry = none) :
    u.startTeam t = u.seatTeam { t with pkg := u.fab.me } := by
  rw [State.startTeam_eq]
  dsimp only
  rw [silent, lands]

theorem Launch.team_fresh (l : Launch) (now : Nat) (r : TeamRef) (b : Nat) {c : Cand} (fresh : c.from_ = .fresh) :
    (l.team now r b c).index = l.next ∧ (l.team now r b c).region = 0 ∧ (l.team now r b c).coord = [l.next % l.lrec.gridx,
      l.next / l.lrec.gridx % l.lrec.gridy, l.next / (l.lrec.gridx * l.lrec.gridy), l.lrec.gridx, l.lrec.gridy, l.lrec.gridz] := by
  unfold Launch.team
  rw [fresh]
  exact ⟨rfl, rfl, rfl⟩

theorem exec_teamDispatch_idle {s : State} {r : TeamRef} {b : Fin 4} {c : Cand} (chosen : s.choice (dieOf r.core) = some c)
    (apart : s.slotMatches r c = false ∨ s.coreRoom r.core b.val c = false) : exec (.teamDispatch r b) s = .next s := by
  have run : exec (.teamDispatch r b) s = execTeamDispatch r b s := rfl
  unfold execTeamDispatch at run
  rw [run, chosen]
  split_ifs
  · rfl
  · rcases apart with h | h <;> simp [h]

theorem teamDispatch_next {s : State} {r : TeamRef} {b : Fin 4} {c : Cand} {l : Launch} (core : r.core < 384) (slot : r.slot < 16)
    (chosen : s.choice (dieOf r.core) = some c) (fits : s.slotMatches r c = true) (room : s.coreRoom r.core b.val c = true)
    (item : c.item = .launch l.id) (fresh : c.from_ = .fresh) (found : s.launch? l.id = some l) (none : s.mem.icache = [])
    (lands : s.landing r.core l.asid c.hdr.entry = .none)
    (early : 2 ^ 47 ≤ (s.clock.time % 2 ^ 48 + 2 ^ 48 - l.lrec.deadline % 2 ^ 48) % 2 ^ 48) :
    ∃ t a, exec (.teamDispatch r b) s = .next t ∧ t.team? r = some a ∧
        (∀ k, k ≠ slotKey r → t.teams.find k = s.teams.find k) ∧ t.launch? l.id = some { l with next := l.next + 1 } ∧
        a.index = l.next ∧ a.launch = l.id ∧ a.part = l.part ∧ a.asid = l.asid ∧ a.b = b.val ∧ a.hdr = c.hdr ∧ a.fpcw = l.lrec.fpcw ∧
        a.coord = [l.next % l.lrec.gridx, l.next / l.lrec.gridx % l.lrec.gridy, l.next / (l.lrec.gridx * l.lrec.gridy),
                   l.lrec.gridx, l.lrec.gridy, l.lrec.gridz] ∧
        a.argp = l.argp ∧ a.threads = (List.range c.hdr.threads).map (Thread.start s.sched.steps c.hdr.entry) ∧
        (∀ x, a.scratch.byte x = 0) ∧ a.cancel = 0 ∧ a.region = 0 ∧ a.ending = .none := by
  obtain ⟨launches, -, -⟩ := exec_teamDispatch core slot chosen fits room
  obtain ⟨index, region, coord⟩ := l.team_fresh s.sched.steps r b.val fresh
  have took : l.took c = { l with next := l.next + 1 } := by rw [Launch.took, fresh]
  let u : State := s.modLaunch l.id (·.took c)
  let t : Team := { l.team s.sched.steps r b.val c with pkg := u.fab.me }
  obtain ⟨teams, front, -, clock, -⟩ := u.seatTeam_spec t
  have silent : (u.seatTeam t).lateRecord t = u.seatTeam t := by
    rw [State.lateRecord_launch _ (t := t) rfl]
    refine if_pos ?_
    unfold State.lateBy
    rw [clock]
    exact early
  have run := launches l item found
  rw [State.took_launch item, State.startTeam_silent (u := u) silent ((State.landing_seatTeam none l.id (·.took c) t _ _ _).trans lands)] at run
  refine ⟨_, t, run, ?_, fun k other => ?_, ?_, index, rfl, rfl, rfl, rfl, rfl, rfl, coord, rfl, rfl, ?_, rfl, region, rfl⟩
  · exact (congrArg (Tab.find · (slotKey r)) teams).trans (Tab.find_put_same ..)
  · exact (congrArg (Tab.find · k) teams).trans (Tab.find_put_other _ _ other)
  · rw [State.launch?, front]
    exact (State.launch?_modLaunch s l.id fun x => (Launch.took_same c x).1).trans (by rw [found, Option.map_some, took])
  · exact fun _ => rfl

/-! ## Engine writes of a launch that ends, R302 -/

theorem Unplaced.without_launch {u y : Unplaced} {a n : Nat} (h : u.without a n = some y) : y.launch = u.launch := by
  unfold Unplaced.without at h
  dsimp only at h
  split_ifs at h
  cases h
  rfl

theorem Unplaced.foldl_without_launch {base : Nat} {bs : List (Nat × Byte)} {o : Option Unplaced} {y : Unplaced} {id : Nat}
    (start : ∀ x, o = some x → x.launch = id)
    (h : bs.foldl (fun (y : Option Unplaced) b => y.bind (·.without (base + b.1) 1)) o = some y) : y.launch = id := by
  induction bs generalizing o with
  | nil => exact start y h
  | cons b bs ih =>
    refine ih (fun x hx => ?_) h
    obtain ⟨z, hz, cut⟩ := Option.bind_eq_some_iff.1 hx
    rw [Unplaced.without_launch cut, start z hz]

theorem Unplaced.mem_cut {u y : Unplaced} {xs : List Unplaced} (h : y ∈ u.cut xs) : ∃ x ∈ xs, y.launch = x.launch := by
  obtain ⟨x, hx, cut⟩ := List.mem_filterMap.1 h
  refine ⟨x, hx, ?_⟩
  split_ifs at cut
  · cases cut
    rfl
  · exact Unplaced.foldl_without_launch (fun z hz => by cases hz; rfl) cut

theorem Store.enterCells_launch {now id : Nat} {us kept : List Unplaced} {st : Store} (others : ∀ x ∈ kept, x.launch ≠ id) :
    ∀ x ∈ (Store.enterCells now (fun u => u.launch == id) us kept st).unplaced, x.launch ≠ id := by
  induction us generalizing kept st with
  | nil => exact others
  | cons u us ih =>
    unfold Store.enterCells
    dsimp only
    split_ifs with own
    · refine ih fun x hx => ?_
      obtain ⟨y, hy, same⟩ := Unplaced.mem_cut hx
      rw [same]
      exact others y hy
    · refine ih fun x hx => ?_
      rcases List.mem_append.1 hx with hx | hx
      · exact others x hx
      · rw [List.mem_singleton.1 hx]
        simpa using own

/-- No engine write of a launch is left unplaced once all of them are placed. -/
theorem State.placePhys_launch (s : State) (id : Nat) : ∀ x ∈ (s.placePhys .package fun u => u.launch == id).mem.phys.unplaced, x.launch ≠ id := by
  simp only [State.placePhys, State.wakeLines_mem, State.setPhys_phys]
  exact Store.enterCells_launch fun x hx => nomatch hx

theorem State.placePhys_eq (s : State) (sc : Scope) (p : Unplaced → Bool) :
    s.placePhys sc p = { s with mem := { s.mem with phys := (s.placePhys sc p).mem.phys }, teams := (s.placePhys sc p).teams } := by
  unfold State.placePhys
  dsimp only
  rw [State.wakeLines_eq]
  rfl

theorem State.hostWrite_launch {s : State} {id : Nat} (others : ∀ x ∈ s.mem.phys.unplaced, x.launch ≠ id) (a : Nat) (bs : List Byte) :
    ∀ x ∈ (s.hostWrite a bs).mem.phys.unplaced, x.launch ≠ id := by
  intro x hx
  unfold State.hostWrite State.physWrite at hx
  simp only [State.wakeLines_mem, State.setPhys_phys, if_neg (physKind_hostPa a)] at hx
  obtain ⟨u, hu, cut⟩ := List.mem_filterMap.1 hx
  split_ifs at cut
  · rw [Unplaced.without_launch cut]
    exact others u hu
  · cases cut
    exact others x hu

theorem State.status_launch {s : State} {id : Nat} (others : ∀ x ∈ s.mem.phys.unplaced, x.launch ≠ id) (p type detail n seq launch : Nat)
    (vec : Option Nat) : ∀ x ∈ (s.status p type detail n seq launch vec).mem.phys.unplaced, x.launch ≠ id := by
  unfold State.status
  dsimp only
  split_ifs
  · exact others
  · rw [State.putStatus_mem]
    exact State.hostWrite_launch others _ _
  · exact others
  · exact others

/-- A status record leaves the front end's work and the argument pages as they were. -/
structure State.SameFront (s t : State) : Prop where
  launches : t.front.launches = s.front.launches
  intervals : t.front.intervals = s.front.intervals
  pages : t.mem.argPages = s.mem.argPages

theorem State.status_sameFront (s : State) (p type detail n seq launch : Nat) (vec : Option Nat) :
    s.SameFront (s.status p type detail n seq launch vec) := by
  have put (r : Status) : s.SameFront (s.putStatus p r) := by
    have front : (s.putStatus p r).front = { s.front with irqs := (s.putStatus p r).front.irqs } := by
      rw [State.putStatus_eq]
      cases r.vec with
      | none => rw [Option.elim_none, State.written_front]
      | some n =>
        rw [Option.elim_some, State.irq]
        split_ifs
        · rw [State.written_front]
        · exact congrArg (fun f : Front => { f with irqs := (s.written p r).front.irqs ++ [(p, n)] }) (State.written_front s p r)
    refine ⟨by rw [front], by rw [front], ?_⟩
    rw [State.putStatus_mem, State.hostWrite, State.physWrite_eq]
  unfold State.status
  dsimp only
  split_ifs
  · exact ⟨rfl, rfl, rfl⟩
  · exact put _
  · exact ⟨rfl, rfl, rfl⟩
  · exact ⟨rfl, rfl, rfl⟩

/-! ## LAUNCH_COMPLETE, R302 -/

/-- A launch is gone, with its intervals, its hazards, its argument page and its engine writes. -/
def State.launchGone (s : State) (id : Nat) : State :=
  let s := s.placePhys .package fun u => u.launch == id
  ((({ s with front := { s.front with launches := s.front.launches.filter (·.id != id) } } : State).ownerDone (.launch id)).dropArgPage id)

theorem exec_launchComplete_counts {s : State} {l : Launch} (found : s.launch? l.id = some l) (counts : s.launchCount l ≠ 0) :
    exec (.launchComplete l.id) s = .next s := by
  have run : exec (.launchComplete l.id) s = execLaunchComplete l.id s := rfl
  unfold execLaunchComplete at run
  rw [found] at run
  exact run.trans (if_pos counts)

theorem exec_launchComplete {s : State} {l : Launch} (found : s.launch? l.id = some l) (zero : s.launchCount l = 0) (regions : s.fab.regions = [])
    (coll : s.coll.live = []) (levels : s.front.levels = []) (dens : s.front.dens = []) :
    exec (.launchComplete l.id) s = .next ((s.launchGone l.id).doneRecord l) := by
  have closed : (s.closeRegions fun _ r => r.launch == l.id) = s := by unfold State.closeRegions; rw [regions]; rfl
  have gone : (s.launchGone l.id).front.levels = [] ∧ (s.launchGone l.id).front.dens = [] := by
    unfold State.launchGone
    rw [State.placePhys_eq]
    refine ⟨levels, ?_⟩
    show s.front.dens.map _ = []
    rw [dens]
    rfl
  have settled : (s.launchGone l.id).settleWork = s.launchGone l.id := by
    simp [State.settleWork, State.settleLevels, State.settleDens, gone]
  have run : exec (.launchComplete l.id) s = execLaunchComplete l.id s := rfl
  unfold execLaunchComplete at run
  rw [found] at run
  dsimp only at run
  rw [if_neg (not_not.2 zero), closed, if_neg (by simp [regions, coll])] at run
  exact run.trans (congrArg (fun t : State => Host.Outcome.next (t.doneRecord l)) settled)

theorem State.launchGone_spec (s : State) (id : Nat) :
    (s.launchGone id).front.launches = (s.front.launches.filter (·.id != id)).map (fun x => { x with hazards := x.hazards.filter (· != .launch id) }) ∧
      (s.launchGone id).front.intervals = s.front.intervals.filter (·.owner != .launch id) ∧
      (s.launchGone id).mem.argPages = s.mem.argPages.filter (·.owner != id) ∧ (s.launchGone id).parts = s.parts ∧
      (s.launchGone id).front.irqs = s.front.irqs ∧ (s.launchGone id).clock = s.clock := by
  unfold State.launchGone
  rw [State.placePhys_eq]
  exact ⟨rfl, rfl, rfl, rfl, rfl, rfl⟩

/-- The record of a launch's end is one status record, or none. -/
theorem State.doneRecord_induction {P : State → Prop} {s : State} (l : Launch) (none : P s)
    (status : ∀ type detail vec, P (s.status l.part type detail l.id l.seq l.id vec)) : P (s.doneRecord l) := by
  unfold State.doneRecord
  dsimp only
  split_ifs
  · exact none
  · exact status ..
  · exact status ..
  · exact status ..
  · exact none

theorem State.doneRecord_silent (s : State) {l : Launch}
    (silent : (l.lrec.cirq = false ∧ l.cancelled = false) ∨ l.killed = true ∨ l.timedOut = true) : s.doneRecord l = s := by
  unfold State.doneRecord
  rcases silent with ⟨open_, whole⟩ | other
  · simp [open_, whole]
  · simp [other]

theorem State.doneRecord_status (s : State) {l : Launch} (reports : l.lrec.cirq = true ∨ l.cancelled = true) (alive : l.killed = false)
    (timely : l.timedOut = false) : s.doneRecord l = s.status l.part (if l.cancelled then 4 else 3) (if l.cancelled then l.overBudget.toNat else 0)
      l.id l.seq l.id (if l.lrec.cirq then some 0 else none) := by
  unfold State.doneRecord
  cases whole : l.cancelled with
  | true => simp [alive, timely]
  | false => simp [alive, timely, reports.resolve_right (by simp [whole])]

theorem launchComplete_ends {s : State} {l : Launch} (found : s.launch? l.id = some l) (zero : s.launchCount l = 0) (regions : s.fab.regions = [])
    (coll : s.coll.live = []) (levels : s.front.levels = []) (dens : s.front.dens = []) (count : s.parts.length = 32) :
    ∃ t, exec (.launchComplete l.id) s = .next t ∧
        (∀ x ∈ t.front.launches, x.id ≠ l.id) ∧ (∀ e ∈ t.front.intervals, e.owner ≠ .launch l.id) ∧
        (∀ x ∈ s.front.launches, x.id ≠ l.id →
          { x with hazards := x.hazards.filter fun i => i != .launch l.id } ∈ t.front.launches) ∧
        (∀ p ∈ t.mem.argPages, p.owner ≠ l.id) ∧ (∀ u ∈ t.mem.phys.unplaced, u.launch ≠ l.id) ∧
        (l.lrec.cirq = true ∨ l.cancelled = true → l.killed = false → l.timedOut = false → l.part < 32 →
          let q := s.part l.part
          let place := hostPa (q.sqbase + 32 * (q.sqtail % 2 ^ q.sqcfg))
          let record := leBytes 4 (if l.cancelled then 4 else 3) ++ leBytes 4 (if l.cancelled then l.overBudget.toNat else 0)
            ++ leBytes 4 l.id ++ leBytes 4 0 ++ leBytes 8 l.seq ++ leBytes 8 s.clock.time
          q.flr = false → q.held = [] → q.ringRoom = true →
            (t.part l.part).sqtail = q.sqtail + 1 ∧ (∀ j < 32, t.mem.phys.byte (place + j) = record.getD j 0) ∧
            (l.lrec.cirq = true → (l.part, 0) ∈ t.front.irqs)) ∧
        ((l.lrec.cirq = false ∧ l.cancelled = false) ∨ l.killed = true ∨ l.timedOut = true → t.parts = s.parts) := by
  obtain ⟨launches, intervals, pages, parts, irqs, clock⟩ := s.launchGone_spec l.id
  have same : (s.launchGone l.id).SameFront ((s.launchGone l.id).doneRecord l) :=
    State.doneRecord_induction (P := (s.launchGone l.id).SameFront) l ⟨rfl, rfl, rfl⟩ fun _ _ _ => State.status_sameFront ..
  refine ⟨_, exec_launchComplete found zero regions coll levels dens, fun x hx => ?_, fun e he => ?_, fun x hx other => ?_, fun p hp => ?_,
    fun u hu => ?_, fun reports alive timely inside => ?_, fun silent => ?_⟩
  · rw [same.launches, launches] at hx
    obtain ⟨y, hy, rfl⟩ := List.mem_map.1 hx
    simpa using (List.mem_filter.1 hy).2
  · rw [same.intervals, intervals] at he
    simpa using (List.mem_filter.1 he).2
  · rw [same.launches, launches]
    exact List.mem_map.2 ⟨x, List.mem_filter.2 ⟨hx, by simpa using other⟩, rfl⟩
  · rw [same.pages, pages] at hp
    simpa using (List.mem_filter.1 hp).2
  · have placed : ∀ u ∈ (s.launchGone l.id).mem.phys.unplaced, u.launch ≠ l.id := State.placePhys_launch s l.id
    exact State.doneRecord_induction (P := fun t => ∀ u ∈ t.mem.phys.unplaced, u.launch ≠ l.id) l placed
      (fun _ _ _ => State.status_launch placed _ _ _ _ _ _ _) u hu
  · have part : (s.launchGone l.id).part l.part = s.part l.part := by unfold State.part; rw [parts]
    have bound : l.part < (s.launchGone l.id).parts.length := by rw [parts, count]; exact inside
    intro q place record running held room
    rw [State.doneRecord_status _ reports alive timely, State.status_eq (part ▸ running) (part ▸ held) (part ▸ room), clock]
    refine ⟨?_, fun j hj => ?_, fun cirq => ?_⟩
    · rw [State.putStatus_part _ bound, part]
    · have stored := (s.launchGone l.id).putStatus_inside l.part ⟨if l.cancelled then 4 else 3, if l.cancelled then l.overBudget.toNat else 0, l.id, l.seq,
        s.clock.time, l.id, if l.lrec.cirq then some 0 else none⟩ hj
      rw [part] at stored
      exact stored
    · rw [State.putStatus_irqs _ bound (part ▸ running), cirq]
      exact List.mem_append_right _ (List.mem_singleton.2 rfl)
  · rw [State.doneRecord_silent _ silent, parts]

/-! ## The end of a defer budget, R304 -/

/-- A team that is not ending yet issues nothing more and waits for nothing. -/
theorem State.beginDiscard_team {s : State} {r : TeamRef} {a : Team} (found : s.team? r = some a) (runs : a.ending = none) (why : Ending) :
    ∃ b, (s.beginDiscard r why).team? r = some b ∧ b.ending = some why ∧ b.fault = a.fault ∧ ∀ g ∈ b.grps, g.clause = none ∧ g.waits = [] := by
  let stopped (t : Team) : Team := { t with
    ending := some why, grants := [],
    grps := t.grps.map fun g => { g with waits := [], park := none, stall := none, clause := none, trap := none, marks := [] } }
  refine ⟨stopped a, ?_, rfl, rfl, fun g hg => ?_⟩
  · unfold State.beginDiscard
    rw [found]
    simp only [runs, Option.isSome_none, Bool.false_eq_true, if_false]
    exact State.modTeam_team? found stopped
  · obtain ⟨g', -, rfl⟩ := List.mem_map.1 hg
    exact ⟨rfl, rfl⟩

/-- With no collective live a team has no chunk to fire. -/
theorem State.dropUnfired_none {s : State} (none : s.coll.live = []) (t : Team) : s.dropUnfired t = s := by
  have own : s.collOf t = .none := by unfold State.collOf; rw [none]; cases t.item <;> rfl
  unfold State.dropUnfired State.unfired
  rw [own]

theorem State.overBudget_team {s : State} {r : TeamRef} {a : Team} (found : s.team? r = some a) (ref : a.ref = r) (runs : a.ending = none)
    (coll : s.coll.live = []) :
    ∃ b, (s.overBudget a).team? r = some b ∧ b.ending = some .cancel ∧ b.fault = a.fault ∧ ∀ g ∈ b.grps, g.clause = none ∧ g.waits = [] := by
  unfold State.overBudget State.cancelTeam
  rw [ref]
  cases a.item with
  | launch id =>
    rw [State.dropUnfired_none (show (s.modLaunch id _).coll.live = [] from coll)]
    exact State.beginDiscard_team (s := s.modLaunch id _) found runs .cancel
  | den n => rw [State.dropUnfired_none coll]; exact State.beginDiscard_team found runs .cancel
  | reduce p cid => rw [State.dropUnfired_none coll]; exact State.beginDiscard_team found runs .cancel

/-- A team is past its defer budget, or nothing happens. -/
theorem exec_cancelBudgetExpiry {s : State} {r : TeamRef} {a : Team} (found : s.team? r = some a) (runs : a.ending = none) :
    exec (.cancelBudgetExpiry r) s = .next (if a.cancelBy.any fun b => decide (b ≤ s.clock.time) then s.overBudget a else s) := by
  have run : exec (.cancelBudgetExpiry r) s = execCancelBudgetExpiry r s := rfl
  unfold execCancelBudgetExpiry at run
  rw [run, found]
  simp only [runs, Option.isNone_none, Bool.true_and]
  split_ifs <;> rfl

theorem cancelBudgetExpiry_ends {s : State} {r : TeamRef} {a : Team} (found : s.team? r = some a) (ref : a.ref = r) (runs : a.ending = none) :
    (a.cancelBy = none ∨ (∃ w, a.cancelBy = some w ∧ s.clock.time < w) → exec (.cancelBudgetExpiry r) s = .next s) ∧
    ∀ w, a.cancelBy = some w → w ≤ s.clock.time → s.coll.live = [] →
      ∃ t b, exec (.cancelBudgetExpiry r) s = .next t ∧ t.team? r = some b ∧ b.ending = some .cancel ∧ b.fault = a.fault ∧
        ∀ g ∈ b.grps, g.clause = none ∧ g.waits = [] := by
  rw [exec_cancelBudgetExpiry found runs]
  refine ⟨?_, fun w due past coll => ?_⟩
  · rintro (open_ | ⟨w, due, before⟩)
    · simp [open_]
    · simp [due, before]
  · obtain ⟨b, rest⟩ := State.overBudget_team found ref runs coll
    exact ⟨s.overBudget a, b, by simp [due, past], rest⟩

/-- Settles O34: the die's choice, its dispatch, a launch's completion and the end of a defer budget each by their own lemmas. -/
theorem teamsAreDispatchedAndLaunchesComplete : Obligations.TeamsAreDispatchedAndLaunchesComplete :=
  ⟨diesChoose, dispatchesOfEveryItem,
    fun _ _ _ _ core slot chosen => ⟨exec_teamDispatch_idle chosen, fun _ => teamDispatch_next core slot chosen⟩,
    fun _ _ found => ⟨exec_launchComplete_counts found, launchComplete_ends found⟩,
    fun _ _ _ found ref runs => cancelBudgetExpiry_ends found ref runs⟩

end Sys2Proof.Machine
end
